-- ==== Sys2Proof/Word.lean ====
section
/-! DEFINITION. The words of the Ovyen and the plainest arithmetic on them (00 R3, R9): widths, tables by number. -/

namespace Sys2Proof

/-- A byte of memory (R3). -/
abbrev Byte := BitVec 8
/-- A 32-bit register word. -/
abbrev Word := BitVec 32
/-- A 64-bit value: a register pair, a seg-address, a native word (R3, R27, R39). -/
abbrev DWord := BitVec 64
/-- One bit for each of the 32 hardware lanes: EM, LANES, a predicate, FAULTMASK. -/
abbrev LaneMask := BitVec 32

/-- A sparse table by number: keys strictly rising, no entry equal to what an absent key reads as. -/
abbrev Tab (α : Type) := List (Nat × α)

/-- Bits `[lo + n - 1 : lo]` of a number, as a number. -/
def bitsOf (x lo n : Nat) : Nat := (x / 2 ^ lo) % 2 ^ n

/-- Bit `i` of a number. -/
def bitOf (x i : Nat) : Bool := (x / 2 ^ i) % 2 == 1

/-- 1 for true, 0 for false. -/
def bnat (b : Bool) : Nat := if b then 1 else 0

/-- The lanes 0 to 31, ascending. -/
def allLanes : List Nat := List.range 32

/-- A mask with every lane set. -/
def allOnes : LaneMask := 0xFFFFFFFF#32

/-- Lane `l` of a mask. -/
def laneOf (m : LaneMask) (l : Nat) : Bool := m.getLsbD l

/-- The lanes of a mask, ascending (R122). -/
def lanesOf (m : LaneMask) : List Nat := allLanes.filter (laneOf m)

/-- The mask of the lanes that satisfy a test. -/
def maskWhere (f : Nat → Bool) : LaneMask :=
  BitVec.ofNat 32 (allLanes.foldl (fun acc l => if f l then acc + 2 ^ l else acc) 0)

/-- The mask of one lane. -/
def laneBit (l : Nat) : LaneMask := BitVec.ofNat 32 (2 ^ l)

/-- The lowest lane of a mask, or 0 when it is empty. -/
def lowestLane (m : LaneMask) : Nat := (lanesOf m).headD 0

/-- Sign-extend an `n`-bit number to an integer (R9: sx). -/
def sxNat (x n : Nat) : Int := if x % 2 ^ n < 2 ^ (n - 1) then (x % 2 ^ n : Nat) else (x % 2 ^ n : Nat) - (2 ^ n : Nat)

/-- Narrow an exact integer to `n` bits (R9(a): an explicit slice). -/
def narrow (n : Nat) (x : Int) : Nat := (x % (2 ^ n : Nat)).toNat

/-- Clamp an exact integer to a range (R9(b): sat). -/
def clampInt (lo hi x : Int) : Int := if x < lo then lo else if hi < x then hi else x

/-- Round up to a multiple of `m`. -/
def roundUp (x m : Nat) : Nat := (x + m - 1) / m * m

/-- The serial-number order of R267 and R288 on `n`-bit numbers: a before b. -/
def serialLt (n a b : Nat) : Bool :=
  let d := (b + 2 ^ n - a % 2 ^ n) % 2 ^ n
  1 ≤ d && d < 2 ^ (n - 1)

/-- The later of two serial numbers (R267: smax). -/
def serialMax (n a b : Nat) : Nat := if serialLt n a b then b else a

end Sys2Proof
end

