-- ==== Sys2Proof/Config.lean ====
section
/-! DEFINITION. What the implementation fixes (the KDN-7200 figures of 00 R1, 01 R10, R26) and the free values: opaque constants with no body, for what the spec leaves open. -/

namespace Sys2Proof.Config

/-- 01 R10: partitions and compute dies. -/
def nPartitions : Nat := 4
/-- 01 R10: clusters of a partition. -/
def clustersPerPartition : Nat := 12
/-- 01 R10: cores of a cluster. -/
def coresPerCluster : Nat := 4
/-- 01 R10: quadrants of a core. -/
def quadsPerCore : Nat := 4
/-- 01 R10: wave slots of a quadrant. -/
def slotsPerQuad : Nat := 32
/-- 01 R14: wave-registers of a quadrant at delivery. -/
def quadRegs : Nat := 2048
/-- 01 R15: tiles of a core at delivery. -/
def coreTiles : Nat := 128
/-- 01 R16: SRAM banks of a cluster. -/
def sramBanks : Nat := 128
/-- 01 R10: translation lookaside buffer entries of a cluster (R312). -/
def tlbEntries : Nat := 4096
/-- 01 R10: monitor entries of a cluster. -/
def clusterMonitors : Nat := 256
/-- 10 R231: words a FIFO bank holds. -/
def fifoWords : Nat := 16384
/-- 12 R282: copy slots of a cluster's engine. -/
def bteSlots : Nat := 64
/-- 17 R336: matrix and epilogue commands not started that a wave may hold. -/
def engineRoom : Nat := 2
/-- 17 R336: copies not started that a wave may hold. -/
def copyRoom : Nat := 16
/-- 17 R338: bytes of one save area. -/
def saveAreaBytes : Nat := 0x18000
/-- 11 R272: partial lines a core may hold. -/
def partialLines : Nat := 256
/-- 18 R368: bytes of a replay buffer. -/
def replayBytes : Nat := 4 * 1024 * 1024
/-- 01 R21, R26: bytes of the HBM of a partition, three stacks of 64 GB. -/
def hbmBytes : Nat := 3 * 2 ^ 36
/-- 01 R26: bytes of the second tier of a partition, 384 GB. -/
def tierBytes : Nat := 384 * 2 ^ 30
/-- 01 R26: bytes of the Cistern flash. -/
def cisternBytes : Nat := 256 * 2 ^ 30
/-- 01 R22: HBM channels of a partition, and tier channels. -/
def hbmChannels : Nat := 96
def tierChannels : Nat := 16

/-- Free value: what an "undefined value" of R6 or R7 is, drawn with a counter of the state (log 2, DESIGN CHOICE). -/
opaque freeWord : Nat → BitVec 32
/-- Free value: an undefined byte (R6), drawn with a counter of the state (log 2, DESIGN CHOICE). -/
opaque freeByte : Nat → BitVec 8

/-- Free value: the bits an approximation of R116 returns, a fixed function of its input and rounding mode (R117).
`fn` numbers FRCP FRSQ FEXP2 FLOG2 FSIN FCOS FTANH as 0 to 6. Used only within the bound of R116 (log 10, DESIGN CHOICE). -/
opaque approx (fn rm : Nat) (x : BitVec 32) : BitVec 32

/-- Free value: the device feature vector FEATV (R383, R387), fixed for the device (log 6, DESIGN CHOICE). -/
opaque featv : BitVec 64
/-- Free value: the bytes of an erase block of the Cistern less one (R385), fixed for the device (log 17, DESIGN CHOICE). -/
opaque cistBlockLess : Nat
/-- The bytes of an erase block, at most the whole store (log 17, DESIGN CHOICE). -/
def cistBlock : Nat := cistBlockLess % cisternBytes + 1
/-- Free value: the erase cycles a block is rated for less one (R387 CISTWEAR), fixed for the device (log 17, DESIGN CHOICE). -/
opaque cistRatedLess : Nat

/-- Free value: SHA-512 of a byte string, as the number the digest is (R383, R406; log 11, DESIGN CHOICE). -/
opaque sha512 : List (BitVec 8) → BitVec 512
/-- Free value: an ECDSA signature over P-521 by the key numbered `key` (R384, R405; log 11, DESIGN CHOICE). -/
opaque ecdsaSign (key : Nat) (msg : List (BitVec 8)) : BitVec 1056
/-- Free value: whether a signature verifies under a public key (R384; log 11, DESIGN CHOICE). -/
opaque ecdsaVerify (key : BitVec 512) (msg : List (BitVec 8)) (sig : BitVec 1056) : Bool
/-- Free value: the device's own public key as the SHA-512 that names it (R386 SIGNER; log 11, DESIGN CHOICE). -/
opaque deviceKey : BitVec 512
/-- Free value: the certificate chain that ends at a Sisil root (R405; log 11, DESIGN CHOICE). -/
opaque certChain : List (BitVec 8)
/-- Free value: the bytes measured under an index of R406 for a firmware image (log 11, DESIGN CHOICE). -/
opaque measured : Nat → List (BitVec 8)
/-- Free value: whether a firmware image verifies against the Sisil root key (R407; log 11, DESIGN CHOICE). -/
opaque firmwareVerifies : List (BitVec 8) → Bool
/-- Free value: the rollback counter a firmware image carries (R407; log 7, DESIGN CHOICE). -/
opaque firmwareCounter : List (BitVec 8) → Nat

/-- Free value: the L1 slice that holds a line (R17), a fixed function of context and seg-address (log 12, DESIGN CHOICE). -/
opaque sliceOf (ctx : Nat) (seg : Nat) : Nat

/-- Free value: the order in which an aligned run of 96 granules of a partition's HBM uses its 96 channels, a fixed mapping (R22, log 12,
DESIGN CHOICE). -/
opaque hbmChannel (part run : Nat) : Equiv.Perm (Fin 96)
/-- Free value: the same of an aligned run of 16 granules of a partition's tier (R22, log 12, DESIGN CHOICE). -/
opaque tierChannel (part run : Nat) : Equiv.Perm (Fin 16)
/-- Free value: the DRAM row group of a channel that holds a sector (R356), a fixed function of its number (log 12, DESIGN CHOICE). -/
opaque dramRow : Nat → Nat

/-- The channel that holds a byte of a partition's HBM or tier, in 1 KiB granules (R22): `off` is its offset in the region. HBM channels
are 0 to 383 of the device, tier channels 384 to 447. -/
def channelOf (part off : Nat) (tier : Bool) : Nat :=
  let g := off / 1024
  if tier then 384 + tierChannels * part + (tierChannel part (g / 16) ⟨g % 16, Nat.mod_lt _ (by decide)⟩).val
  else hbmChannels * part + (hbmChannel part (g / 96) ⟨g % 96, Nat.mod_lt _ (by decide)⟩).val

end Sys2Proof.Config
end

