-- ==== Sys2Proof/Syntax.lean ====
section
/-! DEFINITION. The instructions and the machine's events: one constructor of Instr for each row of spec/opcode_table.json. -/

namespace Sys2Proof

/-- A general register: V0–V191 or S0–S55 (02 R28). -/
inductive Reg where
  | v (n : Nat)
  | s (n : Nat)
  deriving DecidableEq, Repr

/-- A source operand (02 R28): a register, the literal, or a special operand. -/
inductive Src where
  | v (n : Nat)
  | s (n : Nat)
  | lit (w : Word)
  | zero
  | laneid
  | wavew
  | em
  | ones
  deriving DecidableEq, Repr

/-- A destination operand (02 R28): a register, or ZERO, whose result is discarded. -/
inductive Dst where
  | v (n : Nat)
  | s (n : Nat)
  | zero
  deriving DecidableEq, Repr

/-- Operation types (03 R71). -/
inductive Ty where
  | i32 | n32 | b32 | f32 | i64 | n64 | b64 | i16x2 | n16x2 | f16x2 | bf16x2 | f16 | bf16
  deriving DecidableEq, Repr

/-- Rounding modes (04 R89). -/
inductive RM where
  | rn | rz | rd | ru | ra | sr
  deriving DecidableEq, Repr

/-- Element formats (04 R82), in code order. -/
inductive Fmt where
  | fp32 | bf16 | fp16 | e4m3 | e5m2 | e3m2 | e2m3 | e2m1 | i8 | n8 | i4 | t2
  deriving DecidableEq, Repr

/-- Relations of ICMP and FCMP (03 R72). -/
inductive Cond where
  | eq | ne | lt | le | gt | ge | equ | neu | ltu | leu | gtu | geu | num | nan
  deriving DecidableEq, Repr

/-- Sizes of the short forms (02 R35): 32 bits, 64 bits, 16 bits packed two to a register. -/
inductive Sz where
  | w32 | w64 | p16
  deriving DecidableEq, Repr

/-- Memory sizes (03 R73). -/
inductive MSize where
  | n8 | i8 | n16 | i16 | b32 | b64 | b128
  deriving DecidableEq, Repr

/-- Scopes (03 R73). -/
inductive Scope where
  | wave | team | cluster | device | system
  deriving DecidableEq, Repr

/-- Atomic operations (03 R73, 10 R242). -/
inductive AOp where
  | add | sub | minI | maxI | minN | maxN | and | or | xor | xchg | inc | dec
  deriving DecidableEq, Repr

/-- What every full form carries beside its operands (02 R36): the governing predicate or branch condition, the
set-flag, and the wait mask (0 in native code, where the clause header holds it). -/
structure Ctl where
  pred : Nat
  neg  : Bool
  setf : Option Nat
  wait : BitVec 12
  deriving DecidableEq, Repr

/-- One source, one destination, with the layout-A byte (03 R70). -/
structure Un where
  ctl : Ctl
  d   : Dst
  a   : Src
  ty  : Ty
  rm  : RM
  sat : Bool
  deriving DecidableEq, Repr

/-- Two sources. -/
structure Bin where
  ctl : Ctl
  d   : Dst
  a   : Src
  b   : Src
  ty  : Ty
  rm  : RM
  sat : Bool
  deriving DecidableEq, Repr

/-- Three sources (c:R). In Zynran the type is the natural one, RN, no SAT (03 R69). -/
structure Tri where
  ctl : Ctl
  d   : Dst
  a   : Src
  b   : Src
  c   : Src
  ty  : Ty
  rm  : RM
  sat : Bool
  deriving DecidableEq, Repr

/-- A compare writing predicate `d` (03 R72, 05 R110). -/
structure Cmp where
  ctl  : Ctl
  d    : Nat
  a    : Src
  b    : Src
  ty   : Ty
  cond : Cond
  deriving DecidableEq, Repr

/-- SEL: `c` names a predicate source, 15 for true (05 R110). -/
structure Sel where
  ctl : Ctl
  d   : Dst
  a   : Src
  b   : Src
  c   : Nat
  ty  : Ty
  deriving DecidableEq, Repr

/-- FCLASS with its mask byte (05 R115). -/
structure Cls where
  ctl  : Ctl
  d    : Nat
  a    : Src
  mask : BitVec 8
  deriving DecidableEq, Repr

/-- F2I and I2F: destination and source types (05 R118). -/
structure CvtT where
  ctl : Ctl
  d   : Dst
  a   : Src
  dst : Ty
  src : Ty
  rm  : RM
  sat : Bool
  deriving DecidableEq, Repr

/-- FCVT and FUPK: destination and source element formats (05 R118). -/
structure CvtF where
  ctl : Ctl
  d   : Dst
  a   : Src
  dst : Fmt
  src : Fmt
  rm  : RM
  sat : Bool
  deriving DecidableEq, Repr

/-- FPK, QNT and DQNT: one element format (05 R118). FPK leaves `b` ZERO. -/
structure CvtP where
  ctl : Ctl
  d   : Dst
  a   : Src
  b   : Src
  fmt : Fmt
  rm  : RM
  sat : Bool
  deriving DecidableEq, Repr

/-- PLOP: predicates and a 4-bit table (05 R121). -/
structure Plop where
  ctl : Ctl
  d   : Nat
  a   : Nat
  b   : Nat
  lut : BitVec 4
  deriving DecidableEq, Repr

/-- Sub-operations of SHFL (05 R123). -/
inductive ShflSub where
  | idx | up | down | xor
  deriving DecidableEq, Repr

/-- Sub-operations of VRED and VSCAN (05 R124). -/
inductive RedOp where
  | add | min | max | and | or | xor
  deriving DecidableEq, Repr

/-- Sub-operations of VOTE (05 R126). -/
inductive VoteSub where
  | all | any | eq
  deriving DecidableEq, Repr

/-- SHFL. -/
structure Shfl where
  ctl : Ctl
  d   : Dst
  a   : Src
  b   : Src
  sub : ShflSub
  w64 : Bool
  deriving DecidableEq, Repr

/-- VRED and VSCAN; `exc` is VSCAN's .EXC and false for VRED. -/
structure Red where
  ctl : Ctl
  d   : Dst
  a   : Src
  op  : RedOp
  exc : Bool
  ty  : Ty
  deriving DecidableEq, Repr

/-- VOTE: predicate sources and destinations. -/
structure Vote where
  ctl : Ctl
  d   : Nat
  a   : Nat
  sub : VoteSub
  deriving DecidableEq, Repr

/-- BALLOT. -/
structure Ballot where
  ctl : Ctl
  d   : Dst
  a   : Nat
  deriving DecidableEq, Repr

/-- MATCH; `all` selects .ALL. -/
structure Match where
  ctl : Ctl
  d   : Dst
  a   : Src
  all : Bool
  w64 : Bool
  deriving DecidableEq, Repr

/-- A short form: a Z32 parcel or a pair half (02 R35, R43). The destination of a binary form is also its first
source. `rm` is RN in a Z32 parcel (03 R68). -/
structure Short where
  pred : Nat
  neg  : Bool
  sz   : Sz
  d    : Dst
  a    : Src
  rm   : RM
  deriving DecidableEq, Repr

/-- The short store: `d` is the data, a source (03 R67). -/
structure ShortSt where
  pred : Nat
  neg  : Bool
  sz   : Sz
  d    : Src
  a    : Src
  deriving DecidableEq, Repr

/-- A code displacement in units of 4 or 8 bytes, signed, 20 bits (08 R178). -/
abbrev Disp := BitVec 20

/-- BRA: target and reconvergence displacements (08 R180). -/
structure Bra where
  ctl : Ctl
  tgt : Disp
  rc  : Disp
  deriving DecidableEq, Repr

/-- BRAU with a literal target; BRA.DEC adds the counter register. -/
structure BrauT where
  ctl : Ctl
  tgt : Disp
  deriving DecidableEq, Repr

/-- BRA.DEC (03 R66). -/
structure BraDec where
  ctl : Ctl
  d   : Nat
  tgt : Disp
  deriving DecidableEq, Repr

/-- BRA.DEC with a register pair for its target (03 R66, 08 R183). -/
structure BraDecReg where
  ctl : Ctl
  d   : Nat
  a   : Reg
  deriving DecidableEq, Repr

/-- BRAU and RET with a register pair. -/
structure RegTgt where
  ctl : Ctl
  a   : Reg
  deriving DecidableEq, Repr

/-- BRX. -/
structure Brx where
  ctl : Ctl
  a   : Reg
  rc  : Disp
  deriving DecidableEq, Repr

/-- CALL: `d` is an even V register. -/
structure CallT where
  ctl : Ctl
  d   : Nat
  tgt : Disp
  deriving DecidableEq, Repr

/-- CALLX. -/
structure CallX where
  ctl : Ctl
  d   : Nat
  a   : Reg
  deriving DecidableEq, Repr

/-- Operations of EMWR (08 R187). -/
inductive EmOp where
  | set | and | or
  deriving DecidableEq, Repr

/-- Values of GSET (08 R193). -/
inductive GVal where
  | unresolved | true | false | from (a : Src)
  deriving DecidableEq, Repr

/-- SYSR: `addr` the 12-bit address, `w64` the pair form (08 R180). -/
structure Sysr where
  ctl  : Ctl
  d    : Dst
  addr : Nat
  w64  : Bool
  deriving DecidableEq, Repr

/-- SYSW. -/
structure Sysw where
  ctl  : Ctl
  addr : Nat
  w64  : Bool
  a    : Src
  deriving DecidableEq, Repr

/-- What an engine command carries beside its operands (02 R38): the guard slot, when it is guarded. -/
abbrev Guard := Option Nat

/-- The B operand of a matrix command (06 R140): a V run or an operand handle. -/
inductive BOp where
  | regs (v : Nat)
  | handle (h : Nat)
  deriving DecidableEq, Repr

/-- MMA, MMAS and MMAT (06 R140): `meta` is MMAS's metadata run, `scl` the scale run. -/
structure MmaOp where
  ctl   : Ctl
  guard : Guard
  d     : Nat
  a     : Nat
  b     : BOp
  c     : Nat
  md    : Option Nat
  acc   : Bool
  scl   : Option Nat
  deriving DecidableEq, Repr

/-- ZCLR. -/
structure ZclrOp where
  ctl   : Ctl
  guard : Guard
  d     : Nat
  deriving DecidableEq, Repr

/-- ZLD and ZST: the S register with the offset, the stride in 16-byte units. -/
structure ZmemOp where
  ctl    : Ctl
  guard  : Guard
  d      : Nat
  a      : Nat
  stride : Nat
  deriving DecidableEq, Repr

/-- ZMOV: tile `a`, block, first of 16 V registers. -/
structure ZmovOp where
  ctl   : Ctl
  guard : Guard
  d     : Nat
  a     : Nat
  blk   : Nat
  deriving DecidableEq, Repr

/-- ZADD: tiles, format word register. -/
structure ZaddOp where
  ctl   : Ctl
  guard : Guard
  d     : Nat
  a     : Nat
  c     : Nat
  deriving DecidableEq, Repr

/-- EPI: tile, S pair of the parameter block, first destination V register, first S coordinate. -/
structure EpiOp where
  ctl   : Ctl
  guard : Guard
  d     : Nat
  a     : Nat
  b     : Option Nat
  c     : Option Nat
  blk   : Nat
  deriving DecidableEq, Repr

/-- ACTLD. -/
structure ActldOp where
  ctl  : Ctl
  bank : Nat
  a    : Nat
  deriving DecidableEq, Repr

/-- OHDL: `a` is an S register or the literal. -/
structure OhdlOp where
  ctl : Ctl
  h   : Nat
  a   : Src
  deriving DecidableEq, Repr

/-- SPFENCE: one handle, or all. -/
structure SpfenceOp where
  ctl : Ctl
  h   : Nat
  all : Bool
  deriving DecidableEq, Repr

/-- LD and LDSP (10 R235). For LD, `a` is a pair; for LDSP a 32-bit offset. -/
structure LdOp where
  ctl   : Ctl
  d     : Dst
  a     : Reg
  b     : Src
  size  : MSize
  scope : Scope
  deriving DecidableEq, Repr

/-- ST and STSP: `d` is the data. -/
structure StOp where
  ctl   : Ctl
  d     : Src
  a     : Reg
  b     : Src
  size  : MSize
  scope : Scope
  nw    : Bool
  deriving DecidableEq, Repr

/-- ATOM, RED and their 64-bit forms, FATOM, ATOMDP: `d` is the old value's destination. -/
structure AtomOp where
  ctl   : Ctl
  d     : Dst
  a     : Reg
  b     : Src
  op    : AOp
  scope : Scope
  nw    : Bool
  deriving DecidableEq, Repr

/-- FATOM: F32, or BF16X2. -/
structure FatomOp where
  ctl   : Ctl
  d     : Dst
  a     : Reg
  b     : Src
  bf16  : Bool
  scope : Scope
  nw    : Bool
  deriving DecidableEq, Repr

/-- ATOMCAS: `b` names the run with compare and new values (03 R73). -/
structure CasOp where
  ctl   : Ctl
  d     : Dst
  a     : Reg
  b     : Src
  w64   : Bool
  scope : Scope
  nw    : Bool
  deriving DecidableEq, Repr

/-- ATOMCAS.SP (03 R64). -/
structure CasSpOp where
  ctl : Ctl
  d   : Dst
  a   : Src
  b   : Src
  c   : Src
  deriving DecidableEq, Repr

/-- ATOMDP. -/
structure DpOp where
  ctl   : Ctl
  d     : Dst
  a     : Reg
  scope : Scope
  deriving DecidableEq, Repr

/-- LDQ: `q` is the queue id. -/
structure LdqOp where
  ctl : Ctl
  d   : Nat
  q   : Src
  w64 : Bool
  deriving DecidableEq, Repr

/-- STQ. -/
structure StqOp where
  ctl : Ctl
  d   : Nat
  q   : Src
  w64 : Bool
  deriving DecidableEq, Repr

/-- ACQ: S pair, exclusive or shared. -/
structure AcqOp where
  ctl : Ctl
  a   : Nat
  ex  : Bool
  deriving DecidableEq, Repr

/-- ACQT. -/
structure AcqtOp where
  ctl : Ctl
  d   : Nat
  a   : Nat
  ex  : Bool
  deriving DecidableEq, Repr

/-- REL. -/
structure RelOp where
  ctl   : Ctl
  a     : Nat
  ex    : Bool
  scope : Scope
  deriving DecidableEq, Repr

/-- Kinds of FENCE (10 R235). -/
inductive FenceKind where
  | rel | acq | ar | sc
  deriving DecidableEq, Repr

/-- WAITV: S destination, S pair, S run with expected value and timeout. -/
structure WaitvOp where
  ctl : Ctl
  d   : Nat
  a   : Nat
  b   : Nat
  w64 : Bool
  deriving DecidableEq, Repr

/-- WAKE. -/
structure WakeOp where
  ctl : Ctl
  a   : Reg
  all : Bool
  deriving DecidableEq, Repr

/-- PREF: CLUSTER or DEVICE scope. -/
structure PrefOp where
  ctl : Ctl
  a   : Reg
  b   : Src
  dev : Bool
  deriving DecidableEq, Repr

/-- RINV, RINV.WB, RFLUSH and ICINV: S pair and length. -/
structure RangeOp where
  ctl : Ctl
  a   : Nat
  b   : Src
  deriving DecidableEq, Repr

/-- BTCOPY (12 R280). -/
structure CopyOp where
  ctl   : Ctl
  guard : Guard
  a     : Src
  b     : Src
  c     : Src
  st    : Bool
  nw    : Bool
  tag   : BitVec 16
  deriving DecidableEq, Repr

/-- BTGATH: `e` is the V register of row indices. -/
structure GathOp where
  ctl   : Ctl
  guard : Guard
  a     : Src
  b     : Src
  c     : Src
  e     : Nat
  st    : Bool
  nw    : Bool
  tag   : BitVec 16
  deriving DecidableEq, Repr

/-- BTLIN: whether source and destination are scratchpad sides. -/
structure LinOp where
  ctl   : Ctl
  guard : Guard
  a     : Src
  b     : Src
  c     : Src
  srcS  : Bool
  dstS  : Bool
  nw    : Bool
  tag   : BitVec 16
  deriving DecidableEq, Repr

/-- BTCLOSE. -/
structure CloseOp where
  ctl : Ctl
  d   : Dst
  deriving DecidableEq, Repr

/-- BTWAIT. -/
structure BtwaitOp where
  ctl : Ctl
  d   : Dst
  a   : Src
  deriving DecidableEq, Repr

/-- BTRING. -/
structure RingOp where
  ctl : Ctl
  a   : Nat
  b   : Src
  deriving DecidableEq, Repr

/-- LAUNCH: `d` S register or ZERO, `a` S pair. -/
structure LaunchOp where
  ctl : Ctl
  d   : Dst
  a   : Nat
  deriving DecidableEq, Repr

/-- PROTLD. -/
structure ProtldOp where
  ctl  : Ctl
  slot : Nat
  a    : Nat
  deriving DecidableEq, Repr

/-- PROTSEL. -/
structure ProtselOp where
  ctl : Ctl
  idx : Nat
  a   : Nat
  b   : Nat
  deriving DecidableEq, Repr

/-- LTADV: `max` selects .MAX. -/
structure LtadvOp where
  ctl : Ctl
  d   : Dst
  a   : Src
  max : Bool
  deriving DecidableEq, Repr

/-- LNK: S pair or V pair. -/
structure LnkOp where
  ctl : Ctl
  d   : Reg
  a   : Src
  deriving DecidableEq, Repr

/-- CALLL. -/
structure CalllOp where
  ctl : Ctl
  d   : Nat
  a   : Src
  deriving DecidableEq, Repr

/-- BIND: `b` the S register with the selector. -/
structure BindOp where
  ctl : Ctl
  d   : Dst
  a   : Src
  b   : Nat
  deriving DecidableEq, Repr

/-- BIND.FAIL and UNBIND. -/
structure UnbindOp where
  ctl : Ctl
  d   : Dst
  a   : Src
  deriving DecidableEq, Repr

/-- SEGLD: `d` the first of eight S registers. -/
structure SegldOp where
  ctl : Ctl
  d   : Nat
  a   : Src
  deriving DecidableEq, Repr

/-- SEGUPD: `b` the first of eight S registers. -/
structure SegupdOp where
  ctl : Ctl
  a   : Src
  b   : Nat
  deriving DecidableEq, Repr

/-- Rights SEGCHK asks about (15 R305). -/
inductive Acc where
  | r | w | x | a | c
  deriving DecidableEq, Repr

/-- SEGCHK. -/
structure SegchkOp where
  ctl : Ctl
  d   : Nat
  a   : Reg
  b   : Src
  acc : Acc
  deriving DecidableEq, Repr

/-- Modes of SHOOT (15 R313). -/
inductive ShootMode where
  | all | context | selector
  deriving DecidableEq, Repr

/-- SHOOT. -/
structure ShootOp where
  ctl  : Ctl
  a    : Src
  b    : Src
  mode : ShootMode
  deriving DecidableEq, Repr

/-- Spaces of SPLITRD and SPLITWR (17 R343). -/
inductive Space where
  | ent | frm | bar | hdl | wait
  deriving DecidableEq, Repr

/-- SPLITRD. -/
structure SplitrdOp where
  ctl   : Ctl
  d     : Nat
  a     : Src
  space : Space
  deriving DecidableEq, Repr

/-- SPLITWR. -/
structure SplitwrOp where
  ctl   : Ctl
  a     : Src
  b     : Src
  space : Space
  deriving DecidableEq, Repr

/-- CRBEGIN: target displacement, TEAM scope. -/
structure CrbeginOp where
  ctl  : Ctl
  tgt  : Disp
  team : Bool
  deriving DecidableEq, Repr

/-- CAPQ: the item code 0–10. -/
structure CapqOp where
  ctl  : Ctl
  d    : Nat
  a    : Src
  item : Nat
  deriving DecidableEq, Repr

/-- PSNW: `ce` counts a corrected error instead of marking. -/
structure PsnwOp where
  ctl : Ctl
  a   : Reg
  ce  : Bool
  deriving DecidableEq, Repr

/-- A native clause header (02 R40). -/
structure Header where
  wait  : BitVec 12
  flagA : Option Nat
  flagB : Option Nat
  len   : Nat
  yield : Bool
  deriving DecidableEq, Repr

/-- A trap as the taking of it needs it (08 R198, R199). -/
structure Trap where
  code  : Nat
  cause : Nat
  num   : Nat
  half  : Nat
  mask  : LaneMask
  addrs : Tab DWord
  pc    : DWord
  deriving DecidableEq, Repr

/-- The payload of the host's Start command (22 R395). -/
structure StartPayload where
  part    : Nat
  ctxt    : Nat
  ctxtn   : Nat
  svseg   : Nat
  svsegn  : Nat
  svpt    : Nat
  svec    : DWord
  bootrcb : DWord
  reserved : Bool
  deriving DecidableEq, Repr

/-- The unit a hardware error is charged to (18 R356). -/
inductive EUnit where
  | regFile (quad blk : Nat)
  | accBank (core bank : Nat)
  | sram (cluster bank : Nat)
  | msc (channel bank : Nat)
  | dram (channel row : Nat)
  deriving DecidableEq, Repr

/-- One agent outside reading or writing memory (22 R392, R400). -/
structure MemAccess where
  pa    : Nat
  write : Bool
  bytes : List Byte
  len   : Nat
  deriving DecidableEq, Repr

/-- An instruction, or one step of another agent of the machine (95_what_each_step_holds.md), with its operands. -/
inductive Instr where
  /-- TRAPZ (R56): Opcode 0 in any Z64 or native word raises TRAPZ (trap code 0x00), whatever its other fields hold. -/
  | trapz
  /-- TRAPZ_Z32 (R56): A Z32 parcel with short opcode 0 raises TRAPZ, whatever its other fields hold. -/
  | trapzZ32
  /-- IADD (R108): Integer add per active lane, wrapping or saturating. -/
  | iadd (o : Bin)
  /-- IADD_Z32 (R67): Short-form integer add d := d + a. -/
  | iaddZ32 (o : Short)
  /-- ISUB (R108): Integer subtract per active lane. -/
  | isub (o : Bin)
  /-- ISUB_Z32 (R67): Short-form integer subtract d := d - a. -/
  | isubZ32 (o : Short)
  /-- IADC (R109): Add with carry in, writing the sum and the carry out to a register pair. -/
  | iadc (o : Tri)
  /-- IMUL (R108): Integer multiply per active lane. -/
  | imul (o : Bin)
  /-- IMUL_Z32 (R67): Short-form integer multiply d := d * a. -/
  | imulZ32 (o : Short)
  /-- IMULH (R108): High 32 bits of the exact 64-bit product. -/
  | imulh (o : Bin)
  /-- IMAD (R108): Integer multiply-add a * b + c, with c a register. -/
  | imad (o : Tri)
  /-- IMAD_D (R64): Mirror form of IMAD: a * b + d, with d read before it is written. -/
  | imadD (o : Bin)
  /-- IABS (R108): Integer absolute value. -/
  | iabs (o : Un)
  /-- IABS_Z32 (R67): Short-form integer absolute value. -/
  | iabsZ32 (o : Short)
  /-- INEG (R108): Integer negation. -/
  | ineg (o : Un)
  /-- INEG_Z32 (R67): Short-form integer negation. -/
  | inegZ32 (o : Short)
  /-- IMIN (R108): Signed minimum. -/
  | imin (o : Bin)
  /-- IMIN_Z32 (R67): Short-form signed minimum. -/
  | iminZ32 (o : Short)
  /-- IMAX (R108): Signed maximum. -/
  | imax (o : Bin)
  /-- IMAX_Z32 (R67): Short-form signed maximum. -/
  | imaxZ32 (o : Short)
  /-- NMIN (R108): Unsigned minimum. -/
  | nmin (o : Bin)
  /-- NMIN_Z32 (R67): Short-form unsigned minimum. -/
  | nminZ32 (o : Short)
  /-- NMAX (R108): Unsigned maximum. -/
  | nmax (o : Bin)
  /-- NMAX_Z32 (R67): Short-form unsigned maximum. -/
  | nmaxZ32 (o : Short)
  /-- AND (R108): Bitwise AND. -/
  | andB (o : Bin)
  /-- AND_Z32 (R67): Short-form bitwise AND. -/
  | andZ32 (o : Short)
  /-- OR (R108): Bitwise OR. -/
  | orB (o : Bin)
  /-- OR_Z32 (R67): Short-form bitwise OR. -/
  | orZ32 (o : Short)
  /-- XOR (R108): Bitwise XOR. -/
  | xorB (o : Bin)
  /-- XOR_Z32 (R67): Short-form bitwise XOR. -/
  | xorZ32 (o : Short)
  /-- NOT (R108): Bitwise complement. -/
  | notB (o : Un)
  /-- NOT_Z32 (R67): Short-form bitwise complement. -/
  | notZ32 (o : Short)
  /-- ANDN (R108): a AND NOT b. -/
  | andn (o : Bin)
  /-- ANDN_Z32 (R67): Short-form d AND NOT a. -/
  | andnZ32 (o : Short)
  /-- SHL (R109): Shift left by an unsigned count. -/
  | shl (o : Bin)
  /-- SHL_Z32 (R67): Short-form shift left. -/
  | shlZ32 (o : Short)
  /-- SHR (R109): Logical shift right. -/
  | shr (o : Bin)
  /-- SHR_Z32 (R67): Short-form logical shift right. -/
  | shrZ32 (o : Short)
  /-- SAR (R109): Arithmetic shift right. -/
  | sar (o : Bin)
  /-- SAR_Z32 (R67): Short-form arithmetic shift right. -/
  | sarZ32 (o : Short)
  /-- ROTL (R108): Rotate left by b mod 32. -/
  | rotl (o : Bin)
  /-- ROTL_Z32 (R67): Short-form rotate left. -/
  | rotlZ32 (o : Short)
  /-- BFX (R109): Bit-field extract. -/
  | bfx (o : Bin)
  /-- BFI (R109): Bit-field insert into a background. -/
  | bfi (o : Tri)
  /-- POPC (R108): Count of 1 bits. -/
  | popc (o : Un)
  /-- POPC_Z32 (R67): Short-form population count. -/
  | popcZ32 (o : Short)
  /-- CLZ (R108): Count of leading zero bits. -/
  | clz (o : Un)
  /-- CLZ_Z32 (R67): Short-form count of leading zeros. -/
  | clzZ32 (o : Short)
  /-- BREV (R108): Bit reversal. -/
  | brev (o : Un)
  /-- BREV_Z32 (R67): Short-form bit reversal. -/
  | brevZ32 (o : Short)
  /-- ICMP (R110): Integer compare writing a predicate at each active lane. -/
  | icmp (o : Cmp)
  /-- SEL (R110): Per-lane select by a predicate. -/
  | sel (o : Sel)
  /-- MOV (R108): Register move. -/
  | mov (o : Un)
  /-- MOV_Z32 (R67): Short-form register move. -/
  | movZ32 (o : Short)
  /-- MOVL (R110): Writes an S register once with a at the lowest active lane. -/
  | movl (o : Un)
  /-- PRMT (R109): Byte gather with per-byte controls. -/
  | prmt (o : Tri)
  /-- SEGA (R111): Builds a seg-address from a selector and an offset. -/
  | sega (o : Bin)
  /-- PADD (R111): Moves a seg-address by a signed byte count within its segment, faulting OFFOVF on overflow. -/
  | padd (o : Bin)
  /-- PSEG (R111): Extracts the selector of a seg-address. -/
  | pseg (o : Un)
  /-- POFF (R111): Extracts the offset of a seg-address. -/
  | poff (o : Un)
  /-- FADD (R113): Floating-point add rounded once. -/
  | fadd (o : Bin)
  /-- FADD_Z32 (R67): Short-form FP32 add, rounding RN. -/
  | faddZ32 (o : Short)
  /-- FSUB (R113): Floating-point subtract. -/
  | fsub (o : Bin)
  /-- FSUB_Z32 (R67): Short-form FP32 subtract. -/
  | fsubZ32 (o : Short)
  /-- FMUL (R113): Floating-point multiply. -/
  | fmul (o : Bin)
  /-- FMUL_Z32 (R67): Short-form FP32 multiply. -/
  | fmulZ32 (o : Short)
  /-- FFMA (R113): Fused multiply-add a * b + c with one rounding. -/
  | ffma (o : Tri)
  /-- FFMA_D (R64): Mirror form of FFMA adding d. -/
  | ffmaD (o : Bin)
  /-- FMIN (R114): IEEE minimumNumber. -/
  | fmin (o : Bin)
  /-- FMIN_Z32 (R67): Short-form FP32 minimum. -/
  | fminZ32 (o : Short)
  /-- FMAX (R114): IEEE maximumNumber. -/
  | fmax (o : Bin)
  /-- FMAX_Z32 (R67): Short-form FP32 maximum. -/
  | fmaxZ32 (o : Short)
  /-- FCMP (R114): Floating-point compare writing a predicate. -/
  | fcmp (o : Cmp)
  /-- FCLASS (R115): Writes a predicate from the class of a and a mask. -/
  | fclass (o : Cls)
  /-- FDIV (R113): Floating-point divide rounded once. -/
  | fdiv (o : Bin)
  /-- FSQRT (R113): Floating-point square root rounded once. -/
  | fsqrt (o : Un)
  /-- FSQRT_Z32 (R67): Short-form square root. -/
  | fsqrtZ32 (o : Short)
  /-- FRCP (R116): Approximate reciprocal. -/
  | frcp (o : Un)
  /-- FRCP_Z32 (R67): Short-form approximate reciprocal. -/
  | frcpZ32 (o : Short)
  /-- FRSQ (R116): Approximate reciprocal square root. -/
  | frsq (o : Un)
  /-- FRSQ_Z32 (R67): Short-form reciprocal square root. -/
  | frsqZ32 (o : Short)
  /-- FEXP2 (R116): Approximate 2^a. -/
  | fexp2 (o : Un)
  /-- FEXP2_Z32 (R67): Short-form 2^a. -/
  | fexp2Z32 (o : Short)
  /-- FLOG2 (R116): Approximate base-2 logarithm. -/
  | flog2 (o : Un)
  /-- FLOG2_Z32 (R67): Short-form base-2 logarithm. -/
  | flog2Z32 (o : Short)
  /-- FSIN (R116): Approximate sine. -/
  | fsin (o : Un)
  /-- FSIN_Z32 (R67): Short-form sine. -/
  | fsinZ32 (o : Short)
  /-- FCOS (R116): Approximate cosine. -/
  | fcos (o : Un)
  /-- FCOS_Z32 (R67): Short-form cosine. -/
  | fcosZ32 (o : Short)
  /-- FTANH (R116): Approximate hyperbolic tangent. -/
  | ftanh (o : Un)
  /-- FTANH_Z32 (R67): Short-form hyperbolic tangent. -/
  | ftanhZ32 (o : Short)
  /-- HADD2 (R113): Packed 16-bit float add per element. -/
  | hadd2 (o : Bin)
  /-- HADD2_Z32 (R67): Short-form packed F16 add. -/
  | hadd2Z32 (o : Short)
  /-- HMUL2 (R113): Packed 16-bit float multiply per element. -/
  | hmul2 (o : Bin)
  /-- HMUL2_Z32 (R67): Short-form packed F16 multiply. -/
  | hmul2Z32 (o : Short)
  /-- HFMA2 (R113): Packed 16-bit fused multiply-add with c. -/
  | hfma2 (o : Tri)
  /-- HFMA2_D (R64): Mirror form of HFMA2 adding d. -/
  | hfma2D (o : Bin)
  /-- F2I (R119): Float to integer conversion, always saturating. -/
  | f2i (o : CvtT)
  /-- F2I_Z32 (R68): Short-form F32 to I32 conversion. -/
  | f2iZ32 (o : Short)
  /-- I2F (R118): Integer to float conversion. -/
  | i2f (o : CvtT)
  /-- I2F_Z32 (R68): Short-form I32 to F32 conversion. -/
  | i2fZ32 (o : Short)
  /-- FCVT (R118): Converts an element between element formats. -/
  | fcvt (o : CvtF)
  /-- FPK (R120): Rounds F32 registers into packed narrow elements. -/
  | fpk (o : CvtP)
  /-- FUPK (R120): Unpacks narrow elements into registers. -/
  | fupk (o : CvtF)
  /-- QNT (R118): Quantises a * scale into a narrow format. -/
  | qnt (o : CvtP)
  /-- DQNT (R118): Dequantises element * scale into F32. -/
  | dqnt (o : CvtP)
  /-- PLOP (R121): Predicate logic by a 4-bit lookup table. -/
  | plop (o : Plop)
  /-- SHFL (R123): Cross-lane shuffle within the split's active lanes. -/
  | shfl (o : Shfl)
  /-- VRED (R124): Reduction over the active lanes. -/
  | vred (o : Red)
  /-- VSCAN (R125): Inclusive or exclusive scan over the active lanes. -/
  | vscan (o : Red)
  /-- VOTE (R126): Predicate vote ALL, ANY or EQ over active lanes. -/
  | vote (o : Vote)
  /-- BALLOT (R126): Gathers a predicate into a lane mask. -/
  | ballot (o : Ballot)
  /-- ELECT (R126): Sets a predicate at the lowest active lane only. -/
  | elect (c : Ctl) (d : Nat)
  /-- MATCH (R126): Masks of active lanes holding equal values. -/
  | matchOp (o : Match)
  /-- BRA (R181): Conditional branch performing the branch step with target and reconvergence address. -/
  | bra (o : Bra)
  /-- BRAU (R183): Uniform branch to a literal target that never splits. -/
  | brau (o : BrauT)
  /-- BRAU_REG (R183): Uniform branch to a register target that never splits. -/
  | brauReg (o : RegTgt)
  /-- BRX (R182): Indirect branch grouping lanes by target. -/
  | brx (o : Brx)
  /-- CALL (R181): Direct call writing the return address and branching. -/
  | call (o : CallT)
  /-- CALLX (R182): Indirect call grouping lanes by target. -/
  | callx (o : CallX)
  /-- RET (R184): Uniform return to a register address, possibly changing segment and popping a link frame. -/
  | ret (o : RegTgt)
  /-- EXIT (R185): Ends the active lanes for good. -/
  | exit (c : Ctl)
  /-- END (R185): Ends every lane of the split. -/
  | endOp (c : Ctl)
  /-- EMRD (R187): Reads the split's EM or LANES into an S register. -/
  | emrd (c : Ctl) (d : Nat) (lanes : Bool)
  /-- EMWR (R187): Sets, ANDs or ORs the split's EM. -/
  | emwr (c : Ctl) (a : Src) (op : EmOp)
  /-- WAITF (R189): Holds the split until named flags read at most LIMIT. -/
  | waitf (c : Ctl) (a : Src) (limit : Nat)
  /-- BAR (R190): Releases, arrives at a team barrier and waits for completion, then acquires. -/
  | bar (c : Ctl) (n : Nat)
  /-- BARA (R190): Releases and arrives at a barrier without waiting, recording the phase. -/
  | bara (c : Ctl) (n : Nat)
  /-- BARW (R190): Waits until the barrier passes the recorded phase, then acquires. -/
  | barw (c : Ctl) (n : Nat)
  /-- YIELD (R192): Ends the split's scheduling turn. -/
  | yield (c : Ctl)
  /-- SLEEP (R192): Makes the split not ready for a number of GTS ticks. -/
  | sleep (c : Ctl) (a : Src)
  /-- NOP (R192): No operation. -/
  | nop (c : Ctl)
  /-- NOP_Z32 (R67): Short-form no operation with d and a holding 249. -/
  | nopZ32 (pred : Nat) (neg : Bool)
  /-- LAUNCH (R194): Submits a region control block to the partition's walker. -/
  | launch (o : LaunchOp)
  /-- GSET (R193): Writes a guard slot at issue. -/
  | gset (c : Ctl) (slot : Nat) (v : GVal)
  /-- TRAP (R196): Software trap to the supervisor, continuing after it on ERET. -/
  | trap (c : Ctl) (num : Nat)
  /-- ERET (R201): Ends a handler, restoring the frozen split table, level and PC. -/
  | eret (c : Ctl)
  /-- SYSR (R202): Reads a special register. -/
  | sysr (o : Sysr)
  /-- SYSW (R202): Writes a special register that has no behaviour of its own. -/
  | sysw (o : Sysw)
  /-- BKPT (R196): Breakpoint trap before itself. -/
  | bkpt (c : Ctl) (num : Nat)
  /-- PROTLD (R260): Checks and loads a protocol image into a slot, or unloads it. -/
  | protld (o : ProtldOp)
  /-- PROTSEL (R262): Writes a range-table entry selecting a protocol for a range, neutralising its lines. -/
  | protsel (o : ProtselOp)
  /-- LTADV (R271): Advances the core's LTIME by ADD or MAX and expires lease copies. -/
  | ltadv (o : LtadvOp)
  /-- BTCOPY (R283): Queues a tensor-box copy between memory and scratchpad. -/
  | btcopy (o : CopyOp)
  /-- BTLIN (R284): Queues a linear byte copy. -/
  | btlin (o : LinOp)
  /-- BTGATH (R285): Queues a per-lane row gather or scatter. -/
  | btgath (o : GathOp)
  /-- BTCLOSE (R290): Closes the open copy batch. -/
  | btclose (o : CloseOp)
  /-- BTWAIT (R290): Waits until a batch is complete and returns ERRS. -/
  | btwait (o : BtwaitOp)
  /-- BTRING (R293): Sets or removes the wave's completion ring. -/
  | btring (o : RingOp)
  /-- LNK (R321): Binds a link name and loads the segment's seg-address. -/
  | lnk (o : LnkOp)
  /-- CALLL (R322): Calls through a link name into another code segment, pinning it. -/
  | calll (o : CalllOp)
  /-- BIND (R325): Binds a binding entry to a selector and wakes parked splits. -/
  | bind (o : BindOp)
  /-- BIND_FAIL (R325): Marks a binding entry FAILED and wakes parked splits. -/
  | bindFail (o : UnbindOp)
  /-- UNBIND (R326): Unbinds a binding entry, possibly detaching its segment. -/
  | unbind (o : UnbindOp)
  /-- SEGLD (R307): Reads a segment descriptor into eight S registers. -/
  | segld (o : SegldOp)
  /-- SEGUPD (R307): Writes a segment descriptor and issues a selector shootdown. -/
  | segupd (o : SegupdOp)
  /-- SEGCHK (R308): Writes a predicate telling whether an access would pass the segment checks. -/
  | segchk (o : SegchkOp)
  /-- SHOOT (R314): Releases and sends a shootdown to every running cluster. -/
  | shoot (o : ShootOp)
  /-- SHOOTW (R314): Waits until earlier shootdowns are acknowledged, then acquires. -/
  | shootw (c : Ctl)
  /-- ICINV (R317): Removes instruction-cache and LATT lines of a code range in every cluster. -/
  | icinv (o : RangeOp)
  /-- SPLITRD (R345): Reads a split entry, frame, wait record, barrier or handle word. -/
  | splitrd (o : SplitrdOp)
  /-- SPLITWR (R345): Writes an RW split-entry field, barrier or handle word. -/
  | splitwr (o : SplitwrOp)
  /-- FLAGWR_SET (R347): Sets a completion flag to a count. -/
  | flagwrSet (c : Ctl) (k : Nat) (a : Src)
  /-- FLAGWR_SAVE (R347): Ends the wave's residence, writing the machine block of the save area. -/
  | flagwrSave (c : Ctl)
  /-- CRBEGIN (R353): Opens a containment frame. -/
  | crbegin (o : CrbeginOp)
  /-- CREND (R353): Closes the top containment frame. -/
  | crend (c : Ctl)
  /-- CAPQ (R361): Reads one current capacity. -/
  | capq (o : CapqOp)
  /-- SIGRD (R367): Reads the team's audit signature. -/
  | sigrd (c : Ctl) (d : Nat)
  /-- PSNW (R373): Injects a poison mark or a corrected-error count. -/
  | psnw (o : PsnwOp)
  /-- MMA (R142): Checks and queues a dense matrix multiply-accumulate into a tile. -/
  | mma (o : MmaOp)
  /-- MMAS (R138): Queues a structured-sparse matrix multiply-accumulate. -/
  | mmas (o : MmaOp)
  /-- MMAT (R139): Queues a ternary-by-I8 sign-select accumulation. -/
  | mmat (o : MmaOp)
  /-- ZCLR (R144): Queues a tile clear. -/
  | zclr (o : ZclrOp)
  /-- ZLD (R144): Queues a tile load from the scratchpad. -/
  | zld (o : ZmemOp)
  /-- ZST (R144): Queues a tile store to the scratchpad. -/
  | zst (o : ZmemOp)
  /-- ZMOV (R144): Queues a move of eight tile rows into V registers. -/
  | zmov (o : ZmovOp)
  /-- ZADD (R144): Queues an element-wise tile add. -/
  | zadd (o : ZaddOp)
  /-- EPI (R148): Checks and queues an epilogue that scales, activates and rounds a tile out. -/
  | epi (o : EpiOp)
  /-- ACTLD (R152): Loads an activation table into a bank, marking it pending. -/
  | actld (o : ActldOp)
  /-- OHDL (R153): Loads an operand handle's scratch offset and advances its generation. -/
  | ohdl (o : OhdlOp)
  /-- SPFENCE (R154): Waits for scratchpad stores and advances handle generations. -/
  | spfence (o : SpfenceOp)
  /-- LD (R239): Load from a seg-address. -/
  | ld (o : LdOp)
  /-- ST (R239): Store to a seg-address, entering the store buffer. -/
  | st (o : StOp)
  /-- ATOM (R242): 32-bit atomic read-modify-write at the home or bank. -/
  | atom (o : AtomOp)
  /-- ATOM_B64 (R64): 64-bit atomic read-modify-write. -/
  | atomB64 (o : AtomOp)
  /-- ATOMCAS (R243): Compare-and-swap at the home. -/
  | atomcas (o : CasOp)
  /-- ATOMCAS_SP (R64): Scratchpad compare-and-swap at the bank. -/
  | atomcasSp (o : CasSpOp)
  /-- ATOMDP (R243): Decrements a word only if positive, returning the old value. -/
  | atomdp (o : DpOp)
  /-- FATOM (R244): Floating-point atomic add. -/
  | fatom (o : FatomOp)
  /-- RED (R242): 32-bit atomic reduction without a result. -/
  | red (o : AtomOp)
  /-- RED_B64 (R64): 64-bit atomic reduction without a result. -/
  | redB64 (o : AtomOp)
  /-- LDSP (R239): Scratchpad load by offset. -/
  | ldsp (o : LdOp)
  /-- LDSP_Z32 (R68): Short-form scratchpad load. -/
  | ldspZ32 (o : Short)
  /-- STSP (R239): Scratchpad store by offset. -/
  | stsp (o : StOp)
  /-- STSP_Z32 (R68): Short-form scratchpad store of d at offset a. -/
  | stspZ32 (o : ShortSt)
  /-- LDSP_PI (R66): Native scratchpad load with post-increment of the offset. -/
  | ldspPi (o : LdOp)
  /-- STSP_PI (R66): Native scratchpad store with post-increment. -/
  | stspPi (o : StOp)
  /-- BRA_DEC (R66): Native decrement of an S register and branch while non-zero. -/
  | braDec (o : BraDec)
  /-- BRA_DEC (R66): The same with the register target that BRAU takes. -/
  | braDecReg (o : BraDecReg)
  /-- LDQ (R241): Pops words from a FIFO bank queue, waiting while it holds too few. -/
  | ldq (o : LdqOp)
  /-- STQ (R241): Pushes words onto a FIFO bank queue, waiting for room. -/
  | stq (o : StqOp)
  /-- ACQ (R245): Requests a cairn shared or exclusively and holds the split until granted. -/
  | acq (o : AcqOp)
  /-- ACQT (R245): Tries to acquire a cairn, writing a predicate. -/
  | acqt (o : AcqtOp)
  /-- REL (R220): Releases a cairn with a tagged release marker. -/
  | rel (o : RelOp)
  /-- FENCE (R214): Release, acquire, both, or sequentially consistent fence at a scope. -/
  | fence (c : Ctl) (kind : FenceKind) (scope : Scope)
  /-- PUB (R214): Appends a release marker and completes when it has left the buffers. -/
  | pub (c : Ctl) (scope : Scope)
  /-- WAITV (R246): Compares a memory value and arms a monitor in one step, sleeping until woken. -/
  | waitv (o : WaitvOp)
  /-- WAKE (R248): Sends a wake to the home of a line after older writes are applied. -/
  | wake (o : WakeOp)
  /-- PREF (R240): Prefetches a line into the cluster or the MSC. -/
  | pref (o : PrefOp)
  /-- RINV (R249): Discards dirty data and copies over a range. -/
  | rinv (o : RangeOp)
  /-- RINV_WB (R249): Writes back dirty data and drops copies over a range. -/
  | rinvWb (o : RangeOp)
  /-- RFLUSH (R249): Writes back dirty data over a range, keeping copies. -/
  | rflush (o : RangeOp)
  /-- BANKCFG (R232): Switches a cluster SRAM bank between CACHE, SCRATCH and FIFO. -/
  | bankcfg (c : Ctl) (a : Src)
  /-- LTIME_WRITE (R269): A supervisor SYSW of LTIME sets the core's expired bit in every lease copy of its cluster. -/
  | ltimeWrite (o : Sysw)
  /-- FDPEND_CLEAR (R374): A write of ones to FDPEND clears pending AUDIT bits of fault domains. -/
  | fdpendClear (o : Sysw)
  /-- INSTRUCTION_FETCH (R421): Fetch and decode of the next Zynran instruction or native clause, raising fetch faults or decode traps. -/
  | instructionFetch (w e : Nat)
  /-- CLAUSE_HEADER (R49): A native clause begins once every flag of its header's wait mask reads zero. -/
  | clauseHeader (h : Header)
  /-- TRAP_ENTRY (R198): The wave stops, freezes its split table, writes the trap registers and starts a handler split. -/
  | trapEntry (w e : Nat) (t : Trap)
  /-- SPLIT_ARRIVAL (R173): A split reaching its reconvergence address, or losing its last lane, acts on its top frame. -/
  | splitArrival (w e : Nat)
  /-- STALL_EVENT (R168): On a stall or a 4096-cycle ready wait, an active wave swaps with a ready pending wave. -/
  | stallEvent (w : Nat)
  /-- SLEEP_DEADLINE (R192): The GTS deadline of a SLEEP passes and the split becomes ready. -/
  | sleepDeadline (w e : Nat)
  /-- STORE_BUFFER_DRAIN (R209): An oldest-allowed store buffer entry or release marker moves to the publish buffer or scratch bank. -/
  | storeBufferDrain (w i : Nat)
  /-- PUBLISH_BUFFER_DRAIN (R210): A publish buffer entry or barrier moves into the line's home queue. -/
  | publishBufferDrain (k i : Nat)
  /-- HOME_APPLY (R210): The home applies a queued entry to the line's value, refreshing copies and waking monitors. -/
  | homeApply (line : Nat)
  /-- COPY_DROP (R211): A cluster copy of a line is dropped. -/
  | copyDrop (k line : Nat)
  /-- LOAD_DATA_RETURN (R238): A load's data arrives and its destination is written, decrementing its flag. -/
  | loadDataReturn (w i : Nat)
  /-- ATOMIC_APPLY (R213): An atomic takes effect as one step in the home queue after older covering entries are applied. -/
  | atomicApply (w i : Nat)
  /-- CAIRN_GRANT (R219): The cairn's home grants a request, forcing publishes and dropping bound copies. -/
  | cairnGrant (cairn : Nat)
  /-- CAIRN_RELEASE (R220): A release message reaches the cairn's home, updating counts and granting waiters. -/
  | cairnRelease (cairn : Nat)
  /-- WAITV_TIMEOUT (R246): A WAITV timeout expires and it returns status 3. -/
  | waitvTimeout (w e : Nat)
  /-- MONITOR_EVICTION (R247): The home drops a monitor entry when its store is full. -/
  | monitorEviction (w e : Nat)
  /-- SPURIOUS_WAKE (R247): The Ovyen ends a waiting WAITV at a moment of its choosing. -/
  | spuriousWake (w e : Nat)
  /-- QUEUE_SERVICE (R241): A FIFO bank serves the request at the head of its wait order once words or room suffice. -/
  | queueService (k bank : Nat)
  /-- BANK_LINE_HANDLE (R234): One line of a bank leaving CACHE is written back and dropped. -/
  | bankLineHandle (k bank line : Nat)
  /-- RANGE_LINE_STEP (R249): One line of an RINV, RINV.WB or RFLUSH range is handled at its home. -/
  | rangeLineStep (w i line : Nat)
  /-- GETS (R256): A cluster's request for a readable copy at the home. -/
  | gets (k line : Nat)
  /-- GETX (R256): A cluster's request to own the line. -/
  | getx (k line : Nat)
  /-- PUTW (R256): A cluster sends store bytes through to the home. -/
  | putw (k line : Nat)
  /-- HOME_ATOM (R256): An atomic that is not a deposit reaches the home as event ATOM. -/
  | homeAtom (k line : Nat)
  /-- READ (R256): A copy-engine read reaches the home. -/
  | readReq (k line : Nat)
  /-- EVICT (R256): A cluster reports dropping a clean copy. -/
  | evict (k line : Nat)
  /-- WBACK (R256): A cluster sends dirty bytes or an evicted partial and drops its copy. -/
  | wback (k line : Nat)
  /-- FPUB (R256): A forced-publish notice carries a cluster's dirty bytes to the home. -/
  | fpub (k cairn : Nat)
  /-- FLUSH (R256): RFLUSH reaches the line at the home. -/
  | flush (line : Nat)
  /-- NEUT (R253): Neutralisation of a line at a slot switch, PROTSEL, PROTLD or RINV.WB. -/
  | neut (line : Nat)
  /-- DISC (R256): RINV reaches the line at the home. -/
  | disc (line : Nat)
  /-- PART (R272): A core registers its first reduce partial of a line. -/
  | part (core line : Nat)
  /-- FILL_REPLY (R258): A fill reply installs a copy at the requesting cluster. -/
  | fillReply (k : Nat)
  /-- INVALIDATION (R257): A sharer drops its copy on the home's invalidation. -/
  | invalidation (k : Nat)
  /-- RECALL (R257): An owner sends its dirty bytes on the home's recall. -/
  | recall (k line : Nat) (keep : Bool)
  /-- PUSH (R257): An update protocol writes applied bytes into a sharer's copy. -/
  | push (k : Nat)
  /-- LTIME_TICK (R270): LTIME advances by one every LTPERIOD cycles, expiring lease copies. -/
  | ltimeTick (core : Nat)
  /-- PROTOCOL_INSTALL (R260): A home neutralises a slot's lines and installs the new table. -/
  | protocolInstall (part : Nat)
  /-- PAGE_WALK (R310): The translation unit walks the page tables for a TLB miss. -/
  | pageWalk (k ctx : Nat) (linear : Nat)
  /-- SHOOTDOWN (R313): A cluster removes matching descriptor, TLB, data and instruction entries and acknowledges. -/
  | shootdown (k : Nat)
  /-- PIN_RELEASE (R327): A popped link frame's pin is released at the entry and then the descriptor, possibly detaching it. -/
  | pinRelease (part : Nat)
  /-- PARKED_WAKE (R323): A split parked on a binding entry wakes and executes its LNK or CALLL again. -/
  | parkedWake (w e : Nat)
  /-- ENGINE_COMMAND_RUN (R142): A command at the head of its queue reads its guard and runs, is held, or is discarded. -/
  | engineCommandRun (w q : Nat)
  /-- ENGINE_COMMAND_COMPLETE (R143): A matrix or epilogue command finishes writing, ORs FPSTAT and decrements its flag. -/
  | engineCommandComplete (w q : Nat)
  /-- ACTIVATION_INSTALL (R152): An ACTLD installs its table once earlier-generation EPIs complete. -/
  | activationInstall (core bank : Nat)
  /-- COPY_START (R282): A copy at the head of its queue starts when a BTE slot is free. -/
  | copyStart (w : Nat)
  /-- COPY_COMPLETE (R291): A copy's writes are applied, its record written, batch counts and flag updated. -/
  | copyComplete (k i : Nat)
  /-- TAKE_BLOCK (R195): The walker reads a submitted block's STATE and writes STATE 1 or a failure in one step. -/
  | takeBlock (part : Nat)
  /-- PREDECESSORS_DONE (R159): Once every predecessor reads STATE 4 or one failed, the walker moves the block to admitting or failed. -/
  | predecessorsDone (part i : Nat)
  /-- TEAM_ADMISSION (R160): The walker admits the first fitting team and places its waves. -/
  | teamAdmission (part : Nat)
  /-- SAVE_ENTRY (R337): A pre-empted or OVERCAP wave drains, frees monitors, and enters the save routine. -/
  | saveEntry (w : Nat)
  /-- RESTORE_ENTRY (R339): A readmitted wave loads its machine block and enters the restore routine. -/
  | restoreEntry (w : Nat)
  /-- WAVE_RETIREMENT (R166): A wave with no lanes, empty queues and zero flags retires, freeing its resources. -/
  | waveRetirement (w : Nat)
  /-- GRID_COMPLETION (R166): After the last team retires the walker publishes, writes STATE 4, posts CCOUNT and the wake write. -/
  | gridCompletion (part i : Nat)
  /-- TEAM_UNWIND (R355): Another wave of the team unwinds to its TEAM frame at its next pre-emption point. -/
  | teamUnwind (w : Nat)
  /-- CORRECTED_ERROR (R356): A corrected error is counted against its unit, possibly declaring it lasting. -/
  | correctedError (u : EUnit)
  /-- UNCORRECTABLE_ERROR (R348): An uncorrectable error marks the sector poisoned and may declare the unit lasting. -/
  | uncorrectableError (u : EUnit) (sector : Nat)
  /-- CE_WINDOW_EXPIRY (R356): A counting window ends and every unit's count restarts at 0. -/
  | ceWindowExpiry (part : Nat)
  /-- LINE_EVACUATION (R360): One line of a retiring bank is copied to the target bank. -/
  | lineEvacuation (u : EUnit)
  /-- AUDIT_REPLAY (R368): A selected team is replayed on another cluster at the lowest priority. -/
  | auditReplay (part : Nat)
  /-- AUDIT_COMPARE (R368): A finished replay's signature is compared, counting, blaming or starting a third replay. -/
  | auditCompare (part : Nat)
  /-- AUDIT (R369): The first wave of a mismatched fault domain at a pre-emption point takes trap 0x11. -/
  | audit (w : Nat)
  /-- PARTITION_TEARDOWN (R372): An unattributable error tears the partition down and fails its blocks with FCODE 8. -/
  | partitionTeardown (part : Nat)
  /-- START (R395): Host mailbox command 0xC001 checks the payload and boots a partition. -/
  | start (p : StartPayload)
  /-- STOP (R396): Host command 0xC002 holds a partition in reset, forcing teardown if FORCE. -/
  | stop (part : Nat) (force reserved : Bool)
  /-- SET_STATE (R401): Host command 0xC010 sets a partition's power or clock state. -/
  | setState (b0 b1 : Byte)
  /-- SET_TRUST_LIST (R408): Host command 0xC020 installs trusted translation keys. -/
  | setTrustList (auth : Bool) (keys : List (BitVec 512))
  /-- GET_CERTIFICATE (R405): SPDM request returning the device certificate chain. -/
  | getCertificate
  /-- CHALLENGE (R405): SPDM challenge signed with the device key. -/
  | challenge (nonce : List Byte)
  /-- GET_MEASUREMENTS (R406): SPDM request returning signed SHA-512 measurements. -/
  | getMeasurements (index : Nat) (nonce : List Byte)
  /-- FIRMWARE_UPDATE (R407): A firmware image is verified and stored for the next module reset. -/
  | firmwareUpdate (image : List Byte)
  /-- THERMAL_CLAMP (R404): A die above 105 °C clamps every partition to P7 and reports it. -/
  | thermalClamp (die : Nat) (celsius : Nat)
  /-- HOST_MEM_ACCESS (R392): A host CXL.mem access to device memory is one step at the line's home. -/
  | hostMemAccess (a : MemAccess)
  /-- HOST_SNOOP (R246): A host write snoops a HOST-line copy away, counting as an applied write. -/
  | hostSnoop (a : MemAccess)
  /-- PEER_ACCESS (R400): A peer access over Krydon Link reaches a home. -/
  | peerAccess (peer : Nat) (a : MemAccess)
  /-- LINK_REFUSAL (R394): A HOST or PEER home refuses an access, poisoning, dropping or ending the copy. -/
  | linkRefusal (w i : Nat)
  /-- RESET_REFUSAL (R397): A request to a partition held in reset is refused. -/
  | resetRefusal (a : MemAccess)
  /-- TRANSLATION_BUILD (R381): Ndelet builds a native translation and target table for an image. -/
  | translationBuild (part ctx sel off : Nat)
  /-- TRANSLATION_INSTALL (R384): A found translation's signature is verified and it is installed or rejected. -/
  | translationInstall (part : Nat) (i : Nat)
  /-- MODULE_RESET (R407): A reset of the whole module activates a stored, verified firmware image and leaves every partition in reset. -/
  | moduleReset
  deriving DecidableEq, Repr

end Sys2Proof
end

