-- ==== Sys2Proof/WellFormed.lean ====
section
/-! DEFINITION. Which instruction terms an encoding can hold: operand ranges, alignment, accepted types and modes (02 R28–R33, 03 R62–R75 and each instruction's description). -/

namespace Sys2Proof

/-- Whether a type's operands are register pairs (R105). -/
def Ty.wide : Ty → Bool
  | .i64 | .n64 | .b64 => true
  | _ => false

/-- Whether a type is signed (I), for the widening of special operands (R30). -/
def Ty.signed : Ty → Bool
  | .i32 | .i64 | .i16x2 => true
  | _ => false

/-- A V or S number within the machine, even for a pair (R28, R29). -/
def numOk (limit : Nat) (wide : Bool) (n : Nat) : Bool := n < limit && (!wide || n % 2 == 0)

/-- A run of `cnt` registers starting at a multiple of `al` (R29). -/
def runOk (limit cnt al n : Nat) : Bool := n % al == 0 && n + cnt ≤ limit

def Reg.ok (wide : Bool) : Reg → Bool
  | .v n => numOk 192 wide n
  | .s n => numOk 56 wide n

def Dst.ok (wide : Bool) : Dst → Bool
  | .v n => numOk 192 wide n
  | .s n => numOk 56 wide n
  | .zero => true

def Src.ok (wide : Bool) : Src → Bool
  | .v n => numOk 192 wide n
  | .s n => numOk 56 wide n
  | _ => true

/-- A destination that names a run of registers. -/
def Dst.run (cnt al : Nat) : Dst → Bool
  | .v n => runOk 192 cnt al n
  | .s n => runOk 56 cnt al n
  | .zero => true

/-- A source that names a run of registers, or a special operand read in each of them. -/
def Src.run (cnt al : Nat) : Src → Bool
  | .v n => runOk 192 cnt al n
  | .s n => runOk 56 cnt al n
  | _ => true

/-- The sources a uniform instruction may take (R104). -/
def Src.uniform : Src → Bool
  | .s _ | .lit _ | .zero | .wavew | .ones => true
  | _ => false

/-- "src" of R180: an S register, the literal, ZERO or ONES. -/
def Src.isCtl : Src → Bool
  | .s n => n < 56
  | .lit _ | .zero | .ones => true
  | _ => false

/-- "S only or literal" of R235: no V register, LANEID or EM. -/
def Src.isSonly : Src → Bool
  | .s n => n < 56
  | .lit _ | .zero | .wavew | .ones => true
  | _ => false

/-- A displacement: a register, the literal or ZERO (R73, R235). -/
def Src.isDisp : Src → Bool
  | .v n => n < 192
  | .s n => n < 56
  | .lit _ | .zero => true
  | _ => false

/-- "src" of R305 and R343: an S register, the literal or ZERO. -/
def Src.isSys : Src → Bool
  | .s n => n < 56
  | .lit _ | .zero => true
  | _ => false

/-- The literals of an instruction: one literal parcel serves every field (R37, R413). -/
def Src.lits : List Src → List Word
  | [] => []
  | .lit w :: r => w :: Src.lits r
  | _ :: r => Src.lits r

/-- Every literal operand has the one literal's value. -/
def litsAgree (l : List Src) : Bool :=
  match Src.lits l with
  | [] => true
  | w :: r => r.all (· == w)

/-- The control fields: a predicate, and a set-flag only where the opcode is long-latency (R36, R48). -/
def Ctl.ok (long : Bool) (c : Ctl) : Bool :=
  c.pred < 16 && (match c.setf with | none => true | some f => long && f < 12)

/-- Predicate 15 and negate 0 (R33). -/
def Ctl.plain (c : Ctl) : Bool := c.pred == 15 && !c.neg

/-- A uniform or per-lane arithmetic instruction (R104): with an S destination, predicate 15 and uniform sources. -/
def laneOk (c : Ctl) (d : Dst) (srcs : List Src) : Bool :=
  match d with
  | .s _ => c.plain && srcs.all Src.uniform
  | _ => true

/-- A predicate destination names P0–P14 (R31). -/
def predDstOk (n : Nat) : Bool := n < 15
/-- A predicate source names P0–P15 (R31). -/
def predSrcOk (n : Nat) : Bool := n < 16

def Un.ok (o : Un) (tys : List Ty) (sat anyRm : Bool) : Bool :=
  o.ctl.ok false && tys.contains o.ty && (sat || !o.sat) && (anyRm || o.rm == .rn) &&
  o.d.ok o.ty.wide && o.a.ok o.ty.wide && laneOk o.ctl o.d [o.a]

def Bin.ok (o : Bin) (tys : List Ty) (sat anyRm : Bool) : Bool :=
  o.ctl.ok false && tys.contains o.ty && (sat || !o.sat) && (anyRm || o.rm == .rn) &&
  o.d.ok o.ty.wide && o.a.ok o.ty.wide && o.b.ok o.ty.wide && laneOk o.ctl o.d [o.a, o.b] && litsAgree [o.a, o.b]

/-- A binary form whose b stays 32 bits wide under a 64-bit type (R108: shifts). -/
def Bin.okShift (o : Bin) (tys : List Ty) : Bool :=
  o.ctl.ok false && tys.contains o.ty && !o.sat && o.rm == .rn &&
  o.d.ok o.ty.wide && o.a.ok o.ty.wide && o.b.ok false && laneOk o.ctl o.d [o.a, o.b] && litsAgree [o.a, o.b]

/-- A mirror form, whose addend is d (R64). -/
def Bin.okD (o : Bin) (tys : List Ty) (sat anyRm : Bool) : Bool := o.ok tys sat anyRm

def Tri.ok (o : Tri) (tys : List Ty) (sat anyRm pairD : Bool) : Bool :=
  o.ctl.ok false && tys.contains o.ty && (sat || !o.sat) && (anyRm || o.rm == .rn) &&
  o.d.ok (o.ty.wide || pairD) && o.a.ok o.ty.wide && o.b.ok o.ty.wide && o.c.ok o.ty.wide &&
  laneOk o.ctl o.d [o.a, o.b, o.c] && litsAgree [o.a, o.b, o.c]

/-- RM 0–4, as the approximations accept (R113). -/
def RM.notSr (r : RM) : Bool := r != .sr

def Un.okApprox (o : Un) : Bool := o.ok [.f32] false true && o.rm.notSr

def Cmp.ok (o : Cmp) (tys : List Ty) (conds : List Cond) : Bool :=
  o.ctl.ok false && predDstOk o.d && tys.contains o.ty && conds.contains o.cond &&
  o.a.ok o.ty.wide && o.b.ok o.ty.wide && litsAgree [o.a, o.b]

/-- Conditions of ICMP (R72). -/
def intConds : List Cond := [.eq, .ne, .lt, .le, .gt, .ge]
/-- Conditions of FCMP (R72). -/
def fltConds : List Cond := intConds ++ [.equ, .neu, .ltu, .leu, .gtu, .geu, .num, .nan]

def Sel.ok (o : Sel) : Bool :=
  o.ctl.ok false && [Ty.b32, .b64].contains o.ty && o.d.ok o.ty.wide && o.a.ok o.ty.wide && o.b.ok o.ty.wide &&
  predSrcOk o.c && laneOk o.ctl o.d [o.a, o.b] && litsAgree [o.a, o.b]

/-- Bits of an element (R82). -/
def Fmt.bits : Fmt → Nat
  | .fp32 => 32 | .bf16 => 16 | .fp16 => 16 | .e4m3 => 8 | .e5m2 => 8 | .e3m2 => 6 | .e2m3 => 6 | .e2m1 => 4
  | .i8 => 8 | .n8 => 8 | .i4 => 4 | .t2 => 2

/-- Elements FPK packs and FUPK unpacks (R120). -/
def Fmt.count (f : Fmt) : Nat :=
  match f.bits with
  | 16 => 2 | 8 => 4 | 6 => 16 | 4 => 8 | 2 => 16 | _ => 1

/-- Packed registers of FPK and FUPK (R120): three for 6-bit formats. -/
def Fmt.packed (f : Fmt) : Nat := if f.bits == 6 then 3 else 1
/-- Alignment of the packed registers (R120). -/
def Fmt.packedAlign (f : Fmt) : Nat := if f.bits == 6 then 4 else 1

/-- A source run that must be registers of one kind. -/
def Src.regRun (cnt al : Nat) : Src → Bool
  | .v n => runOk 192 cnt al n
  | .s n => runOk 56 cnt al n
  | _ => false

/-- A packed source: one register or special operand, or for 6-bit formats a run of three. -/
def Src.packedOk (f : Fmt) (s : Src) : Bool := if f.packed == 1 then s.ok false else s.regRun 3 4

/-- Integer element formats (R82 codes 8–11). -/
def Fmt.isInt : Fmt → Bool
  | .i8 | .n8 | .i4 | .t2 => true
  | _ => false

def CvtT.ok (o : CvtT) (dsts srcs : List Ty) (sat : Bool) : Bool :=
  o.ctl.ok false && dsts.contains o.dst && srcs.contains o.src && (sat || !o.sat) &&
  o.d.ok o.dst.wide && o.a.ok o.src.wide && laneOk o.ctl o.d [o.a]

def CvtF.okFcvt (o : CvtF) : Bool :=
  o.ctl.ok false && o.d.ok false && o.a.ok false && laneOk o.ctl o.d [o.a]

def CvtF.okFupk (o : CvtF) : Bool :=
  o.ctl.ok false && o.src != .fp32 && (o.dst == .fp32 || o.dst == o.src) && o.rm == .rn && !o.sat &&
  o.d.run o.src.count o.src.count && o.a.packedOk o.src && laneOk o.ctl o.d [o.a]

def CvtP.okFpk (o : CvtP) : Bool :=
  o.ctl.ok false && o.fmt != .fp32 && o.b == .zero && o.a.regRun o.fmt.count o.fmt.count &&
  o.d.run o.fmt.packed o.fmt.packedAlign && laneOk o.ctl o.d [o.a]

def CvtP.okQnt (o : CvtP) : Bool :=
  o.ctl.ok false && o.fmt != .fp32 && o.d.ok false && o.a.ok false && o.b.ok false && laneOk o.ctl o.d [o.a, o.b] &&
  litsAgree [o.a, o.b]

def Plop.ok (o : Plop) : Bool := o.ctl.ok false && predDstOk o.d && predSrcOk o.a && predSrcOk o.b

def Shfl.ok (o : Shfl) : Bool :=
  o.ctl.ok false && o.d.ok o.w64 && o.a.ok o.w64 && o.b.ok false && laneOk o.ctl o.d [o.a, o.b] && litsAgree [o.a, o.b]

/-- Types VRED and VSCAN accept for an operation (R124). -/
def RedOp.tys : RedOp → List Ty
  | .add | .min | .max => [.i32, .n32, .i64, .n64, .f32]
  | .and | .or | .xor => [.b32]

def Red.ok (o : Red) (scan : Bool) : Bool :=
  o.ctl.ok false && o.op.tys.contains o.ty && o.d.ok o.ty.wide && o.a.ok o.ty.wide && (scan || !o.exc) &&
  (match o.d with | .s _ => !scan && o.ctl.plain | _ => true)

def Vote.ok (o : Vote) : Bool := o.ctl.ok false && predDstOk o.d && predSrcOk o.a

def Ballot.ok (o : Ballot) : Bool :=
  o.ctl.ok false && o.d.ok false && predSrcOk o.a && (match o.d with | .s _ => o.ctl.plain | _ => true)

def Match.ok (o : Match) : Bool :=
  o.ctl.ok false && o.d.ok false && o.a.ok o.w64 && (match o.d with | .s _ => false | _ => true)

/-- A short form (R35, R67): its size is one the entry accepts; a literal cannot be named. -/
def Short.ok (o : Short) (szs : List Sz) (anyRm unary : Bool) : Bool :=
  o.pred < 16 && szs.contains o.sz && (anyRm || o.rm == .rn) && o.rm.notSr &&
  o.d.ok (o.sz == .w64) && o.a.ok (o.sz == .w64) && (match o.a with | .lit _ => false | _ => true) &&
  (match o.d with
   | .s _ => o.pred == 15 && !o.neg && o.a.uniform
   | _ => true) && (unary || true)

/-- A short shift: a stays 32 bits wide (R108). -/
def Short.okShift (o : Short) : Bool :=
  o.pred < 16 && [Sz.w32, .w64].contains o.sz && o.rm == .rn &&
  o.d.ok (o.sz == .w64) && o.a.ok false && (match o.a with | .lit _ => false | _ => true) &&
  (match o.d with
   | .s _ => o.pred == 15 && !o.neg && o.a.uniform
   | _ => true)

/-- LDSP's short form: a is a V or S offset; an S destination takes an S offset (R235). -/
def Short.okLd (o : Short) : Bool :=
  o.pred < 16 && [Sz.w32, .w64].contains o.sz && o.rm == .rn && o.d.ok (o.sz == .w64) &&
  (match o.a with
   | .v n => n < 192
   | .s n => n < 56
   | _ => false) &&
  (match o.d with
   | .s _ => o.pred == 15 && !o.neg && o.a.uniform
   | _ => true)

def ShortSt.ok (o : ShortSt) : Bool :=
  o.pred < 16 && [Sz.w32, .w64].contains o.sz && o.d.ok (o.sz == .w64) &&
  (match o.d with | .lit _ => false | _ => true) &&
  (match o.a with
   | .v n => n < 192
   | .s n => n < 56
   | _ => false)

/-- A control instruction with predicate 15 (R177). -/
def Ctl.okU (long : Bool) (c : Ctl) : Bool := c.ok long && c.plain

/-- Registers R203, R301, R374 and R387 assign, below the reads that need a V destination. -/
def sysAddrs : List Nat :=
  [0x000, 0x001, 0x002, 0x003, 0x004, 0x005, 0x006, 0x007, 0x008, 0x00A, 0x00B, 0x010, 0x011, 0x012, 0x013, 0x014,
   0x020, 0x021, 0x022, 0x023, 0x024, 0x025, 0x026, 0x027, 0x028, 0x029, 0x030, 0x031, 0x032, 0x033, 0x034, 0x035,
   0x036, 0x040, 0x041, 0x050, 0x051] ++
  [0x100, 0x101, 0x102, 0x104, 0x105, 0x106, 0x108, 0x109, 0x10C, 0x10D, 0x10E, 0x10F, 0x110, 0x111, 0x112] ++
  ((List.range 8).map fun f => [0x120 + 4 * f, 0x121 + 4 * f, 0x122 + 4 * f]).flatten ++
  [0x200] ++ ((List.range 4).map fun f => [0x201 + 3 * f, 0x202 + 3 * f, 0x203 + 3 * f]).flatten ++
  [0x210, 0x211, 0x212, 0x213, 0x214, 0x215, 0x220, 0x221, 0x222, 0x223, 0x224] ++
  ((List.range 8).map fun j => 0x228 + j) ++ [0x230, 0x231, 0x232] ++
  [0x300, 0x301, 0x302, 0x303, 0x304, 0x305, 0x308, 0x309, 0x30A, 0x30B, 0x310, 0x311]

/-- The registers an access covers: W64 takes the one after it too (R202). -/
def sysCovers (addr : Nat) (w64 : Bool) : List Nat := if w64 then [addr, addr + 1] else [addr]

/-- FADDRLO and FADDRHI need a V destination (R202). -/
def sysPerLane (addr : Nat) : Bool := addr == 0x028 || addr == 0x029

def Sysr.ok (o : Sysr) : Bool :=
  o.ctl.ok false && o.d.ok o.w64 && (sysCovers o.addr o.w64).all sysAddrs.contains &&
  (match o.d with
   | .v _ => true
   | _ => o.ctl.plain && !(sysCovers o.addr o.w64).any sysPerLane)

/-- Whether a SYSW covers LTIME. -/
def Sysw.hitsLtime (addr : Nat) (w64 : Bool) : Bool := (sysCovers addr w64).contains 0x050
/-- Whether a SYSW covers a FDPEND register and not LTIME. -/
def Sysw.hitsFdpend (addr : Nat) (w64 : Bool) : Bool := (sysCovers addr w64).any fun r => 0x228 ≤ r && r ≤ 0x22F

def Sysw.ok (o : Sysw) : Bool :=
  o.ctl.okU false && o.a.isCtl && (sysCovers o.addr o.w64).all sysAddrs.contains && o.a.ok o.w64

def guardOk (g : Guard) : Bool :=
  match g with
  | none => true
  | some s => s < 8

/-- A tile number (R140). -/
def tileOk (n : Nat) : Bool := n < 128

def BOp.ok : BOp → Bool
  | .regs v => v < 192
  | .handle h => h < 16

def optV (o : Option Nat) : Bool :=
  match o with
  | none => true
  | some v => v < 192

def MmaOp.ok (o : MmaOp) (needMd noScl : Bool) : Bool :=
  o.ctl.okU true && guardOk o.guard && tileOk o.d && o.a < 192 && o.b.ok && o.c < 192 &&
  (if needMd then o.md.isSome && optV o.md else o.md.isNone) && optV o.scl && (!noScl || o.scl.isNone)

/-- A scope code pair NW and S destination rule for memory instructions (R235). -/
def LdOp.okWith (o : LdOp) (pairA : Bool) : Bool :=
  let n := match o.size with | .b64 => 2 | .b128 => 4 | _ => 1
  o.ctl.ok true && o.d.run n n && o.a.ok pairA && o.b.isDisp &&
  (match o.d with
   | .s _ => o.ctl.plain && (match o.a with | .s _ => true | _ => false) &&
       (match o.b with | .s _ | .lit _ | .zero => true | _ => false)
   | _ => true)

def StOp.okWith (o : StOp) (pairA : Bool) : Bool :=
  let n := match o.size with | .b64 => 2 | .b128 => 4 | _ => 1
  o.ctl.ok true && o.d.run n n && o.a.ok pairA && o.b.isDisp && litsAgree [o.d, o.b]

/-- The post-increment forms: an S offset in LDSP.PI is written once; d may not overlap a (R66). -/
def overlaps (d : Dst) (n : Nat) (a : Reg) : Bool :=
  match d, a with
  | .v x, .v y => x ≤ y && y < x + n
  | .s x, .s y => x ≤ y && y < x + n
  | _, _ => false

/-- The operand rules of an atomic (R235): an S destination takes S address and uniform operand. -/
def atomRegs (c : Ctl) (d : Dst) (a : Reg) (srcs : List Src) : Bool :=
  match d with
  | .s _ => c.plain && (match a with | .s _ => true | _ => false) && srcs.all Src.uniform
  | _ => true

def AtomOp.ok (o : AtomOp) (wide red : Bool) : Bool :=
  o.ctl.ok true && o.d.ok wide && o.a.ok true && o.b.ok wide && atomRegs o.ctl o.d o.a [o.b] &&
  (!red || (o.d == .zero && o.op != .xchg))

def Instr.wf : Instr → Bool
  | .trapz | .trapzZ32 => true
  | .iadd o | .isub o => o.ok [.i32, .n32, .i64, .n64, .i16x2, .n16x2] true false
  | .iaddZ32 o | .isubZ32 o => o.ok [.w32, .w64, .p16] false false
  | .iadc o => o.ok [.i32, .n32] false false true
  | .imul o => o.ok [.i32, .n32, .i64, .n64] true false
  | .imulZ32 o => o.ok [.w32] false false
  | .imulh o => o.ok [.i32, .n32] false false
  | .imad o => o.ok [.i32, .n32, .i64, .n64] true false false
  | .imadD o => o.okD [.i32, .n32, .i64, .n64] true false
  | .iabs o | .ineg o => o.ok [.i32, .i64, .i16x2] true false
  | .iabsZ32 o | .inegZ32 o => o.ok [.w32, .w64] false true
  | .imin o | .imax o => o.ok [.i32, .i64, .i16x2] false false
  | .iminZ32 o | .imaxZ32 o | .nminZ32 o | .nmaxZ32 o => o.ok [.w32, .p16] false false
  | .nmin o | .nmax o => o.ok [.n32, .n64, .n16x2] false false
  | .andB o | .orB o | .xorB o | .andn o => o.ok [.b32, .b64] false false
  | .andZ32 o | .orZ32 o | .xorZ32 o | .andnZ32 o => o.ok [.w32, .w64] false false
  | .notB o => o.ok [.b32, .b64] false false
  | .notZ32 o => o.ok [.w32, .w64] false true
  | .shl o | .shr o => o.okShift [.b32, .b64]
  | .sar o => o.okShift [.i32, .i64]
  | .shlZ32 o | .shrZ32 o | .sarZ32 o => o.okShift
  | .rotl o => o.okShift [.b32]
  | .rotlZ32 o => o.ok [.w32] false false
  | .bfx o => o.okShift [.i32, .n32]
  | .bfi o | .prmt o => o.ok [.b32] false false false
  | .popc o | .clz o | .brev o => o.ok [.b32] false false
  | .popcZ32 o | .clzZ32 o | .brevZ32 o => o.ok [.w32] false true
  | .icmp o => o.ok [.i32, .n32, .i64, .n64] intConds
  | .sel o => o.ok
  | .mov o => o.ok [.b32, .b64] false false
  | .movZ32 o => o.ok [.w32, .w64] false true
  | .movl o => o.ctl.okU false && [Ty.b32, .b64].contains o.ty && !o.sat && o.rm == .rn &&
      (match o.d with | .s n => numOk 56 o.ty.wide n | _ => false) && o.a.ok o.ty.wide
  | .sega o => o.ctl.ok false && o.ty == .i32 && !o.sat && o.rm == .rn && o.d.ok true && o.a.ok false && o.b.ok true &&
      laneOk o.ctl o.d [o.a, o.b] && litsAgree [o.a, o.b]
  | .padd o => o.ctl.ok false && [Ty.i32, .i64].contains o.ty && !o.sat && o.rm == .rn && o.d.ok true && o.a.ok true &&
      o.b.ok o.ty.wide && laneOk o.ctl o.d [o.a, o.b] && litsAgree [o.a, o.b]
  | .pseg o => o.ctl.ok false && o.ty == .i32 && !o.sat && o.rm == .rn && o.d.ok false && o.a.ok true && laneOk o.ctl o.d [o.a]
  | .poff o => o.ctl.ok false && o.ty == .i32 && !o.sat && o.rm == .rn && o.d.ok true && o.a.ok true && laneOk o.ctl o.d [o.a]
  | .fadd o | .fsub o | .fmul o | .fdiv o => o.ok [.f32] true true
  | .faddZ32 o | .fsubZ32 o | .fmulZ32 o => o.ok [.w32] true false
  | .ffma o => o.ok [.f32] true true false
  | .ffmaD o => o.okD [.f32] true true
  | .fmin o | .fmax o => o.ok [.f32] false false
  | .fminZ32 o | .fmaxZ32 o => o.ok [.w32] false false
  | .fcmp o => o.ok [.f32] fltConds
  | .fclass o => o.ctl.ok false && predDstOk o.d && o.a.ok false
  | .fsqrt o => o.ok [.f32] true true
  | .frcp o | .frsq o | .fexp2 o | .flog2 o | .fsin o | .fcos o | .ftanh o => o.okApprox
  | .fsqrtZ32 o | .frcpZ32 o | .frsqZ32 o | .fexp2Z32 o | .flog2Z32 o | .fsinZ32 o | .fcosZ32 o | .ftanhZ32 o =>
      o.ok [.w32] true true
  | .hadd2 o | .hmul2 o => o.ok [.f16x2, .bf16x2] true true
  | .hadd2Z32 o | .hmul2Z32 o => o.ok [.p16] true false
  | .hfma2 o => o.ok [.f16x2, .bf16x2] true true false
  | .hfma2D o => o.okD [.f16x2, .bf16x2] true true
  | .f2i o => o.ok [.i32, .n32, .i64, .n64] [.f32, .f16, .bf16] false
  | .i2f o => o.ok [.f32, .f16, .bf16] [.i32, .n32, .i64, .n64] true
  | .f2iZ32 o => o.ok [.w32] false true
  | .i2fZ32 o => o.ok [.w32] true true
  | .fcvt o => o.okFcvt
  | .fpk o => o.okFpk
  | .fupk o => o.okFupk
  | .qnt o | .dqnt o => o.okQnt
  | .plop o => o.ok
  | .shfl o => o.ok
  | .vred o => o.ok false
  | .vscan o => o.ok true
  | .vote o => o.ok
  | .ballot o => o.ok
  | .elect c d => c.ok false && predDstOk d
  | .matchOp o => o.ok
  | .bra o => o.ctl.ok false
  | .brau o => o.ctl.ok false
  | .brauReg o => o.ctl.ok false && o.a.ok true
  | .brx o => o.ctl.ok false && o.a.ok true
  | .call o => o.ctl.ok false && numOk 192 true o.d
  | .callx o => o.ctl.ok false && numOk 192 true o.d && o.a.ok true
  | .ret o => o.ctl.okU false && o.a.ok true
  | .exit c => c.ok false
  | .endOp c | .yield c | .nop c | .eret c | .crend c | .shootw c | .flagwrSave c => c.okU false
  | .emrd c d _ => c.okU false && d < 56
  | .emwr c a _ => c.okU false && a.isCtl
  | .waitf c a l => c.okU false && a.isCtl && l < 64
  | .bar c n | .bara c n | .barw c n => c.okU false && n < 16
  | .sleep c a => c.okU false && a.isCtl
  | .nopZ32 p n => p == 15 && !n
  | .launch o => o.ctl.okU true && numOk 56 true o.a && (match o.d with | .s n => n < 56 | .zero => true | .v _ => false)
  | .gset c slot v => c.okU false && slot < 8 && (match v with | .from a => a.isCtl | _ => true)
  | .trap c n | .bkpt c n => c.ok false && n < 256
  | .sysr o => o.ok
  | .sysw o => o.ok && !Sysw.hitsLtime o.addr o.w64 && !Sysw.hitsFdpend o.addr o.w64
  | .ltimeWrite o => o.ok && Sysw.hitsLtime o.addr o.w64
  | .fdpendClear o => o.ok && !Sysw.hitsLtime o.addr o.w64 && Sysw.hitsFdpend o.addr o.w64
  | .protld o => o.ctl.okU true && o.slot < 16 && numOk 56 true o.a
  | .protsel o => o.ctl.okU false && o.idx < 64 && numOk 56 true o.a && numOk 56 true o.b
  | .ltadv o => o.ctl.okU false && o.a.isSys && (match o.d with | .s n => n < 56 | .zero => true | .v _ => false)
  | .btcopy o => o.ctl.ok true && guardOk o.guard && (o.a.regRun 2 2 || o.a == .zero) && (o.b.regRun 1 1 || o.b == .zero) && (o.c.regRun 1 1 || o.c == .zero)
  | .btlin o => o.ctl.ok true && guardOk o.guard &&
      (o.a == .zero || if o.srcS then o.a.regRun 1 1 else o.a.regRun 2 2) &&
      (o.b == .zero || if o.dstS then o.b.regRun 1 1 else o.b.regRun 2 2) && (o.c.regRun 1 1 || o.c == .zero)
  | .btgath o => o.ctl.ok true && guardOk o.guard && (o.a.regRun 2 2 || o.a == .zero) && (o.b.regRun 1 1 || o.b == .zero) &&
      (o.c.regRun 1 1 || o.c == .zero) && o.e < 192
  | .btclose o => o.ctl.okU false && (match o.d with | .s n => n < 56 | .zero => true | .v _ => false)
  | .btwait o => o.ctl.okU false && (match o.d with | .s n => n < 56 | .zero => true | .v _ => false) && o.a.isSys
  | .btring o => o.ctl.okU false && numOk 56 true o.a && (match o.b with | .s n => n < 56 | .lit _ => true | _ => false)
  | .lnk o => o.ctl.ok true && o.a.isSys && o.d.ok true && (match o.d with | .s _ => o.ctl.plain | .v _ => true)
  | .calll o => o.ctl.ok false && numOk 192 true o.d && o.a.isSys
  | .bind o => o.ctl.okU true && (match o.d with | .s n => n < 56 | .zero => true | .v _ => false) && o.a.isSys && o.b < 56
  | .bindFail o | .unbind o => o.ctl.okU true && (match o.d with | .s n => n < 56 | .zero => true | .v _ => false) && o.a.isSys
  | .segld o => o.ctl.okU true && runOk 56 8 8 o.d && o.a.isSys
  | .segupd o => o.ctl.okU false && runOk 56 8 8 o.b && o.a.isSys
  | .segchk o => o.ctl.ok false && predDstOk o.d && o.a.ok true && o.b.isSys
  | .shoot o => o.ctl.okU false && o.a.isSys && o.b.isSys && litsAgree [o.a, o.b] &&
      (match o.mode with | .all => o.a == .zero && o.b == .zero | .context => o.b == .zero | .selector => true)
  | .icinv o => o.ctl.okU false && numOk 56 true o.a && o.b.isSys
  | .splitrd o => o.ctl.okU false && o.d < 56 && o.a.isSys
  | .splitwr o => o.ctl.okU false && o.a.isSys && o.b.isSys && litsAgree [o.a, o.b]
  | .flagwrSet c k a => c.okU false && k < 12 && a.isSys
  | .crbegin o => o.ctl.okU false
  | .capq o => o.ctl.okU false && o.d < 56 && o.a.isSys && o.item < 11
  | .sigrd c d => c.okU false && numOk 56 true d
  | .psnw o => o.ctl.ok true && o.a.ok true
  | .mma o => o.ok false false
  | .mmas o => o.ok true false
  | .mmat o => o.ok false true
  | .zclr o => o.ctl.okU true && guardOk o.guard && tileOk o.d
  | .zld o | .zst o => o.ctl.okU true && guardOk o.guard && tileOk o.d && o.a < 56 && 16 ≤ o.stride && o.stride ≤ 8191
  | .zmov o => o.ctl.okU true && guardOk o.guard && runOk 192 16 16 o.d && tileOk o.a && o.blk < 8
  | .zadd o => o.ctl.okU true && guardOk o.guard && tileOk o.d && tileOk o.a && o.c < 192
  | .epi o => o.ctl.okU true && guardOk o.guard && tileOk o.d && numOk 56 true o.a && optV o.b &&
      (match o.c with | none => true | some n => n < 56) && o.blk < 8
  | .actld o => o.ctl.okU true && o.bank < 2 && numOk 56 true o.a
  | .ohdl o => o.ctl.okU false && o.h < 16 && (match o.a with | .s n => n < 56 | .lit _ => true | _ => false)
  | .spfence o => o.ctl.okU false && o.h < 16
  | .ld o => o.okWith true
  | .st o => o.okWith true
  | .ldsp o => o.okWith false
  | .stsp o => o.okWith false
  | .ldspPi o => o.okWith false && !overlaps o.d (match o.size with | .b64 => 2 | .b128 => 4 | _ => 1) o.a
  | .stspPi o => o.okWith false
  | .ldspZ32 o => o.okLd
  | .stspZ32 o => o.ok
  | .atom o => o.ok false false
  | .atomB64 o => o.ok true false
  | .red o => o.ok false true
  | .redB64 o => o.ok true true
  | .atomcas o => o.ctl.ok true && o.d.ok o.w64 && o.a.ok true &&
      (if o.w64 then o.b.regRun 4 4 else o.b.regRun 2 2) && atomRegs o.ctl o.d o.a [o.b]
  | .atomcasSp o => o.ctl.ok true && o.d.ok false && (match o.a with | .v n => n < 192 | .s n => n < 56 | _ => false) &&
      o.b.ok false && o.c.ok false && laneOk o.ctl o.d [o.a, o.b, o.c] && litsAgree [o.a, o.b, o.c]
  | .atomdp o => o.ctl.ok true && o.d.ok false && o.a.ok true && atomRegs o.ctl o.d o.a []
  | .fatom o => o.ctl.ok true && o.d.ok false && o.a.ok true && o.b.ok false && atomRegs o.ctl o.d o.a [o.b]
  | .braDec o => o.ctl.okU false && o.d < 56
  | .braDecReg o => o.ctl.okU false && o.d < 56 && o.a.ok true
  | .ldq o => o.ctl.ok true && numOk 192 o.w64 o.d && o.q.isSonly
  | .stq o => o.ctl.ok true && numOk 192 o.w64 o.d && o.q.isSonly
  | .acq o => o.ctl.okU true && numOk 56 true o.a
  | .acqt o => o.ctl.okU true && predDstOk o.d && numOk 56 true o.a
  | .rel o => o.ctl.okU true && numOk 56 true o.a
  | .fence c _ _ => c.okU false
  | .pub c _ => c.okU true
  | .waitv o => o.ctl.okU true && o.d < 56 && numOk 56 true o.a && (if o.w64 then runOk 56 4 4 o.b else runOk 56 2 1 o.b)
  | .wake o => o.ctl.ok false && o.a.ok true
  | .pref o => o.ctl.ok true && o.a.ok true && o.b.isDisp
  | .rinv o | .rinvWb o | .rflush o => o.ctl.okU true && numOk 56 true o.a && o.b.isSonly
  | .bankcfg c a => c.okU true && a.isSonly
  | .clauseHeader h => 1 ≤ h.len && h.len ≤ 31 && (match h.flagA with | none => true | some f => f < 12) &&
      (match h.flagB with | none => true | some f => f < 12) && (h.flagA.isNone || h.flagA != h.flagB)
  | .instructionFetch .. | .trapEntry .. | .splitArrival .. | .stallEvent .. | .sleepDeadline .. | .storeBufferDrain ..
  | .publishBufferDrain .. | .homeApply .. | .copyDrop .. | .loadDataReturn .. | .atomicApply .. | .cairnGrant ..
  | .cairnRelease .. | .waitvTimeout .. | .monitorEviction .. | .spuriousWake .. | .queueService .. | .bankLineHandle ..
  | .rangeLineStep .. | .gets .. | .getx .. | .putw .. | .homeAtom .. | .readReq .. | .evict .. | .wback .. | .fpub ..
  | .flush .. | .neut .. | .disc .. | .part .. | .fillReply .. | .invalidation .. | .recall .. | .push .. | .ltimeTick ..
  | .protocolInstall .. | .pageWalk .. | .shootdown .. | .pinRelease .. | .parkedWake .. | .engineCommandRun ..
  | .engineCommandComplete .. | .activationInstall .. | .copyStart .. | .copyComplete .. | .takeBlock ..
  | .predecessorsDone .. | .teamAdmission .. | .saveEntry .. | .restoreEntry .. | .waveRetirement .. | .gridCompletion ..
  | .teamUnwind .. | .correctedError .. | .uncorrectableError .. | .ceWindowExpiry .. | .lineEvacuation ..
  | .auditReplay .. | .auditCompare .. | .audit .. | .partitionTeardown .. | .start .. | .stop .. | .setState ..
  | .setTrustList .. | .getCertificate | .challenge .. | .getMeasurements .. | .firmwareUpdate .. | .thermalClamp ..
  | .hostMemAccess .. | .hostSnoop .. | .peerAccess .. | .linkRefusal .. | .resetRefusal .. | .translationBuild ..
  | .translationInstall .. | .moduleReset => true

end Sys2Proof
end

