-- ==== Sys2Proof/Machine/Float.lean ====
section
/-! DEFINITION. The arithmetic promise (04 R82–R99, 05 R113–R120): element formats, exact values, rounding, exceptions, stochastic rounding, the approximations' bounds. -/

namespace Sys2Proof.Machine

/-! ### Formats (R82, R83) -/

/-- A floating-point format: exponent and mantissa widths, bias, the encoding of the largest finite magnitude, whether
it has infinities, whether it has NaNs, the canonical NaN. -/
structure FpFmt where
  ebits : Nat
  mbits : Nat
  bias  : Nat
  maxf  : Nat
  hasInf : Bool
  hasNan : Bool
  cnan  : Nat
  deriving DecidableEq, Repr

def fp32 : FpFmt := { ebits := 8, mbits := 23, bias := 127, maxf := 0x7F7FFFFF, hasInf := true, hasNan := true, cnan := 0x7FC00000 }
def fpBf16 : FpFmt := { ebits := 8, mbits := 7, bias := 127, maxf := 0x7F7F, hasInf := true, hasNan := true, cnan := 0x7FC0 }
def fp16 : FpFmt := { ebits := 5, mbits := 10, bias := 15, maxf := 0x7BFF, hasInf := true, hasNan := true, cnan := 0x7E00 }
def fpE4m3 : FpFmt := { ebits := 4, mbits := 3, bias := 7, maxf := 0x7E, hasInf := false, hasNan := true, cnan := 0x7F }
def fpE5m2 : FpFmt := { ebits := 5, mbits := 2, bias := 15, maxf := 0x7B, hasInf := true, hasNan := true, cnan := 0x7E }
def fpE3m2 : FpFmt := { ebits := 3, mbits := 2, bias := 3, maxf := 0x1F, hasInf := false, hasNan := false, cnan := 0 }
def fpE2m3 : FpFmt := { ebits := 2, mbits := 3, bias := 1, maxf := 0x1F, hasInf := false, hasNan := false, cnan := 0 }
def fpE2m1 : FpFmt := { ebits := 2, mbits := 1, bias := 1, maxf := 0x7, hasInf := false, hasNan := false, cnan := 0 }

/-- An element format: floating point, or integer with its width and signedness. -/
inductive EltFmt where
  | fp (f : FpFmt)
  | int (bits : Nat) (signed : Bool)
  deriving DecidableEq, Repr

def eltFmt : Fmt → EltFmt
  | .fp32 => .fp fp32 | .bf16 => .fp fpBf16 | .fp16 => .fp fp16 | .e4m3 => .fp fpE4m3 | .e5m2 => .fp fpE5m2
  | .e3m2 => .fp fpE3m2 | .e2m3 => .fp fpE2m3 | .e2m1 => .fp fpE2m1
  | .i8 => .int 8 true | .n8 => .int 8 false | .i4 => .int 4 true | .t2 => .int 2 true

/-- The element format of a code (R82). -/
def fmtOfCode (n : Nat) : Fmt :=
  match n with
  | 0 => .fp32 | 1 => .bf16 | 2 => .fp16 | 3 => .e4m3 | 4 => .e5m2 | 5 => .e3m2 | 6 => .e2m3 | 7 => .e2m1 | 8 => .i8
  | 9 => .n8 | 10 => .i4 | _ => .t2

/-! ### FPSTAT bits (R98) -/

def fNV : Nat := 1
def fDZ : Nat := 2
def fOF : Nat := 4
def fUF : Nat := 8
def fNX : Nat := 16
def fFD : Nat := 32

/-- A delivered element and its exceptions. -/
structure FRes where
  bits  : Nat
  flags : Nat
  deriving DecidableEq, Repr

/-! ### Exact values -/

/-- An exact value. `nan nv` raises NV when `nv`. `num` is ±man × 2^exp, or with `sticky` a value strictly between
that and ±(man + 1) × 2^exp; man 0 without sticky is a signed zero. -/
inductive Ex where
  | nan (nv : Bool)
  | inf (neg : Bool)
  | num (neg : Bool) (man : Nat) (exp : Int) (sticky : Bool)
  deriving DecidableEq, Repr

/-- The value of an encoding (R83). -/
def unpackFp (f : FpFmt) (x : Nat) : Ex :=
  let m := x % 2 ^ f.mbits
  let e := x / 2 ^ f.mbits % 2 ^ f.ebits
  let neg := bitOf x (f.mbits + f.ebits)
  let mag := x % 2 ^ (f.mbits + f.ebits)
  if f.hasInf && e == 2 ^ f.ebits - 1 then
    if m == 0 then .inf neg else .nan (!bitOf m (f.mbits - 1))
  else if f.hasNan && !f.hasInf && mag == f.cnan then .nan false
  else if e == 0 then .num neg m (1 - (f.bias : Int) - f.mbits) false
  else .num neg (2 ^ f.mbits + m) ((e : Int) - f.bias - f.mbits) false

/-- The exact value of an integer. -/
def exInt (z : Int) : Ex := .num (z < 0) z.natAbs 0 false

/-- Whether an element is the invalid T2 code (R86). -/
def badT2 (f : Fmt) (x : Nat) : Bool := f == .t2 && x % 4 == 2

/-- The value of an element; the invalid T2 code reads as 0. -/
def unpackElt (f : Fmt) (x : Nat) : Ex :=
  match eltFmt f with
  | .fp g => unpackFp g (x % 2 ^ f.bits)
  | .int n sg => if badT2 f x then exInt 0 else exInt (if sg then sxNat x n else (x % 2 ^ n : Nat))

/-- FD for an element read as an operand. -/
def eltFD (f : Fmt) (x : Nat) : Nat := if badT2 f x then fFD else 0

/-! ### Rounding (R89–R93) -/

/-- Round man × 2^exp to a multiple of 2^g: the multiple, and whether it is inexact. `w` is the random word of SR. -/
def roundAt (rm : RM) (neg : Bool) (w man : Nat) (exp : Int) (sticky : Bool) (g : Int) : Nat × Bool :=
  if g ≤ exp then (man * 2 ^ (exp - g).toNat, sticky)
  else
    let sh := (g - exp).toNat
    let n := man / 2 ^ sh
    let d := man % 2 ^ sh
    let inx := d != 0 || sticky
    let half := 2 ^ (sh - 1)
    let up := match rm with
      | .rn => decide (half < d) || (d == half && (sticky || n % 2 == 1))
      | .rz => false
      | .rd => neg && inx
      | .ru => !neg && inx
      | .ra => decide (half ≤ d)
      | .sr => decide (w < d * 2 ^ 32 / 2 ^ sh)
    (if up then n + 1 else n, inx)

/-- The sign bit of a format. -/
def fpSign (f : FpFmt) (neg : Bool) : Nat := if neg then 2 ^ (f.mbits + f.ebits) else 0

/-- The infinity's magnitude. -/
def fpInf (f : FpFmt) : Nat := (2 ^ f.ebits - 1) * 2 ^ f.mbits

/-- What an overflowing value becomes (R85, R90). -/
def fpOver (f : FpFmt) (rm : RM) (sat neg : Bool) : Nat :=
  fpSign f neg +
    (if sat || (!f.hasInf && !f.hasNan) then f.maxf
     else if !f.hasInf then f.cnan
     else match rm with
      | .rn | .ra | .sr => fpInf f
      | .rz => f.maxf
      | .rd => if neg then fpInf f else f.maxf
      | .ru => if neg then f.maxf else fpInf f)

/-- The E4M3 overflow is its canonical NaN, without the sign. -/
def fpOverRes (f : FpFmt) (rm : RM) (sat neg : Bool) : Nat :=
  if !sat && !f.hasInf && f.hasNan then f.cnan else fpOver f rm sat neg

/-- An exact value rounded once into a floating-point format (R85, R89–R91). -/
def finishFp (f : FpFmt) (rm : RM) (sat : Bool) (w : Nat) (x : Ex) : FRes :=
  match x with
  | .nan nv => if f.hasNan then { bits := f.cnan, flags := if nv then fNV else 0 } else { bits := 0, flags := fNV }
  | .inf neg =>
      if sat || (!f.hasInf && !f.hasNan) then { bits := fpSign f neg + f.maxf, flags := fOF + fNX }
      else if f.hasInf then { bits := fpSign f neg + fpInf f, flags := 0 }
      else { bits := f.cnan, flags := fNV }
  | .num neg man exp sticky =>
      if man = 0 && !sticky then { bits := fpSign f neg, flags := 0 }
      else
        let e : Int := (man.log2 : Int) + exp
        let emin : Int := 1 - (f.bias : Int)
        let g := max e emin - f.mbits
        let (n, inx) := roundAt rm neg w man exp sticky g
        let (nu, _) := roundAt rm neg w man exp sticky (e - f.mbits)
        -- nu × 2^(e - M) against 2^emin
        let tiny := decide (e < emin) && !(decide (e + 1 = emin) && nu == 2 ^ (f.mbits + 1))
        let mag := (g - (emin - f.mbits)).toNat * 2 ^ f.mbits + n
        if f.maxf < mag then { bits := fpOverRes f rm sat neg, flags := fOF + fNX }
        else { bits := fpSign f neg + mag, flags := (if inx then fNX else 0) + (if inx && tiny then fUF else 0) }

/-- An exact value rounded to an integer and clamped (R92, R119): the integer and the exceptions. -/
def finishInt (lo hi : Int) (rm : RM) (w : Nat) (x : Ex) : Int × Nat :=
  match x with
  | .nan _ => (0, fNV)
  | .inf neg => (if neg then lo else hi, fNV)
  | .num neg man exp sticky =>
      let (n, inx) := roundAt rm neg w man exp sticky 0
      let z : Int := if neg then -(n : Int) else n
      if z < lo then (lo, fNV) else if hi < z then (hi, fNV) else (z, if inx then fNX else 0)

/-- The range of an integer element. -/
def intRange (n : Nat) (sg : Bool) : Int × Int :=
  if n = 2 then (-1, 1) else if sg then (-(2 ^ (n - 1) : Int), 2 ^ (n - 1) - 1) else (0, 2 ^ n - 1)

/-- An exact value entering an element format. -/
def finishElt (f : Fmt) (rm : RM) (sat : Bool) (w : Nat) (x : Ex) : FRes :=
  match eltFmt f with
  | .fp g => finishFp g rm sat w x
  | .int n sg =>
      let r := intRange n sg
      let (z, fl) := finishInt r.1 r.2 rm w x
      { bits := narrow n z, flags := fl }

/-! ### Exact arithmetic (R113) -/

/-- Whether any operand is a signalling NaN, or an operation is itself invalid. -/
def Ex.isNan : Ex → Bool | .nan _ => true | _ => false
def Ex.sig : Ex → Bool | .nan b => b | _ => false
def Ex.neg : Ex → Ex | .nan b => .nan b | .inf n => .inf (!n) | .num n m e s => .num (!n) m e s
def Ex.isNeg : Ex → Bool | .nan _ => false | .inf n => n | .num n _ _ _ => n
def Ex.isZero : Ex → Bool | .num _ m _ s => m == 0 && !s | _ => false
def Ex.isInf : Ex → Bool | .inf _ => true | _ => false

/-- The integer mantissa of a finite value at a smaller exponent. -/
def manAt (neg : Bool) (man : Nat) (exp e : Int) : Int :=
  let m : Int := (man * 2 ^ (exp - e).toNat : Nat)
  if neg then -m else m

/-- The exact sum. A zero sum of opposite signs is +0, under RD −0 (R90). -/
def exAdd (rm : RM) (a b : Ex) : Ex :=
  match a, b with
  | .nan p, y => .nan (p || y.sig)
  | x, .nan q => .nan (q || x.sig)
  | .inf p, .inf q => if p == q then .inf p else .nan true
  | .inf p, _ => .inf p
  | _, .inf q => .inf q
  | .num n1 m1 e1 _, .num n2 m2 e2 _ =>
      let e := min e1 e2
      let z := manAt n1 m1 e1 e + manAt n2 m2 e2 e
      if z = 0 then
        if m1 = 0 && m2 = 0 && n1 == n2 then .num n1 0 e false else .num (rm == .rd) 0 e false
      else .num (z < 0) z.natAbs e false

/-- The exact product. -/
def exMul (a b : Ex) : Ex :=
  match a, b with
  | .nan p, y => .nan (p || y.sig)
  | x, .nan q => .nan (q || x.sig)
  | .inf p, y => if y.isZero then .nan true else .inf (p != y.isNeg)
  | x, .inf q => if x.isZero then .nan true else .inf (x.isNeg != q)
  | .num n1 m1 e1 _, .num n2 m2 e2 _ => .num (n1 != n2) (m1 * m2) (e1 + e2) false

/-- a × b + c exactly; 0 × ∞ is invalid even beside a quiet NaN. -/
def exFma (rm : RM) (a b c : Ex) : Ex := exAdd rm (exMul a b) c

/-- Bits a quotient or root carries below its leading bit before the sticky mark. -/
def extraBits : Nat := 160

/-- The exact quotient, with DZ. -/
def exDiv (a b : Ex) : Ex × Nat :=
  match a, b with
  | .nan p, y => (.nan (p || y.sig), 0)
  | x, .nan q => (.nan (q || x.sig), 0)
  | .inf p, y => (if y.isInf then .nan true else .inf (p != y.isNeg), 0)
  | x, .inf q => (.num (x.isNeg != q) 0 0 false, 0)
  | .num n1 m1 e1 _, .num n2 m2 e2 _ =>
      if m2 = 0 then (if m1 = 0 then (.nan true, 0) else (.inf (n1 != n2), fDZ))
      else
        let num := m1 * 2 ^ (extraBits + m2.log2)
        (.num (n1 != n2) (num / m2) (e1 - e2 - ((extraBits + m2.log2 : Nat) : Int)) (num % m2 != 0), 0)

/-- The integer square root, bit by bit from bit `k`. -/
def isqrtGo (n : Nat) : Nat → Nat → Nat
  | 0, acc => acc
  | k + 1, acc =>
      let c := acc + 2 ^ k
      if c * c ≤ n then isqrtGo n k c else isqrtGo n k acc

def isqrt (n : Nat) : Nat := isqrtGo n (n.log2 / 2 + 1) 0

/-- The exact square root. -/
def exSqrt (a : Ex) : Ex :=
  match a with
  | .nan p => .nan p
  | .inf n => if n then .nan true else .inf false
  | .num n m e _ =>
      if m = 0 then .num n 0 0 false
      else if n then .nan true
      else
        let m1 := if e % 2 = 0 then m else 2 * m
        let e1 := if e % 2 = 0 then e else e - 1
        let big := m1 * 2 ^ (2 * extraBits)
        let r := isqrt big
        .num false r (e1 / 2 - (extraBits : Int)) (r * r != big)

/-! ### Compare, minimum, class (R114, R115) -/

/-- The exact order of two numbers, infinities included; zeros are equal. -/
def exLt (a b : Ex) : Bool :=
  match a, b with
  | .nan _, _ => false
  | _, .nan _ => false
  | .inf p, .inf q => p && !q
  | .inf p, _ => p
  | _, .inf q => !q
  | .num n1 m1 e1 _, .num n2 m2 e2 _ => decide (manAt n1 m1 e1 (min e1 e2) < manAt n2 m2 e2 (min e1 e2))

/-- Equality of two numbers; a NaN equals nothing. -/
def exEq (a b : Ex) : Bool := !a.isNan && !b.isNan && !exLt a b && !exLt b a

/-- Relations of FCMP (R72) and their NV. -/
def fcmpRes (c : Cond) (a b : Ex) : Bool × Nat :=
  let un := a.isNan || b.isNan
  let ordered := match c with | .lt | .le | .gt | .ge => true | _ => false
  let nv := a.sig || b.sig || (ordered && un)
  let r := match c with
    | .eq => exEq a b
    | .ne => !un && !exEq a b
    | .lt => exLt a b
    | .le => exLt a b || exEq a b
    | .gt => exLt b a
    | .ge => exLt b a || exEq a b
    | .equ => un || exEq a b
    | .neu => un || !exEq a b
    | .ltu => un || exLt a b
    | .leu => un || exLt a b || exEq a b
    | .gtu => un || exLt b a
    | .geu => un || exLt b a || exEq a b
    | .num => !un
    | .nan => un
  (r, if nv then fNV else 0)

/-- FMIN and FMAX on FP32 encodings: minimumNumber and maximumNumber; −0 is below +0. -/
def fminmax (mx : Bool) (x y : Nat) : FRes :=
  let a := unpackFp fp32 x
  let b := unpackFp fp32 y
  let fl := if a.sig || b.sig then fNV else 0
  let below := exLt a b || (exEq a b && a.isNeg && !b.isNeg)
  let r := if a.isNan && b.isNan then fp32.cnan
    else if a.isNan then y else if b.isNan then x
    else if below == mx then y else x
  { bits := r, flags := fl }

/-- The class bit of R115 of an FP32 encoding. -/
def fclassBit (x : Nat) : Nat :=
  let neg := bitOf x 31
  let mag := x % 2 ^ 31
  if 0x7F800000 < mag then 0
  else if mag = 0x7F800000 then (if neg then 1 else 7)
  else if mag = 0 then 4
  else if mag < 2 ^ 23 then (if neg then 3 else 5)
  else if neg then 2 else 6

/-! ### Philox (R94) -/

/-- One round of Philox-4×32. -/
def philoxRound (c : Nat × Nat × Nat × Nat) (k0 k1 : Nat) : Nat × Nat × Nat × Nat :=
  let p := 0xD2511F53 * c.1
  let q := 0xCD9E8D57 * c.2.2.1
  (q / 2 ^ 32 ^^^ c.2.1 ^^^ k0, q % 2 ^ 32, p / 2 ^ 32 ^^^ c.2.2.2 ^^^ k1, p % 2 ^ 32)

def philoxGo : Nat → Nat × Nat × Nat × Nat → Nat → Nat → Nat × Nat × Nat × Nat
  | 0, c, _, _ => c
  | n + 1, c, k0, k1 => philoxGo n (philoxRound c k0 k1) ((k0 + 0x9E3779B9) % 2 ^ 32) ((k1 + 0xBB67AE85) % 2 ^ 32)

/-- Word `i` of philox4x32_10 of a counter and a key. -/
def philox (c0 c1 c2 c3 k0 k1 i : Nat) : Nat :=
  let r := philoxGo 10 (c0, c1, c2, c3) k0 k1
  match i with | 0 => r.1 | 1 => r.2.1 | 2 => r.2.2.1 | _ => r.2.2.2

/-- The random word of a counter's stream, row, step at a column (R95). -/
def srWord (k0 k1 stream row step col : Nat) : Nat := philox (col / 4) row step stream k0 k1 (col % 4)

/-! ### The approximations (R116)

The exact function values below are enclosed to far more bits than a bound needs; the returned bits are the free
function of R117 wherever it lies within the bound of R116, and the rounded exact value elsewhere (log 10). -/

/-- Fraction bits of the fixed-point work. -/
def fxBits : Nat := 512
def fxOne : Nat := 2 ^ fxBits
/-- π/2 and ln 2 at that precision. -/
def fxHalfPi : Nat := 0x1921fb54442d18469898cc51701b839a252049c1114cf98e804177d4c76273644a29410f31c6809bbdf2a33679a748636605614dbe4be286e9fc26adadaa3848b
def fxLn2 : Nat := 0xb17217f7d1cf79abc9e3b39803f2f6af40f343267298b62d8a0d175b8baafa2be7b876206debac98559552fb4afa1b10ed2eae35c138214427573b291169b825

/-- Σ over k ≥ i of a series whose next term is the last × x ÷ (k + 1), all terms positive. -/
def fxExpGo (x : Nat) : Nat → Nat → Nat → Nat → Nat
  | 0, _, _, acc => acc
  | n + 1, k, t, acc => fxExpGo x n (k + 1) (t * x / fxOne / (k + 1)) (acc + t)

/-- e^x of a fixed-point x below 1. -/
def fxExp (x : Nat) : Nat := fxExpGo x 110 0 fxOne 0

/-- 2^f of a fixed-point f below 1. -/
def fxExp2 (f : Nat) : Nat := fxExp (f * fxLn2 / fxOne)

/-- The alternating series of sine and cosine: the sums of the positive and of the negative terms. -/
def fxAltGo (x2 : Nat) : Nat → Nat → Nat → Nat → Nat → Nat × Nat
  | 0, _, _, p, q => (p, q)
  | n + 1, k, t, p, q => fxAltGo x2 n (k + 2) (t * x2 / fxOne / ((k + 1) * (k + 2))) (q + t) p

/-- |p − q| of an alternating series that starts with a positive term, over an even number of terms. -/
def fxAlt (x2 k t : Nat) : Nat := let r := fxAltGo x2 80 k t 0 0; if r.1 < r.2 then r.2 - r.1 else r.1 - r.2

/-- Sine and cosine of a fixed-point angle below π/2. -/
def fxSin (x : Nat) : Nat := fxAlt (x * x / fxOne) 1 x
def fxCos (x : Nat) : Nat := fxAlt (x * x / fxOne) 0 fxOne

/-- The fraction bits of log₂ m, for m in [1, 2), by repeated squaring. -/
def fxLog2Go : Nat → Nat → Nat → Nat
  | 0, _, acc => acc
  | n + 1, m, acc =>
      let s := m * m / fxOne
      if 2 * fxOne ≤ s then fxLog2Go n (s / 2) (2 * acc + 1) else fxLog2Go n s (2 * acc)

/-- A finite magnitude as a fixed-point number. -/
def fxOf (man : Nat) (exp : Int) : Nat := man * 2 ^ (exp + fxBits).toNat

/-- A fixed-point magnitude as an inexact value. -/
def exFx (neg : Bool) (x : Nat) : Ex := .num neg x (-(fxBits : Int)) true

/-- Whether a positive magnitude is a power of two, and of which exponent. -/
def pow2Of (man : Nat) (exp : Int) : Option Int := if man = 2 ^ man.log2 then some ((man.log2 : Int) + exp) else none

/-- 2^n as an exact value. -/
def exPow2 (n : Int) : Ex := .num false 1 n false

/-- The exact function value, with DZ (R116). Functions: 0 FRCP, 1 FRSQ, 2 FEXP2, 3 FLOG2, 4 FSIN, 5 FCOS, 6 FTANH. (log 10, DESIGN CHOICE) -/
def approxExact (fn : Nat) (a : Ex) : Ex × Nat :=
  match a with
  | .nan p => (.nan p, 0)
  | .inf neg =>
      match fn with
      | 0 => (.num neg 0 0 false, 0)
      | 1 => (if neg then .nan true else .num false 0 0 false, 0)
      | 2 => (if neg then .num false 0 0 false else .inf false, 0)
      | 3 => (if neg then .nan true else .inf false, 0)
      | 6 => (.num neg 1 0 false, 0)
      | _ => (.nan true, 0)
  | .num neg man exp _ =>
      if man = 0 then
        match fn with
        | 0 => (.inf neg, fDZ)
        | 1 => (.inf neg, fDZ)
        | 2 => (exPow2 0, 0)
        | 3 => (.inf true, fDZ)
        | 5 => (exPow2 0, 0)
        | _ => (.num neg 0 0 false, 0)
      else match fn with
        | 0 => exDiv (exPow2 0) a
        | 1 => if neg then (.nan true, 0) else
            -- 1/√(m·2^e) = √(2^(2x) ÷ m') scaled
            let m1 := if exp % 2 = 0 then man else 2 * man
            let e1 := if exp % 2 = 0 then exp else exp - 1
            let n := 2 ^ (2 * 240)
            let r := isqrt (n / m1)
            (.num false r (-240 - e1 / 2) (!((r * r) * m1 == n)), 0)
        | 2 =>
            -- n + f with f in [0, 1)
            if 10 ≤ (man.log2 : Int) + exp then (if neg then .num false 1 (-1000) true else .num false 1 1000 true, 0)
            else
              let x := fxOf man exp
              let n : Int := if neg then -((x + fxOne - 1) / fxOne : Nat) else (x / fxOne : Nat)
              let f := if neg then (fxOne - x % fxOne) % fxOne else x % fxOne
              (if f = 0 then exPow2 n else .num false (fxExp2 f) (n - fxBits) true, 0)
        | 3 => if neg then (.nan true, 0) else
            match pow2Of man exp with
            | some n => (exInt n, 0)
            | none =>
                let e : Int := (man.log2 : Int) + exp
                let b := fxLog2Go 160 (man * 2 ^ (fxBits - man.log2)) 0
                let z : Int := e * 2 ^ 160 + b
                (if z < 0 then .num true (z.natAbs - 1) (-160) true else .num false z.natAbs (-160) true, 0)
        | 4 =>
            let x := fxOf man exp
            let q := x / fxHalfPi
            let r := x % fxHalfPi
            (exFx (neg != decide (2 ≤ q % 4)) (if q % 2 = 0 then fxSin r else fxCos r), 0)
        | 5 =>
            let x := fxOf man exp
            let q := x / fxHalfPi
            let r := x % fxHalfPi
            (exFx (q % 4 == 1 || q % 4 == 2) (if q % 2 = 0 then fxCos r else fxSin r), 0)
        | _ =>
            if 6 ≤ (man.log2 : Int) + exp then (exFx neg (fxOne - 1), 0)
            else
              let t := 2 * fxOf man exp * fxOne / fxLn2
              -- E = 2^-t, and (1 − E) ÷ (1 + E)
              let n := t / fxOne
              let f := t % fxOne
              let den := fxExp2 f * 2 ^ n
              let e := if den = 0 then 0 else fxOne * fxOne / den
              (exFx neg ((fxOne - e) * fxOne / (fxOne + e)), 0)

/-- |y − x| ≤ b ulp(x), with y an FP32 magnitude and sign against the exact value's enclosure. -/
def withinUlps (b : Nat) (x : Ex) (y : Nat) : Bool :=
  match x, unpackFp fp32 y with
  | .num n m e _, .num n2 m2 e2 _ =>
      let g := max ((m.log2 : Int) + e) (-126) - 23
      let lo := min (min e e2) g
      let d := manAt n m e lo - manAt n2 m2 e2 lo
      decide (d.natAbs ≤ b * 2 ^ (g - lo).toNat)
  | _, _ => false

/-- An absolute error of at most 2^-20. -/
def withinAbs (x : Ex) (y : Nat) : Bool :=
  match x, unpackFp fp32 y with
  | .num n m e _, .num n2 m2 e2 _ =>
      let lo := min (min e e2) (-20)
      let d := manAt n m e lo - manAt n2 m2 e2 lo
      decide (d.natAbs ≤ 2 ^ (-20 - lo).toNat)
  | _, _ => false

/-- The bound of R116 for an input. (log 10, DESIGN CHOICE) -/
def approxOk (fn : Nat) (a x : Ex) (y : Nat) : Bool :=
  match fn, a with
  | 0, _ | 1, _ => withinUlps 1 x y
  | 4, .num _ m e _ | 5, .num _ m e _ =>
      if exLt (.num false 1 16 false) (.num false m e false) then withinAbs x y else withinUlps 2 x y
  | _, _ => withinUlps 2 x y

/-- Whether R116 marks the value exact: the exact result is representable and the table says so. (log 10, DESIGN CHOICE) -/
def approxIsExact (x : Ex) : Bool :=
  match x with
  | .num _ m e st => !st && (finishFp fp32 .rn false 0 (.num false m e false)).flags == 0
  | _ => true

/-- An approximation's result (R116, R117). (log 10, DESIGN CHOICE) -/
def approxRes (fn : Nat) (rm : RM) (rmCode : Nat) (x : Word) : FRes :=
  let a := unpackFp fp32 x.toNat
  let (y, fl) := approxExact fn a
  let r := finishFp fp32 rm false 0 y
  if approxIsExact y then { r with flags := r.flags ||| fl }
  else if r.flags / fOF % 2 = 1 then r
  else
    let c := (Config.approx fn rmCode x).toNat
    if approxOk fn a y c then
      { bits := c, flags := fNX + (if c % 2 ^ 31 < 2 ^ 23 then fUF else 0) }
    else { bits := r.bits, flags := r.flags ||| fNX }

/-! ### Exact sums (R124) -/

/-- A running exact sum of FP32 values: any NaN, any signalling, infinities seen, the finite sum, all zeros negative. -/
structure FSum where
  nan  : Bool
  sig  : Bool
  pinf : Bool
  ninf : Bool
  man  : Int
  exp  : Int
  anyp : Bool
  any  : Bool
  deriving DecidableEq, Repr

def FSum.zero : FSum := { nan := false, sig := false, pinf := false, ninf := false, man := 0, exp := 0, anyp := false, any := false }

/-- Add one value. `anyp` records an operand that is not −0. -/
def FSum.add (a : FSum) (x : Ex) : FSum :=
  match x with
  | .nan s => { a with nan := true, sig := a.sig || s, any := true, anyp := true }
  | .inf n => { a with pinf := a.pinf || !n, ninf := a.ninf || n, any := true, anyp := true }
  | .num n m e _ =>
      let lo := min a.exp e
      { a with man := a.man * 2 ^ (a.exp - lo).toNat + manAt n m e lo, exp := lo, any := true, anyp := a.anyp || !(n && m == 0) }

/-- The sum as an exact value; a zero sum as R90 signs it. -/
def FSum.val (a : FSum) (rm : RM) : Ex :=
  if a.nan then .nan (a.sig || (a.pinf && a.ninf))
  else if a.pinf && a.ninf then .nan true
  else if a.pinf then .inf false
  else if a.ninf then .inf true
  else if a.man = 0 then .num ((a.any && !a.anyp) || (rm == .rd && a.any)) 0 0 false
  else .num (a.man < 0) a.man.natAbs a.exp false

/-- The FP32 sum of two encodings under RN, as FADD gives it (R244, R274). -/
def f32Add (x y : Nat) : Nat := (finishFp fp32 .rn false 0 (exAdd .rn (unpackFp fp32 x) (unpackFp fp32 y))).bits

/-- The BF16 sum of two encodings under RN. -/
def bf16Add (x y : Nat) : Nat := (finishFp fpBf16 .rn false 0 (exAdd .rn (unpackFp fpBf16 x) (unpackFp fpBf16 y))).bits

end Sys2Proof.Machine
end

