-- ==== Sys2Proof/Decode.lean ====
section
/-! DEFINITION. From bits to instructions and back: Zynran parcels, native words and clauses, ILLEGAL causes (02 R28–R58, 03 R62–R75), and the encoder. -/

namespace Sys2Proof

/-- What the decode of a wave's words depends on beside the words: its declaration (R29, R53), level and mode. -/
structure DecEnv where
  vregs  : Nat
  sregs  : Nat
  ztiles : Nat
  sup    : Bool
  c16    : Bool
  inTrap : Bool
  deriving DecidableEq, Repr

/-- The largest declaration, at supervisor level in a handler: the decode that refuses nothing for its wave's sake. -/
def DecEnv.full : DecEnv := { vregs := 192, sregs := 56, ztiles := 128, sup := true, c16 := false, inTrap := true }

/-- The raw fields of one instruction word or half. `form`: 0 Z32, 1 Z64 or Z96, 2 native full word, 3 pair half
(R60). `flag` is the set-flag number, 15 for none, 12 for a reserved choice. `lit` is the literal or control word. -/
structure Raw where
  form : Nat
  half : Nat
  pos  : Nat
  op   : Nat
  d    : Nat
  a    : Nat
  b    : Nat
  c    : Nat
  pred : Nat
  neg  : Bool
  flag : Nat
  wait : Nat
  mods : Nat
  lit  : Option Nat
  deriving DecidableEq, Repr

/-- A raw word with every field zero (R420(a)). -/
def Raw.none (form : Nat) : Raw :=
  { form := form, half := 0, pos := 0, op := 0, d := 0, a := 0, b := 0, c := 0, pred := 0, neg := false, flag := 0,
    wait := 0, mods := 0, lit := .none }

/-- An encoding that is not an instruction, with the raw fields the emulation registers report (R57, R59). -/
structure Bad where
  cause : Nat
  raw   : Raw
  deriving DecidableEq, Repr

-- Cause codes of R57.
def cUNDEFOP : Nat := 0x01
def cRSVMOD : Nat := 0x02
def cRSVLEN : Nat := 0x03
def cRSVOPND : Nat := 0x04
def cREGRANGE : Nat := 0x05
def cNOLIT : Nat := 0x06
def cSTRAYLIT : Nat := 0x07
def cBADCLAUSE : Nat := 0x08
def cBADFLOW : Nat := 0x09
def cPAIRRULE : Nat := 0x0A
def cCTLPOS : Nat := 0x0B
def cFLAGUSE : Nat := 0x0C
def cPREDUSE : Nat := 0x0D

/-! ### Operand roles -/

/-- What an opcode makes of an operand field. Runs have a count and an alignment (R29). -/
inductive Role where
  /-- No role: holds 249 (R75). -/
  | blank
  /-- An immediate or source code byte, read as its own value (R37, R74). -/
  | imm
  /-- A source operand of R28, or a run of them. -/
  | src (cnt al : Nat)
  /-- A destination of R28, or a run. -/
  | dst (cnt al : Nat)
  /-- Registers only, of either kind; `z` admits ZERO. -/
  | reg (cnt al : Nat) (z : Bool)
  /-- V registers only; `z` admits 249 for "none". -/
  | vreg (cnt al : Nat) (z : Bool)
  /-- S registers only; `z` admits ZERO or 249. -/
  | sreg (cnt al : Nat) (z : Bool)
  /-- An S register or the literal; `z` admits ZERO, `o` ONES (R180, R305). -/
  | uni (z o : Bool)
  /-- "S only or literal" of R235: no V register, LANEID or EM. -/
  | sonly
  /-- A displacement: a register, the literal or ZERO (R73, R235). -/
  | disp
  /-- The literal alone (branch displacements). -/
  | lit
  /-- A predicate destination and a predicate source (R31). -/
  | pdst
  | psrc
  /-- A tile number (R128). -/
  | tile
  /-- An operand handle 0–15 (R140). -/
  | handle
  deriving DecidableEq, Repr

/-- Range causes of a V register run. -/
def vRange (e : DecEnv) (cnt al n : Nat) : List Nat := if n % al == 0 && n + cnt ≤ e.vregs then [] else [cREGRANGE]
/-- Range causes of an S register run. -/
def sRange (e : DecEnv) (cnt al n : Nat) : List Nat := if n % al == 0 && n + cnt ≤ e.sregs then [] else [cREGRANGE]

/-- Causes of a literal in a field that may hold it. (log 19, DEDUCED) -/
def litCause (lit : Option Nat) : List Nat := match lit with | .none => [cNOLIT] | some _ => []

/-- The causes that one operand field raises in its role. (log 19, DEDUCED) -/
def Role.causes (e : DecEnv) (lit : Option Nat) (r : Role) (x : Nat) : List Nat :=
  match r with
  | .blank => if x == 249 then [] else [cRSVOPND]
  | .imm => []
  | .src cnt al =>
      if x < 192 then vRange e cnt al x
      else if x < 248 then sRange e cnt al (x - 192)
      else if x == 248 then litCause lit
      else if x ≤ 253 then [] else [cRSVOPND]
  | .dst cnt al =>
      if x < 192 then vRange e cnt al x
      else if x < 248 then sRange e cnt al (x - 192)
      else if x == 249 then [] else [cRSVOPND]
  | .reg cnt al z =>
      if x < 192 then vRange e cnt al x
      else if x < 248 then sRange e cnt al (x - 192)
      else if z && x == 249 then [] else [cRSVOPND]
  | .vreg cnt al z =>
      if x < 192 then vRange e cnt al x else if z && x == 249 then [] else [cRSVOPND]
  | .sreg cnt al z =>
      if 192 ≤ x && x < 248 then sRange e cnt al (x - 192) else if z && x == 249 then [] else [cRSVOPND]
  | .uni z o =>
      if 192 ≤ x && x < 248 then sRange e 1 1 (x - 192)
      else if x == 248 then litCause lit
      else if (z && x == 249) || (o && x == 253) then [] else [cRSVOPND]
  | .sonly =>
      if 192 ≤ x && x < 248 then sRange e 1 1 (x - 192)
      else if x == 248 then litCause lit
      else if x == 249 || x == 251 || x == 253 then [] else [cRSVOPND]
  | .disp =>
      if x < 192 then vRange e 1 1 x
      else if x < 248 then sRange e 1 1 (x - 192)
      else if x == 248 then litCause lit
      else if x == 249 then [] else [cRSVOPND]
  | .lit => if x == 248 then litCause lit else [cRSVOPND]
  | .pdst => if x < 15 then [] else [cRSVOPND]
  | .psrc => if x < 16 then [] else [cRSVOPND]
  | .tile => if x < e.ztiles then [] else [cREGRANGE]
  | .handle => if x < 16 then [] else [cRSVOPND]

/-- Whether a role decodes its field as a register operand, so that 248 there names the literal (R37). -/
def Role.isOperand : Role → Bool
  | .blank | .imm | .pdst | .psrc | .tile | .handle => false
  | _ => true

/-! ### What an opcode is -/

/-- The reading of one word: the roles of its fields, its marks (R62), whether its modifiers are accepted, the
registers an S destination forbids as sources (R104), further causes, and the instruction it stands for. -/
structure Row where
  d     : Role
  a     : Role
  b     : Role
  c     : Role
  e     : Role := .imm
  ok    : Bool
  long  : Bool := false
  plain : Bool := false
  eng   : Bool := false
  /-- 0: no R104 rule; 1: an S destination takes predicate 15 and uniform sources; 2: predicate 15 only. -/
  uni   : Nat := 0
  ctl   : Bool := false
  more  : List Nat := []
  ins   : Instr

/-- A source operand from its code (R28). -/
def srcOf (lit : Option Nat) (x : Nat) : Src :=
  if x < 192 then .v x else if x < 248 then .s (x - 192) else if x == 248 then .lit (BitVec.ofNat 32 (lit.getD 0))
  else if x == 250 then .laneid else if x == 251 then .wavew else if x == 252 then .em else if x == 253 then .ones
  else .zero

/-- A destination from its code. -/
def dstOf (x : Nat) : Dst := if x < 192 then .v x else if x < 248 then .s (x - 192) else .zero

/-- A register from its code. -/
def regOf (x : Nat) : Reg := if x < 192 then .v x else .s (x - 192)

/-- A V register or none. -/
def vOpt (x : Nat) : Option Nat := if x < 192 then some x else .none

/-- An S register or none. -/
def sOpt (x : Nat) : Option Nat := if 192 ≤ x && x < 248 then some (x - 192) else .none

/-- The type a TYPE code names (R71), with the natural type for code 0. -/
def tyOf (nat : Ty) (x : Nat) : Option Ty :=
  match x with
  | 0 => some nat | 1 => some .i32 | 2 => some .n32 | 3 => some .b32 | 4 => some .f32 | 5 => some .i64 | 6 => some .n64
  | 7 => some .b64 | 8 => some .i16x2 | 9 => some .n16x2 | 10 => some .f16x2 | 11 => some .bf16x2 | 12 => some .f16
  | 13 => some .bf16 | _ => .none

/-- The TYPE code of a type that is not the natural one (R71). -/
def Ty.code : Ty → Nat
  | .i32 => 1 | .n32 => 2 | .b32 => 3 | .f32 => 4 | .i64 => 5 | .n64 => 6 | .b64 => 7 | .i16x2 => 8 | .n16x2 => 9
  | .f16x2 => 10 | .bf16x2 => 11 | .f16 => 12 | .bf16 => 13

/-- A rounding mode from its code; codes 6 and 7 are reserved (R70, R89). -/
def rmOf (x : Nat) : RM := match x with | 1 => .rz | 2 => .rd | 3 => .ru | 4 => .ra | 5 => .sr | _ => .rn

def RM.code : RM → Nat
  | .rn => 0 | .rz => 1 | .rd => 2 | .ru => 3 | .ra => 4 | .sr => 5

/-- An element format from its code (R82). -/
def fmtOf (x : Nat) : Fmt :=
  match x with
  | 0 => .fp32 | 1 => .bf16 | 2 => .fp16 | 3 => .e4m3 | 4 => .e5m2 | 5 => .e3m2 | 6 => .e2m3 | 7 => .e2m1 | 8 => .i8
  | 9 => .n8 | 10 => .i4 | _ => .t2

def Fmt.code : Fmt → Nat
  | .fp32 => 0 | .bf16 => 1 | .fp16 => 2 | .e4m3 => 3 | .e5m2 => 4 | .e3m2 => 5 | .e2m3 => 6 | .e2m1 => 7 | .i8 => 8
  | .n8 => 9 | .i4 => 10 | .t2 => 11

/-- A relation from its code (R72). -/
def condOf (x : Nat) : Cond :=
  match x with
  | 0 => .eq | 1 => .ne | 2 => .lt | 3 => .le | 4 => .gt | 5 => .ge | 8 => .equ | 9 => .neu | 10 => .ltu | 11 => .leu
  | 12 => .gtu | 13 => .geu | 14 => .num | _ => .nan

def Cond.code : Cond → Nat
  | .eq => 0 | .ne => 1 | .lt => 2 | .le => 3 | .gt => 4 | .ge => 5 | .equ => 8 | .neu => 9 | .ltu => 10 | .leu => 11
  | .gtu => 12 | .geu => 13 | .num => 14 | .nan => 15

/-- A memory size from its code (R73). -/
def msizeOf (x : Nat) : MSize :=
  match x with | 0 => .n8 | 1 => .i8 | 2 => .n16 | 3 => .i16 | 4 => .b32 | 5 => .b64 | _ => .b128

def MSize.code : MSize → Nat
  | .n8 => 0 | .i8 => 1 | .n16 => 2 | .i16 => 3 | .b32 => 4 | .b64 => 5 | .b128 => 6

/-- Registers an access of a size moves (R73). -/
def MSize.regs : MSize → Nat
  | .b64 => 2 | .b128 => 4 | _ => 1

/-- Bytes of an access. -/
def MSize.bytes : MSize → Nat
  | .n8 | .i8 => 1 | .n16 | .i16 => 2 | .b32 => 4 | .b64 => 8 | .b128 => 16

def scopeOf (x : Nat) : Scope :=
  match x with | 0 => .wave | 1 => .team | 2 => .cluster | 3 => .device | _ => .system

def Scope.code : Scope → Nat
  | .wave => 0 | .team => 1 | .cluster => 2 | .device => 3 | .system => 4

def aopOf (x : Nat) : AOp :=
  match x with
  | 0 => .add | 1 => .sub | 2 => .minI | 3 => .maxI | 4 => .minN | 5 => .maxN | 6 => .and | 7 => .or | 8 => .xor
  | 9 => .xchg | 10 => .inc | _ => .dec

def AOp.code : AOp → Nat
  | .add => 0 | .sub => 1 | .minI => 2 | .maxI => 3 | .minN => 4 | .maxN => 5 | .and => 6 | .or => 7 | .xor => 8
  | .xchg => 9 | .inc => 10 | .dec => 11

/-- The size field of a short form (R35). -/
def szOf (x : Nat) : Sz := match x with | 1 => .w64 | 2 => .p16 | _ => .w32

def Sz.code : Sz → Nat
  | .w32 => 0 | .w64 => 1 | .p16 => 2

/-- The control fields of a full form. -/
def Raw.ctl (r : Raw) : Ctl :=
  { pred := r.pred, neg := r.neg, setf := if r.flag < 12 then some r.flag else .none, wait := if r.form == 2 then 0 else BitVec.ofNat 12 r.wait }

def Raw.srcA (r : Raw) : Src := srcOf r.lit r.a
def Raw.srcB (r : Raw) : Src := srcOf r.lit r.b
def Raw.srcC (r : Raw) : Src := srcOf r.lit r.c

/-- MODX: the modifier byte of a c:R or c:P opcode in native code (R69). -/
def Raw.modx (r : Raw) : Nat := if r.form == 2 then r.mods % 256 else 0

/-! ### Layouts of the modifier byte (R70) -/

/-- Whether layout A's byte is accepted: type, SAT and RM. -/
def layA (m : Nat) (nat : Ty) (tys : List Ty) (sat : Bool) (rmMax : Nat) : Bool :=
  (match tyOf nat (m % 16) with | .none => false | some t => tys.contains t) && bitsOf m 4 3 ≤ rmMax && (sat || !bitOf m 7)

def layTy (m : Nat) (nat : Ty) : Ty := (tyOf nat (m % 16)).getD nat
def layRm (m : Nat) : RM := rmOf (bitsOf m 4 3)
def laySat (m : Nat) : Bool := bitOf m 7

/-- Count and alignment of an operand of a type: a pair is even (R29). -/
def Ty.w (t : Ty) : Nat := if t.wide then 2 else 1

/-- Rows of one source. -/
def rowUn (mk : Un → Instr) (nat : Ty) (tys : List Ty) (sat : Bool) (rmMax : Nat) (r : Raw) : Row :=
  let t := layTy r.c nat
  { d := .dst t.w t.w, a := .src t.w t.w, b := .blank, c := .imm, ok := layA r.c nat tys sat rmMax, uni := 1,
    ins := mk { ctl := r.ctl, d := dstOf r.d, a := r.srcA, ty := t, rm := layRm r.c, sat := laySat r.c } }

/-- Rows of two sources; `bw` is b's own width where it is not the type's. -/
def rowBin (mk : Bin → Instr) (nat : Ty) (tys : List Ty) (sat : Bool) (rmMax : Nat) (narrowB : Bool) (r : Raw) : Row :=
  let t := layTy r.c nat
  let bw := if narrowB then 1 else t.w
  { d := .dst t.w t.w, a := .src t.w t.w, b := .src bw bw, c := .imm, ok := layA r.c nat tys sat rmMax, uni := 1,
    ins := mk { ctl := r.ctl, d := dstOf r.d, a := r.srcA, b := r.srcB, ty := t, rm := layRm r.c, sat := laySat r.c } }

/-- Rows of three sources, whose byte is MODX. -/
def rowTri (mk : Tri → Instr) (nat : Ty) (tys : List Ty) (sat : Bool) (rmMax : Nat) (pairD : Bool) (r : Raw) : Row :=
  let m := r.modx
  let t := layTy m nat
  let dw := if pairD then 2 else t.w
  { d := .dst dw dw, a := .src t.w t.w, b := .src t.w t.w, c := .src t.w t.w, ok := layA m nat tys sat rmMax, uni := 1,
    ins := mk { ctl := r.ctl, d := dstOf r.d, a := r.srcA, b := r.srcB, c := r.srcC, ty := t, rm := layRm m, sat := laySat m } }

/-- Compares (layout K). -/
def rowCmp (mk : Cmp → Instr) (nat : Ty) (tys : List Ty) (conds : List Nat) (r : Raw) : Row :=
  let t := layTy r.c nat
  { d := .pdst, a := .src t.w t.w, b := .src t.w t.w, c := .imm,
    ok := layA (r.c % 16) nat tys false 0 && conds.contains (r.c / 16),
    ins := mk { ctl := r.ctl, d := r.d, a := r.srcA, b := r.srcB, ty := t, cond := condOf (r.c / 16) } }

/-- Address instructions (R111), with the widths of their operands. (log 20, DEDUCED) -/
def rowAddr (mk : Bin → Instr) (dw aw : Nat) (bw : Ty → Nat) (tys : List Ty) (r : Raw) : Row :=
  let t := layTy r.c .i32
  { d := .dst dw dw, a := .src aw aw, b := .src (bw t) (bw t), c := .imm, uni := 1,
    ok := layA r.c .i32 tys false 0 && (tys.length > 1 || r.c % 16 == 0),
    ins := mk { ctl := r.ctl, d := dstOf r.d, a := r.srcA, b := r.srcB, ty := t, rm := .rn, sat := false } }

def rowAddr1 (mk : Un → Instr) (dw : Nat) (r : Raw) : Row :=
  { d := .dst dw dw, a := .src 2 2, b := .blank, c := .imm, uni := 1, ok := r.c == 0,
    ins := mk { ctl := r.ctl, d := dstOf r.d, a := r.srcA, ty := .i32, rm := .rn, sat := false } }

/-- F2I and I2F (R118). -/
def rowCvtT (mk : CvtT → Instr) (dn sn : Ty) (dsts srcs : List Ty) (sat : Bool) (r : Raw) : Row :=
  let t := layTy r.c dn
  let u := layTy r.b sn
  { d := .dst t.w t.w, a := .src u.w u.w, b := .imm, c := .imm, uni := 1,
    ok := layA r.c dn dsts sat 5 && r.b < 16 && layA r.b sn srcs false 0,
    ins := mk { ctl := r.ctl, d := dstOf r.d, a := r.srcA, dst := t, src := u, rm := layRm r.c, sat := laySat r.c } }

/-- Roles of a packed source and of the unpacked run (R120). -/
def packedSrc (f : Fmt) : Role := if f.packed == 1 then .src 1 1 else .reg 3 4 false

def rowFcvt (r : Raw) : Row :=
  { d := .dst 1 1, a := .src 1 1, b := .imm, c := .imm, uni := 1, ok := r.c % 16 < 12 && r.b < 12 && bitsOf r.c 4 3 ≤ 5,
    ins := .fcvt { ctl := r.ctl, d := dstOf r.d, a := r.srcA, dst := fmtOf (r.c % 16), src := fmtOf r.b,
                   rm := layRm r.c, sat := laySat r.c } }

def rowFupk (r : Raw) : Row :=
  let f := fmtOf r.b
  { d := .dst f.count f.count, a := packedSrc f, b := .imm, c := .imm, uni := 1,
    ok := 1 ≤ r.b && r.b < 12 && (r.c % 16 == 0 || r.c % 16 == r.b) && r.c / 16 == 0,
    ins := .fupk { ctl := r.ctl, d := dstOf r.d, a := r.srcA, dst := fmtOf (r.c % 16), src := f, rm := .rn, sat := false } }

def rowFpk (r : Raw) : Row :=
  let f := fmtOf (r.c % 16)
  { d := .dst f.packed f.packedAlign, a := .reg f.count f.count false, b := .blank, c := .imm, uni := 1,
    ok := 1 ≤ r.c % 16 && r.c % 16 < 12 && bitsOf r.c 4 3 ≤ 5,
    ins := .fpk { ctl := r.ctl, d := dstOf r.d, a := r.srcA, b := .zero, fmt := f, rm := layRm r.c, sat := laySat r.c } }

def rowQnt (mk : CvtP → Instr) (r : Raw) : Row :=
  { d := .dst 1 1, a := .src 1 1, b := .src 1 1, c := .imm, uni := 1,
    ok := 1 ≤ r.c % 16 && r.c % 16 < 12 && bitsOf r.c 4 3 ≤ 5,
    ins := mk { ctl := r.ctl, d := dstOf r.d, a := r.srcA, b := r.srcB, fmt := fmtOf (r.c % 16), rm := layRm r.c,
                sat := laySat r.c } }

/-! ### Cross-lane (R122–R126) -/

def shflOf (x : Nat) : ShflSub := match x with | 0 => .idx | 1 => .up | 2 => .down | _ => .xor
def ShflSub.code : ShflSub → Nat | .idx => 0 | .up => 1 | .down => 2 | .xor => 3
def redOf (x : Nat) : RedOp := match x with | 0 => .add | 1 => .min | 2 => .max | 3 => .and | 4 => .or | _ => .xor
def RedOp.code : RedOp → Nat | .add => 0 | .min => 1 | .max => 2 | .and => 3 | .or => 4 | .xor => 5
def voteOf (x : Nat) : VoteSub := match x with | 0 => .all | 1 => .any | _ => .eq
def VoteSub.code : VoteSub → Nat | .all => 0 | .any => 1 | .eq => 2

def rowShfl (r : Raw) : Row :=
  let w := if 4 < r.c % 16 then 2 else 1
  { d := .dst w w, a := .src w w, b := .src 1 1, c := .imm, uni := 1, ok := r.c / 16 < 4 && [0, 1, 2, 3, 5, 6, 7].contains (r.c % 16),
    ins := .shfl { ctl := r.ctl, d := dstOf r.d, a := r.srcA, b := r.srcB, sub := shflOf (r.c / 16), w64 := 4 < r.c % 16 } }

/-- VRED and VSCAN: the natural type is I32 (R71); the bitwise operations take B32 alone. -/
def rowRed (scan : Bool) (e : DecEnv) (mk : Red → Instr) (r : Raw) : Row :=
  let op := redOf (bitsOf r.c 4 3)
  let bitwise := 3 ≤ bitsOf r.c 4 3
  let t := if bitwise then .b32 else layTy r.c .i32
  let sd := 192 ≤ r.d && r.d < 248
  { d := .dst t.w t.w, a := .src t.w t.w, b := .blank, c := .imm, uni := 2,
    ok := bitsOf r.c 4 3 < 6 && (scan || !bitOf r.c 7) &&
      (if bitwise then r.c % 16 == 3 else layA (r.c % 16) .i32 [.i32, .n32, .i64, .n64, .f32] false 0),
    more := if sd && (scan || e.c16) then [cRSVOPND] else [],
    ins := mk { ctl := r.ctl, d := dstOf r.d, a := r.srcA, op := op, exc := bitOf r.c 7, ty := t } }

def rowMatch (r : Raw) : Row :=
  let w := if r.c % 16 == 7 then 2 else 1
  { d := .dst 1 1, a := .src w w, b := .blank, c := .imm, ok := r.c / 16 < 2 && [0, 3, 7].contains (r.c % 16),
    more := if 192 ≤ r.d && r.d < 248 then [cRSVOPND] else [],
    ins := .matchOp { ctl := r.ctl, d := dstOf r.d, a := r.srcA, all := bitOf r.c 4, w64 := r.c % 16 == 7 } }

/-! ### Control (R180) -/

/-- The 20-bit displacements of a branch literal (R178). (log 20, DEDUCED) -/
def tgtOf (r : Raw) : Disp := BitVec.ofNat 20 ((r.c % 16) * 2 ^ 16 + (r.lit.getD 0) % 2 ^ 16)
def rcOf (r : Raw) : Disp := BitVec.ofNat 20 ((r.c / 16) * 2 ^ 16 + bitsOf (r.lit.getD 0) 16 16)

/-- Whether the unused reconvergence or target fields are zero (R178); without operand 248 there is no literal to hold one. -/
def rcZero (r : Raw) : Bool := r.c / 16 == 0 && (r.b != 248 || bitsOf (r.lit.getD 0) 16 16 == 0)
def tgtZero (r : Raw) : Bool := r.c % 16 == 0 && (r.b != 248 || (r.lit.getD 0) % 2 ^ 16 == 0)

/-- A control row without operands. (log 20, DEDUCED) -/
def rowBare (mk : Ctl → Instr) (plain ctl : Bool) (r : Raw) : Row :=
  { d := .blank, a := .blank, b := .blank, c := .imm, ok := r.c == 0, plain := plain, ctl := ctl, ins := mk r.ctl }

/-- Access of a level to a special register (R203, R301, R374, R387): 0 none, 1 read-only, 2 read and write. -/
def sysAccess (sup : Bool) (addr : Nat) : Nat :=
  let svOnly := if sup then 2 else 0
  let svRo := if sup then 1 else 0
  if !sysAddrs.contains addr then 0
  else if 0x010 ≤ addr && addr ≤ 0x014 then 2
  else if addr == 0x022 then 2
  else if addr == 0x023 || addr == 0x025 || addr == 0x050 then (if sup then 2 else 1)
  else if addr == 0x026 || addr == 0x027 then 2
  else if addr == 0x040 || addr == 0x041 || addr == 0x051 then svOnly
  else if 0x100 ≤ addr && addr ≤ 0x109 then svOnly
  else if 0x210 ≤ addr && addr ≤ 0x214 then svOnly
  else if addr == 0x215 then svRo
  else if addr == 0x220 then svOnly
  else if 0x221 ≤ addr && addr ≤ 0x224 then svRo
  else if 0x228 ≤ addr && addr ≤ 0x22F then svOnly
  else if addr == 0x300 || addr == 0x310 || addr == 0x311 then svOnly
  else if addr == 0x304 || addr == 0x305 || (0x308 ≤ addr && addr ≤ 0x30B) then svRo
  else 1

/-- The address and W64 of SYSR and SYSW. -/
def sysAddrOf (r : Raw) : Nat := (r.b % 16) * 256 + r.c
def sysW64 (r : Raw) : Bool := bitOf r.b 4

/-- The causes of a special-register access (R202). -/
def sysCauses (e : DecEnv) (r : Raw) : List Nat :=
  if (sysCovers (sysAddrOf r) (sysW64 r)).all (fun x => sysAccess e.sup x != 0) then [] else [cRSVOPND]

/-- (log 20, DEDUCED) -/
def rowSysr (e : DecEnv) (r : Raw) : Row :=
  let w := if sysW64 r then 2 else 1
  let cov := sysCovers (sysAddrOf r) (sysW64 r)
  let v := r.d < 192
  { d := .dst w w, a := .blank, b := .imm, c := .imm, ok := r.b / 32 == 0, plain := !v,
    more := sysCauses e r ++ (if !v && cov.any sysPerLane then [cRSVOPND] else []) ++
      (if e.c16 && 192 ≤ r.d && r.d < 248 && cov.contains 0x002 then [cRSVOPND] else []),
    ins := .sysr { ctl := r.ctl, d := dstOf r.d, addr := sysAddrOf r, w64 := sysW64 r } }

def rowSysw (e : DecEnv) (r : Raw) : Row :=
  let o : Sysw := { ctl := r.ctl, addr := sysAddrOf r, w64 := sysW64 r, a := r.srcA }
  { d := .blank, a := .uni true true, b := .imm, c := .imm, ok := r.b / 32 == 0, plain := true,
    more := sysCauses e r ++
      (if o.w64 && !o.a.ok true then [cREGRANGE] else []) ++
      (match o.a with | .s n => if o.w64 && e.sregs < n + 2 then [cREGRANGE] else [] | _ => []),
    ins := if Sysw.hitsLtime o.addr o.w64 then .ltimeWrite o
           else if Sysw.hitsFdpend o.addr o.w64 then .fdpendClear o else .sysw o }

/-! ### Engine commands (R38, R140, R280) -/

/-- The engine control word's fields. -/
def ecwGuard (w : Nat) : Guard := if bitOf w 31 then some (bitsOf w 28 3) else .none
def ecwE (w : Nat) : Nat := bitsOf w 20 8
def ecwMod (w : Nat) : Nat := w % 2 ^ 20
/-- GV 0 with a non-zero GSLOT is illegal. -/
def ecwGuardOk (w : Nat) : Bool := bitOf w 31 || bitsOf w 28 3 == 0

def rowMma (mk : MmaOp → Instr) (e : DecEnv) (sparse tern : Bool) (r : Raw) : Row :=
  let w := r.lit.getD 0
  let m := ecwMod w
  let h := bitOf m 0
  let scl := bitsOf m 2 8
  { d := .tile, a := .vreg 1 1 false, b := if h then .handle else .vreg 1 1 false, c := .vreg 1 1 false,
    e := if sparse then .vreg 1 1 false else .blank,
    ok := ecwGuardOk w && m / 2 ^ 10 == 0 && (!tern || scl == 249), long := true, plain := true, eng := true,
    more := Role.causes e r.lit (.vreg 1 1 true) scl,
    ins := mk { ctl := r.ctl, guard := ecwGuard w, d := r.d, a := r.a, b := if h then .handle r.b else .regs r.b, c := r.c,
                md := vOpt (ecwE w), acc := bitOf m 1, scl := vOpt scl } }

def rowZmem (mk : ZmemOp → Instr) (r : Raw) : Row :=
  let w := r.lit.getD 0
  let m := ecwMod w
  { d := .tile, a := .sreg 1 1 false, b := .blank, c := .blank, e := .blank,
    ok := ecwGuardOk w && 16 ≤ m && m ≤ 8191, long := true, plain := true, eng := true,
    ins := mk { ctl := r.ctl, guard := ecwGuard w, d := r.d, a := r.a - 192, stride := m } }

def rowZclr (r : Raw) : Row :=
  let w := r.lit.getD 0
  { d := .tile, a := .blank, b := .blank, c := .blank, e := .blank, ok := ecwGuardOk w && ecwMod w == 0,
    long := true, plain := true, eng := true, ins := .zclr { ctl := r.ctl, guard := ecwGuard w, d := r.d } }

def rowZmov (r : Raw) : Row :=
  let w := r.lit.getD 0
  { d := .vreg 16 16 false, a := .tile, b := .blank, c := .blank, e := .blank, ok := ecwGuardOk w && ecwMod w < 8,
    long := true, plain := true, eng := true,
    ins := .zmov { ctl := r.ctl, guard := ecwGuard w, d := r.d, a := r.a, blk := ecwMod w } }

def rowZadd (r : Raw) : Row :=
  let w := r.lit.getD 0
  { d := .tile, a := .tile, b := .blank, c := .vreg 1 1 false, e := .blank, ok := ecwGuardOk w && ecwMod w == 0,
    long := true, plain := true, eng := true,
    ins := .zadd { ctl := r.ctl, guard := ecwGuard w, d := r.d, a := r.a, c := r.c } }

def rowEpi (r : Raw) : Row :=
  let w := r.lit.getD 0
  { d := .tile, a := .sreg 2 2 false, b := .vreg 1 1 true, c := .sreg 1 1 true, e := .blank,
    ok := ecwGuardOk w && ecwMod w < 8, long := true, plain := true, eng := true,
    ins := .epi { ctl := r.ctl, guard := ecwGuard w, d := r.d, a := r.a - 192, b := vOpt r.b, c := sOpt r.c, blk := ecwMod w } }

/-- EMOD bits a copy command defines: DIR in `dirBits`, NW in [2], TAG in [19:4]. -/
def copyMod (m dirBits : Nat) : Bool := bitsOf m dirBits (2 - dirBits) == 0 && !bitOf m 3

/-- (log 20, DEDUCED) -/
def rowCopy (r : Raw) : Row :=
  let w := r.lit.getD 0
  let m := ecwMod w
  { d := .blank, a := .reg 2 2 true, b := .reg 1 1 true, c := .reg 1 1 true, e := .blank,
    ok := ecwGuardOk w && copyMod m 1, long := true, eng := true,
    ins := .btcopy { ctl := r.ctl, guard := ecwGuard w, a := r.srcA, b := r.srcB, c := r.srcC, st := bitOf m 0,
                     nw := bitOf m 2, tag := BitVec.ofNat 16 (m / 16) } }

/-- (log 20, DEDUCED) -/
def rowLin (r : Raw) : Row :=
  let w := r.lit.getD 0
  let m := ecwMod w
  let dir := m % 4
  let srcS := dir / 2 == 1
  let dstS := dir % 2 == 1
  let side (s : Bool) : Role := if s then .reg 1 1 true else .reg 2 2 true
  { d := .blank, a := side srcS, b := side dstS, c := .reg 1 1 true, e := .blank, ok := ecwGuardOk w && copyMod m 2,
    long := true, eng := true,
    ins := .btlin { ctl := r.ctl, guard := ecwGuard w, a := r.srcA, b := r.srcB, c := r.srcC, srcS := srcS, dstS := dstS,
                    nw := bitOf m 2, tag := BitVec.ofNat 16 (m / 16) } }

/-- (log 20, DEDUCED) -/
def rowGath (r : Raw) : Row :=
  let w := r.lit.getD 0
  let m := ecwMod w
  { d := .blank, a := .reg 2 2 true, b := .reg 1 1 true, c := .reg 1 1 true, e := .vreg 1 1 false,
    ok := ecwGuardOk w && copyMod m 1, long := true, eng := true,
    ins := .btgath { ctl := r.ctl, guard := ecwGuard w, a := r.srcA, b := r.srcB, c := r.srcC, e := ecwE w, st := bitOf m 0,
                     nw := bitOf m 2, tag := BitVec.ofNat 16 (m / 16) } }

/-! ### Memory (R235) -/

def mSub (c : Nat) : Bool := bitOf c 7
def mNw (c : Nat) : Bool := bitOf c 6
def mScope (c : Nat) : Nat := bitsOf c 3 3
def mSize (c : Nat) : Nat := c % 8

/-- Causes of an S destination of a memory instruction: its address and operands must be uniform (R104, R235). -/
def memUni (d : Nat) (xs : List Nat) : List Nat :=
  if 192 ≤ d && d < 248 && xs.any (fun x => x < 192 || x == 250 || x == 252) then [cRSVOPND] else []

/-- (log 20, DEDUCED) -/
def sPred (r : Raw) : Bool := 192 ≤ r.d && r.d < 248

def rowLd (mk : LdOp → Instr) (aw : Nat) (m : Nat) (b : Nat) (r : Raw) : Row :=
  let z := msizeOf (mSize m)
  { d := .dst z.regs z.regs, a := .reg aw aw false, b := .disp, c := .imm,
    ok := !mSub m && !mNw m && mScope m < 5 && mSize m < 7, long := true, plain := sPred r, more := memUni r.d [r.a, b],
    ins := mk { ctl := r.ctl, d := dstOf r.d, a := regOf r.a, b := srcOf r.lit b, size := z, scope := scopeOf (mScope m) } }

def rowSt (mk : StOp → Instr) (aw : Nat) (r : Raw) : Row :=
  let z := msizeOf (mSize r.c)
  { d := .src z.regs z.regs, a := .reg aw aw false, b := .disp, c := .imm,
    ok := !mSub r.c && mScope r.c < 5 && mSize r.c < 7, long := true,
    ins := mk { ctl := r.ctl, d := srcOf r.lit r.d, a := regOf r.a, b := r.srcB, size := z, scope := scopeOf (mScope r.c), nw := mNw r.c } }

/-- ATOM and RED (layout T). -/
def rowAtom (mk : AtomOp → Instr) (w : Nat) (red : Bool) (r : Raw) : Row :=
  let op := r.c % 16
  { d := if red then .blank else .dst w w, a := .reg 2 2 false, b := .src w w, c := .imm,
    ok := bitsOf r.c 4 3 < 5 && op < 12 && (!red || op != 9), long := true, plain := sPred r,
    more := memUni r.d [r.a, r.b],
    ins := mk { ctl := r.ctl, d := dstOf r.d, a := regOf r.a, b := r.srcB, op := aopOf op, scope := scopeOf (bitsOf r.c 4 3),
                nw := bitOf r.c 7 } }

def rowFatom (r : Raw) : Row :=
  { d := .dst 1 1, a := .reg 2 2 false, b := .src 1 1, c := .imm, ok := bitsOf r.c 4 3 < 5 && r.c % 16 < 2, long := true,
    plain := sPred r, more := memUni r.d [r.a, r.b],
    ins := .fatom { ctl := r.ctl, d := dstOf r.d, a := regOf r.a, b := r.srcB, bf16 := r.c % 16 == 1,
                    scope := scopeOf (bitsOf r.c 4 3), nw := bitOf r.c 7 } }

def rowCas (r : Raw) : Row :=
  let wide := mSize r.c == 5
  let n := if wide then 4 else 2
  let w := if wide then 2 else 1
  { d := .dst w w, a := .reg 2 2 false, b := .reg n n false, c := .imm,
    ok := !mSub r.c && mScope r.c < 5 && (mSize r.c == 4 || wide), long := true, plain := sPred r, more := memUni r.d [r.a, r.b],
    ins := .atomcas { ctl := r.ctl, d := dstOf r.d, a := regOf r.a, b := r.srcB, w64 := wide, scope := scopeOf (mScope r.c),
                      nw := mNw r.c } }

/-- Layout M with only SIZE 4 or 5 (LDQ, STQ, WAITV). -/
def m45 (c : Nat) : Bool := !mSub c && !mNw c && mScope c == 0 && (mSize c == 4 || mSize c == 5)

def rowQueue (r : Raw) (mk : Bool → Src → Instr) : Row :=
  let w := if mSize r.c == 5 then 2 else 1
  { d := .vreg w w false, a := .sonly, b := .blank, c := .imm, ok := m45 r.c, long := true,
    ins := mk (mSize r.c == 5) r.srcA }

def kindOf (x : Nat) : FenceKind := match x with | 0 => .rel | 1 => .acq | 2 => .ar | _ => .sc
def FenceKind.code : FenceKind → Nat | .rel => 0 | .acq => 1 | .ar => 2 | .sc => 3

def accOf (x : Nat) : Acc := match x with | 0 => .r | 1 => .w | 2 => .x | 3 => .a | _ => .c
def Acc.code : Acc → Nat | .r => 0 | .w => 1 | .x => 2 | .a => 3 | .c => 4

def spaceOf (x : Nat) : Space := match x with | 0 => .ent | 1 => .frm | 2 => .bar | 3 => .hdl | _ => .wait
def Space.code : Space → Nat | .ent => 0 | .frm => 1 | .bar => 2 | .hdl => 3 | .wait => 4

def shootOf (x : Nat) : ShootMode := match x with | 0 => .all | 1 => .context | _ => .selector
def ShootMode.code : ShootMode → Nat | .all => 0 | .context => 1 | .selector => 2

/-- A supervisor instruction is no instruction at user level (R300). -/
def supOnly (e : DecEnv) (x : Row) : Option Row := if e.sup then some x else .none

/-! ### The opcode map (R63–R66) -/

/-- Opcodes 0x010–0x06E: the lane instructions. -/
def laneRow (e : DecEnv) (op : Nat) (r : Raw) : Option Row :=
  match op with
  | 0x010 => some (rowBin .iadd .i32 [.i32, .n32, .i64, .n64, .i16x2, .n16x2] true 0 false r)
  | 0x011 => some (rowBin .isub .i32 [.i32, .n32, .i64, .n64, .i16x2, .n16x2] true 0 false r)
  | 0x012 => some (rowTri .iadc .i32 [.i32, .n32] false 0 true r)
  | 0x013 => some (rowBin .imul .i32 [.i32, .n32, .i64, .n64] true 0 false r)
  | 0x014 => some (rowBin .imulh .i32 [.i32, .n32] false 0 false r)
  | 0x015 => some (rowTri .imad .i32 [.i32, .n32, .i64, .n64] true 0 false r)
  | 0x115 => some (rowBin .imadD .i32 [.i32, .n32, .i64, .n64] true 0 false r)
  | 0x016 => some (rowUn .iabs .i32 [.i32, .i64, .i16x2] true 0 r)
  | 0x017 => some (rowUn .ineg .i32 [.i32, .i64, .i16x2] true 0 r)
  | 0x018 => some (rowBin .imin .i32 [.i32, .i64, .i16x2] false 0 false r)
  | 0x019 => some (rowBin .imax .i32 [.i32, .i64, .i16x2] false 0 false r)
  | 0x01A => some (rowBin .nmin .n32 [.n32, .n64, .n16x2] false 0 false r)
  | 0x01B => some (rowBin .nmax .n32 [.n32, .n64, .n16x2] false 0 false r)
  | 0x01C => some (rowBin .andB .b32 [.b32, .b64] false 0 false r)
  | 0x01D => some (rowBin .orB .b32 [.b32, .b64] false 0 false r)
  | 0x01E => some (rowBin .xorB .b32 [.b32, .b64] false 0 false r)
  | 0x01F => some (rowUn .notB .b32 [.b32, .b64] false 0 r)
  | 0x020 => some (rowBin .andn .b32 [.b32, .b64] false 0 false r)
  | 0x021 => some (rowBin .shl .b32 [.b32, .b64] false 0 true r)
  | 0x022 => some (rowBin .shr .b32 [.b32, .b64] false 0 true r)
  | 0x023 => some (rowBin .sar .i32 [.i32, .i64] false 0 true r)
  | 0x024 => some (rowBin .rotl .b32 [.b32] false 0 true r)
  | 0x025 => some (rowBin .bfx .i32 [.i32, .n32] false 0 true r)
  | 0x026 => some (rowTri .bfi .b32 [.b32] false 0 false r)
  | 0x027 => some (rowUn .popc .b32 [.b32] false 0 r)
  | 0x028 => some (rowUn .clz .b32 [.b32] false 0 r)
  | 0x029 => some (rowUn .brev .b32 [.b32] false 0 r)
  | 0x02A => some (rowCmp .icmp .i32 [.i32, .n32, .i64, .n64] [0, 1, 2, 3, 4, 5] r)
  | 0x02B =>
      let t := layTy r.modx .b32
      some { d := .dst t.w t.w, a := .src t.w t.w, b := .src t.w t.w, c := .psrc, uni := 1, ok := layA r.modx .b32 [.b32, .b64] false 0,
             ins := .sel { ctl := r.ctl, d := dstOf r.d, a := r.srcA, b := r.srcB, c := r.c, ty := t } }
  | 0x02C => some (rowUn .mov .b32 [.b32, .b64] false 0 r)
  | 0x02D =>
      let t := layTy r.c .b32
      some { d := .sreg t.w t.w false, a := .src t.w t.w, b := .blank, c := .imm, plain := true, ok := layA r.c .b32 [.b32, .b64] false 0,
             more := if e.c16 then [cRSVOPND] else [],
             ins := .movl { ctl := r.ctl, d := dstOf r.d, a := r.srcA, ty := t, rm := .rn, sat := false } }
  | 0x02E => some (rowTri .prmt .b32 [.b32] false 0 false r)
  | 0x030 => some (rowAddr .sega 2 1 (fun _ => 2) [.i32] r)
  | 0x031 => some (rowAddr .padd 2 2 Ty.w [.i32, .i64] r)
  | 0x032 => some (rowAddr1 .pseg 1 r)
  | 0x033 => some (rowAddr1 .poff 2 r)
  | 0x040 => some (rowBin .fadd .f32 [.f32] true 5 false r)
  | 0x041 => some (rowBin .fsub .f32 [.f32] true 5 false r)
  | 0x042 => some (rowBin .fmul .f32 [.f32] true 5 false r)
  | 0x043 => some (rowTri .ffma .f32 [.f32] true 5 false r)
  | 0x143 => some (rowBin .ffmaD .f32 [.f32] true 5 false r)
  | 0x044 => some (rowBin .fmin .f32 [.f32] false 0 false r)
  | 0x045 => some (rowBin .fmax .f32 [.f32] false 0 false r)
  | 0x046 => some (rowCmp .fcmp .f32 [.f32] [0, 1, 2, 3, 4, 5, 8, 9, 10, 11, 12, 13, 14, 15] r)
  | 0x047 => some { d := .pdst, a := .src 1 1, b := .blank, c := .imm, ok := true,
                    ins := .fclass { ctl := r.ctl, d := r.d, a := r.srcA, mask := BitVec.ofNat 8 r.c } }
  | 0x048 => some (rowBin .fdiv .f32 [.f32] true 5 false r)
  | 0x049 => some (rowUn .fsqrt .f32 [.f32] true 5 r)
  | 0x04A => some (rowUn .frcp .f32 [.f32] false 4 r)
  | 0x04B => some (rowUn .frsq .f32 [.f32] false 4 r)
  | 0x04C => some (rowUn .fexp2 .f32 [.f32] false 4 r)
  | 0x04D => some (rowUn .flog2 .f32 [.f32] false 4 r)
  | 0x04E => some (rowUn .fsin .f32 [.f32] false 4 r)
  | 0x04F => some (rowUn .fcos .f32 [.f32] false 4 r)
  | 0x050 => some (rowUn .ftanh .f32 [.f32] false 4 r)
  | 0x051 => some (rowBin .hadd2 .f16x2 [.f16x2, .bf16x2] true 5 false r)
  | 0x052 => some (rowBin .hmul2 .f16x2 [.f16x2, .bf16x2] true 5 false r)
  | 0x053 => some (rowTri .hfma2 .f16x2 [.f16x2, .bf16x2] true 5 false r)
  | 0x153 => some (rowBin .hfma2D .f16x2 [.f16x2, .bf16x2] true 5 false r)
  | 0x058 => some (rowCvtT .f2i .i32 .f32 [.i32, .n32, .i64, .n64] [.f32, .f16, .bf16] false r)
  | 0x059 => some (rowCvtT .i2f .f32 .i32 [.f32, .f16, .bf16] [.i32, .n32, .i64, .n64] true r)
  | 0x05A => some (rowFcvt r)
  | 0x05B => some (rowFpk r)
  | 0x05C => some (rowFupk r)
  | 0x05D => some (rowQnt .qnt r)
  | 0x05E => some (rowQnt .dqnt r)
  | 0x060 => some { d := .pdst, a := .psrc, b := .psrc, c := .imm, ok := r.c / 16 == 0,
                    ins := .plop { ctl := r.ctl, d := r.d, a := r.a, b := r.b, lut := BitVec.ofNat 4 r.c } }
  | 0x068 => some (rowShfl r)
  | 0x069 => some (rowRed false e .vred r)
  | 0x06A => some (rowRed true e .vscan r)
  | 0x06B => some { d := .pdst, a := .psrc, b := .blank, c := .imm, ok := r.c / 16 < 3 && r.c % 16 == 0,
                    ins := .vote { ctl := r.ctl, d := r.d, a := r.a, sub := voteOf (r.c / 16) } }
  | 0x06C => some { d := .dst 1 1, a := .psrc, b := .blank, c := .imm, ok := r.c == 0, uni := 2,
                    more := if e.c16 && 192 ≤ r.d && r.d < 248 then [cRSVOPND] else [],
                    ins := .ballot { ctl := r.ctl, d := dstOf r.d, a := r.a } }
  | 0x06D => some { d := .pdst, a := .blank, b := .blank, c := .imm, ok := r.c == 0, ins := .elect r.ctl r.d }
  | 0x06E => some (rowMatch r)
  | _ => .none

/-- Opcodes 0x080–0x097 (R180). (log 20, DEDUCED) -/
def controlRow (e : DecEnv) (op : Nat) (r : Raw) : Option Row :=
  match op with
  | 0x080 => some { d := .blank, a := .blank, b := .lit, c := .imm, ok := true, ctl := true,
                    ins := .bra { ctl := r.ctl, tgt := tgtOf r, rc := rcOf r } }
  | 0x081 =>
      if r.b == 248 then
        some { d := .blank, a := .blank, b := .lit, c := .imm, ok := rcZero r, ctl := true, ins := .brau { ctl := r.ctl, tgt := tgtOf r } }
      else
        some { d := .blank, a := .reg 2 2 false, b := .blank, c := .imm, ok := r.c == 0, ctl := true,
               ins := .brauReg { ctl := r.ctl, a := regOf r.a } }
  | 0x082 => some { d := .blank, a := .reg 2 2 false, b := .lit, c := .imm, ok := tgtZero r, ctl := true,
                    ins := .brx { ctl := r.ctl, a := regOf r.a, rc := rcOf r } }
  | 0x083 => some { d := .vreg 2 2 false, a := .blank, b := .lit, c := .imm, ok := rcZero r, ctl := true,
                    ins := .call { ctl := r.ctl, d := r.d, tgt := tgtOf r } }
  | 0x084 => some { d := .vreg 2 2 false, a := .reg 2 2 false, b := .blank, c := .imm, ok := r.c == 0, ctl := true,
                    ins := .callx { ctl := r.ctl, d := r.d, a := regOf r.a } }
  | 0x085 => some { d := .blank, a := .reg 2 2 false, b := .blank, c := .imm, ok := r.c == 0, plain := true, ctl := true,
                    ins := .ret { ctl := r.ctl, a := regOf r.a } }
  | 0x086 => some (rowBare .exit false true r)
  | 0x087 => some (rowBare .endOp true true r)
  | 0x088 => some { d := .sreg 1 1 false, a := .blank, b := .blank, c := .imm, ok := r.c < 2, plain := true,
                    more := if e.c16 then [cRSVOPND] else [], ins := .emrd r.ctl (r.d - 192) (r.c == 1) }
  | 0x089 => some { d := .blank, a := .uni true true, b := .blank, c := .imm, ok := r.c < 3, plain := true,
                    ins := .emwr r.ctl r.srcA (match r.c with | 0 => .set | 1 => .and | _ => .or) }
  | 0x08A => some { d := .blank, a := .uni true true, b := .blank, c := .imm, ok := r.c < 64, plain := true,
                    ins := .waitf r.ctl r.srcA r.c }
  | 0x08B => some { d := .blank, a := .blank, b := .blank, c := .imm, ok := r.c < 16, plain := true, ins := .bar r.ctl r.c }
  | 0x08C => some { d := .blank, a := .blank, b := .blank, c := .imm, ok := r.c < 16, plain := true, ins := .bara r.ctl r.c }
  | 0x08D => some { d := .blank, a := .blank, b := .blank, c := .imm, ok := r.c < 16, plain := true, ins := .barw r.ctl r.c }
  | 0x08E => some (rowBare .yield true false r)
  | 0x08F => some { d := .blank, a := .uni true true, b := .blank, c := .imm, ok := r.c == 0, plain := true, ins := .sleep r.ctl r.srcA }
  | 0x090 => some (rowBare .nop true false r)
  | 0x091 => supOnly e { d := .sreg 1 1 true, a := .sreg 2 2 false, b := .blank, c := .imm, ok := r.c == 0, plain := true, long := true,
                         ins := .launch { ctl := r.ctl, d := dstOf r.d, a := r.a - 192 } }
  | 0x092 =>
      let v := bitsOf r.c 3 2
      some { d := .blank, a := if v == 3 then .uni true true else .blank, b := .blank, c := .imm, ok := r.c < 32, plain := true,
             ins := .gset r.ctl (r.c % 8) (match v with | 0 => .unresolved | 1 => .true | 2 => .false | _ => .from r.srcA) }
  | 0x093 => some { d := .blank, a := .blank, b := .blank, c := .imm, ok := true, ctl := true, ins := .trap r.ctl r.c }
  | 0x094 => if e.inTrap then some (rowBare .eret true true r) else .none
  | 0x095 => some (rowSysr e r)
  | 0x096 => some (rowSysw e r)
  | 0x097 => some { d := .blank, a := .blank, b := .blank, c := .imm, ok := true, ins := .bkpt r.ctl r.c }
  | _ => .none

/-- Opcodes 0x0A0–0x0C7: coherence, copies, segments, recovery. (log 20, DEDUCED) -/
def systemRow (e : DecEnv) (op : Nat) (r : Raw) : Option Row :=
  match op with
  | 0x0A0 => supOnly e { d := .blank, a := .sreg 2 2 false, b := .blank, c := .imm, ok := r.c < 16, plain := true, long := true,
                         ins := .protld { ctl := r.ctl, slot := r.c, a := r.a - 192 } }
  | 0x0A1 => some { d := .blank, a := .sreg 2 2 false, b := .sreg 2 2 false, c := .imm, ok := r.c < 64, plain := true,
                    ins := .protsel { ctl := r.ctl, idx := r.c, a := r.a - 192, b := r.b - 192 } }
  | 0x0A2 => some { d := .sreg 1 1 true, a := .uni true false, b := .blank, c := .imm, ok := r.c < 2, plain := true,
                    ins := .ltadv { ctl := r.ctl, d := dstOf r.d, a := r.srcA, max := r.c == 1 } }
  | 0x0A8 => some (rowCopy r)
  | 0x0A9 => some (rowLin r)
  | 0x0AA => some (rowGath r)
  | 0x0AB => some { d := .sreg 1 1 true, a := .blank, b := .blank, c := .imm, ok := r.c == 0, plain := true,
                    ins := .btclose { ctl := r.ctl, d := dstOf r.d } }
  | 0x0AC => some { d := .sreg 1 1 true, a := .uni true false, b := .blank, c := .imm, ok := r.c == 0, plain := true,
                    ins := .btwait { ctl := r.ctl, d := dstOf r.d, a := r.srcA } }
  | 0x0AD => some { d := .blank, a := .sreg 2 2 false, b := .uni false false, c := .imm, ok := r.c == 0, plain := true,
                    ins := .btring { ctl := r.ctl, a := r.a - 192, b := r.srcB } }
  | 0x0B0 => some { d := .reg 2 2 false, a := .uni true false, b := .blank, c := .imm, ok := r.c == 0, plain := sPred r, long := true,
                    ins := .lnk { ctl := r.ctl, d := regOf r.d, a := r.srcA } }
  | 0x0B1 => some { d := .vreg 2 2 false, a := .uni true false, b := .blank, c := .imm, ok := r.c == 0, ctl := true,
                    ins := .calll { ctl := r.ctl, d := r.d, a := r.srcA } }
  | 0x0B2 =>
      if r.c % 2 == 1 then
        supOnly e { d := .sreg 1 1 true, a := .uni true false, b := .blank, c := .imm, ok := r.c < 2, plain := true, long := true,
                    ins := .bindFail { ctl := r.ctl, d := dstOf r.d, a := r.srcA } }
      else
        supOnly e { d := .sreg 1 1 true, a := .uni true false, b := .sreg 1 1 false, c := .imm, ok := r.c < 2, plain := true, long := true,
                    ins := .bind { ctl := r.ctl, d := dstOf r.d, a := r.srcA, b := r.b - 192 } }
  | 0x0B3 => supOnly e { d := .sreg 1 1 true, a := .uni true false, b := .blank, c := .imm, ok := r.c == 0, plain := true, long := true,
                         ins := .unbind { ctl := r.ctl, d := dstOf r.d, a := r.srcA } }
  | 0x0B4 => some { d := .sreg 8 8 false, a := .uni true false, b := .blank, c := .imm, ok := r.c == 0, plain := true, long := true,
                    ins := .segld { ctl := r.ctl, d := r.d - 192, a := r.srcA } }
  | 0x0B5 => supOnly e { d := .blank, a := .uni true false, b := .sreg 8 8 false, c := .imm, ok := r.c == 0, plain := true,
                         ins := .segupd { ctl := r.ctl, a := r.srcA, b := r.b - 192 } }
  | 0x0B6 => some { d := .pdst, a := .reg 2 2 false, b := .uni true false, c := .imm, ok := r.c < 5,
                    ins := .segchk { ctl := r.ctl, d := r.d, a := regOf r.a, b := r.srcB, acc := accOf r.c } }
  | 0x0B7 => supOnly e { d := .blank, a := if r.c == 0 then .blank else .uni true false,
                         b := if r.c == 2 then .uni true false else .blank, c := .imm, ok := r.c < 3, plain := true,
                         ins := .shoot { ctl := r.ctl, a := r.srcA, b := r.srcB, mode := shootOf r.c } }
  | 0x0B8 => supOnly e (rowBare .shootw true false r)
  | 0x0B9 => some { d := .blank, a := .sreg 2 2 false, b := .uni true false, c := .imm, ok := r.c == 0, plain := true,
                    ins := .icinv { ctl := r.ctl, a := r.a - 192, b := r.srcB } }
  | 0x0C0 => some { d := .sreg 1 1 false, a := .uni true false, b := .blank, c := .imm, ok := r.c < 5, plain := true,
                    ins := .splitrd { ctl := r.ctl, d := r.d - 192, a := r.srcA, space := spaceOf r.c } }
  | 0x0C1 => some { d := .blank, a := .uni true false, b := .uni true false, c := .imm, ok := r.c < 5, plain := true,
                    ins := .splitwr { ctl := r.ctl, a := r.srcA, b := r.srcB, space := spaceOf r.c } }
  | 0x0C2 =>
      if r.c % 4 == 1 then
        some { d := .blank, a := .blank, b := .blank, c := .imm, ok := r.c == 1, plain := true, ins := .flagwrSave r.ctl }
      else
        some { d := .blank, a := .uni true false, b := .blank, c := .imm, ok := r.c % 16 == 0 && r.c / 16 < 12, plain := true,
               ins := .flagwrSet r.ctl (r.c / 16) r.srcA }
  | 0x0C3 => some { d := .blank, a := .blank, b := .lit, c := .imm, ok := r.c < 32 && bitsOf (r.lit.getD 0) 16 16 == 0, plain := true,
                    ins := .crbegin { ctl := r.ctl, tgt := tgtOf r, team := bitOf r.c 4 } }
  | 0x0C4 => some (rowBare .crend true false r)
  | 0x0C5 => some { d := .sreg 1 1 false, a := .uni true false, b := .blank, c := .imm, ok := r.c < 11, plain := true,
                    ins := .capq { ctl := r.ctl, d := r.d - 192, a := r.srcA, item := r.c } }
  | 0x0C6 => some { d := .sreg 2 2 false, a := .blank, b := .blank, c := .imm, ok := r.c == 0, plain := true,
                    ins := .sigrd r.ctl (r.d - 192) }
  | 0x0C7 => supOnly e { d := .blank, a := .reg 2 2 false, b := .blank, c := .imm, ok := r.c < 2, long := true,
                         ins := .psnw { ctl := r.ctl, a := regOf r.a, ce := r.c == 1 } }
  | _ => .none

/-- Opcodes 0x180–0x18B (R140, R152–R154). -/
def matrixRow (e : DecEnv) (op : Nat) (r : Raw) : Option Row :=
  match op with
  | 0x180 => some (rowMma .mma e false false r)
  | 0x181 => some (rowMma .mmas e true false r)
  | 0x182 => some (rowMma .mmat e false true r)
  | 0x183 => some (rowZclr r)
  | 0x184 => some (rowZmem .zld r)
  | 0x185 => some (rowZmem .zst r)
  | 0x186 => some (rowZmov r)
  | 0x187 => some (rowZadd r)
  | 0x188 => some (rowEpi r)
  | 0x189 => some { d := .blank, a := .sreg 2 2 false, b := .blank, c := .imm, ok := r.c < 2, plain := true, long := true,
                    ins := .actld { ctl := r.ctl, bank := r.c, a := r.a - 192 } }
  | 0x18A => some { d := .blank, a := .uni false false, b := .blank, c := .imm, ok := r.c < 16, plain := true,
                    ins := .ohdl { ctl := r.ctl, h := r.c, a := r.srcA } }
  | 0x18B => some { d := .blank, a := .blank, b := .blank, c := .imm, ok := r.c < 32, plain := true,
                    ins := .spfence { ctl := r.ctl, h := r.c % 16, all := bitOf r.c 4 } }
  | _ => .none

/-- Opcodes 0x1C0–0x1E7 (R64, R235) and the native-only 0x200–0x210 (R66). -/
def memoryRow (e : DecEnv) (op : Nat) (r : Raw) : Option Row :=
  match op with
  | 0x1C0 => some (rowLd .ld 2 r.c r.b r)
  | 0x1C1 => some (rowSt .st 2 r)
  | 0x1C2 => some (rowAtom .atom 1 false r)
  | 0x1E2 => some (rowAtom .atomB64 2 false r)
  | 0x1C3 => some (rowCas r)
  | 0x1C4 => some { d := .dst 1 1, a := .reg 1 1 false, b := .src 1 1, c := .src 1 1, ok := r.modx == 0, long := true, uni := 1,
                    ins := .atomcasSp { ctl := r.ctl, d := dstOf r.d, a := r.srcA, b := r.srcB, c := r.srcC } }
  | 0x1C5 => some { d := .dst 1 1, a := .reg 2 2 false, b := .blank, c := .imm, long := true, plain := sPred r, more := memUni r.d [r.a],
                    ok := bitsOf r.c 4 3 < 5 && !bitOf r.c 7 && r.c % 16 == 0,
                    ins := .atomdp { ctl := r.ctl, d := dstOf r.d, a := regOf r.a, scope := scopeOf (bitsOf r.c 4 3) } }
  | 0x1C6 => some (rowFatom r)
  | 0x1C7 => some (rowAtom .red 1 true r)
  | 0x1E7 => some (rowAtom .redB64 2 true r)
  | 0x1C8 => some (rowLd .ldsp 1 r.c r.b r)
  | 0x1C9 => some (rowSt .stsp 1 r)
  | 0x1CA => some (rowQueue r (fun w q => .ldq { ctl := r.ctl, d := r.d, q := q, w64 := w }))
  | 0x1CB => some (rowQueue r (fun w q => .stq { ctl := r.ctl, d := r.d, q := q, w64 := w }))
  | 0x1CC => some { d := .blank, a := .sreg 2 2 false, b := .blank, c := .imm, ok := r.c == 0 || r.c == 128, plain := true, long := true,
                    ins := .acq { ctl := r.ctl, a := r.a - 192, ex := mSub r.c } }
  | 0x1CD => some { d := .pdst, a := .sreg 2 2 false, b := .blank, c := .imm, ok := r.c < 2, plain := true, long := true,
                    ins := .acqt { ctl := r.ctl, d := r.d, a := r.a - 192, ex := r.c == 1 } }
  | 0x1CE => some { d := .blank, a := .sreg 2 2 false, b := .blank, c := .imm, plain := true, long := true,
                    ok := !mSub r.c && !mNw r.c && mScope r.c < 5 && mSize r.c < 2,
                    ins := .rel { ctl := r.ctl, a := r.a - 192, ex := mSize r.c == 1, scope := scopeOf (mScope r.c) } }
  | 0x1CF => some { d := .blank, a := .blank, b := .blank, c := .imm, plain := true,
                    ok := !mSub r.c && !mNw r.c && mScope r.c < 5 && mSize r.c < 4,
                    ins := .fence r.ctl (kindOf (mSize r.c)) (scopeOf (mScope r.c)) }
  | 0x1D0 => some { d := .blank, a := .blank, b := .blank, c := .imm, plain := true, long := true,
                    ok := !mSub r.c && !mNw r.c && mScope r.c < 5 && mSize r.c == 0,
                    ins := .pub r.ctl (scopeOf (mScope r.c)) }
  | 0x1D1 =>
      let w := mSize r.c == 5
      some { d := .sreg 1 1 false, a := .sreg 2 2 false, b := if w then .sreg 4 4 false else .sreg 2 1 false, c := .imm, plain := true, long := true, ok := m45 r.c,
             ins := .waitv { ctl := r.ctl, d := r.d - 192, a := r.a - 192, b := r.b - 192, w64 := mSize r.c == 5 } }
  | 0x1D2 => some { d := .blank, a := .reg 2 2 false, b := .blank, c := .imm, ok := r.c == 0 || r.c == 128,
                    ins := .wake { ctl := r.ctl, a := regOf r.a, all := mSub r.c } }
  | 0x1D3 => some { d := .blank, a := .reg 2 2 false, b := .disp, c := .imm, ok := r.c == 16 || r.c == 24, long := true,
                    ins := .pref { ctl := r.ctl, a := regOf r.a, b := r.srcB, dev := r.c == 24 } }
  | 0x1D4 => some { d := .blank, a := .sreg 2 2 false, b := .sonly, c := .imm, ok := r.c == 0 || r.c == 128, plain := true,
                    long := true,
                    ins := if mSub r.c then .rinvWb { ctl := r.ctl, a := r.a - 192, b := r.srcB }
                           else .rinv { ctl := r.ctl, a := r.a - 192, b := r.srcB } }
  | 0x1D5 => some { d := .blank, a := .sreg 2 2 false, b := .sonly, c := .imm, ok := r.c == 0, plain := true, long := true,
                    ins := .rflush { ctl := r.ctl, a := r.a - 192, b := r.srcB } }
  | 0x1D6 => supOnly e { d := .blank, a := .sonly, b := .blank, c := .imm, ok := r.c == 0, plain := true, long := true,
                         ins := .bankcfg r.ctl r.srcA }
  | 0x200 =>
      let x := rowLd .ldspPi 1 r.c r.b r
      some { x with more := x.more ++ (if overlaps (dstOf r.d) (msizeOf (mSize r.c)).regs (regOf r.a) then [cRSVOPND] else []) }
  | 0x201 => some (rowSt .stspPi 1 r)
  | 0x210 =>
      if r.b == 248 then
        some { d := .sreg 1 1 false, a := .blank, b := .lit, c := .imm, ok := rcZero r, plain := true, ctl := true,
               ins := .braDec { ctl := r.ctl, d := r.d - 192, tgt := tgtOf r } }
      else
        some { d := .sreg 1 1 false, a := .reg 2 2 false, b := .blank, c := .imm, ok := r.c == 0, plain := true, ctl := true,
               ins := .braDecReg { ctl := r.ctl, d := r.d - 192, a := regOf r.a } }
  | _ => .none

/-- The row of a full form's opcode. Zynran has no opcode of 0x200 or above: its field has nine bits (R36, R66). -/
def fullRow (e : DecEnv) (r : Raw) : Option Row :=
  if r.op < 0x080 || (0x100 ≤ r.op && r.op < 0x180) then laneRow e r.op r
  else if r.op < 0x0A0 then controlRow e r.op r
  else if r.op < 0x100 then systemRow e r.op r
  else if r.op < 0x1C0 then matrixRow e r.op r
  else memoryRow e r.op r

/-- Whether the opcode is marked c:R or c:P, so that native MODX has a meaning (R69). -/
def hasModx (op : Nat) : Bool := [0x012, 0x015, 0x026, 0x02B, 0x02E, 0x043, 0x053, 0x1C4].contains op

/-! ### The short table (R67, R68) -/

/-- A short form's reading: the sizes it accepts, whether its b or RM bits exist in a pair half, its paths. -/
structure SRow where
  szs : List Nat
  rm  : Bool := false
  sf  : Bool := false
  mem : Bool := false
  d   : Role := .dst 1 1
  a   : Role := .src 1 1
  uni : Bool := true
  plain : Bool := false
  ld  : Bool := false
  ins : Instr

/-- The short form's fields as an operation. -/
def Raw.short (r : Raw) : Short :=
  { pred := r.pred, neg := r.neg, sz := szOf (bitsOf r.mods 3 2), d := dstOf r.d, a := srcOf .none r.a,
    rm := rmOf (if r.form == 3 then r.mods % 8 else 0) }

/-- A unary or binary entry; `w64` widens the operands with the size, `shift` leaves a 32 bits wide. -/
def sRow (mk : Short → Instr) (szs : List Nat) (rm sf shift : Bool) (r : Raw) : SRow :=
  let w := if bitsOf r.mods 3 2 == 1 then 2 else 1
  let aw := if shift then 1 else w
  { szs := szs, rm := rm, sf := sf, d := .dst w w, a := .src aw aw, ins := mk r.short }

def shortRow (r : Raw) : Option SRow :=
  match r.op with
  | 0x01 => some (sRow .movZ32 [0, 1] false false false r)
  | 0x02 => some (sRow .notZ32 [0, 1] false false false r)
  | 0x03 => some (sRow .inegZ32 [0, 1] false false false r)
  | 0x04 => some (sRow .iabsZ32 [0, 1] false false false r)
  | 0x05 => some (sRow .popcZ32 [0] false false false r)
  | 0x06 => some (sRow .clzZ32 [0] false false false r)
  | 0x07 => some (sRow .brevZ32 [0] false false false r)
  | 0x08 => some (sRow .iaddZ32 [0, 1, 2] false false false r)
  | 0x09 => some (sRow .isubZ32 [0, 1, 2] false false false r)
  | 0x0A => some (sRow .imulZ32 [0] false false false r)
  | 0x0B => some (sRow .iminZ32 [0, 2] false false false r)
  | 0x0C => some (sRow .imaxZ32 [0, 2] false false false r)
  | 0x0D => some (sRow .nminZ32 [0, 2] false false false r)
  | 0x0E => some (sRow .nmaxZ32 [0, 2] false false false r)
  | 0x0F => some (sRow .andZ32 [0, 1] false false false r)
  | 0x10 => some (sRow .orZ32 [0, 1] false false false r)
  | 0x11 => some (sRow .xorZ32 [0, 1] false false false r)
  | 0x12 => some (sRow .andnZ32 [0, 1] false false false r)
  | 0x13 => some (sRow .shlZ32 [0, 1] false false true r)
  | 0x14 => some (sRow .shrZ32 [0, 1] false false true r)
  | 0x15 => some (sRow .sarZ32 [0, 1] false false true r)
  | 0x16 => some (sRow .rotlZ32 [0] false false true r)
  | 0x20 => some (sRow .faddZ32 [0] true false false r)
  | 0x21 => some (sRow .fsubZ32 [0] true false false r)
  | 0x22 => some (sRow .fmulZ32 [0] true false false r)
  | 0x23 => some (sRow .fminZ32 [0] false false false r)
  | 0x24 => some (sRow .fmaxZ32 [0] false false false r)
  | 0x25 => some (sRow .hadd2Z32 [2] true false false r)
  | 0x26 => some (sRow .hmul2Z32 [2] true false false r)
  | 0x28 => some (sRow .frcpZ32 [0] true true false r)
  | 0x29 => some (sRow .frsqZ32 [0] true true false r)
  | 0x2A => some (sRow .fsqrtZ32 [0] true true false r)
  | 0x2B => some (sRow .fexp2Z32 [0] true true false r)
  | 0x2C => some (sRow .flog2Z32 [0] true true false r)
  | 0x2D => some (sRow .fsinZ32 [0] true true false r)
  | 0x2E => some (sRow .fcosZ32 [0] true true false r)
  | 0x2F => some (sRow .ftanhZ32 [0] true true false r)
  | 0x30 => some (sRow .f2iZ32 [0] false false false r)
  | 0x31 => some (sRow .i2fZ32 [0] true false false r)
  | 0x38 =>
      let w := if bitsOf r.mods 3 2 == 1 then 2 else 1
      some { szs := [0, 1], mem := true, d := .dst w w, a := .reg 1 1 false, ld := true, ins := .ldspZ32 r.short }
  | 0x39 =>
      let w := if bitsOf r.mods 3 2 == 1 then 2 else 1
      some { szs := [0, 1], mem := true, d := .src w w, a := .reg 1 1 false, uni := false,
             ins := .stspZ32 { pred := r.pred, neg := r.neg, sz := szOf (bitsOf r.mods 3 2), d := srcOf .none r.d, a := srcOf .none r.a } }
  | 0x3F => some { szs := [0], d := .blank, a := .blank, uni := false, plain := true, ins := .nopZ32 r.pred r.neg }
  | _ => .none

/-! ### Judging a word -/

/-- The lowest cause of a list, if it has any (R58). -/
def lowest (l : List Nat) : Option Nat := l.foldl (fun m x => match m with | .none => some x | some y => some (min x y)) .none

/-- Causes an S destination adds (R33, R104). (log 19, DEDUCED) -/
def uniCauses (mode d : Nat) (pred : Nat) (neg : Bool) (srcs : List Nat) : List Nat :=
  if 192 ≤ d && d < 248 && mode != 0 then
    (if pred == 15 && !neg then [] else [cPREDUSE]) ++
    (if mode == 1 && srcs.any (fun x => x < 192 || x == 250 || x == 252) then [cRSVOPND] else [])
  else []

/-- The operand codes of the fields that a row reads as sources. -/
def Row.srcCodes (x : Row) (r : Raw) : List Nat :=
  let f (role : Role) (v : Nat) : List Nat := match role with | .src .. | .reg .. => [v] | _ => []
  f x.a r.a ++ f x.b r.b ++ f x.c r.c

/-- Whether any register operand field holds 248 (R37). -/
def Row.takesLit (x : Row) (r : Raw) : Bool :=
  (x.d.isOperand && r.d == 248) || (x.a.isOperand && r.a == 248) || (x.b.isOperand && r.b == 248) || (x.c.isOperand && r.c == 248)

/-- All the causes a full form raises (R57), in any order. A flag choice of 01 or 10 that the header sets to none is RSVMOD only of a
long-latency opcode (R41); of any other it is FLAGUSE (R48). Modifiers [12:8] are refused at 0x200 and above too, where R69 names none
(log 69, DESIGN CHOICE). (log 19, DEDUCED) -/
def Row.causes (e : DecEnv) (x : Row) (r : Raw) : List Nat :=
  let lit := if x.eng then .none else r.lit
  x.d.causes e lit r.d ++ x.a.causes e lit r.a ++ x.b.causes e lit r.b ++ x.c.causes e lit r.c ++
  (if x.eng then (if r.lit.isSome then x.e.causes e .none (ecwE (r.lit.getD 0)) else [cNOLIT]) else []) ++
  (if x.ok || (x.eng && r.lit.isNone) then [] else [cRSVMOD]) ++
  (if r.form == 2 && (r.mods / 256 % 32 != 0 || (r.mods % 256 != 0 && !hasModx r.op)) then [cRSVMOD] else []) ++
  (if 12 ≤ r.flag && r.flag < 15 && (x.long || r.form != 2 || bitsOf r.mods 13 2 == 3) then [cRSVMOD] else []) ++
  (if !x.long && r.flag != 15 then [cFLAGUSE] else []) ++
  (if x.plain && !(r.pred == 15 && !r.neg) then [cPREDUSE] else []) ++
  uniCauses x.uni r.d r.pred r.neg (x.srcCodes r) ++ x.more ++
  (if !x.eng && r.lit.isSome && !x.takesLit r then [cSTRAYLIT] else [])

/-- The reading of a full form: an instruction, or the lowest cause (R58). TRAPZ comes before every check (R56). (log 19, DEDUCED) -/
def judgeFull (e : DecEnv) (r : Raw) : Except Bad Instr :=
  if r.op == 0 then .ok .trapz
  else match fullRow e r with
    | .none => .error { cause := cUNDEFOP, raw := r }
    | some x =>
        match lowest (x.causes e r) with
        | some c => .error { cause := c, raw := r }
        | .none => .ok x.ins

/-- All the causes a short form raises. (log 19, DEDUCED) -/
def SRow.causes (e : DecEnv) (x : SRow) (r : Raw) : List Nat :=
  let low := if r.form == 3 then r.mods % 8 else 0
  (if x.szs.contains (bitsOf r.mods 3 2) then [] else [cRSVMOD]) ++
  (if (if x.rm then low ≤ 4 else low == 0) then [] else [cRSVMOD]) ++
  x.d.causes e .none r.d ++ x.a.causes e .none r.a ++
  (if r.d == 248 || r.a == 248 then [cNOLIT] else []) ++
  (if x.plain && !(r.pred == 15 && !r.neg) then [cPREDUSE] else []) ++
  uniCauses (if x.uni then 1 else 0) r.d r.pred r.neg [r.a]

/-- The reading of a short form. (log 19, DEDUCED) -/
def judgeShort (e : DecEnv) (r : Raw) : Except Bad Instr :=
  if r.op == 0 then .ok .trapzZ32
  else match shortRow r with
    | .none => .error { cause := cUNDEFOP, raw := r }
    | some x =>
        match lowest (x.causes e r) with
        | some c => .error { cause := c, raw := r }
        | .none => .ok x.ins

/-! ### Zynran parcels (R34–R37) -/

/-- Parcels of a form (R34). -/
def parcelsOf (p : Nat) : Nat := match p % 4 with | 1 => 2 | 2 => 3 | _ => 1

/-- The fields of a Z32 parcel (R35, R60). (log 21, DEDUCED) -/
def rawZ32 (p : Nat) : Raw :=
  { form := 0, half := 0, pos := 1, op := bitsOf p 2 7, d := bitsOf p 9 8, a := bitsOf p 17 8, b := 0, c := 0,
    pred := bitsOf p 25 4, neg := bitOf p 29, flag := if p % 4 == 3 then 0 else 15, wait := 0, mods := bitsOf p 30 2 * 8, lit := .none }

/-- The fields of a Z64 word, with Z96's literal (R36). -/
def rawZ64 (w : Nat) (lit : Option Nat) : Raw :=
  { form := 1, half := 0, pos := if lit.isSome then 3 else 2, op := bitsOf w 2 9, d := bitsOf w 11 8, a := bitsOf w 19 8,
    b := bitsOf w 27 8, c := bitsOf w 35 8, pred := bitsOf w 43 4, neg := bitOf w 47, flag := bitsOf w 48 4,
    wait := bitsOf w 52 12, mods := 0, lit := lit }

/-- Decode a Zynran instruction from three parcels, of which as many count as the form has: its length in parcels
and its reading. A parcel with opcode 0 is TRAPZ (R56), be it in a native callee (R330; log 72, DEDUCED). -/
def decodeZynran (e : DecEnv) (p0 p1 p2 : Nat) : Nat × Except Bad Instr :=
  match p0 % 4 with
  | 0 => (1, judgeShort e (rawZ32 p0))
  | 1 => (2, judgeFull e (rawZ64 (p0 + p1 * 2 ^ 32) .none))
  | 2 => (3, judgeFull e (rawZ64 (p0 + p1 * 2 ^ 32) (some p2)))
  | _ => (1, .error { cause := cRSVLEN, raw := rawZ32 p0 })

/-- The raw fields a Zynran instruction reports if it traps at decode (R60). -/
def zynranRaw (p0 p1 p2 : Nat) : Raw :=
  match p0 % 4 with
  | 1 => rawZ64 (p0 + p1 * 2 ^ 32) .none
  | 2 => rawZ64 (p0 + p1 * 2 ^ 32) (some p2)
  | _ => rawZ32 p0

/-! ### Native words and clauses (R39–R46) -/

/-- One word of a decoded clause: a full instruction with the words it takes, or a pair. -/
inductive NWord where
  | one (i : Instr) (r : Raw) (words : Nat)
  | two (i j : Instr) (r q : Raw)
  deriving DecidableEq, Repr

/-- A decoded clause: its header's wait mask, its length in words after the header, its instruction words by index. -/
structure Clause where
  hdr   : Header
  words : List (Nat × NWord)
  deriving DecidableEq, Repr

/-- The header's fields (R40). -/
def headerOf (w : Nat) : Header :=
  let f (x : Nat) : Option Nat := if x < 12 then some x else .none
  { wait := BitVec.ofNat 12 (bitsOf w 50 12), flagA := f (bitsOf w 46 4), flagB := f (bitsOf w 42 4), len := bitsOf w 37 5,
    yield := bitOf w 36 }

/-- Causes of a header (R40, R57: a clause flag value is RSVMOD, anything else BADCLAUSE). (log 19, DEDUCED) -/
def headerCauses (w : Nat) : List Nat :=
  let a := bitsOf w 46 4
  let b := bitsOf w 42 4
  (if (12 ≤ a && a < 15) || (12 ≤ b && b < 15) then [cRSVMOD] else []) ++
  (if bitsOf w 37 5 == 0 || (a < 12 && a == b) || w % 2 ^ 36 != 0 then [cBADCLAUSE] else [])

/-- The raw fields of a header, as a trap at it reports them: FORM 2 with PRED, OPCODE, operands and set-flag zero, which R60 does not
give (log 69, DESIGN CHOICE). -/
def rawHeader (w : Nat) : Raw := { Raw.none 2 with wait := bitsOf w 50 12 }

/-- The raw fields of a full word in its clause (R41, R59). A flag choice that names no flag is reported as 12 (log 69, DESIGN CHOICE). -/
def rawFull (h : Header) (pos w : Nat) (lit : Option Nat) : Raw :=
  let ch := bitsOf w 13 2
  { form := 2, half := 0, pos := pos, op := bitsOf w 52 10, d := bitsOf w 44 8, a := bitsOf w 36 8, b := bitsOf w 28 8,
    c := bitsOf w 20 8, pred := bitsOf w 16 4, neg := bitOf w 15,
    flag := match ch with | 0 => 15 | 1 => h.flagA.getD 12 | 2 => h.flagB.getD 12 | _ => 12,
    wait := h.wait.toNat, mods := w % 2 ^ 15, lit := lit }

/-- The raw fields of a pair half (R43). -/
def rawHalf (h : Header) (pos half x : Nat) : Raw :=
  { form := 3, half := half, pos := pos, op := bitsOf x 24 7, d := bitsOf x 16 8, a := bitsOf x 8 8, b := 0, c := 0,
    pred := if bitsOf x 5 3 == 7 then 15 else bitsOf x 5 3, neg := false, flag := 15, wait := h.wait.toNat, mods := x % 32, lit := .none }

/-- The bank of a register code; none for the special operands (R32). -/
def bankOf (x : Nat) : Option Nat := if x < 192 then some (x % 4) else if x < 248 then some ((x - 192) % 4) else .none

/-- Whether two codes lie in different banks or one names no bank. -/
def apart (x y : Nat) : Bool := match bankOf x, bankOf y with | some m, some n => m != n | _, _ => true

/-- The causes of two halves: half 0's lowest, PAIRRULE standing at half 0, before half 1's (R58). -/
def pairCause (r : Raw) (own : Option Bad) (broken : Bool) (other : Option Bad) : Option Bad :=
  if broken then some { cause := match own with | some b => min b.cause cPAIRRULE | .none => cPAIRRULE, raw := r }
  else own.or other

/-- What a reading refuses with. -/
def badOf (x : Except Bad Instr) : Option Bad := match x with | .error b => some b | .ok _ => .none

/-- R44's conditions on a pair. -/
def pairOk (r q : Raw) (x y : SRow) : Bool := apart r.d q.d && apart r.a q.a && !(x.mem && y.mem) && !(x.sf && y.sf)

/-- Whether a pair breaks R44: judged between halves that both have an instruction and do not hold opcode 0. -/
def pairBroken (r q : Raw) : Bool :=
  match shortRow r, shortRow q with | some x, some y => r.op != 0 && q.op != 0 && !pairOk r q x y | _, _ => false

/-- Decode a pair word; a pair rule broken is reported at half 0. A half with opcode 0 beside an illegal half leaves the pair illegal
(log 69, DESIGN CHOICE). (log 19, DEDUCED) -/
def decodePair (e : DecEnv) (h : Header) (pos w : Nat) : Except Bad NWord :=
  let r := rawHalf h pos 0 (bitsOf w 31 31)
  let q := rawHalf h pos 1 (bitsOf w 0 31)
  match pairCause r (badOf (judgeShort e r)) (pairBroken r q) (badOf (judgeShort e q)), judgeShort e r, judgeShort e q with
  | .none, .ok i, .ok j => .ok (.two i j r q)
  | some b, _, _ | _, .error b, _ | _, _, .error b => .error b

/-- Whether a full word takes a literal word: an engine command, or a register operand field with 248 (R42). -/
def wantsLit (e : DecEnv) (r : Raw) : Bool :=
  if r.op == 0 then false else
  match fullRow { DecEnv.full with c16 := e.c16 } r with
  | .none => false
  | some x => x.eng || x.takesLit r

/-- A bad word of a clause. The emulation fields of a header or a literal word, which R60 does not give, are FORM 2 with zeros (log 69,
DESIGN CHOICE). -/
def badWord (cause : Nat) (h : Header) (pos w : Nat) : Bad :=
  { cause := cause, raw := if w / 2 ^ 62 == 0 then rawFull h pos w .none else { Raw.none 2 with pos := pos, wait := h.wait.toNat } }

/-- Decode the counted words of a clause, the first error of the lowest word winning (R46, R58). `pos` is the index
of the next word, the last argument the words still counted. Non-zero bits [61:32] of a literal word, which R57 does not name, are RSVMOD,
reported at that word (log 69, DESIGN CHOICE). -/
def decodeWords (e : DecEnv) (h : Header) (pos : Nat) (ws : List Nat) : Nat → Except Bad (List (Nat × NWord))
  | 0 => .ok []
  | fuel + 1 =>
    match ws with
    | [] => .ok []
    | w :: rest =>
        match w / 2 ^ 62 with
        | 0 =>
            let r0 := rawFull h pos w .none
            let litNext := match rest with | x :: _ => if x / 2 ^ 62 == 3 then some x else .none | [] => .none
            let take := wantsLit e r0 && litNext.isSome
            let r := if take then { r0 with lit := some ((litNext.getD 0) % 2 ^ 32) } else r0
            let rest' := if take then rest.drop 1 else rest
            let posn := if take then pos + 2 else pos + 1
            let isT := r.op != 0 && (match fullRow e r with | some x => x.ctl | .none => false)
            let misplaced := isT && !rest'.isEmpty
            match judgeFull e r with
            | .error b => .error { b with cause := if misplaced then min b.cause cCTLPOS else b.cause }
            | .ok i =>
                if misplaced then .error { cause := cCTLPOS, raw := r }
                else if take && bitsOf (litNext.getD 0) 32 30 != 0 then .error (badWord cRSVMOD h (pos + 1) (litNext.getD 0))
                else match decodeWords e h posn rest' fuel with
                  | .error b => .error b
                  | .ok l => .ok ((pos, .one i r (if take then 2 else 1)) :: l)
        | 1 =>
            match decodePair e h pos w with
            | .error b => .error b
            | .ok n => match decodeWords e h (pos + 1) rest fuel with
                | .error b => .error b
                | .ok l => .ok ((pos, n) :: l)
        | 2 => .error (badWord cBADFLOW h pos w)
        | _ => .error (badWord (if bitsOf w 32 30 != 0 then cRSVMOD else cSTRAYLIT) h pos w)

/-- Decode a whole clause from its header word and its counted words. A word of zeros where a header stands is TRAPZ
(R45(c)), reported by `none`. -/
def decodeClause (e : DecEnv) (w : Nat) (ws : List Nat) : Except Bad (Option Clause) :=
  if w == 0 then .ok .none
  else if w / 2 ^ 62 != 2 then
    .error { cause := cBADFLOW, raw := if w / 2 ^ 62 == 0 then { rawFull { wait := 0, flagA := .none, flagB := .none, len := 0, yield := false } 0 w .none with lit := .none }
                                else Raw.none 2 }
  else match lowest (headerCauses w) with
    | some c => .error { cause := c, raw := rawHeader w }
    | .none =>
        let h := headerOf w
        match decodeWords e h 1 (ws.take h.len) 32 with
        | .error b => .error b
        | .ok l => .ok (some { hdr := h, words := l })

/-! ### Encoding (the same tables, the other way) -/

def Src.code : Src → Nat
  | .v n => n | .s n => n + 192 | .lit _ => 248 | .zero => 249 | .laneid => 250 | .wavew => 251 | .em => 252 | .ones => 253

def Dst.code : Dst → Nat
  | .v n => n | .s n => n + 192 | .zero => 249

def Reg.code : Reg → Nat
  | .v n => n | .s n => n + 192

/-- The TYPE field: 0 for the natural type (R71). -/
def tyField (nat t : Ty) : Nat := if t == nat then 0 else t.code

def layAByte (nat t : Ty) (rm : RM) (sat : Bool) : Nat := tyField nat t + rm.code * 16 + bnat sat * 128

/-- The operand fields of an instruction to be laid into a word. `m` is the native MODX. -/
structure Fields where
  op  : Nat
  d   : Nat := 249
  a   : Nat := 249
  b   : Nat := 249
  c   : Nat := 0
  lit : Option Nat := .none
  m   : Nat := 0
  ctl : Ctl

/-- The literal of a list of sources. -/
def litOf (l : List Src) : Option Nat := (Src.lits l).head?.map (·.toNat)

def encUn (op : Nat) (nat : Ty) (o : Un) : Fields :=
  { op := op, d := o.d.code, a := o.a.code, c := layAByte nat o.ty o.rm o.sat, lit := litOf [o.a], ctl := o.ctl }
def encBin (op : Nat) (nat : Ty) (o : Bin) : Fields :=
  { op := op, d := o.d.code, a := o.a.code, b := o.b.code, c := layAByte nat o.ty o.rm o.sat, lit := litOf [o.a, o.b], ctl := o.ctl }
def encTri (op : Nat) (nat : Ty) (o : Tri) : Fields :=
  { op := op, d := o.d.code, a := o.a.code, b := o.b.code, c := o.c.code, m := layAByte nat o.ty o.rm o.sat,
    lit := litOf [o.a, o.b, o.c], ctl := o.ctl }
def encCmp (op : Nat) (nat : Ty) (o : Cmp) : Fields :=
  { op := op, d := o.d, a := o.a.code, b := o.b.code, c := tyField nat o.ty + o.cond.code * 16, lit := litOf [o.a, o.b], ctl := o.ctl }
def encRed (op : Nat) (o : Red) : Fields :=
  { op := op, d := o.d.code, a := o.a.code, c := tyField .i32 o.ty + o.op.code * 16 + bnat o.exc * 128, lit := litOf [o.a], ctl := o.ctl }
def encSys (op : Nat) (addr : Nat) (w64 : Bool) (c : Ctl) : Fields :=
  { op := op, b := addr / 256 + bnat w64 * 16, c := addr % 256, ctl := c }
def dispLit (tgt rc : Disp) : Nat := tgt.toNat % 2 ^ 16 + rc.toNat % 2 ^ 16 * 2 ^ 16
def dispC (tgt rc : Disp) : Nat := tgt.toNat / 2 ^ 16 + rc.toNat / 2 ^ 16 * 16
def mByte (sub nw : Bool) (scope size : Nat) : Nat := size + scope * 8 + bnat nw * 64 + bnat sub * 128
def tByte (nw : Bool) (scope op : Nat) : Nat := op + scope * 16 + bnat nw * 128
def ecw (g : Guard) (e m : Nat) : Nat :=
  (match g with | .none => 0 | some s => 2 ^ 31 + s * 2 ^ 28) + e * 2 ^ 20 + m
def optV249 (o : Option Nat) : Nat := o.getD 249
def encMma (op : Nat) (o : MmaOp) : Fields :=
  { op := op, d := o.d, a := o.a, b := (match o.b with | .regs v => v | .handle h => h), c := o.c, ctl := o.ctl,
    lit := some (ecw o.guard (optV249 o.md) ((match o.b with | .regs _ => 0 | .handle _ => 1) + bnat o.acc * 2 + optV249 o.scl * 4)) }
def copyEmod (dir : Nat) (nw : Bool) (tag : BitVec 16) : Nat := dir + bnat nw * 4 + tag.toNat * 16
def encLd (op : Nat) (o : LdOp) : Fields :=
  { op := op, d := o.d.code, a := o.a.code, b := o.b.code, c := mByte false false o.scope.code o.size.code, lit := litOf [o.b], ctl := o.ctl }
def encSt (op : Nat) (o : StOp) : Fields :=
  { op := op, d := o.d.code, a := o.a.code, b := o.b.code, c := mByte false o.nw o.scope.code o.size.code, lit := litOf [o.d, o.b],
    ctl := o.ctl }
def encAtom (op : Nat) (o : AtomOp) : Fields :=
  { op := op, d := o.d.code, a := o.a.code, b := o.b.code, c := tByte o.nw o.scope.code o.op.code, lit := litOf [o.b], ctl := o.ctl }
def encShort (op : Nat) (o : Short) : Nat :=
  op * 4 + o.d.code * 2 ^ 9 + o.a.code * 2 ^ 17 + o.pred * 2 ^ 25 + bnat o.neg * 2 ^ 29 + o.sz.code * 2 ^ 30

/-- The fields of a full form; none for a short form or a machine event. -/
def Instr.fields : Instr → Option Fields
  | .trapz => some { op := 0, d := 0, a := 0, b := 0, ctl := { pred := 0, neg := false, setf := some 0, wait := 0 } }
  | .iadd o => some (encBin 0x010 .i32 o)
  | .isub o => some (encBin 0x011 .i32 o)
  | .iadc o => some (encTri 0x012 .i32 o)
  | .imul o => some (encBin 0x013 .i32 o)
  | .imulh o => some (encBin 0x014 .i32 o)
  | .imad o => some (encTri 0x015 .i32 o)
  | .imadD o => some (encBin 0x115 .i32 o)
  | .iabs o => some (encUn 0x016 .i32 o)
  | .ineg o => some (encUn 0x017 .i32 o)
  | .imin o => some (encBin 0x018 .i32 o)
  | .imax o => some (encBin 0x019 .i32 o)
  | .nmin o => some (encBin 0x01A .n32 o)
  | .nmax o => some (encBin 0x01B .n32 o)
  | .andB o => some (encBin 0x01C .b32 o)
  | .orB o => some (encBin 0x01D .b32 o)
  | .xorB o => some (encBin 0x01E .b32 o)
  | .notB o => some (encUn 0x01F .b32 o)
  | .andn o => some (encBin 0x020 .b32 o)
  | .shl o => some (encBin 0x021 .b32 o)
  | .shr o => some (encBin 0x022 .b32 o)
  | .sar o => some (encBin 0x023 .i32 o)
  | .rotl o => some (encBin 0x024 .b32 o)
  | .bfx o => some (encBin 0x025 .i32 o)
  | .bfi o => some (encTri 0x026 .b32 o)
  | .popc o => some (encUn 0x027 .b32 o)
  | .clz o => some (encUn 0x028 .b32 o)
  | .brev o => some (encUn 0x029 .b32 o)
  | .icmp o => some (encCmp 0x02A .i32 o)
  | .sel o => some { op := 0x02B, d := o.d.code, a := o.a.code, b := o.b.code, c := o.c, m := tyField .b32 o.ty,
                     lit := litOf [o.a, o.b], ctl := o.ctl }
  | .mov o => some (encUn 0x02C .b32 o)
  | .movl o => some (encUn 0x02D .b32 o)
  | .prmt o => some (encTri 0x02E .b32 o)
  | .sega o => some (encBin 0x030 .i32 o)
  | .padd o => some (encBin 0x031 .i32 o)
  | .pseg o => some (encUn 0x032 .i32 o)
  | .poff o => some (encUn 0x033 .i32 o)
  | .fadd o => some (encBin 0x040 .f32 o)
  | .fsub o => some (encBin 0x041 .f32 o)
  | .fmul o => some (encBin 0x042 .f32 o)
  | .ffma o => some (encTri 0x043 .f32 o)
  | .ffmaD o => some (encBin 0x143 .f32 o)
  | .fmin o => some (encBin 0x044 .f32 o)
  | .fmax o => some (encBin 0x045 .f32 o)
  | .fcmp o => some (encCmp 0x046 .f32 o)
  | .fclass o => some { op := 0x047, d := o.d, a := o.a.code, c := o.mask.toNat, lit := litOf [o.a], ctl := o.ctl }
  | .fdiv o => some (encBin 0x048 .f32 o)
  | .fsqrt o => some (encUn 0x049 .f32 o)
  | .frcp o => some (encUn 0x04A .f32 o)
  | .frsq o => some (encUn 0x04B .f32 o)
  | .fexp2 o => some (encUn 0x04C .f32 o)
  | .flog2 o => some (encUn 0x04D .f32 o)
  | .fsin o => some (encUn 0x04E .f32 o)
  | .fcos o => some (encUn 0x04F .f32 o)
  | .ftanh o => some (encUn 0x050 .f32 o)
  | .hadd2 o => some (encBin 0x051 .f16x2 o)
  | .hmul2 o => some (encBin 0x052 .f16x2 o)
  | .hfma2 o => some (encTri 0x053 .f16x2 o)
  | .hfma2D o => some (encBin 0x153 .f16x2 o)
  | .f2i o => some { op := 0x058, d := o.d.code, a := o.a.code, b := tyField .f32 o.src, c := layAByte .i32 o.dst o.rm o.sat,
                     lit := litOf [o.a], ctl := o.ctl }
  | .i2f o => some { op := 0x059, d := o.d.code, a := o.a.code, b := tyField .i32 o.src, c := layAByte .f32 o.dst o.rm o.sat,
                     lit := litOf [o.a], ctl := o.ctl }
  | .fcvt o => some { op := 0x05A, d := o.d.code, a := o.a.code, b := o.src.code, c := o.dst.code + o.rm.code * 16 + bnat o.sat * 128,
                      lit := litOf [o.a], ctl := o.ctl }
  | .fpk o => some { op := 0x05B, d := o.d.code, a := o.a.code, c := o.fmt.code + o.rm.code * 16 + bnat o.sat * 128, ctl := o.ctl }
  | .fupk o => some { op := 0x05C, d := o.d.code, a := o.a.code, b := o.src.code, c := o.dst.code, lit := litOf [o.a], ctl := o.ctl }
  | .qnt o => some { op := 0x05D, d := o.d.code, a := o.a.code, b := o.b.code, c := o.fmt.code + o.rm.code * 16 + bnat o.sat * 128,
                     lit := litOf [o.a, o.b], ctl := o.ctl }
  | .dqnt o => some { op := 0x05E, d := o.d.code, a := o.a.code, b := o.b.code, c := o.fmt.code + o.rm.code * 16 + bnat o.sat * 128,
                      lit := litOf [o.a, o.b], ctl := o.ctl }
  | .plop o => some { op := 0x060, d := o.d, a := o.a, b := o.b, c := o.lut.toNat, ctl := o.ctl }
  | .shfl o => some { op := 0x068, d := o.d.code, a := o.a.code, b := o.b.code, c := o.sub.code * 16 + (if o.w64 then 7 else 0),
                      lit := litOf [o.a, o.b], ctl := o.ctl }
  | .vred o => some (encRed 0x069 o)
  | .vscan o => some (encRed 0x06A o)
  | .vote o => some { op := 0x06B, d := o.d, a := o.a, c := o.sub.code * 16, ctl := o.ctl }
  | .ballot o => some { op := 0x06C, d := o.d.code, a := o.a, ctl := o.ctl }
  | .elect c d => some { op := 0x06D, d := d, ctl := c }
  | .matchOp o => some { op := 0x06E, d := o.d.code, a := o.a.code, c := bnat o.all * 16 + (if o.w64 then 7 else 0), lit := litOf [o.a],
                         ctl := o.ctl }
  | .bra o => some { op := 0x080, b := 248, c := dispC o.tgt o.rc, lit := some (dispLit o.tgt o.rc), ctl := o.ctl }
  | .brau o => some { op := 0x081, b := 248, c := dispC o.tgt 0, lit := some (dispLit o.tgt 0), ctl := o.ctl }
  | .brauReg o => some { op := 0x081, a := o.a.code, ctl := o.ctl }
  | .brx o => some { op := 0x082, a := o.a.code, b := 248, c := dispC 0 o.rc, lit := some (dispLit 0 o.rc), ctl := o.ctl }
  | .call o => some { op := 0x083, d := o.d, b := 248, c := dispC o.tgt 0, lit := some (dispLit o.tgt 0), ctl := o.ctl }
  | .callx o => some { op := 0x084, d := o.d, a := o.a.code, ctl := o.ctl }
  | .ret o => some { op := 0x085, a := o.a.code, ctl := o.ctl }
  | .exit c => some { op := 0x086, ctl := c }
  | .endOp c => some { op := 0x087, ctl := c }
  | .emrd c d l => some { op := 0x088, d := d + 192, c := bnat l, ctl := c }
  | .emwr c a o => some { op := 0x089, a := a.code, c := (match o with | .set => 0 | .and => 1 | .or => 2), lit := litOf [a], ctl := c }
  | .waitf c a l => some { op := 0x08A, a := a.code, c := l, lit := litOf [a], ctl := c }
  | .bar c n => some { op := 0x08B, c := n, ctl := c }
  | .bara c n => some { op := 0x08C, c := n, ctl := c }
  | .barw c n => some { op := 0x08D, c := n, ctl := c }
  | .yield c => some { op := 0x08E, ctl := c }
  | .sleep c a => some { op := 0x08F, a := a.code, lit := litOf [a], ctl := c }
  | .nop c => some { op := 0x090, ctl := c }
  | .launch o => some { op := 0x091, d := o.d.code, a := o.a + 192, ctl := o.ctl }
  | .gset c k v => some { op := 0x092, a := (match v with | .from a => a.code | _ => 249), ctl := c,
                          c := k + (match v with | .unresolved => 0 | .true => 8 | .false => 16 | .from _ => 24),
                          lit := (match v with | .from a => litOf [a] | _ => .none) }
  | .trap c n => some { op := 0x093, c := n, ctl := c }
  | .eret c => some { op := 0x094, ctl := c }
  | .sysr o => some { encSys 0x095 o.addr o.w64 o.ctl with d := o.d.code }
  | .sysw o | .ltimeWrite o | .fdpendClear o => some { encSys 0x096 o.addr o.w64 o.ctl with a := o.a.code, lit := litOf [o.a] }
  | .bkpt c n => some { op := 0x097, c := n, ctl := c }
  | .protld o => some { op := 0x0A0, a := o.a + 192, c := o.slot, ctl := o.ctl }
  | .protsel o => some { op := 0x0A1, a := o.a + 192, b := o.b + 192, c := o.idx, ctl := o.ctl }
  | .ltadv o => some { op := 0x0A2, d := o.d.code, a := o.a.code, c := bnat o.max, lit := litOf [o.a], ctl := o.ctl }
  | .btcopy o => some { op := 0x0A8, a := o.a.code, b := o.b.code, c := o.c.code, ctl := o.ctl,
                        lit := some (ecw o.guard 249 (copyEmod (bnat o.st) o.nw o.tag)) }
  | .btlin o => some { op := 0x0A9, a := o.a.code, b := o.b.code, c := o.c.code, ctl := o.ctl,
                       lit := some (ecw o.guard 249 (copyEmod (bnat o.srcS * 2 + bnat o.dstS) o.nw o.tag)) }
  | .btgath o => some { op := 0x0AA, a := o.a.code, b := o.b.code, c := o.c.code, ctl := o.ctl,
                        lit := some (ecw o.guard o.e (copyEmod (bnat o.st) o.nw o.tag)) }
  | .btclose o => some { op := 0x0AB, d := o.d.code, ctl := o.ctl }
  | .btwait o => some { op := 0x0AC, d := o.d.code, a := o.a.code, lit := litOf [o.a], ctl := o.ctl }
  | .btring o => some { op := 0x0AD, a := o.a + 192, b := o.b.code, lit := litOf [o.b], ctl := o.ctl }
  | .lnk o => some { op := 0x0B0, d := o.d.code, a := o.a.code, lit := litOf [o.a], ctl := o.ctl }
  | .calll o => some { op := 0x0B1, d := o.d, a := o.a.code, lit := litOf [o.a], ctl := o.ctl }
  | .bind o => some { op := 0x0B2, d := o.d.code, a := o.a.code, b := o.b + 192, lit := litOf [o.a], ctl := o.ctl }
  | .bindFail o => some { op := 0x0B2, d := o.d.code, a := o.a.code, c := 1, lit := litOf [o.a], ctl := o.ctl }
  | .unbind o => some { op := 0x0B3, d := o.d.code, a := o.a.code, lit := litOf [o.a], ctl := o.ctl }
  | .segld o => some { op := 0x0B4, d := o.d + 192, a := o.a.code, lit := litOf [o.a], ctl := o.ctl }
  | .segupd o => some { op := 0x0B5, a := o.a.code, b := o.b + 192, lit := litOf [o.a], ctl := o.ctl }
  | .segchk o => some { op := 0x0B6, d := o.d, a := o.a.code, b := o.b.code, c := o.acc.code, lit := litOf [o.b], ctl := o.ctl }
  | .shoot o => some { op := 0x0B7, a := o.a.code, b := o.b.code, c := o.mode.code, lit := litOf [o.a, o.b], ctl := o.ctl }
  | .shootw c => some { op := 0x0B8, ctl := c }
  | .icinv o => some { op := 0x0B9, a := o.a + 192, b := o.b.code, lit := litOf [o.b], ctl := o.ctl }
  | .splitrd o => some { op := 0x0C0, d := o.d + 192, a := o.a.code, c := o.space.code, lit := litOf [o.a], ctl := o.ctl }
  | .splitwr o => some { op := 0x0C1, a := o.a.code, b := o.b.code, c := o.space.code, lit := litOf [o.a, o.b], ctl := o.ctl }
  | .flagwrSet c k a => some { op := 0x0C2, a := a.code, c := k * 16, lit := litOf [a], ctl := c }
  | .flagwrSave c => some { op := 0x0C2, c := 1, ctl := c }
  | .crbegin o => some { op := 0x0C3, b := 248, c := dispC o.tgt 0 + bnat o.team * 16, lit := some (dispLit o.tgt 0), ctl := o.ctl }
  | .crend c => some { op := 0x0C4, ctl := c }
  | .capq o => some { op := 0x0C5, d := o.d + 192, a := o.a.code, c := o.item, lit := litOf [o.a], ctl := o.ctl }
  | .sigrd c d => some { op := 0x0C6, d := d + 192, ctl := c }
  | .psnw o => some { op := 0x0C7, a := o.a.code, c := bnat o.ce, ctl := o.ctl }
  | .mma o => some (encMma 0x180 o)
  | .mmas o => some (encMma 0x181 o)
  | .mmat o => some (encMma 0x182 o)
  | .zclr o => some { op := 0x183, d := o.d, c := 249, ctl := o.ctl, lit := some (ecw o.guard 249 0) }
  | .zld o => some { op := 0x184, d := o.d, a := o.a + 192, c := 249, ctl := o.ctl, lit := some (ecw o.guard 249 o.stride) }
  | .zst o => some { op := 0x185, d := o.d, a := o.a + 192, c := 249, ctl := o.ctl, lit := some (ecw o.guard 249 o.stride) }
  | .zmov o => some { op := 0x186, d := o.d, a := o.a, c := 249, ctl := o.ctl, lit := some (ecw o.guard 249 o.blk) }
  | .zadd o => some { op := 0x187, d := o.d, a := o.a, c := o.c, ctl := o.ctl, lit := some (ecw o.guard 249 0) }
  | .epi o => some { op := 0x188, d := o.d, a := o.a + 192, b := optV249 o.b, c := (match o.c with | .none => 249 | some n => n + 192),
                     ctl := o.ctl, lit := some (ecw o.guard 249 o.blk) }
  | .actld o => some { op := 0x189, a := o.a + 192, c := o.bank, ctl := o.ctl }
  | .ohdl o => some { op := 0x18A, a := o.a.code, c := o.h, lit := litOf [o.a], ctl := o.ctl }
  | .spfence o => some { op := 0x18B, c := o.h + bnat o.all * 16, ctl := o.ctl }
  | .ld o => some (encLd 0x1C0 o)
  | .st o => some (encSt 0x1C1 o)
  | .atom o => some (encAtom 0x1C2 o)
  | .atomB64 o => some (encAtom 0x1E2 o)
  | .atomcas o => some { op := 0x1C3, d := o.d.code, a := o.a.code, b := o.b.code, c := mByte false o.nw o.scope.code (if o.w64 then 5 else 4),
                         ctl := o.ctl }
  | .atomcasSp o => some { op := 0x1C4, d := o.d.code, a := o.a.code, b := o.b.code, c := o.c.code, lit := litOf [o.a, o.b, o.c], ctl := o.ctl }
  | .atomdp o => some { op := 0x1C5, d := o.d.code, a := o.a.code, c := tByte false o.scope.code 0, ctl := o.ctl }
  | .fatom o => some { op := 0x1C6, d := o.d.code, a := o.a.code, b := o.b.code, c := tByte o.nw o.scope.code (bnat o.bf16),
                       lit := litOf [o.b], ctl := o.ctl }
  | .red o => some (encAtom 0x1C7 o)
  | .redB64 o => some (encAtom 0x1E7 o)
  | .ldsp o => some (encLd 0x1C8 o)
  | .stsp o => some (encSt 0x1C9 o)
  | .ldspPi o => some (encLd 0x200 o)
  | .stspPi o => some (encSt 0x201 o)
  | .braDec o => some { op := 0x210, d := o.d + 192, b := 248, c := dispC o.tgt 0, lit := some (dispLit o.tgt 0), ctl := o.ctl }
  | .braDecReg o => some { op := 0x210, d := o.d + 192, a := o.a.code, ctl := o.ctl }
  | .ldq o => some { op := 0x1CA, d := o.d, a := o.q.code, c := mByte false false 0 (if o.w64 then 5 else 4), lit := litOf [o.q], ctl := o.ctl }
  | .stq o => some { op := 0x1CB, d := o.d, a := o.q.code, c := mByte false false 0 (if o.w64 then 5 else 4), lit := litOf [o.q], ctl := o.ctl }
  | .acq o => some { op := 0x1CC, a := o.a + 192, c := mByte o.ex false 0 0, ctl := o.ctl }
  | .acqt o => some { op := 0x1CD, d := o.d, a := o.a + 192, c := bnat o.ex, ctl := o.ctl }
  | .rel o => some { op := 0x1CE, a := o.a + 192, c := mByte false false o.scope.code (bnat o.ex), ctl := o.ctl }
  | .fence c k s => some { op := 0x1CF, c := mByte false false s.code k.code, ctl := c }
  | .pub c s => some { op := 0x1D0, c := mByte false false s.code 0, ctl := c }
  | .waitv o => some { op := 0x1D1, d := o.d + 192, a := o.a + 192, b := o.b + 192, c := mByte false false 0 (if o.w64 then 5 else 4),
                       ctl := o.ctl }
  | .wake o => some { op := 0x1D2, a := o.a.code, c := mByte o.all false 0 0, ctl := o.ctl }
  | .pref o => some { op := 0x1D3, a := o.a.code, b := o.b.code, c := mByte false false (if o.dev then 3 else 2) 0, lit := litOf [o.b],
                      ctl := o.ctl }
  | .rinv o => some { op := 0x1D4, a := o.a + 192, b := o.b.code, lit := litOf [o.b], ctl := o.ctl }
  | .rinvWb o => some { op := 0x1D4, a := o.a + 192, b := o.b.code, c := mByte true false 0 0, lit := litOf [o.b], ctl := o.ctl }
  | .rflush o => some { op := 0x1D5, a := o.a + 192, b := o.b.code, lit := litOf [o.b], ctl := o.ctl }
  | .bankcfg c a => some { op := 0x1D6, a := a.code, lit := litOf [a], ctl := c }
  | _ => .none

/-- The short opcode and fields of a short form. -/
def Instr.shortFields : Instr → Option (Nat × Short)
  | .movZ32 o => some (0x01, o) | .notZ32 o => some (0x02, o) | .inegZ32 o => some (0x03, o) | .iabsZ32 o => some (0x04, o)
  | .popcZ32 o => some (0x05, o) | .clzZ32 o => some (0x06, o) | .brevZ32 o => some (0x07, o) | .iaddZ32 o => some (0x08, o)
  | .isubZ32 o => some (0x09, o) | .imulZ32 o => some (0x0A, o) | .iminZ32 o => some (0x0B, o) | .imaxZ32 o => some (0x0C, o)
  | .nminZ32 o => some (0x0D, o) | .nmaxZ32 o => some (0x0E, o) | .andZ32 o => some (0x0F, o) | .orZ32 o => some (0x10, o)
  | .xorZ32 o => some (0x11, o) | .andnZ32 o => some (0x12, o) | .shlZ32 o => some (0x13, o) | .shrZ32 o => some (0x14, o)
  | .sarZ32 o => some (0x15, o) | .rotlZ32 o => some (0x16, o) | .faddZ32 o => some (0x20, o) | .fsubZ32 o => some (0x21, o)
  | .fmulZ32 o => some (0x22, o) | .fminZ32 o => some (0x23, o) | .fmaxZ32 o => some (0x24, o) | .hadd2Z32 o => some (0x25, o)
  | .hmul2Z32 o => some (0x26, o) | .frcpZ32 o => some (0x28, o) | .frsqZ32 o => some (0x29, o) | .fsqrtZ32 o => some (0x2A, o)
  | .fexp2Z32 o => some (0x2B, o) | .flog2Z32 o => some (0x2C, o) | .fsinZ32 o => some (0x2D, o) | .fcosZ32 o => some (0x2E, o)
  | .ftanhZ32 o => some (0x2F, o) | .f2iZ32 o => some (0x30, o) | .i2fZ32 o => some (0x31, o) | .ldspZ32 o => some (0x38, o)
  | .stspZ32 o => some (0x39, { pred := o.pred, neg := o.neg, sz := o.sz, a := o.a, rm := .rn,
                                d := match o.d with | .v n => .v n | .s n => .s n | _ => .zero })
  | .nopZ32 p n => some (0x3F, { pred := p, neg := n, sz := .w32, d := .zero, a := .zero, rm := .rn })
  | _ => .none

/-- The Z64 word of a full form's fields. -/
def Fields.z64 (f : Fields) : Nat :=
  (if f.lit.isSome then 2 else 1) + f.op * 4 + f.d * 2 ^ 11 + f.a * 2 ^ 19 + f.b * 2 ^ 27 + f.c * 2 ^ 35 +
  f.ctl.pred * 2 ^ 43 + bnat f.ctl.neg * 2 ^ 47 + f.ctl.setf.getD 15 * 2 ^ 48 + f.ctl.wait.toNat * 2 ^ 52

/-- Encode in Zynran: the parcels (R34–R38). None for a native-only form, a modifier Zynran lacks, or an event. -/
def encode (i : Instr) : Option (List Nat) :=
  match i with
  | .trapzZ32 => some [0]
  | .stspZ32 o => some [0x39 * 4 + o.d.code * 2 ^ 9 + o.a.code * 2 ^ 17 + o.pred * 2 ^ 25 + bnat o.neg * 2 ^ 29 + o.sz.code * 2 ^ 30]
  | _ =>
    match i.shortFields with
    | some (op, o) => if o.rm == .rn then some [encShort op o] else .none
    | .none =>
      match i.fields with
      | .none => .none
      | some f =>
          if f.op < 0x200 && f.m == 0 then
            let w := f.z64
            some ([w % 2 ^ 32, w / 2 ^ 32] ++ (match f.lit with | some x => [x] | .none => []))
          else .none

/-- Decode a list of Zynran parcels that is one whole instruction. -/
def decodeParcels (e : DecEnv) (l : List Nat) : Option Instr :=
  match decodeZynran e (l.getD 0 0) (l.getD 1 0) (l.getD 2 0) with
  | (_, .ok i) => some i
  | _ => .none

/-- A full word of native code, standing in a clause with the flags of `h` (R41). -/
def Fields.native (f : Fields) (h : Header) : Nat :=
  let ch := match f.ctl.setf with | .none => 0 | some k => if h.flagA == some k then 1 else 2
  f.op * 2 ^ 52 + f.d * 2 ^ 44 + f.a * 2 ^ 36 + f.b * 2 ^ 28 + f.c * 2 ^ 20 + f.ctl.pred * 2 ^ 16 + bnat f.ctl.neg * 2 ^ 15 + ch * 2 ^ 13 + f.m

/-- A header word (R40). -/
def Header.word (h : Header) : Nat :=
  2 ^ 63 + h.wait.toNat * 2 ^ 50 + h.flagA.getD 15 * 2 ^ 46 + h.flagB.getD 15 * 2 ^ 42 + h.len * 2 ^ 37 + bnat h.yield * 2 ^ 36

/-- The clause of one full form standing alone, with its literal word: its wait mask moves to the header (R76–R80). -/
def encodeNative (i : Instr) : Option (List Nat) :=
  match i.fields with
  | .none => .none
  | some f =>
      let h : Header := { wait := f.ctl.wait, flagA := f.ctl.setf, flagB := .none, len := if f.lit.isSome then 2 else 1, yield := false }
      some ([h.word, f.native h] ++ (match f.lit with | some x => [3 * 2 ^ 62 + x] | .none => []))

/-- What the decoder reads from a table row's bits: little-endian parcels, everything above `nbits` zero. -/
def decodeTableWord (nbits w : Nat) : Option Instr :=
  let x := w % 2 ^ nbits
  decodeParcels DecEnv.full [bitsOf x 0 32, bitsOf x 32 32, bitsOf x 64 32]

end Sys2Proof
end

