-- ==== Sys2Proof/Machine/State.lean ====
section
/-! DEFINITION. The machine's state: every piece of state the spec gives, as plain data (INVENTORY.md, State), and the state after reset. -/

namespace Sys2Proof.Machine

/-- Why the machine stops. No instruction of the model ends in a fault: the spec's own faults are traps, which are
next states. -/
inductive Fault where
  /-- Never raised by an instruction: kept for a wave that the walker halted and an event still names. Safe: it stops. -/
  | halted
  deriving DecidableEq, Repr

/-- Why a term has no meaning. -/
inductive Refusal where
  /-- The instruction has no meaning yet; raised by the dispatcher alone. Safe: nothing is claimed about it. -/
  | notModelled (mnemonic : String)
  /-- An instruction of a wave is run while no split issues (`cur` names none). Raised by every wave instruction. Safe:
  the step never runs one so. -/
  | noSplit
  deriving DecidableEq, Repr

/-! ### Waves -/

/-- A reconvergence frame (07 R171). `kind`: 0 JOIN, 1 DEFER, 2 SERIAL. -/
structure Frame where
  maska   : LaneMask
  maskb   : LaneMask
  dpc     : Nat
  outer   : Nat
  noouter : Bool
  orig    : Bool
  link    : Nat
  kind    : Nat
  deriving DecidableEq, Repr

/-- What a split waits in (17 R340, 0x0400): `kind` is WKIND, 0 for a wait the save does not record; `arg` the
barrier, batch, request or count it waits on; `dead` a GTS deadline, 0 for none. (log 23, DESIGN CHOICE) -/
structure Wait where
  kind : Nat
  arg  : Nat
  dead : Nat
  done : Bool
  deriving DecidableEq, Repr

/-- A split entry (07 R171). Frames are bottom first. `widx` is the word index of the next unissued word (08 R198),
`trans` the TRMODE bit (20 R387). -/
structure Split where
  valid   : Bool
  lanes   : LaneMask
  em      : LaneMask
  pc      : Nat
  rpc     : Nat
  norpc   : Bool
  arrived : Bool
  frames  : List Frame
  widx    : Nat
  wait    : Option Wait
  trans   : Bool
  deriving DecidableEq, Repr

/-- An entry that holds no split. -/
def Split.invalid : Split :=
  { valid := false, lanes := 0, em := 0, pc := 0, rpc := 0, norpc := true, arrived := false, frames := [], widx := 0,
    wait := none, trans := false }

/-- How an access came to a line: its context, its selector, the seg-address of the line's first byte and its linear line number, by
which the L1 tags it and a slice is chosen (01 R17, 15 R304, R309). -/
structure Via where
  ctx : Nat
  sel : Nat
  seg : Nat
  lin : Nat
  deriving DecidableEq, Repr

/-- A store entry of SB, PB or HQ (09 R204): one lane's access (10 R238), or a sector that a store writes whole. `kind` is the segment kind
(R302); `cells` are its bytes by physical address, all of one line, or by offset for SCRATCH; `op` the wave's operation it belongs to; `slot` and `param` the protocol slot and the range's parameters as
the access named them. `stamp` is the number of the wave's last operation when the store issued (its place among the engine commands,
R224), `bad` whether the data carry a poison mark (18 R348). -/
structure Entry where
  wave  : Nat
  kind  : Nat
  scope : Nat
  cells : List (Nat × Byte)
  cairn : Option Nat
  nw    : Bool
  op    : Nat
  core  : Nat
  slot  : Nat
  param : Nat
  via   : Via
  stamp : Nat
  bad   : Bool
  deriving DecidableEq, Repr

/-- An item of a store buffer: a store entry or a release marker, with the cairn release it carries (R211, R220). -/
inductive SItem where
  | store (e : Entry)
  | marker (scope : Nat) (rel : Option (Nat × Bool)) (op : Nat)
  deriving DecidableEq, Repr

/-- An item of a publish buffer: an entry, or a barrier of its wave (R209); one of a scope narrower than DEVICE waits only for the wave's
HOST and PEER stores (R214). -/
inductive PItem where
  | store (e : Entry)
  | barrier (wave : Nat) (scope : Nat) (rel : Option (Nat × Bool)) (op : Nat)
  deriving DecidableEq, Repr

/-- One register word to be written when data arrives (R238): the register's code of R28 and the lane. -/
structure RegWrite where
  reg  : Nat
  lane : Nat
  val  : Word
  deriving DecidableEq, Repr

/-- One lane's atomic, not yet applied (R213, R242, R243); `cut` of its bytes lie in its first line, the rest from `addr2` on. `fn`: 0–11 the AOP, 12 compare-and-swap, 13 ATOMDP,
14 FATOM F32, 15 FATOM BF16X2. -/
structure LaneAtom where
  lane  : Nat
  kind  : Nat
  addr  : Nat
  width : Nat
  fn    : Nat
  opnd  : Nat
  cmp   : Nat
  nw    : Bool
  cairn : Option Nat
  slot  : Nat
  param : Nat
  ea    : DWord
  cut   : Nat
  addr2 : Nat
  via   : Via
  deriving DecidableEq, Repr

/-- An operation in flight (R238), which with the store buffer and the queues of commands is what IQ[w] has issued and not finished
(R204, R207): the register codes it will write, the words that have come, the atomics still to
apply, the destination of their old values (none for ZERO), exceptions to OR when it is written (R244). -/
structure Pend where
  op     : Nat
  regs   : List Nat
  writes : List RegWrite
  atoms  : List LaneAtom
  dst    : Option Dst
  wide   : Bool
  fpx    : Nat
  deriving DecidableEq, Repr

/-- An outstanding operation: the flag it decrements, the parts still to complete (R47). -/
structure Op where
  flag : Option Nat
  left : Nat
  deriving DecidableEq, Repr

/-- A unit of the box that an EPI writes to a tensor (06 R149(b), R150): its first element's row and column, how many of its
elements lie in range, its offset, its bytes' physical addresses, and the store entries it makes, one a line, their data still to come. -/
structure EOut where
  m   : Nat
  n   : Nat
  cnt : Nat
  off : Nat
  pas : List Nat
  es  : List Entry
  deriving DecidableEq, Repr

/-- An engine command with what it captured (06 R133, R150, 12 R281). `regs` are captured V registers by number, and once the command
runs the rows of the tile it read; `sregs` captured words; `blk` the parameter block, with the activation table of a saved EPI;
`aux` a handle's B image, or bias bytes; `rec2` the tensor layout record; `em` the lanes; `word` the format word; `addr` an address or
offset; `batch` a copy's batch, or the rows that carry a poison mark, one bit each; `gen` the activation generation, or 1 where an
operand handle's bytes are undefined, or a copy's level; `dst` the codes of the registers it will write; `outs` the units of a tensor it will write. -/
structure Cmd where
  ins     : Instr
  op      : Nat
  guard   : Option Nat
  regs    : Tab (List Word)
  sregs   : Tab Word
  blk     : List Byte
  aux     : List Byte
  rec2    : List Byte
  em      : LaneMask
  word    : Nat
  addr    : DWord
  batch   : Nat
  gen     : Nat
  rngLo   : Word
  rngHi   : Word
  dst     : List Nat
  outs    : List EOut
  started : Bool
  deriving DecidableEq, Repr

/-- A link frame (15 R301). -/
structure LFrame where
  bidx : Nat
  gen  : Nat
  sel  : Nat
  deriving DecidableEq, Repr

/-- A containment frame (18 R352). -/
structure CFrame where
  off     : Nat
  sel     : Nat
  team    : Bool
  lsdepth : Nat
  deriving DecidableEq, Repr

/-- The kernel header's values that a wave runs under (02 R53, R54). -/
structure Kernel where
  native  : Bool
  c16     : Bool
  vregs   : Nat
  sregs   : Nat
  ztiles  : Nat
  scratch : Nat
  codelen : Nat
  illh    : Nat
  sel     : Nat
  koff    : Nat
  deriving DecidableEq, Repr

/-- A resident wave. `rdy` is the GTS since which it has been ready in the pending set (07 R168). `mq`, `eq` and `cq` are its queues; `hm`, `he` and `hc` the commands held while the routine of a save or restore entry
runs (17 R335). -/
structure Wave where
  team    : Nat
  wid     : Nat
  kern    : Kernel
  codesel : Nat
  isel    : Nat
  vr      : Tab (List Word)
  sr      : Tab Word
  pr      : Tab LaneMask
  errs    : List Nat
  flags   : Tab Nat
  guards  : Tab Nat
  fpstat  : Word
  rngLo   : Word
  rngHi   : Word
  rngStream : Word
  rngStep : Word
  trapcode  : Nat
  trapinfo  : Nat
  trappc    : DWord
  faultmask : LaneMask
  faddr     : Tab DWord
  intrap  : Bool
  clvl    : Bool
  plvl    : Bool
  nest    : Bool
  prepend : Bool
  tsplit  : Nat
  swidx0  : Nat
  swidx1  : Nat
  emu     : Tab Word
  linkidx : Word
  linkent : Word
  linkgen : Word
  linksel : Word
  linkname : DWord
  links   : List LFrame
  cframes : List CFrame
  audCore : Word
  audTeam : Word
  audGrid : Word
  splits  : Tab Split
  handler : Option Split
  sb      : List SItem
  pend    : List Pend
  ops     : Tab Op
  opctr   : Nat
  mq      : List Cmd
  eq      : List Cmd
  cq      : List Cmd
  hm      : List Cmd
  he      : List Cmd
  hc      : List Cmd
  bara    : Tab Nat
  baraV   : List Nat
  area    : Nat
  active  : Bool
  age     : Nat
  rdy     : Option Nat
  due     : Option Nat
  unwind  : Option (LaneMask × Tab DWord × Nat)
  restore : Bool
  restored : Bool
  rstop   : Nat
  halted  : Bool
  deriving DecidableEq, Repr

/-! ### Teams and submissions -/

/-- A team barrier (08 R190): phase, and each wave's arrived lanes by WAVEID. -/
structure Barrier where
  phase   : Nat
  arrived : Tab LaneMask
  deriving DecidableEq, Repr

/-- An operand handle (06 R153). -/
structure Handle where
  off    : Nat
  gen    : Nat
  loaded : Bool
  deriving DecidableEq, Repr

/-- A wave of a saved team: what the device keeps of it beside the save area's bytes (17 R341: held commands are
device-private), the lanes it has not exited (08 R190), with the waits its splits were in
and a TEAM unwind still to be carried out. (log 50, DEDUCED) -/
structure Saved where
  area : Nat
  live : LaneMask
  mq   : List Cmd
  eq   : List Cmd
  cq   : List Cmd
  ops  : Tab Op
  opctr : Nat
  due  : Option Nat
  kern : Kernel
  codesel : Nat
  waits : Tab Wait
  unwind : Option (LaneMask × Tab DWord × Nat)
  deriving DecidableEq, Repr

/-- A team (07 R165): resident, or saved with its waves. `ocache` holds, for each handle, the bytes captured first under its current
generation, each with whether a later capture has found it changed (06 R154). `wkeys` are its resident waves' keys in WAVEID order. `trapped` says that it
took a trap other than PREEMPT and OVERCAP; `replay` names the audit that it is a replay of, `rbuf` is that replay's buffer, by physical
address, and `rover` says that it has overflowed (18 R368). -/
structure Team where
  sub      : Nat
  part     : Nat
  core     : Nat
  ctx      : Nat
  x        : Nat
  y        : Nat
  z        : Nat
  linear   : Nat
  gridid   : Nat
  teamw    : Nat
  monq     : Nat
  fdom     : Nat
  prio     : Nat
  seed     : DWord
  param    : DWord
  audit    : Bool
  tiles    : List Nat
  granules : List Nat
  scratch  : Tab Byte
  smark    : List Nat
  bars     : Tab Barrier
  handles  : Tab Handle
  ocache   : Tab (List (Byte × Bool))
  wkeys    : Tab Nat
  saved    : Tab Saved
  away     : Bool
  age      : Nat
  sig      : DWord
  trapped  : Bool
  replay   : Option Nat
  rbuf     : Tab Byte
  rover    : Bool
  deriving DecidableEq, Repr

/-- A submission of a region control block (07 R156–R167): where the block is, who submitted it and at what level,
its launch order, its block as the walker read it, its effective values by item of R157, its parent's submission, the
next team to admit, the retired teams, the launch pin (15 R327). `state` is STATE; 6 for a done block whose parent has not been posted
yet, 7 for one whose wake write has not been made yet, 8 for one that is over while a submission below it is not. -/
structure Sub where
  part   : Nat
  block  : DWord
  ctx    : Nat
  level  : Bool
  boot   : Bool
  pa     : Nat
  rcb    : List Byte
  gridid : Nat
  leaf   : Bool
  state  : Nat
  eff    : List Nat
  parent : Option Nat
  next   : Nat
  tdone  : Nat
  kern   : Kernel
  pin    : Option LFrame
  deriving DecidableEq, Repr

/-! ### Cores, clusters, partitions -/

/-- A table an ACTLD waits to install (06 R152): whose operation it is, its context, its words. -/
structure ActWait where
  team : Nat
  wid  : Nat
  op   : Nat
  ctx  : Nat
  tab  : List Word
  deriving DecidableEq, Repr

/-- An activation bank (06 R151): the table's 256 (slope, intercept) words, its owner, its generation, the tables that wait to
be installed, oldest first. -/
structure ActBank where
  loaded : Bool
  owner  : Nat
  gen    : Nat
  tab    : List Word
  queue  : List ActWait
  deriving DecidableEq, Repr

/-- A reduce partial of one line at a core (11 R272): words held (by index), format, whether every deposit was .NW, the
cairn its line was bound to. -/
structure Partial where
  line  : Nat
  words : Tab Word
  fp    : Bool
  nw    : Bool
  age   : Nat
  cairn : Option Nat
  deriving DecidableEq, Repr

structure Core where
  ltime   : Nat
  period  : Nat
  tiles   : Tab (List Word)
  tmark   : List Nat
  act0    : ActBank
  act1    : ActBank
  parts   : List Partial
  deriving DecidableEq, Repr

/-- A tag that a cluster copy was filled under (15 R309, R311), the page's WP, the cairn its descriptor binds (09 R216). -/
structure Tag where
  via   : Via
  wp    : Bool
  cairn : Option Nat
  deriving DecidableEq, Repr

/-- A cluster copy of a line (09 R204): its bytes, lease timestamps, the cores it has expired for (11 R269), whether the cluster owns
it, whether one of the cluster's stores has been sent through since its fill (R254), the tags it was filled under. -/
structure Copy where
  line    : Nat
  bytes   : List Byte
  marks   : List Nat
  lease   : Bool
  wts     : Nat
  rts     : Nat
  expired : List Nat
  owned   : Bool
  stored  : Bool
  tags    : List Tag
  deriving DecidableEq, Repr

/-- A message from a home on its way to a cluster (11 R258(d)); a fill names the core that asked, a push the marks of the line's sectors
that it touches. -/
inductive Msg where
  | fill (c : Copy) (core : Nat)
  | inv (line : Nat)
  | push (line : Nat) (off : Nat) (bytes : List Byte) (marks : List Nat)
  deriving DecidableEq, Repr

/-- A request in a FIFO bank's wait order (10 R241): the split, the words to push, or the register words to pop into, and its
operation. -/
structure QReq where
  wave  : Nat
  entry : Nat
  push  : Bool
  words : List Word
  dests : List (Nat × Nat)
  op    : Nat
  deriving DecidableEq, Repr

/-- An SRAM bank that is not in its delivery mode, or a FIFO bank (10 R231). `mode`: 0 CACHE, 1 SCRATCH, 2 FIFO. -/
structure Bank where
  mode  : Nat
  ctx   : Nat
  words : List (Word × Bool)
  wait  : List QReq
  deriving DecidableEq, Repr

/-- A bank leaving CACHE (R234): the mode it goes to, the wave's operation, the lines still to handle. -/
structure Switch where
  bank : Nat
  mode : Nat
  ctx  : Nat
  team : Nat
  wid  : Nat
  op   : Nat
  todo : List Nat
  deriving DecidableEq, Repr

/-- A cached descriptor (15 R303): its context id, its selector and its 32 bytes. -/
structure DescEnt where
  ctx  : Nat
  sel  : Nat
  data : List Byte
  deriving DecidableEq, Repr

/-- A cached translation (15 R312): its context id, whether the supervisor's page table gave it, page base and size in linear address
bits, frame, WP. -/
structure TlbEnt where
  ctx  : Nat
  sup  : Bool
  page : Nat
  bits : Nat
  pa   : Nat
  wp   : Bool
  deriving DecidableEq, Repr

/-- An instruction-cache line (15 R313): tag, bytes, poisoned sectors. -/
structure ILine where
  ctx   : Nat
  sel   : Nat
  idx   : Nat
  bytes : List Byte
  marks : List Nat
  deriving DecidableEq, Repr

/-- A LATT entry a cluster holds (15 R316). -/
structure LattEnt where
  ctx : Nat
  sel : Nat
  idx : Nat
  val : DWord
  deriving DecidableEq, Repr

/-- A shootdown a cluster has not carried out yet (15 R313). -/
structure Shoot where
  id   : Nat
  mode : Nat
  ctx  : Nat
  sel  : Nat
  deriving DecidableEq, Repr

/-- A shootdown of a partition (15 R313, R314): the clusters still to acknowledge, the descriptor whose XREV it clears then,
and the team, wave and operation of the UNBIND that waits for it. -/
structure ShootWait where
  id   : Nat
  left : List Nat
  xrev : Option (Nat × Nat)
  fin  : Option (Nat × Nat × Nat)
  deriving DecidableEq, Repr

/-- A copy in one of the 64 slots (12 R282), of a wave of a team, with the partition and the context it was issued in; how many of its
units it has moved, how many bits, whether a mark was carried, and, where it overlaps itself, its source bytes as it began. -/
structure BteCopy where
  team  : Nat
  wid   : Nat
  wave  : Nat
  area  : Nat
  part  : Nat
  ctx   : Nat
  cmd   : Cmd
  moved : Nat
  bits  : Nat
  bad   : Bool
  first : List (List (Byte × Bool))
  wrote : Tab (Nat × Nat)
  deriving DecidableEq, Repr

/-- A range operation under way (10 R249): lines left, 0 RINV, 1 RINV.WB, 2 RFLUSH. -/
structure RangeJob where
  wave  : Nat
  team  : Nat
  wid   : Nat
  op    : Nat
  kind  : Nat
  lines : List Nat
  deriving DecidableEq, Repr

/-- A cluster: its banks, the ordering machine's K[k] and PB[k], the messages on their way to it, its caches, its shootdowns and bank
switches, its copy engine's slots and the wave whose queue that engine served last (12 R282). -/
structure Cluster where
  banks    : Tab Bank
  copies   : List Copy
  pb       : List PItem
  msgs     : List Msg
  desc     : List DescEnt
  tlb      : List TlbEnt
  icache   : List ILine
  latt     : List LattEnt
  shoots   : List Shoot
  switches : List Switch
  slots    : Tab BteCopy
  bteLast  : Nat
  deriving DecidableEq, Repr

/-- A coherence protocol in a slot (11 R255). Cells by 16 × state + event. -/
structure Protocol where
  nstates : Nat
  reset   : Nat
  cls     : Nat
  wonce   : Bool
  kinds   : Nat
  attr    : List Nat
  cells   : List Nat
  deriving DecidableEq, Repr

/-- A translation installed for an image (20 R381): the context (4096 for the supervisor table), selector and offset of the kernel header, CODELEN,
key, target table, native words, and whether it has been withdrawn (R382(c)). Its offsets count from the kernel header and from the first
native word. -/
structure Translation where
  ctx   : Nat
  sel   : Nat
  off   : Nat
  len   : Nat
  key   : BitVec 512
  table : List (Nat × Nat)
  words : List DWord
  gone  : Bool
  deriving DecidableEq, Repr

/-- A signed translation in the Cistern store (20 R383, R386): its bytes as the record's map lays them out, the order of its last use, and
the partitions that have used it since their last reset (R385). -/
structure CistEnt where
  key    : BitVec 512
  featv  : DWord
  signer : BitVec 512
  sig    : BitVec 1056
  image  : List Byte
  table  : List (Nat × Nat)
  used   : Nat
  by_    : List Nat
  deriving DecidableEq, Repr

/-- An erase block of the Cistern store (20 R385): how often it has been erased, the bytes that discarded entries take in it until the next
erase, its entries, oldest first. -/
structure CistBlock where
  erases : Nat
  dead   : Nat
  ents   : List CistEnt
  deriving DecidableEq, Repr

/-- A translation found for an image and not yet verified (20 R384, R386); `oasis` says that it came from the pool. -/
structure Found where
  ctx   : Nat
  sel   : Nat
  off   : Nat
  len   : Nat
  ent   : CistEnt
  oasis : Bool
  deriving DecidableEq, Repr

/-- A PROTLD waiting for the homes to install (11 R260). -/
structure ProtJob where
  slot : Nat
  tab  : Option Protocol
  team : Nat
  wid  : Nat
  op   : Nat
  deriving DecidableEq, Repr

/-- An audit of a selected team (18 R368): its number, the team as it retired, whether a third replay is wanted, the cores and signatures
of its replays so far, the replay that runs. -/
structure Audit where
  id      : Nat
  team    : Team
  third   : Bool
  cores   : List Nat
  sigs    : List DWord
  running : Option Nat
  deriving DecidableEq, Repr

/-- A block handed to the walker that it has not taken yet (08 R194, 22 R395): the block's seg-address and physical address, the
submitter's context and level, whether it is a boot block, and the LAUNCH that waits: its wave and operation. -/
structure Submit where
  block : DWord
  pa    : Nat
  ctx   : Nat
  level : Bool
  boot  : Bool
  wave  : Nat
  op    : Nat
  deriving DecidableEq, Repr

structure Part where
  running  : Bool
  power    : Nat
  svec     : DWord
  ctxt     : Nat
  ctxtn    : Nat
  svseg    : Nat
  svsegn   : Nat
  svpt     : Nat
  leafs    : Nat
  prots    : Tab Protocol
  protjobs : List ProtJob
  cewin    : Nat
  cethr    : Nat
  cestart  : Nat
  evbase   : DWord
  evcount  : Nat
  evhead   : Nat
  audctl   : Nat
  audseq   : Nat
  audok    : Nat
  audbad   : Nat
  audskip  : Nat
  fdpend   : List Nat
  audits   : List Audit
  blames   : Tab (Word × Word × Word)
  trctl    : Nat
  trbuilt  : Nat
  trhitc   : Nat
  trhito   : Nat
  trrej    : Nat
  oasbase  : DWord
  trans    : List Translation
  found    : List Found
  shootctr : Nat
  waiting  : List ShootWait
  ranges   : List RangeJob
  unpins   : List (Nat × LFrame × Bool)
  launches : List Submit
  order    : Nat
  deriving DecidableEq, Repr

/-! ### Homes and the rest of the module -/

/-- A directory entry (11 R252, R257, R267). -/
structure Dir where
  slot    : Nat
  st      : Nat
  sharers : List Nat
  owner   : Option Nat
  wts     : Nat
  rts     : Nat
  fresh   : Bool
  partials : List Nat
  deriving DecidableEq, Repr

/-- A monitor entry (09 R223): the wave and split armed, and the line watched; for SCRATCH the team and the line of
its allocation. -/
structure Mon where
  wave  : Nat
  entry : Nat
  team  : Option Nat
  line  : Nat
  deriving DecidableEq, Repr

/-- A request in a cairn's FIFO (09 R218). -/
structure CairnReq where
  wave  : Nat
  entry : Nat
  ex    : Bool
  deriving DecidableEq, Repr

/-- A release message in a cairn's home queue (09 R220): the mode, the scope, the releasing wave and its operation. -/
structure RelMsg where
  ex    : Bool
  scope : Nat
  wave  : Nat
  op    : Nat
  deriving DecidableEq, Repr

/-- An item of a home queue (09 R204): a store entry as a PUTW, the bytes of a recalled owner, which are applied before the request that
stands behind them (11 R258(b)), or a cairn's release message (R220). -/
inductive HItem where
  | store (e : Entry)
  | recalled (e : Entry)
  | release (pa : Nat) (r : RelMsg)
  deriving DecidableEq, Repr

/-- A unit of the machine that can fail (18 R356, R357), by its logical number. `phys` is the physical unit behind it; `state`: 0 NORMAL,
1 declared lasting, 2 removed; `decl` its place in the order of declarations, `target` the logical bank reserved for its contents, `moved`
the bitmap of copied lines (R359). -/
structure UnitRec where
  key   : EUnit
  phys  : Nat
  count : Nat
  state : Nat
  decl  : Nat
  target : Option Nat
  moved : List Nat
  deriving DecidableEq, Repr

/-- The module outside the partitions (22). Answers (opcode, code) and SPDM answers are appended as the host would read them, `cxl`
holds the CXL event records (R404), `reads`
(agent, address, bytes) of accesses from outside: agent 0 the host, n + 1 peer n; no bytes for a refusal or a poison indication. `temps` holds
each die's last reading that a clamp reported. -/
structure Module where
  trust     : List (BitVec 512)
  cistern   : Tab CistBlock
  cistUse   : Nat
  running   : List Byte
  stored    : Option (List Byte)
  rollback  : Nat
  answers   : List (Nat × Nat)
  spdm      : List (List Byte)
  alerts    : List (Nat × Nat)
  cxl       : List (Nat × Nat)
  clamp     : Bool
  temps     : Tab Nat
  reads     : List (Nat × Nat × List Byte)
  refused   : List Nat
  deriving DecidableEq, Repr

/-- Which agent moves next (log 1, DESIGN CHOICE): a split issues, a machine event happens, a clock tick passes, a TLB entry or
instruction line is dropped, a walker pre-empts a team. -/
inductive Choice where
  | issue (w e : Nat)
  | event (i : Instr)
  | tick (n : Nat)
  | preempt (team : Nat)
  deriving DecidableEq, Repr

/-- What is being executed (log 4, DESIGN CHOICE): its wave and split, its address and the place after it, its raw fields, and, for
half 1 of a pair, the wave as half 0 found it (02 R44). `trapped` records that the instruction trapped. -/
structure Cur where
  wave    : Nat
  entry   : Nat
  pc      : Nat
  base    : Nat
  next    : Nat
  nextw   : Nat
  widx    : Nat
  raw     : Raw
  snap    : Option Wave
  trapped : Bool
  deriving DecidableEq, Repr

/-- The machine. `agenda`, `turn`, `freeCtr` and `cur` are the model's own (log 1, log 2, log 4); `rot` and `rote` are the default
scheduler's rotation: the wave a quadrant issued from last, the split a wave issued from last (07 R169). -/
structure State where
  gts     : Nat
  agenda  : List Choice
  turn    : Nat
  rot     : Tab Nat
  rote    : Tab Nat
  freeCtr : Nat
  cur     : Option Cur
  waves   : Tab Wave
  teams   : Tab Team
  teamctr : Nat
  subs    : Tab Sub
  cores   : Tab Core
  clusters : Tab Cluster
  parts   : Tab Part
  mem     : List Host.Cell
  marks   : List Nat
  hq      : Tab (List HItem)
  dir     : Tab Dir
  mon     : List Mon
  cairns  : Tab (List CairnReq)
  qregs   : Tab Nat
  ztiles  : Tab Nat
  sramb   : Tab Nat
  msckb   : Tab Nat
  audfail : Tab Nat
  units   : List UnitRec
  modu    : Module
  deriving DecidableEq, Repr

/-! ### Reset -/

/-- An activation bank never loaded (R151); the generation is a DESIGN CHOICE (log 3). -/
def ActBank.empty : ActBank := { loaded := false, owner := 0, gen := 0, tab := [], queue := [] }

/-- A core after reset (08 R203, log 8, DESIGN CHOICE). -/
def Core.reset : Core :=
  { ltime := 0, period := 0, tiles := [], tmark := [], act0 := .empty, act1 := .empty, parts := [] }

/-- A cluster after reset. -/
def Cluster.reset : Cluster :=
  { banks := [], copies := [], pb := [], msgs := [], desc := [], tlb := [], icache := [], latt := [], shoots := [],
    switches := [], slots := [], bteLast := 0 }

/-- A bank's delivery mode: 0–95 CACHE, 96–127 SCRATCH (01 R16). -/
def Bank.delivery (b : Nat) : Bank := { mode := if b < 96 then 0 else 1, ctx := 0, words := [], wait := [] }

/-- A partition held in reset: every register at the reset value its map states. (log 3, DESIGN CHOICE) -/
def Part.reset : Part :=
  { running := false, power := 0, svec := 0, ctxt := 0, ctxtn := 0, svseg := 0, svsegn := 0, svpt := 0, leafs := 0,
    prots := [], protjobs := [], cewin := 10000000, cethr := 3, cestart := 0, evbase := 0, evcount := 0, evhead := 0,
    audctl := 0, audseq := 0, audok := 0, audbad := 0, audskip := 0, fdpend := List.replicate 8 0, audits := [],
    blames := [], trctl := 5, trbuilt := 0, trhitc := 0, trhito := 0, trrej := 0, oasbase := 0, trans := [], found := [],
    shootctr := 0, waiting := [], ranges := [], unpins := [], launches := [], order := 0 }

/-- (log 3, DESIGN CHOICE; log 7, DESIGN CHOICE) -/
def Module.reset : Module :=
  { trust := [], cistern := [], cistUse := 0, running := [], stored := none, rollback := 0, answers := [], spdm := [],
    alerts := [], cxl := [], clamp := false, temps := [], reads := [], refused := [] }

/-- The module right after reset: every partition held in reset (22 R395), no wave, memory with nothing listed. (log 3, DESIGN CHOICE) -/
def State.reset : State :=
  { gts := 0, agenda := [], turn := 0, rot := [], rote := [], freeCtr := 0, cur := none, waves := [], teams := [], teamctr := 0,
    subs := [], cores := [], clusters := [], parts := [], mem := [], marks := [], hq := [], dir := [], mon := [],
    cairns := [], qregs := [], ztiles := [], sramb := [], msckb := [], audfail := [], units := [], modu := Module.reset }

end Sys2Proof.Machine
end

