-- ==== Sys2Proof/Machine/Base.lean ====
section
/-! DEFINITION. Tables by number, memory bytes in canonical form, and the accessors of the state's parts. -/

namespace Sys2Proof.Machine

/-! ### Tables by number -/

/-- The entry of a key. -/
def tfind {α : Type} (t : Tab α) (k : Nat) : Option α :=
  match t with
  | [] => none
  | (j, a) :: r => if k = j then some a else tfind r k

/-- The entry of a key, or what an absent key reads as. -/
def tget {α : Type} (d : α) (t : Tab α) (k : Nat) : α := (tfind t k).getD d

/-- Put an entry, keys staying in ascending order. -/
def tput {α : Type} (t : Tab α) (k : Nat) (a : α) : Tab α :=
  match t with
  | [] => [(k, a)]
  | (j, b) :: r => if k < j then (k, a) :: (j, b) :: r else if k = j then (k, a) :: r else (j, b) :: tput r k a

/-- Remove a key. -/
def tdel {α : Type} (t : Tab α) (k : Nat) : Tab α :=
  match t with
  | [] => []
  | (j, b) :: r => if k = j then tdel r k else (j, b) :: tdel r k

/-- Set an entry; the value an absent key reads as is not listed. -/
def tset {α : Type} [DecidableEq α] (d : α) (t : Tab α) (k : Nat) (a : α) : Tab α := if a = d then tdel t k else tput t k a

/-- Change every entry. -/
def tmap {α : Type} (f : Nat → α → α) (t : Tab α) : Tab α := t.map fun p => (p.1, f p.1 p.2)

/-- Replace the first element of a list that satisfies a test; or the element at an index. -/
def lset {α : Type} (l : List α) (i : Nat) (a : α) : List α :=
  match l, i with
  | [], _ => []
  | _ :: r, 0 => a :: r
  | x :: r, n + 1 => x :: lset r n a

/-- Remove the element at an index. -/
def ldel {α : Type} (l : List α) (i : Nat) : List α :=
  match l, i with
  | [], _ => []
  | _ :: r, 0 => r
  | x :: r, n + 1 => x :: ldel r n

/-! ### Memory -/

/-- Memory: bytes by physical address (15 R311), addresses strictly rising, no byte equal to what an unlisted one reads. -/
abbrev Memory := List Host.Cell

/-- What an unlisted byte reads as: 0, a DESIGN CHOICE (log 5). -/
def unlistedByte : Byte := 0

/-- The canonical form. (log 5, DESIGN CHOICE) -/
def Memory.wf : Memory → Bool
  | [] => true
  | [c] => c.2 != unlistedByte
  | c :: d :: r => c.2 != unlistedByte && c.1 < d.1 && Memory.wf (d :: r)

/-- The byte at an address. (log 5, DESIGN CHOICE) -/
def memGet (m : Memory) (a : Nat) : Byte := tget unlistedByte m a

/-- Write one byte. (log 5, DESIGN CHOICE) -/
def memSet (m : Memory) (a : Nat) (b : Byte) : Memory := tset unlistedByte m a b

/-- Write bytes from an address up. (log 5, DESIGN CHOICE) -/
def memPuts (m : Memory) (a : Nat) (l : List Byte) : Memory :=
  match l with
  | [] => m
  | b :: r => memPuts (memSet m a b) (a + 1) r

/-- Write bytes, each at its address. (log 5, DESIGN CHOICE) -/
def memCells (m : Memory) (l : List (Nat × Byte)) : Memory := l.foldl (fun m c => memSet m c.1 c.2) m

/-- The bytes of a range. -/
def memGets (m : Memory) (a n : Nat) : List Byte := (List.range n).map fun i => memGet m (a + i)

/-- Bytes as a little-endian number (00 R3). -/
def leNat (l : List Byte) : Nat :=
  match l with
  | [] => 0
  | b :: r => b.toNat + 256 * leNat r

/-- A number as `n` little-endian bytes. -/
def leBytes (n x : Nat) : List Byte :=
  match n with
  | 0 => []
  | k + 1 => BitVec.ofNat 8 x :: leBytes k (x / 256)

/-- A little-endian number in memory. -/
def memNat (m : Memory) (a n : Nat) : Nat := leNat (memGets m a n)

/-- Bytes `[off, off + n)` of a byte list, as a number. -/
def natAt (l : List Byte) (off n : Nat) : Nat := leNat ((l.drop off).take n)

/-- A 32-bit word of a byte list. -/
def wordAt (l : List Byte) (off : Nat) : Word := BitVec.ofNat 32 (natAt l off 4)

/-! ### Lists of numbers as sets -/

/-- Insert into an ascending list without repeats. -/
def sins (l : List Nat) (x : Nat) : List Nat :=
  match l with
  | [] => [x]
  | y :: r => if x < y then x :: y :: r else if x = y then y :: r else y :: sins r x

/-- Remove from a list. -/
def srem (l : List Nat) (x : Nat) : List Nat := l.filter (· != x)

/-! ### Where a wave is (01 R11) -/

/-- A wave's key is 32 × quadrant + slot. -/
def quadOfKey (k : Nat) : Nat := k / 32
def coreOfKey (k : Nat) : Nat := k / 128
def clusterOfKey (k : Nat) : Nat := k / 512
def partOfKey (k : Nat) : Nat := k / 6144

/-- Whether the arithmetic clock of a partition runs: in I1 it is stopped, in I2 the compute die is off (01 R23, 22 R401). -/
def State.clocked (s : State) (p : Nat) : Bool := (tget Part.reset s.parts p).power < 8

/-! ### The state's parts -/

def State.wave? (s : State) (k : Nat) : Option Wave := tfind s.waves k
def State.putWave (s : State) (k : Nat) (w : Wave) : State := { s with waves := tput s.waves k w }
def State.core (s : State) (q : Nat) : Core := tget Core.reset s.cores q
def State.putCore (s : State) (q : Nat) (c : Core) : State := { s with cores := tset Core.reset s.cores q c }
def State.cluster (s : State) (k : Nat) : Cluster := tget Cluster.reset s.clusters k
def State.putCluster (s : State) (k : Nat) (c : Cluster) : State := { s with clusters := tset Cluster.reset s.clusters k c }
def State.part (s : State) (p : Nat) : Part := tget Part.reset s.parts p
def State.putPart (s : State) (p : Nat) (x : Part) : State := { s with parts := tset Part.reset s.parts p x }
def State.team? (s : State) (t : Nat) : Option Team := tfind s.teams t
def State.putTeam (s : State) (t : Nat) (x : Team) : State := { s with teams := tput s.teams t x }

/-- Change a wave, if it is resident. -/
def State.modWave (s : State) (k : Nat) (f : Wave → Wave) : State :=
  match s.wave? k with
  | none => s
  | some w => s.putWave k (f w)

/-- Change a team, if there is one. -/
def State.modTeam (s : State) (t : Nat) (f : Team → Team) : State :=
  match s.team? t with
  | none => s
  | some x => s.putTeam t (f x)

def State.modCluster (s : State) (k : Nat) (f : Cluster → Cluster) : State := s.putCluster k (f (s.cluster k))
def State.modPart (s : State) (p : Nat) (f : Part → Part) : State := s.putPart p (f (s.part p))
def State.modCore (s : State) (q : Nat) (f : Core → Core) : State := s.putCore q (f (s.core q))

/-- A bank's record. -/
def Cluster.bank (c : Cluster) (b : Nat) : Bank := tget (Bank.delivery b) c.banks b
def Cluster.putBank (c : Cluster) (b : Nat) (x : Bank) : Cluster := { c with banks := tset (Bank.delivery b) c.banks b x }

/-! ### Registers -/

/-- A register none of whose lanes has been written. -/
def zeroLanes : List Word := List.replicate 32 0

/-- V register `n` at a lane. -/
def Wave.v (w : Wave) (n l : Nat) : Word := (tget zeroLanes w.vr n).getD l 0
/-- S register `n`. -/
def Wave.s (w : Wave) (n : Nat) : Word := tget 0 w.sr n
/-- Predicate `n`, 15 the constant true (R31). -/
def Wave.p (w : Wave) (n : Nat) : LaneMask := if n = 15 then allOnes else tget 0 w.pr n

/-- Write every lane of V register `n`. -/
def Wave.putV (w : Wave) (n : Nat) (f : Nat → Word) : Wave := { w with vr := tset zeroLanes w.vr n (allLanes.map f) }
def Wave.putS (w : Wave) (n : Nat) (x : Word) : Wave := { w with sr := tset 0 w.sr n x }
def Wave.putP (w : Wave) (n : Nat) (m : LaneMask) : Wave := { w with pr := tset 0 w.pr n m }

/-- Write V register `n` at the lanes of a mask only. -/
def Wave.putVm (w : Wave) (n : Nat) (m : LaneMask) (f : Nat → Word) : Wave :=
  w.putV n fun l => if laneOf m l then f l else w.v n l

/-- Write predicate `n` at the lanes of a mask only. -/
def Wave.putPm (w : Wave) (n : Nat) (m : LaneMask) (f : Nat → Bool) : Wave :=
  w.putP n (maskWhere fun l => if laneOf m l then f l else laneOf (w.p n) l)

/-- A flag's count. -/
def Wave.flag (w : Wave) (k : Nat) : Nat := tget 0 w.flags k
def Wave.putFlag (w : Wave) (k n : Nat) : Wave := { w with flags := tset 0 w.flags k n }

/-- The low word of a 64-bit value, and the high word. -/
def loWord (x : DWord) : Word := x.truncate 32
def hiWord (x : DWord) : Word := (x >>> 32).truncate 32
def dword (lo hi : Word) : DWord := BitVec.ofNat 64 (lo.toNat + hi.toNat * 2 ^ 32)

/-- The pair S[n]:S[n+1] (R3: the even register is the low half). -/
def Wave.s64 (w : Wave) (n : Nat) : DWord := dword (w.s n) (w.s (n + 1))
def Wave.v64 (w : Wave) (n l : Nat) : DWord := dword (w.v n l) (w.v (n + 1) l)
def Wave.putS64 (w : Wave) (n : Nat) (x : DWord) : Wave := (w.putS n (loWord x)).putS (n + 1) (hiWord x)
def Wave.putV64 (w : Wave) (n : Nat) (m : LaneMask) (f : Nat → DWord) : Wave :=
  (w.putVm n m fun l => loWord (f l)).putVm (n + 1) m fun l => hiWord (f l)

/-- Whether compat16 applies: the header's bit, at user level (21 R391). -/
def Wave.c16 (w : Wave) : Bool := w.kern.c16 && !w.clvl

/-! ### Splits -/

/-- Entry 0–7 of the split table, or 8 for the handler split. -/
def Wave.split (w : Wave) (e : Nat) : Split := if e = 8 then w.handler.getD Split.invalid else tget Split.invalid w.splits e

def Wave.putSplit (w : Wave) (e : Nat) (x : Split) : Wave :=
  if e = 8 then { w with handler := some x } else { w with splits := tset Split.invalid w.splits e x }

def Wave.modSplit (w : Wave) (e : Nat) (f : Split → Split) : Wave := w.putSplit e (f (w.split e))

/-- The entries that hold a split. -/
def Wave.validEntries (w : Wave) : List Nat := (List.range 8).filter fun e => (tget Split.invalid w.splits e).valid

/-- Every lane a split answers for: its own and those its frames hold. -/
def Split.allLanes (x : Split) : LaneMask :=
  x.frames.foldl (fun m f => if f.kind = 0 then m else m ||| f.maska) x.lanes

/-- Every lane of the wave that has not exited. -/
def Wave.liveLanes (w : Wave) : LaneMask :=
  w.validEntries.foldl (fun m e => m ||| (w.split e).allLanes) 0

/-- EXIT's removal of lanes from every entry and every frame of the wave (R174). -/
def Split.dropLanes (x : Split) (m : LaneMask) : Split :=
  { x with lanes := x.lanes &&& ~~~m, em := x.em &&& ~~~m,
           frames := x.frames.map fun f => { f with maska := f.maska &&& ~~~m, maskb := f.maskb &&& ~~~m } }

def Wave.dropLanes (w : Wave) (m : LaneMask) : Wave :=
  { w with splits := tmap (fun _ x => x.dropLanes m) w.splits, handler := w.handler.map (·.dropLanes m) }

/-! ### The split that is executing -/

/-- The current wave and what is executing, if a split is. (log 4, DESIGN CHOICE) -/
def State.here (s : State) : Option (Cur × Wave) :=
  match s.cur with
  | none => none
  | some c => (s.wave? c.wave).map fun w => (c, w)

/-- The wave as the executing instruction reads it: half 1 of a pair reads what half 0 read (R44). -/
def Cur.reads (c : Cur) (w : Wave) : Wave := c.snap.getD w

/-- Move the executing split past its instruction and end any wait it was in. -/
def Wave.advance (w : Wave) (c : Cur) : Wave :=
  w.modSplit c.entry fun x => { x with pc := c.next, widx := c.nextw, wait := none }

/-- A draw of a free 32-bit value (log 2, DESIGN CHOICE). -/
def State.draw (s : State) : Word × State := (Config.freeWord s.freeCtr, { s with freeCtr := s.freeCtr + 1 })
/-- (log 2, DESIGN CHOICE) -/
def State.drawByte (s : State) : Byte × State := (Config.freeByte s.freeCtr, { s with freeCtr := s.freeCtr + 1 })

end Sys2Proof.Machine
end

