-- ==== Sys2Proof/Machine/Segs.lean ====
section
/-! DEFINITION. Segments and translation: context records, descriptors, page walks, the checks of an access (10 R236, 15 R299–R312). -/

namespace Sys2Proof.Machine

/-- Selector and offset of a seg-address (02 R27). -/
def selOf (a : DWord) : Nat := a.toNat / 2 ^ 44
def offOf (a : DWord) : Nat := a.toNat % 2 ^ 44
def segAddr (sel off : Nat) : DWord := BitVec.ofNat 64 (sel * 2 ^ 44 + off)

/-- The key of an image that lies in the supervisor's segments (20 R381). -/
def supKey : Nat := 4096

/-- Who makes an access: cluster, partition, context, level (R300), team for SCRATCH and the numbers PRIVATE needs; `unit` says that it is
a unit of the partition and no wave, for which no context record is read (R423). -/
structure Who where
  k     : Nat
  part  : Nat
  ctx   : Nat
  sup   : Bool
  team  : Nat
  wave  : Nat
  unit  : Bool := false
  deriving DecidableEq, Repr

/-- Whether an address lies in the memory of a partition that is held in reset (22 R397). (log 63, DEDUCED) -/
def State.downAt (s : State) (pa : Nat) : Bool := pa / 2 ^ 48 < 8 && !(s.part (pa / 2 ^ 48 % 4)).running

/-- Whether a team is a replay (18 R368), the byte its buffer holds for an address, bytes written to its buffer. -/
def State.replaying (s : State) (team : Nat) : Bool := (s.team? team).any (·.replay.isSome)
/-- (log 60, DEDUCED) -/
def State.replayByte (s : State) (team a : Nat) : Option Byte := (s.team? team).bind fun t => if t.replay.isSome then tfind t.rbuf a else none
/-- (log 60, DEDUCED) -/
def State.replayCells (s : State) (team : Nat) (cs : List (Nat × Byte)) : State :=
  s.modTeam team fun t =>
    let buf := cs.foldl (fun (m : Tab Byte) p => tput m p.1 p.2) t.rbuf
    { t with rbuf := buf, rover := t.rover || Config.replayBytes < buf.length }

/-- The line of an entry; one of SCRATCH has none. -/
def Entry.line (e : Entry) : Nat := (e.cells.headD (0, 0)).1 / 128

/-- The byte an entry writes at an address. -/
def Entry.byteAt (e : Entry) (a : Nat) : Option Byte := (e.cells.find? (·.1 == a)).map (·.2)

/-- Whether an entry writes a byte of a range. -/
def Entry.covers (e : Entry) (a n : Nat) : Bool := e.cells.any fun c => a ≤ c.1 && c.1 < a + n

/-- Whether two entries write a common byte of one space (SCRATCH offsets and physical addresses are apart). -/
def Entry.clash (e f : Entry) : Bool := (e.kind == 1) == (f.kind == 1) && e.cells.any fun c => (f.byteAt c.1).isSome

/-- Bytes from an address up, each with its address. -/
def cellsAt (a : Nat) : List Byte → List (Nat × Byte)
  | [] => []
  | b :: r => (a, b) :: cellsAt (a + 1) r

/-- The store entry of an item of a home queue. -/
def HItem.entry? : HItem → Option Entry
  | .store e => some e
  | .recalled e => some e
  | .release .. => none

def State.replayPut (s : State) (team a : Nat) (b : List Byte) : State := s.replayCells team (cellsAt a b)

/-- The bytes the home of a range gives once everything in its home queue is applied (09 R208 source 4). -/
def hqOver (l : List HItem) (a : Nat) (b : Byte) : Byte :=
  l.foldl (fun acc x => ((x.entry?).bind fun e => e.byteAt a).getD acc) b

def State.homeByte (s : State) (a : Nat) : Byte := hqOver (tget [] s.hq (a / 128)) a (memGet s.mem a)
def State.homeBytes (s : State) (a n : Nat) : List Byte := (List.range n).map fun i => s.homeByte (a + i)
def State.homeNat (s : State) (a n : Nat) : Nat := leNat (s.homeBytes a n)

/-- Whether the home gives a byte with a poison mark: its sector's, or that of data in the home queue; the home of a partition held in
reset gives every byte so (22 R394, R397). (log 29, DEDUCED; log 63, DEDUCED) -/
def State.homeMark (s : State) (a : Nat) : Bool :=
  s.downAt a || s.marks.contains (a / 32) || (tget [] s.hq (a / 128)).any fun x => (x.entry?).any fun e => e.bad && e.covers (a / 32 * 32) 32

/-- Whether a read of a home's bytes meets a poison mark (18 R349). -/
def State.marked (s : State) (pa n : Nat) : Bool :=
  n != 0 && (List.range ((pa + n - 1) / 32 - pa / 32 + 1)).any fun i => s.homeMark (32 * (pa / 32 + i))

/-! ### Context records (R299, R423) -/

/-- A context's record, if its id lies in the table and its VALID is set. -/
def State.ctxRec (s : State) (p ctx : Nat) : Option (List Byte) :=
  let x := s.part p
  if ctx < x.ctxtn then
    let b := s.homeBytes (x.ctxt + 128 * ctx) 128
    if bitOf (natAt b 0 4) 0 then some b else none
  else none

def recLevel (b : List Byte) : Bool := bitOf (natAt b 0 4) 1
def recSegn (b : List Byte) : Nat := natAt b 4 4 % 2 ^ 20
def recSegtab (b : List Byte) : Nat := natAt b 8 8 % 2 ^ 52
def recPtroot (b : List Byte) : Nat := natAt b 0x10 8 % 2 ^ 52
def recBindtab (b : List Byte) : Nat := natAt b 0x18 8 % 2 ^ 52
def recBindn (b : List Byte) : Nat := natAt b 0x20 4 % 2 ^ 21
def recRangetab (b : List Byte) : Nat := natAt b 0x38 8 % 2 ^ 52

/-! ### Descriptors (R302, R303) -/

/-- A descriptor as its 32 bytes name it. -/
structure Desc where
  base  : Nat
  kind  : Nat
  prot  : Nat
  limit : Nat
  r     : Bool
  w     : Bool
  x     : Bool
  a     : Bool
  c     : Bool
  ccode : Bool
  detached : Bool
  valid : Bool
  xrev  : Bool
  bnd   : Bool
  cairn : DWord
  bidx  : Nat
  drain : Int
  deriving DecidableEq, Repr

def descOf (b : List Byte) : Desc :=
  let w0 := natAt b 0 8
  let w1 := natAt b 8 8
  let w3 := natAt b 0x18 8
  { base := bitsOf w0 0 57, kind := bitsOf w0 57 3, prot := bitsOf w0 60 4, limit := bitsOf w1 0 44, r := bitOf w1 44,
    w := bitOf w1 45, x := bitOf w1 46, a := bitOf w1 47, c := bitOf w1 48, ccode := bitOf w1 49, detached := bitOf w1 51,
    valid := bitOf w1 52, xrev := bitOf w1 53, bnd := bitOf w1 54, cairn := BitVec.ofNat 64 (natAt b 0x10 8),
    bidx := bitsOf w3 0 20, drain := sxNat (bitsOf w3 20 32) 32 }

/-- What a read of the Ovyen's own can give. -/
inductive Got (α : Type) where
  | ok (a : α)
  | bad
  | poison (pa : Nat)
  deriving DecidableEq, Repr

/-- The physical address of a selector's descriptor: the context's own table, or the supervisor's at supervisor level. -/
def State.descPA (s : State) (p ctx : Nat) (sup : Bool) (sel : Nat) : Option Nat :=
  if bitOf sel 19 then
    if sup && sel % 2 ^ 19 < (s.part p).svsegn then some ((s.part p).svseg + 32 * (sel % 2 ^ 19)) else none
  else match s.ctxRec p ctx with
    | none => none
    | some b => if sel < recSegn b then some (recSegtab b + 32 * sel) else none

/-- The key of an image by its segment: the supervisor's segments are one table, whichever context names them. -/
def imgKey (ctx sel : Nat) : Nat := if bitOf sel 19 then supKey else ctx

/-- Whether the Ovyen may fill descriptors and walk pages for an access: a wave's context record is valid (R423). -/
def State.recordOk (s : State) (u : Who) : Bool := u.unit || (s.ctxRec u.part u.ctx).isSome

/-- A descriptor's bytes through the cluster's cache (R303). (log 29, DEDUCED) -/
def State.descBytes (s : State) (u : Who) (sel : Nat) : Got (List Byte) :=
  if bitOf sel 19 && !u.sup then .bad
  else match (s.cluster u.k).desc.find? (fun d => d.ctx == u.ctx && d.sel == sel) with
    | some d => .ok d.data
    | none =>
      match if s.recordOk u then s.descPA u.part u.ctx u.sup sel else none with
      | none => .bad
      | some pa =>
          if s.marked pa 32 then .poison pa
          else let b := s.homeBytes pa 32
               if (descOf b).valid then .ok b else .bad

/-- Leave a used descriptor in the cluster's cache. -/
def State.keepDesc (s : State) (u : Who) (sel : Nat) : State :=
  match s.descBytes u sel with
  | .ok b => s.modCluster u.k fun c =>
      if c.desc.any (fun d => d.ctx == u.ctx && d.sel == sel) then c
      else { c with desc := c.desc ++ [{ ctx := u.ctx, sel := sel, data := b }] }
  | _ => s

/-! ### Page walks (R310–R312) -/

/-- A translation: the page's first linear address, the size of its offset in bits, its frame, WP. -/
inductive Walk where
  | page (pg bits pa : Nat) (wp : Bool)
  | fault (cause : Nat)
  | poison (pa : Nat)
  deriving DecidableEq, Repr

/-- Whether a physical region may hold a kind (R311), below the partition's stated capacity: a page beyond it maps no region, a PAGE of
cause 3 (01 R26; log 70, DESIGN CHOICE). -/
def regionOk (pa kind : Nat) : Bool :=
  let r := pa / 2 ^ 48
  if r < 4 then (kind == 0 || kind == 2 || kind == 6) && pa % 2 ^ 48 < Config.hbmBytes
  else if r < 8 then kind == 3 && pa % 2 ^ 48 < Config.tierBytes
  else if r == 8 then kind == 4
  else if r == 12 then kind == 5 else false

/-- Low bit of a level's index, its index width. -/
def levelShift (l : Nat) : Nat := match l with | 3 => 39 | 2 => 30 | 1 => 21 | _ => 16
def levelBits (l : Nat) : Nat := match l with | 3 => 18 | 2 => 9 | 1 => 9 | _ => 5

/-- Walk from level `l` (R310). (log 47, DEDUCED) -/
def State.walk (s : State) (kind lin : Nat) : Nat → Nat → Walk
  | 0, tab =>
      let pa := tab + 8 * bitsOf lin 16 5
      if s.marked pa 8 then .poison pa
      else let e := s.homeNat pa 8
           if !bitOf e 0 then .fault 1
           else if !bitOf e 1 || bitsOf e 3 5 != 0 || bitsOf e 52 12 != 0 || e / 256 % 2 ^ 8 != 0 || !regionOk (bitsOf e 8 44 * 256) kind then .fault 3
           else .page (lin / 2 ^ 16 * 2 ^ 16) 16 (bitsOf e 8 44 * 256) (bitOf e 2)
  | l + 1, tab =>
      let sh := levelShift (l + 1)
      let pa := tab + 8 * bitsOf lin sh (levelBits (l + 1))
      if s.marked pa 8 then .poison pa
      else let e := s.homeNat pa 8
           let f := bitsOf e 8 44 * 256
           if !bitOf e 0 then .fault 1
           else if bitsOf e 3 5 != 0 || bitsOf e 52 12 != 0 then .fault 3
           else if bitOf e 1 then
             if l == 2 || f % 2 ^ sh != 0 || !regionOk f kind then .fault 3
             else .page (lin / 2 ^ sh * 2 ^ sh) sh f (bitOf e 2)
           else if l != 0 && f % 2 ^ 12 != 0 then .fault 3
           else s.walk kind lin l f

/-- The root page table of a descriptor's owner; none for a context without a valid record (R423). -/
def State.ptRoot (s : State) (u : Who) (sel : Nat) : Option Nat :=
  if bitOf sel 19 then (if s.recordOk u then some (s.part u.part).svpt else none) else (s.ctxRec u.part u.ctx).map recPtroot

/-- Translate a linear address through the cluster's TLB, else by a walk. A translation another kind left is held to this
descriptor's kind (R311). (log 47, DEDUCED) -/
def State.translate (s : State) (u : Who) (sel kind lin : Nat) : Walk :=
  match (s.cluster u.k).tlb.find? (fun t => t.ctx == u.ctx && t.sup == bitOf sel 19 && lin / 2 ^ t.bits * 2 ^ t.bits == t.page) with
  | some t => if regionOk t.pa kind then .page t.page t.bits t.pa t.wp else .fault 3
  | none => match s.ptRoot u sel with
    | none => .fault 1
    | some root => s.walk kind lin 3 root

/-- Leave a translation in the cluster's TLB, the oldest going when it is full. (log 47, DEDUCED) -/
def State.keepTlb (s : State) (u : Who) (sel kind lin : Nat) : State :=
  match s.translate u sel kind lin with
  | .page pg bits pa wp => s.modCluster u.k fun c =>
      if c.tlb.any (fun t => t.ctx == u.ctx && t.sup == bitOf sel 19 && t.page == pg && t.bits == bits) then c
      else { c with tlb := (if c.tlb.length < Config.tlbEntries then c.tlb else c.tlb.drop 1) ++
                      [{ ctx := u.ctx, sup := bitOf sel 19, page := pg, bits := bits, pa := pa, wp := wp }] }
  | _ => s

/-! ### The checks of an access (10 R236, R237) -/

/-- A lane's fault: trap code, cause, and the address FADDR holds. -/
structure AFault where
  code  : Nat
  cause : Nat
  addr  : DWord
  deriving DecidableEq, Repr

/-- What an access needs: the right (0 R, 1 W, 2 X, 3 A, 4 C with R, 5 C with W, 6 C), the kinds it permits, its size in
bytes, its alignment, whether it writes, whether it may hit in the L1: a load or a store of a scope narrower than DEVICE (R309). -/
structure Need where
  right : Nat
  kinds : List Nat
  size  : Nat
  align : Nat
  write : Bool
  narrow : Bool := false
  deriving DecidableEq, Repr

/-- An access that has passed its checks: kind, physical address (scratch offset for SCRATCH), the cairn bound, the
descriptor's protocol index, and the seg-address it came by; its linear address, how many of its bytes lie in its first line, where those
of its second line begin, the page's WP, whether the L1 gave the place. -/
structure Access where
  kind  : Nat
  pa    : Nat
  cairn : DWord
  prot  : Nat
  ea    : DWord
  desc  : Desc
  lin   : Nat := 0
  cut   : Nat := 128
  pa2   : Nat := 0
  wp    : Bool := false
  hit   : Bool := false
  deriving DecidableEq, Repr

/-- The address of an access's byte `i`: an access may end in the next line, which may be another page's (R302 lets BASE be unaligned). -/
def Access.paAt (a : Access) (i : Nat) : Nat := if i < a.cut || a.kind = 1 then a.pa + i else a.pa2 + (i - a.cut)

/-- How a linear address of a segment is tagged in the L1 (R304, R309). -/
def viaOf (ctx : Nat) (ea : DWord) (kind lin : Nat) : Via :=
  { ctx := ctx, sel := selOf ea, seg := if kind = 0 then lin / 128 * 128 else ea.toNat - lin % 128, lin := lin / 128 }

/-- The tag of an access's byte `i`. -/
def Access.via (a : Access) (ctx i : Nat) : Via := viaOf ctx (a.ea + BitVec.ofNat 64 i) a.kind (a.lin + i)

def hasRight (d : Desc) (n : Nat) : Bool :=
  match n with
  | 0 => d.r | 1 => d.w | 2 => d.x | 3 => d.a | 4 => d.c && d.r | 5 => d.c && d.w | _ => d.c

def fSEGV : Nat := 0x08
def fNULLSEG : Nat := 0x09
def fOFFOVF : Nat := 0x0A
def fALIGN : Nat := 0x0B
def fPAGE : Nat := 0x0C
def fCODEREV : Nat := 0x0D
def fLINKAGE : Nat := 0x0E
def fPOISON : Nat := 0x0F

/-- The bytes a team's scratch allocation has (R230). -/
def State.scratchLen (s : State) (t : Nat) : Nat := match s.team? t with | none => 0 | some x => 256 * x.granules.length

/-- The grid-wide lane number of R304. -/
def State.laneNumber (s : State) (u : Who) (lane : Nat) : Nat :=
  match s.team? u.team, s.wave? u.wave with
  | some t, some w => 32 * (t.teamw * t.linear + w.wid) + lane
  | _, _ => lane

/-- Checks 2 to 7 of R236 for one lane at a seg-address: everything but the translation. -/
def State.checkSeg (s : State) (u : Who) (n : Need) (ea : DWord) : Except AFault Desc :=
  if selOf ea = 0 then .error { code := fNULLSEG, cause := 0, addr := ea }
  else match s.descBytes u (selOf ea) with
    | .bad => .error { code := fSEGV, cause := 4, addr := ea }
    | .poison _ => .error { code := fPOISON, cause := 5, addr := ea }
    | .ok b =>
        let d := descOf b
        let limit := if d.kind = 1 then min d.limit (s.scratchLen u.team) else d.limit
        if d.detached then .error { code := fLINKAGE, cause := 3, addr := ea }
        else if n.size != 0 && limit < offOf ea + n.size then .error { code := fSEGV, cause := 1, addr := ea }
        else if !hasRight d n.right then .error { code := fSEGV, cause := 2, addr := ea }
        else if !n.kinds.contains d.kind then .error { code := fSEGV, cause := 3, addr := ea }
        else if n.align != 0 && offOf ea % n.align != 0 then .error { code := fALIGN, cause := 0, addr := ea }
        else .ok d

/-- The linear address of a segment's offset for a lane (R304, R309). -/
def State.linear (s : State) (u : Who) (d : Desc) (lane off : Nat) : Nat :=
  if d.kind = 0 then d.base + s.laneNumber u lane * roundUp d.limit 16 + off else d.base + off

/-- Whether two tags are one. -/
def Via.same (a b : Via) : Bool := a.ctx == b.ctx && a.sel == b.sel && a.lin == b.lin

/-- A cluster's copy under a tag, unless it is a lease copy that has expired for the core (11 R269). -/
def State.tagged (s : State) (core : Nat) (v : Via) : Option Copy :=
  (s.cluster (core / 4)).copies.find? fun c => c.tags.any (·.via.same v) && !(c.lease && c.expired.contains (core % 4))

/-- Where the page of a linear address lies: a hit in the L1 needs no translation, and has the WP kept with the line (R309, R311). -/
def State.place (s : State) (u : Who) (narrow : Bool) (ea : DWord) (kind lin : Nat) : Walk × Bool :=
  let v := viaOf u.ctx ea kind lin
  match if narrow && !u.unit then s.tagged (coreOfKey u.wave) v else none with
  | some c => (.page (lin / 128 * 128) 7 (c.line * 128) (c.tags.any fun t => t.via.same v && t.wp), true)
  | none => (s.translate u (selOf ea) kind lin, false)

/-- Whether an access of a kind may hit in the L1: PRIVATE always (R206), DEVICE and TIER when it is narrow, HOST when it loads. -/
def Need.hits (n : Need) (kind : Nat) : Bool := kind == 0 || (n.narrow && (kind == 2 || kind == 3 || (kind == 4 && !n.write)))

/-- All the checks of R236 from 2 on, with the translation of each line the access touches. Compressed code is expanded where it is read
(R316). -/
def State.checkAccess (s : State) (u : Who) (n : Need) (lane : Nat) (ea : DWord) : Except AFault Access :=
  match s.checkSeg u n ea with
  | .error f => .error f
  | .ok d =>
      if d.kind = 1 then .ok { kind := 1, pa := offOf ea, cairn := d.cairn, prot := 0, ea := ea, desc := d }
      else if d.ccode then .ok { kind := d.kind, pa := offOf ea, cairn := d.cairn, prot := d.prot, ea := ea, desc := d }
      else
        let lin := s.linear u d lane (offOf ea)
        let bad (c : Nat) : AFault := { code := fPAGE, cause := c, addr := ea }
        let p := s.place u (n.hits d.kind) ea d.kind lin
        match p.1 with
        | .fault c => .error (bad c)
        | .poison _ => .error { code := fPOISON, cause := 5, addr := ea }
        | .page pg _ pa wp =>
            if wp && n.write then .error (bad 2)
            else
              let cut := 128 - lin % 128
              let a : Access := { kind := d.kind, pa := pa + (lin - pg), cairn := d.cairn, prot := d.prot, ea := ea, desc := d, lin := lin,
                                  cut := cut, pa2 := pa + (lin - pg) + cut, wp := wp, hit := p.2 }
              if n.size ≤ cut || 128 < n.size then .ok a
              else match (s.place u (n.hits d.kind) (ea + BitVec.ofNat 64 cut) d.kind (lin + cut)).1 with
              | .fault c => .error (bad c)
              | .poison _ => .error { code := fPOISON, cause := 5, addr := ea }
              | .page pg2 _ pb wp2 => if wp2 && n.write then .error (bad 2) else .ok { a with pa2 := pb + (lin + cut - pg2) }

/-- Check 1 and the address: a + sx(disp), as PADD computes it (15 R111). -/
def effAddr (a : DWord) (disp : Int) : Except AFault DWord :=
  let o : Int := (offOf a : Int) + disp
  if o < 0 || (2 ^ 44 : Int) ≤ o then .error { code := fOFFOVF, cause := 0, addr := a }
  else .ok (segAddr (selOf a) o.toNat)

/-- Keep what an access used in the cluster's caches. -/
def State.keepFor (s : State) (u : Who) (a : Access) (lane : Nat) : State :=
  if a.kind = 1 || a.desc.ccode || a.hit then s.keepDesc u (selOf a.ea)
  else (s.keepDesc u (selOf a.ea)).keepTlb u (selOf a.ea) a.kind (s.linear u a.desc lane (offOf a.ea))

/-- All kinds; the kinds of R237. -/
def kindsAll : List Nat := [0, 1, 2, 3, 4, 5, 6]
def kindsST : List Nat := [0, 1, 2, 3, 4, 5]
def kindsAtom : List Nat := [1, 2, 3, 4, 5]
def kindsWait : List Nat := [1, 2, 3, 4]
def kindsDTH : List Nat := [2, 3, 4]

/-! ### Expanded code (R316) -/

/-- Linear bytes of a segment with their marks, page by page, at most `k` pages. -/
def State.linPages (s : State) (u : Who) (sel kind : Nat) : Nat → Nat → Nat → Except (Nat × Nat) (List (Byte × Bool))
  | 0, _, _ => .ok []
  | k + 1, lin, n =>
      if n = 0 then .ok []
      else match s.translate u sel kind lin with
      | .fault c => .error (fPAGE, c)
      | .poison _ => .error (fPOISON, 5)
      | .page pg bits pa _ =>
          let m := min n (2 ^ bits - (lin - pg))
          match s.linPages u sel kind k (lin + m) (n - m) with
          | .error e => .error e
          | .ok l => .ok ((List.range m).map (fun i => (s.homeByte (pa + (lin + i - pg)), s.homeMark (pa + (lin + i - pg)))) ++ l)

/-- The same, or the code and cause of the first page that does not translate. A page has 64 KiB or more (R310). -/
def State.linBytes (s : State) (u : Who) (sel kind lin n : Nat) : Except (Nat × Nat) (List (Byte × Bool)) :=
  s.linPages u sel kind (n / 2 ^ 16 + 2) lin n

/-- The LATT entry of an expanded line: from the cluster's cache, else read from the home, with its mark. -/
def State.lattEntry (s : State) (u : Who) (sel : Nat) (d : Desc) (j : Nat) : Except (Nat × Nat) (Nat × Bool) :=
  match (s.cluster u.k).latt.find? (fun e => e.ctx == u.ctx && e.sel == sel && e.idx == j) with
  | some e => .ok (e.val.toNat, false)
  | none => match s.linBytes u sel d.kind (d.base + 8 * j) 8 with
    | .ok l => .ok (leNat (l.map (·.1)), l.any (·.2))
    | .error e => .error e

/-- Expand a compressed line: the mask, then its non-zero words. -/
def expandWords (mask : Nat) : Nat → Nat → List Byte → List Byte
  | 0, _, _ => []
  | n + 1, i, src =>
      if bitOf mask i then (src.take 8) ++ expandWords mask n (i + 1) (src.drop 8)
      else List.replicate 8 0 ++ expandWords mask n (i + 1) src

def popCount (x n : Nat) : Nat := (List.range n).foldl (fun c i => if bitOf x i then c + 1 else c) 0

/-- The 128 bytes of expanded line `j`, all marked if the entry or the compressed line is; or the code and cause: those of the
entry's page (R311), SEGV cause 5 for a compressed line that is malformed or does not lie in mapped pages. -/
def State.expandLine (s : State) (u : Who) (sel : Nat) (d : Desc) (j : Nat) : Except (Nat × Nat) (List (Byte × Bool)) :=
  match s.lattEntry u sel d j with
  | .error e => .error e
  | .ok (e, m) =>
      let coff := bitsOf e 0 32
      let clen := bitsOf e 32 9
      if bitsOf e 41 23 != 0 || clen < 2 then .error (fSEGV, 5)
      else match s.linBytes u sel d.kind (d.base + coff) clen with
        | .error (c, _) => .error (if c = fPAGE then (fSEGV, 5) else (c, 5))
        | .ok l =>
            let b := l.map (·.1)
            let mask := natAt b 0 2
            if clen != 2 + 8 * popCount mask 16 then .error (fSEGV, 5)
            else .ok ((expandWords mask 16 0 (b.drop 2)).map fun x => (x, m || l.any (·.2)))

/-! ### Protocol of an access (11 R252, R261, R422) -/

/-- The range entry that covers an address: its parameter word. -/
def State.rangeParam (s : State) (p ctx : Nat) (ea : DWord) : Option Nat :=
  match s.ctxRec p ctx with
  | none => none
  | some b =>
      (List.range 64).foldr (fun i acc =>
        let t := recRangetab b + 16 * i
        let start := s.homeNat t 8
        let len := s.homeNat (t + 8) 4
        if len != 0 && start ≤ ea.toNat && ea.toNat < start + len then some (s.homeNat (t + 12) 4) else acc) none

end Sys2Proof.Machine
end

