-- ==== Sys2Proof/Machine/Home.lean ====
section
/-! DEFINITION. The homes: home values, monitors, directory and protocol cells (11 R252–R275), cluster copies, store and publish buffers (09 R204–R215). -/

namespace Sys2Proof.Machine

/-! ### Completion (02 R47) -/

/-- The physical address of a byte of a save area: the pool is descriptor 0 of the supervisor table (17 R338). (log 57, DESIGN CHOICE) -/
def State.areaPA (s : State) (p area off : Nat) : Option Nat :=
  let b := s.homeBytes (s.part p).svseg 32
  let d := descOf b
  let lin := d.base + Config.saveAreaBytes * area + off
  match s.walk 2 lin 3 (s.part p).svpt with
  | .page pg _ pa _ => some (pa + (lin - pg))
  | _ => none

/-- One decrement of a wave's flag. -/
def Wave.decFlag (w : Wave) (f : Nat) : Wave := w.putFlag f (w.flag f - 1)

/-- One part of an operation of a wave completes; the last one decrements its flag (R47). Operation 0 has no flag. -/
def Wave.donePart (w : Wave) (op : Nat) : Wave :=
  match tfind w.ops op with
  | none => w
  | some o =>
      if 1 < o.left then { w with ops := tput w.ops op { o with left := o.left - 1 } }
      else match o.flag with
        | none => { w with ops := tdel w.ops op }
        | some f => ({ w with ops := tdel w.ops op }).decFlag f

def State.donePart (s : State) (wave op : Nat) : State := if op = 0 then s else s.modWave wave (·.donePart op)

/-- Write bytes at the homes, without any other effect. -/
def State.rawPut (s : State) (pa : Nat) (l : List Byte) : State := { s with mem := memPuts s.mem pa l }

/-- One part of an operation of a copy's wave completes: at the core while the wave is resident, and as an atomic on
FCNT in the save area while it is saved (17 R347, 12 R292). -/
def State.donePartOf (s : State) (team wid op : Nat) : State :=
  match s.team? team with
  | none => s
  | some t =>
    match tfind t.saved wid with
    | none => match tfind t.wkeys wid with
      | some k => s.donePart k op
      | none => s
    | some sv =>
      match tfind sv.ops op with
      | none => s
      | some o =>
        if 1 < o.left then s.putTeam team { t with saved := tput t.saved wid { sv with ops := tput sv.ops op { o with left := o.left - 1 } } }
        else
          let s := s.putTeam team { t with saved := tput t.saved wid { sv with ops := tdel sv.ops op } }
          match o.flag, s.areaPA t.part sv.area (0xC0 + 4 * o.flag.getD 0) with
          | some _, some pa => s.rawPut pa (leBytes 4 (s.homeNat pa 4 - 1))
          | _, _ => s

/-! ### Monitors (09 R223, 10 R247) -/

/-- Mark a split's WAITV as woken. -/
def Wave.wakeSplit (w : Wave) (e : Nat) : Wave :=
  w.modSplit e fun x => { x with wait := x.wait.map fun r => { r with done := true } }

/-- Wake the monitor entries that a test picks, and free them. -/
def State.wakeIf (s : State) (f : Mon → Bool) : State :=
  (s.mon.filter f).foldl (fun s m => s.modWave m.wave (·.wakeSplit m.entry)) { s with mon := s.mon.filter (!f ·) }

/-- A write applied to a line wakes every entry on it. -/
def State.wakeLine (s : State) (line : Nat) : State := s.wakeIf fun m => m.team.isNone && m.line == line
/-- A write applied to a team's scratch line. -/
def State.wakeScratch (s : State) (team line : Nat) : State := s.wakeIf fun m => m.team == some team && m.line == line

/-- Mark a split's wait as over. (log 23, DESIGN CHOICE) -/
def State.endWaitOf (s : State) (k e : Nat) : State := s.modWave k (·.wakeSplit e)

/-! ### Cluster copies (09 R204, R208) -/

/-- Change a cluster's copy of a line. -/
def Cluster.modCopy (c : Cluster) (line : Nat) (f : Copy → Copy) : Cluster :=
  { c with copies := c.copies.map fun x => if x.line == line then f x else x }

/-- A cluster's copy of a line goes. -/
def Cluster.dropCopy (c : Cluster) (line : Nat) : Cluster := { c with copies := c.copies.filter (·.line != line) }

/-- A copy is installed: it replaces the one of its line and keeps that one's tags; no other copy keeps its tags. -/
def Cluster.putCopy (c : Cluster) (x : Copy) : Cluster :=
  let fresh (t : Tag) : Bool := !x.tags.any (·.via.same t.via)
  let old := ((c.copies.filter (·.line == x.line)).map (·.tags)).flatten.filter fresh
  let rest := (c.copies.filter (·.line != x.line)).map fun y => { y with tags := y.tags.filter fresh }
  { c with copies := rest ++ [{ x with tags := x.tags ++ old }] }

/-- Write bytes of a line into a copy's bytes. -/
def overCells (l : List Byte) (base : Nat) (cs : List (Nat × Byte)) : List Byte :=
  (List.range l.length).map fun i => ((cs.find? (·.1 == base + i)).map (·.2)).getD (l.getD i 0)

/-- The sectors that bytes touch, and whether they fill one. -/
def sectorsOf (cs : List (Nat × Byte)) : List Nat := cs.foldl (fun l c => sins l (c.1 / 32)) []
def fillsSector (cs : List (Nat × Byte)) (k : Nat) : Bool := (List.range 32).all fun i => cs.any (·.1 == 32 * k + i)

/-- The poison marks after one write (18 R348): one that carries poison marks every sector it touches, any other clears the mark of a
sector it fills. -/
def markCells (marks : List Nat) (cs : List (Nat × Byte)) (bad : Bool) : List Nat :=
  if bad then (sectorsOf cs).foldl sins marks else marks.filter fun k => !fillsSector cs k

/-- A write reaches a copy of its line. -/
def Copy.over (x : Copy) (cs : List (Nat × Byte)) (bad : Bool) : Copy :=
  { x with bytes := overCells x.bytes (x.line * 128) cs, marks := (markCells (x.marks.map (· + 4 * x.line)) cs bad).map (· - 4 * x.line) }

/-! ### Logical time (11 R267–R270) -/

/-- Set a core's LTIME by a serial advance, expiring its cluster's lease copies. -/
def State.advLtime (s : State) (q v : Nat) : State :=
  let s := s.modCore q fun c => { c with ltime := v % 2 ^ 16 }
  s.modCluster (q / 4) fun c =>
    { c with copies := c.copies.map fun x =>
        if x.lease && serialLt 16 x.rts (v % 2 ^ 16) then { x with expired := sins x.expired (q % 4) } else x }

/-- A cluster acts on a message (R258(d)). A fill of a lease copy first moves its core's logical time to the copy's write timestamp
(R268), and the copy has expired for the cores whose time has passed its read timestamp (R269). -/
def State.deliver (s : State) (k : Nat) (m : Msg) : State :=
  match m with
  | .fill c q =>
      let s := if c.lease then s.advLtime q (serialMax 16 (s.core q).ltime c.wts) else s
      let exp := (List.range 4).filter fun p => c.lease && serialLt 16 c.rts (s.core (4 * k + p)).ltime
      s.modCluster k (·.putCopy { c with expired := exp })
  | .inv line => s.modCluster k (·.dropCopy line)
  | .push line off b ms => s.modCluster k fun x => x.modCopy line fun y =>
      { y.over (cellsAt (line * 128 + off) b) false with
        marks := ms.foldl sins (y.marks.filter fun i => !(off / 32 ≤ i && i ≤ (off + b.length - 1) / 32)) }

/-- A cluster acts on every message on its way to it, oldest first. -/
def State.deliverAll (s : State) (k : Nat) : State :=
  (s.cluster k).msgs.foldl (fun s m => s.deliver k m) (s.modCluster k fun c => { c with msgs := [] })

/-- Send a message to a cluster. (log 32, DEDUCED) -/
def State.send (s : State) (k : Nat) (m : Msg) : State := s.modCluster k fun c => { c with msgs := c.msgs ++ [m] }

/-- Whether a copy of a line is at a cluster or on its way to it. -/
def Cluster.holds (c : Cluster) (line : Nat) : Bool :=
  c.copies.any (·.line == line) || c.msgs.any fun m => match m with | .fill x _ => x.line == line | _ => false

/-! ### Applying bytes at a home -/

/-- Apply bytes of one line to the home value: M and its poison marks, the writer's own cluster's copy (R210), which has first acted on
the home's earlier messages, the monitors unless .NW. -/
def State.applyCells (s : State) (cs : List (Nat × Byte)) (bad nw : Bool) (k : Option Nat) : State :=
  if cs.isEmpty then s
  else
    let line := (cs.headD (0, 0)).1 / 128
    let s := { s with mem := memCells s.mem cs, marks := markCells s.marks cs bad }
    let s := match k with
      | none => s
      | some k => (s.deliverAll k).modCluster k fun c => c.modCopy line (·.over cs bad)
    if nw then s else s.wakeLine line

/-- The same of a run of bytes. -/
def State.applyBytes (s : State) (pa : Nat) (l : List Byte) (nw : Bool) (k : Option Nat) : State := s.applyCells (cellsAt pa l) false nw k

/-- Mark every sector that a range touches (18 R348). -/
def State.markSectors (s : State) (pa n : Nat) : State :=
  if n = 0 then s else { s with marks := (List.range ((pa + n - 1) / 32 - pa / 32 + 1)).foldl (fun l i => sins l (pa / 32 + i)) s.marks }

/-! ### Protocols (11 R255–R266, R268, R273) -/

def aWACK : Nat := 2 ^ 19
def aDEPO : Nat := 2 ^ 18
def aDISC : Nat := 2 ^ 17
def aCOMB : Nat := 2 ^ 16
def aTSW : Nat := 2 ^ 15
def aTSR : Nat := 2 ^ 14
def aOWN : Nat := 2 ^ 13
def aDELS : Nat := 2 ^ 12
def aADDS : Nat := 2 ^ 11
def aPUSH : Nat := 2 ^ 10
def aRECALLD : Nat := 2 ^ 9
def aRECALLK : Nat := 2 ^ 8
def aINVS : Nat := 2 ^ 7
def aAPPLY : Nat := 2 ^ 6

/-- A cell: VALID, its actions, its REPLY, its NEXT. -/
def cell (acts reply next : Nat) : Nat := 2 ^ 31 + acts + reply * 16 + next

/-- Pad a state's row of twelve cells to sixteen. -/
def row16 (l : List Nat) : List Nat := l ++ List.replicate (16 - l.length) 0

/-- Row of state I in P0–P3 (R264, R266): GETS GETX PUTW ATOM READ EVICT WBACK FPUB FLUSH NEUT DISC PART. -/
def rowI (gets getx putw fpub : Nat) : List Nat :=
  row16 [gets, getx, putw, cell aAPPLY 0 0, cell 0 3 0, cell 0 0 0, cell aAPPLY 0 0, fpub, cell 0 0 0, cell 0 0 0, cell 0 0 0, cell aAPPLY 0 0]

/-- Row of a shared state `n`. -/
def rowS (n gets getx putw atom fpub part : Nat) : List Nat :=
  row16 [gets, getx, putw, atom, cell 0 3 n, cell aDELS 0 n, cell (aAPPLY + aINVS + aDELS) 0 n, fpub, cell 0 0 n,
    cell (aINVS + aWACK) 0 0, cell (aINVS + aWACK) 0 0, part]

/-- Row of the owned state `n`, whose shared state is 1. -/
def rowX (n gets : Nat) : List Nat :=
  let put := cell (aRECALLD + aAPPLY + aADDS) 0 1
  row16 [gets, cell (aRECALLD + aWACK + aOWN) 2 n, put, put, cell aRECALLK 3 1, cell aDELS 0 n, cell (aAPPLY + aDELS) 0 0, put,
    cell aRECALLK 0 1, cell (aRECALLD + aWACK) 0 0, cell aDISC 0 0, put]

/-- P0 MESI (R264). -/
def protMesi : Protocol :=
  let inv := cell (aAPPLY + aINVS) 0 1
  { nstates := 3, reset := 0, cls := 0, wonce := false, kinds := 13, attr := [0, 1, 2],
    cells := rowI (cell aOWN 2 2) (cell aOWN 2 2) (cell aAPPLY 0 0) (cell aAPPLY 0 0) ++
      rowS 1 (cell aADDS 1 1) (cell (aINVS + aWACK + aOWN) 2 2) inv inv inv inv ++ rowX 2 (cell (aRECALLK + aADDS) 1 1) }

/-- P1 update. -/
def protUpdate : Protocol :=
  let push := cell (aAPPLY + aPUSH) 0 1
  { nstates := 2, reset := 0, cls := 1, wonce := false, kinds := 12, attr := [0, 1],
    cells := rowI (cell aADDS 1 1) (cell aADDS 1 1) (cell aAPPLY 0 0) (cell aAPPLY 0 0) ++
      row16 [cell aADDS 1 1, cell aADDS 1 1, push, push, cell 0 3 1, cell aDELS 0 1, cell (aAPPLY + aINVS + aDELS) 0 1, push, cell 0 0 1,
        cell (aINVS + aWACK) 0 0, cell (aINVS + aWACK) 0 0, push] }

/-- P2 migratory. -/
def protMigratory : Protocol :=
  let inv := cell (aAPPLY + aINVS) 0 1
  { nstates := 3, reset := 0, cls := 0, wonce := false, kinds := 12, attr := [0, 1, 2],
    cells := rowI (cell aOWN 2 2) (cell aOWN 2 2) (cell aAPPLY 0 0) (cell aAPPLY 0 0) ++
      rowS 1 (cell aADDS 1 1) (cell (aINVS + aWACK + aOWN) 2 2) inv inv inv inv ++ rowX 2 (cell (aRECALLD + aWACK + aOWN) 2 2) }

/-- P3 write-once: states I 0, S 1, W 2, X 3. -/
def protOnce : Protocol :=
  let inv := cell (aAPPLY + aINVS) 0 1
  let toW := cell (aAPPLY + aINVS + aADDS) 0 2
  { nstates := 4, reset := 0, cls := 0, wonce := true, kinds := 12, attr := [0, 1, 1, 2],
    cells := rowI (cell aOWN 2 3) (cell aOWN 2 3) (cell (aAPPLY + aADDS) 0 2) (cell (aAPPLY + aADDS) 0 2) ++
      rowS 1 (cell aADDS 1 1) (cell (aINVS + aWACK + aOWN) 2 3) toW inv toW inv ++
      rowS 2 (cell aADDS 1 1) (cell (aINVS + aWACK + aOWN) 2 3) toW toW toW toW ++ rowX 3 (cell (aRECALLK + aADDS) 1 1) }

/-- P4 lease (R268): states I 0, L 1. -/
def protLease : Protocol :=
  let get := cell (aADDS + aTSR) 1 1
  let put (n : Nat) := cell (aAPPLY + aTSW) 0 n
  { nstates := 2, reset := 0, cls := 2, wonce := false, kinds := 4, attr := [0, 1],
    cells := row16 [get, get, put 0, put 0, cell 0 3 0, cell 0 0 0, put 0, put 0, cell 0 0 0, cell 0 0 0, cell 0 0 0, put 0] ++
      row16 [get, get, put 1, put 1, cell 0 3 1, cell aDELS 0 1, put 1, put 1, cell 0 0 1, cell (aINVS + aWACK) 0 0,
        cell (aINVS + aWACK) 0 0, put 1] }

/-- P5 reduce (R273): states I 0, P 1. -/
def protReduce : Protocol :=
  { nstates := 2, reset := 0, cls := 3, wonce := false, kinds := 12, attr := [0, 4],
    cells := row16 [cell 0 3 0, cell 0 3 0, cell aAPPLY 0 0, cell aAPPLY 0 0, cell 0 3 0, cell 0 0 0, cell 0 0 0, cell aAPPLY 0 0,
        cell 0 0 0, cell 0 0 0, cell 0 0 0, cell aDEPO 0 1] ++
      row16 [cell aCOMB 3 0, cell aCOMB 3 0, cell (aCOMB + aAPPLY) 0 0, cell (aCOMB + aAPPLY) 0 0, cell aCOMB 3 0, cell 0 0 1,
        cell aCOMB 0 0, cell (aCOMB + aAPPLY) 0 0, cell aCOMB 0 0, cell aCOMB 0 0, cell aDISC 0 0, cell aDEPO 0 1] }

/-- The stock protocol of a slot (R263). -/
def stockProtocol (slot : Nat) : Option Protocol :=
  match slot with
  | 0 => some protMesi | 1 => some protUpdate | 2 => some protMigratory | 3 => some protOnce | 4 => some protLease
  | 5 => some protReduce
  | _ => none

/-- The protocol in a slot: what was loaded or unloaded there (a table of no state is an emptied slot), else the stock one. -/
def State.protocol? (s : State) (p slot : Nat) : Option Protocol :=
  match tfind (s.part p).prots slot with
  | some x => if x.nstates = 0 then none else some x
  | none => stockProtocol slot

/-- The slot that serves a named one: an empty slot is served as slot 0 (R252). -/
def State.slotFor (s : State) (p slot : Nat) : Nat := if (s.protocol? p slot).isSome then slot else 0
def State.protocolOf (s : State) (p slot : Nat) : Protocol := (s.protocol? p (s.slotFor p slot)).getD protMesi

/-- Whether a kind's lines have a directory entry and a protocol (R252). -/
def kindHasProt (kind : Nat) : Bool := kind == 0 || kind == 2 || kind == 3

/-- The partition whose homes hold a physical line (15 R311). -/
def partOfLine (line : Nat) : Nat := bitsOf (line * 128) 48 2

/-- A directory entry of a line no request has touched. -/
def Dir.untouched (slot reset : Nat) : Dir :=
  { slot := slot, st := reset, sharers := [], owner := none, wts := 0, rts := 0, fresh := true, partials := [] }

/-- What a request tells the home: its cluster and core, the slot and the range's parameters. -/
structure Req where
  cluster : Option Nat
  core    : Option Nat
  slot    : Nat
  lease   : Nat
  rfmt    : Bool
  deriving DecidableEq, Repr

/-- A request of no cluster (events 8–10). -/
def Req.none (slot : Nat) : Req := { cluster := .none, core := .none, slot := slot, lease := 1, rfmt := false }

/-- The management controller reports something to the host. (log 63, DEDUCED) -/
def State.alert (s : State) (code arg : Nat) : State := { s with modu := { s.modu with alerts := s.modu.alerts ++ [(code, arg)] } }

/-- The translation that covers a place of a code segment. -/
def Part.translationAt (p : Part) (ctx sel pc : Nat) : Option Translation :=
  p.trans.find? fun t => !t.gone && t.ctx == ctx && t.sel == sel && t.off ≤ pc && pc < t.off + 64 + t.len

/-- Whether a place has an entry in the target table of an installed translation (20 R381). -/
def Part.hasEntry (p : Part) (ctx sel pc : Nat) : Bool :=
  match p.translationAt ctx sel pc with
  | none => false
  | some t => t.table.any (·.1 + t.off == pc)

/-- Translations of images that lie in bytes [lo, hi) of a code segment are withdrawn, those found but not installed are dropped; a split
that runs one leaves translated code at its next clause boundary, or here if it is waiting (20 R382(c)). -/
def State.dropTrans (s : State) (p ctx sel lo hi : Nat) : State :=
  let hit (c k off len : Nat) : Bool := c == ctx && k == sel && off < hi && lo < off + 64 + len
  let s1 := s.modPart p fun x => { x with trans := x.trans.map fun t => { t with gone := t.gone || hit t.ctx t.sel t.off t.len },
                                          found := x.found.filter fun t => !hit t.ctx t.sel t.off t.len }
  let ctxOf (w : Wave) : Nat := match s.team? w.team with | some t => imgKey t.ctx sel | none => 0
  { s1 with waves := tmap (fun k w =>
      if partOfKey k == p && w.codesel == sel && ctxOf w == ctx then
        { w with splits := tmap (fun _ x =>
            { x with trans := x.trans && (x.wait.isNone || ((s1.part p).translationAt ctx sel x.pc).isSome) }) w.splits }
      else w) s1.waves }

/-! ### Entries at the homes (09 R210) -/

/-- Every cluster. -/
def allClusters : List Nat := List.range 48

/-- The segment kind a physical address serves (15 R311). -/
def regionKind (pa : Nat) : Nat :=
  let r := pa / 2 ^ 48
  if r < 4 then 2 else if r < 8 then 3 else if r = 8 then 4 else 5

/-- A write at a home that keeps no directory, of HOST and PEER lines: every other cluster's copy is on its way out (R211). -/
def State.hostWrite (s : State) (line : Nat) (k : Option Nat) (app : State → State) : State :=
  (allClusters.filter fun j => some j != k && (s.cluster j).holds line).foldl (fun s j => s.send j (.inv line)) (app s)

/-- An entry's bytes at its home: M, the writer's cluster's copy; completion at DEVICE or SYSTEM scope (R206, R210). A home of a partition
held in reset drops them, and that is reported (22 R397). -/
def State.rawEntry (s : State) (e : Entry) : State :=
  if s.downAt (e.line * 128) then (s.alert 0x397 e.wave).donePart e.wave e.op
  else
    ((s.applyCells e.cells e.bad e.nw (some (e.core / 4))).modCluster (e.core / 4) (·.modCopy e.line fun x => { x with stored := true })).donePart
      e.wave e.op

/-- The bytes of its line that an entry spans: where they begin, how many. -/
def Entry.span (e : Entry) : Nat × Nat :=
  let l := e.cells.map (·.1 % 128)
  let lo := l.foldl min 127
  (lo, l.foldl max lo + 1 - lo)

/-- An item enters a line's home queue. -/
def State.enqueue (s : State) (line : Nat) (x : HItem) : State := { s with hq := tput s.hq line (tget [] s.hq line ++ [x]) }

/-- A release marker or barrier has left: PUB completes, a release message enters its cairn's home queue (R220 step 2). -/
def State.markerLeft (s : State) (wave scope : Nat) (rel : Option (Nat × Bool)) (op : Nat) : State :=
  match rel with
  | none => s.donePart wave op
  | some (pa, ex) => s.enqueue (pa / 128) (.release pa { ex := ex, scope := scope, wave := wave, op := op })

/-! ### Moving publish-buffer entries to the homes (R210, R219) -/

/-- Split a publish buffer into what a forced publish moves and what stays: the entries picked, every older item of
their waves, and every older entry of their bytes. Buffers are oldest first. -/
def forcedSplit (pick : Entry → Bool) : List PItem → List PItem × List PItem
  | [] => ([], [])
  | x :: r =>
      let (mv, st) := forcedSplit pick r
      let waves := mv.map fun y => match y with | .store e => e.wave | .barrier w .. => w
      let hit := match x with
        | .store e => pick e || waves.contains e.wave || mv.any (fun y => match y with | .store f => e.clash f | .barrier .. => false)
        | .barrier w .. => waves.contains w
      if hit then (x :: mv, st) else (mv, x :: st)

/-- The cluster, other than the requester's, that owns a line. -/
def State.ownerBut (s : State) (line : Nat) (k : Option Nat) : Option Nat :=
  match (tfind s.dir line).bind (·.owner) with
  | some j => if some j == k then none else some j
  | none => none

/-- An entry reaches its line's home and enters its queue, behind the dirty bytes of an owner that it will have recalled; these come with
the older entries and barriers of their waves (R258(b), (f)). `n` bounds how often one arrival brings another. -/
def State.arriveIn (s : State) (e : Entry) : Nat → State
  | 0 => s.enqueue e.line (.store e)
  | n + 1 =>
      match if kindHasProt e.kind then s.ownerBut e.line (some (e.core / 4)) else none with
      | none => s.enqueue e.line (.store e)
      | some j =>
          let (mv, st) := forcedSplit (fun f => f.line == e.line) (s.cluster j).pb
          (mv.foldl (fun (s : State) x => match x with
            | .store f => if f.line == e.line then s.enqueue f.line (.recalled f) else s.arriveIn f n
            | .barrier w sc rel op => s.markerLeft w sc rel op) (s.modCluster j fun c => { c with pb := st })).enqueue e.line (.store e)

/-- No arrival brings more others than the publish buffers hold items. -/
def State.arrive (s : State) (e : Entry) : State := s.arriveIn e ((s.clusters.map (·.2.pb.length)).foldl (· + ·) 0)

/-- A cluster moves entries out of its publish buffer (R219): those of one line are left to be applied in this step, those of other lines
arrive at their homes, the barriers ahead of them leave. (log 28, DESIGN CHOICE) -/
def State.moveOut (s : State) (k line : Nat) : State × List Entry :=
  let (mv, st) := forcedSplit (fun e => e.line == line) (s.cluster k).pb
  mv.foldl (fun (a : State × List Entry) x => match x with
    | .store e => if e.line == line then (a.1, a.2 ++ [e]) else (a.1.arrive e, a.2)
    | .barrier w sc rel op => (a.1.markerLeft w sc rel op, a.2)) (s.modCluster k fun c => { c with pb := st }, [])

/-- A recalled owner's dirty bytes of a line are applied. -/
def State.recallFrom (s : State) (k line : Nat) : State :=
  let r := s.moveOut k line
  r.2.foldl State.rawEntry r.1

/-! ### One event at a home (R256–R258) -/

/-- The line's directory entry, or an untouched one under the slot that the request names. (log 31, DEDUCED) -/
def State.dirOf (s : State) (line slot : Nat) : Dir :=
  (tfind s.dir line).getD (Dir.untouched slot (s.protocolOf (partOfLine line) slot).reset)

/-- Fold the partials of a line into the home value, in ascending core order (R274). -/
def foldPartials (fp : Bool) (z : Nat) (l : List Nat) : Nat :=
  l.foldl (fun z p => if fp then f32Add z p else (z + p) % 2 ^ 32) z

/-- Drop a core's partial of a line. -/
def State.dropPartial (s : State) (q line : Nat) : State :=
  s.modCore q fun c => { c with parts := c.parts.filter (·.line != line) }

/-- Cores that hold a partial of a line, ascending. -/
def State.partialCores (s : State) (line : Nat) : List Nat :=
  (List.range 192).filter fun q => (s.core q).parts.any (·.line == line)

/-- COMB: every word of every partial of the line, then none is left; wakes the line unless all were .NW. -/
def State.combine (s : State) (line : Nat) : State :=
  let qs := s.partialCores line
  if qs.isEmpty then s else
  let ps := (qs.map fun q => (s.core q).parts.filter (·.line == line)).flatten
  let fp := ps.any (·.fp)
  let s' := (List.range 32).foldl (fun s i =>
    let vals := (ps.map fun p => match tfind p.words i with | some w => [w.toNat] | none => []).flatten
    if vals.isEmpty then s
    else s.applyBytes (line * 128 + 4 * i) (leBytes 4 (foldPartials fp (memNat s.mem (line * 128 + 4 * i) 4) vals)) true none) s
  let s' := qs.foldl (fun s q => s.dropPartial q line) s'
  if ps.all (·.nw) then s' else s'.wakeLine line

/-- The cell of a state and an event. -/
def Protocol.cellAt (p : Protocol) (st ev : Nat) : Nat := p.cells.getD (16 * st + ev) 0

/-- Whether a cell carries an action. -/
def cellHas (c a : Nat) : Bool := c / a % 2 == 1

/-- Whether a cell recalls an owner. -/
def cellRecalls (c : Nat) : Bool := cellHas c aRECALLD || cellHas c aRECALLK

/-- DISC (R257): the owner's dirty bytes of a line are discarded, each store completing, and every partial. The older entries and barriers
of their waves move ahead (R258(f)). -/
def State.discardDirty (s : State) (line : Nat) (owner : Option Nat) : State :=
  let s := match owner with
    | some k =>
        let r := s.moveOut k line
        (r.2.foldl (fun (s : State) (e : Entry) => s.donePart e.wave e.op) r.1).modCluster k (·.dropCopy line)
    | none => s
  (s.partialCores line).foldl (fun s q => s.dropPartial q line) s

/-- What a recall does at the owner's cluster beside its dirty bytes: RECALLD drops its copy, RECALLK leaves it a shared one; one that
names the requester leaves it its copy (R258(a)). -/
def State.recallCopy (s : State) (line c : Nat) (owner req : Option Nat) : State :=
  if !cellRecalls c then s
  else match owner with
  | none => s
  | some k =>
      let s := s.deliverAll k
      if cellHas c aRECALLD && some k != req then s.modCluster k (·.dropCopy line)
      else s.modCluster k (·.modCopy line fun y => { y with owned := false })

/-- The directory's owner and sharer mask after a cell, in the order of R257: OWN, DELS, ADDS, the recalls, INVS. -/
def Dir.masksAfter (d : Dir) (c : Nat) (req : Option Nat) : Option Nat × List Nat :=
  let drop (l : List Nat) (x : Option Nat) : List Nat := match x with | some k => srem l k | none => l
  let add (l : List Nat) (x : Option Nat) : List Nat := match x with | some k => sins l k | none => l
  let sh := if cellHas c aOWN || cellHas c aDELS then drop d.sharers req else d.sharers
  let sh := if cellHas c aADDS then add sh req else sh
  let sh := if cellHas c aRECALLK then add sh d.owner else sh
  let sh := if cellHas c aINVS then sh.filter fun k => some k == req else sh
  let kept := if cellRecalls c || cellHas c aDISC then none else d.owner
  let own := if cellHas c aOWN then req else kept
  (if cellHas c aDELS && own == req then none else own, sh)

/-- The lease timestamps after a cell (R267, R268): an untouched line's both begin at `lt`, the requester's LTIME; TSW, then TSR. A
write of no core has no LTIME term. -/
def Dir.stamps (d : Dir) (c : Nat) (core : Option Nat) (lt lease : Nat) : Nat × Nat :=
  let w0 := if d.fresh && (core.isSome || cellHas c aTSW) then lt else d.wts
  let r0 := if d.fresh && (core.isSome || cellHas c aTSW) then lt else d.rts
  let w1 := if cellHas c aTSW then (if core.isSome then serialMax 16 lt ((r0 + 1) % 2 ^ 16) else (r0 + 1) % 2 ^ 16) else w0
  let r1 := if cellHas c aTSW then w1 else r0
  (w1, if cellHas c aTSR then serialMax 16 r1 ((serialMax 16 lt w1 + lease) % 2 ^ 16) else r1)

/-- Perform a cell's actions for a request (R257, R258); the dirty bytes a recall brings have been applied (R258(b)). `app` applies the
request's bytes or atomic, `off` and `n` say which bytes of the line it touches. Returns the state, the reply and the entry's timestamps.
(log 31, DEDUCED) -/
def State.runCell (s : State) (line : Nat) (d : Dir) (prot : Protocol) (c : Nat) (q : Req)
    (app : State → State) (off n : Nat) : State × Nat × Nat × Nat :=
  let masks := d.masksAfter c q.cluster
  let parts := if cellHas c aDISC || cellHas c aCOMB then [] else if cellHas c aDEPO then (match q.core with | some x => sins d.partials x | none => d.partials)
    else d.partials
  -- DISC, COMB
  let s := if cellHas c aDISC then s.discardDirty line d.owner else s
  let s := if cellHas c aCOMB then s.combine line else s
  -- TSW, TSR; of an untouched line written by no core R267 names no requester's LTIME (log 2)
  let open_ : Bool := d.fresh && cellHas c aTSW && q.core.isNone
  let (v, s) := if open_ then s.draw else (0, s)
  let lt := match q.core with | some x => (s.core x).ltime | none => v.toNat % 2 ^ 16
  let ts := d.stamps c q.core lt q.lease
  let s := if cellHas c aTSW then (match q.core with | some x => s.advLtime x (serialMax 16 (s.core x).ltime ts.1) | none => s) else s
  -- RECALLD, RECALLK, INVS
  let s := s.recallCopy line c d.owner q.cluster
  let gone := if cellHas c aINVS then
      (if cellHas c aRECALLK then (match d.owner with | some k => sins d.sharers k | none => d.sharers) else d.sharers).filter fun k => some k != q.cluster
    else []
  let s := gone.foldl (fun (s : State) k =>
    let s := s.send k (.inv line)
    if cellHas c aWACK then s.deliverAll k else s) s
  -- APPLY, PUSH
  let s := if cellHas c aAPPLY then app s else s
  let s := if cellHas c aPUSH then
      masks.2.foldl (fun s k => s.send k (.push line off (memGets s.mem (line * 128 + off) n)
        ((List.range 4).filter fun i => off / 32 ≤ i && i ≤ (off + n - 1) / 32 && s.marks.contains (4 * line + i)))) s
    else s
  let nx := if bitOf (prot.attr.getD (c % 16) 0) 0 && masks.2.isEmpty then prot.reset else c % 16
  let d' : Dir := { d with st := nx, sharers := masks.2, owner := masks.1, wts := ts.1, rts := ts.2,
                           fresh := d.fresh && !(q.core.isSome || cellHas c aTSW), partials := parts }
  ({ s with dir := tput s.dir line d' }, bitsOf c 4 2, ts.1, ts.2)

/-- A line's event under its recorded slot, or the slot named where it has none. With `now`, the request reaches the home in this step,
and the dirty bytes of an owner that it recalls are applied first; else they have come ahead of it in the queue. -/
def State.cellUnder (s : State) (line ev : Nat) (q : Req) (now : Bool) (app : State → State) (off n : Nat) : State × Nat × Nat × Nat :=
  let p := partOfLine line
  let d := s.dirOf line (s.slotFor p q.slot)
  let prot := s.protocolOf p d.slot
  let c := prot.cellAt d.st ev
  let s := if now && cellRecalls c then (match s.ownerBut line q.cluster with | some k => s.recallFrom k line | none => s) else s
  s.runCell line d prot c q app off n

/-- The request of a core's access. -/
def reqOf (core slot param : Nat) : Req :=
  { cluster := some (core / 4), core := some core, slot := slot, lease := bitsOf param 4 12, rfmt := bitOf param 16 }

/-- Every cluster's entries of a line are applied, each as a PUTW under the line's recorded slot (R258(f)). (log 28, DESIGN CHOICE) -/
def State.forceLine (s : State) (line : Nat) : State :=
  allClusters.foldl (fun s k =>
    if (s.cluster k).pb.any (fun x => match x with | .store e => e.line == line | _ => false) then
      let r := s.moveOut k line
      r.2.foldl (fun (s : State) e => match if kindHasProt e.kind then tfind s.dir line else none with
        | some d => (s.cellUnder line 2 (reqOf e.core d.slot e.param) true (fun s => s.rawEntry e) e.span.1 e.span.2).1
        | none => s.rawEntry e) r.1
    else s) s

/-- NEUT of a line under its recorded slot (R253, R249): copies, owner and partials go; the next request starts its timestamps afresh
(R267). With `now`, the entries of the line move first. (log 31, DEDUCED) -/
def State.neutOf (s : State) (line : Nat) (now : Bool) : State :=
  let s := if now then s.forceLine line else s
  match tfind s.dir line with
  | none => s
  | some d =>
      let s := (s.cellUnder line 9 (.none d.slot) now id 0 0).1
      match tfind s.dir line with
      | none => s
      | some d => { s with dir := tput s.dir line { d with fresh := true } }

/-- A request that names another slot than the one recorded neutralises the line first (R253). -/
def State.switchSlot (s : State) (line slot : Nat) (now : Bool) : State :=
  match tfind s.dir line with
  | none => s
  | some d => if d.slot == s.slotFor (partOfLine line) slot then s
              else let s := s.neutOf line now
                   { s with dir := tdel s.dir line }

/-- A request reaches the line's home, or its turn in the queue comes: the switch of slot, then the cell of its event (R256). -/
def State.cellEvent (s : State) (line ev : Nat) (q : Req) (now : Bool) (app : State → State) (off n : Nat) : State × Nat × Nat × Nat :=
  (s.switchSlot line q.slot now).cellUnder line ev q now app off n

/-- An entry is applied at its home, as event PUTW of its cluster (R210, R254). HOST and PEER homes lie beyond the Ovyen: the entry is
simply applied. (log 68, DESIGN CHOICE) -/
def State.applyEntry (s : State) (e : Entry) (now : Bool) : State :=
  if s.downAt (e.line * 128) then s.rawEntry e
  else if kindHasProt e.kind then
    (s.cellEvent e.line 2 (reqOf e.core e.slot e.param) now (fun s => s.rawEntry e) e.span.1 e.span.2).1
  else s.hostWrite e.line (some (e.core / 4)) fun s => s.rawEntry e

/-- `n` bytes within one line written at its home by an agent that is no cluster, as event PUTW without requester: `app` applies them. -/
def State.homeApplyAt (s : State) (pa n : Nat) (now : Bool) (app : State → State) : State :=
  match if kindHasProt (regionKind pa) then tfind s.dir (pa / 128) else none with
  | none => s.hostWrite (pa / 128) none app
  | some d => (s.cellUnder (pa / 128) 2 (.none d.slot) now app (pa % 128) n).1
def State.homeWrite (s : State) (pa : Nat) (b : List Byte) (nw now : Bool) : State :=
  s.homeApplyAt pa b.length now fun s => s.applyBytes pa b nw none

/-! ### Cairns at their home (09 R218–R221) -/

/-- Write one field of a cairn at its home, waking monitors as any applied write does. -/
def State.cairnPut (s : State) (pa off n x : Nat) : State := s.homeWrite (pa + off) (leBytes n x) false false

/-- Step 3 of R220 at the home: counts, NARROW, RELGTS, RELCNT. A release for a mode not held sets ERR and nothing else (R221). -/
def State.cairnRelease (s : State) (pa : Nat) (ex : Bool) (scope k : Nat) : State :=
  let w := memNat s.mem pa 4
  if !(if ex then bitOf w 16 else w % 2 ^ 16 != 0) then s.cairnPut pa 0 4 (if bitOf w 17 then w else w + 2 ^ 17)
  else
    let nar := memNat s.mem (pa + 8) 8
    let s := s.cairnPut pa 0 4 (if ex then w - 2 ^ 16 else w - 1)
    let s := if scope < 3 && !bitOf nar k then s.cairnPut pa 8 8 (nar + 2 ^ k) else s
    let s := s.cairnPut pa 0x10 8 s.gts
    s.cairnPut pa 0x18 4 ((memNat s.mem (pa + 0x18) 4 + 1) % 2 ^ 32)

/-- Whether a home may grant a mode now, no request waiting before it (R218). -/
def State.mayGrant (s : State) (pa : Nat) (ex : Bool) : Bool :=
  let w := memNat s.mem pa 4
  !bitOf w 16 && (if ex then w % 2 ^ 16 == 0 else w % 2 ^ 16 < 65535)

/-- The clusters of which a grant to cluster `j` forces a publish (R219). -/
def State.forcedFor (s : State) (pa j : Nat) : List Nat := allClusters.filter fun k => k != j && bitOf (memNat s.mem (pa + 8) 8) k

/-- The lines bound to a cairn that a cluster holds copies of. -/
def Cluster.bound (c : Cluster) (pa : Nat) : List Nat := (c.copies.filter fun y => y.tags.any (·.cairn == some pa)).map (·.line)

/-- What a grant to cluster `j` does once the forced publishes are over (R219): NARROW, SHCNT or EX, WAITN, and the acquire. -/
def State.grantDone (s : State) (pa j : Nat) (ex queued : Bool) : State :=
  let nar := memNat s.mem (pa + 8) 8
  let w := memNat s.mem pa 4
  let forced := s.forcedFor pa j
  let s := if forced.isEmpty then s else s.cairnPut pa 8 8 (forced.foldl (fun n k => n - 2 ^ k) nar)
  let s := s.cairnPut pa 0 4 (if ex then w + 2 ^ 16 else w + 1)
  let s := if queued then s.cairnPut pa 4 4 (memNat s.mem (pa + 4) 4 - 1) else s
  let s := s.deliverAll j
  ((s.cluster j).bound pa).foldl (fun s line => s.modCluster j (·.dropCopy line)) s

/-- A queued request has been granted: its wave's operation completes and its split goes on. -/
def State.granted (s : State) (r : CairnReq) : State :=
  let op := match s.wave? r.wave with | some w => ((w.split r.entry).wait.map (·.arg)).getD 0 | none => 0
  (s.donePart r.wave op).endWaitOf r.wave r.entry

/-- The requests at the head of a cairn's FIFO that can be granted with no forced publish and no owned copy to give up: they are granted in
the release's own step (R220 step 3). The others wait for acknowledgements, and are granted in a step of their own (R219). -/
def State.grantQuick (s : State) (pa : Nat) : Nat → State
  | 0 => s
  | n + 1 =>
      match tget [] s.cairns pa with
      | [] => s
      | r :: rest =>
          let j := clusterOfKey r.wave
          if s.mayGrant pa r.ex && (s.forcedFor pa j).isEmpty &&
              !((s.cluster j).bound pa).any fun line => (tfind s.dir line).any (·.owner == some j) then
            ((({ s with cairns := tset [] s.cairns pa rest } : State).grantDone pa j r.ex true).granted r).grantQuick pa n
          else s

/-- An item's turn in a home queue comes. -/
def State.hqItem (s : State) (x : HItem) : State :=
  match x with
  | .store e => s.applyEntry e false
  | .recalled e => s.rawEntry e
  | .release pa r =>
      let s := (s.cairnRelease pa r.ex r.scope (clusterOfKey r.wave)).donePart r.wave r.op
      s.grantQuick pa (tget [] s.cairns pa).length

/-- The oldest item of a line's home queue is applied. Items that wait behind it stay. -/
def State.applyNext (s : State) (line : Nat) : State :=
  match tget [] s.hq line with
  | [] => s
  | x :: rest => ({ s with hq := tset [] s.hq line rest } : State).hqItem x

/-- Apply the items that wait in a line's home queue, oldest first. (log 28, DESIGN CHOICE) -/
def State.flushHq (s : State) (line : Nat) : State :=
  (tget [] s.hq line).foldl State.hqItem { s with hq := tdel s.hq line }

/-- A request reaches the line's home behind what its queue holds. -/
def State.homeEvent (s : State) (line ev : Nat) (q : Req) (app : State → State) (off n : Nat) : State × Nat × Nat × Nat :=
  (s.flushHq line).cellEvent line ev q true app off n

/-- NEUT reaches a line. -/
def State.neut (s : State) (line : Nat) : State := (s.flushHq line).neutOf line true

/-- A cluster gives up what it holds of a line: its entries go to the home, and its copy, with WBACK if it owns the line, else each as a
PUTW and the copy with EVICT (R234, R254, R266). -/
def State.giveUpLine (s : State) (k line : Nat) : State :=
  let s := (s.flushHq line).deliverAll k
  let r := s.moveOut k line
  let held := (r.1.cluster k).copies.any (·.line == line)
  let ask (slot : Nat) : Req := { cluster := some k, core := (r.2.head?).map (·.core), slot := slot, lease := 1, rfmt := false }
  match if kindHasProt (regionKind (line * 128)) then tfind r.1.dir line else none with
  | none => (r.2.foldl (fun s e => s.applyEntry e true) r.1).modCluster k (·.dropCopy line)
  | some d =>
      if d.owner == some k then
        ((r.1.cellUnder line 6 (ask d.slot) true (fun s => r.2.foldl State.rawEntry s) 0 128).1).modCluster k (·.dropCopy line)
      else
        let s := (r.2.foldl (fun s e => s.applyEntry e true) r.1).modCluster k (·.dropCopy line)
        match if held then tfind s.dir line else none with
        | some d => (s.cellUnder line 5 (ask d.slot) true id 0 0).1
        | none => s

/-! ### Store buffers (R207, R209) -/

/-- Whether an item may leave its store buffer: no older marker, and no older entry of its bytes. -/
def sbReady (older : List SItem) (x : SItem) : Bool :=
  match x with
  | .marker .. => older.isEmpty
  | .store e => older.all fun y => match y with
      | .marker .. => false
      | .store f => !e.clash f

/-- Whether an entry is performed in the publish buffer (R206): TEAM or CLUSTER scope on DEVICE and TIER lines. (log 25, DESIGN CHOICE) -/
def performsInPb (e : Entry) : Bool := (e.kind == 2 || e.kind == 3) && e.scope < 3

/-- Write scratch bytes of a team, with their poison marks. -/
def Team.putCells (t : Team) (cs : List (Nat × Byte)) (bad : Bool) : Team :=
  { t with scratch := memCells t.scratch cs, smark := markCells t.smark cs bad }

/-- Bytes applied to B: monitors of their lines wake. -/
def State.scratchPut (s : State) (team : Nat) (cs : List (Nat × Byte)) (bad nw : Bool) : State :=
  let s := s.modTeam team (·.putCells cs bad)
  if nw then s else (cs.foldl (fun l c => sins l (c.1 / 128)) []).foldl (fun s line => s.wakeScratch team line) s

/-- An entry leaves a store buffer (R209): one of SCRATCH is applied to B. (log 25, DESIGN CHOICE) -/
def State.leaveEntry (s : State) (wk team : Nat) (e : Entry) : State :=
  if e.kind = 1 then (s.scratchPut team e.cells e.bad e.nw).donePart wk e.op
  else if s.replaying team then (s.replayCells team e.cells).donePart wk e.op
  else if performsInPb e then
    (s.modCluster (clusterOfKey wk) fun c => { c with pb := c.pb ++ [.store { e with op := 0 }] }).donePart wk e.op
  else s.modCluster (clusterOfKey wk) fun c => { c with pb := c.pb ++ [.store e] }

/-- Whether a publish buffer holds a HOST or PEER store of a wave. -/
def Cluster.farOf (c : Cluster) (wk : Nat) : Bool :=
  c.pb.any fun x => match x with | .store e => e.wave == wk && (e.kind == 4 || e.kind == 5) | .barrier .. => false

/-- An item leaves a store buffer (R209). A marker narrower than DEVICE disappears, unless HOST or PEER stores that it covers are still on
their way: it acts on them at SYSTEM (R214, R227). -/
def State.leaveSb (s : State) (wk : Nat) (x : SItem) : State :=
  match s.wave? wk with
  | none => s
  | some w =>
    match x with
    | .store e => s.leaveEntry wk w.team e
    | .marker scope rel op =>
        if scope < 3 && !(s.cluster (clusterOfKey wk)).farOf wk then s.markerLeft wk scope rel op
        else s.modCluster (clusterOfKey wk) fun c => { c with pb := c.pb ++ [.barrier wk scope rel op] }

/-- Drain everything a wave's store buffer holds, in order. (log 25, DESIGN CHOICE) -/
def State.drainSb (s : State) (wk : Nat) : State :=
  match s.wave? wk with
  | none => s
  | some w => w.sb.foldl (fun s x => s.leaveSb wk x) (s.putWave wk { w with sb := [] })

/-- Everything a cluster's publish buffer holds is applied at the homes, in order, and what has already left it for them. (log 61,
DEDUCED) -/
def State.publishAll (s : State) (k : Nat) : State :=
  let s1 := (s.cluster k).pb.foldl (fun (s : State) x => match x with
    | .store e => (s.flushHq e.line).applyEntry e true
    | .barrier w sc rel op => s.markerLeft w sc rel op) (s.modCluster k fun c => { c with pb := [] })
  (s1.hq.filter fun h => h.2.any fun x => (x.entry?).any fun e => e.core / 4 == k).foldl (fun s h => s.flushHq h.1) s1

/-- Every store and barrier of a wave is applied at its home, and every byte of its cluster's publish buffer that it may have read
(R215). -/
def State.publishWave (s : State) (wk : Nat) : State := (s.drainSb wk).publishAll (clusterOfKey wk)

/-! ### Acquires (R214) -/

/-- FENCE.ACQ: at DEVICE or SYSTEM scope every copy in the cluster is dropped, the owned ones by WBACK (R266); at a narrower scope the
HOST lines', on which any fence acts at SYSTEM. -/
def State.acquire (s : State) (k scope : Nat) : State :=
  let s := s.deliverAll k
  if 3 ≤ scope then
    let own := ((s.cluster k).copies.filter fun c => (tfind s.dir c.line).any (·.owner == some k)).map (·.line)
    (own.foldl (fun s line => s.giveUpLine k line) s).modCluster k fun c => { c with copies := [] }
  else s.modCluster k fun c => { c with copies := c.copies.filter fun x => regionKind (x.line * 128) != 4 }

/-- Append a release marker to a wave's store buffer. -/
def State.release (s : State) (wk scope : Nat) (rel : Option (Nat × Bool)) (op : Nat) : State :=
  s.modWave wk fun w => { w with sb := w.sb ++ [.marker scope rel op] }

end Sys2Proof.Machine
end

