-- ==== Sys2Proof/Machine/Walk.lean ====
section
/-! DEFINITION. What the Ovyen itself does outside one instruction: accesses of agents at the homes, event and completion records, pins and claims, waits withdrawn, the end of a wave, of a team and of a submission (07 R166, R167, 12 R287–R294, 15 R323–R327, 18 R370, R371). -/

namespace Sys2Proof.Machine

/-! ### Agents at the homes (09 R227) -/

/-- Bytes within one line written at its home by an agent that is no cluster: one step, as event PUTW without requester. (log 28, DESIGN CHOICE) -/
def State.agentWrite (s : State) (pa : Nat) (b : List Byte) (nw : Bool) : State := (s.flushHq (pa / 128)).homeWrite pa b nw true

/-- Bytes that may cross lines, written line by line. -/
def State.agentWrites (s : State) (pa : Nat) : Nat → List Byte → State
  | 0, _ => s
  | n + 1, b =>
      if b.isEmpty then s
      else
        let c := 128 - pa % 128
        (s.agentWrite pa (b.take c) false).agentWrites (pa + min c b.length) n (b.drop c)

/-- Bytes written through an access that an agent's checks have passed. -/
def State.agentPut (s : State) (a : Access) (b : List Byte) : State :=
  let s1 := s.agentWrite a.pa (b.take a.cut) false
  if b.length ≤ a.cut then s1 else s1.agentWrite a.pa2 (b.drop a.cut) false

/-- The bytes of an access, each at its address. -/
def Access.cellsOf (a : Access) (b : List Byte) : List (Nat × Byte) := (List.range b.length).map fun i => (a.paAt i, b.getD i 0)

/-- An event of no cluster reaches a line that has a directory entry, under its recorded slot, behind what its queue holds. -/
def State.plainEvent (s : State) (line ev : Nat) : State :=
  let s := s.flushHq line
  match if kindHasProt (regionKind (line * 128)) then tfind s.dir line else none with
  | none => s
  | some d => (s.cellUnder line ev (.none d.slot) true id 0 0).1

/-- A line's home is read: the owner's dirty bytes and the partials come in first (event READ). (log 28, DESIGN CHOICE) -/
def State.agentRead (s : State) (line : Nat) : State := s.plainEvent line 4

/-- A 32-bit word written by the Ovyen at its home. -/
def State.putWord (s : State) (pa x : Nat) : State := s.agentWrite pa (leBytes 4 x) false
def State.putDWord (s : State) (pa x : Nat) : State := s.agentWrite pa (leBytes 8 x) false

/-! ### Reports -/

/-- The walker, or another unit of a partition: it uses no cluster's caches. -/
def unitWho (p ctx : Nat) (sup : Bool) : Who := { k := 48 + p, part := p, ctx := ctx, sup := sup, team := 0, wave := 0, unit := true }

/-- An event record is written into the partition's ring (18 R370). (log 37, DESIGN CHOICE) -/
def State.eventRec (s : State) (p typ ukind unit fdom grid team : Nat) : State :=
  let x := s.part p
  if x.evcount = 0 then s else
  let i := x.evhead % x.evcount
  let phase := bnat (x.evhead / x.evcount % 2 == 0)
  let rec_ := leBytes 4 (typ + ukind * 2 ^ 8 + phase * 2 ^ 31) ++ leBytes 4 unit ++ leBytes 8 fdom ++ leBytes 8 s.gts ++
    leBytes 4 grid ++ leBytes 4 team
  let s1 := s.putPart p { x with evhead := (x.evhead + 1) % 2 ^ 32 }
  let need : Need := { right := 1, kinds := kindsDTH, size := 32, align := 32, write := true }
  if !bitOf (selOf x.evbase) 19 then s1.alert 0x370 typ
  else match effAddr x.evbase (32 * i) with
    | .error _ => s1.alert 0x370 typ
    | .ok ea => match s1.checkAccess (unitWho p 0 true) need 0 ea with
      | .error _ => s1.alert 0x370 typ
      | .ok a => s1.agentPut a rec_

/-! ### Binding entries: pins, parked splits, claims (15 R319–R327) -/

/-- The physical address of a binding entry of a context. -/
def State.entryPA (s : State) (p ctx idx : Nat) : Option Nat :=
  match s.ctxRec p ctx with
  | none => none
  | some b => if idx < recBindn b then some (recBindtab b + 16 * idx) else none

/-- Wake the splits parked on an entry (R323): WKIND 9. -/
def State.wakeParked (s : State) (p ctx idx : Nat) : State :=
  { s with waves := tmap (fun k w =>
      if partOfKey k == p && (s.team? w.team).any (·.ctx == ctx) then
        { w with splits := tmap (fun _ x =>
            { x with wait := x.wait.map fun r => if r.kind == 9 && r.arg == idx then { r with done := true } else r }) w.splits,
                 handler := w.handler.map fun x =>
            { x with wait := x.wait.map fun r => if r.kind == 9 && r.arg == idx then { r with done := true } else r } }
      else w) s.waves }

/-- One step at a binding entry: its state, generation, selector and pins. -/
def State.putEntry (s : State) (pa st gen sel pins : Nat) : State :=
  let s := s.agentWrite pa (leBytes 4 (st + gen % 2 ^ 30 * 4) ++ leBytes 4 sel ++ leBytes 4 pins) false
  s

/-- A released pin's step still to come: at the entry, then at the descriptor (R327). -/
def State.dropPin (s : State) (p ctx : Nat) (f : LFrame) : State :=
  s.modPart p fun x => { x with unpins := x.unpins ++ [(ctx, f, false)] }

/-- A claim ends at an ERET or a retirement of its wave (R324). -/
def State.endClaim (s : State) (k : Nat) : State :=
  match s.wave? k with
  | none => s
  | some w =>
    if !w.linkent.getLsbD 31 then s
    else match s.team? w.team with
    | none => s
    | some t =>
      let s1 := s.putWave k { w with linkent := w.linkent &&& 0x7FFFFFFF#32 }
      let idx := w.linkent.toNat % 2 ^ 20
      match s.entryPA t.part t.ctx idx with
      | none => s1
      | some pa =>
          let e := s.homeNat pa 4
          if e % 4 = 1 && e / 4 == w.linkgen.toNat % 2 ^ 30 then
            (s1.agentWrite pa (leBytes 4 (e / 4 * 4)) false).wakeParked t.part t.ctx idx
          else s1

/-! ### Completion of copies (12 R287–R294) -/

/-- Advance DONE through every batch that is complete. -/
def State.advanceDone (s : State) (blk : Nat) : Nat → State
  | 0 => s
  | n + 1 =>
      let closed := s.homeNat blk 4
      let done := s.homeNat (blk + 4) 4
      let b := (done + 1) % 2 ^ 32
      if serialLt 32 done closed && s.homeNat (blk + 0x20 + 4 * (b % 16)) 4 = 0 then
        (s.putWord (blk + 4) b).advanceDone blk n
      else s

/-- The tag of a copy command. -/
def copyTag : Instr → Nat
  | .btcopy o => o.tag.toNat
  | .btlin o => o.tag.toNat
  | .btgath o => o.tag.toNat
  | _ => 0

/-- The splits of a wave that wait for its batch block, in BTCLOSE or BTWAIT, are woken by its update: they look again (R290). -/
def State.batchWake (s : State) (team wid : Nat) : State :=
  match (s.team? team).bind fun t => tfind t.wkeys wid with
  | none => s
  | some k => s.modWave k fun w =>
      let wake (x : Split) : Split := { x with wait := x.wait.map fun r => if r.kind == 4 || r.kind == 5 then { r with done := true } else r }
      { w with splits := tmap (fun _ x => wake x) w.splits, handler := w.handler.map wake }

/-- Steps 2 to 4 of R291 for a copy of a wave: the record, the batch block, the flag. -/
def State.copyEnd (s : State) (team wid area : Nat) (cmd : Cmd) (status fcode nbytes : Nat) : State :=
  match s.team? team with
  | none => s
  | some t =>
    match s.areaPA t.part area 0x40 with
    | none => s.donePartOf team wid cmd.op
    | some blk =>
      let rcount := s.homeNat (blk + 0x18) 4
      let rhead := s.homeNat (blk + 0x1C) 4
      let s := if rcount = 0 then s else
        let rbase : DWord := BitVec.ofNat 64 (s.homeNat (blk + 0x10) 8)
        let phase := bnat (rhead / rcount % 2 == 0)
        let r := leBytes 4 (status + fcode * 2 ^ 8 + phase * 2 ^ 31) ++ leBytes 4 cmd.batch ++ leBytes 8 nbytes ++
          leBytes 8 s.gts ++ leBytes 8 (copyTag cmd.ins)
        let need : Need := { right := 1, kinds := kindsDTH, size := 32, align := 32, write := true }
        let s := match effAddr rbase (32 * (rhead % rcount)) with
          | .error _ => s
          | .ok ea => match s.checkAccess (unitWho t.part t.ctx true) need 0 ea with
            | .error _ => s
            | .ok a => if s.replaying team then s.replayCells team (a.cellsOf r) else s.agentPut a r
        s.putWord (blk + 0x1C) ((rhead + 1) % 2 ^ 32)
      let pend := blk + 0x20 + 4 * (cmd.batch % 16)
      let s := s.putWord pend (s.homeNat pend 4 - 1)
      let s := if [1, 2, 3, 4, 6].contains status then s.putWord (blk + 8) (min (s.homeNat (blk + 8) 4 + 1) (2 ^ 32 - 1)) else s
      ((s.advanceDone blk 16).donePartOf team wid cmd.op).batchWake team wid

/-! ### Waits withdrawn (17 R337, 18 R354) -/

/-- The armed monitors of a wave are freed, which ends their WAITVs with status 0 (10 R247), its requests at cairns and
FIFO banks withdrawn. -/
def State.withdraw (s : State) (k : Nat) : State :=
  let s := s.wakeIf fun m => m.wave == k
  let s := s.cairns.foldl (fun (s : State) c =>
    let n := (c.2.filter (·.wave == k)).length
    if n = 0 then s
    else { (s.putWord (c.1 + 4) (s.homeNat (c.1 + 4) 4 - n)) with cairns := tset [] s.cairns c.1 (c.2.filter (·.wave != k)) }) s
  { s with clusters := tmap (fun _ c => { c with banks := tmap (fun _ b => { b with wait := b.wait.filter (·.wave != k) }) c.banks }) s.clusters }

/-! ### Barriers (08 R190) -/

/-- Whether a wave has arrived at a barrier: every lane it has not exited is in its set (R190(b)). -/
def waveArrived (wid : Nat) (live : LaneMask) (b : Barrier) : Bool := live &&& ~~~(tget 0 b.arrived wid) == 0

/-- Wake the splits of a team's waves that wait for barrier `n` to complete: to pass it, or (number 16 + n) to arrive in the next phase. -/
def State.wakeBar (s : State) (t : Team) (n : Nat) : State :=
  t.wkeys.foldl (fun s p => s.modWave p.2 fun w =>
    { w with splits := tmap (fun _ x =>
        { x with wait := x.wait.map fun r => if (r.kind == 2 || r.kind == 3) && r.arg % 16 == n then { r with done := true } else r }) w.splits }) s

/-- Test a team's barrier for completion, as an arrival or an exit does (R190(c)). -/
def State.testBar (s : State) (team n : Nat) : State :=
  match s.team? team with
  | none => s
  | some t =>
    match tfind t.bars n with
    | none => s
    | some b =>
      let ws := (t.wkeys.map fun p => match s.wave? p.2 with | some w => [(w.wid, w.liveLanes)] | none => []).flatten
      let live := (ws ++ t.saved.map fun v => (v.1, v.2.live)).filter (·.2 != 0)
      if live.isEmpty || !live.all (fun p => waveArrived p.1 p.2 b) then s
      else (s.putTeam team { t with bars := tput t.bars n { phase := (b.phase + 1) % 2 ^ 32, arrived := [] } }).wakeBar t n

/-- Test every barrier of a team. -/
def State.testBars (s : State) (team : Nat) : State := (List.range 16).foldl (fun s n => s.testBar team n) s

/-! ### The end of waves, teams and submissions (07 R166, R167, 18 R371) -/

/-- A wave leaves its slot: what it stored goes on to the publish buffer, its pins, claim and requests are released. -/
def State.endWave (s : State) (k : Nat) : State :=
  let s := ((s.drainSb k).withdraw k).endClaim k
  match s.wave? k with
  | none => s
  | some w =>
    let s := match s.team? w.team with
      | none => s
      | some t => w.links.reverse.foldl (fun s f => s.dropPin t.part t.ctx f) (s.putTeam w.team { t with wkeys := tdel t.wkeys w.wid })
    { s with waves := tdel s.waves k }

/-- An access of the walker for a block (07 R167): in the context and at the level of the launching wave; a boot
block's through the supervisor tables. -/
def State.walkerAccess (s : State) (x : Sub) (n : Need) (ea : DWord) : Except AFault Access :=
  if x.boot && !bitOf (selOf ea) 19 && selOf ea != 0 then .error { code := fSEGV, cause := 4, addr := ea }
  else match s.checkAccess (unitWho x.part x.ctx x.level) n 0 ea with
    | .error f => .error f
    | .ok a =>
        if (List.range n.size).any (fun i => s.homeMark (a.paAt i) || s.downAt (a.paAt i)) then .error { code := fPOISON, cause := 5, addr := ea }
        else .ok a

/-- What the walker reads through a seg-address at its home, `n` bytes as a number; none where the access fails. -/
def State.walkerRead (s : State) (x : Sub) (n : Nat) (ea : DWord) : State × Option Nat :=
  match s.walkerAccess x { right := 0, kinds := kindsDTH, size := n, align := n, write := false } ea with
  | .error _ => (s, none)
  | .ok a =>
      let s1 := s.agentRead (a.pa / 128)
      let s2 := if n ≤ a.cut then s1 else s1.agentRead (a.pa2 / 128)
      (s2, some (leNat ((List.range n).map fun i => s2.homeByte (a.paAt i))))

/-- The effective FDOM of a submission. -/
def Sub.fdom (x : Sub) : Nat := x.eff.getD 8 0

/-- Report a step of R166 that failed (R167). -/
def State.failedStep (s : State) (x : Sub) (unit : Nat) : State :=
  s.eventRec x.part 8 15 unit x.fdom (if x.leaf then x.gridid else 0xFFFFFFFF) 0

/-- A field of the block is written through its own seg-address, `n` bytes. -/
def State.subPut (s : State) (x : Sub) (off n v : Nat) : State :=
  match s.walkerAccess x { right := 1, kinds := kindsDTH, size := n, align := n, write := true } (x.block + BitVec.ofNat 64 off) with
  | .error _ => s.failedStep x 3
  | .ok a => s.agentPut a (leBytes n v)

/-- STATE with FCODE. -/
def State.subState (s : State) (x : Sub) (st fcode : Nat) : State := s.subPut x 0x84 4 (st + fcode * 2 ^ 24)

/-- The launch pin of a submission is released (15 R327). (log 61, DEDUCED) -/
def State.unpinSub (s : State) (x : Sub) : State :=
  match x.pin with
  | none => s
  | some f => s.dropPin x.part (natAt x.rcb 4 4 / 2 ^ 16 % 2 ^ 12) f

/-- The submissions that have ended and that none stands below any more go. -/
def State.reapSubs (s : State) : Nat → State
  | 0 => s
  | n + 1 => match s.subs.find? fun x => x.2.state == 8 && !s.subs.any fun y => y.2.parent == some x.1 with
    | none => s
    | some x => { s with subs := tdel s.subs x.1 }.reapSubs n

/-- A submission is over. Its node stays while a submission stands below it, whose teams count against its budgets and those above it
(R157(a)). (log 59, DEDUCED) -/
def State.endSub (s : State) (id : Nat) (x : Sub) : State :=
  { s with subs := tput s.subs id { x with state := 8, pin := none } }.reapSubs (s.subs.length + 1)

/-- DONEGTS and STATE 5 with a code are written; the submission ends and its pin goes. -/
def State.subFail (s : State) (id fcode : Nat) : State :=
  match tfind s.subs id with
  | none => s
  | some x =>
    let s := (s.subPut x 0x88 8 s.gts).subState x 5 fcode
    ((s.unpinSub x).modPart x.part (fun p => { p with audits := p.audits.filter fun a => a.team.sub != id })).endSub id x

/-- The teams of a submission. -/
def State.teamsOf (s : State) (id : Nat) : List Nat := (s.teams.filter (·.2.sub == id)).map (·.1)

/-- A team ends without completing: its waves leave, its copies go on, nothing of it is left. -/
def State.killTeam (s : State) (t : Nat) : State :=
  match s.team? t with
  | none => s
  | some x =>
    let s := x.wkeys.foldl (fun s p => s.endWave p.2) s
    { s with teams := tdel s.teams t }

/-- A leaf ends without completing (18 R371): its teams go, no team is admitted any more. -/
def State.killLeaf (s : State) (id fcode : Nat) : State := ((s.teamsOf id).foldl State.killTeam s).subFail id fcode

end Sys2Proof.Machine
end

