-- ==== Sys2Proof/Machine/Operands.lean ====
section
/-! DEFINITION. Every operand form: source registers, the literal and the special operands (02 R28–R31), widening (R30), destinations, register words that hold errors (18 R349). -/

namespace Sys2Proof

/-- A destination that is also a source. -/
def Dst.asSrc : Dst → Src | .v n => .v n | .s n => .s n | .zero => .zero

/-- A register operand: one word, or a pair. -/
def Reg.asSrc : Reg → Src | .v n => .v n | .s n => .s n
def Reg.asDst : Reg → Dst | .v n => .v n | .s n => .s n

/-- The register `i` places after an operand's first. -/
def Src.plus (o : Src) (i : Nat) : Src := match o with | .v n => .v (n + i) | .s n => .s (n + i) | y => y
def Dst.plus (o : Dst) (i : Nat) : Dst := match o with | .v n => .v (n + i) | .s n => .s (n + i) | y => y

/-- Whether a destination makes the instruction uniform (05 R104). -/
def Dst.uni : Dst → Bool | .s _ => true | _ => false

/-- Error keys (18 R349, R351): V register n at lane l is 32 n + l; S register n is 6144 + n; predicate n is 6200 + n. A
key plus 8192 is a word that a command filled from a marked row (cause 4); the bare key is an uncorrectable error
(cause 3). -/
def errV (n l : Nat) : Nat := 32 * n + l
def errS (n : Nat) : Nat := 6144 + n
def errP (n : Nat) : Nat := 6200 + n
def errRow : Nat := 8192

/-- The error keys of a source's `n` registers at a lane. -/
def Src.keys (o : Src) (n l : Nat) : List Nat :=
  match o with
  | .v r => (List.range n).map fun i => errV (r + i) l
  | .s r => (List.range n).map fun i => errS (r + i)
  | _ => []

end Sys2Proof

namespace Sys2Proof.Machine

/-! ### Lanes -/

/-- `active` of a governing predicate (00 R9(c)). -/
def Wave.actLanes (w : Wave) (x : Split) (pred : Nat) (neg : Bool) : LaneMask :=
  x.em &&& (if neg then ~~~(w.p pred) else w.p pred)

/-- The number LANEID reads at a hardware lane (R28, 20 R388). -/
def Wave.laneId (w : Wave) (l : Nat) : Nat := if w.c16 then l % 16 else l
/-- WAVEW. -/
def Wave.waveW (w : Wave) : Nat := if w.c16 then 16 else 32

/-! ### Sources -/

/-- A 32-bit source at a lane (R28). -/
def Wave.src (w : Wave) (x : Split) (l : Nat) : Src → Word
  | .v n => w.v n l
  | .s n => w.s n
  | .lit k => k
  | .zero => 0
  | .laneid => BitVec.ofNat 32 (w.laneId l)
  | .wavew => BitVec.ofNat 32 w.waveW
  | .em => if laneOf x.em l then 1 else 0
  | .ones => 0xFFFFFFFF#32

/-- A 64-bit source at a lane: a register pair, or a special operand widened (R30). -/
def Wave.src64 (w : Wave) (x : Split) (l : Nat) (signed : Bool) : Src → DWord
  | .v n => w.v64 n l
  | .s n => w.s64 n
  | o => if signed then (w.src x l o).signExtend 64 else (w.src x l o).zeroExtend 64

/-- A source read at an operation's type, as a number of its width. -/
def Wave.opnd (w : Wave) (x : Split) (ty : Ty) (l : Nat) (o : Src) : Nat :=
  if ty.wide then (w.src64 x l (ty.signed) o).toNat else (w.src x l o).toNat

/-- A register operand at a lane: one word, or a pair. -/
def Wave.reg (w : Wave) (r : Reg) (l : Nat) : Word := match r with | .v n => w.v n l | .s n => w.s n
def Wave.reg64 (w : Wave) (r : Reg) (l : Nat) : DWord := match r with | .v n => w.v64 n l | .s n => w.s64 n

/-! ### Words that hold errors (18 R349, R351) -/

/-- The cause a key raises: 3, 4, or 0 for a sound word. -/
def Wave.keyCause (w : Wave) (k : Nat) : Nat := if w.errs.contains k then 3 else if w.errs.contains (k + errRow) then 4 else 0

/-- The cause a lane's sources raise. -/
def Wave.laneCause (w : Wave) (srcs : List (Src × Nat)) (preds : List Nat) (l : Nat) : Nat :=
  ((srcs.map fun p => p.1.keys p.2 l).flatten ++ preds.map errP).foldl (fun c k => if c = 0 then w.keyCause k else c) 0

/-- Whether a source is a vector register, read lane by lane. -/
def Src.isVec (o : Src) : Bool := match o with | .v _ => true | _ => false

/-- The sources that are read: an instruction that executes for no lane reads no vector source (02 R33). (log 29, DEDUCED) -/
def readFor (m : LaneMask) (srcs : List (Src × Nat)) : List (Src × Nat) := if m = 0 then srcs.filter fun p => !Src.isVec p.1 else srcs

/-- The POISON an instruction raises when it reads these sources for these lanes: the cause and the lanes (R349). An
instruction that runs for no lane reads its other sources for lane 0. -/
def Wave.poisoned (w : Wave) (srcs : List (Src × Nat)) (preds : List Nat) (m : LaneMask) : Option (Nat × LaneMask) :=
  if w.errs.isEmpty then none
  else
    let srcs := readFor m srcs
    let ls := if m = 0 then [0] else lanesOf m
    match ls.find? (fun l => w.laneCause srcs preds l != 0) with
    | none => none
    | some l =>
        let c := w.laneCause srcs preds l
        some (c, maskWhere fun j => ls.contains j && w.laneCause srcs preds j == c)

/-- A register written again is sound. -/
def Wave.wrote (w : Wave) (keys : List Nat) : Wave :=
  if w.errs.isEmpty then w else { w with errs := w.errs.filter fun k => !(keys.contains k || (errRow ≤ k && keys.contains (k - errRow))) }

/-! ### Destinations -/

/-- Write a 32-bit result: the mask's lanes of a V register, an S register once (with lane 0's value), or nothing. -/
def Wave.putD (w : Wave) (m : LaneMask) (d : Dst) (f : Nat → Word) : Wave :=
  match d with
  | .v n => (w.putVm n m f).wrote ((lanesOf m).map (errV n))
  | .s n => (w.putS n (f 0)).wrote [errS n]
  | .zero => w

/-- Write a 64-bit result to a pair. -/
def Wave.putD64 (w : Wave) (m : LaneMask) (d : Dst) (f : Nat → DWord) : Wave :=
  (w.putD m d fun l => loWord (f l)).putD m (d.plus 1) fun l => hiWord (f l)

/-- Write a result of an operation's width. -/
def Wave.putW (w : Wave) (wide : Bool) (m : LaneMask) (d : Dst) (f : Nat → Nat) : Wave :=
  if wide then w.putD64 m d fun l => BitVec.ofNat 64 (f l) else w.putD m d fun l => BitVec.ofNat 32 (f l)

/-- Write predicate `n` at the lanes of a mask; with no lane to write it stays as it is, an error with it. -/
def Wave.putPd (w : Wave) (n : Nat) (m : LaneMask) (f : Nat → Bool) : Wave := (w.putPm n m f).wrote (if m = 0 then [] else [errP n])

/-- The code offset a displacement names from a base, in units of 4 or 8 bytes (08 R178). -/
def dispTarget (native : Bool) (base : Nat) (d : Disp) : Int := (base : Int) + (if native then 8 else 4) * d.toInt

end Sys2Proof.Machine
end

