-- ==== Sys2Proof/Machine/Flags.lean ====
section
/-! DEFINITION. FPSTAT (04 R98, R99), completion flags and wait masks (02 R47–R51), the random counter of a lane (04 R95). -/

namespace Sys2Proof.Machine

/-- OR exceptions into FPSTAT (R99(a)). -/
def Wave.orFp (w : Wave) (fl : Nat) : Wave := { w with fpstat := w.fpstat ||| BitVec.ofNat 32 fl }

/-- The union of the exceptions of some lanes. -/
def unionFlags (ls : List Nat) (f : Nat → Nat) : Nat := ls.foldl (fun acc l => acc ||| f l) 0

/-- Whether every flag of a wait mask reads zero (R49). (log 23, DESIGN CHOICE) -/
def Wave.waitOk (w : Wave) (mask : BitVec 12) : Bool := (List.range 12).all fun k => !mask.getLsbD k || w.flag k == 0

/-- Whether a set-flag leaves an instruction unissued: the flag stands at 63 (R47). -/
def Wave.flagFull (w : Wave) (f : Option Nat) : Bool := match f with | none => false | some k => 63 ≤ w.flag k

/-- Start an operation of `n` parts on a flag: the flag is incremented, the operation numbered. An operation of no part
increments and decrements in the same clock (R33). (log 25, DESIGN CHOICE) -/
def Wave.newOp (w : Wave) (f : Option Nat) (n : Nat) : Wave × Nat :=
  if n = 0 then (w, 0)
  else
    let id := w.opctr + 1
    let w1 := { w with opctr := id, ops := tput w.ops id { flag := f, left := n } }
    (match f with | none => w1 | some k => w1.putFlag k (w1.flag k + 1), id)

/-- Start an operation only when something waits on it; without a flag a store's parts need no count. -/
def Wave.newOpIf (w : Wave) (f : Option Nat) (n : Nat) : Wave × Nat := if f.isNone then (w, 0) else w.newOp f n

/-- The row word of the lane default counter (R95); a uniform instruction uses hardware lane 0. -/
def State.srRow (s : State) (w : Wave) (l : Nat) : Nat :=
  (((s.team? w.team).map (·.linear)).getD 0 * 1024 + w.wid * 32 + l) % 2 ^ 32

/-- The random word of an SR rounding of a lane's element under the lane default; 0 for the other modes, which read none. -/
def State.laneWord (s : State) (w : Wave) (rm : RM) (l col : Nat) : Nat :=
  if rm = .sr then srWord w.rngLo.toNat w.rngHi.toNat w.rngStream.toNat (s.srRow w l) w.rngStep.toNat col else 0

end Sys2Proof.Machine
end

