-- ==== Sys2Proof/Machine/Ops.lean ====
section
/-! DEFINITION. The named operations the meanings share: running an instruction of a split, register-only instructions, address checks of lanes, taking an exception and returning from one (08 R196–R201, 17 R332–R342, 18 R352–R355), the save area's layout. -/

namespace Sys2Proof.Machine

/-- What an instruction answers. -/
abbrev Out := Host.Outcome State Fault Refusal

/-- Run an instruction of the split that is executing. (log 4, DESIGN CHOICE) -/
def State.run (s : State) (f : Cur → Wave → State) : Out :=
  match s.here with
  | none => .refused .noSplit
  | some (c, w) => .next (f c w)

/-- The executing split. -/
def Cur.split (c : Cur) (w : Wave) : Split := w.split c.entry

/-- The access rights a wave's accesses are made with. -/
def State.who (s : State) (c : Cur) (w : Wave) : Who :=
  { k := clusterOfKey c.wave, part := partOfKey c.wave, ctx := ((s.team? w.team).map (·.ctx)).getD 0, sup := w.clvl,
    team := w.team, wave := c.wave }

/-- Store the wave past its instruction. -/
def State.done (s : State) (c : Cur) (w : Wave) : State := s.putWave c.wave (w.advance c)

/-- The split moves on, its wave changed as `f` says over what the step's effects at the homes have left of it: a store of it that
completed, a split of it that woke. -/
def State.doneBy (s : State) (c : Cur) (f : Wave → Wave) : State := s.modWave c.wave fun w => (f w).advance c

/-- The split waits where it stands. (log 23, DESIGN CHOICE) -/
def State.hold (s : State) (c : Cur) (w : Wave) (r : Wait) : State :=
  s.putWave c.wave (w.modSplit c.entry fun x => { x with wait := some r })

/-! ### Trap codes (17 R332) -/

def tTRAPZ : Nat := 0x00
def tTRAP : Nat := 0x01
def tBKPT : Nat := 0x02
def tILLEGAL : Nat := 0x03
def tILLCONV : Nat := 0x04
def tFMTDIV : Nat := 0x05
def tUNIFORM : Nat := 0x06
def tDIVDEPTH : Nat := 0x07
def tOVERCAP : Nat := 0x10
def tAUDIT : Nat := 0x11
def tPROTLOAD : Nat := 0x12
def tPREEMPT : Nat := 0x13

/-! ### Words of the split table and of the trap registers -/

/-- Words W0–W4 of a split entry (07 R171). -/
def Split.words (x : Split) : List Nat :=
  [x.lanes.toNat, x.em.toNat, x.pc % 2 ^ 32, x.rpc % 2 ^ 32,
   bnat x.norpc * 2 ^ 31 + bnat x.arrived * 2 ^ 30 + bnat x.valid * 2 ^ 29 + x.frames.length * 2 ^ 24 +
     bitsOf x.rpc 32 12 * 2 ^ 12 + bitsOf x.pc 32 12]

/-- Words W0–W4 of a frame. -/
def Frame.words (f : Frame) : List Nat :=
  [f.maska.toNat, f.maskb.toNat, f.dpc % 2 ^ 32, f.outer % 2 ^ 32,
   bnat f.noouter * 2 ^ 31 + bnat f.orig * 2 ^ 30 + f.link * 2 ^ 27 + f.kind * 2 ^ 25 + bitsOf f.outer 32 12 * 2 ^ 12 +
     bitsOf f.dpc 32 12]

/-- A frame read back from its words. -/
def frameOf (b : List Byte) (off : Nat) : Frame :=
  let w (i : Nat) : Nat := natAt b (off + 4 * i) 4
  { maska := BitVec.ofNat 32 (w 0), maskb := BitVec.ofNat 32 (w 1), dpc := w 2 + bitsOf (w 4) 0 12 * 2 ^ 32,
    outer := w 3 + bitsOf (w 4) 12 12 * 2 ^ 32, noouter := bitOf (w 4) 31, orig := bitOf (w 4) 30, link := bitsOf (w 4) 27 3,
    kind := bitsOf (w 4) 25 2 }

/-- A split entry read back from its words and its frames, `fo` the offset of frame 0 and `fs` the frames' stride. -/
def splitOf (b : List Byte) (off fo fs : Nat) (widx : Nat) (wait : Option Wait) : Split :=
  let w (i : Nat) : Nat := natAt b (off + 4 * i) 4
  { valid := bitOf (w 4) 29, lanes := BitVec.ofNat 32 (w 0), em := BitVec.ofNat 32 (w 1), pc := w 2 + bitsOf (w 4) 0 12 * 2 ^ 32,
    rpc := w 3 + bitsOf (w 4) 12 12 * 2 ^ 32, norpc := bitOf (w 4) 31, arrived := bitOf (w 4) 30,
    frames := (List.range (bitsOf (w 4) 24 5)).map fun j => frameOf b (fo + fs * j), widx := widx, wait := wait, trans := false }

/-- TSTATE as it reads (08 R199). -/
def Wave.tstate (w : Wave) : Nat :=
  bnat w.intrap * 2 ^ 31 + bnat w.clvl * 2 ^ 30 + bnat w.plvl * 2 ^ 29 + bnat w.nest * 2 ^ 28 + bnat w.prepend * 2 ^ 27 +
    w.tsplit % 8 * 2 ^ 24

/-- Emulation register `i`: EMUOP, EMUD, EMUA, EMUB, EMUC, EMUMOD, EMULIT. (log 21, DEDUCED) -/
def Wave.emuReg (w : Wave) (i : Nat) : Word := tget 0 w.emu i

/-- The trap registers in the order of the save area: TRAPCODE to TSTATE, then EMUOP to EMULIT (17 R341). -/
def Wave.trapWords (w : Wave) : List Nat :=
  [w.trapcode, w.trapinfo, w.trappc.toNat % 2 ^ 32, w.trappc.toNat / 2 ^ 32, w.faultmask.toNat, w.tstate] ++
    (List.range 7).map fun i => (w.emuReg i).toNat

/-- The per-lane fault addresses as bytes. -/
def Wave.faddrBytes (w : Wave) : List Byte := (allLanes.map fun l => leBytes 8 (tget 0 w.faddr l).toNat).flatten

/-- Words as little-endian bytes. -/
def wordBytes (l : List Nat) : List Byte := (l.map (leBytes 4)).flatten

/-- Fault addresses read back: 32 values of 8 bytes. -/
def faddrOf (b : List Byte) (off : Nat) : Tab DWord :=
  (allLanes.map fun l => (l, (BitVec.ofNat 64 (natAt b (off + 8 * l) 8) : DWord))).filter (·.2 != 0)

/-- Load the trap registers from an image (R339, R342); the level and INTRAP are the caller's. -/
def Wave.loadTrapRegs (w : Wave) (b : List Byte) (off foff : Nat) : Wave :=
  let x (i : Nat) : Nat := natAt b (off + 4 * i) 4
  { w with trapcode := x 0, trapinfo := x 1, trappc := BitVec.ofNat 64 (x 2 + x 3 * 2 ^ 32), faultmask := BitVec.ofNat 32 (x 4),
           plvl := bitOf (x 5) 29, nest := bitOf (x 5) 28, tsplit := bitsOf (x 5) 24 3,
           emu := ((List.range 7).map fun i => (i, (BitVec.ofNat 32 (x (6 + i)) : Word))).filter (·.2 != 0),
           faddr := faddrOf b foff }

/-- SWIDX0 and SWIDX1 of the split table (R199). -/
def Wave.swidxOf (w : Wave) : Nat × Nat :=
  ((List.range 6).foldl (fun a i => a + (w.split i).widx % 32 * 2 ^ (5 * i)) 0,
   (w.split 6).widx % 32 + (w.split 7).widx % 32 * 2 ^ 5)

/-- The word index SWIDX holds for an entry. -/
def Wave.swidxAt (w : Wave) (i : Nat) : Nat := if i < 6 then bitsOf w.swidx0 (5 * i) 5 else bitsOf w.swidx1 (5 * (i - 6)) 5

/-! ### Save areas (17 R338, R341) -/

/-- Write bytes of a wave's save area, line by line. -/
def State.areaPutN (s : State) (p area off : Nat) : Nat → List Byte → State
  | 0, _ => s
  | n + 1, b =>
      if b.isEmpty then s
      else
        let k := 128 - off % 128
        let s1 := match s.areaPA p area off with | none => s | some pa => s.agentWrite pa (b.take k) false
        s1.areaPutN p area (off + k) n (b.drop k)

def State.areaPut (s : State) (p area off : Nat) (b : List Byte) : State := s.areaPutN p area off 400 b

/-- Read bytes of a wave's save area, line by line. -/
def State.areaGetN (s : State) (p area off n : Nat) : Nat → List Byte
  | 0 => []
  | m + 1 =>
      if n = 0 then []
      else
        let k := min n (128 - off % 128)
        (match s.areaPA p area off with | none => List.replicate k 0 | some pa => s.homeBytes pa k) ++ s.areaGetN p area (off + k) (n - k) m

def State.areaGet (s : State) (p area off n : Nat) : List Byte := s.areaGetN p area off n 400

/-! ### Taking an exception (08 R197–R200) -/

/-- The emulation registers of an ILLEGAL (02 R59, R60). (log 21, DEDUCED) -/
def emuOf (r : Raw) (cause : Nat) : Tab Word :=
  ([(0, r.form * 2 ^ 30 + r.half * 2 ^ 29 + cause % 32 * 2 ^ 24 + r.pos % 256 * 2 ^ 16 + r.pred % 16 * 2 ^ 12 + r.op % 1024),
    (1, r.d), (2, r.a), (3, r.b), (4, r.c), (5, r.wait * 2 ^ 20 + r.flag * 2 ^ 16 + bnat r.neg * 2 ^ 15 + r.mods),
    (6, r.lit.getD 0)].map fun p => (p.1, (BitVec.ofNat 32 p.2 : Word))).filter (·.2 != 0)

/-- The handler split over every lane that has not exited (R198 step 5). -/
def handlerSplit (lanes : LaneMask) (pc : Nat) : Split :=
  { valid := true, lanes := lanes, em := lanes, pc := pc, rpc := 0, norpc := true, arrived := false, frames := [], widx := 0,
    wait := none, trans := false }

/-- Steps 3 to 5 of R198: the trap registers are written and the handler split starts at `target`. `entry` is the
trapping split; a trap of a handler split (8) leaves TSTATE.SPLIT as it stands. (log 36, DEDUCED) -/
def Wave.enterHandler (w : Wave) (t : Trap) (entry : Nat) (target : DWord) (sup nested : Bool) : Wave :=
  { w with trapcode := t.code, trapinfo := t.cause + t.num * 2 ^ 8 + t.half * 2 ^ 16, trappc := t.pc, faultmask := t.mask,
           faddr := (t.addrs.filter fun p => laneOf t.mask p.1 && p.2 != 0), intrap := true, plvl := w.clvl, clvl := sup, nest := nested,
           tsplit := if entry = 8 then w.tsplit else entry, codesel := selOf target,
           isel := if nested then w.isel else w.codesel, handler := some (handlerSplit w.liveLanes (offOf target)) }

/-- The split table is frozen: the trapping split stands at its clause or instruction, SWIDX records the word indexes. -/
def Wave.freeze (w : Wave) (entry : Nat) : Wave :=
  let w := if entry = 8 then w else w.modSplit entry fun x => { x with wait := none }
  { w with swidx0 := w.swidxOf.1, swidx1 := w.swidxOf.2 }

/-- The nested frame of an interrupted user-level handler (17 R342). (log 36, DEDUCED) -/
def Wave.nestedFrame (w : Wave) : List Byte :=
  let h := w.handler.getD Split.invalid
  wordBytes (w.trapWords ++ [w.swidx0, w.swidx1, 0]) ++ w.faddrBytes ++ wordBytes (h.words ++ [h.widx, w.codesel, 0]) ++
    ((List.range 16).map fun j => wordBytes (((h.frames[j]?).map (·.words)).getD [0, 0, 0, 0, 0] ++ [0, 0, 0])).flatten

/-- Whether a POISON is consumed in a containment region (18 R354). -/
def Wave.contains (w : Wave) (t : Trap) : Bool :=
  t.code == fPOISON && (t.cause == 1 || t.cause == 3 || t.cause == 4) && !w.intrap && !w.cframes.isEmpty

/-- Discard what a wave has queued and not started (R354 step 2). -/
def State.discardQueued (s : State) (k : Nat) : State :=
  match s.wave? k with
  | none => s
  | some w =>
    let gone := (w.mq ++ w.eq).filter (!·.started)
    let s := s.putWave k { w with mq := w.mq.filter (·.started), eq := w.eq.filter (·.started), cq := [] }
    let s := gone.foldl (fun s c => s.donePart k c.op) s
    w.cq.foldl (fun s c => s.copyEnd w.team w.wid w.area c 5 0 0) s

/-- Unwind a wave to a frame of its containment stack (R354): `frames` are those that remain below it. (log 51, DESIGN CHOICE) -/
def State.unwindTo (s : State) (k : Nat) (f : CFrame) (frames : List CFrame) (t : Trap) : State :=
  let s := (s.discardQueued k).withdraw k
  match s.wave? k with
  | none => s
  | some w =>
    let s := s.modTeam w.team fun x => { x with bars := tmap (fun _ b => { b with arrived := tdel b.arrived w.wid }) x.bars }
    let part := partOfKey k
    let ctx := ((s.team? w.team).map (·.ctx)).getD 0
    let s := (w.links.drop f.lsdepth).reverse.foldl (fun s l => s.dropPin part ctx l) s
    let live := w.liveLanes
    s.putWave k { w with trapcode := t.code, trapinfo := t.cause + t.half * 2 ^ 16, trappc := t.pc, faultmask := t.mask,
                         faddr := (t.addrs.filter fun p => laneOf t.mask p.1 && p.2 != 0), links := w.links.take f.lsdepth,
                         splits := if live = 0 then [] else [(0, handlerSplit live f.off)], handler := none, codesel := f.sel,
                         cframes := frames, unwind := none }

/-- Every other wave of the team that holds a TEAM frame is to unwind too, one that is saved when it is restored (R355): a wave that holds
none has nothing to unwind to. (log 51, DESIGN CHOICE) -/
def State.spreadUnwind (s : State) (k team : Nat) (t : Trap) : State :=
  let s := s.modTeam team fun x => { x with saved := tmap (fun _ v => { v with unwind := some (t.mask, t.addrs, t.cause) }) x.saved }
  { s with waves := tmap (fun j w =>
      if j != k && w.team == team && w.cframes.any (·.team) then { w with unwind := some (t.mask, t.addrs, t.cause) } else w) s.waves }

/-- Unwind at the top frame of the wave's own stack. -/
def State.unwindTop (s : State) (k : Nat) (w : Wave) (t : Trap) : State :=
  match w.cframes.getLast? with
  | none => s
  | some f =>
    let s := s.unwindTo k f w.cframes.dropLast t
    if f.team then s.spreadUnwind k w.team t else s

/-- A wave's pending TEAM unwind is carried out: to its topmost TEAM frame (R355). (log 51, DESIGN CHOICE) -/
def State.unwindPending (s : State) (k : Nat) : State :=
  match s.wave? k with
  | none => s
  | some w =>
    match w.unwind with
    | none => s
    | some (m, addrs, cause) =>
      let rest := (w.cframes.reverse.dropWhile (!·.team)).reverse
      match rest.getLast? with
      | none => s.putWave k { w with unwind := none }
      | some f =>
        s.unwindTo k f rest.dropLast { code := fPOISON, cause := cause, num := 0, half := 0, mask := m, addrs := addrs,
                                       pc := segAddr w.codesel (w.split (w.validEntries.headD 0)).pc }

/-- A double trap (R200, 18 R371): reported, and the wave's leaf ends with FCODE 9. (log 37, DESIGN CHOICE) -/
def State.doubleTrap (s : State) (k : Nat) (w : Wave) : State :=
  match s.team? w.team with
  | none => s
  | some t =>
    (s.eventRec (partOfKey k) 6 15 0 t.fdom t.gridid t.linear).killLeaf t.sub 9

/-- A replay that traps or overflows is abandoned and counted in AUDSKIP (18 R368). -/
def State.abandonReplay (s : State) (team : Nat) : State :=
  match s.team? team with
  | none => s
  | some t => (s.killTeam team).modPart t.part fun p =>
      { p with audskip := (p.audskip + 1) % 2 ^ 32, audits := p.audits.filter fun a => some a.id != t.replay }

/-- Taking a trap in wave `k` (R197–R200). `emu` are the emulation registers when the trap is ILLEGAL. -/
def State.takeTrap (s : State) (k entry : Nat) (t : Trap) (emu : Option (Tab Word)) : State :=
  match s.wave? k with
  | none => s
  | some w0 =>
    let p := partOfKey k
    let regs (w : Wave) : Wave :=
      let w := match emu with | none => w | some e => { w with emu := e }
      if t.code == fLINKAGE && t.cause == 3 then
        { w with linksel := BitVec.ofNat 32 (selOf (tget 0 t.addrs (lowestLane t.mask))) } else w
    let w := regs w0
    let s := s.modTeam w.team fun x => { x with trapped := x.trapped || !(t.code == tPREEMPT || t.code == tOVERCAP) }
    let svec := (s.part p).svec
    if s.replaying w.team && !(t.code == tPREEMPT || t.code == tOVERCAP) then s.abandonReplay w.team
    else if w.contains t then (s.putWave k w).unwindTop k w t
    else if !w.intrap then
      let w := w.freeze entry
      if t.code == tILLEGAL && w.kern.illh != 0 then
        s.putWave k (w.enterHandler t entry (segAddr w.kern.sel (w.kern.koff + w.kern.illh)) w.clvl false)
      else s.putWave k (w.enterHandler t entry svec true false)
    else if w0.clvl then s.doubleTrap k w
    else
      -- a user-level handler is interrupted: its registers and split go to the nested frame
      let s := s.areaPut p w0.area 0x1600 w0.nestedFrame
      s.modWave k fun w => (regs w).enterHandler t entry svec true true

/-- The trap of the executing instruction, at its own address: in native code the clause header's, with the word's index in SWIDX (08 R198,
17 R332, 05 R112). R44 has TRAPPC hold a pair word's address: the header and the index together say where it stands. (log 71, DEDUCED) -/
def Cur.trap (c : Cur) (w : Wave) (code cause : Nat) (mask : LaneMask) (addrs : Tab DWord) : Trap :=
  { code := code, cause := cause, num := 0, half := if c.raw.form = 3 then c.raw.half else 0, mask := mask, addrs := addrs,
    pc := segAddr w.codesel c.base }

/-- The executing instruction traps. -/
def State.raise (s : State) (c : Cur) (t : Trap) : State :=
  { (s.takeTrap c.wave c.entry t none) with cur := some { c with trapped := true } }

/-- The executing instruction raises a trap before itself. -/
def State.fault (s : State) (c : Cur) (w : Wave) (code cause : Nat) (mask : LaneMask) (addrs : Tab DWord) : State :=
  s.raise c (c.trap w code cause mask addrs)

/-- ILLEGAL raised by the executing instruction (02 R57); the emulation registers come from its own fields. (log 21, DEDUCED) -/
def State.illegal (s : State) (c : Cur) (w : Wave) (cause : Nat) : State :=
  { (s.takeTrap c.wave c.entry (c.trap w tILLEGAL cause 0 []) (some (emuOf c.raw cause))) with cur := some { c with trapped := true } }

/-- A mask, or lane 0 when it is empty (R112, R421). -/
def orLane0 (m : LaneMask) : LaneMask := if m = 0 then 1 else m

/-- ILLCONV with a cause, for all lanes of `active`, or lane 0. -/
def State.illconv (s : State) (c : Cur) (w : Wave) (cause : Nat) : State :=
  s.fault c w tILLCONV cause (orLane0 (c.split w).em) []

/-! ### Returning from an exception (08 R201, 17 R339, 18 R369, R376) -/

/-- The frozen table resumes: each native entry at its recorded word index. -/
def Wave.thaw (w : Wave) : Wave :=
  { w with splits := tmap (fun i x => { x with widx := if w.kern.native then w.swidxAt i else x.widx }) w.splits, handler := none, intrap := false, nest := false,
           prepend := false }

/-- ERET with NEST 1: the interrupted handler's frame is loaded back, at the restart point TRAPPC holds (R342). (log 36, DEDUCED) -/
def State.eretNested (s : State) (k : Nat) (w : Wave) : State :=
  let b := s.areaGet (partOfKey k) w.area 0x1600 0x360
  let ts := natAt b 0x14 4
  let h := splitOf b 0x140 0x160 32 (natAt b 0x154 4 % 32) none
  let w1 := w.loadTrapRegs b 0 0x40
  s.putWave k { w1 with swidx0 := natAt b 0x34 4, swidx1 := natAt b 0x38 4, intrap := true, clvl := bitOf ts 30, nest := bitOf ts 28,
                        prepend := w.prepend, codesel := selOf w.trappc,
                        handler := some { h with pc := offOf w.trappc, lanes := h.lanes &&& w.liveLanes, em := h.em &&& w.liveLanes } }

/-- Whether every wave of a restored team has issued its restore ERET. -/
def State.allRestored (s : State) (t : Team) : Bool :=
  t.saved.isEmpty && t.wkeys.all fun p => match s.wave? p.2 with | some w => w.restored | none => true

/-- ERET of a restore entry (R339, R376): the fence, the engines, the team, then the resumption. (log 9, DESIGN CHOICE; log 50, DEDUCED) -/
def State.eretRestore (s : State) (c : Cur) (w : Wave) : State :=
  match s.team? w.team with
  | none => s
  | some t =>
    match (c.split w).wait with
    | none =>
        -- FENCE.SC.DEVICE for the wave
        let (w1, op) := w.newOp none 1
        (s.hold c w1 { kind := 10, arg := op, dead := 0, done := false }).release c.wave 3 none op
    | some r =>
        if r.kind = 10 then
          if (w.ops.any fun o => w.rstop < o.1) then s
          else (s.hold c { w with restored := true } { kind := 0, arg := 0, dead := 0, done := false }).acquire (clusterOfKey c.wave) 3
        else if !s.allRestored t then s
        else
          let p := partOfKey c.wave
          let b := s.areaGet p w.area 0x200 0x140
          let ts := natAt b 0x14 4
          let s := s.areaPut p w.area 0 (leBytes 1 0)
          (s.modWave c.wave fun w =>
            let w1 := (w.loadTrapRegs b 0 0x40).thaw
            { w1 with mq := w1.hm ++ w1.mq, eq := w1.he ++ w1.eq, cq := w1.hc ++ w1.cq, hm := [], he := [], hc := [],
                                      clvl := bitOf ts 30, plvl := bitOf ts 29, codesel := natAt (s.areaGet p w.area 4 4) 0 4 % 2 ^ 20,
                                      nest := false, restore := false }).acquire (clusterOfKey c.wave) 3

/-- ERET of any other handler (R201); one of AUDIT resumes each entry at its own PC (18 R369). -/
def State.eretPlain (s : State) (k : Nat) (w : Wave) : State :=
  let w1 := w.thaw
  let w2 := if w.trapcode = tAUDIT || !(w1.split w.tsplit).valid then { w1 with codesel := if w.trapcode = tAUDIT then w.isel else selOf w.trappc }
    else { (w1.modSplit w.tsplit fun x => { x with pc := offOf w.trappc, wait := none }) with codesel := selOf w.trappc }
  (s.putWave k { w2 with clvl := w.plvl }).unwindPending k

/-- ERET (R201). (log 36, DEDUCED) -/
def State.eret (s : State) (c : Cur) (w : Wave) : State :=
  if !w.intrap then s.illegal c w cUNDEFOP
  else
    let s := s.endClaim c.wave
    match s.wave? c.wave with
    | none => s
    | some w =>
      if w.nest then s.eretNested c.wave w
      else if w.restore then s.eretRestore c w
      else s.eretPlain c.wave w

/-! ### Register-only instructions (05 R103–R107) -/

/-- The predicate registers a governing predicate reads. -/
def predRegs (pred : Nat) : List Nat := if pred = 15 then [] else [pred]

/-- A register-only instruction: its sources read, then its destination written in one step; `val` gives a lane's result
and exceptions. With an S destination it is uniform (R104). -/
def State.runLane (s : State) (pred : Nat) (neg : Bool) (d : Dst) (wide : Bool) (srcs : List (Src × Nat))
    (val : Wave → Split → Nat → Nat × Nat) : Out :=
  s.run fun c w =>
    let r := c.reads w
    let x := r.split c.entry
    let m := r.actLanes x pred neg
    match r.poisoned srcs (predRegs pred) m with
    | some (cause, mask) => s.fault c w fPOISON cause mask []
    | none =>
        s.done c ((w.putW wide m d fun l => (val r x l).1).orFp
          (unionFlags (if d.uni then [0] else lanesOf m) fun l => (val r x l).2))

/-- An instruction that writes a predicate at each active lane. -/
def State.runPred (s : State) (pred : Nat) (neg : Bool) (d : Nat) (srcs : List (Src × Nat)) (preds : List Nat)
    (val : Wave → Split → LaneMask → Nat → Bool × Nat) : Out :=
  s.run fun c w =>
    let r := c.reads w
    let x := r.split c.entry
    let m := r.actLanes x pred neg
    match r.poisoned srcs (predRegs pred ++ (preds.map predRegs).flatten) m with
    | some (cause, mask) => s.fault c w fPOISON cause mask []
    | none => s.done c ((w.putPd d m fun l => (val r x m l).1).orFp (unionFlags (lanesOf m) fun l => (val r x m l).2))

/-! ### Address checks of a memory instruction (10 R236) -/

/-- What a faulting instruction reports: code, cause, FAULTMASK, FADDR. -/
structure LFault where
  code  : Nat
  cause : Nat
  mask  : LaneMask
  addrs : Tab DWord
  deriving DecidableEq, Repr

/-- The report of a set of lane faults, ascending: the lowest lane decides. A uniform instruction reports for the lanes of
`active`, or lane 0 (R112). -/
def reportFaults (fs : List (Nat × AFault)) (uni : Bool) (m : LaneMask) : Option LFault :=
  match fs with
  | [] => none
  | (_, f) :: _ =>
      let same := fs.filter fun p => p.2.code == f.code && p.2.cause == f.cause
      if uni then some { code := f.code, cause := f.cause, mask := orLane0 m, addrs := (lanesOf (orLane0 m)).map fun l => (l, f.addr) }
      else some { code := f.code, cause := f.cause, mask := maskWhere fun l => same.any (·.1 == l), addrs := same.map fun p => (p.1, p.2.addr) }

/-- Check an access for each lane, each at its seg-address; all lanes must pass. -/
def State.checkLanes (s : State) (u : Who) (n : Need) (ls : List Nat) (uni : Bool) (m : LaneMask) (ea : Nat → Except AFault DWord) :
    Except LFault (List (Nat × Access)) :=
  let rs := ls.map fun l => (l, match ea l with | .error f => Except.error f | .ok a => s.checkAccess u n l a)
  let fs := (rs.map fun p => match p.2 with | .error f => [(p.1, f)] | .ok _ => []).flatten
  match reportFaults fs uni m with
  | some f => .error f
  | none => .ok ((rs.map fun p => match p.2 with | .ok a => [(p.1, a)] | .error _ => []).flatten)

/-- The executing instruction raises a reported fault. -/
def State.faultAs (s : State) (c : Cur) (w : Wave) (f : LFault) : State := s.fault c w f.code f.cause f.mask f.addrs

/-- What accesses used stays in the cluster's caches. -/
def State.keepAll (s : State) (u : Who) (l : List (Nat × Access)) : State := l.foldl (fun s p => s.keepFor u p.2 p.1) s

/-- The protocol slot and the range parameters an access names (11 R252): the range table first, else the descriptor. -/
def State.slotOf (s : State) (u : Who) (a : Access) : Nat × Nat :=
  if kindHasProt a.kind then
    match s.rangeParam u.part u.ctx a.ea with
    | some w => (w % 16, w)
    | none => (a.prot, 16)
  else (0, 0)

end Sys2Proof.Machine
end

