-- ==== Sys2Proof/Machine/Format.lean ====
section
/-! DEFINITION. The format word and the sizes of matrix operands (04 R100–R102, 06 R130–R132, R137), what an EPI takes from its parameter block (06 R147, R151). -/

namespace Sys2Proof.Machine

/-! ### The format word (R100–R102) -/

/-- AFMT, BFMT, ACC, SCALE and SPN of a format word. -/
def fwA (w : Nat) : Nat := w % 16
def fwB (w : Nat) : Nat := bitsOf w 4 4
def fwAcc (w : Nat) : Nat := bitsOf w 8 2
def fwScale (w : Nat) : Nat := bitsOf w 10 2
def fwSpn (w : Nat) : Nat := bitsOf w 12 5

/-- Whether every field holds a defined code and the reserved bits are zero (R102 check 3). -/
def fwDefined (w : Nat) : Bool :=
  w / 2 ^ 17 == 0 && fwA w < 12 && fwB w < 12 && fwAcc w != 3 && fwScale w != 3 && [0, 4, 8, 16].contains (fwSpn w)

/-- The row of R101 that a defined format word matches, 0 to 7 from the top; none when it matches no row. -/
def fwRow (w : Nat) : Option Nat :=
  let a := fwA w
  let b := fwB w
  let fp := fwAcc w == 0
  let mx := fwScale w == 1
  if a == 1 && b == 1 && fp && !mx then some 0
  else if a == 2 && b == 2 && fp && !mx then some 1
  else if (a == 3 || a == 4) && (b == 3 || b == 4) && fp then some 2
  else if 5 ≤ a && a ≤ 7 && 5 ≤ b && b ≤ 7 && fp then some 3
  else if (a == 8 || a == 9) && (b == 8 || b == 9) && !fp && !mx then some 4
  else if a == 8 && b == 8 && fp && mx then some 5
  else if a == 10 && b == 10 && !fp && !mx then some 6
  else if a == 11 && b == 8 && !fp && !mx && fwSpn w == 0 then some 7
  else none

/-- Which matrix command reads a format word (R142 step 1, R144). -/
inductive MKind where
  | mma | mmas | mmat | zadd
  deriving DecidableEq, Repr

/-- The rows a command accepts. -/
def MKind.accepts (k : MKind) (row spn : Nat) : Bool :=
  match k with
  | .mma => row != 7 && spn == 0
  | .mmas => row != 7 && spn != 0
  | .mmat => row == 7
  | .zadd => true

/-! ### Sizes (R131) -/

def fmtBits (code : Nat) : Nat := (fmtOfCode code).bits

/-- K of a dense command by its A format. -/
def fwK (w : Nat) : Nat := match fmtBits (fwA w) with | 16 => 32 | 8 => 64 | _ => 128

/-- The dense span of one command: K, or K′ of the sparse rows. -/
def fwSpan (w : Nat) : Nat := match fwSpn w with | 0 => fwK w | 16 => 2 * fwK w | _ => 4 * fwK w

/-- The columns of the A image. -/
def fwKc (w : Nat) : Nat := if fwSpn w = 4 then fwK w / 2 else fwK w

/-- Registers of the A image, of the B image, of the scale image, of the metadata run. -/
def fwARegs (w : Nat) : Nat := 64 * fwKc w * fmtBits (fwA w) / 1024
def fwBRegs (w : Nat) : Nat := 64 * fwSpan w * fmtBits (fwB w) / 1024
def fwBlocks (w : Nat) : Nat := fwSpan w / 32
def fwMdRegs (w : Nat) : Nat := 2 * fwBlocks w

/-- The smallest power of two at or above a number, at most 32: what a run's start is a multiple of. -/
def runAlign (n : Nat) : Nat := if n ≤ 1 then 1 else if n ≤ 2 then 2 else if n ≤ 4 then 4 else if n ≤ 8 then 8 else if n ≤ 16 then 16 else 32

/-- Whether a run of V registers is aligned and within the declaration (R131, R141 cause 9). -/
def runOk (vregs start n : Nat) : Bool := start % runAlign n == 0 && start + n ≤ vregs

/-- The V registers a matrix command reads beside its format word, once its format word is known. -/
def MmaOp.runs (o : MmaOp) (w : Nat) : List (Nat × Nat) :=
  [(o.a, fwARegs w)] ++ (match o.b with | .regs v => [(v, fwBRegs w)] | .handle _ => []) ++
    (match o.md with | some v => [(v, fwMdRegs w)] | none => []) ++ (match o.scl with | some v => [(v, fwBlocks w)] | none => [])

/-! ### The parameter block (R147) -/

def epiW0 (b : List Byte) : Nat := natAt b 0 4
def epiOfmt (b : List Byte) : Nat := epiW0 b % 16
def epiRm (b : List Byte) : Nat := bitsOf (epiW0 b) 4 3
def epiSat (b : List Byte) : Bool := bitOf (epiW0 b) 7
def epiAct (b : List Byte) : Nat := bitsOf (epiW0 b) 8 2
def epiTbank (b : List Byte) : Nat := bitsOf (epiW0 b) 10 1
def epiDest (b : List Byte) : Bool := bitOf (epiW0 b) 11
def epiZint (b : List Byte) : Bool := bitOf (epiW0 b) 12
def epiBiasEn (b : List Byte) : Bool := bitOf (epiW0 b) 13
def epiBiasFmt (b : List Byte) : Nat := bitsOf (epiW0 b) 14 2
def epiScope (b : List Byte) : Nat := bitsOf (epiW0 b) 16 3

/-- The registers an EPI with DEST 0 writes (R149(a)). -/
def epiRegs (b : List Byte) : Nat := fmtBits (epiOfmt b) / 2

/-! ### Activation banks (R151) -/

def Core.act (c : Core) (bank : Nat) : ActBank := if bank = 0 then c.act0 else c.act1
def Core.putAct (c : Core) (bank : Nat) (b : ActBank) : Core := if bank = 0 then { c with act0 := b } else { c with act1 := b }

/-- The table of a generation: the one installed, or one that waits. -/
def ActBank.table (b : ActBank) (gen : Nat) : List Word :=
  if gen = b.gen then b.tab else ((b.queue[gen - b.gen - 1]?).map (·.tab)).getD []

/-- The generation an EPI captures (R151, R152 step 1), and the context that generation belongs to, none for no table. -/
def ActBank.nextGen (b : ActBank) : Nat := b.gen + b.queue.length
/-- (log 55, DEDUCED) -/
def ActBank.nextOwner (b : ActBank) : Option Nat :=
  match b.queue.getLast? with | some x => some x.ctx | none => if b.loaded then some b.owner else none

/-- A held EPI takes a copy of its activation table with it (17 R341). -/
def Cmd.keepTable (core : Core) (c : Cmd) : Cmd :=
  match c.ins with
  | .epi _ =>
      if epiAct c.blk = 2 && c.blk.length = 256 then
        { c with blk := c.blk ++ (((core.act (epiTbank c.blk)).table c.gen).map fun x => leBytes 4 x.toNat).flatten }
      else c
  | _ => c

end Sys2Proof.Machine
end

