-- ==== Sys2Proof/Machine/Score.lean ====
section
/-! DEFINITION. The register scoreboard (02 R48): which registers an instruction names, and whether one of them still awaits a result. -/

namespace Sys2Proof

/-- The register codes of `n` registers from an operand (R28). -/
def Src.codes (o : Src) (n : Nat) : List Nat :=
  match o with
  | .v r => (List.range n).map fun i => r + i
  | .s r => (List.range n).map fun i => 192 + r + i
  | _ => []
def Dst.codes (o : Dst) (n : Nat) : List Nat := o.asSrc.codes n
def Reg.codes (o : Reg) (n : Nat) : List Nat := o.asSrc.codes n
/-- A run of V registers, of S registers. -/
def vCodes (r n : Nat) : List Nat := (Src.v r).codes n
def sCodes (r n : Nat) : List Nat := (Src.s r).codes n

def Ty.words (t : Ty) : Nat := if t.wide then 2 else 1
def Sz.words (z : Sz) : Nat := match z with | .w64 => 2 | _ => 1

def Un.regs (o : Un) : List Nat := o.d.codes o.ty.words ++ o.a.codes o.ty.words
def Bin.regs (o : Bin) : List Nat := o.d.codes o.ty.words ++ o.a.codes o.ty.words ++ o.b.codes o.ty.words
def Tri.regs (o : Tri) (dn : Nat) : List Nat := o.d.codes dn ++ o.a.codes o.ty.words ++ o.b.codes o.ty.words ++ o.c.codes o.ty.words
def Short.regs (o : Short) : List Nat := o.d.codes o.sz.words ++ o.a.codes o.sz.words
/-- A matrix command's format word register; its runs, which that word sizes, come in `Wave.scoreHeld`. -/
def MmaOp.regs (o : MmaOp) : List Nat := vCodes o.c 1
def LdOp.regs (o : LdOp) (an : Nat) : List Nat := o.d.codes o.size.regs ++ o.a.codes an ++ o.b.codes 1
def StOp.regs (o : StOp) (an : Nat) : List Nat := o.d.codes o.size.regs ++ o.a.codes an ++ o.b.codes 1
def AtomOp.regs (o : AtomOp) (n : Nat) : List Nat := o.d.codes n ++ o.a.codes 2 ++ o.b.codes n

/-- The registers a memory, control, system or engine instruction reads or writes, by code. -/
def Instr.regsB : Instr → List Nat
  | .brauReg o => o.a.codes 2
  | .brx o => o.a.codes 2
  | .call o => vCodes o.d 2
  | .callx o => vCodes o.d 2 ++ o.a.codes 2
  | .ret o => o.a.codes 2
  | .braDec o => sCodes o.d 1
  | .braDecReg o => sCodes o.d 1 ++ o.a.codes 2
  | .emrd _ d _ => sCodes d 1
  | .emwr _ a _ => a.codes 1
  | .waitf _ a _ => a.codes 1
  | .sleep _ a => a.codes 1
  | .launch o => o.d.codes 1 ++ sCodes o.a 2
  | .gset _ _ (.from a) => a.codes 1
  | .sysr o => o.d.codes (if o.w64 then 2 else 1)
  | .sysw o => o.a.codes (if o.w64 then 2 else 1)
  | .ltimeWrite o => o.a.codes (if o.w64 then 2 else 1)
  | .fdpendClear o => o.a.codes (if o.w64 then 2 else 1)
  | .protld o => sCodes o.a 2
  | .protsel o => sCodes o.a 2 ++ sCodes o.b 2
  | .ltadv o => o.d.codes 1 ++ o.a.codes 1
  | .btcopy o => o.a.codes 2 ++ o.b.codes 5 ++ o.c.codes 1
  | .btlin o => o.a.codes 2 ++ o.b.codes 2 ++ o.c.codes 1
  | .btgath o => o.a.codes 2 ++ o.b.codes 1 ++ o.c.codes 1 ++ vCodes o.e 1
  | .btclose o => o.d.codes 1
  | .btwait o => o.d.codes 1 ++ o.a.codes 1
  | .btring o => sCodes o.a 2 ++ o.b.codes 1
  | .lnk o => o.d.codes 2 ++ o.a.codes 1
  | .calll o => vCodes o.d 2 ++ o.a.codes 1
  | .bind o => o.d.codes 1 ++ o.a.codes 1 ++ sCodes o.b 1
  | .bindFail o => o.d.codes 1 ++ o.a.codes 1
  | .unbind o => o.d.codes 1 ++ o.a.codes 1
  | .segld o => sCodes o.d 8 ++ o.a.codes 1
  | .segupd o => o.a.codes 1 ++ sCodes o.b 8
  | .segchk o => o.a.codes 2 ++ o.b.codes 1
  | .shoot o => o.a.codes 1 ++ o.b.codes 1
  | .icinv o => sCodes o.a 2 ++ o.b.codes 1
  | .splitrd o => sCodes o.d 1 ++ o.a.codes 1
  | .splitwr o => o.a.codes 1 ++ o.b.codes 1
  | .flagwrSet _ _ a => a.codes 1
  | .capq o => sCodes o.d 1 ++ o.a.codes 1
  | .sigrd _ d => sCodes d 2
  | .psnw o => o.a.codes 2
  | .mma o => o.regs
  | .mmas o => o.regs
  | .mmat o => o.regs
  | .zld o => sCodes o.a 1
  | .zst o => sCodes o.a 1
  | .zmov o => vCodes o.d 16
  | .zadd o => vCodes o.c 1
  | .epi o => sCodes o.a 2 ++ (match o.b with | some v => vCodes v 16 | none => []) ++ (match o.c with | some v => sCodes v 5 | none => [])
  | .actld o => sCodes o.a 2
  | .ohdl o => o.a.codes 1
  | .ld o => o.regs 2
  | .st o => o.regs 2
  | .ldsp o => o.regs 1
  | .ldspPi o => o.regs 1
  | .stsp o => o.regs 1
  | .stspPi o => o.regs 1
  | .ldspZ32 o => o.d.codes o.sz.words ++ o.a.codes 1
  | .stspZ32 o => o.d.codes o.sz.words ++ o.a.codes 1
  | .atom o => o.regs 1
  | .atomB64 o => o.regs 2
  | .red o => o.regs 1
  | .redB64 o => o.regs 2
  | .atomcas o => o.d.codes (if o.w64 then 2 else 1) ++ o.a.codes 2 ++ o.b.codes (if o.w64 then 4 else 2)
  | .atomcasSp o => o.d.codes 1 ++ o.a.codes 1 ++ o.b.codes 1 ++ o.c.codes 1
  | .atomdp o => o.d.codes 1 ++ o.a.codes 2
  | .fatom o => o.d.codes 1 ++ o.a.codes 2 ++ o.b.codes 1
  | .ldq o => vCodes o.d (if o.w64 then 2 else 1) ++ o.q.codes 1
  | .stq o => vCodes o.d (if o.w64 then 2 else 1) ++ o.q.codes 1
  | .acq o => sCodes o.a 2
  | .acqt o => sCodes o.a 2
  | .rel o => sCodes o.a 2
  | .waitv o => sCodes o.d 1 ++ sCodes o.a 2 ++ sCodes o.b (if o.w64 then 4 else 2)
  | .wake o => o.a.codes 2
  | .pref o => o.a.codes 2 ++ o.b.codes 1
  | .rinv o => sCodes o.a 2 ++ o.b.codes 1
  | .rinvWb o => sCodes o.a 2 ++ o.b.codes 1
  | .rflush o => sCodes o.a 2 ++ o.b.codes 1
  | .bankcfg _ a => a.codes 1
  | _ => []

/-- The registers any instruction reads or writes, by code. -/
def Instr.regs : Instr → List Nat
  | .iadd o | .isub o | .imul o | .imulh o | .imadD o | .imin o | .imax o | .nmin o | .nmax o | .andB o | .orB o | .xorB o
  | .andn o | .shl o | .shr o | .sar o | .rotl o | .bfx o | .fadd o | .fsub o | .fmul o | .ffmaD o | .fmin o | .fmax o | .fdiv o
  | .hadd2 o | .hmul2 o | .hfma2D o => o.regs
  | .sega o => o.d.codes 2 ++ o.a.codes 1 ++ o.b.codes 2
  | .padd o => o.d.codes 2 ++ o.a.codes 2 ++ o.b.codes o.ty.words
  | .pseg o => o.d.codes 1 ++ o.a.codes 2
  | .poff o => o.d.codes 2 ++ o.a.codes 2
  | .iabs o | .ineg o | .notB o | .popc o | .clz o | .brev o | .mov o | .movl o | .fsqrt o | .frcp o | .frsq o | .fexp2 o | .flog2 o
  | .fsin o | .fcos o | .ftanh o => o.regs
  | .iaddZ32 o | .isubZ32 o | .imulZ32 o | .iabsZ32 o | .inegZ32 o | .iminZ32 o | .imaxZ32 o | .nminZ32 o | .nmaxZ32 o | .andZ32 o
  | .orZ32 o | .xorZ32 o | .notZ32 o | .andnZ32 o | .shlZ32 o | .shrZ32 o | .sarZ32 o | .rotlZ32 o | .popcZ32 o | .clzZ32 o | .brevZ32 o
  | .movZ32 o | .faddZ32 o | .fsubZ32 o | .fmulZ32 o | .fminZ32 o | .fmaxZ32 o | .fsqrtZ32 o | .frcpZ32 o | .frsqZ32 o | .fexp2Z32 o
  | .flog2Z32 o | .fsinZ32 o | .fcosZ32 o | .ftanhZ32 o | .hadd2Z32 o | .hmul2Z32 o | .f2iZ32 o | .i2fZ32 o => o.regs
  | .iadc o => o.regs 2
  | .imad o => o.regs o.ty.words
  | .bfi o | .prmt o | .ffma o | .hfma2 o => o.regs 1
  | .icmp o | .fcmp o => o.a.codes o.ty.words ++ o.b.codes o.ty.words
  | .sel o => o.d.codes o.ty.words ++ o.a.codes o.ty.words ++ o.b.codes o.ty.words
  | .fclass o => o.a.codes 1
  | .f2i o | .i2f o => o.d.codes o.dst.words ++ o.a.codes o.src.words
  | .fcvt o => o.d.codes o.dst.packed ++ o.a.codes o.src.packed
  | .fupk o => o.d.codes o.src.count ++ o.a.codes o.src.packed
  | .fpk o => o.d.codes o.fmt.packed ++ o.a.codes o.fmt.count
  | .qnt o => o.d.codes o.fmt.packed ++ o.a.codes 1 ++ o.b.codes 1
  | .dqnt o => o.d.codes 1 ++ o.a.codes o.fmt.packed ++ o.b.codes 1
  | .shfl o => o.d.codes (if o.w64 then 2 else 1) ++ o.a.codes (if o.w64 then 2 else 1) ++ o.b.codes 1
  | .vred o | .vscan o => o.d.codes o.ty.words ++ o.a.codes o.ty.words
  | .ballot o => o.d.codes 1
  | .matchOp o => o.d.codes 1 ++ o.a.codes (if o.w64 then 2 else 1)
  | i => i.regsB

/-- Whether an instruction takes its place in the issue queue of memory operations, fences and engine commands (09 R204, R207), or reads a
structure as a load does (10 R424). -/
def Instr.memOp : Instr → Bool
  | .ld _ | .st _ | .atom _ | .atomB64 _ | .atomcas _ | .atomcasSp _ | .atomdp _ | .fatom _ | .red _ | .redB64 _ | .ldsp _
  | .ldspZ32 _ | .stsp _ | .stspZ32 _ | .ldspPi _ | .stspPi _ | .acq _ | .acqt _ | .rel _ | .fence .. | .pub .. | .waitv _
  | .wake _ | .rinv _ | .rinvWb _ | .rflush _ | .bar .. | .bara .. | .launch _ | .icinv _ | .shoot _ | .flagwrSave _ | .mma _ | .mmas _
  | .mmat _ | .zclr _ | .zld _ | .zst _ | .zmov _ | .zadd _ | .epi _ | .actld _ | .protld _ | .btcopy _ | .btlin _ | .btgath _ | .spfence _
  | .psnw _ | .segld _ | .bind _ | .bindFail _ => true
  | _ => false

end Sys2Proof

namespace Sys2Proof.Machine

/-- Whether an atomic of the wave has not taken effect yet: it stands in the issue queue, and later memory operations wait
behind it (09 R207, R213). (log 26, DEDUCED) -/
def Wave.atomsLeft (w : Wave) : Bool := w.pend.any fun p => p.atoms.any (·.fn < 16)

/-- Whether an instruction names a register that still awaits its result (R48). (log 26, DEDUCED) -/
def Wave.scoreHeld (w : Wave) (i : Instr) : Bool :=
  let runs (o : MmaOp) : List Nat := ((MmaOp.runs o (w.v o.c 0).toNat).map fun r => vCodes r.1 r.2).flatten
  let regs := match i with
    | .mma o | .mmas o | .mmat o => o.regs ++ runs o
    | j => j.regs
  (w.pend.any fun p => p.regs.any fun r => regs.contains r) || (w.eq.any fun c => c.dst.any fun r => regs.contains r)

end Sys2Proof.Machine
end

