-- ==== Sys2Proof/Machine/Fetch.lean ====
section
/-! DEFINITION. Fetching and decoding at a split's place (08 R186, R198, 02 R45, R46, 15 R315, R316, 08 R421): instruction-cache lines, fetch faults, the clause's words. -/

namespace Sys2Proof.Machine

/-! ### Instruction-cache lines (15 R313, R316) -/

/-- The physical address of a linear address of a segment. -/
def State.linPA (s : State) (u : Who) (sel kind lin : Nat) : Option Nat :=
  match s.translate u sel kind lin with
  | .page pg _ pa _ => some (pa + (lin - pg))
  | _ => none

/-- Linear bytes of code as a line of the instruction cache. -/
def codeLineOf (u : Who) (sel j : Nat) (l : List (Byte × Bool)) : ILine :=
  { ctx := u.ctx, sel := sel, idx := j, bytes := l.map (·.1), marks := (List.range 4).filter fun i => ((l.drop (32 * i)).take 32).any (·.2) }

/-- A line that is filled: expanded code, or 128 bytes of plain code, read in one step at its homes (R316, R317). -/
def State.fillCode (s : State) (u : Who) (sel : Nat) (d : Desc) (j : Nat) : Except AFault ILine :=
  match if d.ccode then s.expandLine u sel d j else s.linBytes u sel d.kind (d.base + 128 * j) 128 with
  | .ok l => .ok (codeLineOf u sel j l)
  | .error (code, cause) => .error { code := code, cause := cause, addr := segAddr sel (128 * j) }

/-- A line of a code segment: from the cluster's instruction cache, else filled. -/
def State.codeLine (s : State) (u : Who) (sel : Nat) (d : Desc) (j : Nat) : Except AFault ILine :=
  match (s.cluster u.k).icache.find? (fun l => l.ctx == u.ctx && l.sel == sel && l.idx == j) with
  | some l => .ok l
  | none => s.fillCode u sel d j

/-- Keep a line, with the LATT entry and the translation it used, in the cluster's caches. -/
def State.keepLine (s : State) (u : Who) (sel : Nat) (d : Desc) (j : Nat) : State :=
  match s.codeLine u sel d j with
  | .error _ => s
  | .ok l =>
    let s1 := s.keepDesc u sel
    if (s.cluster u.k).icache.any (fun x => x.ctx == l.ctx && x.sel == sel && x.idx == j) then s1
    else
      let s2 := if d.ccode then s1 else s1.keepTlb u sel d.kind (d.base + 128 * j)
      s2.modCluster u.k fun c =>
        { c with icache := c.icache ++ [l],
                 latt := match if d.ccode then s.lattEntry u sel d j else .error (0, 0) with
                   | .ok (e, _) => if c.latt.any (fun x => x.ctx == l.ctx && x.sel == sel && x.idx == j) then c.latt
                               else c.latt ++ [{ ctx := l.ctx, sel := sel, idx := j, val := BitVec.ofNat 64 e }]
                   | .error _ => c.latt }

/-- The descriptor a fetch goes through, with the checks that need no byte (R315, R421). (log 22, DEDUCED) -/
def State.codeDesc (s : State) (u : Who) (sel off : Nat) : Except AFault Desc :=
  if sel = 0 then .error { code := fNULLSEG, cause := 0, addr := segAddr sel off }
  else match s.descBytes u sel with
    | .bad => .error { code := fSEGV, cause := 4, addr := segAddr sel off }
    | .poison _ => .error { code := fPOISON, cause := 5, addr := segAddr sel off }
    | .ok b => .ok (descOf b)

/-- Fetch `n` bytes of code (4 or 8, aligned): the first check that fails is the fetch fault. (log 22, DEDUCED) -/
def State.fetchAt (s : State) (u : Who) (sel : Nat) (d : Desc) (off n : Nat) : Except AFault Nat :=
  let a := segAddr sel off
  if d.limit < off + n then .error { code := fSEGV, cause := 1, addr := a }
  else if !d.x then .error { code := fCODEREV, cause := 0, addr := a }
  else if d.detached then .error { code := fLINKAGE, cause := 3, addr := a }
  else match s.codeLine u sel d (off / 128) with
    | .error f => .error f
    | .ok l =>
        if l.marks.contains (off % 128 / 32) then .error { code := fPOISON, cause := 2, addr := a }
        else .ok (natAt l.bytes (off % 128) n)

/-! ### What stands at a place -/

/-- What a split finds where it stands. -/
inductive Fetched where
  /-- A fetch fault (R421). -/
  | fault (f : AFault)
  /-- ILLEGAL; with an address when it is BADFLOW at a place that is no instruction start (R420). -/
  | bad (b : Bad) (target : Option DWord)
  /-- A word of zeros where a clause header stands (R45(c)). -/
  | zero
  /-- A clause header, not yet past its wait mask. -/
  | header (h : Header)
  /-- An instruction: its own address, the place after it, its word index, its raw fields; a pair's second half. -/
  | word (i : Instr) (r : Raw) (pair : Option (Instr × Raw)) (pc next nextw widx : Nat)
  /-- No word is left in the clause: the next one starts here. -/
  | skip (next : Nat)
  deriving DecidableEq, Repr

/-- What the decode of a wave's words depends on. (log 36, DEDUCED) -/
def Wave.env (w : Wave) : DecEnv :=
  { vregs := w.kern.vregs, sregs := w.kern.sregs, ztiles := w.kern.ztiles, sup := w.clvl, c16 := w.c16, inTrap := w.intrap }

/-- Fetch and decode a Zynran instruction (02 R34–R38). -/
def State.fetchZynran (s : State) (u : Who) (w : Wave) (pc : Nat) : Fetched :=
  let sel := w.codesel
  if pc % 4 != 0 then .bad { cause := cBADFLOW, raw := Raw.none 0 } (some (segAddr sel pc))
  else match s.codeDesc u sel pc with
    | .error f => .fault f
    | .ok d => match s.fetchAt u sel d pc 4 with
      | .error f => .fault f
      | .ok p0 =>
        let n := parcelsOf p0
        let rest : Except AFault (Nat × Nat) := if n = 1 then .ok (0, 0) else match s.fetchAt u sel d (pc + 4) 4 with
          | .error f => .error f
          | .ok p1 => if n = 2 then .ok (p1, 0) else match s.fetchAt u sel d (pc + 8) 4 with
            | .error f => .error f
            | .ok p2 => .ok (p1, p2)
        match rest with
        | .error f => .fault f
        | .ok (p1, p2) =>
          match decodeZynran w.env p0 p1 p2 with
          | (_, .error b) => .bad b none
          | (k, .ok i) => .word i (zynranRaw p0 p1 p2) none pc (pc + 4 * k) 0 0

/-- The counted words of a clause; the first that cannot be fetched is the fault. -/
def State.fetchWords (s : State) (u : Who) (sel : Nat) (d : Desc) (off : Nat) : Nat → Except AFault (List Nat)
  | 0 => .ok []
  | n + 1 => match s.fetchAt u sel d off 8 with
    | .error f => .error f
    | .ok x => match s.fetchWords u sel d (off + 8) n with
      | .error f => .error f
      | .ok l => .ok (x :: l)

/-- The words a header counts: 0 for a word that is not a header. -/
def clauseLen (w : Nat) : Nat := if w / 2 ^ 62 == 2 then bitsOf w 37 5 else 0

/-- Fetch and decode a native clause and find the word at an index (R45, R46, R198). (log 22, DEDUCED) -/
def State.fetchNative (s : State) (u : Who) (w : Wave) (pc widx : Nat) : Fetched :=
  let sel := w.codesel
  if pc % 8 != 0 then .bad { cause := cBADFLOW, raw := Raw.none 2 } (some (segAddr sel pc))
  else match s.codeDesc u sel pc with
    | .error f => .fault f
    | .ok d => match s.fetchAt u sel d pc 8 with
      | .error f => .fault f
      | .ok h => match s.fetchWords u sel d (pc + 8) (clauseLen h) with
        | .error f => .fault f
        | .ok ws => match decodeClause w.env h ws with
          | .error b => .bad b (if h / 2 ^ 62 == 2 then none else some (segAddr sel pc))
          | .ok none => .zero
          | .ok (some c) =>
            let next := pc + 8 * (c.hdr.len + 1)
            if widx = 0 then .header c.hdr
            else match c.words.filter (fun p => widx ≤ p.1) with
              | [] => .skip next
              | (i, x) :: rest =>
                let after := match rest with | [] => (next, 0) | (j, _) :: _ => (pc, j)
                match x with
                | .one ins r _ => .word ins r none (pc + 8 * i) after.1 after.2 i
                | .two ins jns r q => .word ins r (some (jns, q)) (pc + 8 * i) after.1 after.2 i

/-- Fetch and decode at a split's place. (log 22, DEDUCED) -/
def State.fetch (s : State) (u : Who) (w : Wave) (x : Split) : Fetched :=
  if w.kern.native then s.fetchNative u w x.pc x.widx else s.fetchZynran u w x.pc

/-- The lines a fetch used stay in the instruction cache: every line from the place on that was reached. -/
def State.keepFetch (s : State) (u : Who) (w : Wave) (x : Split) : State :=
  match s.codeDesc u w.codesel x.pc with
  | .error _ => s
  | .ok d =>
    if d.x && !d.detached && x.pc + 4 ≤ d.limit then
      let n := if w.kern.native then (match s.fetchAt u w.codesel d x.pc 8 with | .ok h => 8 * (clauseLen h + 1) | .error _ => 8)
               else match s.fetchAt u w.codesel d x.pc 4 with | .ok p => 4 * parcelsOf p | .error _ => 4
      let last := (min (x.pc + n) d.limit - 1) / 128
      (List.range (last - x.pc / 128 + 1)).foldl (fun s i => s.keepLine u w.codesel d (x.pc / 128 + i)) s
    else s

/-! ### What a split does when it cannot issue -/

/-- Who fetches for a wave. -/
def State.waveWho (s : State) (k : Nat) (w : Wave) : Who :=
  { k := clusterOfKey k, part := partOfKey k, ctx := ((s.team? w.team).map (·.ctx)).getD 0, sup := w.clvl, team := w.team, wave := k }

/-- The trap of a fetch fault (R421): FAULTMASK the split's EM or lane 0, FADDR the failing byte. -/
def fetchTrap (w : Wave) (x : Split) (code cause : Nat) (addr : DWord) : Trap :=
  { code := code, cause := cause, num := 0, half := 0, mask := orLane0 x.em, addrs := (lanesOf (orLane0 x.em)).map fun l => (l, addr),
    pc := segAddr w.codesel x.pc }

/-- The trap of a decode ILLEGAL: FAULTMASK and FADDR are 0 but for BADFLOW at a place that is no start (R420(c)). (log 21, DEDUCED) -/
def decodeTrap (w : Wave) (x : Split) (b : Bad) (target : Option DWord) : Trap :=
  match target with
  | some a => fetchTrap w x tILLEGAL b.cause a
  | none => { code := tILLEGAL, cause := b.cause, num := 0, half := if b.raw.form = 3 then b.raw.half else 0, mask := 0, addrs := [],
              pc := segAddr w.codesel x.pc }

/-- Take the trap that a fetch found, if it found one. (log 22, DEDUCED) -/
def State.takeFetched (s : State) (k e : Nat) (w : Wave) (x : Split) (f : Fetched) : State :=
  match f with
  | .fault f => s.takeTrap k e (fetchTrap w x f.code f.cause f.addr) none
  | .bad b t => s.takeTrap k e (decodeTrap w x b t) (some (emuOf b.raw b.cause))
  | .zero => s.takeTrap k e (fetchTrap w x tTRAPZ 0 (segAddr w.codesel x.pc)) none
  | _ => s

/-- The kind of a wait at issue that has a bound: the instruction has not issued, and the save records nothing of it. -/
def boundWait : Nat := 16

/-- Whether a split stands at a pre-emption point (17 R334): at a clause header or, in Zynran code, at any instruction; or in a wait without
bound. A wait of kind 0 is for queue room, or (with an operation) for a marker, which has a bound. -/
def Wave.atPoint (w : Wave) (x : Split) : Bool :=
  match x.wait with
  | some r => if r.kind = boundWait then !w.kern.native else r.kind != 0 || r.arg == 0
  | none => !w.kern.native || x.widx == 0

/-- Whether every split of a wave stands at a pre-emption point. -/
def Wave.allAtPoint (w : Wave) : Bool := w.validEntries.all fun e => w.atPoint (w.split e)

/-- Whether AUDIT is pending for a fault domain (18 R369). -/
def Part.fdBit (p : Part) (fdom : Nat) : Bool := bitOf (p.fdpend.getD (fdom / 32) 0) (fdom % 32)

/-- Whether a wave is to take AUDIT, unless another wave of its fault domain takes it first: a replay takes none. -/
def State.auditDue (s : State) (k : Nat) (w : Wave) : Bool :=
  match s.team? w.team with
  | none => false
  | some t => t.replay.isNone && (s.part (partOfKey k)).fdBit t.fdom

/-- Whether a split of a wave may issue at all: the partition runs and is not idle, the wave is active and not halted,
the entry holds a split; while a handler runs only its split issues (R198); a split stops at a pre-emption point for a save that is due, an
unwind or an audit that is pending (17 R334, 18 R355, R369). (log 43, DESIGN CHOICE) -/
def State.mayIssue (s : State) (k e : Nat) (w : Wave) : Bool :=
  let p := s.part (partOfKey k)
  let x := w.split e
  p.running && p.power < 8 && w.active && !w.halted && x.valid && !x.arrived && (if w.intrap then e == 8 else e < 8) &&
    !((w.due.isSome || w.unwind.isSome || s.auditDue k w) && !w.intrap && w.atPoint x)

/-- Whether a split stands at its reconvergence address, or has lost its last lane (07 R173). -/
def Split.atArrival (x : Split) : Bool := x.lanes == 0 || (!x.norpc && x.widx == 0 && x.pc == x.rpc)

end Sys2Proof.Machine
end

