-- ==== Sys2Proof/Machine/Place.lean ====
section
/-! DEFINITION. A wave and a team as they stand when they are admitted (07 R165, R171, 08 R203). -/

namespace Sys2Proof.Machine

/-- The split of a wave at launch (R171). -/
def launchSplit (pc : Nat) : Split := { Split.invalid with valid := true, lanes := allOnes, em := allOnes, pc := pc }

/-- A wave at its launch (R165): PARAM in S0:S1 of a kernel with two or more scalar registers, the RNG registers of R96,
everything else 0; the level its context gives it. Its operations are numbered from a place of their own, so that what a former wave of
the slot left under way never counts for it. -/
def Wave.launched (team wid : Nat) (k : Kernel) (seed param : DWord) (sup : Bool) (area age : Nat) : Wave :=
  let w : Wave :=
    { team := team, wid := wid, kern := k, codesel := k.sel, isel := k.sel, vr := [], sr := [], pr := [], errs := [], flags := [],
      guards := [], fpstat := 0, rngLo := loWord seed, rngHi := hiWord seed, rngStream := 0, rngStep := 0, trapcode := 0,
      trapinfo := 0, trappc := 0, faultmask := 0, faddr := [], intrap := false, clvl := sup, plvl := false, nest := false,
      prepend := false, tsplit := 0, swidx0 := 0, swidx1 := 0, emu := [], linkidx := 0, linkent := 0, linkgen := 0, linksel := 0,
      linkname := 0, links := [], cframes := [], audCore := 0, audTeam := 0, audGrid := 0,
      splits := [(0, launchSplit (k.koff + 64))], handler := none, sb := [], pend := [], ops := [], opctr := age * 2 ^ 48, mq := [], eq := [],
      cq := [], hm := [], he := [], hc := [], bara := [], baraV := [], area := area, active := true, age := age, rdy := none, due := none, unwind := none, restore := false,
      restored := false, rstop := 0, halted := false }
  if 2 ≤ k.sregs then w.putS64 0 param else w

/-- A team when it is first admitted: its identifiers, its scratch zero, its barriers in phase 0, its handles unloaded. -/
def Team.launched (sub part core ctx x y z linear gridid teamw monq fdom prio : Nat) (seed param : DWord) (audit : Bool)
    (tiles granules : List Nat) (age : Nat) : Team :=
  { sub := sub, part := part, core := core, ctx := ctx, x := x, y := y, z := z, linear := linear, gridid := gridid, teamw := teamw,
    monq := monq, fdom := fdom, prio := prio, seed := seed, param := param, audit := audit, tiles := tiles, granules := granules,
    scratch := [], smark := [], bars := [], handles := [], ocache := [], wkeys := [], saved := [], away := false, age := age,
    sig := 0, trapped := false, replay := none, rbuf := [], rover := false }

/-! ### An instruction placed from outside (log 14) -/

/-- Where the placed code lies: linear and physical, selector 1 of context 0 of partition 0. (log 14, DESIGN CHOICE) -/
def placedCode : Nat := 0x40000

/-- The context table's record 0, the segment table's descriptor 1, the page tables that map linear to physical, and the
instruction's bytes, as little-endian bytes with their addresses. (log 14, DESIGN CHOICE) -/
def placedBytes (nbits w : Nat) : List (Nat × List Byte) :=
  [(0, leBytes 8 (0x5000 + 1)), (0x5000, leBytes 8 3),                                -- root table at 0, a page of 1 GiB
   (0x1000, leBytes 8 (3 + 2 * 2 ^ 32)), (0x1008, leBytes 8 0x2000),                 -- VALID, LEVEL, SEGN 2, SEGTAB
   (0x2020, leBytes 8 (placedCode + 6 * 2 ^ 57)),                                    -- BASE, kind CODE
   (0x2028, leBytes 8 (0x1000 + 2 ^ 44 + 2 ^ 46 + 2 ^ 52)),                          -- LIMIT, R, X, VALID
   (placedCode, leBytes 12 (w % 2 ^ nbits))]

/-- The wave that holds a placed instruction: supervisor level, every register declared; in a handler when the instruction
is ERET, which executes nowhere else. (log 14, DESIGN CHOICE) -/
def placedWave (handler : Bool) : Wave :=
  let k : Kernel := { native := false, c16 := false, vregs := 192, sregs := 56, ztiles := 128, scratch := 4096, codelen := 0x1000,
                      illh := 0, sel := 1, koff := 0 }
  let w := { (Wave.launched 0 0 k 0 0 true 0 0) with splits := [(0, launchSplit 0)] }
  if handler then { w with intrap := true, trappc := segAddr 1 0, plvl := true, handler := some (handlerSplit allOnes 0) } else w

/-- Whether the placed bits are an ERET. -/
def isEret (nbits w : Nat) : Bool := match decodeTableWord nbits w with | some (.eret _) => true | _ => false

/-- A running partition 0 with one team of one wave, whose next instruction is the one given. (log 14, DESIGN CHOICE) -/
def State.placed (s : State) (nbits w : Nat) : State :=
  let s := (placedBytes nbits w).foldl (fun s p => s.rawPut p.1 p.2) s
  let s := s.putPart 0 { Part.reset with running := true, ctxt := 0x1000, ctxtn := 1 }
  let t := Team.launched 0 0 0 0 0 0 0 0 0 1 4 0 0 0 0 false (List.range 128) ((List.range 16).map (· + 24576)) 0
  let s := s.putTeam 0 { t with wkeys := [(0, 0)] }
  { (s.putWave 0 (placedWave (isEret nbits w))) with agenda := [.issue 0 (if isEret nbits w then 8 else 0)] }

end Sys2Proof.Machine
end

