-- ==== Sys2Proof/Machine/Int.lean ====
section
/-! DEFINITION. The integer instructions, register moves and the address instructions (05 R103–R112). -/

namespace Sys2Proof

/-- Width of a type's element in bits (05 R105, R108). -/
def Ty.elt : Ty → Nat
  | .i64 | .n64 | .b64 => 64
  | .i16x2 | .n16x2 | .f16x2 | .bf16x2 | .f16 | .bf16 => 16
  | _ => 32

/-- Whether a type holds two 16-bit elements in a register (R105). -/
def Ty.isPacked : Ty → Bool
  | .i16x2 | .n16x2 | .f16x2 | .bf16x2 => true
  | _ => false

/-- A number read as a type's element. -/
def Ty.val (t : Ty) (x : Nat) : Int := if t.signed then sxNat x t.elt else (x % 2 ^ t.elt : Nat)

/-- The range of a type's element. -/
def Ty.lo (t : Ty) : Int := if t.signed then -(2 ^ (t.elt - 1) : Nat) else 0
def Ty.hi (t : Ty) : Int := if t.signed then (2 ^ (t.elt - 1) : Nat) - 1 else (2 ^ t.elt : Nat) - 1

/-- An exact result kept as the type's low bits, or clamped to its range under .SAT (R108). -/
def Ty.fit (t : Ty) (sat : Bool) (r : Int) : Nat := narrow t.elt (if sat then clampInt t.lo t.hi r else r)

/-- Compute each element of a packed type, or the one element of any other (R105). -/
def Ty.each (t : Ty) (f : Nat → Nat → Nat) (a b : Nat) : Nat :=
  if t.isPacked then f (a % 2 ^ 16) (b % 2 ^ 16) % 2 ^ 16 + f (bitsOf a 16 16) (bitsOf b 16 16) % 2 ^ 16 * 2 ^ 16 else f a b

/-- The type a size field names for a signed, an unsigned and a bitwise short opcode (03 R68). -/
def Sz.tyI : Sz → Ty | .w32 => .i32 | .w64 => .i64 | .p16 => .i16x2
def Sz.tyN : Sz → Ty | .w32 => .n32 | .w64 => .n64 | .p16 => .n16x2
def Sz.tyB : Sz → Ty | .w32 => .b32 | .w64 => .b64 | .p16 => .b32

/-- The control fields of a short form: no set-flag, no wait mask (02 R35). -/
def Short.ctl (o : Short) : Ctl := { pred := o.pred, neg := o.neg, setf := none, wait := 0 }
/-- The long form a unary short opcode stands for (03 R68). -/
def Short.un (o : Short) (t : Ty) : Un := { ctl := o.ctl, d := o.d, a := o.a, ty := t, rm := o.rm, sat := false }
/-- The long form a binary short opcode stands for: d is also its first source. -/
def Short.bin (o : Short) (t : Ty) : Bin :=
  { ctl := o.ctl, d := o.d, a := o.d.asSrc, b := o.a, ty := t, rm := o.rm, sat := false }

end Sys2Proof

namespace Sys2Proof.Machine

/-! ### Shapes -/

/-- A one-source instruction of an operation type: `f` on the operand as a number. -/
def runUn (o : Un) (f : Nat → Nat) (s : State) : Out :=
  s.runLane o.ctl.pred o.ctl.neg o.d o.ty.wide [(o.a, o.ty.words)] fun w x l => (f (w.opnd x o.ty l o.a), 0)

/-- A two-source instruction. -/
def runBin (o : Bin) (f : Nat → Nat → Nat) (s : State) : Out :=
  s.runLane o.ctl.pred o.ctl.neg o.d o.ty.wide [(o.a, o.ty.words), (o.b, o.ty.words)] fun w x l =>
    (f (w.opnd x o.ty l o.a) (w.opnd x o.ty l o.b), 0)

/-- A two-source instruction whose second source is always a 32-bit N32 operand (R108). -/
def runShift (o : Bin) (f : Nat → Nat → Nat) (s : State) : Out :=
  s.runLane o.ctl.pred o.ctl.neg o.d o.ty.wide [(o.a, o.ty.words), (o.b, 1)] fun w x l =>
    (f (w.opnd x o.ty l o.a) (w.src x l o.b).toNat, 0)

/-- A three-source instruction. -/
def runTri (o : Tri) (wide : Bool) (f : Nat → Nat → Nat → Nat) (s : State) : Out :=
  s.runLane o.ctl.pred o.ctl.neg o.d wide [(o.a, o.ty.words), (o.b, o.ty.words), (o.c, o.ty.words)] fun w x l =>
    (f (w.opnd x o.ty l o.a) (w.opnd x o.ty l o.b) (w.opnd x o.ty l o.c), 0)

/-- A two-source instruction whose third source is its destination (03 R64). -/
def runMirror (o : Bin) (f : Nat → Nat → Nat → Nat) (s : State) : Out :=
  s.runLane o.ctl.pred o.ctl.neg o.d o.ty.wide [(o.a, o.ty.words), (o.b, o.ty.words), (o.d.asSrc, o.ty.words)] fun w x l =>
    (f (w.opnd x o.ty l o.a) (w.opnd x o.ty l o.b) (w.opnd x o.ty l o.d.asSrc), 0)

/-! ### What they compute (R108, R109) -/

/-- An exact integer operation, element by element. -/
def arith (t : Ty) (sat : Bool) (f : Int → Int → Int) (a b : Nat) : Nat := t.each (fun x y => t.fit sat (f (t.val x) (t.val y))) a b

def addI (t : Ty) (sat : Bool) : Nat → Nat → Nat := arith t sat (· + ·)
def subI (t : Ty) (sat : Bool) : Nat → Nat → Nat := arith t sat (· - ·)
def mulI (t : Ty) (sat : Bool) : Nat → Nat → Nat := arith t sat (· * ·)
def minI (t : Ty) : Nat → Nat → Nat := arith t false fun x y => if y < x then y else x
def maxI (t : Ty) : Nat → Nat → Nat := arith t false fun x y => if x < y then y else x
def absI (t : Ty) (sat : Bool) (a : Nat) : Nat := arith t sat (fun x _ => if x < 0 then -x else x) a 0
def negI (t : Ty) (sat : Bool) (a : Nat) : Nat := arith t sat (fun x _ => -x) a 0
/-- Bits [63:32] of the exact product. -/
def mulhI (t : Ty) (a b : Nat) : Nat := narrow 32 ((t.val a * t.val b) / (2 ^ 32 : Nat))
/-- a × b + c. -/
def madI (t : Ty) (sat : Bool) (a b c : Nat) : Nat := t.fit sat (t.val a * t.val b + t.val c)
/-- Sum with carry in; the pair holds the sum and the carry out. -/
def adcI (a b c : Nat) : Nat := a % 2 ^ 32 + b % 2 ^ 32 + c % 2

def notI (t : Ty) (a : Nat) : Nat := 2 ^ t.elt - 1 - a % 2 ^ t.elt
def andnI (t : Ty) (a b : Nat) : Nat := a &&& notI t b
def shlI (t : Ty) (a n : Nat) : Nat := if t.elt ≤ n then 0 else a * 2 ^ n % 2 ^ t.elt
def shrI (t : Ty) (a n : Nat) : Nat := if t.elt ≤ n then 0 else a % 2 ^ t.elt / 2 ^ n
def sarI (t : Ty) (a n : Nat) : Nat := narrow t.elt (sxNat a t.elt / (2 ^ (min n t.elt) : Nat))
def rotlI (a n : Nat) : Nat := (a % 2 ^ 32 * 2 ^ (n % 32) + a % 2 ^ 32 / 2 ^ (32 - n % 32)) % 2 ^ 32

/-- The position and length of a field, none when it is empty (R109). -/
def fieldOf (b : Nat) : Option (Nat × Nat) :=
  let pos := b % 256
  let len := bitsOf b 8 8
  if len = 0 || 32 ≤ pos then none else some (pos, min (pos + len) 32 - pos)

def bfxI (t : Ty) (a b : Nat) : Nat :=
  match fieldOf b with
  | none => 0
  | some (pos, len) => if t.signed then narrow 32 (sxNat (bitsOf a pos len) len) else bitsOf a pos len

def bfiI (a b c : Nat) : Nat :=
  match fieldOf b with
  | none => c
  | some (pos, len) => c - bitsOf c pos len * 2 ^ pos + a % 2 ^ len * 2 ^ pos

/-- The bits of an `n`-bit number in reverse order. -/
def revBits (n a : Nat) : Nat := (List.range n).foldl (fun y i => if bitOf a i then y + 2 ^ (n - 1 - i) else y) 0
def popcI (a : Nat) : Nat := popCount a 32
/-- Leading zeros of a 32-bit number. -/
def clzI (a : Nat) : Nat := if a % 2 ^ 32 = 0 then 32 else 31 - (a % 2 ^ 32).log2

/-- One result byte of PRMT from its control byte. -/
def prmtByte (a b k : Nat) : Nat :=
  let i := k % 8
  let x := if i < 4 then bitsOf a (8 * i) 8 else bitsOf b (8 * (i - 4)) 8
  let x := if bitOf k 3 then revBits 8 x else x
  let x := if bitOf k 4 then (if bitOf x 7 then 255 else 0) else x
  let x := if bitOf k 5 then 255 - x else x
  if bitOf k 6 then 0 else x

def prmtI (a b c : Nat) : Nat :=
  (List.range 4).foldl (fun y i => y + prmtByte a b (bitsOf c (8 * i) 8) * 2 ^ (8 * i)) 0

/-- A relation on integers (03 R72; ICMP takes codes 0–5). -/
def condI (c : Cond) (a b : Int) : Bool :=
  match c with
  | .eq => a == b | .ne => a != b | .lt => a < b | .le => a ≤ b | .gt => b < a | .ge => b ≤ a
  | .equ | .neu | .ltu | .leu | .gtu | .geu | .num | .nan => false

/-! ### Full forms -/

def execIadd (o : Bin) (s : State) : Out := runBin o (addI o.ty o.sat) s
def execIsub (o : Bin) (s : State) : Out := runBin o (subI o.ty o.sat) s
def execIadc (o : Tri) (s : State) : Out := runTri o true adcI s
def execImul (o : Bin) (s : State) : Out := runBin o (mulI o.ty o.sat) s
def execImulh (o : Bin) (s : State) : Out := runBin o (mulhI o.ty) s
def execImad (o : Tri) (s : State) : Out := runTri o o.ty.wide (madI o.ty o.sat) s
def execImadD (o : Bin) (s : State) : Out := runMirror o (madI o.ty o.sat) s
def execIabs (o : Un) (s : State) : Out := runUn o (absI o.ty o.sat) s
def execIneg (o : Un) (s : State) : Out := runUn o (negI o.ty o.sat) s
def execImin (o : Bin) (s : State) : Out := runBin o (minI o.ty) s
def execImax (o : Bin) (s : State) : Out := runBin o (maxI o.ty) s
def execNmin (o : Bin) (s : State) : Out := runBin o (minI o.ty) s
def execNmax (o : Bin) (s : State) : Out := runBin o (maxI o.ty) s
def execAndB (o : Bin) (s : State) : Out := runBin o (fun a b => a &&& b) s
def execOrB (o : Bin) (s : State) : Out := runBin o (fun a b => a ||| b) s
def execXorB (o : Bin) (s : State) : Out := runBin o (fun a b => a ^^^ b) s
def execNotB (o : Un) (s : State) : Out := runUn o (notI o.ty) s
def execAndn (o : Bin) (s : State) : Out := runBin o (andnI o.ty) s
def execShl (o : Bin) (s : State) : Out := runShift o (shlI o.ty) s
def execShr (o : Bin) (s : State) : Out := runShift o (shrI o.ty) s
def execSar (o : Bin) (s : State) : Out := runShift o (sarI o.ty) s
def execRotl (o : Bin) (s : State) : Out := runShift o rotlI s
def execBfx (o : Bin) (s : State) : Out := runShift o (bfxI o.ty) s
def execBfi (o : Tri) (s : State) : Out := runTri o false bfiI s
def execPopc (o : Un) (s : State) : Out := runUn o popcI s
def execClz (o : Un) (s : State) : Out := runUn o clzI s
def execBrev (o : Un) (s : State) : Out := runUn o (revBits 32) s
def execMov (o : Un) (s : State) : Out := runUn o id s
def execPrmt (o : Tri) (s : State) : Out := runTri o false prmtI s

/-- ICMP (R110). -/
def execIcmp (o : Cmp) (s : State) : Out :=
  s.runPred o.ctl.pred o.ctl.neg o.d [(o.a, o.ty.words), (o.b, o.ty.words)] [] fun w x _ l =>
    (condI o.cond (o.ty.val (w.opnd x o.ty l o.a)) (o.ty.val (w.opnd x o.ty l o.b)), 0)

/-- SEL (R110); a predicate source is read like a governing one. (log 38, DEDUCED) -/
def execSel (o : Sel) (s : State) : Out :=
  s.run fun c w =>
    let r := c.reads w
    let x := r.split c.entry
    let m := r.actLanes x o.ctl.pred o.ctl.neg
    match r.poisoned [(o.a, o.ty.words), (o.b, o.ty.words)] (predRegs o.ctl.pred ++ predRegs o.c) m with
    | some (cause, mask) => s.fault c w fPOISON cause mask []
    | none => s.done c (w.putW o.ty.wide m o.d fun l => if laneOf (r.p o.c) l then r.opnd x o.ty l o.a else r.opnd x o.ty l o.b)

/-- MOVL (R110): the value at the lowest active lane, or 0 when none is active. -/
def execMovl (o : Un) (s : State) : Out :=
  s.run fun c w =>
    let r := c.reads w
    let x := r.split c.entry
    let m := r.actLanes x o.ctl.pred o.ctl.neg
    let l := lowestLane m
    match if m = 0 then none else r.poisoned [(o.a, o.ty.words)] [] (laneBit l) with
    | some (cause, mask) => s.fault c w fPOISON cause mask []
    | none => s.done c (w.putW o.ty.wide m o.d fun _ => if m = 0 then 0 else r.opnd x o.ty l o.a)

/-! ### Short forms (03 R67, R68) -/

def execIaddZ32 (o : Short) (s : State) : Out := runBin (o.bin o.sz.tyI) (addI o.sz.tyI false) s
def execIsubZ32 (o : Short) (s : State) : Out := runBin (o.bin o.sz.tyI) (subI o.sz.tyI false) s
def execImulZ32 (o : Short) (s : State) : Out := runBin (o.bin o.sz.tyI) (mulI o.sz.tyI false) s
def execIabsZ32 (o : Short) (s : State) : Out := runUn (o.un o.sz.tyI) (absI o.sz.tyI false) s
def execInegZ32 (o : Short) (s : State) : Out := runUn (o.un o.sz.tyI) (negI o.sz.tyI false) s
def execIminZ32 (o : Short) (s : State) : Out := runBin (o.bin o.sz.tyI) (minI o.sz.tyI) s
def execImaxZ32 (o : Short) (s : State) : Out := runBin (o.bin o.sz.tyI) (maxI o.sz.tyI) s
def execNminZ32 (o : Short) (s : State) : Out := runBin (o.bin o.sz.tyN) (minI o.sz.tyN) s
def execNmaxZ32 (o : Short) (s : State) : Out := runBin (o.bin o.sz.tyN) (maxI o.sz.tyN) s
def execAndZ32 (o : Short) (s : State) : Out := runBin (o.bin o.sz.tyB) (fun a b => a &&& b) s
def execOrZ32 (o : Short) (s : State) : Out := runBin (o.bin o.sz.tyB) (fun a b => a ||| b) s
def execXorZ32 (o : Short) (s : State) : Out := runBin (o.bin o.sz.tyB) (fun a b => a ^^^ b) s
def execNotZ32 (o : Short) (s : State) : Out := runUn (o.un o.sz.tyB) (notI o.sz.tyB) s
def execAndnZ32 (o : Short) (s : State) : Out := runBin (o.bin o.sz.tyB) (andnI o.sz.tyB) s
def execShlZ32 (o : Short) (s : State) : Out := runShift (o.bin o.sz.tyB) (shlI o.sz.tyB) s
def execShrZ32 (o : Short) (s : State) : Out := runShift (o.bin o.sz.tyB) (shrI o.sz.tyB) s
def execSarZ32 (o : Short) (s : State) : Out := runShift (o.bin o.sz.tyI) (sarI o.sz.tyI) s
def execRotlZ32 (o : Short) (s : State) : Out := runShift (o.bin .b32) rotlI s
def execPopcZ32 (o : Short) (s : State) : Out := runUn (o.un .b32) popcI s
def execClzZ32 (o : Short) (s : State) : Out := runUn (o.un .b32) clzI s
def execBrevZ32 (o : Short) (s : State) : Out := runUn (o.un .b32) (revBits 32) s
def execMovZ32 (o : Short) (s : State) : Out := runUn (o.un o.sz.tyB) id s

/-! ### Address instructions (R111, R112) -/

/-- What stops a lane of an address instruction: a marked word it reads (R106), or the overflow `val` reports (R112). -/
def addrStop (w : Wave) (x : Split) (srcs : List (Src × Nat)) (val : Wave → Split → Nat → Except DWord DWord) (l : Nat) : Option AFault :=
  if w.laneCause srcs [] l != 0 then some { code := fPOISON, cause := w.laneCause srcs [] l, addr := 0 }
  else match val w x l with | .error a => some { code := fOFFOVF, cause := 0, addr := a } | .ok _ => none

/-- Run an address instruction whose lanes may overflow: `val` gives a lane's pair, or the address it reports. A marked governing predicate
comes first; then the lowest lane that stops decides (17 R333), and POISON reports no address. -/
def runAddr (o : Bin) (srcs : List (Src × Nat)) (val : Wave → Split → Nat → Except DWord DWord) (s : State) : Out :=
  s.run fun c w =>
    let r := c.reads w
    let x := r.split c.entry
    let m := r.actLanes x o.ctl.pred o.ctl.neg
    match r.poisoned [] (predRegs o.ctl.pred) m with
    | some (cause, mask) => s.fault c w fPOISON cause mask []
    | none =>
      let fs : List (Nat × AFault) := ((if o.d.uni then [0] else lanesOf m).map fun l =>
        match addrStop r x srcs val l with | some f => [(l, f)] | none => []).flatten
      match reportFaults fs o.d.uni m with
      | some f => s.faultAs c w (if f.code = fPOISON then { f with addrs := [] } else f)
      | none => s.done c (w.putD64 m o.d fun l => match val r x l with | .ok y => y | .error _ => 0)

/-- SEGA (R111). (log 20, DEDUCED) -/
def segaVal (a : Word) (b : DWord) : Except DWord DWord :=
  if 2 ^ 44 ≤ b.toNat then .error b else .ok (segAddr (a.toNat % 2 ^ 20) b.toNat)

/-- PADD (R111): the offset moves, the selector stays. -/
def paddVal (a : DWord) (b : Int) : Except DWord DWord :=
  let o : Int := (offOf a : Int) + b
  if o < 0 || (2 ^ 44 : Int) ≤ o then .error a else .ok (segAddr (selOf a) o.toNat)

def execSega (o : Bin) (s : State) : Out :=
  runAddr o [(o.a, 1), (o.b, 2)] (fun w x l => segaVal (w.src x l o.a) (w.src64 x l false o.b)) s

/-- PADD, PSEG and POFF zero-extend a literal or special operand a, whose type R111 does not give (R30; log 70, DESIGN CHOICE). -/
def execPadd (o : Bin) (s : State) : Out :=
  runAddr o [(o.a, 2), (o.b, o.ty.words)]
    (fun w x l => paddVal (w.src64 x l false o.a) (if o.ty.wide then (w.src64 x l true o.b).toInt else (w.src x l o.b).toInt)) s

def execPseg (o : Un) (s : State) : Out :=
  s.runLane o.ctl.pred o.ctl.neg o.d false [(o.a, 2)] fun w x l => (selOf (w.src64 x l false o.a), 0)

def execPoff (o : Un) (s : State) : Out :=
  s.runLane o.ctl.pred o.ctl.neg o.d true [(o.a, 2)] fun w x l => (offOf (w.src64 x l false o.a), 0)

end Sys2Proof.Machine
end

