-- ==== Sys2Proof/Machine/Fp.lean ====
section
/-! DEFINITION. The floating-point instructions (05 R113–R117) and the conversions (05 R118–R120). -/

namespace Sys2Proof

/-- The format of a floating-point operation type's element. -/
def Ty.fpf : Ty → Machine.FpFmt
  | .f16 | .f16x2 => Machine.fp16
  | .bf16 | .bf16x2 => Machine.fpBf16
  | _ => Machine.fp32

/-- The format of a size field's floating-point short opcode: F32, or F16X2 (03 R68). -/
def Sz.tyF : Sz → Ty | .p16 => .f16x2 | _ => .f32

end Sys2Proof

namespace Sys2Proof.Machine

/-! ### Shapes -/

/-- Element `i` of a register word read as a type's exact value. -/
def fpElt (t : Ty) (x i : Nat) : Ex := unpackFp t.fpf (if t.isPacked then bitsOf x (16 * i) 16 else x % 2 ^ t.elt)

/-- A result of one element, or of two elements of a packed type whose exceptions are united (R105); `val i` is the exact
value of element `i` with the exceptions of the operation itself. The column of SR is the element's index. -/
def State.fpRes (s : State) (w : Wave) (l : Nat) (t : Ty) (rm : RM) (sat : Bool) (val : Nat → Ex × Nat) : Nat × Nat :=
  let one (i : Nat) : FRes :=
    let v := val i
    let r := finishFp t.fpf rm sat (s.laneWord w rm l i) v.1
    { r with flags := r.flags ||| v.2 }
  if t.isPacked then ((one 0).bits + (one 1).bits * 2 ^ 16, (one 0).flags ||| (one 1).flags) else ((one 0).bits, (one 0).flags)

/-- A one-source operation rounded once. -/
def runFp1 (o : Un) (f : Ex → Ex) (s : State) : Out :=
  s.runLane o.ctl.pred o.ctl.neg o.d false [(o.a, 1)] fun w x l =>
    s.fpRes w l o.ty o.rm o.sat fun i => (f (fpElt o.ty (w.src x l o.a).toNat i), 0)

/-- A two-source operation rounded once. -/
def runFp2 (o : Bin) (f : Ex → Ex → Ex × Nat) (s : State) : Out :=
  s.runLane o.ctl.pred o.ctl.neg o.d false [(o.a, 1), (o.b, 1)] fun w x l =>
    s.fpRes w l o.ty o.rm o.sat fun i => f (fpElt o.ty (w.src x l o.a).toNat i) (fpElt o.ty (w.src x l o.b).toNat i)

/-- A fused multiply-add, rounded once. -/
def runFma (o : Tri) (s : State) : Out :=
  s.runLane o.ctl.pred o.ctl.neg o.d false [(o.a, 1), (o.b, 1), (o.c, 1)] fun w x l =>
    s.fpRes w l o.ty o.rm o.sat fun i =>
      (exFma o.rm (fpElt o.ty (w.src x l o.a).toNat i) (fpElt o.ty (w.src x l o.b).toNat i) (fpElt o.ty (w.src x l o.c).toNat i), 0)

/-- The mirror form: the addend is d, read before it is written (03 R64). -/
def runFmaD (o : Bin) (s : State) : Out :=
  runFma { ctl := o.ctl, d := o.d, a := o.a, b := o.b, c := o.d.asSrc, ty := o.ty, rm := o.rm, sat := o.sat } s

/-- FMIN and FMAX, never rounded (R114). -/
def runMinMax (mx : Bool) (o : Bin) (s : State) : Out :=
  s.runLane o.ctl.pred o.ctl.neg o.d false [(o.a, 1), (o.b, 1)] fun w x l =>
    let r := fminmax mx (w.src x l o.a).toNat (w.src x l o.b).toNat
    (r.bits, r.flags)

/-- An approximation (R116): `fn` numbers it. -/
def runApprox (fn : Nat) (o : Un) (s : State) : Out :=
  s.runLane o.ctl.pred o.ctl.neg o.d false [(o.a, 1)] fun w x l =>
    let r := approxRes fn o.rm o.rm.code (w.src x l o.a)
    (r.bits, r.flags)

def addF (o : Bin) : Ex → Ex → Ex × Nat := fun a b => (exAdd o.rm a b, 0)
def subF (o : Bin) : Ex → Ex → Ex × Nat := fun a b => (exAdd o.rm a b.neg, 0)
def mulF : Ex → Ex → Ex × Nat := fun a b => (exMul a b, 0)

/-! ### Full forms -/

def execFadd (o : Bin) (s : State) : Out := runFp2 o (addF o) s
def execFsub (o : Bin) (s : State) : Out := runFp2 o (subF o) s
def execFmul (o : Bin) (s : State) : Out := runFp2 o mulF s
def execFfma (o : Tri) (s : State) : Out := runFma o s
def execFfmaD (o : Bin) (s : State) : Out := runFmaD o s
def execFmin (o : Bin) (s : State) : Out := runMinMax false o s
def execFmax (o : Bin) (s : State) : Out := runMinMax true o s
def execFdiv (o : Bin) (s : State) : Out := runFp2 o exDiv s
def execFsqrt (o : Un) (s : State) : Out := runFp1 o exSqrt s
def execFrcp (o : Un) (s : State) : Out := runApprox 0 o s
def execFrsq (o : Un) (s : State) : Out := runApprox 1 o s
def execFexp2 (o : Un) (s : State) : Out := runApprox 2 o s
def execFlog2 (o : Un) (s : State) : Out := runApprox 3 o s
def execFsin (o : Un) (s : State) : Out := runApprox 4 o s
def execFcos (o : Un) (s : State) : Out := runApprox 5 o s
def execFtanh (o : Un) (s : State) : Out := runApprox 6 o s
def execHadd2 (o : Bin) (s : State) : Out := runFp2 o (addF o) s
def execHmul2 (o : Bin) (s : State) : Out := runFp2 o mulF s
def execHfma2 (o : Tri) (s : State) : Out := runFma o s
def execHfma2D (o : Bin) (s : State) : Out := runFmaD o s

/-- FCMP (R114). -/
def execFcmp (o : Cmp) (s : State) : Out :=
  s.runPred o.ctl.pred o.ctl.neg o.d [(o.a, 1), (o.b, 1)] [] fun w x _ l =>
    fcmpRes o.cond (unpackFp fp32 (w.src x l o.a).toNat) (unpackFp fp32 (w.src x l o.b).toNat)

/-- FCLASS (R115). -/
def execFclass (o : Cls) (s : State) : Out :=
  s.runPred o.ctl.pred o.ctl.neg o.d [(o.a, 1)] [] fun w x _ l => (o.mask.getLsbD (fclassBit (w.src x l o.a).toNat), 0)

/-! ### Short forms -/

def execFaddZ32 (o : Short) (s : State) : Out := runFp2 (o.bin .f32) (addF (o.bin .f32)) s
def execFsubZ32 (o : Short) (s : State) : Out := runFp2 (o.bin .f32) (subF (o.bin .f32)) s
def execFmulZ32 (o : Short) (s : State) : Out := runFp2 (o.bin .f32) mulF s
def execFminZ32 (o : Short) (s : State) : Out := runMinMax false (o.bin .f32) s
def execFmaxZ32 (o : Short) (s : State) : Out := runMinMax true (o.bin .f32) s
def execFsqrtZ32 (o : Short) (s : State) : Out := runFp1 (o.un .f32) exSqrt s
def execFrcpZ32 (o : Short) (s : State) : Out := runApprox 0 (o.un .f32) s
def execFrsqZ32 (o : Short) (s : State) : Out := runApprox 1 (o.un .f32) s
def execFexp2Z32 (o : Short) (s : State) : Out := runApprox 2 (o.un .f32) s
def execFlog2Z32 (o : Short) (s : State) : Out := runApprox 3 (o.un .f32) s
def execFsinZ32 (o : Short) (s : State) : Out := runApprox 4 (o.un .f32) s
def execFcosZ32 (o : Short) (s : State) : Out := runApprox 5 (o.un .f32) s
def execFtanhZ32 (o : Short) (s : State) : Out := runApprox 6 (o.un .f32) s
def execHadd2Z32 (o : Short) (s : State) : Out := runFp2 (o.bin .f16x2) (addF (o.bin .f16x2)) s
def execHmul2Z32 (o : Short) (s : State) : Out := runFp2 (o.bin .f16x2) mulF s

/-! ### Conversions (R118–R120) -/

/-- F2I (R119): rounded by RM, clamped to the destination's range. -/
def runF2i (o : CvtT) (s : State) : Out :=
  s.runLane o.ctl.pred o.ctl.neg o.d o.dst.wide [(o.a, 1)] fun w x l =>
    let r := finishInt o.dst.lo o.dst.hi o.rm (s.laneWord w o.rm l 0) (fpElt o.src (w.src x l o.a).toNat 0)
    (narrow o.dst.elt r.1, r.2)

/-- I2F (R118). -/
def runI2f (o : CvtT) (s : State) : Out :=
  s.runLane o.ctl.pred o.ctl.neg o.d false [(o.a, o.src.words)] fun w x l =>
    s.fpRes w l o.dst o.rm o.sat fun _ => (exInt (o.src.val (w.opnd x o.src l o.a)), 0)

def execF2i (o : CvtT) (s : State) : Out := runF2i o s
def execI2f (o : CvtT) (s : State) : Out := runI2f o s
def execF2iZ32 (o : Short) (s : State) : Out :=
  runF2i { ctl := o.ctl, d := o.d, a := o.a, dst := .i32, src := .f32, rm := o.rm, sat := false } s
def execI2fZ32 (o : Short) (s : State) : Out :=
  runI2f { ctl := o.ctl, d := o.d, a := o.a, dst := .f32, src := .i32, rm := o.rm, sat := false } s

/-- An exact value entering a format at a lane, with the exceptions of the operand. -/
def State.eltRes (s : State) (w : Wave) (l col : Nat) (f : Fmt) (rm : RM) (sat : Bool) (x : Ex) (fl : Nat) : Nat × Nat :=
  let r := finishElt f rm sat (s.laneWord w rm l col) x
  (r.bits, r.flags ||| fl)

/-- FCVT (R118). -/
def execFcvt (o : CvtF) (s : State) : Out :=
  s.runLane o.ctl.pred o.ctl.neg o.d false [(o.a, 1)] fun w x l =>
    let e := (w.src x l o.a).toNat % 2 ^ o.src.bits
    s.eltRes w l 0 o.dst o.rm o.sat (unpackElt o.src e) (eltFD o.src e)

/-- QNT (R118): a × b rounded into the format. -/
def execQnt (o : CvtP) (s : State) : Out :=
  s.runLane o.ctl.pred o.ctl.neg o.d false [(o.a, 1), (o.b, 1)] fun w x l =>
    let p := exMul (unpackFp fp32 (w.src x l o.a).toNat) (unpackFp fp32 (w.src x l o.b).toNat)
    s.eltRes w l 0 o.fmt o.rm o.sat p (if p.sig then fNV else 0)

/-- DQNT (R118): element × b rounded into F32. -/
def execDqnt (o : CvtP) (s : State) : Out :=
  s.runLane o.ctl.pred o.ctl.neg o.d false [(o.a, 1), (o.b, 1)] fun w x l =>
    let e := (w.src x l o.a).toNat % 2 ^ o.fmt.bits
    s.eltRes w l 0 .fp32 o.rm o.sat (exMul (unpackElt o.fmt e) (unpackFp fp32 (w.src x l o.b).toNat)) (eltFD o.fmt e)

/-- An instruction that writes a run of `n` registers: `val l` gives a lane's words as one number and its exceptions. -/
def State.runWords (s : State) (c : Ctl) (d : Dst) (n : Nat) (srcs : List (Src × Nat)) (val : Wave → Split → Nat → Nat × Nat) : Out :=
  s.run fun cu w =>
    let r := cu.reads w
    let x := r.split cu.entry
    let m := r.actLanes x c.pred c.neg
    match r.poisoned srcs (predRegs c.pred) m with
    | some (cause, mask) => s.fault cu w fPOISON cause mask []
    | none =>
        let w1 := (List.range n).foldl (fun w i => w.putD m (d.plus i) fun l => BitVec.ofNat 32 (bitsOf (val r x l).1 (32 * i) 32)) w
        s.done cu (w1.orFp (unionFlags (if d.uni then [0] else lanesOf m) fun l => (val r x l).2))

/-- The results of several elements, each of `bits` bits, as one number, with their exceptions united. -/
def joinElts (bits n : Nat) (f : Nat → Nat × Nat) : Nat × Nat :=
  (List.range n).foldl (fun acc i => (acc.1 + (f i).1 % 2 ^ bits * 2 ^ (bits * i), acc.2 ||| (f i).2)) (0, 0)

/-- FPK (R120): register a + i is rounded into element i. -/
def execFpk (o : CvtP) (s : State) : Out :=
  s.runWords o.ctl o.d o.fmt.packed [(o.a, o.fmt.count)] fun w x l =>
    joinElts o.fmt.bits o.fmt.count fun i =>
      s.eltRes w l i o.fmt o.rm o.sat (unpackFp fp32 (w.src x l (o.a.plus i)).toNat) 0

/-- What FUPK writes for an element: F32, the integer value, or the element as it stands in its own format (R120). (log 40, DEDUCED) -/
def fupkElt (dst src : Fmt) (e : Nat) : Nat × Nat :=
  match dst, eltFmt src with
  | .fp32, _ => let r := finishElt .fp32 .rn false 0 (unpackElt src e); (r.bits, r.flags ||| eltFD src e)
  | _, .int n sg => (if badT2 src e then 0 else if sg then narrow 32 (sxNat e n) else e, eltFD src e)
  | _, .fp _ => (e, 0)

/-- FUPK (R120): element i of the packed source goes to register d + i. (log 40, DEDUCED) -/
def execFupk (o : CvtF) (s : State) : Out :=
  s.runWords o.ctl o.d o.src.count [(o.a, o.src.packed)] fun w x l =>
    let g := (List.range o.src.packed).foldl (fun g j => g + (w.src x l (o.a.plus j)).toNat * 2 ^ (32 * j)) 0
    joinElts 32 o.src.count fun i => fupkElt o.dst o.src (bitsOf g (o.src.bits * i) o.src.bits)

end Sys2Proof.Machine
end

