-- ==== Sys2Proof/Machine/Lane.lean ====
section
/-! DEFINITION. Predicate logic and the cross-lane instructions (05 R121–R126, 20 R388). -/

namespace Sys2Proof.Machine

/-- PLOP (R121). -/
def execPlop (o : Plop) (s : State) : Out :=
  s.runPred o.ctl.pred o.ctl.neg o.d [] [o.a, o.b] fun w _ _ l =>
    (o.lut.getLsbD (bnat (laneOf (w.p o.a) l) * 2 + bnat (laneOf (w.p o.b) l)), 0)

/-! ### Groups of lanes (R122(d)) -/

/-- The first lane of a lane's group, and the group's width. -/
def Wave.base (w : Wave) (l : Nat) : Nat := if w.c16 then l / 16 * 16 else 0

/-- The active lanes of a lane's group. -/
def Wave.group (w : Wave) (m : LaneMask) (l : Nat) : LaneMask :=
  if w.c16 then m &&& (if l < 16 then 0x0000FFFF#32 else 0xFFFF0000#32) else m

/-- A mask of a lane's group as software sees it: numbered from the group's first lane. -/
def Wave.groupBits (w : Wave) (m : LaneMask) (l : Nat) : Nat := (w.group m l).toNat / 2 ^ w.base l

/-- The POISON that some lanes raise: the lowest lane's cause and the lanes that share it. (log 29, DEDUCED) -/
def poisonBy (cause : Nat → Nat) (ls : List Nat) : Option (Nat × LaneMask) :=
  (ls.find? fun l => cause l != 0).map fun l => (cause l, maskWhere fun j => ls.contains j && cause j == cause l)

/-- A cross-lane instruction: `cause` is what a lane's reads raise, `val` a lane's result and exceptions, both over the
active lanes. (log 29, DEDUCED) -/
def State.runGroup (s : State) (c : Ctl) (d : Dst) (wide : Bool) (cause : Wave → Split → LaneMask → Nat → Nat)
    (val : Wave → Split → LaneMask → Nat → Nat × Nat) : Out :=
  s.run fun cu w =>
    let r := cu.reads w
    let x := r.split cu.entry
    let m := r.actLanes x c.pred c.neg
    match if r.errs.isEmpty then none else poisonBy (cause r x m) (if m = 0 then [0] else lanesOf m) with
    | some (k, mask) => s.fault cu w fPOISON k mask []
    | none => s.done cu ((w.putW wide m d fun l => (val r x m l).1).orFp
        (unionFlags (if d.uni then [0] else lanesOf m) fun l => (val r x m l).2))

/-- What a lane reads from its own sources; with no active lane no vector source is read. Where VRED, VSCAN or MATCH meets a marked
word, FAULTMASK names the lanes that hold it, which R124 leaves open (log 70, DESIGN CHOICE). -/
def ownCause (c : Ctl) (srcs : List (Src × Nat)) (preds : List Nat) (w : Wave) (_ : Split) (m : LaneMask) (l : Nat) : Nat :=
  w.laneCause (readFor m srcs) (predRegs c.pred ++ preds) l

/-! ### SHFL (R123) -/

/-- The lane a lane reads: its own when the source lane is outside the wave or inactive. -/
def shflLane (w : Wave) (m : LaneMask) (sub : ShflSub) (b l : Nat) : Nat :=
  let i := l - w.base l
  let src : Int := match sub with
    | .idx => (b : Int) | .up => (i : Int) - b | .down => (i : Int) + b | .xor => ((i ^^^ b : Nat) : Int)
  if 0 ≤ src && src < w.waveW then
    let j := w.base l + src.toNat
    if laneOf m j then j else l
  else l

def execShfl (o : Shfl) (s : State) : Out :=
  let n := if o.w64 then 2 else 1
  s.runGroup o.ctl o.d o.w64
    (fun w x m l =>
      let j := if o.d.uni then l else shflLane w m o.sub (w.src x l o.b).toNat l
      let k := w.laneCause (readFor m [(o.b, 1)]) (predRegs o.ctl.pred) l
      if k != 0 then k else w.laneCause (readFor m [(o.a, n)]) [] j)
    fun w x m l =>
      let j := if o.d.uni then l else shflLane w m o.sub (w.src x l o.b).toNat l
      (if o.w64 then (w.src64 x j false o.a).toNat else (w.src x j o.a).toNat, 0)

/-! ### VRED and VSCAN (R124, R125) -/

/-- The least or largest of a list by R114, or the empty value. -/
def foldMinMax (mx : Bool) (l : List Nat) : FRes :=
  match l with
  | [] => { bits := if mx then 0xFF800000 else 0x7F800000, flags := 0 }
  | x :: r => r.foldl (fun a y => let z := fminmax mx a.bits y; { z with flags := z.flags ||| a.flags }) (fminmax mx x x)

/-- The exact F32 sum rounded once. -/
def foldSum (l : List Nat) : FRes :=
  finishFp fp32 .rn false 0 ((l.foldl (fun a x => a.add (unpackFp fp32 x)) FSum.zero).val .rn)

/-- The combination of some values of a type by an operation of R124. -/
def reduce (t : Ty) (op : RedOp) (l : List Nat) : Nat × Nat :=
  if t = .f32 then
    let r := match op with | .min => foldMinMax false l | .max => foldMinMax true l | _ => foldSum l
    (r.bits, r.flags)
  else
    let ints := l.map t.val
    (match op with
     | .add => narrow t.elt (ints.foldl (· + ·) 0)
     | .min => narrow t.elt (ints.foldl (fun x y => if y < x then y else x) t.hi)
     | .max => narrow t.elt (ints.foldl (fun x y => if x < y then y else x) t.lo)
     | .and => l.foldl (fun x y => x &&& y) (2 ^ 32 - 1)
     | .or => l.foldl (fun x y => x ||| y) 0
     | .xor => l.foldl (fun x y => x ^^^ y) 0, 0)

/-- VRED: over the active lanes of the lane's group. -/
def execVred (o : Red) (s : State) : Out :=
  s.runGroup o.ctl o.d o.ty.wide (ownCause o.ctl [(o.a, o.ty.words)] []) fun w x m l =>
    reduce o.ty o.op ((lanesOf (w.group m l)).map fun j => w.opnd x o.ty j o.a)

/-- VSCAN: over the active lanes up to the lane, or below it. -/
def execVscan (o : Red) (s : State) : Out :=
  s.runGroup o.ctl o.d o.ty.wide (ownCause o.ctl [(o.a, o.ty.words)] []) fun w x m l =>
    reduce o.ty o.op (((lanesOf (w.group m l)).filter fun j => j < l || (j == l && !o.exc)).map fun j => w.opnd x o.ty j o.a)

/-! ### VOTE, BALLOT, ELECT, MATCH (R126) -/

def execVote (o : Vote) (s : State) : Out :=
  s.runPred o.ctl.pred o.ctl.neg o.d [] [o.a] fun w _ m l =>
    let g := w.group m l
    let p := w.p o.a &&& g
    (match o.sub with | .all => p == g | .any => p != 0 | .eq => p == g || p == 0, 0)

def execBallot (o : Ballot) (s : State) : Out :=
  s.runGroup o.ctl o.d false (ownCause o.ctl [] (predRegs o.a)) fun w _ m l => (w.groupBits (w.p o.a &&& m) l, 0)

def execElect (c : Ctl) (d : Nat) (s : State) : Out :=
  s.runPred c.pred c.neg d [] [] fun w _ m l => (lowestLane (w.group m l) == l, 0)

def execMatchOp (o : Match) (s : State) : Out :=
  let n := if o.w64 then 2 else 1
  s.runGroup o.ctl o.d false (ownCause o.ctl [(o.a, n)] []) fun w x m l =>
    let val (j : Nat) : Nat := if o.w64 then (w.src64 x j false o.a).toNat else (w.src x j o.a).toNat
    let same := (lanesOf (w.group m l)).filter fun j => val j == val l
    if o.all then (if same.length = (lanesOf (w.group m l)).length then w.groupBits m l else 0, 0)
    else (w.groupBits (maskWhere fun j => same.contains j) l, 0)

end Sys2Proof.Machine
end

