-- ==== Sys2Proof/Machine/Control.lean ====
section
/-! DEFINITION. Control flow: branches, calls and returns, the split table's branch step and arrivals, ending lanes, waiting, barriers, guards, traps (07 R171–R175, 08 R177–R201). -/

namespace Sys2Proof.Machine

/-! ### The branch step (R172) and arrivals (R173) -/

/-- The reconvergence frame a split pushes. -/
def Split.frame (x : Split) (kind link : Nat) (orig : Bool) (a b : LaneMask) (dpc : Nat) : Frame :=
  { maska := a, maskb := b, dpc := dpc, outer := x.rpc, noouter := x.norpc, orig := orig, link := link, kind := kind }

/-- The lowest-numbered invalid entry; a handler split has none (R198 step 5). -/
def Wave.freeEntry (w : Wave) (e : Nat) : Option Nat :=
  if e = 8 then none else (List.range 8).find? fun i => !(w.split i).valid

/-- A split moves to a place. -/
def Split.goto (x : Split) (pc : Nat) : Split := { x with pc := pc, widx := 0, wait := none }

/-- A split keeps the lanes outside a mask, at the fall-through, under a new frame and reconvergence address. -/
def Split.remain (x : Split) (mt : LaneMask) (f c : Nat) (fr : Frame) : Split :=
  { (x.goto f) with lanes := x.lanes &&& ~~~mt, em := x.em &&& ~~~mt, rpc := c, norpc := false, frames := x.frames ++ [fr] }

/-- The branch step of entry `e`: lanes `mt` of its EM take `t`, the rest continue at `f`, all meet at `c`. (log 38, DEDUCED) -/
def Wave.branch (w : Wave) (e : Nat) (mt : LaneMask) (t f c : Nat) : Wave :=
  let x := w.split e
  if mt = 0 then w.putSplit e (x.goto f)
  else if mt = x.em then w.putSplit e (x.goto t)
  else match w.freeEntry e with
    | some i =>
        let y : Split := { (x.goto t) with lanes := mt, em := mt, rpc := c, norpc := false,
                                           frames := x.frames ++ [x.frame 0 e false 0 0 0] }
        (w.putSplit e (x.remain mt f c (x.frame 0 i true 0 0 0))).putSplit i y
    | none => w.putSplit e (x.remain mt f c (x.frame 1 0 false mt mt t))

/-- Whether entry `i` is arrived with a top JOIN frame that links to `e`. -/
def Wave.partner (w : Wave) (e i : Nat) : Bool :=
  let y := w.split i
  y.valid && y.arrived && match y.frames.getLast? with | some f => f.kind == 0 && f.link == e | none => false

/-- Two arrived partners fuse into the one whose frame has ORIG 1. -/
def Wave.fuse (w : Wave) (keep gone : Nat) (f : Frame) : Wave :=
  let x := w.split keep
  let y := w.split gone
  (w.putSplit keep { x with lanes := x.lanes ||| y.lanes, em := x.em ||| y.em, rpc := f.outer, norpc := f.noouter,
                            frames := x.frames.dropLast, arrived := false }).putSplit gone Split.invalid

/-- An arrived split acts on its top frame (R173). -/
def Wave.arrive (w : Wave) (e : Nat) : Wave :=
  let x0 := w.split e
  let x := if x0.lanes = 0 && !x0.norpc then { x0 with pc := x0.rpc, widx := 0 } else x0
  match x.frames.getLast? with
  | none => if x.lanes = 0 then w.putSplit e Split.invalid else w.putSplit e { x with norpc := true }
  | some f =>
    if f.kind = 1 then
      w.putSplit e { x with lanes := f.maska, em := f.maskb, pc := f.dpc, widx := 0,
                            frames := x.frames.dropLast ++ [{ f with maska := x.lanes, maskb := x.em, kind := 2 }] }
    else if f.kind = 2 then
      w.putSplit e { x with lanes := x.lanes ||| f.maska, em := x.em ||| f.maskb, rpc := f.outer, norpc := f.noouter,
                            frames := x.frames.dropLast }
    else
      let w1 := w.putSplit e { x with arrived := true }
      if !w1.partner e f.link then w1
      else if f.orig then w1.fuse e f.link f
      else match (w1.split f.link).frames.getLast? with
        | some g => w1.fuse f.link e g
        | none => w1

/-! ### Safe points (20 R381, R382) -/

/-- The context by which a wave's code is translated. -/
def State.transKey (s : State) (w : Wave) : Nat := imgKey (((s.team? w.team).map (·.ctx)).getD 0) w.codesel

/-- Whether a place has an entry in the target table of a translation installed for a wave's code. -/
def State.hasEntry (s : State) (k : Nat) (w : Wave) (pc : Nat) : Bool := (s.part (partOfKey k)).hasEntry (s.transKey w) w.codesel pc

/-- Whether a place begins a clause of a withdrawn translation. -/
def State.goneClause (s : State) (k : Nat) (w : Wave) (pc : Nat) : Bool :=
  (s.part (partOfKey k)).trans.any fun t => t.gone && t.ctx == s.transKey w && t.sel == w.codesel && t.off ≤ pc && t.table.any (·.1 + t.off == pc)

/-- Whether a queue of a wave has at its head a command that an UNRESOLVED guard holds. -/
def Wave.guardHeld (w : Wave) : Bool :=
  [w.mq, w.eq, w.cq].any fun q => match q with
    | [] => false
    | c :: _ => match c.guard with | none => false | some g => tget 0 w.guards g == 0

/-- Whether entry `e` has moved to another place, or is new, between two states of a wave. -/
def Wave.moved (before after : Wave) (e : Nat) : Bool :=
  (after.split e).valid && (!(before.split e).valid || (before.split e).pc != (after.split e).pc || (before.split e).arrived != (after.split e).arrived)

/-- A split at a safe point runs translated code from here on, or not, as a free bit says. (log 66, DESIGN CHOICE) -/
def State.offerSwitch (s : State) (k e : Nat) : State :=
  let r := s.draw
  if bitOf r.1.toNat 0 then r.2.modWave k fun w => w.modSplit e fun x => { x with trans := true } else r.2

/-- The splits among some entries that stand at a safe point: those at a place that `ok` picks. (log 66, DESIGN CHOICE) -/
def State.safePoints (s : State) (k : Nat) (es : List Nat) (ok : Nat → Bool) : State :=
  match s.wave? k with
  | none => s
  | some w =>
    if w.kern.native || w.intrap || w.guardHeld then s
    else (es.filter fun e => (w.split e).valid && !(w.split e).trans && ok (w.split e).pc && s.hasEntry k w (w.split e).pc).foldl
      (fun s e => s.offerSwitch k e) s

/-- Splits leave translated code, going on by direct decode: those that went elsewhere than to `next`, to a place that begins no clause; and
at a clause boundary those whose translation has been withdrawn (R382). (log 66, DESIGN CHOICE) -/
def State.leaveTrans (s : State) (k : Nat) (before : Wave) (next : Nat) : State :=
  match s.wave? k with
  | none => s
  | some w =>
    let leaves (e : Nat) (x : Split) : Bool :=
      before.moved w e && !s.hasEntry k w x.pc && (x.pc != next || s.goneClause k w x.pc)
    if (List.range 8).any fun e => (w.split e).trans && leaves e (w.split e) then
      s.putWave k { w with splits := tmap (fun e x => { x with trans := x.trans && !leaves e x }) w.splits }
    else s

/-- Splits that resume after a trap stay in translated code only where a clause begins. -/
def State.resumeTrans (s : State) (k : Nat) : State :=
  s.modWave k fun w =>
    if w.splits.any (·.2.trans) then { w with splits := tmap (fun _ x => { x with trans := x.trans && s.hasEntry k w x.pc }) w.splits } else w

/-- The modes after an arrival of entry `e` at its reconvergence address: it may switch there, as the split may that it fused into. -/
def State.modesArrived (s : State) (k e : Nat) (before : Wave) : State :=
  if (s.part (partOfKey k)).trans.isEmpty then s
  else
    let link := match (before.split e).frames.getLast? with | some f => if f.kind = 0 && !f.orig then [f.link] else [] | none => []
    (s.leaveTrans k before (2 ^ 44)).safePoints k (e :: link) (· == (before.split e).rpc)

/-- SPLIT_ARRIVAL: one arrival, of a split that stands at its reconvergence address or has no lane left. -/
def execSplitArrival (k e : Nat) (s : State) : Out :=
  match s.wave? k with
  | none => .next s
  | some w => if s.mayIssue k e w && (w.split e).atArrival then .next ((s.putWave k (w.arrive e)).modesArrived k e w) else .next s

/-! ### Targets (R177–R179) -/

/-- The branch condition at every lane, before EM (R177). -/
def Wave.condLanes (w : Wave) (c : Ctl) : LaneMask := if c.neg then ~~~(w.p c.pred) else w.p c.pred

/-- Check the targets of the lanes that transfer; RET may change segment. -/
def State.checkTargets (s : State) (u : Who) (codesel : Nat) (ret : Bool) (ls : List (Nat × Nat × Int)) : Option LFault :=
  let one (p : Nat × Nat × Int) : List (Nat × AFault) :=
    let a := segAddr p.2.1 (narrow 44 p.2.2)
    let bad (code cause : Nat) : List (Nat × AFault) := [(p.1, { code := code, cause := cause, addr := a })]
    if p.2.1 != codesel && !ret then bad fSEGV 6
    else match s.descBytes u p.2.1 with
      | .bad => bad fSEGV 4
      | .poison _ => bad fPOISON 5
      | .ok b => if p.2.2 < 0 || ((descOf b).limit : Int) ≤ p.2.2 then bad fSEGV 1 else []
  reportFaults (ls.map one).flatten false 0

/-- The literal target and reconvergence address of a branch (R178); a PC has 44 bits. -/
def Wave.target (w : Wave) (c : Cur) (d : Disp) : Int := dispTarget w.kern.native c.pc d
/-- (log 38, DEDUCED) -/
def Wave.rcAddr (w : Wave) (c : Cur) (d : Disp) : Nat := narrow 44 (dispTarget w.kern.native c.pc d)

/-- The lanes of EM for which a per-lane value differs from that of the lowest (R183). -/
def oddLanes {α : Type} [DecidableEq α] (em : LaneMask) (f : Nat → α) : LaneMask :=
  maskWhere fun l => laneOf em l && decide (f l ≠ f (lowestLane em))

/-- Read registers of a control instruction: its POISON, or the instruction goes on. -/
def State.withReads (s : State) (c : Cur) (w : Wave) (srcs : List (Src × Nat)) (preds : List Nat) (m : LaneMask) (go : State) : State :=
  match w.poisoned srcs preds m with
  | some (cause, mask) => s.fault c w fPOISON cause mask []
  | none => go

/-! ### Branches and calls (R181–R184) -/

/-- Write the return address to a pair at some lanes. -/
def Wave.putReturn (w : Wave) (c : Cur) (d : Nat) (m : LaneMask) : Wave :=
  w.putD64 m (.v d) fun _ => segAddr w.codesel c.next

/-- A branch with a literal target: BRA, and CALL, which also writes the return address of the lanes that call. -/
def State.branchTo (s : State) (c : Cur) (w : Wave) (ctl : Ctl) (t : Int) (rc : Nat) (link : Option Nat) : State :=
  let x := c.split w
  let mt := x.em &&& w.condLanes ctl
  s.withReads c w [] (predRegs ctl.pred) x.em <|
    match s.checkTargets (s.who c w) w.codesel false ((lanesOf mt).map fun l => (l, w.codesel, t)) with
    | some f => s.faultAs c w f
    | none =>
      if mt != 0 && mt != x.em && x.frames.length = 16 then s.fault c w tDIVDEPTH 0 mt []
      else
        let w1 := match link with | none => w | some d => w.putReturn c d mt
        s.putWave c.wave (w1.branch c.entry mt t.toNat c.next rc)

def execBra (o : Bra) (s : State) : Out :=
  s.run fun c w => s.branchTo c w o.ctl (w.target c o.tgt) (w.rcAddr c o.rc) none

def execCall (o : CallT) (s : State) : Out :=
  s.run fun c w => s.branchTo c w o.ctl (w.target c o.tgt) c.next (some o.d)

/-- The groups of lanes with equal targets, in ascending order of their lowest lanes (R182). -/
def targetGroups (f : Nat → DWord) (ls : List Nat) : List (LaneMask × Nat) :=
  (ls.filter fun l => ls.all fun j => l ≤ j || f j != f l).map fun l => (maskWhere fun j => ls.contains j && f j == f l, offOf (f l))

/-- BRX and CALLX: one branch step for each group of lanes with one target. -/
def State.branchGroups (s : State) (c : Cur) (w : Wave) (ctl : Ctl) (a : Reg) (none_ rc : Nat) (link : Option Nat) : State :=
  let x := c.split w
  let rem := x.em &&& w.condLanes ctl
  s.withReads c w (if rem = 0 then [] else [(a.asSrc, 2)]) (predRegs ctl.pred) (if rem = 0 then x.em else rem) <|
    if rem = 0 then s.putWave c.wave (w.modSplit c.entry (·.goto none_))
    else match s.checkTargets (s.who c w) w.codesel false ((lanesOf rem).map fun l => (l, selOf (w.reg64 a l), (offOf (w.reg64 a l) : Int))) with
    | some f => s.faultAs c w f
    | none =>
      let gs := targetGroups (w.reg64 a) (lanesOf rem)
      let steps := gs.length - (if rem = x.em then 1 else 0)
      if 16 < x.frames.length + steps then s.fault c w tDIVDEPTH 0 rem []
      else
        let w1 := match link with | none => w | some d => w.putReturn c d rem
        s.putWave c.wave (gs.foldl (fun w g => w.branch c.entry g.1 g.2 c.next rc) w1)

def execBrx (o : Brx) (s : State) : Out :=
  s.run fun c w => s.branchGroups c w o.ctl o.a (w.rcAddr c o.rc) (w.rcAddr c o.rc) none

def execCallx (o : CallX) (s : State) : Out :=
  s.run fun c w => s.branchGroups c w o.ctl o.a c.next c.next (some o.d)

/-- The whole split moves to one checked place. -/
def State.moveTo (s : State) (c : Cur) (w : Wave) (m : LaneMask) (sel : Nat) (t : Int) : State :=
  match s.checkTargets (s.who c w) w.codesel false ((lanesOf m).map fun l => (l, sel, t)) with
  | some f => s.faultAs c w f
  | none => s.putWave c.wave (w.modSplit c.entry (·.goto t.toNat))

/-- BRAU with a literal target: it never splits (R183). -/
def execBrau (o : BrauT) (s : State) : Out :=
  s.run fun c w =>
    let x := c.split w
    let cond := w.condLanes o.ctl
    let mt := x.em &&& cond
    s.withReads c w [] (predRegs o.ctl.pred) x.em <|
      if mt = 0 then s.putWave c.wave (w.modSplit c.entry (·.goto c.next))
      else if mt != x.em then s.fault c w tUNIFORM 0 (oddLanes x.em (laneOf cond)) []
      else s.moveTo c w mt w.codesel (w.target c o.tgt)

/-- BRAU with a register target: also uniform in its target. -/
def execBrauReg (o : RegTgt) (s : State) : Out :=
  s.run fun c w =>
    let x := c.split w
    let cond := w.condLanes o.ctl
    let mt := x.em &&& cond
    s.withReads c w (if mt = 0 then [] else [(o.a.asSrc, 2)]) (predRegs o.ctl.pred) x.em <|
      if mt = 0 then s.putWave c.wave (w.modSplit c.entry (·.goto c.next))
      else
        let odd := if mt = x.em then oddLanes x.em (w.reg64 o.a) else oddLanes x.em fun l => (laneOf cond l, w.reg64 o.a l)
        if odd != 0 then s.fault c w tUNIFORM 0 odd []
        else
          let t := w.reg64 o.a (lowestLane mt)
          s.moveTo c w mt (selOf t) (offOf t)

/-- BRA.DEC (03 R66): the counter falls by one, and a counter not yet zero branches as BRAU does. -/
def execBraDec (o : BraDec) (s : State) : Out :=
  s.run fun c w =>
    let x := c.split w
    let v := w.s o.d - 1
    let w1 := (w.putS o.d v).wrote [errS o.d]
    s.withReads c w [(.s o.d, 1)] [] x.em <|
      if v = 0 || x.em = 0 then s.putWave c.wave (w1.modSplit c.entry (·.goto c.next))
      else match s.checkTargets (s.who c w) w.codesel false ((lanesOf x.em).map fun l => (l, w.codesel, w.target c o.tgt)) with
        | some f => s.faultAs c w f
        | none => s.putWave c.wave (w1.modSplit c.entry (·.goto (w.target c o.tgt).toNat))

/-- BRA.DEC with the register target that BRAU takes (03 R66, R183): uniform in its target, read where the branch is taken. -/
def execBraDecReg (o : BraDecReg) (s : State) : Out :=
  s.run fun c w =>
    let x := c.split w
    let v := w.s o.d - 1
    let w1 := (w.putS o.d v).wrote [errS o.d]
    let stays := v = 0 || x.em = 0
    s.withReads c w ((.s o.d, 1) :: if stays then [] else [(o.a.asSrc, 2)]) [] x.em <|
      if stays then s.putWave c.wave (w1.modSplit c.entry (·.goto c.next))
      else if oddLanes x.em (w.reg64 o.a) != 0 then s.fault c w tUNIFORM 0 (oddLanes x.em (w.reg64 o.a)) []
      else
        let t := w.reg64 o.a (lowestLane x.em)
        match s.checkTargets (s.who c w) w.codesel false ((lanesOf x.em).map fun l => (l, selOf t, offOf t)) with
        | some f => s.faultAs c w f
        | none => s.putWave c.wave (w1.modSplit c.entry (·.goto (offOf t)))

/-- Whether the wave has one split alone (R322, R327); a handler runs on its own split. (log 36, DEDUCED) -/
def Wave.converged (w : Wave) (e : Nat) : Bool := e == 8 || w.validEntries.length == 1

/-- A return into another segment: CODESEL changes, and the top link frame, if there is one, is popped (R184, R327). -/
def State.segReturn (s : State) (c : Cur) (w : Wave) (t : DWord) : State :=
  match w.links.getLast? with
  | none => s.putWave c.wave { (w.modSplit c.entry (·.goto (offOf t))) with codesel := selOf t }
  | some f =>
      (s.putWave c.wave { (w.modSplit c.entry (·.goto (offOf t))) with codesel := selOf t, links := w.links.dropLast }).dropPin
        (partOfKey c.wave) (s.who c w).ctx f

/-- RET (R184). -/
def execRet (o : RegTgt) (s : State) : Out :=
  s.run fun c w =>
    let x := c.split w
    let m := if x.em = 0 then laneBit (lowestLane x.lanes) else x.em
    let odd := oddLanes x.em (w.reg64 o.a)
    s.withReads c w [(o.a.asSrc, 2)] [] m <|
      if x.em != 0 && odd != 0 then s.fault c w tUNIFORM 0 odd []
      else
        let t := w.reg64 o.a (lowestLane m)
        match s.checkTargets (s.who c w) w.codesel true ((lanesOf m).map fun l => (l, selOf t, (offOf t : Int))) with
        | some f => s.faultAs c w f
        | none =>
          if selOf t = w.codesel then s.putWave c.wave (w.modSplit c.entry (·.goto (offOf t)))
          else if !w.links.isEmpty && !w.converged c.entry then s.fault c w fLINKAGE 7 (orLane0 x.em) []
          else s.segReturn c w t

/-! ### Ending lanes (R166, R174, R185) -/

/-- Guard slots that read UNRESOLVED are set FALSE when the last lane exits (R166(b)). -/
def Wave.closeGuards (w : Wave) : Wave :=
  if w.liveLanes = 0 then { w with guards := (List.range 8).map fun k => (k, if tget 0 w.guards k = 0 then 2 else tget 0 w.guards k) } else w

/-- Lanes end for good; the barriers of the team are tested. -/
def State.endLanes (s : State) (c : Cur) (w : Wave) (m : LaneMask) : State :=
  (s.putWave c.wave (((w.advance c).dropLanes m).closeGuards)).testBars w.team

def execExit (c : Ctl) (s : State) : Out :=
  s.run fun cu w =>
    let x := cu.split w
    let m := w.actLanes x c.pred c.neg
    s.withReads cu w [] (predRegs c.pred) x.em <| if m = 0 then s.done cu w else s.endLanes cu w m

def execEndOp (_ : Ctl) (s : State) : Out := s.run fun cu w => s.endLanes cu w (cu.split w).lanes

/-! ### The execution mask (R187) -/

def execEmrd (_ : Ctl) (d : Nat) (lanes : Bool) (s : State) : Out :=
  s.run fun cu w =>
    let x := cu.split w
    s.done cu (w.putD x.em (.s d) fun _ => if lanes then x.lanes else x.em)

/-- The new EM. -/
def emOf (x : Split) (op : EmOp) (v : Word) : LaneMask :=
  match op with | .set => v &&& x.lanes | .and => x.em &&& v | .or => (x.em ||| v) &&& x.lanes

def execEmwr (_ : Ctl) (a : Src) (op : EmOp) (s : State) : Out :=
  s.run fun cu w =>
    let x := cu.split w
    s.withReads cu w [(a, 1)] [] x.em <|
      s.done cu (w.modSplit cu.entry fun y => { y with em := emOf x op (w.src x 0 a) })

/-! ### Waiting (R189–R192) -/

/-- A wait that is nothing but its kind. -/
def waitFor (kind arg : Nat) : Wait := { kind := kind, arg := arg, dead := 0, done := false }

def execWaitf (_ : Ctl) (a : Src) (limit : Nat) (s : State) : Out :=
  s.run fun cu w =>
    let x := cu.split w
    s.withReads cu w [(a, 1)] [] x.em <|
      if (List.range 12).all fun i => !(w.src x 0 a).getLsbD i || w.flag i ≤ limit then s.done cu w
      else s.hold cu w (waitFor 1 0)

/-- A team's barrier. -/
def Team.bar (t : Team) (n : Nat) : Barrier := tget { phase := 0, arrived := [] } t.bars n

/-- Add a split's lanes to a wave's arrived set. (log 39, DEDUCED) -/
def Team.arriveBar (t : Team) (n wid : Nat) (m : LaneMask) : Team :=
  let b := t.bar n
  { t with bars := tput t.bars n { b with arrived := tput b.arrived wid (tget 0 b.arrived wid ||| m) } }

/-- The release that goes before an arrival: its marker, and the split waits for it. -/
def State.barRelease (s : State) (c : Cur) (w : Wave) : State :=
  let (w1, op) := w.newOp none 1
  (s.hold c w1 (waitFor 0 op)).release c.wave 1 none op

/-- The arrival of BAR or BARA after its release (R190(a)): lanes already in the set wait for the next phase, number 16 + n of the wait.
(log 39, DEDUCED) -/
def State.barArrive (s : State) (c : Cur) (w : Wave) (n : Nat) (wait : Bool) : State :=
  match s.team? w.team with
  | none => s
  | some t =>
    let x := c.split w
    if tget 0 (t.bar n).arrived w.wid &&& x.lanes != 0 then s.hold c w (waitFor 2 (16 + n))
    else
      let s1 := s.putTeam w.team (t.arriveBar n w.wid x.lanes)
      let s2 := if wait then s1.hold c w (waitFor 2 n)
        else s1.done c { w with bara := tset 0 w.bara n (t.bar n).phase, baraV := sins w.baraV n }
      s2.testBar w.team n

/-- BAR. A handler's moves on and leaves the barrier as it is: a program that breaks R191 stops no other wave (00 R7). (log 39, DEDUCED; log
68, DESIGN CHOICE) -/
def execBar (_ : Ctl) (n : Nat) (s : State) : Out :=
  s.run fun c w =>
    if c.entry = 8 then s.done c w
    else match (c.split w).wait with
    | none => s.barRelease c w
    | some r =>
      if r.kind = 2 then
        (if !r.done then s else if r.arg < 16 then (s.done c w).acquire (clusterOfKey c.wave) 1 else s.barArrive c w n true)
      else if (tfind w.ops r.arg).isSome then s
      else s.barArrive c w n true

/-- BARA. A handler's leaves the barrier as it is, and the phase it records is free (00 R7, R191). (log 39, DEDUCED; log 68, DESIGN CHOICE) -/
def execBara (_ : Ctl) (n : Nat) (s : State) : Out :=
  s.run fun c w =>
    if c.entry = 8 then
      let v := s.draw
      v.2.done c { w with bara := tset 0 w.bara n v.1.toNat, baraV := sins w.baraV n }
    else match (c.split w).wait with
    | none => s.barRelease c w
    | some r =>
      if r.kind = 2 then (if r.done then s.barArrive c w n false else s)
      else if (tfind w.ops r.arg).isSome then s
      else s.barArrive c w n false

/-- BARW. A handler's does not wait (00 R7, R191). (log 68, DESIGN CHOICE) -/
def execBarw (_ : Ctl) (n : Nat) (s : State) : Out :=
  s.run fun c w =>
    match s.team? w.team with
    | none => s
    | some t =>
      if c.entry = 8 || !w.baraV.contains n || serialLt 32 (tget 0 w.bara n) (t.bar n).phase then
        (s.done c w).acquire (clusterOfKey c.wave) 1
      else s.hold c w (waitFor 3 n)

def execYield (_ : Ctl) (s : State) : Out := s.run fun c w => s.done c w
def execNop (_ : Ctl) (s : State) : Out := s.run fun c w => s.done c w
def execNopZ32 (_ : Nat) (_ : Bool) (s : State) : Out := s.run fun c w => s.done c w

/-- Whether GTS has reached a deadline. (log 30, DEDUCED) -/
def State.passed (s : State) (dead : Nat) : Bool := !serialLt 64 s.gts dead

/-- (log 30, DEDUCED) -/
def execSleep (_ : Ctl) (a : Src) (s : State) : Out :=
  s.run fun c w =>
    let x := c.split w
    match x.wait with
    | some r => if r.done || s.passed r.dead then s.done c w else s
    | none =>
      s.withReads c w [(a, 1)] [] x.em <|
        let n := (w.src x 0 a).toNat
        if n = 0 then s.done c w
        else s.hold c w { kind := 7, arg := 0, dead := (s.gts + n) % 2 ^ 64, done := false }

/-- Mark a split's wait as over when a test on it holds. (log 23, DESIGN CHOICE) -/
def State.endWait (s : State) (k e : Nat) (f : Wait → Bool) : State :=
  s.modWave k fun w => w.modSplit e fun x => { x with wait := x.wait.map fun r => if f r then { r with done := true } else r }

/-- SLEEP_DEADLINE: the split becomes ready once GTS has reached its deadline. -/
def execSleepDeadline (k e : Nat) (s : State) : Out := .next (s.endWait k e fun r => r.kind == 7 && s.passed r.dead)

/-- The waits that leave a split asleep, parked or at a barrier (R168). -/
def Wait.asleep (r : Wait) : Bool := !r.done && (r.kind == 2 || r.kind == 3 || (4 ≤ r.kind && r.kind ≤ 15))

/-- The entries of a wave that could go on: its handler's alone while one runs, else those that have not arrived. -/
def Wave.goers (w : Wave) : List Nat := if w.handler.isSome then [8] else w.validEntries.filter fun e => !(w.split e).arrived

/-- Whether a split is held by a wait mask or a clause header whose flags are not zero (R168(b)). -/
def State.maskHeld (s : State) (k : Nat) (w : Wave) (e : Nat) : Bool :=
  (w.split e).wait.isNone && match s.fetch (s.waveWho k w) w (w.split e) with
    | .header h => !w.waitOk h.wait
    | .word _ r .. => r.op != 0 && r.form == 1 && !w.waitOk (BitVec.ofNat 12 r.wait)
    | _ => false

/-- Whether a wave is ready (R168(b)): not every split of it is asleep, and not every one is held. (log 42, DESIGN CHOICE) -/
def State.readyWave (s : State) (k : Nat) (w : Wave) : Bool :=
  !w.halted && !w.goers.all (fun e => (w.split e).wait.any Wait.asleep) && !w.goers.all (s.maskHeld k w)

/-- The pending waves of a quadrant that are ready. -/
def State.readyPending (s : State) (q : Nat) : List (Nat × Wave) :=
  s.waves.filter fun p => quadOfKey p.1 == q && !p.2.active && s.readyWave p.1 p.2

/-- The one that has been ready longest, the lower slot on a tie (R168(d)); one not seen ready at a clock tick yet has only become so. -/
def longestReady (l : List (Nat × Wave)) : Option (Nat × Wave) :=
  l.foldl (fun b p => match b with
    | none => some p
    | some q => match q.2.rdy, p.2.rdy with
      | none, some _ => some p
      | some x, some y => if serialLt 64 y x then some p else some q
      | _, none => some q) none

/-- A pending wave enters the active set. -/
def State.enter (s : State) (p : Nat × Wave) : State := s.putWave p.1 { p.2 with active := true, rdy := none }

/-- The active waves of a quadrant. -/
def State.activeIn (s : State) (q : Nat) : Nat := (s.waves.filter fun p => quadOfKey p.1 == q && p.2.active).length

/-- A quadrant whose active set has room takes in ready waves, the longest ready first (R168(a), R170, R176); at most `n`. (log 42, DESIGN
CHOICE) -/
def State.fillActive (s : State) (q : Nat) : Nat → State
  | 0 => s
  | n + 1 =>
      if 8 ≤ s.activeIn q then s
      else match longestReady (s.readyPending q) with
        | none => s
        | some p => (s.enter p).fillActive q n

/-- The clock notes which pending waves are ready, and since when, and fills active sets that have room (R168). (log 42, DESIGN CHOICE) -/
def State.noteReady (s : State) : State :=
  let s1 := { s with waves := tmap (fun k w =>
    { w with rdy := if !w.active && s.readyWave k w then some (w.rdy.getD s.gts) else none }) s.waves }
  ((s1.waves.filter fun p => !p.2.active).foldl (fun l p => sins l (quadOfKey p.1)) []).foldl (fun (s : State) q => s.fillActive q 8) s1

/-- STALL_EVENT: the active wave goes to the pending set, and the ready wave that has been ready longest comes in, the lower slot first on a
tie (R168(d)); an active set that has room takes in ready waves. When the event is due by the cycle counts of R168(c) is timing. (log 42,
DESIGN CHOICE) -/
def execStallEvent (k : Nat) (s : State) : Out :=
  match s.wave? k with
  | none => .next s
  | some w =>
    if !s.clocked (partOfKey k) then .next s
    else if !w.active then .next (s.fillActive (quadOfKey k) 8)
    else match longestReady (s.readyPending (quadOfKey k)) with
    | none => .next s
    | some p => .next ((s.putWave k { w with active := false, rdy := none }).enter p)

/-! ### Guards and traps (R193, R196) -/

/-- The value GSET writes: 0 UNRESOLVED, 1 TRUE, 2 FALSE. (log 41, DESIGN CHOICE) -/
def guardVal (w : Wave) (x : Split) (v : GVal) : Nat :=
  match v with | .unresolved => 0 | .true => 1 | .false => 2 | .from a => if w.src x 0 a = 0 then 2 else 1

def execGset (_ : Ctl) (slot : Nat) (v : GVal) (s : State) : Out :=
  s.run fun c w =>
    let x := c.split w
    s.withReads c w (match v with | .from a => [(a, 1)] | _ => []) [] x.em <|
      s.done c { w with guards := tset 0 w.guards slot (guardVal w x v) }

/-- TRAP continues after itself: the split has moved on when the trap is taken. -/
def execTrap (c : Ctl) (num : Nat) (s : State) : Out :=
  s.run fun cu w =>
    let x := cu.split w
    let m := w.actLanes x c.pred c.neg
    s.withReads cu w [] (predRegs c.pred) x.em <|
      if m = 0 then s.done cu w
      else (s.done cu w).raise cu { cu.trap w tTRAP 0 m [] with num := num, pc := segAddr w.codesel cu.next }

/-- BKPT traps before itself. -/
def execBkpt (c : Ctl) (num : Nat) (s : State) : Out :=
  s.run fun cu w =>
    let x := cu.split w
    let m := w.actLanes x c.pred c.neg
    s.withReads cu w [] (predRegs c.pred) x.em <|
      if m = 0 then s.done cu w else s.raise cu { cu.trap w tBKPT 0 m [] with num := num }

/-- TRAPZ (R56, R196). -/
def State.trapz (s : State) (c : Cur) (w : Wave) : State :=
  let m := orLane0 (c.split w).em
  s.fault c w tTRAPZ 0 m ((lanesOf m).map fun l => (l, segAddr w.codesel c.pc))

def execTrapz (s : State) : Out := s.run fun c w => s.trapz c w
def execTrapzZ32 (s : State) : Out := s.run fun c w => s.trapz c w

def execEret (_ : Ctl) (s : State) : Out := s.run fun c w => s.eret c w

/-! ### Fetch, clause headers and trap entry as steps of their own -/

/-- INSTRUCTION_FETCH: the fetch of a split's next instruction; a fault or a decode trap is taken, else what was fetched
stays in the instruction cache. -/
def execInstructionFetch (k e : Nat) (s : State) : Out :=
  match s.wave? k with
  | none => .next s
  | some w =>
    if s.mayIssue k e w && !(w.split e).atArrival then
      let x := w.split e
      .next ((s.keepFetch (s.waveWho k w) w x).takeFetched k e w x (s.fetch (s.waveWho k w) w x))
    else .next s

/-- CLAUSE_HEADER: the clause begins once every flag of its wait mask reads zero (R49). (log 22, DEDUCED) -/
def execClauseHeader (h : Header) (s : State) : Out :=
  s.run fun c w => if w.waitOk h.wait then s.done c w else s

/-- The trap that a fetch found, if it found one. -/
def trapFetched (w : Wave) (x : Split) (f : Fetched) : Option Trap :=
  match f with
  | .fault f => some (fetchTrap w x f.code f.cause f.addr)
  | .bad b t => some (decodeTrap w x b t)
  | .zero => some (fetchTrap w x tTRAPZ 0 (segAddr w.codesel x.pc))
  | _ => none

/-- TRAP_ENTRY: the trap that stands at a split's place is taken (R198). Every other trap is taken in the step of the instruction that raises
it, or of the entry of 17 R337, R339 or 18 R369: no trap without its cause is (17 R332). (log 4, DESIGN CHOICE) -/
def execTrapEntry (k e : Nat) (t : Trap) (s : State) : Out :=
  match s.wave? k with
  | none => .next s
  | some w =>
    let f := s.fetch (s.waveWho k w) w (w.split e)
    if s.mayIssue k e w && !(w.split e).atArrival && decide (trapFetched w (w.split e) f = some t) then
      .next (s.takeFetched k e w (w.split e) f)
    else .next s

end Sys2Proof.Machine
end

