-- ==== Sys2Proof/Machine/System.lean ====
section
/-! DEFINITION. The special registers and their instructions: SYSR, SYSW, the writes of LTIME and FDPEND (08 R202, R203, 15 R301, 18 R374, 20 R387, 11 R269). -/

namespace Sys2Proof.Machine

/-! ### Reading -/

/-- HWLOC of a wave's slot (01 R12). -/
def hwloc (k : Nat) : Nat :=
  quadOfKey k % 4 * 2 ^ 24 + coreOfKey k * 2 ^ 16 + clusterOfKey k * 2 ^ 10 + partOfKey k * 2 ^ 8

/-- The entries that run translated code, one bit each (20 R387). -/
def Wave.trmode (w : Wave) : Nat := (List.range 8).foldl (fun a e => a + bnat (tget Split.invalid w.splits e).trans * 2 ^ e) 0

/-- A field of link frame `f`; an absent frame reads 0. -/
def Wave.linkField (w : Wave) (f : Nat) (g : LFrame → Nat) : Nat := ((w.links[f]?).map g).getD 0

/-- A field of containment frame `f`; an absent frame reads 0. -/
def Wave.crField (w : Wave) (f : Nat) (g : CFrame → Nat) : Nat := ((w.cframes[f]?).map g).getD 0

/-- CRINFO of a frame (18 R374). -/
def CFrame.info (f : CFrame) : Nat := bitsOf f.off 32 12 + bnat f.team * 2 ^ 12 + f.lsdepth * 2 ^ 13

/-- The registers at 0x000–0x0FF (R203). `v` says whether the destination is a V register, `l` the lane. -/
def State.readCore (s : State) (k : Nat) (w : Wave) (v : Bool) (l addr : Nat) : Nat :=
  let p := s.part (partOfKey k)
  let c := s.core (coreOfKey k)
  let tm (f : Team → Nat) : Nat := ((s.team? w.team).map f).getD 0
  if addr = 0x000 then hwloc k
  else if addr = 0x001 then tm (·.ctx)
  else if addr = 0x002 then (if w.c16 && v then 2 * w.wid + l / 16 else w.wid)
  else if addr = 0x003 then tm (·.x)
  else if addr = 0x004 then tm (·.y)
  else if addr = 0x005 then tm (·.z)
  else if addr = 0x006 then tm (·.linear)
  else if addr = 0x007 then tm (·.gridid)
  else if addr = 0x008 then w.codesel
  else if addr = 0x00A then s.gts % 2 ^ 32
  else if addr = 0x00B then s.gts / 2 ^ 32
  else if addr = 0x010 then w.fpstat.toNat
  else if addr = 0x011 then w.rngLo.toNat
  else if addr = 0x012 then w.rngHi.toNat
  else if addr = 0x013 then w.rngStream.toNat
  else if addr = 0x014 then w.rngStep.toNat
  else if addr = 0x020 then w.trapcode
  else if addr = 0x021 then w.trapinfo
  else if addr = 0x022 then (loWord w.trappc).toNat
  else if addr = 0x023 then (hiWord w.trappc).toNat
  else if addr = 0x024 then w.faultmask.toNat
  else if addr = 0x025 then w.tstate
  else if addr = 0x026 then w.swidx0
  else if addr = 0x027 then w.swidx1
  else if addr = 0x028 then (loWord (tget 0 w.faddr l)).toNat
  else if addr = 0x029 then (hiWord (tget 0 w.faddr l)).toNat
  else if 0x030 ≤ addr && addr ≤ 0x036 then (w.emuReg (addr - 0x030)).toNat
  else if addr = 0x040 then (loWord p.svec).toNat
  else if addr = 0x041 then (hiWord p.svec).toNat
  else if addr = 0x050 then c.ltime
  else if addr = 0x051 then c.period
  else 0

/-- The registers at 0x100–0x1FF (15 R301). -/
def State.readSeg (s : State) (k : Nat) (w : Wave) (addr : Nat) : Nat :=
  let p := s.part (partOfKey k)
  if addr = 0x100 then p.ctxt % 2 ^ 32
  else if addr = 0x101 then p.ctxt / 2 ^ 32
  else if addr = 0x102 then p.ctxtn
  else if addr = 0x104 then p.svseg % 2 ^ 32
  else if addr = 0x105 then p.svseg / 2 ^ 32
  else if addr = 0x106 then p.svsegn
  else if addr = 0x108 then p.svpt % 2 ^ 32
  else if addr = 0x109 then p.svpt / 2 ^ 32
  else if addr = 0x10C then w.linkidx.toNat
  else if addr = 0x10D then w.linkent.toNat
  else if addr = 0x10E then w.linkgen.toNat
  else if addr = 0x10F then w.linksel.toNat
  else if addr = 0x110 then (loWord w.linkname).toNat
  else if addr = 0x111 then (hiWord w.linkname).toNat
  else if addr = 0x112 then w.links.length
  else if 0x120 ≤ addr && addr < 0x140 then
    let f := (addr - 0x120) / 4
    if (addr - 0x120) % 4 = 0 then w.linkField f (·.bidx)
    else if (addr - 0x120) % 4 = 1 then w.linkField f (·.gen)
    else if (addr - 0x120) % 4 = 2 then w.linkField f (·.sel) else 0
  else 0

/-- The registers at 0x200–0x2FF (18 R374). -/
def State.readRel (s : State) (k : Nat) (w : Wave) (addr : Nat) : Nat :=
  let p := s.part (partOfKey k)
  if addr = 0x200 then w.cframes.length
  else if 0x201 ≤ addr && addr ≤ 0x20C then
    let f := (addr - 0x201) / 3
    if (addr - 0x201) % 3 = 0 then w.crField f (·.off % 2 ^ 32)
    else if (addr - 0x201) % 3 = 1 then w.crField f CFrame.info
    else w.crField f (·.sel)
  else if addr = 0x210 then p.cewin
  else if addr = 0x211 then p.cethr
  else if addr = 0x212 then (loWord p.evbase).toNat
  else if addr = 0x213 then (hiWord p.evbase).toNat
  else if addr = 0x214 then p.evcount
  else if addr = 0x215 then p.evhead
  else if addr = 0x220 then p.audctl
  else if addr = 0x221 then p.audseq
  else if addr = 0x222 then p.audok
  else if addr = 0x223 then p.audbad
  else if addr = 0x224 then p.audskip
  else if 0x228 ≤ addr && addr ≤ 0x22F then p.fdpend.getD (addr - 0x228) 0
  else if addr = 0x230 then w.audCore.toNat
  else if addr = 0x231 then w.audTeam.toNat
  else if addr = 0x232 then w.audGrid.toNat
  else 0

/-- The bytes a translation takes in the Cistern: those of its record (R386), in whole 128-byte lines. (log 17, DESIGN CHOICE) -/
def CistEnt.bytes (e : CistEnt) : Nat := roundUp (0x180 + e.image.length + 8 * e.table.length) 128

/-- The bytes of a block that entries take. -/
def CistBlock.used (b : CistBlock) : Nat := b.dead + (b.ents.map CistEnt.bytes).foldl (· + ·) 0

/-- CISTFREE: the free MiB of the Cistern (R387, 01 R26). (log 17, DESIGN CHOICE) -/
def Module.cistFree (m : Module) : Nat := (Config.cisternBytes - (m.cistern.map (·.2.used)).foldl (· + ·) 0) / 2 ^ 20

/-- CISTWEAR: the highest erase count of a block, in percent of what a block is rated for; 255 at most (R387). (log 17, DESIGN CHOICE) -/
def Module.cistWear (m : Module) : Nat := min 255 ((m.cistern.map (·.2.erases)).foldl max 0 * 100 / (Config.cistRatedLess + 1))

/-- The registers at 0x300–0x33F (20 R387). (log 6, DESIGN CHOICE) -/
def State.readTr (s : State) (k : Nat) (w : Wave) (addr : Nat) : Nat :=
  let p := s.part (partOfKey k)
  if addr = 0x300 then p.trctl
  else if addr = 0x301 then w.trmode
  else if addr = 0x302 then (loWord Config.featv).toNat
  else if addr = 0x303 then (hiWord Config.featv).toNat
  else if addr = 0x304 then s.modu.cistFree % 2 ^ 32
  else if addr = 0x305 then s.modu.cistWear
  else if addr = 0x308 then p.trbuilt
  else if addr = 0x309 then p.trhitc
  else if addr = 0x30A then p.trhito
  else if addr = 0x30B then p.trrej
  else if addr = 0x310 then (loWord p.oasbase).toNat
  else if addr = 0x311 then (hiWord p.oasbase).toNat
  else 0

/-- A special register as it reads at a lane. (log 35, DEDUCED) -/
def State.readSys (s : State) (k : Nat) (w : Wave) (v : Bool) (l addr : Nat) : Nat :=
  if addr < 0x100 then s.readCore k w v l addr
  else if addr < 0x200 then s.readSeg k w addr
  else if addr < 0x300 then s.readRel k w addr
  else s.readTr k w addr

/-! ### Writing -/

/-- Replace the low or the high word of a 64-bit register. -/
def setLo (x : DWord) (v : Word) : DWord := dword v (hiWord x)
def setHi (x : DWord) (v : Word) : DWord := dword (loWord x) v

/-- Replace the low 32 bits, or bits 51:32, of a physical address. -/
def paLo (x v : Nat) : Nat := x / 2 ^ 32 * 2 ^ 32 + v
def paHi (x v : Nat) : Nat := x % 2 ^ 32 + v % 2 ^ 20 * 2 ^ 32

/-- A write of LTIME: every lease copy of the cluster expires for the core, whatever the value (11 R269). -/
def State.putLtime (s : State) (q v : Nat) : State :=
  let s := s.modCore q fun c => { c with ltime := v % 2 ^ 16 }
  s.modCluster (q / 4) fun c =>
    { c with copies := c.copies.map fun x => if x.lease then { x with expired := sins x.expired (q % 4) } else x }

/-- A write to a register held per wave; RO registers and reserved bits ignore it (00 R4). (log 35, DEDUCED) -/
def Wave.writeSys (w : Wave) (addr : Nat) (v : Word) : Wave :=
  if addr = 0x010 then { w with fpstat := v &&& 0x3F#32 }
  else if addr = 0x011 then { w with rngLo := v }
  else if addr = 0x012 then { w with rngHi := v }
  else if addr = 0x013 then { w with rngStream := v }
  else if addr = 0x014 then { w with rngStep := v }
  else if addr = 0x022 then { w with trappc := setLo w.trappc v }
  else if addr = 0x023 then (if w.clvl then { w with trappc := setHi w.trappc v } else w)
  else if addr = 0x025 then (if w.clvl then { w with plvl := v.getLsbD 29 } else w)
  else if addr = 0x026 then { w with swidx0 := v.toNat % 2 ^ 30 }
  else if addr = 0x027 then { w with swidx1 := v.toNat % 2 ^ 10 }
  else w

/-- A write to a register held per partition (supervisor level only). (log 35, DEDUCED) -/
def Part.writeSys (p : Part) (addr : Nat) (v : Word) : Part :=
  let n := v.toNat
  if addr = 0x040 then { p with svec := setLo p.svec v }
  else if addr = 0x041 then { p with svec := setHi p.svec v }
  else if addr = 0x100 then { p with ctxt := paLo p.ctxt n }
  else if addr = 0x101 then { p with ctxt := paHi p.ctxt n }
  else if addr = 0x102 then { p with ctxtn := n }
  else if addr = 0x104 then { p with svseg := paLo p.svseg n }
  else if addr = 0x105 then { p with svseg := paHi p.svseg n }
  else if addr = 0x106 then { p with svsegn := n }
  else if addr = 0x108 then { p with svpt := paLo p.svpt n }
  else if addr = 0x109 then { p with svpt := paHi p.svpt n }
  else if addr = 0x210 then { p with cewin := n }
  else if addr = 0x211 then { p with cethr := n % 2 ^ 8 }
  else if addr = 0x212 then { p with evbase := setLo p.evbase v }
  else if addr = 0x213 then { p with evbase := setHi p.evbase v }
  else if addr = 0x214 then { p with evcount := n }
  else if addr = 0x220 then { p with audctl := n % 2 ^ 5 + bitsOf n 8 8 * 2 ^ 8 }
  else if 0x228 ≤ addr && addr ≤ 0x22F then
    { p with fdpend := lset p.fdpend (addr - 0x228) (BitVec.ofNat 32 (p.fdpend.getD (addr - 0x228) 0) &&& ~~~v).toNat }
  else if addr = 0x300 then { p with trctl := n % 2 ^ 4 }
  else if addr = 0x310 then { p with oasbase := setLo p.oasbase v }
  else if addr = 0x311 then { p with oasbase := setHi p.oasbase v }
  else p

/-- A special register is written by wave `k`: at its wave, its core or its partition. (log 35, DEDUCED) -/
def State.writeSys (s : State) (k addr : Nat) (v : Word) : State :=
  let s := s.modWave k (·.writeSys addr v)
  if addr = 0x050 then s.putLtime (coreOfKey k) v.toNat
  else if addr = 0x051 then s.modCore (coreOfKey k) fun c => { c with period := v.toNat }
  else s.modPart (partOfKey k) (·.writeSys addr v)

/-! ### The instructions -/

/-- Whether a level may reach every register an access covers, to read or to write (R202). (log 35, DEDUCED) -/
def sysMay (sup : Bool) (addr : Nat) (w64 : Bool) : Bool := (sysCovers addr w64).all fun x => sysAccess sup x != 0

/-- The value a SYSR gives a lane: one register, or a pair. -/
def State.sysValue (s : State) (k : Nat) (w : Wave) (o : Sysr) (l : Nat) : Nat :=
  let v := match o.d with | .v _ => true | _ => false
  s.readSys k w v l o.addr + (if o.w64 then s.readSys k w v l (o.addr + 1) * 2 ^ 32 else 0)

/-- The words a result writes, as an audit records them (18 R368). (log 35, DEDUCED) -/
def writesOf (d : Dst) (wide : Bool) (m : LaneMask) (f : Nat → Nat) : List RegWrite :=
  let one (r l : Nat) : List RegWrite :=
    { reg := r, lane := l, val := BitVec.ofNat 32 (f l) } ::
      (if wide then [{ reg := r + 1, lane := l, val := BitVec.ofNat 32 (f l / 2 ^ 32) }] else [])
  match d with
  | .v n => ((lanesOf m).map fun l => one n l).flatten
  | .s n => one (192 + n) 0
  | .zero => []

/-- SYSR (R202). -/
def execSysr (o : Sysr) (s : State) : Out :=
  s.run fun c w =>
    let m := w.actLanes (c.split w) o.ctl.pred o.ctl.neg
    if !sysMay w.clvl o.addr o.w64 then s.illegal c w cRSVOPND
    else s.withReads c w [] (predRegs o.ctl.pred) m <|
      s.done c (w.putW o.w64 m o.d (s.sysValue c.wave w o))

/-- A level's write of a register: one that the level may only read ignores it (R202). -/
def State.writeAt (s : State) (sup : Bool) (k addr : Nat) (v : Word) : State :=
  if sysAccess sup addr = 2 then s.writeSys k addr v else s

/-- A write of every register an access covers, in one step. -/
def State.sysw (s : State) (c : Cur) (w : Wave) (o : Sysw) : State :=
  if !sysMay w.clvl o.addr o.w64 then s.illegal c w cRSVOPND
  else s.withReads c w [(o.a, if o.w64 then 2 else 1)] [] (c.split w).em <|
    let v := w.src64 (c.split w) 0 false o.a
    let s1 := (s.done c w).writeAt w.clvl c.wave o.addr (if o.w64 then loWord v else w.src (c.split w) 0 o.a)
    if o.w64 then s1.writeAt w.clvl c.wave (o.addr + 1) (hiWord v) else s1

/-- SYSW of a register without behaviour of its own. -/
def execSysw (o : Sysw) (s : State) : Out := s.run fun c w => s.sysw c w o
/-- SYSW that covers LTIME (11 R269). -/
def execLtimeWrite (o : Sysw) (s : State) : Out := s.run fun c w => s.sysw c w o
/-- SYSW that covers an FDPEND register: ones clear pending bits (18 R374). -/
def execFdpendClear (o : Sysw) (s : State) : Out := s.run fun c w => s.sysw c w o

end Sys2Proof.Machine
end

