-- ==== Sys2Proof/Machine/Access.lean ====
section
/-! DEFINITION. How a wave reads memory (09 R208), how a cluster is filled (11 R254, R258, R269), structures the Ovyen reads as LD reads them (10 R424). -/

namespace Sys2Proof.Machine

/-! ### Slices (01 R17) -/

/-- Whether a logical SRAM bank is removed, or reserved as a retirement's target (18 R357, R358). -/
def State.bankGone (s : State) (k b : Nat) : Bool :=
  s.units.any fun u => match u.key with
    | .sram c x => c == k && ((x == b && u.state == 2) || u.target == some b)
    | _ => false

/-- Whether a cluster's slice for a line has a way: a CACHE bank whose number mod 4 is the slice's. With none, its accesses pass uncached;
a bank that leaves CACHE takes no new fill (10 R234). -/
def State.cached (s : State) (k : Nat) (v : Via) : Bool :=
  (List.range 32).any fun i =>
    let b := 4 * i + Config.sliceOf v.ctx (v.seg / 128) % 4
    ((s.cluster k).bank b).mode == 0 && !s.bankGone k b && !(s.cluster k).switches.any (·.bank == b)

/-! ### The sources of a load (R208) -/

/-- The store entries of an item, oldest first. -/
def SItem.entries : SItem → List Entry
  | .store e => [e]
  | .marker .. => []
def PItem.entries : PItem → List Entry
  | .store e => [e]
  | .barrier .. => []

/-- The newest byte that entries hold for an address, with their poison; `scr` tells scratch offsets from physical addresses. -/
def newestByte (l : List Entry) (scr : Bool) (a : Nat) : Option (Byte × Bool) :=
  l.foldl (fun acc e => match if (e.kind == 1) == scr then e.byteAt a else none with | some b => some (b, e.bad) | none => acc) none

/-- The newest byte a store buffer holds for an address. -/
def sbByte (l : List SItem) (scr : Bool) (a : Nat) : Option (Byte × Bool) := newestByte (l.map SItem.entries).flatten scr a

/-- The newest byte a publish buffer holds for an address. -/
def pbByte (l : List PItem) (a : Nat) : Option (Byte × Bool) := newestByte (l.map PItem.entries).flatten false a

/-- The newest byte that a cluster's own entries on their way to the home hold for an address (R212). (log 27, DEDUCED) -/
def State.hqByte (s : State) (k a : Nat) : Option (Byte × Bool) :=
  newestByte ((tget [] s.hq (a / 128)).map fun x => match x.entry? with | some e => if e.core / 4 == k then [e] else [] | none => []).flatten false a

/-- The cluster copy that may serve a load of a core: at CLUSTER scope or narrower, for PRIVATE at any (R206), under the access's tag, and
unexpired for the core (11 R269). -/
def State.copyFor (s : State) (core kind scope a : Nat) (v : Via) : Option Copy :=
  if kind == 0 || (scope < 3 && (kind == 2 || kind == 3 || kind == 4)) then (s.tagged core v).filter (·.line == a / 128) else none

/-- What a wave reads before it comes to a copy or the home: its store buffer, a replay's buffer, its cluster's entries. -/
def State.nearByte (s : State) (core : Nat) (w : Wave) (a : Nat) : Option (Byte × Bool) :=
  match sbByte w.sb false a with
  | some b => some b
  | none => match s.replayByte w.team a with
    | some b => some (b, false)
    | none => match pbByte (s.cluster (core / 4)).pb a with
      | some b => some b
      | none => s.hqByte (core / 4) a

/-- One byte as a wave's load reads it, and whether the sector it comes from is marked (18 R348). (log 29, DEDUCED) -/
def State.readByte (s : State) (core : Nat) (w : Wave) (kind scope a : Nat) (v : Via) : Byte × Bool :=
  if kind = 1 then
    match sbByte w.sb true a with
    | some b => b
    | none => match s.team? w.team with
      | none => (0, false)
      | some t => (memGet t.scratch a, t.smark.contains (a / 32))
  else match s.nearByte core w a with
    | some b => b
    | none => match s.copyFor core kind scope a v with
      | some c => (c.bytes.getD (a % 128) 0, c.marks.contains (a % 128 / 32))
      | none => (s.homeByte a, s.homeMark a)

/-- Whether a byte comes from the wave's or the cluster's own buffers or copies. -/
def State.localByte (s : State) (core : Nat) (w : Wave) (kind scope a : Nat) (v : Via) : Bool :=
  kind == 1 || (s.nearByte core w a).isSome || (s.copyFor core kind scope a v).isSome

/-! ### Fills -/

/-- The physical address of a cairn that a descriptor binds (09 R216). -/
def State.cairnOf (s : State) (u : Who) (a : Access) : Option Nat :=
  if a.cairn = 0 || !(a.kind == 2 || a.kind == 3 || a.kind == 4) then none
  else match s.descBytes u (selOf a.cairn) with
    | .ok b => s.linPA u (selOf a.cairn) (descOf b).kind ((descOf b).base + offOf a.cairn)
    | _ => none

/-- A copy of a line as its home stands, under a tag. -/
def State.copyOf (s : State) (line : Nat) (owned lease : Bool) (wts rts : Nat) (t : Tag) : Copy :=
  { line := line, bytes := memGets s.mem (line * 128) 128, marks := (List.range 4).filter fun i => s.marks.contains (line * 4 + i),
    lease := lease, wts := wts, rts := rts, expired := [], owned := owned, stored := false, tags := [t] }

/-- A fill reply is acted on at the cluster, after every earlier message to it (11 R258(d)). Where no slice may hold the line, nothing stays of
it but the move of logical time (R268). -/
def State.install (s : State) (core : Nat) (c : Copy) (v : Via) : State :=
  let s := s.deliverAll (core / 4)
  if s.cached (core / 4) v then s.deliver (core / 4) (.fill c core)
  else if c.lease then s.advLtime core (serialMax 16 (s.core core).ltime c.wts) else s

/-- The home of a line is asked for a readable copy (R254 GETS): the reply's copy, if it gives one. HOST homes always do; PEER and CODE
lines leave none. -/
def State.askCopy (s : State) (core kind line slot param : Nat) (t : Tag) : State × Option Copy :=
  if s.downAt (line * 128) then (s, none)
  else if kindHasProt kind then
    let r := s.homeEvent line 0 (reqOf core slot param) id 0 0
    let lease := (r.1.protocolOf (partOfLine line) slot).cls == 2
    (r.1, if r.2.1 == 1 || r.2.1 == 2 then some (r.1.copyOf line (r.2.1 == 2) lease r.2.2.1 r.2.2.2 t) else none)
  else
    let s1 := s.flushHq line
    (s1, if kind = 4 then some (s1.copyOf line false false 0 0 t) else none)

/-- A line is read at its home for a cluster; a copy is installed where the reply gives one (09 R208 source 4). -/
def State.fillLine (s : State) (core kind line slot param : Nat) (t : Tag) : State :=
  match s.askCopy core kind line slot param t with
  | (s1, some c) => s1.install core c t.via
  | (s1, none) => s1

/-- The protocol slot and parameters of an access's byte `i`, and the tag it is cached under. -/
def State.slotAt (s : State) (u : Who) (a : Access) (i : Nat) : Nat × Nat := s.slotOf u { a with ea := a.ea + BitVec.ofNat 64 i }
def State.tagAt (s : State) (u : Who) (a : Access) (i : Nat) : Tag := { via := a.via u.ctx i, wp := a.wp, cairn := s.cairnOf u a }

/-- One byte of an access as its wave reads it; whether its wave has it at hand. -/
def State.accByte (s : State) (u : Who) (core : Nat) (w : Wave) (scope : Nat) (a : Access) (i : Nat) : Byte × Bool :=
  s.readByte core w a.kind scope (a.paAt i) (a.via u.ctx i)
def State.accLocal (s : State) (u : Who) (core : Nat) (w : Wave) (scope : Nat) (a : Access) (i : Nat) : Bool :=
  s.localByte core w a.kind scope (a.paAt i) (a.via u.ctx i)

/-- The fills that `n` bytes of an access need, a line at a time: none for a line whose bytes are at hand. -/
def State.fillFor (s : State) (u : Who) (core : Nat) (w : Wave) (scope n : Nat) (a : Access) : State :=
  if a.kind = 1 || a.desc.ccode then s
  else
    let one (s : State) (lo hi : Nat) : State :=
      if (List.range (hi - lo)).all fun i => s.accLocal u core w scope a (lo + i) then s
      else s.fillLine core a.kind (a.paAt lo / 128) (s.slotAt u a lo).1 (s.slotAt u a lo).2 (s.tagAt u a lo)
    let s1 := one s 0 (min n a.cut)
    if n ≤ a.cut then s1 else one s1 a.cut n

/-! ### Ranges of a segment -/

/-- The physical lines of a linear range, in ascending order of their linear addresses. -/
def State.linLines (s : State) (u : Who) (sel kind lin n : Nat) : List Nat :=
  if n = 0 then []
  else ((List.range ((lin + n - 1) / 128 - lin / 128 + 1)).map fun i =>
    match s.linPA u sel kind (128 * (lin / 128 + i)) with | some pa => [pa / 128] | none => []).flatten

/-- The first page of a linear range that does not translate, or that is write-protected when the range is written. -/
def State.badPage (s : State) (u : Who) (sel kind lin n : Nat) (write : Bool) (ea : DWord) : Option AFault :=
  if n = 0 then none
  else (List.range ((lin + n - 1) / 2 ^ 16 - lin / 2 ^ 16 + 1)).foldl (fun acc i =>
    match acc with
    | some f => some f
    | none => match s.translate u sel kind (max lin (2 ^ 16 * (lin / 2 ^ 16 + i))) with
      | .fault c => some { code := fPAGE, cause := c, addr := ea }
      | .poison _ => some { code := fPOISON, cause := 5, addr := ea }
      | .page _ _ _ wp => if wp && write then some { code := fPAGE, cause := 2, addr := ea } else none) none

/-- The checks of R236 for a range that may span pages. -/
def State.checkRange (s : State) (u : Who) (n : Need) (lane : Nat) (ea : DWord) : Except AFault Access :=
  match s.checkAccess u n lane ea with
  | .error f => .error f
  | .ok a =>
      if a.kind = 1 || a.desc.ccode then .ok a
      else match s.badPage u (selOf ea) a.kind (s.linear u a.desc lane (offOf ea)) n.size n.write ea with
        | some f => .error f
        | none => .ok a

/-- The bytes of a range as a load at a scope reads them, each with its mark. Expanded code is read a line at a time. -/
def State.rangeBytes (s : State) (u : Who) (core : Nat) (w : Wave) (scope lane n : Nat) (a : Access) : List (Byte × Bool) :=
  let sel := selOf a.ea
  if a.kind = 1 then (List.range n).map fun i => s.readByte core w 1 scope (a.pa + i) (a.via u.ctx i)
  else if a.desc.ccode then
    (List.range n).map fun i => match s.expandLine u sel a.desc ((a.pa + i) / 128) with
      | .ok l => l.getD ((a.pa + i) % 128) (0, false)
      | .error _ => (0, false)
  else
    let lin := s.linear u a.desc lane (offOf a.ea)
    (List.range n).map fun i => match s.linPA u sel a.kind (lin + i) with
      | some pa => s.readByte core w a.kind scope pa (viaOf u.ctx (a.ea + BitVec.ofNat 64 i) a.kind (lin + i))
      | none => (0, false)

/-- Every line of a range is filled (R208). -/
def State.fillRange (s : State) (u : Who) (core : Nat) (lane n : Nat) (a : Access) : State :=
  if a.kind = 1 || a.desc.ccode || n = 0 then s
  else
    let lin := s.linear u a.desc lane (offOf a.ea)
    (List.range ((lin + n - 1) / 128 - lin / 128 + 1)).foldl (fun (s : State) i =>
      let at_ := max lin (128 * (lin / 128 + i))
      let b : Access := { a with ea := a.ea + BitVec.ofNat 64 (at_ - lin), lin := at_ }
      match s.linPA u (selOf a.ea) a.kind at_ with
      | some pa => s.fillLine core a.kind (pa / 128) (s.slotOf u b).1 (s.slotOf u b).2 (s.tagAt u b 0)
      | none => s) s

/-- The fault of a range of expanded code that does not expand (15 R316, R311). -/
def State.badExpand (s : State) (u : Who) (n : Nat) (a : Access) : Option AFault :=
  if !a.desc.ccode || n = 0 then none
  else (List.range ((a.pa + n - 1) / 128 - a.pa / 128 + 1)).findSome? fun i =>
    match s.expandLine u (selOf a.ea) a.desc (a.pa / 128 + i) with
    | .error (code, cause) => some { code := code, cause := cause, addr := a.ea }
    | .ok _ => none

/-! ### Refusals of HOST and PEER homes, and of a partition held in reset (22 R394, R397) -/

/-- Whether the home of an address refuses a wave's next access: a HOST or PEER home that refuses it, or one of a partition that does not
run. (log 63, DEDUCED) -/
def State.refusesAt (s : State) (wave kind pa : Nat) : Bool :=
  ((kind == 4 || kind == 5) && s.modu.refused.contains (2 * wave)) || (kind != 1 && s.downAt pa)

/-- Whether a home refuses any of an access's `n` bytes. (log 63, DEDUCED) -/
def State.refuses (s : State) (wave n : Nat) (a : Access) : Bool :=
  !a.desc.ccode && (s.refusesAt wave a.kind a.pa || (a.cut < n && s.refusesAt wave a.kind a.pa2))

/-- The same of a load: a home is asked only for bytes that its wave has not at hand. (log 63, DEDUCED) -/
def State.refusesLoad (s : State) (u : Who) (core : Nat) (w : Wave) (scope n : Nat) (a : Access) : Bool :=
  !a.desc.ccode && (List.range n).any fun i => s.refusesAt u.wave a.kind (a.paAt i) && !s.accLocal u core w scope a i

/-- A refusal has been met. -/
def State.refused (s : State) (mark : Nat) : State := { s with modu := { s.modu with refused := s.modu.refused.erase mark } }

/-! ### Structures read as LD reads them (R424) -/

/-- A structure read as LD reads it, at DEVICE scope (R424); `cause` is the POISON of a marked byte (18 R349), or of one that its home refuses
(22 R394). -/
def State.structReadAt (s : State) (u : Who) (core : Nat) (w : Wave) (lane n align cause : Nat) (ea : DWord) :
    Except (AFault × State) (State × List Byte) :=
  match s.checkRange u { right := 0, kinds := kindsAll, size := n, align := align, write := false } lane ea with
  | .error f => .error (f, s)
  | .ok a => match s.badExpand u n a with
    | some f => .error (f, s)
    | none =>
        let lin := s.linear u a.desc lane (offOf ea)
        let poison : AFault := { code := fPOISON, cause := cause, addr := ea }
        if (a.kind == 4 || a.kind == 5) && s.modu.refused.contains (2 * u.wave) &&
            (List.range n).any (fun i => match s.linPA u (selOf ea) a.kind (lin + i) with | some pa => (s.nearByte core w pa).isNone | none => false) then
          .error (poison, (s.keepFor u a lane).refused (2 * u.wave))
        else
          let s1 := (s.keepFor u a lane).fillRange u core lane n a
          let b := s1.rangeBytes u core w 3 lane n a
          if b.any (·.2) then .error (poison, s1) else .ok (s1, b.map (·.1))

/-- The same for an instruction that is uniform: for lane 0. -/
def State.structRead (s : State) (u : Who) (core : Nat) (w : Wave) (n align cause : Nat) (ea : DWord) :
    Except (AFault × State) (State × List Byte) :=
  s.structReadAt u core w 0 n align cause ea

/-- A uniform instruction reports a fault of its one access for the lanes of `active`, or lane 0 (15 R112). -/
def State.uniFault (s : State) (c : Cur) (w : Wave) (f : AFault) : State :=
  let m := orLane0 (c.split w).em
  s.fault c w f.code f.cause m ((lanesOf m).map fun l => (l, f.addr))

end Sys2Proof.Machine
end

