-- ==== Sys2Proof/Machine/Coherence.lean ====
section
/-! DEFINITION. Loading and selecting a protocol, the logical time of a core (11 R255–R262, R270, R271, R422). -/

namespace Sys2Proof.Machine

/-! ### The protocol image (R255, R259) -/

/-- The size of an image. -/
def imageBytes : Nat := 1088

/-- The cells of an image in order, 16 × state + event. -/
def imageCells (b : List Byte) : List Nat := (List.range 256).map fun i => natAt b (0x40 + 4 * i) 4

/-- The table an image describes. -/
def imageProtocol (b : List Byte) : Protocol :=
  let w := natAt b 0 4
  { nstates := bitsOf w 16 4, reset := bitsOf w 20 4, cls := bitsOf w 24 4, wonce := bitOf w 28, kinds := natAt b 4 1,
    attr := (List.range 16).map fun s => natAt b (0x10 + s) 1, cells := imageCells b }

/-- An attribute of a state: 0 SHARED, 1 OWNED, 2 PARTIAL. -/
def Protocol.has (p : Protocol) (st bit : Nat) : Bool := bitOf (p.attr.getD st 0) bit

/-- Check 1: the header. NSTATES has four bits, so a header of 16 states cannot be written; 0 fails. (log 33, DEDUCED) -/
def headerOk (b : List Byte) (p : Protocol) : Bool :=
  let w := natAt b 0 4
  w % 2 ^ 16 == 0xC0E1 && 2 ≤ p.nstates && p.reset < p.nstates && p.attr.getD p.reset 0 == 0 && p.cls < 4 &&
    (!p.wonce || p.cls == 0) && p.kinds &&& 13 == p.kinds && w / 2 ^ 29 == 0 && natAt b 4 4 / 2 ^ 8 == 0 && natAt b 8 8 == 0 &&
    p.attr.all (· < 8) && ((b.drop 0x20).take 0x20).all (· == 0)

/-- The states that one more step reaches. -/
def Protocol.reach (p : Protocol) (l : List Nat) : List Nat :=
  l.foldl (fun acc s => (List.range 12).foldl (fun acc e => sins acc (p.cellAt s e % 16)) acc) l

/-- The states reached from RESET in at most `n` steps. -/
def Protocol.reached (p : Protocol) : Nat → List Nat
  | 0 => [p.reset]
  | n + 1 => p.reach (p.reached n)

/-- Check 2. -/
def Protocol.reachOk (p : Protocol) : Bool := (List.range p.nstates).all fun s => (p.reached 16).contains s

/-- The states and events of a table. -/
def Protocol.places (p : Protocol) : List (Nat × Nat) :=
  ((List.range p.nstates).map fun s => (List.range 12).map fun e => (s, e)).flatten

/-- A test of every cell of the table: the state, the event, the cell, its next state. -/
def Protocol.allCells (p : Protocol) (f : Nat → Nat → Nat → Nat → Bool) : Bool :=
  p.places.all fun q => let c := p.cellAt q.1 q.2; f q.1 q.2 c (c % 16)

/-- Check 3: every event handled, every other cell and reserved bit zero. -/
def Protocol.fullOk (p : Protocol) : Bool :=
  (List.range 16).all fun s => (List.range 16).all fun e =>
    let c := p.cellAt s e
    if s < p.nstates && e < 12 then bitOf c 31 && c % 16 < p.nstates && bitsOf c 20 11 == 0 else c == 0

/-- Check 4: no dirty data dropped. -/
def Protocol.dirtyOk (p : Protocol) : Bool :=
  p.allCells fun s e c n =>
    (!(p.has s 1 && !p.has n 1) || cellHas c aRECALLK || cellHas c aRECALLD || (e == 6 && cellHas c aAPPLY) || (e == 10 && cellHas c aDISC)) &&
    (!(p.has s 2 && !p.has n 2) || cellHas c aCOMB || (e == 10 && cellHas c aDISC)) &&
    (!(e == 9 || e == 10) || p.attr.getD n 0 == 0)

/-- Check 5: message classes. -/
def Protocol.classesOk (p : Protocol) : Bool :=
  p.allCells fun _ e c _ =>
    (!(e == 5 || e == 6) || !(cellHas c aRECALLK || cellHas c aRECALLD || cellHas c aPUSH || cellHas c aWACK || bitsOf c 4 2 != 0)) &&
    (e != 5 || !cellHas c aINVS) && (!cellHas c aWACK || cellHas c aINVS || cellHas c aRECALLK || cellHas c aRECALLD)

/-- Check 6: bounded messages. -/
def Protocol.boundedOk (p : Protocol) : Bool :=
  p.allCells fun _ _ c _ =>
    !(cellHas c aRECALLK && cellHas c aRECALLD) && !(cellHas c aINVS && cellHas c aPUSH) && (cellHas c aOWN == (bitsOf c 4 2 == 2))

/-- Check 7: the class. -/
def Protocol.classOk (p : Protocol) : Bool :=
  (p.cls == 3 || (List.range p.nstates).all fun s => !p.has s 2) &&
  p.allCells fun s _ c _ =>
    (p.cls == 2 || !(cellHas c aTSR || cellHas c aTSW)) && (p.cls == 3 || !(cellHas c aCOMB || cellHas c aDEPO)) &&
    (p.cls == 1 || !cellHas c aPUSH) &&
    (p.cls == 2 || !(p.has s 0 && cellHas c aAPPLY) || cellHas c aINVS || cellHas c aPUSH)

/-- The first check of R259 that an image fails, 0 for none. (log 33, DEDUCED) -/
def imageCause (b : List Byte) (slot : Nat) : Nat :=
  let p := imageProtocol b
  if !headerOk b p then 1
  else if !p.reachOk then 2
  else if !p.fullOk then 3
  else if !p.dirtyOk then 4
  else if !p.classesOk then 5
  else if !p.boundedOk then 6
  else if !p.classOk then 7
  else if slot < 6 || 16 ≤ slot then 8
  else 0

/-- The homes are to install a table, or to empty the slot; PROTLD's flag counts it. -/
def State.protJob (s : State) (c : Cur) (w : Wave) (setf : Option Nat) (slot : Nat) (tab : Option Protocol) : State :=
  (s.doneBy c fun w => (w.newOp setf 1).1).modPart (partOfKey c.wave) fun p =>
    { p with protjobs := p.protjobs ++ [{ slot := slot, tab := tab, team := w.team, wid := w.wid, op := (w.newOp setf 1).2 }] }

/-- PROTLD (R260). (log 33, DEDUCED) -/
def execProtld (o : ProtldOp) (s : State) : Out :=
  s.run fun c w =>
    if !w.clvl then s.illegal c w cUNDEFOP
    else s.withReads c w [(.s o.a, 2)] [] (c.split w).em <|
      let ea := w.s64 o.a
      if selOf ea = 0 then s.protJob c w o.ctl.setf o.slot none
      else match s.structRead (s.who c w) (coreOfKey c.wave) w imageBytes 128 1 ea with
        | .error (f, s1) => s1.uniFault c w f
        | .ok (s1, b) =>
            if imageCause b o.slot = 0 then s1.protJob c w o.ctl.setf o.slot (some (imageProtocol b))
            else s1.fault c w tPROTLOAD (imageCause b o.slot) (orLane0 (c.split w).em) []

/-- The lines a slot governs in a partition. -/
def State.slotLines (s : State) (p slot : Nat) : List Nat :=
  (s.dir.filter fun d => d.2.slot == slot && partOfLine d.1 == p).map (·.1)

/-- The table of an emptied slot. (log 33, DEDUCED) -/
def emptySlot : Protocol := { nstates := 0, reset := 0, cls := 0, wonce := false, kinds := 0, attr := [], cells := [] }

/-- The homes of a partition neutralise a slot's lines under its old table and install the new one (R260). (log 33, DEDUCED) -/
def State.installSlot (s : State) (p : Nat) (j : ProtJob) : State :=
  let s := (s.slotLines p j.slot).foldl (fun s l => { (s.neut l) with dir := tdel (s.neut l).dir l }) s
  (s.modPart p fun x => { x with prots := tput x.prots j.slot (j.tab.getD emptySlot) }).donePartOf j.team j.wid j.op

/-- PROTOCOL_INSTALL: the oldest PROTLD of a partition is installed. -/
def execProtocolInstall (p : Nat) (s : State) : Out :=
  match (s.part p).protjobs with
  | [] => .next s
  | j :: r => .next ((s.modPart p fun x => { x with protjobs := r }).installSlot p j)

/-! ### Selecting a protocol (R261, R262, R422) -/

/-- The grid-wide lane numbers of a context's teams (15 R304). (log 33, DEDUCED) -/
def State.laneNumbers (s : State) (p ctx : Nat) : List Nat :=
  (s.teams.map fun t => if t.2.part == p && t.2.ctx == ctx then
    (List.range (32 * t.2.teamw)).map fun i => 32 * t.2.teamw * t.2.linear + i else []).flatten

/-- The physical lines of a range of seg-addresses: of every lane, for a PRIVATE segment. (log 33, DEDUCED) -/
def State.segLines (s : State) (u : Who) (sa : DWord) (n : Nat) : List Nat :=
  match s.descBytes u (selOf sa) with
  | .ok b =>
      let d := descOf b
      if d.kind = 0 then
        ((s.laneNumbers u.part u.ctx).map fun g => s.linLines u (selOf sa) 0 (d.base + g * roundUp d.limit 16 + offOf sa) n).flatten
      else if d.kind = 1 then [] else s.linLines u (selOf sa) d.kind (d.base + offOf sa) n
  | _ => []

/-- The reason PROTSEL refuses a parameter word, in the order of R262: SEGV cause 3, then ILLCONV cause 13. -/
def State.paramFault (s : State) (p kind param : Nat) (rec_ : Bool) : Option (Nat × Nat) :=
  let lease := bitsOf param 4 12
  match s.protocol? p (param % 16) with
  | none => some (tILLCONV, 13)
  | some t =>
      if !bitOf t.kinds kind then some (fSEGV, 3)
      else if (if t.cls = 2 then lease = 0 else lease ≠ 0) || (t.cls ≠ 3 && bitOf param 16) || param / 2 ^ 17 ≠ 0 || !rec_ then
        some (tILLCONV, 13)
      else none

/-- The checks of PROTSEL at issue, in their order. -/
def State.protselFault (s : State) (u : Who) (sa : DWord) (n param : Nat) : Option (Nat × Nat) :=
  if selOf sa = 0 then some (fNULLSEG, 0)
  else match s.descBytes u (selOf sa) with
    | .bad => some (fSEGV, 4)
    | .poison _ => some (fPOISON, 5)
    | .ok b =>
        let d := descOf b
        if d.detached then some (fLINKAGE, 3)
        else if offOf sa % 4096 ≠ 0 || n % 4096 ≠ 0 then some (fALIGN, 0)
        else if d.limit < offOf sa + n then some (fSEGV, 1)
        else if !d.w then some (fSEGV, 2)
        else s.paramFault u.part d.kind param (s.ctxRec u.part u.ctx).isSome

/-- The lines of the old and the new range are neutralised, then the entry is written in one step (R422). (log 33, DEDUCED) -/
def State.putRange (s : State) (u : Who) (idx : Nat) (sa : DWord) (n param : Nat) : State :=
  match s.ctxRec u.part u.ctx with
  | none => s
  | some b =>
      let t := recRangetab b + 16 * idx
      let old := s.segLines u (BitVec.ofNat 64 (s.homeNat t 8)) (s.homeNat (t + 8) 4)
      let s := (old ++ s.segLines u sa n).foldl State.neut s
      s.agentWrites t 2 (if n = 0 then List.replicate 16 0 else leBytes 8 sa.toNat ++ leBytes 4 n ++ leBytes 4 param)

/-- Whether the wave runs in an AUDIT grid (18 R366). (log 34, DEDUCED) -/
def State.audited (s : State) (w : Wave) : Bool := (s.team? w.team).any (·.audit)

/-- PROTSEL (R262). -/
def execProtsel (o : ProtselOp) (s : State) : Out :=
  s.run fun c w =>
    s.withReads c w [(.s o.a, 2), (.s o.b, 2)] [] (c.split w).em <|
      let u := s.who c w
      let sa := w.s64 o.a
      let n := (w.s o.b).toNat
      let param := (w.s (o.b + 1)).toNat
      if s.audited w then s.illconv c w 26
      else match if n = 0 then none else s.protselFault u sa n param with
        | some (code, cause) =>
            if code = tILLCONV then s.illconv c w cause else s.uniFault c w { code := code, cause := cause, addr := sa }
        | none => (s.putRange u o.idx sa n param).doneBy c id

/-! ### Logical time (R270, R271) -/

/-- LTADV. -/
def execLtadv (o : LtadvOp) (s : State) : Out :=
  s.run fun c w =>
    s.withReads c w [(o.a, 1)] [] (c.split w).em <|
      let q := coreOfKey c.wave
      let a := (w.src (c.split w) 0 o.a).toNat
      let t := (s.core q).ltime
      let v := if o.max then serialMax 16 t (a % 2 ^ 16) else (t + a % 2 ^ 12) % 2 ^ 16
      (s.advLtime q v).done c (w.putD (c.split w).em o.d fun _ => BitVec.ofNat 32 v)

/-- LTIME_TICK: one hardware step of a core whose LTPERIOD is not zero. When it falls due, in cycles, is timing. (log 42, DESIGN CHOICE) -/
def execLtimeTick (q : Nat) (s : State) : Out :=
  if (s.core q).period = 0 || !s.clocked (q / 48) then .next s else .next (s.advLtime q (((s.core q).ltime + 1) % 2 ^ 16))

end Sys2Proof.Machine
end

