-- ==== Sys2Proof/Machine/Memory.lean ====
section
/-! DEFINITION. Loads, stores and atomics (10 R235–R244, 09 R206–R213, 11 R254, R272, 18 R349, R367, 22 R394). -/

namespace Sys2Proof.Machine

/-! ### The audit signature (18 R367) -/

/-- One bit of CRC-64/ECMA-182. -/
def crcBit (c : Nat) : Nat := if bitOf c 63 then (c * 2 % 2 ^ 64) ^^^ 0x42F0E1EBA9EA3693 else c * 2

/-- Eight bits of it. -/
def crcByte (c : Nat) (b : Byte) : Nat := (List.range 8).foldl (fun x _ => crcBit x) (c ^^^ (b.toNat * 2 ^ 56))

/-- CRC-64/ECMA-182 of a record: initial value 0, no reflection, no final XOR. -/
def crc64 (l : List Byte) : Nat := l.foldl crcByte 0

/-- A write of a team of an AUDIT grid adds its record to the signature; writes to SCRATCH do not. -/
def State.sign (s : State) (team kind : Nat) (rec_ : List Byte) : State :=
  if kind = 1 then s
  else s.modTeam team fun t => if t.audit then { t with sig := t.sig + BitVec.ofNat 64 (crc64 rec_) } else t

/-- The record of a lane's store entry. -/
def storeRec (ea : DWord) (b : List Byte) : List Byte := leBytes 8 ea.toNat ++ leBytes 1 b.length ++ b

/-- The record of a lane's RED. (log 30, DEDUCED) -/
def redRec (ea : DWord) (aop bytes v : Nat) : List Byte := leBytes 8 ea.toNat ++ leBytes 1 (0x40 + aop) ++ leBytes bytes v

/-! ### Addresses of lanes -/

/-- The lanes an access is made for: lane 0 alone when the instruction is uniform (R235). -/
def memLanes (uni : Bool) (m : LaneMask) : List Nat := if uni then [0] else lanesOf m

/-- The seg-address of a lane: pair plus signed displacement. -/
def Wave.laneEa (w : Wave) (x : Split) (a : Reg) (b : Src) (l : Nat) : Except AFault DWord := effAddr (w.reg64 a l) ((w.src x l b).toInt)

/-- What an access through no descriptor has in its place: LDSP, STSP and ATOMCAS.SP (R237). -/
def scratchDesc : Desc := descOf []

/-- Check a scratchpad access of a lane at an exact offset (R237): the allocation, then the alignment. (log 29, DEDUCED) -/
def State.scratchLane (s : State) (u : Who) (n : Nat) (o : Int) : Except AFault Access :=
  let ea := segAddr 0 (narrow 44 o)
  if o < 0 || (s.scratchLen u.team : Int) < o + n then .error { code := fSEGV, cause := 1, addr := ea }
  else if o.toNat % n != 0 then .error { code := fALIGN, cause := 0, addr := ea }
  else .ok { kind := 1, pa := o.toNat, cairn := 0, prot := 0, ea := ea, desc := scratchDesc }

/-- All lanes of a scratchpad access must pass. -/
def State.scratchLanes (s : State) (u : Who) (n : Nat) (ls : List Nat) (uni : Bool) (m : LaneMask) (off : Nat → Int) :
    Except LFault (List (Nat × Access)) :=
  let rs := ls.map fun l => (l, s.scratchLane u n (off l))
  match reportFaults (rs.map fun p => match p.2 with | .error f => [(p.1, f)] | .ok _ => []).flatten uni m with
  | some f => .error f
  | none => .ok (rs.map fun p => match p.2 with | .ok a => [(p.1, a)] | .error _ => []).flatten

/-- The set-flag an instruction carries: a short form has none of its own. -/
def noFlag : Option Nat := none

/-! ### Loads (R208, R238, R239) -/

/-- The bytes of one lane's access. -/
def State.accBytes (s : State) (u : Who) (core : Nat) (w : Wave) (scope n : Nat) (a : Access) : List (Byte × Bool) :=
  if a.desc.ccode then s.rangeBytes u core w scope 0 n a
  else (List.range n).map fun i => s.accByte u core w scope a i

/-- A loaded value as register words (R73). -/
def loadWords (z : MSize) (v : Nat) : List Word :=
  match z with
  | .n8 | .n16 | .b32 => [BitVec.ofNat 32 v]
  | .i8 => [BitVec.ofNat 32 (narrow 32 (sxNat v 8))]
  | .i16 => [BitVec.ofNat 32 (narrow 32 (sxNat v 16))]
  | .b64 => [BitVec.ofNat 32 v, BitVec.ofNat 32 (v / 2 ^ 32)]
  | .b128 => (List.range 4).map fun i => BitVec.ofNat 32 (v / 2 ^ (32 * i))

/-- Register words to be written to a destination at a lane. -/
def regWrites (d : Dst) (l : Nat) (ws : List Word) : List RegWrite :=
  match d with
  | .v n => (List.range ws.length).map fun i => { reg := n + i, lane := l, val := ws.getD i 0 }
  | .s n => (List.range ws.length).map fun i => { reg := 192 + n + i, lane := 0, val := ws.getD i 0 }
  | .zero => []

/-- The lanes whose bytes are marked, or that a home refuses: POISON cause 1. -/
def poisonLanes (l : List (Nat × Access × List (Byte × Bool))) (refuse : Access → Bool) : List (Nat × AFault) :=
  (l.filter fun p => p.2.2.any (·.2) || refuse p.2.1).map fun p => (p.1, { code := fPOISON, cause := 1, addr := p.2.1.ea })

/-- What a load instruction carries on with once its lanes have passed their checks. -/
structure LoadArgs where
  setf  : Option Nat
  d     : Dst
  size  : MSize
  scope : Nat
  m     : LaneMask
  accs  : List (Nat × Access)

/-- The lines a load needs are filled; not one whose home refuses it. -/
def State.fillAll (s : State) (u : Who) (core : Nat) (w : Wave) (scope n : Nat) (accs : List (Nat × Access)) : State :=
  accs.foldl (fun (s : State) p => if s.refusesLoad u core w scope n p.2 then s else s.fillFor u core w scope n p.2) (s.keepAll u accs)

/-- The lanes of a read of expanded code that does not expand. -/
def State.expandFaults (s : State) (u : Who) (n : Nat) (accs : List (Nat × Access)) : List (Nat × AFault) :=
  accs.filterMap fun p => (s.badExpand u n p.2).map fun f => (p.1, f)

/-- A load takes its value; the destination is written when its data returns. `upd` is what else the instruction changes in its
wave. (log 24, DEDUCED) -/
def State.loadGo (s : State) (c : Cur) (w : Wave) (upd : Wave → Wave) (r : LoadArgs) : State :=
  let u := s.who c w
  let core := coreOfKey c.wave
  let n := r.size.bytes
  match reportFaults (s.expandFaults u n r.accs) r.d.uni r.m with
  | some f => s.faultAs c w f
  | none =>
    let s1 := s.fillAll u core w r.scope n r.accs
    let got := r.accs.map fun p => (p.1, p.2, s1.accBytes u core w r.scope n p.2)
    let refuse : Access → Bool := s.refusesLoad u core w r.scope n
    let s1 := if r.accs.any (fun p => refuse p.2) then s1.refused (2 * c.wave) else s1
    match reportFaults (poisonLanes got refuse) r.d.uni r.m with
    | some f => s1.faultAs c w f
    | none =>
      let writes := (got.map fun p => regWrites r.d p.1 (loadWords r.size (leNat (p.2.2.map (·.1))))).flatten
      s1.doneBy c fun w =>
        let q := (upd w).newOp r.setf (bnat (!r.accs.isEmpty))
        let pend : Pend := { op := q.2, regs := r.d.codes r.size.regs, writes := writes, atoms := [], dst := none, wide := false, fpx := 0 }
        if r.accs.isEmpty then upd w else { q.1 with pend := q.1.pend ++ [pend] }

/-- LD (R239). -/
def execLd (o : LdOp) (s : State) : Out :=
  s.run fun c w =>
    let x := c.split w
    let m := w.actLanes x o.ctl.pred o.ctl.neg
    s.withReads c w [(o.a.asSrc, 2), (o.b, 1)] (predRegs o.ctl.pred) m <|
      match s.checkLanes (s.who c w) { right := 0, kinds := kindsAll, size := o.size.bytes, align := o.size.bytes, write := false, narrow := o.scope.code < 3 }
          (memLanes o.d.uni m) o.d.uni m (w.laneEa x o.a o.b) with
      | .error f => s.faultAs c w f
      | .ok accs => s.loadGo c w id { setf := o.ctl.setf, d := o.d, size := o.size, scope := o.scope.code, m := m, accs := accs }

/-- The offset of a scratchpad access of a lane (R237): an exact sum. -/
def Wave.scratchOff (r : Wave) (x : Split) (a : Reg) (b : Src) (l : Nat) : Int := ((r.reg a l).toNat : Int) + (r.src x l b).toInt

/-- The offset register after a post-increment (03 R66). (log 24, DEDUCED) -/
def Wave.bump (w r : Wave) (a : Reg) (m : LaneMask) (n : Nat) : Wave := w.putD m a.asDst fun l => r.reg a l + BitVec.ofNat 32 n

/-- A scratchpad load. (log 24, DEDUCED) -/
def State.loadSp (s : State) (ctl : Ctl) (d : Dst) (a : Reg) (b : Src) (size : MSize) (scope : Nat) (pi : Bool) : Out :=
  s.run fun c w =>
    let r := c.reads w
    let x := r.split c.entry
    let m := r.actLanes x ctl.pred ctl.neg
    match r.poisoned [(a.asSrc, 1), (b, 1)] (predRegs ctl.pred) m with
    | some (cause, mask) => s.fault c w fPOISON cause mask []
    | none =>
      match s.scratchLanes (s.who c w) size.bytes (memLanes d.uni m) d.uni m (r.scratchOff x a b) with
      | .error f => s.faultAs c w f
      | .ok accs =>
          s.loadGo c w (fun w => if pi then w.bump r a m size.bytes else w)
            { setf := ctl.setf, d := d, size := size, scope := scope, m := m, accs := accs }

def execLdsp (o : LdOp) (s : State) : Out := s.loadSp o.ctl o.d o.a o.b o.size o.scope.code false
def execLdspPi (o : LdOp) (s : State) : Out := s.loadSp o.ctl o.d o.a o.b o.size o.scope.code true

/-- The register a short form's offset names. -/
def Src.toReg : Src → Reg | .s n => .s n | .v n => .v n | _ => .v 0

/-- The size of a short scratchpad form (03 R68). -/
def spSize (z : Sz) : MSize := match z with | .w64 => .b64 | _ => .b32

def execLdspZ32 (o : Short) (s : State) : Out := s.loadSp o.ctl o.d (Src.toReg o.a) .zero (spSize o.sz) 1 false

/-! ### Stores (R206, R207, R239) -/

/-- Whether a store's completion waits until it is performed beyond the store buffer (R206, R238). -/
def defers (kind scope : Nat) : Bool := kind == 4 || kind == 5 || (kind != 0 && scope != 0)

/-- The bytes a store writes for a lane. (log 30, DEDUCED) -/
def Wave.storeBytes (r : Wave) (x : Split) (d : Src) (z : MSize) (l : Nat) : List Byte :=
  match z with
  | .b64 => leBytes 8 (r.src64 x l false d).toNat
  | .b128 => match d with
      | .v _ | .s _ => ((List.range 4).map fun i => leBytes 4 (r.src x l (d.plus i)).toNat).flatten
      | _ => leBytes 16 (r.src64 x l false d).toNat
  | _ => leBytes z.bytes (r.src x l d).toNat

/-- The store entries of one lane's access: one, or one for each line it touches. -/
def State.entriesOf (s : State) (c : Cur) (w : Wave) (scope : Nat) (nw : Bool) (op : Nat) (a : Access) (b : List Byte) : List Entry :=
  let u := s.who c w
  let one (lo : Nat) (bytes : List Byte) : Entry :=
    { wave := c.wave, kind := a.kind, scope := scope, cells := cellsAt (a.paAt lo) bytes, cairn := s.cairnOf u a, nw := nw,
      op := if defers a.kind scope then op else 0, core := coreOfKey c.wave, slot := (s.slotAt u a lo).1, param := (s.slotAt u a lo).2,
      via := a.via u.ctx lo, stamp := w.opctr, bad := false }
  if a.kind = 1 || b.length ≤ a.cut then [one 0 b] else [one 0 (b.take a.cut), one a.cut (b.drop a.cut)]

/-- The entries of one store that lie in a sector it writes whole, as one entry: the mark of a sector clears with a write of all its bytes
(18 R348). The newest byte stands (R207). (log 25, DESIGN CHOICE) -/
def wholeSector (es : List Entry) (scr : Bool) (k : Nat) : List Entry :=
  match (es.filter fun e => (e.kind == 1) == scr && e.covers (32 * k) 32).getLast? with
  | none => []
  | some e => [{ e with cells := (List.range 32).map fun i => (32 * k + i, ((newestByte es scr (32 * k + i)).map (·.1)).getD 0),
                        bad := es.any fun f => (f.kind == 1) == scr && f.bad && f.covers (32 * k) 32 }]

/-- The entries of one store, the sectors that it writes whole taken together. -/
def mergeSectors (es : List Entry) : List Entry :=
  let whole (scr : Bool) : List Nat :=
    let cs := ((es.filter fun e => (e.kind == 1) == scr).map (·.cells)).flatten
    (sectorsOf cs).filter (fillsSector cs)
  let w0 := whole false
  let w1 := whole true
  if w0.isEmpty && w1.isEmpty then es
  else
    let rest := es.map fun e => { e with cells := e.cells.filter fun c => !((if e.kind = 1 then w1 else w0).contains (c.1 / 32)) }
    (rest.filter fun e => !e.cells.isEmpty) ++ (w0.map (wholeSector es false)).flatten ++ (w1.map (wholeSector es true)).flatten

/-- A store's lanes append their entries, in ascending order; one that a home refuses is dropped and reported. (log 25, DESIGN CHOICE) -/
def State.storeGo (s : State) (c : Cur) (w w' : Wave) (setf : Option Nat) (scope : Nat) (nw : Bool)
    (accs : List (Nat × Access)) (data : Nat → List Byte) : State :=
  let u := s.who c w
  let refuse (p : Nat × Access) : Bool := s.refuses c.wave (data p.1).length p.2
  let kept := accs.filter fun p => !refuse p
  let es (op : Nat) : List Entry := mergeSectors (kept.map fun p => s.entriesOf c w scope nw op p.2 (data p.1)).flatten
  let q := w'.newOpIf setf ((es 0).filter fun e => defers e.kind scope).length
  let s1 := s.keepAll u accs
  let s1 := if accs.any refuse then (s1.refused (2 * c.wave)).alert 0x394 c.wave else s1
  let s1 := kept.foldl (fun s p => s.sign w.team p.2.kind (storeRec p.2.ea (data p.1))) s1
  s1.done c { q.1 with sb := q.1.sb ++ (es q.2).map SItem.store }

/-- ST (R239). (log 68, DESIGN CHOICE) -/
def execSt (o : StOp) (s : State) : Out :=
  s.run fun c w =>
    let x := c.split w
    let m := w.actLanes x o.ctl.pred o.ctl.neg
    s.withReads c w [(o.d, o.size.regs), (o.a.asSrc, 2), (o.b, 1)] (predRegs o.ctl.pred) m <|
      match s.checkLanes (s.who c w) { right := 1, kinds := kindsST, size := o.size.bytes, align := o.size.bytes, write := true, narrow := o.scope.code < 3 }
          (lanesOf m) false m (w.laneEa x o.a o.b) with
      | .error f => s.faultAs c w f
      | .ok accs => s.storeGo c w w o.ctl.setf o.scope.code o.nw accs (w.storeBytes x o.d o.size)

/-- A scratchpad store. -/
def State.storeSp (s : State) (ctl : Ctl) (d : Src) (a : Reg) (b : Src) (size : MSize) (scope : Nat) (nw pi : Bool) : Out :=
  s.run fun c w =>
    let r := c.reads w
    let x := r.split c.entry
    let m := r.actLanes x ctl.pred ctl.neg
    match r.poisoned [(d, size.regs), (a.asSrc, 1), (b, 1)] (predRegs ctl.pred) m with
    | some (cause, mask) => s.fault c w fPOISON cause mask []
    | none =>
      match s.scratchLanes (s.who c w) size.bytes (lanesOf m) false m (r.scratchOff x a b) with
      | .error f => s.faultAs c w f
      | .ok accs => s.storeGo c w (if pi then w.bump r a m size.bytes else w) ctl.setf scope nw accs (r.storeBytes x d size)

def execStsp (o : StOp) (s : State) : Out := s.storeSp o.ctl o.d o.a o.b o.size o.scope.code o.nw false
def execStspPi (o : StOp) (s : State) : Out := s.storeSp o.ctl o.d o.a o.b o.size o.scope.code o.nw true
def execStspZ32 (o : ShortSt) (s : State) : Out :=
  s.storeSp { pred := o.pred, neg := o.neg, setf := none, wait := 0 } o.d (Src.toReg o.a) .zero (spSize o.sz) 1 false false

/-! ### Atomics (R242–R244) -/

/-- The new value of an atomic, none where it writes nothing, and its exceptions. `fn` as LaneAtom numbers it. -/
def atomNew (fn w old b cmp : Nat) : Option Nat × Nat :=
  let sg (x : Nat) : Int := sxNat x w
  match fn with
  | 0 => (some ((old + b) % 2 ^ w), 0)
  | 1 => (some ((old + 2 ^ w - b) % 2 ^ w), 0)
  | 2 => (some (if sg b < sg old then b else old), 0)
  | 3 => (some (if sg old < sg b then b else old), 0)
  | 4 => (some (min old b), 0)
  | 5 => (some (max old b), 0)
  | 6 => (some (old &&& b), 0)
  | 7 => (some (old ||| b), 0)
  | 8 => (some (old ^^^ b), 0)
  | 9 => (some b, 0)
  | 10 => (some (if b ≤ old then 0 else old + 1), 0)
  | 11 => (some (if old = 0 || b < old then b else old - 1), 0)
  | 12 => (if old = cmp then some b else none, 0)
  | 13 => (if 0 < sg old then some (old - 1) else none, 0)
  | 14 =>
      let r := finishFp fp32 .rn false 0 (exAdd .rn (unpackFp fp32 old) (unpackFp fp32 b))
      (some r.bits, r.flags)
  | _ =>
      let one (i : Nat) : FRes := finishFp fpBf16 .rn false 0 (exAdd .rn (unpackFp fpBf16 (bitsOf old (16 * i) 16)) (unpackFp fpBf16 (bitsOf b (16 * i) 16)))
      (some ((one 0).bits + (one 1).bits * 2 ^ 16), (one 0).flags ||| (one 1).flags)

/-- Whether an atomic without result is a deposit of its line's reduce format (11 R272). -/
def State.isDeposit (s : State) (x : LaneAtom) (zero : Bool) : Bool :=
  zero && (x.kind == 2 || x.kind == 3) && x.width == 32 && (s.protocolOf (partOfLine (x.addr / 128)) x.slot).cls == 3 &&
    x.fn == (if bitOf x.param 16 then 14 else 0)

/-- The oldest partial line of a core. -/
def oldestPart (l : List Partial) : Option Partial :=
  l.foldl (fun b p => match b with | none => some p | some q => if p.age < q.age then some p else some q) none

/-- A core that holds 256 partial lines gives up the oldest, with WBACK (R272). -/
def State.evictPart (s : State) (q line : Nat) : State :=
  let ps := (s.core q).parts
  if ps.any (·.line == line) || ps.length < Config.partialLines then s
  else match oldestPart ps with
    | none => s
    | some p => (s.homeEvent p.line 6 (reqOf q ((s.dirOf p.line 0).slot) 16) id 0 0).1

/-- A deposit is added into the issuing core's partial; the first one of a line sends PART (R272). Returns the exceptions. (log 25, DESIGN CHOICE) -/
def State.deposit (s : State) (q : Nat) (x : LaneAtom) : State × Nat :=
  let line := x.addr / 128
  let i := x.addr % 128 / 4
  let s := ((s.evictPart q line).flushHq line).switchSlot line x.slot true
  match (s.core q).parts.find? (·.line == line) with
  | none =>
      let age := ((s.core q).parts.map (·.age)).foldl max 0 + 1
      let p : Partial := { line := line, words := [(i, BitVec.ofNat 32 x.opnd)], fp := x.fn == 14, nw := x.nw, age := age, cairn := x.cairn }
      (((s.modCore q fun c => { c with parts := c.parts ++ [p] }).cellUnder line 11 (reqOf q x.slot x.param) true id 0 0).1, 0)
  | some p =>
      let old := (tfind p.words i).map (·.toNat)
      let v := match old with
        | none => (x.opnd, 0)
        | some o => ((atomNew x.fn 32 o x.opnd 0).1.getD 0, (atomNew x.fn 32 o x.opnd 0).2)
      let p' := { p with words := tput p.words i (BitVec.ofNat 32 v.1), nw := p.nw && x.nw }
      (s.modCore q fun c => { c with parts := c.parts.map fun y => if y.line == line then p' else y }, v.2)

/-- The operands of an atomic instruction, lane by lane. -/
structure AtomArgs where
  setf  : Option Nat
  d     : Dst
  width : Nat
  fn    : Nat
  nw    : Bool
  m     : LaneMask
  accs  : List (Nat × Access)
  opnd  : Nat → Nat
  cmp   : Nat → Nat

/-- One lane's atomic. -/
def State.laneAtom (s : State) (u : Who) (r : AtomArgs) (p : Nat × Access) : LaneAtom :=
  { lane := p.1, kind := p.2.kind, addr := p.2.pa, width := r.width, fn := r.fn, opnd := r.opnd p.1, cmp := r.cmp p.1, nw := r.nw,
    cairn := s.cairnOf u p.2, slot := (s.slotOf u p.2).1, param := (s.slotOf u p.2).2, ea := p.2.ea, cut := p.2.cut, addr2 := p.2.pa2,
    via := p.2.via u.ctx 0 }

/-- Whether a sector that an access touches is marked at its bank or home, or written with a mark by a buffered store of the wave or its
cluster (18 R349). -/
def State.accMarked (s : State) (key : Nat) (w : Wave) (a : Access) (n : Nat) : Bool :=
  let bad (l : List Entry) (p : Nat) : Bool := l.any fun e => (e.kind == 1) == (a.kind == 1) && e.bad && e.covers (p / 32 * 32) 32
  (List.range n).any fun i =>
    let p := a.paAt i
    bad (w.sb.map SItem.entries).flatten p ||
    (if a.kind = 1 then (match s.team? w.team with | none => false | some t => t.smark.contains (p / 32))
     else bad ((s.cluster (clusterOfKey key)).pb.map PItem.entries).flatten p || s.homeMark p)

/-- The atomics of an instruction are issued: they queue for the banks and the homes (R213). -/
def State.atomGo (s : State) (c : Cur) (w : Wave) (r : AtomArgs) : State :=
  let u := s.who c w
  let zero := r.d == .zero
  let far (a : Access) : Bool := s.refuses c.wave (r.width / 8) a
  let s1 := s.keepAll u r.accs
  let s1 := if r.accs.any (far ·.2) then s1.refused (2 * c.wave) else s1
  let bad := (r.accs.filter fun p => (!far p.2 && s.accMarked c.wave w p.2 (r.width / 8)) || (far p.2 && !zero)).map fun p =>
    (p.1, ({ code := fPOISON, cause := 1, addr := p.2.ea } : AFault))
  match reportFaults bad r.d.uni r.m with
  | some f => s1.faultAs c w f
  | none =>
    let s1 := if r.accs.any (far ·.2) then s1.alert 0x394 c.wave else s1
    let all := (r.accs.filter fun p => !far p.2).map (s.laneAtom u r)
    let s1 := if zero then all.foldl (fun s x => s.sign w.team x.kind (redRec x.ea (if r.fn < 12 then r.fn else r.fn - 14) (r.width / 8) x.opnd)) s1 else s1
    let n := if zero then all.length else bnat (!all.isEmpty)
    s1.doneBy c fun w =>
      let o := w.newOp r.setf n
      let pend : Pend := { op := o.2, regs := r.d.codes (r.width / 32), writes := [], atoms := all, dst := if zero then none else some r.d,
                           wide := r.width == 64, fpx := 0 }
      if all.isEmpty then w else { o.1 with pend := o.1.pend ++ [pend] }

/-- An atomic at a seg-address; `ban` says whether an AUDIT grid may not issue it (18 R366). -/
def State.atomic (s : State) (ctl : Ctl) (d : Dst) (a : Reg) (width fn : Nat) (nw : Bool) (srcs : List (Src × Nat)) (ban : Bool)
    (opnd cmp : Wave → Split → Nat → Nat) : Out :=
  s.run fun c w =>
    let x := c.split w
    let m := w.actLanes x ctl.pred ctl.neg
    s.withReads c w ((a.asSrc, 2) :: srcs) (predRegs ctl.pred) m <|
      if ban && s.audited w then s.illconv c w 26
      else match s.checkLanes (s.who c w) { right := 3, kinds := kindsAtom, size := width / 8, align := width / 8, write := true }
          (memLanes d.uni m) d.uni m (fun l => .ok (w.reg64 a l)) with
      | .error f => s.faultAs c w f
      | .ok accs =>
          s.atomGo c w { setf := ctl.setf, d := d, width := width, fn := fn, nw := nw, m := m, accs := accs, opnd := opnd w x, cmp := cmp w x }

/-- A 32-bit operand, a 64-bit operand. -/
def opnd32 (b : Src) (w : Wave) (x : Split) (l : Nat) : Nat := (w.src x l b).toNat
def opnd64 (b : Src) (sg : Bool) (w : Wave) (x : Split) (l : Nat) : Nat := (w.src64 x l sg b).toNat
def opndNone (_ : Wave) (_ : Split) (_ : Nat) : Nat := 0

/-- Whether an atomic operation takes its operand as signed (R30, R242). -/
def AOp.isSigned : AOp → Bool | .minI | .maxI => true | _ => false

def execAtom (o : AtomOp) (s : State) : Out :=
  s.atomic o.ctl o.d o.a 32 o.op.code o.nw [(o.b, 1)] (o.d != .zero) (opnd32 o.b) opndNone
def execAtomB64 (o : AtomOp) (s : State) : Out :=
  s.atomic o.ctl o.d o.a 64 o.op.code o.nw [(o.b, 2)] (o.d != .zero) (opnd64 o.b (AOp.isSigned o.op)) opndNone
def execRed (o : AtomOp) (s : State) : Out := s.atomic o.ctl .zero o.a 32 o.op.code o.nw [(o.b, 1)] false (opnd32 o.b) opndNone
def execRedB64 (o : AtomOp) (s : State) : Out :=
  s.atomic o.ctl .zero o.a 64 o.op.code o.nw [(o.b, 2)] false (opnd64 o.b (AOp.isSigned o.op)) opndNone
def execAtomdp (o : DpOp) (s : State) : Out := s.atomic o.ctl o.d o.a 32 13 false [] true opndNone opndNone
/-- (log 30, DEDUCED) -/
def execFatom (o : FatomOp) (s : State) : Out :=
  s.atomic o.ctl o.d o.a 32 (if o.bf16 then 15 else 14) o.nw [(o.b, 1)] (o.d != .zero) (opnd32 o.b) opndNone

/-- ATOMCAS: the run at b holds the compare value, then the new one (R73, R243). -/
def execAtomcas (o : CasOp) (s : State) : Out :=
  if o.w64 then s.atomic o.ctl o.d o.a 64 12 o.nw [(o.b, 4)] true (opnd64 (o.b.plus 2) false) (opnd64 o.b false)
  else s.atomic o.ctl o.d o.a 32 12 o.nw [(o.b, 2)] true (opnd32 (o.b.plus 1)) (opnd32 o.b)

/-- ATOMCAS.SP: at a scratch offset, compare b, new value c (R64, R237). -/
def execAtomcasSp (o : CasSpOp) (s : State) : Out :=
  s.run fun c w =>
    let x := c.split w
    let m := w.actLanes x o.ctl.pred o.ctl.neg
    s.withReads c w [(o.a, 1), (o.b, 1), (o.c, 1)] (predRegs o.ctl.pred) m <|
      if s.audited w then s.illconv c w 26
      else match s.scratchLanes (s.who c w) 4 (memLanes o.d.uni m) o.d.uni m (fun l => ((w.src x l o.a).toNat : Int)) with
      | .error f => s.faultAs c w f
      | .ok accs =>
          s.atomGo c w { setf := o.ctl.setf, d := o.d, width := 32, fn := 12, nw := false, m := m, accs := accs,
                         opnd := opnd32 o.c w x, cmp := opnd32 o.b w x }

/-! ### An atomic takes effect (R213, R242) -/

/-- The address of a lane atomic's byte `i`; its bytes with their addresses. -/
def LaneAtom.at_ (x : LaneAtom) (i : Nat) : Nat := if i < x.cut || x.kind = 1 then x.addr + i else x.addr2 + (i - x.cut)
def LaneAtom.cells (x : LaneAtom) (v : Nat) : List (Nat × Byte) := (List.range (x.width / 8)).map fun i => (x.at_ i, BitVec.ofNat 8 (v / 2 ^ (8 * i)))

/-- A lane atomic's value in memory of its space. -/
def LaneAtom.value (x : LaneAtom) (m : Memory) : Nat := leNat ((List.range (x.width / 8)).map fun i => memGet m (x.at_ i))

/-- Whether an older entry of the wave's store buffer or the cluster's publish buffer covers a lane atomic's bytes. (log 26, DEDUCED) -/
def State.atomCovered (s : State) (k : Nat) (w : Wave) (x : LaneAtom) : Bool :=
  let hit (e : Entry) : Bool := (e.kind == 1) == (x.kind == 1) && (x.cells 0).any fun c => (e.byteAt c.1).isSome
  (w.sb.map SItem.entries).flatten.any hit || (x.kind != 1 && ((s.cluster (clusterOfKey k)).pb.map PItem.entries).flatten.any hit)

/-- What an atomic leaves: the state, and the old value; none of a marked sector, which it does not change (18 R349), or of a home that
refuses it (22 R397). -/
abbrev AtomGot := State × Option Nat

/-- A lane's atomic at the team's scratch bank. -/
def State.atomScratch (s : State) (team : Nat) (x : LaneAtom) : AtomGot :=
  match s.team? team with
  | none => (s, some 0)
  | some t =>
    if (x.cells 0).any fun c => t.smark.contains (c.1 / 32) then (s, none)
    else match (atomNew x.fn x.width (x.value t.scratch) x.opnd x.cmp).1 with
      | none => (s, some (x.value t.scratch))
      | some v => (s.scratchPut team (x.cells v) false x.nw, some (x.value t.scratch))

/-- A lane's atomic of a replayed team: in its buffer, over the home's bytes (18 R368). -/
def State.atomReplay (s : State) (team : Nat) (x : LaneAtom) : AtomGot :=
  let s1 := ((x.cells 0).map (·.1 / 128)).dedup.foldl State.agentRead s
  if (x.cells 0).any (fun c => (s1.replayByte team c.1).isNone && s1.homeMark c.1) then (s1, none)
  else
    let old := leNat ((x.cells 0).map fun c => (s1.replayByte team c.1).getD (s1.homeByte c.1))
    match (atomNew x.fn x.width old x.opnd x.cmp).1 with
    | none => (s1, some old)
    | some v => (s1.replayCells team (x.cells v), some old)

/-- A cluster's copy of a line becomes what its home holds (R213). -/
def State.refreshCopy (s : State) (k line : Nat) : State :=
  (s.deliverAll k).modCluster k (·.modCopy line fun c =>
    { c with bytes := memGets s.mem (line * 128) 128, marks := (List.range 4).filter fun i => s.marks.contains (line * 4 + i) })

/-- One line's part of an atomic at its home: event ATOM where the kind has a protocol. -/
def State.atomLine (s : State) (key : Nat) (x : LaneAtom) (cs : List (Nat × Byte)) (app : State → State) : State :=
  let line := (cs.headD (0, 0)).1 / 128
  let s := s.flushHq line
  if kindHasProt x.kind then
    (s.cellEvent line 3 (reqOf (coreOfKey key) x.slot x.param) true app ((cs.headD (0, 0)).1 % 128) cs.length).1
  else s.hostWrite line (some (clusterOfKey key)) app

/-- A lane's atomic at its home, one step: what the home has once its event has brought in what lies elsewhere; the new value, which its
cluster's copy takes with the rest of the line (R213). -/
def State.atomHome (s : State) (key : Nat) (x : LaneAtom) : AtomGot :=
  let k := clusterOfKey key
  let parts := [(x.cells 0).filter (·.1 / 128 == x.addr / 128), (x.cells 0).filter (·.1 / 128 != x.addr / 128)].filter (!·.isEmpty)
  if parts.any fun cs => s.downAt (cs.headD (0, 0)).1 then (s.alert 0x397 key, none)
  else
    let s1 := parts.foldl (fun (s : State) cs => s.atomLine key x cs id) s
    if (x.cells 0).any (fun c => s1.homeMark c.1) then (s1, none)
    else
      let old := x.value s1.mem
      let put (cs : List (Nat × Byte)) (t : State) : State :=
        match (atomNew x.fn x.width old x.opnd x.cmp).1 with
        | none => t
        | some v => t.applyCells ((x.cells v).filter fun c => cs.any (·.1 == c.1)) false x.nw (some k)
      let s2 := parts.foldl (fun (s : State) cs => s.atomLine key x cs (put cs)) s
      (parts.foldl (fun (s : State) cs => s.refreshCopy k ((cs.headD (0, 0)).1 / 128)) s2, some old)

/-- What a wave keeps of a lane atomic that was applied: the old value to be written, the exceptions. -/
def Pend.applied (p : Pend) (x : LaneAtom) (old : Option Nat) (fl : Nat) : Pend :=
  { p with atoms := p.atoms.drop 1, fpx := p.fpx ||| fl,
           writes := p.writes ++ (match p.dst, old with
             | some d, some v => regWrites d x.lane (if p.wide then [BitVec.ofNat 32 v, BitVec.ofNat 32 (v / 2 ^ 32)] else [BitVec.ofNat 32 v])
             | _, _ => []) }

/-- A lane's atomic at its place: a deposit at its core, else the bank, the replay's buffer or the home; its exceptions. (log 26, DEDUCED; log
73, DESIGN CHOICE) -/
def State.atomAt (s : State) (key team : Nat) (zero : Bool) (x : LaneAtom) : AtomGot × Nat :=
  if s.isDeposit x zero && !s.replaying team && x.cut ≥ 4 && !s.downAt x.addr then
    let r := s.deposit (coreOfKey key) x
    ((r.1, none), r.2)
  else
    let r := if x.kind = 1 then s.atomScratch team x else if s.replaying team then s.atomReplay team x else s.atomHome key x
    (r, match r.2 with | some old => (atomNew x.fn x.width old x.opnd x.cmp).2 | none => 0)

/-- The first lane of the wave's operation `i` takes effect. -/
def State.applyLane (s : State) (key i : Nat) : State :=
  match s.wave? key with
  | none => s
  | some w =>
    match w.pend[i]? with
    | none => s
    | some p =>
      match p.atoms with
      | [] => s
      | x :: _ =>
        let r := s.atomAt key w.team p.dst.isNone x
        let p' := p.applied x r.1.2 r.2
        r.1.1.modWave key fun w =>
          if p.dst.isNone then
            let w1 := (w.orFp r.2).donePart p.op
            { w1 with pend := if p'.atoms.isEmpty then ldel w1.pend i else lset w1.pend i { p' with fpx := 0 } }
          else { w with pend := lset w.pend i p' }

/-- The next lane of the wave's operation `i` takes effect; the lanes of one ATOMCAS.SP, whose addresses name no segment, all in one step
(R64). -/
def State.applyAtom (s : State) (key i : Nat) : State :=
  match s.wave? key with
  | none => s
  | some w =>
    match w.pend[i]? with
    | none => s
    | some p =>
      let xs := match p.atoms with
        | [] => []
        | x :: _ => if selOf x.ea = 0 then p.atoms else [x]
      if xs.any fun x => decide (16 ≤ x.fn) || s.atomCovered key w x then s
      else xs.foldl (fun (s : State) _ => s.applyLane key i) s

/-- ATOMIC_APPLY. -/
def execAtomicApply (w i : Nat) (s : State) : Out := .next (s.applyAtom w i)

/-! ### Data returns (R238) -/

/-- One register word is written. -/
def Wave.writeReg (w : Wave) (x : RegWrite) : Wave :=
  if x.reg < 192 then (w.putVm x.reg (laneBit x.lane) fun _ => x.val).wrote [errV x.reg x.lane]
  else (w.putS (x.reg - 192) x.val).wrote [errS (x.reg - 192)]

/-- The data of the wave's operation `i` has come: its destination is written, its exceptions raised, its flag decremented. (log 24, DEDUCED) -/
def Wave.returnData (w : Wave) (i : Nat) : Wave :=
  match w.pend[i]? with
  | none => w
  | some p =>
      if !p.atoms.isEmpty then w
      else (((p.writes.foldl Wave.writeReg { w with pend := ldel w.pend i }).orFp p.fpx).donePart p.op)

/-- LOAD_DATA_RETURN. (log 24, DEDUCED) -/
def execLoadDataReturn (w i : Nat) (s : State) : Out := .next (if s.clocked (partOfKey w) then s.modWave w (·.returnData i) else s)

end Sys2Proof.Machine
end

