-- ==== Sys2Proof/Machine/Sync.lean ====
section
/-! DEFINITION. Queues, cairns, fences, waiting on memory, prefetches, range operations, bank modes (10 R231–R250, 09 R214–R223). -/

namespace Sys2Proof.Machine

/-- The executing split's instruction is over once its wait is: it moves on. -/
def State.passDone (s : State) (c : Cur) : State :=
  match s.wave? c.wave with
  | none => s
  | some w => if (c.split w).wait.any (·.done) then s.done c w else s

/-! ### Queues (10 R231, R241) -/

/-- The bank a queue id names: cluster and logical bank. -/
def queueBank (id : Nat) : Nat × Nat := (bitsOf id 7 6, id % 128)

/-- Whether an id names a FIFO bank of the context in the partition. -/
def State.queueOk (s : State) (p ctx id : Nat) : Bool :=
  let q := queueBank id
  let b := (s.cluster q.1).bank q.2
  q.1 / 12 == p && b.mode == 2 && b.ctx == ctx

/-- The request at the head of a bank's wait order is served, if it can be: pushed words are appended, popped words go on
their way to their registers. A marked word at the head ends no wait: the split executes its LDQ again and meets it. (log 67, DEDUCED) -/
def State.serveQueue (s : State) (k b : Nat) : State :=
  let x := (s.cluster k).bank b
  match x.wait with
  | [] => s
  | r :: rest =>
    if r.push then
      if Config.fifoWords < x.words.length + r.words.length then s
      else
        ((s.modCluster k fun c => c.putBank b { x with words := x.words ++ r.words.map (·, false), wait := rest }).donePart r.wave r.op).endWaitOf
          r.wave r.entry
    else
      let n := r.dests.length
      if x.words.length < n then s
      else if (x.words.take n).any (·.2) then
        (s.modCluster k fun c => c.putBank b { x with wait := rest }).modWave r.wave (·.modSplit r.entry fun y =>
          { y with wait := y.wait.map fun z => { z with kind := 14, done := false } })
      else
        let writes : List RegWrite := (List.range n).map fun i =>
          { reg := (r.dests.getD i (0, 0)).1, lane := (r.dests.getD i (0, 0)).2, val := (x.words.getD i (0, false)).1 }
        let pend : Pend := { op := r.op, regs := (r.dests.map (·.1)).dedup, writes := writes, atoms := [], dst := none, wide := false, fpx := 0 }
        ((s.modCluster k fun c => c.putBank b { x with words := x.words.drop n, wait := rest }).modWave r.wave fun w =>
          { w with pend := w.pend ++ [pend] }).endWaitOf r.wave r.entry

/-- Whether a split's request waits at a bank. -/
def Bank.queued (b : Bank) (wave entry : Nat) : Bool := b.wait.any fun r => r.wave == wave && r.entry == entry

/-- A request joins a bank's wait order; when it is at the head and can be served it is served at once. (log 67, DEDUCED) -/
def State.queueJoin (s : State) (c : Cur) (w : Wave) (q : Nat × Nat) (r : QReq) : State :=
  let kind := if r.push then 15 else 14
  let s1 := s.hold c w { kind := kind, arg := r.op, dead := 0, done := false }
  let s2 := s1.modCluster q.1 fun x => x.putBank q.2 { x.bank q.2 with wait := (x.bank q.2).wait ++ [r] }
  (s2.serveQueue q.1 q.2).passDone c

/-- LDQ and STQ of a split: `req op` is the request. (log 29, DEDUCED; log 67, DEDUCED) -/
def State.queueOp (s : State) (c : Cur) (w : Wave) (ctl : Ctl) (m : LaneMask) (id : Nat) (req : Nat → QReq) : State :=
  let u := s.who c w
  let q := queueBank id
  let b := (s.cluster q.1).bank q.2
  if s.audited w then s.illconv c w 26
  else if m = 0 then s.done c w
  else if !s.queueOk u.part u.ctx id then
    s.fault c w fSEGV 3 m ((lanesOf m).map fun l => (l, BitVec.ofNat 64 id))
  else
    let n := (req 0).dests.length
    let bad := b.wait.isEmpty && n != 0 && n ≤ b.words.length && (b.words.take n).any (·.2)
    if bad then
      let per := n / (lanesOf m).length
      let lanes := maskWhere fun l => laneOf m l && ((b.words.drop (per * (lanesOf m).idxOf l)).take per).any (·.2)
      s.fault c w fPOISON 1 lanes ((lanesOf lanes).map fun l => (l, BitVec.ofNat 64 id))
    else match (c.split w).wait with
      | some r =>
          if r.done then s.done c w
          else if b.queued c.wave c.entry then s
          else s.queueJoin c w q (req r.arg)
      | none =>
          let o := w.newOp ctl.setf 1
          s.queueJoin c o.1 q (req o.2)

/-- The words of a lane's data registers, low word first. -/
def Wave.queueWords (w : Wave) (d : Nat) (w64 : Bool) (m : LaneMask) : List Word :=
  ((lanesOf m).map fun l => if w64 then [w.v d l, w.v (d + 1) l] else [w.v d l]).flatten

/-- The register words a pop fills, lane by lane. -/
def queueDests (d : Nat) (w64 : Bool) (m : LaneMask) : List (Nat × Nat) :=
  ((lanesOf m).map fun l => if w64 then [(d, l), (d + 1, l)] else [(d, l)]).flatten

def execLdq (o : LdqOp) (s : State) : Out :=
  s.run fun c w =>
    let x := c.split w
    let m := w.actLanes x o.ctl.pred o.ctl.neg
    s.withReads c w [(o.q, 1)] (predRegs o.ctl.pred) m <|
      s.queueOp c w o.ctl m (w.src x 0 o.q).toNat fun op =>
        { wave := c.wave, entry := c.entry, push := false, words := [], dests := queueDests o.d o.w64 m, op := op }

def execStq (o : StqOp) (s : State) : Out :=
  s.run fun c w =>
    let x := c.split w
    let m := w.actLanes x o.ctl.pred o.ctl.neg
    s.withReads c w [(.v o.d, if o.w64 then 2 else 1), (o.q, 1)] (predRegs o.ctl.pred) m <|
      s.queueOp c w o.ctl m (w.src x 0 o.q).toNat fun op =>
        { wave := c.wave, entry := c.entry, push := true, words := w.queueWords o.d o.w64 m, dests := [], op := op }

/-- QUEUE_SERVICE. (log 67, DEDUCED) -/
def execQueueService (k bank : Nat) (s : State) : Out := .next (s.serveQueue k bank)

/-! ### Cairns (09 R216–R221, 11 R275) -/

/-- An entry moved by a forced publish for a cairn is applied: one that is tagged as event FPUB, with its bytes (R275). -/
def State.applyForced (s : State) (pa : Nat) (e : Entry) : State :=
  let s := s.flushHq e.line
  if e.cairn == some pa && kindHasProt e.kind && !s.downAt (e.line * 128) then
    (s.cellEvent e.line 7 (reqOf e.core e.slot e.param) true (·.rawEntry e) e.span.1 e.span.2).1
  else s.applyEntry e true

/-- FPUB of a line that cluster `k` holds under a cairn without bytes to send. -/
def State.forceBare (s : State) (line : Nat) (core : Option Nat) (k : Nat) : State :=
  let s := s.flushHq line
  match if kindHasProt (regionKind (line * 128)) then tfind s.dir line else none with
  | none => s
  | some d => (s.cellUnder line 7 { cluster := some k, core := core, slot := d.slot, lease := 1, rfmt := true } true id 0 0).1

/-- A forced publish of cluster `k` for a cairn (R219, R275): its tagged entries move to the homes with what is ahead of them and are applied;
FPUB goes also for the bound lines that it owns without entries, and for those on which a core of it holds a partial. (log 28, DESIGN
CHOICE) -/
def State.forceCairn (s : State) (k pa : Nat) : State :=
  let own := ((s.cluster k).bound pa).filter fun line => (tfind s.dir line).any (·.owner == some k)
  let parts := ((List.range 4).map fun i => ((s.core (4 * k + i)).parts.filter (·.cairn == some pa)).map (·.line)).flatten
  let (mv, st) := forcedSplit (fun e => e.cairn == some pa) (s.cluster k).pb
  let s := mv.foldl (fun (s : State) x => match x with
    | .store e => s.applyForced pa e
    | .barrier w sc rel op => s.markerLeft w sc rel op) (s.modCluster k fun c => { c with pb := st })
  let sent := (mv.map PItem.entries).flatten.map (·.line)
  let s := (own.filter fun line => !sent.contains line).foldl (fun s line => s.forceBare line none k) s
  parts.foldl (fun s line => s.forceBare line none k) s

/-- A grant to a wave of cluster `j` (R219). Its own copies of bound lines go, the owned ones by WBACK (R266). -/
def State.grantTo (s : State) (pa j : Nat) (ex queued : Bool) : State :=
  let s := (s.forcedFor pa j).foldl (fun s k => s.forceCairn k pa) s
  let own := ((s.cluster j).bound pa).filter fun line => (tfind s.dir line).any (·.owner == some j)
  (own.foldl (fun s line => s.giveUpLine j line) s).grantDone pa j ex queued

/-- Grant the requests at the head of a cairn's FIFO while the conditions hold (R218). -/
def State.grantAll (s : State) (pa : Nat) : Nat → State
  | 0 => s
  | n + 1 =>
      match tget [] s.cairns pa with
      | [] => s
      | r :: rest =>
          if s.mayGrant pa r.ex then
            ((({ s with cairns := tset [] s.cairns pa rest } : State).grantTo pa (clusterOfKey r.wave) r.ex true).granted r).grantAll pa n
          else s

/-- Every request of a cairn's FIFO that can be granted is. -/
def State.grantFifo (s : State) (pa : Nat) : State := s.grantAll pa (tget [] s.cairns pa).length

/-- CAIRN_GRANT. -/
def execCairnGrant (pa : Nat) (s : State) : Out := .next (s.grantFifo pa)

/-- Whether an item of a home queue is a cairn's release message. -/
def HItem.releases (x : HItem) (pa : Nat) : Bool := match x with | .release c _ => c == pa | _ => false

/-- A cairn's home takes its queue in arrival order up to the oldest release message (R218), and grants what that allows. -/
def State.toRelease (s : State) (pa : Nat) : Nat → State
  | 0 => s
  | n + 1 =>
      match tget [] s.hq (pa / 128) with
      | [] => s
      | x :: _ =>
          let s1 := s.applyNext (pa / 128)
          if x.releases pa then s1.grantFifo pa else s1.toRelease pa n

/-- CAIRN_RELEASE: the oldest release message of a cairn's home queue is taken (R220 step 3, R221). -/
def execCairnRelease (pa : Nat) (s : State) : Out :=
  let q := tget [] s.hq (pa / 128)
  if q.any (·.releases pa) then .next (s.toRelease pa q.length) else .next s

/-- The access of a cairn instruction: uniform, its 64 bytes checked. -/
def State.cairnAccess (s : State) (c : Cur) (w : Wave) (a : Nat) : Except LFault Access :=
  let u := s.who c w
  let m := (c.split w).em
  match s.checkLanes u { right := 3, kinds := kindsDTH, size := 64, align := 64, write := true } [0] true m (fun _ => .ok (w.s64 a)) with
  | .error f => .error f
  | .ok l =>
      match l with
      | [] => .error { code := fSEGV, cause := 3, mask := orLane0 m, addrs := [] }
      | p :: _ => if s.accMarked c.wave w p.2 64 || s.refuses c.wave 64 p.2 then
            .error { code := fPOISON, cause := 1, mask := orLane0 m, addrs := (lanesOf (orLane0 m)).map fun l => (l, w.s64 a) }
          else .ok p.2

/-- A cairn instruction: its register and its address checked, banned in AUDIT grids (18 R366). -/
def State.cairnOp (s : State) (a : Nat) (go : Cur → Wave → Access → State → State) : Out :=
  s.run fun c w =>
    s.withReads c w [(.s a, 2)] [] (c.split w).em <|
      if s.audited w then s.illconv c w 26
      else match s.cairnAccess c w a with
        | .error f => s.faultAs c w f
        | .ok x => go c w x (s.keepFor (s.who c w) x 0)

/-- A cairn's home comes to a request: what its queue holds is taken first, and what that allows is granted (R218). -/
def State.cairnTurn (s : State) (pa : Nat) : State := (s.flushHq (pa / 128)).grantFifo pa

/-- A request at the cairn's home: granted at once when nothing waits and the mode is free, else queued. -/
def State.acqGo (s : State) (c : Cur) (pa op : Nat) (ex : Bool) : State :=
  let k := clusterOfKey c.wave
  if (tget [] s.cairns pa).isEmpty && s.mayGrant pa ex then
    (((s.grantTo pa k ex false).donePart c.wave op).endWaitOf c.wave c.entry).passDone c
  else
    let r : CairnReq := { wave := c.wave, entry := c.entry, ex := ex }
    ({ s with cairns := tset [] s.cairns pa (tget [] s.cairns pa ++ [r]) } : State).cairnPut pa 4 4 ((memNat s.mem (pa + 4) 4 + 1) % 2 ^ 32)

/-- ACQ. -/
def execAcq (o : AcqOp) (s : State) : Out :=
  s.cairnOp o.a fun c w x s =>
    let fresh (w : Wave) (op : Nat) : State :=
      ((s.hold c w { kind := 13, arg := op, dead := 0, done := false }).cairnTurn x.pa).acqGo c x.pa op o.ex
    match (c.split w).wait with
    | none => let q := w.newOp o.ctl.setf 1; fresh q.1 q.2
    | some r =>
        if r.done then s.done c w
        else if (tget [] s.cairns x.pa).any (fun q => q.wave == c.wave && q.entry == c.entry) then s
        else fresh w r.arg

/-- ACQT: never queued; its predicate is written at every lane of the split (R235). -/
def execAcqt (o : AcqtOp) (s : State) : Out :=
  s.cairnOp o.a fun c w x s =>
    let s := s.cairnTurn x.pa
    let ok := (tget [] s.cairns x.pa).isEmpty && s.mayGrant x.pa o.ex
    let s1 := if ok then s.grantTo x.pa (clusterOfKey c.wave) o.ex false else s
    s1.doneBy c (·.putPd o.d (c.split w).lanes fun _ => ok)

/-- REL: appends its tagged marker; a release of scope WAVE acts as TEAM (R220). -/
def execRel (o : RelOp) (s : State) : Out :=
  s.cairnOp o.a fun c w x s =>
    let q := w.newOpIf o.ctl.setf 1
    (s.done c q.1).release c.wave (max 1 o.scope.code) (some (x.pa, o.ex)) q.2

/-! ### Fences (09 R214, 10 R245) -/

/-- (log 28, DESIGN CHOICE) -/
def execFence (_ : Ctl) (kind : FenceKind) (scope : Scope) (s : State) : Out :=
  s.run fun c w =>
    let k := clusterOfKey c.wave
    match kind with
    | .rel => (s.done c w).release c.wave scope.code none 0
    | .acq => (s.done c w).acquire k scope.code
    | .ar => ((s.done c w).release c.wave scope.code none 0).acquire k scope.code
    | .sc =>
        match (c.split w).wait with
        | none =>
            let q := w.newOp none 1
            (s.hold c q.1 { kind := 10, arg := q.2, dead := 0, done := false }).release c.wave scope.code none q.2
        | some r => if (tfind w.ops r.arg).isSome then s else (s.done c w).acquire k scope.code

/-- PUB: completes when its marker has left. -/
def execPub (ctl : Ctl) (scope : Scope) (s : State) : Out :=
  s.run fun c w =>
    let q := w.newOpIf ctl.setf 1
    (s.done c q.1).release c.wave scope.code none q.2

/-! ### Waiting on memory (10 R246–R248, 09 R223) -/

/-- A cluster's entries of a line are applied at its home with what is ahead of them. (log 28, DESIGN CHOICE) -/
def State.forceAt (s : State) (k line : Nat) : State :=
  if ((s.cluster k).pb.map PItem.entries).flatten.any (fun e => e.line == line) then
    let r := s.moveOut k line
    r.2.foldl (fun (s : State) e => (s.flushHq line).applyEntry e true) r.1
  else s

/-- A wave's store buffer drains if it holds a store that a test picks. -/
def State.drainIf (s : State) (key : Nat) (hit : Entry → Bool) : State :=
  match s.wave? key with
  | none => s
  | some w => if (w.sb.map SItem.entries).flatten.any hit then s.drainSb key else s

/-- The wave's older stores to a line reach the point where they are read: its store buffer drains, the cluster's entries of the line move
to their home (R209, R210). (log 28, DESIGN CHOICE) -/
def State.forceOwn (s : State) (key : Nat) (scr : Bool) (line : Nat) : State :=
  let s := s.drainIf key fun e => (e.kind == 1) == scr && e.line == line
  if scr then s else s.forceAt (clusterOfKey key) line

/-- The home, or the bank, has the value a WAITV compares: a line's home is read as event READ. -/
def State.waitLine (s : State) (core : Nat) (a : Access) (sp : Nat × Nat) : State :=
  if a.kind = 1 then s
  else if kindHasProt a.kind then (s.homeEvent (a.pa / 128) 4 (reqOf core sp.1 sp.2) id 0 0).1
  else s.flushHq (a.pa / 128)

/-- The value at an address of a bank or a home. -/
def State.waitValue (s : State) (team : Nat) (a : Access) (n : Nat) : Nat :=
  let at_ (m : Memory) : Nat := leNat ((List.range n).map fun i => memGet m (a.paAt i))
  if a.kind = 1 then (match s.team? team with | none => 0 | some t => at_ t.scratch) else at_ s.mem

/-- The armed entries of a team. -/
def State.armedOf (s : State) (team : Nat) : Nat := (s.mon.filter fun m => (s.wave? m.wave).any (·.team == team)).length

/-- WAITV's status is written and its operation completes; the wait's `arg` is 4 × operation + status. -/
def State.waitvEnd (s : State) (c : Cur) (w : Wave) (d arg : Nat) : State :=
  s.done c (((w.putS d (BitVec.ofNat 32 (arg % 4))).wrote [errS d]).donePart (arg / 4))

/-- WAITV: compares and arms in one step, its line as its home now has it. -/
def State.waitvGo (s : State) (c : Cur) (w : Wave) (o : WaitvOp) (a : Access) : State :=
  let n := if o.w64 then 8 else 4
  let expect := if o.w64 then (w.s64 o.b).toNat else (w.s o.b).toNat
  let tmo := (w.s (o.b + n / 4)).toNat
  if s.waitValue w.team a n != expect then s.waitvEnd c w o.d 1
  else if ((s.team? w.team).map (·.monq)).getD 0 ≤ s.armedOf w.team then s.waitvEnd c w o.d 2
  else
    let q := w.newOp o.ctl.setf 1
    let m : Mon := { wave := c.wave, entry := c.entry, team := if a.kind = 1 then some w.team else none, line := a.pa / 128 }
    let s2 := s.hold c q.1 { kind := 8, arg := 4 * q.2, dead := if tmo = 0 then 0 else (s.gts + tmo) % 2 ^ 64, done := false }
    { s2 with mon := s2.mon ++ [m] }

def execWaitv (o : WaitvOp) (s : State) : Out :=
  s.run fun c w =>
    match (c.split w).wait with
    | some r => if r.done then s.waitvEnd c w o.d r.arg else s
    | none =>
      let n := if o.w64 then 8 else 4
      let u := s.who c w
      let m := (c.split w).em
      s.withReads c w [(.s o.a, 2), (.s o.b, n / 4 + 1)] [] m <|
        if s.audited w then s.illconv c w 26
        else match s.checkLanes u { right := 0, kinds := kindsWait, size := n, align := n, write := false } [0] true m (fun _ => .ok (w.s64 o.a)) with
        | .error f => s.faultAs c w f
        | .ok accs =>
            match accs with
            | [] => s
            | p :: _ =>
                let poison : AFault := { code := fPOISON, cause := 1, addr := p.2.ea }
                let s1 := s.keepFor u p.2 0
                if s.refuses c.wave n p.2 then (s1.refused (2 * c.wave)).uniFault c w poison
                else
                  let s2 := (s1.forceOwn c.wave (p.2.kind == 1) (p.2.pa / 128)).waitLine (coreOfKey c.wave) p.2 (s.slotOf u p.2)
                  match s2.wave? c.wave with
                  | none => s2
                  | some w => if s2.accMarked c.wave w p.2 n then s2.uniFault c w poison else s2.waitvGo c w o p.2

/-- A split's armed entry goes, and its WAITV ends: with status 0, or 3 at its timeout. -/
def State.endMon (s : State) (k e status : Nat) : State :=
  if s.mon.any (fun m => m.wave == k && m.entry == e) then
    let fin (r : Wait) : Wait := { r with arg := r.arg + status, done := true }
    ({ s with mon := s.mon.filter fun m => !(m.wave == k && m.entry == e) }).modWave k fun w => w.modSplit e fun x =>
      { x with wait := x.wait.map fin }
  else s

/-- WAITV_TIMEOUT: GTS has reached the deadline, and no event came before the tick that it reached it in was over (R246). -/
def execWaitvTimeout (k e : Nat) (s : State) : Out :=
  match s.wave? k with
  | none => .next s
  | some w =>
      match (w.split e).wait with
      | some r => if r.kind = 8 && !r.done && r.dead != 0 && s.passed ((r.dead + 1) % 2 ^ 64) then .next (s.endMon k e 3) else .next s
      | none => .next s

/-- MONITOR_EVICTION: the home drops an armed entry. -/
def execMonitorEviction (k e : Nat) (s : State) : Out := .next (s.endMon k e 0)
/-- SPURIOUS_WAKE: the Ovyen ends a WAITV at a moment of its choosing. -/
def execSpuriousWake (k e : Nat) (s : State) : Out := .next (s.endMon k e 0)

/-- One wake at a line: of every entry, or of the oldest. -/
def State.wakeAt (s : State) (team : Option Nat) (line : Nat) (all : Bool) : State :=
  if all then s.wakeIf fun m => m.team == team && m.line == line
  else match s.mon.find? (fun m => m.team == team && m.line == line) with
    | none => s
    | some m => s.endMon m.wave m.entry 0

/-- WAKE: one wake for each active lane, behind the wave's older stores to its line (R248). -/
def execWake (o : WakeOp) (s : State) : Out :=
  s.run fun c w =>
    let x := c.split w
    let m := w.actLanes x o.ctl.pred o.ctl.neg
    let u := s.who c w
    s.withReads c w [(o.a.asSrc, 2)] (predRegs o.ctl.pred) m <|
      match s.checkLanes u { right := 0, kinds := kindsWait, size := 1, align := 1, write := false } (lanesOf m) false m
          (fun l => .ok (w.reg64 o.a l)) with
      | .error f => s.faultAs c w f
      | .ok accs =>
          let s1 := accs.foldl (fun s p =>
            let s := s.forceOwn c.wave (p.2.kind == 1) (p.2.pa / 128)
            (if p.2.kind = 1 then s else s.flushHq (p.2.pa / 128)).wakeAt (if p.2.kind = 1 then some w.team else none) (p.2.pa / 128) o.all) (s.keepAll u accs)
          match s1.wave? c.wave with
          | none => s1
          | some w => s1.done c w

/-! ### Prefetch (R240) -/

/-- PREF: a lane that fails its checks, or whose address or predicate carries an error mark, is dropped. With CLUSTER scope the line is
asked for (LaneAtom number 16, whose operand is the page's WP); with DEVICE scope, or for a kind that no cluster copies, nothing changes. -/
def execPref (o : PrefOp) (s : State) : Out :=
  s.run fun c w =>
    let x := c.split w
    let m := w.actLanes x o.ctl.pred o.ctl.neg
    let u := s.who c w
    let need : Need := { right := 0, kinds := [0, 2, 3, 4, 6], size := 1, align := 1, write := false, narrow := !o.dev }
    let sound (l : Nat) : Bool := w.laneCause (readFor m [(o.a.asSrc, 2), (o.b, 1)]) (predRegs o.ctl.pred) l == 0
    let ok := ((lanesOf m).filter sound).filterMap fun l => match w.laneEa x o.a o.b l with
      | .error _ => none
      | .ok ea => match s.checkAccess u need l ea with
        | .error _ => none
        | .ok a => if o.dev || a.kind = 6 then none else some (l, a)
    let wp (l : Nat) : Nat := bnat ((ok.find? (·.1 == l)).any (·.2.wp))
    let r : AtomArgs := { setf := none, d := .zero, width := 8, fn := 16, nw := true, m := m, accs := ok, opnd := wp, cmp := fun _ => 0 }
    let q := w.newOp o.ctl.setf ok.length
    let pend : Pend := { op := q.2, regs := [], writes := [], atoms := ok.map (s.laneAtom u r), dst := none, wide := false, fpx := 0 }
    s.done c (if ok.isEmpty then w else { q.1 with pend := q.1.pend ++ [pend] })

/-! ### Range operations (R249, R250) -/

/-- The checks of a range instruction; with no byte, those that need none (R249). -/
def State.rangeCheck (s : State) (u : Who) (right : Nat) (kinds : List Nat) (n : Nat) (ea : DWord) : Except AFault Access :=
  let need : Need := { right := right, kinds := kinds, size := n, align := 128, write := false }
  if n = 0 then
    match s.checkSeg u { right := right, kinds := kinds, size := 0, align := 128, write := false } ea with
    | .error f => .error f
    | .ok d => .ok { kind := d.kind, pa := 0, cairn := d.cairn, prot := 0, ea := ea, desc := d }
  else if n % 128 != 0 then
    match s.checkSeg u need ea with
    | .error f => .error f
    | .ok _ => .error { code := fALIGN, cause := 0, addr := ea }
  else s.checkRange u need 0 ea

/-- RINV 0, RINV.WB 1, RFLUSH 2: the wave's entries of the range enter the publish buffer, then the lines are handled one by
one. -/
def State.rangeOp (s : State) (o : RangeOp) (kind right : Nat) (kinds : List Nat) : Out :=
  s.run fun c w =>
    let u := s.who c w
    s.withReads c w [(.s o.a, 2), (o.b, 1)] [] (c.split w).em <|
      let ea := w.s64 o.a
      let n := (w.src (c.split w) 0 o.b).toNat
      match s.rangeCheck u right kinds n ea with
      | .error f => s.uniFault c w f
      | .ok a =>
        if n = 0 then s.done c w
        else
          let lines := s.linLines u (selOf ea) a.kind (a.desc.base + offOf ea) n
          let q := w.newOp o.ctl.setf 1
          let job : RangeJob := { wave := c.wave, team := w.team, wid := w.wid, op := q.2, kind := kind, lines := lines }
          let s1 := ((s.keepFor u a 0).done c q.1).drainIf c.wave fun e => e.kind != 1 && lines.contains e.line
          s1.modPart u.part fun p => { p with ranges := p.ranges ++ [job] }

def execRinv (o : RangeOp) (s : State) : Out := s.rangeOp o 0 1 [2, 3]
def execRinvWb (o : RangeOp) (s : State) : Out := s.rangeOp o 1 0 [2, 3, 4, 5]
def execRflush (o : RangeOp) (s : State) : Out := s.rangeOp o 2 0 [2, 3, 4, 5]

/-- Whether a publish-buffer item is an entry of a line. -/
def PItem.ofLine (x : PItem) (line : Nat) : Bool := x.entries.any (·.line == line)

/-- Every copy of a line is dropped, those on their way too. -/
def State.dropCopies (s : State) (line : Nat) : State :=
  (allClusters.filter fun k => (s.cluster k).holds line).foldl (fun s k => (s.deliverAll k).modCluster k (·.dropCopy line)) s

/-- The stores of a line that still wait in publish buffers are lost: each completes here (R250). -/
def State.discardLine (s : State) (line : Nat) : State :=
  (allClusters.filter fun k => (s.cluster k).pb.any (·.ofLine line)).foldl (fun (s : State) k =>
    let gone := (((s.cluster k).pb.filter (·.ofLine line)).map PItem.entries).flatten
    gone.foldl (fun (s : State) e => s.donePart e.wave e.op) (s.modCluster k fun c => { c with pb := c.pb.filter (!·.ofLine line) })) s

/-- One step of a range operation on one line, under its recorded slot (R249, 11 R256). -/
def State.rangeLine (s : State) (kind line : Nat) : State :=
  if kind = 0 then
    let s := (((s.flushHq line).discardLine line).dropCopies line).plainEvent line 10
    (s.partialCores line).foldl (fun s q => s.dropPartial q line) s
  else if kind = 1 then (s.neut line).dropCopies line
  else ((s.flushHq line).forceLine line).plainEvent line 8

/-- A line of the wave's range operation `i` is handled; the last one completes it. -/
def State.rangeStep (s : State) (key i line : Nat) : State :=
  let p := partOfKey key
  let mine := (s.part p).ranges.filter (·.wave == key)
  match mine[i]? with
  | none => s
  | some j =>
      if !j.lines.contains line then s
      else
        let s1 := s.rangeLine j.kind line
        let left := j.lines.filter (· != line)
        let more (rs : List RangeJob) : List RangeJob :=
          if left.isEmpty then rs.erase j else rs.map fun (y : RangeJob) => if y == j then { j with lines := left } else y
        let s2 := s1.modPart p fun x => { x with ranges := more x.ranges }
        if left.isEmpty then s2.donePartOf j.team j.wid j.op else s2

/-- RANGE_LINE_STEP. -/
def execRangeLineStep (w i line : Nat) (s : State) : Out := .next (s.rangeStep w i line)

/-! ### Bank modes (R232–R234) -/

/-- Whether a bank is being evacuated, or leaves CACHE: a switch of it waits. (log 34, DEDUCED) -/
def State.bankBusy (s : State) (k b : Nat) : Bool :=
  (s.units.any fun u => u.key == .sram k b && u.state == 1 && u.target.isSome) || (s.cluster k).switches.any (·.bank == b)

/-- Whether a granule of a bank is allocated: granule g of a cluster lies in bank g / 256. -/
def State.bankHeld (s : State) (k b : Nat) : Bool :=
  s.teams.any fun t => t.2.core / 4 == k && !t.2.away && t.2.granules.any fun g => g / 256 == b

/-- Whether a bank holds what its switch would lose (R232). -/
def State.bankFull (s : State) (k b : Nat) : Bool :=
  let x := (s.cluster k).bank b
  (x.mode == 1 && s.bankHeld k b) || (x.mode == 2 && (!x.words.isEmpty || !x.wait.isEmpty))

/-- The cause an operand is refused for, 0 for none (R232, R233). (log 34, DEDUCED) -/
def State.bankCause (s : State) (p a : Nat) : Nat :=
  let mode := bitsOf a 28 2
  let ctx := bitsOf a 16 12
  let k := bitsOf a 8 6
  if a / 2 ^ 30 != 0 || bitsOf a 14 2 != 0 || bitOf a 7 || mode == 3 || (mode != 2 && ctx != 0) ||
      (mode == 2 && (s.ctxRec p ctx).isNone) then 12
  else if k / 12 != p || s.bankGone k (a % 128) then 11
  else 0

/-- The lines a cluster holds: copies, and entries of its publish buffer. (log 32, DEDUCED) -/
def Cluster.lines (c : Cluster) : List Nat :=
  (c.copies.map (·.line) ++ ((c.pb.map PItem.entries).flatten.filter (·.kind != 1)).map (·.line)).dedup

/-- A bank in its new mode. -/
def newBank (mode ctx : Nat) : Bank := { mode := mode, ctx := if mode = 2 then ctx else 0, words := [], wait := [] }

/-- BANKCFG (R232). A bank leaving CACHE is switched line by line; every other switch is made at once. (log 32, DEDUCED; log 34, DEDUCED) -/
def execBankcfg (ctl : Ctl) (a : Src) (s : State) : Out :=
  s.run fun c w =>
    if !w.clvl then s.illegal c w cUNDEFOP
    else s.withReads c w [(a, 1)] [] (c.split w).em <|
      let v := (w.src (c.split w) 0 a).toNat
      let mode := bitsOf v 28 2
      let ctx := bitsOf v 16 12
      let k := bitsOf v 8 6
      let n := v % 128
      let b := (s.cluster k).bank n
      let cause := s.bankCause (partOfKey c.wave) v
      if 0 < cause then s.illconv c w cause
      else if s.bankBusy k n then s
      else if b.mode == mode && (mode != 2 || b.ctx == ctx) then s.done c w
      else if s.bankFull k n then s.illconv c w 10
      else if b.mode == 0 && !((s.deliverAll k).cluster k).lines.isEmpty then
        let s := s.deliverAll k
        let q := w.newOp ctl.setf 1
        let job (l : List Nat) : Switch := { bank := n, mode := mode, ctx := ctx, team := w.team, wid := w.wid, op := q.2, todo := l }
        (s.done c q.1).modCluster k fun x => { x with switches := x.switches ++ [job x.lines] }
      else (s.modCluster k fun x => x.putBank n (newBank mode ctx)).done c w

/-- BANK_LINE_HANDLE: one line of a bank that leaves CACHE; the switch completes with the last. -/
def execBankLineHandle (k bank line : Nat) (s : State) : Out :=
  match (s.cluster k).switches.find? (·.bank == bank) with
  | none => .next s
  | some x =>
      if !x.todo.contains line then .next s
      else
        let s1 := s.giveUpLine k line
        let left := x.todo.filter (· != line)
        if left.isEmpty then
          .next ((s1.modCluster k fun c => ({ c with switches := c.switches.filter (·.bank != bank) }).putBank bank (newBank x.mode x.ctx)).donePartOf x.team x.wid x.op)
        else .next (s1.modCluster k fun c => { c with switches := c.switches.map fun y => if y.bank == bank then { y with todo := left } else y })

end Sys2Proof.Machine
end

