-- ==== Sys2Proof/Machine/Drain.lean ====
section
/-! DEFINITION. The machine's own steps at buffers, homes and caches: drains, requests, replies, page walks, shootdowns, released pins (09 R209–R211, 11 R254–R258, 15 R310–R313, R323, R327). -/

namespace Sys2Proof.Machine

/-! ### Store buffers and publish buffers (R209, R210) -/

/-- Item `i` of a store buffer leaves it, if it may. -/
def State.sbDrain (s : State) (key i : Nat) : State :=
  match s.wave? key with
  | none => s
  | some w =>
    match w.sb[i]? with
    | none => s
    | some x => if sbReady (w.sb.take i) x then (s.putWave key { w with sb := ldel w.sb i }).leaveSb key x else s

/-- STORE_BUFFER_DRAIN. -/
def execStoreBufferDrain (w i : Nat) (s : State) : Out := .next (s.sbDrain w i)

/-- Whether an item may leave its publish buffer. A barrier narrower than DEVICE waits for its wave's HOST and PEER stores (R214). (log 27,
DEDUCED) -/
def pbReady (older : List PItem) (x : PItem) : Bool :=
  older.all fun y => match x, y with
    | .store e, .store f => !e.clash f
    | .store e, .barrier w .. => w != e.wave
    | .barrier w sc .., .store f => f.wave != w || (sc < 3 && !(f.kind == 4 || f.kind == 5))
    | .barrier .., .barrier .. => true

/-- Whether a cluster owns a line. -/
def State.owns (s : State) (k line : Nat) : Bool := (tfind s.dir line).any (·.owner == some k)

/-- Whether an entry's line must be owned before its bytes go (R254): a narrow store of a plain protocol; under a write-once one,
a store that is not the first to its copy. A slice that may hold no line sends each through (01 R17). (log 31, DEDUCED) -/
def State.wantsOwner (s : State) (k : Nat) (e : Entry) : Bool :=
  let p := s.protocolOf (partOfLine e.line) e.slot
  let again : Bool := (tfind s.dir e.line).any (fun d => d.slot == s.slotFor (partOfLine e.line) e.slot) &&
    (s.cluster k).copies.any fun c => c.line == e.line && c.stored
  (e.kind == 0 || performsInPb e) && p.cls == 0 && !s.owns k e.line && s.cached k e.via && !s.downAt (e.line * 128) && (!p.wonce || again)

/-- GETX for the line of an entry: the cluster becomes its owner and holds an owned copy. -/
def State.ownLine (s : State) (e : Entry) : State :=
  let r := s.homeEvent e.line 1 (reqOf e.core e.slot e.param) id 0 0
  if r.2.1 = 1 || r.2.1 = 2 then
    r.1.install e.core (r.1.copyOf e.line (r.2.1 == 2) false r.2.2.1 r.2.2.2 { via := e.via, wp := false, cairn := e.cairn }) e.via
  else r.1

/-- Item `i` of a publish buffer leaves it, if it may: an entry enters its line's home queue, a barrier disappears. (log 27, DEDUCED) -/
def State.pbDrain (s : State) (k i : Nat) : State :=
  let pb := (s.cluster k).pb
  match pb[i]? with
  | none => s
  | some x =>
    if !pbReady (pb.take i) x then s
    else match x with
    | .barrier w sc rel op => (s.modCluster k fun c => { c with pb := ldel c.pb i }).markerLeft w sc rel op
    | .store e =>
      let s1 := if s.wantsOwner k e then s.ownLine e else s
      if (s1.cluster k).pb != pb then s1 else (s1.modCluster k fun c => { c with pb := ldel c.pb i }).arrive e

/-- PUBLISH_BUFFER_DRAIN. -/
def execPublishBufferDrain (k i : Nat) (s : State) : Out := .next (s.pbDrain k i)

/-- HOME_APPLY. -/
def execHomeApply (line : Nat) (s : State) : Out := .next (s.applyNext line)

/-! ### Copies (R211) -/

/-- COPY_DROP. An owner gives its copy up with WBACK (R266). -/
def execCopyDrop (k line : Nat) (s : State) : Out :=
  if !(s.cluster k).copies.any (·.line == line) then .next s
  else if s.owns k line then .next (s.giveUpLine k line)
  else .next (s.modCluster k (·.dropCopy line))

/-! ### Prefetches in flight (10 R240) -/

/-- The lane prefetch (number 16) of a line that a wave still has to send. -/
def Wave.prefOf (w : Wave) (line : Nat) : Option LaneAtom :=
  ((w.pend.map fun p => p.atoms.filter fun x => x.fn == 16 && x.addr / 128 == line).flatten).head?

/-- The oldest wave of a cluster with a prefetch of a line to send. -/
def State.prefWave (s : State) (k line : Nat) : Option (Nat × Wave × LaneAtom) :=
  ((s.waves.filter fun p => clusterOfKey p.1 == k).map fun p =>
    match p.2.prefOf line with | some x => [(p.1, p.2, x)] | none => []).flatten.head?

/-- A prefetch's request has gone (number 17). -/
def Wave.prefSent (w : Wave) (line : Nat) : Wave :=
  { w with pend := w.pend.map fun p => { p with atoms := p.atoms.map fun x =>
      if x.fn == 16 && x.addr / 128 == line then { x with fn := 17 } else x } }

/-- A prefetch's request of its line, whose reply is on its way, unless its home refuses it or no slice may hold it. -/
def State.prefSend (s : State) (k key : Nat) (w : Wave) (x : LaneAtom) : State :=
  let s1 := s.putWave key (w.prefSent (x.addr / 128))
  if s.refusesAt key x.kind x.addr then s1.refused (2 * key)
  else match s1.askCopy (coreOfKey key) x.kind (x.addr / 128) x.slot x.param { via := x.via, wp := x.opnd == 1, cairn := x.cairn } with
    | (s2, some c) => if s2.cached k x.via then s2.send k (.fill c (coreOfKey key)) else s2
    | (s2, none) => s2

/-- GETS: a cluster asks for a readable copy. A load asks in its own step; a prefetch asks here. -/
def execGets (k line : Nat) (s : State) : Out :=
  match s.prefWave k line with
  | none => .next s
  | some (key, w, x) => .next (s.prefSend k key w x)

/-- Whether a fill of a line is still on its way to a cluster. -/
def Cluster.filling (c : Cluster) (line : Nat) : Bool := c.msgs.any fun m => match m with | .fill x _ => x.line == line | _ => false

/-- The prefetches of a wave whose fill has come are over, each one part of its operation. -/
def Wave.prefDone (w : Wave) (c : Cluster) : Wave :=
  w.pend.foldl (fun w p =>
    let gone := p.atoms.filter fun x => x.fn == 17 && !c.filling (x.addr / 128)
    if gone.isEmpty then w
    else
      let left := p.atoms.filter fun x => !(x.fn == 17 && !c.filling (x.addr / 128))
      let w1 := { w with pend := if left.isEmpty then w.pend.erase p else w.pend.map fun q => if q == p then { p with atoms := left } else q }
      gone.foldl (fun w _ => w.donePart p.op) w1) w

/-- A cluster acts on the message at the head of its queue. -/
def State.deliverOne (s : State) (k : Nat) : State :=
  match (s.cluster k).msgs with
  | [] => s
  | m :: rest => (s.modCluster k fun c => { c with msgs := rest }).deliver k m

/-- The prefetches of a cluster's waves whose fill is there complete. -/
def State.prefsDone (s : State) (k : Nat) : State :=
  { s with waves := tmap (fun key w => if clusterOfKey key == k then w.prefDone (s.cluster k) else w) s.waves }

/-- FILL_REPLY: a fill reply that has come is installed; prefetches whose fill is there complete. -/
def execFillReply (k : Nat) (s : State) : Out :=
  match (s.cluster k).msgs with
  | .fill .. :: _ => .next ((s.deliverOne k).prefsDone k)
  | _ => .next (s.prefsDone k)

/-- INVALIDATION. -/
def execInvalidation (k : Nat) (s : State) : Out :=
  match (s.cluster k).msgs with
  | .inv _ :: _ => .next (s.deliverOne k)
  | _ => .next s

/-- PUSH. -/
def execPush (k : Nat) (s : State) : Out :=
  match (s.cluster k).msgs with
  | .push .. :: _ => .next (s.deliverOne k)
  | _ => .next s

/-! ### Requests of a cluster (R254, R256) -/

/-- The first index of a list whose element passes. -/
def firstIdx {α : Type} (f : Nat → α → Bool) (l : List α) : Option Nat := (List.range l.length).find? fun i => match l[i]? with | some x => f i x | none => false

/-- GETX: a cluster that holds a narrow store of a line asks to own it. -/
def execGetx (k line : Nat) (s : State) : Out :=
  match ((s.cluster k).pb.map PItem.entries).flatten.find? fun e => e.line == line && s.wantsOwner k e with
  | none => .next s
  | some e => .next (s.ownLine e)

/-- PUTW: a cluster sends the bytes of its oldest ready entry of a line. -/
def execPutw (k line : Nat) (s : State) : Out :=
  let pb := (s.cluster k).pb
  match firstIdx (fun i x => x.ofLine line && pbReady (pb.take i) x) pb with
  | none => .next s
  | some i => .next (s.pbDrain k i)

/-- HOME_ATOM: the oldest atomic of a cluster's waves that waits for a line reaches its home. -/
def execHomeAtom (k line : Nat) (s : State) : Out :=
  let hit (p : Pend) : Bool := match p.atoms with | x :: _ => x.fn < 16 && kindHasProt x.kind && x.addr / 128 == line | [] => false
  match s.waves.find? fun p => clusterOfKey p.1 == k && p.2.pend.any hit with
  | none => .next s
  | some p => match firstIdx (fun _ x => hit x) p.2.pend with
    | none => .next s
    | some i => .next (s.applyAtom p.1 i)

/-- What a cluster's request that no access made tells the home: the line's own slot. -/
def State.plainReq (s : State) (k line : Nat) : Req :=
  { cluster := some k, core := none, slot := match tfind s.dir line with | some d => d.slot | none => 0, lease := 1, rfmt := false }

/-- An event of a cluster at a line that has a directory entry. -/
def State.clusterEvent (s : State) (k line ev : Nat) : State :=
  if (tfind s.dir line).isNone then s else (s.homeEvent line ev (s.plainReq k line) id 0 0).1

/-- READ: a copy-engine read of a line, by a cluster with a copy running. -/
def execReadReq (k line : Nat) (s : State) : Out :=
  if (s.cluster k).slots.isEmpty then .next s else .next ((s.flushHq line).clusterEvent k line 4)

/-- EVICT: a cluster drops a clean copy that it does not own, and says so (R266). -/
def execEvict (k line : Nat) (s : State) : Out :=
  if (s.cluster k).copies.any (·.line == line) && !(s.cluster k).pb.any (·.ofLine line) && !s.owns k line then
    .next ((s.modCluster k (·.dropCopy line)).clusterEvent k line 5)
  else .next s

/-- WBACK: an owner sends its dirty bytes of a line and drops its copy. -/
def execWback (k line : Nat) (s : State) : Out := if s.owns k line then .next (s.giveUpLine k line) else .next s

/-- FPUB: a forced-publish notice of a cairn reaches a cluster. -/
def execFpub (k cairn : Nat) (s : State) : Out := .next (s.forceCairn k cairn)

/-- The oldest range operation of some kinds that still has a line to handle: its wave and its place among the wave's. -/
def State.jobOn (s : State) (kind line : Nat) : Option (Nat × Nat) :=
  ((List.range 4).map fun p => ((s.part p).ranges.filter fun j => j.kind == kind && j.lines.contains line).map fun j =>
    (j.wave, ((s.part p).ranges.filter (·.wave == j.wave)).idxOf j)).flatten.head?

/-- A range operation reaches a line. -/
def State.jobLine (s : State) (kind line : Nat) : State :=
  match s.jobOn kind line with
  | none => s
  | some (wave, i) => s.rangeStep wave i line

/-- FLUSH: RFLUSH reaches a line. -/
def execFlush (line : Nat) (s : State) : Out := .next (s.jobLine 2 line)
/-- DISC: RINV reaches a line. -/
def execDisc (line : Nat) (s : State) : Out := .next (s.jobLine 0 line)

/-- NEUT: a line is neutralised ahead of a protocol to be installed in its slot, or RINV.WB reaches it. -/
def execNeut (line : Nat) (s : State) : Out :=
  let slot := match tfind s.dir line with | some d => d.slot | none => 16
  if (s.part (partOfLine line)).protjobs.any (·.slot == slot) then .next (s.neut line) else .next (s.jobLine 1 line)

/-- PART: a core's partial that the home does not know of is registered. -/
def execPart (core line : Nat) (s : State) : Out :=
  if (s.core core).parts.any (·.line == line) && !((tfind s.dir line).any fun d => d.partials.contains core) then
    .next (s.homeEvent line 11 (reqOf core (s.dirOf line 0).slot 16) id 0 0).1
  else .next s

/-- RECALL: an owner sends its dirty bytes of a line, and gives up or keeps its copy. (log 32, DEDUCED) -/
def execRecall (k line : Nat) (keep : Bool) (s : State) : Out :=
  if !s.owns k line then .next s
  else if keep then .next ((s.flushHq line).recallFrom k line) else .next (s.giveUpLine k line)

/-! ### Translation (15 R310–R313) -/

/-- PAGE_WALK: a cluster's translation unit walks for a linear address of a context, in its own page table or (number 4096 + its id) in the
supervisor's. (log 47, DEDUCED) -/
def execPageWalk (k ctx linear : Nat) (s : State) : Out :=
  let p := k / 12
  let sup := decide (supKey ≤ ctx)
  let id := ctx % supKey
  match (s.ctxRec p id).map fun b => if sup then (s.part p).svpt else recPtroot b with
  | none => .next s
  | some r =>
    match ([2, 3, 4, 5].map fun kind => s.walk kind linear 3 r).find? fun x => match x with | .page .. => true | _ => false with
    | some (.page pg bits pa wp) => .next (s.modCluster k fun c =>
        if c.tlb.any (fun t => t.ctx == id && t.sup == sup && t.page == pg && t.bits == bits) then c
        else { c with tlb := (if c.tlb.length < Config.tlbEntries then c.tlb else c.tlb.drop 1) ++
                        [{ ctx := id, sup := sup, page := pg, bits := bits, pa := pa, wp := wp }] })
    | _ => .next s

/-- A shootdown is sent to every cluster of a partition. One of a selector whose XREV is set clears it when all have
acknowledged (R313, R314). -/
def State.shootAll (s : State) (p mode ctx sel : Nat) (fin : Option (Nat × Nat × Nat)) : State :=
  let id := (s.part p).shootctr
  let ks := (List.range 12).map (12 * p + ·)
  let xrev := match if mode = 2 then s.descPA p ctx true sel else none with
    | some pa => if bitOf (s.homeNat (pa + 8) 8) 53 then some (ctx, sel) else none
    | none => none
  let s1 := ks.foldl (fun s k => s.modCluster k fun c => { c with shoots := c.shoots ++ [{ id := id, mode := mode, ctx := ctx, sel := sel }] }) s
  s1.modPart p fun x => { x with shootctr := id + 1, waiting := x.waiting ++ [{ id := id, left := ks, xrev := xrev, fin := fin }] }

/-- Whether a shootdown covers something cached under a context id and a selector. -/
def Shoot.hits (x : Shoot) (ctx sel : Nat) : Bool := x.mode == 0 || (x.ctx == ctx && (x.mode == 1 || x.sel == sel))

/-- The data lines of a cluster that a shootdown covers: copies, under any of their tags, and publish-buffer entries. (log 47, DEDUCED) -/
def Cluster.shotLines (c : Cluster) (x : Shoot) : List Nat :=
  ((c.copies.filter fun y => y.tags.any fun t => x.hits t.via.ctx t.via.sel).map (·.line) ++
    ((c.pb.map PItem.entries).flatten.filter fun e => x.hits e.via.ctx e.via.sel && e.kind != 1).map (·.line)).dedup

/-- Clear a descriptor's XREV bit. (log 47, DEDUCED) -/
def State.clearXrev (s : State) (p ctx sel : Nat) : State :=
  match s.descPA p ctx true sel with
  | none => s
  | some pa =>
      let w1 := s.homeNat (pa + 8) 8
      if bitOf w1 53 then s.agentWrite (pa + 8) (leBytes 8 (w1 - 2 ^ 53)) false else s

/-- What follows when every cluster has acknowledged. -/
def State.shootOver (s : State) (p : Nat) (x : ShootWait) : State :=
  let s1 := match x.xrev with | some (ctx, sel) => s.clearXrev p ctx sel | none => s
  match x.fin with | some (team, wid, op) => s1.donePartOf team wid op | none => s1

/-- A cluster acknowledges a shootdown. -/
def State.ackShoot (s : State) (k id : Nat) : State :=
  let p := k / 12
  match (s.part p).waiting.find? (·.id == id) with
  | none => s
  | some x =>
      let left := srem x.left k
      if left.isEmpty then (s.modPart p fun y => { y with waiting := y.waiting.filter (·.id != id) }).shootOver p x
      else s.modPart p fun y => { y with waiting := y.waiting.map fun z => if z.id == id then { x with left := left } else z }

/-- A cluster carries out a shootdown: descriptors, translations, data lines, instruction lines (R313). (log 47, DEDUCED) -/
def State.shootOne (s : State) (k : Nat) (x : Shoot) : State :=
  let s1 := (s.deliverAll k).modCluster k fun c =>
    { c with desc := c.desc.filter fun d => !x.hits d.ctx d.sel,
             tlb := c.tlb.filter fun t => !(x.mode == 0 || x.ctx == t.ctx) }
  let lines := (s1.cluster k).shotLines x
  let s2 := lines.foldl (fun s line => s.giveUpLine k line) s1
  s2.modCluster k fun c =>
    { c with icache := c.icache.filter fun l => !x.hits l.ctx l.sel, latt := c.latt.filter fun l => !x.hits l.ctx l.sel }

/-- SHOOTDOWN: the oldest shootdown that a cluster has not carried out. -/
def execShootdown (k : Nat) (s : State) : Out :=
  match (s.cluster k).shoots with
  | [] => .next s
  | x :: rest => .next (((s.modCluster k fun c => { c with shoots := rest }).shootOne k x).ackShoot k x.id)

/-! ### Released pins (R327) -/

/-- A bit of a number is set or cleared. -/
def putBit (x i : Nat) (b : Bool) : Nat := if bitOf x i == b then x else if b then x + 2 ^ i else x - 2 ^ i

/-- One step at a segment's descriptor: DRAIN changes by `n`, BND is cleared if `unbind`, PINNED follows; when nothing binds the
segment and none of its calls runs, it is detached, with a shootdown of it (R326, R327). -/
def State.drainStep (s : State) (p ctx sel : Nat) (n : Int) (unbind : Bool) (fin : Option (Nat × Nat × Nat)) : State :=
  match s.descPA p ctx true sel with
  | none => s
  | some pa =>
      let d := descOf (s.homeBytes pa 32)
      let w1 := s.homeNat (pa + 8) 8
      let w3 := s.homeNat (pa + 24) 8
      let dr := narrow 32 (d.drain + n)
      let bnd := d.bnd && !unbind
      let off := !bnd && dr == 0
      let v1 := putBit (putBit (putBit w1 54 bnd) 50 (!bnd && dr != 0)) 51 (d.detached || off)
      let s1 := (s.agentWrite (pa + 8) (leBytes 8 v1) false).agentWrite (pa + 24) (leBytes 8 (w3 % 2 ^ 20 + dr * 2 ^ 20 + w3 / 2 ^ 52 * 2 ^ 52)) false
      if off then (s1.dropTrans p (imgKey ctx sel) sel 0 (2 ^ 44)).shootAll p 2 ctx sel fin else s1

/-- PIN_RELEASE: the next step of the oldest released pin: at its binding entry, then, when the entry has moved on, at the
descriptor. -/
def execPinRelease (part : Nat) (s : State) : Out :=
  match (s.part part).unpins with
  | [] => .next s
  | (ctx, f, false) :: rest =>
      match s.entryPA part ctx f.bidx with
      | none => .next (s.modPart part fun x => { x with unpins := (ctx, f, true) :: rest })
      | some pa =>
          if s.homeNat pa 4 / 4 == f.gen then
            .next ((s.modPart part fun x => { x with unpins := rest }).agentWrite (pa + 8) (leBytes 4 ((s.homeNat (pa + 8) 4 + 2 ^ 32 - 1) % 2 ^ 32)) false)
          else .next (s.modPart part fun x => { x with unpins := (ctx, f, true) :: rest })
  | (ctx, f, true) :: rest => .next ((s.modPart part fun x => { x with unpins := rest }).drainStep part ctx f.sel (-1) false none)

/-- PARKED_WAKE: a parked split wakes and executes its LNK or CALLL again (R323). -/
def execParkedWake (k e : Nat) (s : State) : Out :=
  match s.wave? k with
  | none => .next s
  | some w => if (w.split e).wait.any (·.kind == 9) then .next (s.endWaitOf k e) else .next s

end Sys2Proof.Machine
end

