-- ==== Sys2Proof/Machine/Segment.lean ====
section
/-! DEFINITION. Names, binding, descriptors and shootdowns (15 R305–R329). -/

namespace Sys2Proof.Machine

/-! ### Links (R318) -/

/-- A link entry: BIDX, NLEN, NOFF, EKIND, and whether a reserved bit is set. -/
structure Link where
  bidx  : Nat
  nlen  : Nat
  noff  : Nat
  ekind : Nat
  bad   : Bool
  deriving DecidableEq, Repr

/-- Bytes of the wave's code segment as the Ovyen reads them: its rights need no R; a marked byte is POISON cause 5 (18 R349). -/
def State.codeBytes (s : State) (u : Who) (core : Nat) (w : Wave) (off n : Nat) : Except AFault (List Byte) :=
  match s.checkRange u { right := 2, kinds := [6], size := n, align := 0, write := false } 0 (segAddr w.codesel off) with
  | .error f => .error f
  | .ok a => match s.badExpand u n a with
    | some f => .error f
    | none =>
        let b := s.rangeBytes u core w 3 0 n a
        if b.any (·.2) then .error { code := fPOISON, cause := 5, addr := segAddr w.codesel off } else .ok (b.map (·.1))

/-- The entry of a link index in the table of the image at offset 0 of the code segment; none for an index at or above LINKN. A table that
cannot be read is the fault of its read. (log 44, DEDUCED) -/
def State.linkAt (s : State) (u : Who) (core : Nat) (w : Wave) (i : Nat) : Except AFault (Option Link) :=
  match s.codeBytes u core w 24 8 with
  | .error f => .error f
  | .ok h =>
    if natAt h 4 2 ≤ i then .ok none
    else match s.codeBytes u core w (natAt h 0 4 + 16 * i) 16 with
    | .error f => .error f
    | .ok b =>
        let w0 := natAt b 0 4
        .ok (some { bidx := bitsOf w0 0 20, nlen := bitsOf w0 24 8, noff := natAt b 4 4, ekind := natAt b 8 4 % 8,
                    bad := bitsOf w0 20 4 != 0 || natAt b 8 4 / 8 != 0 || natAt b 12 4 != 0 })

/-- An instruction reports a fault of the Ovyen's read for it, for its active lanes, or lane 0. -/
def State.readFault (s : State) (c : Cur) (w : Wave) (m : LaneMask) (f : AFault) : State :=
  s.fault c w f.code f.cause (orLane0 m) ((lanesOf (orLane0 m)).map fun l => (l, f.addr))

/-- A poisoned word of the Ovyen's own tables (18 R349). -/
def poisonAt (pa : Nat) : AFault := { code := fPOISON, cause := 5, addr := BitVec.ofNat 64 pa }

/-- The registers a LINKAGE trap of a binding step writes (R301, R320). (log 44, DEDUCED) -/
def Wave.linkRegs (w : Wave) (idx : Nat) (l : Link) (gen : Nat) (claim : Bool) : Wave :=
  { w with linkidx := BitVec.ofNat 32 (idx + l.nlen * 2 ^ 16), linkent := BitVec.ofNat 32 (l.bidx + bnat claim * 2 ^ 31),
           linkgen := BitVec.ofNat 32 gen, linkname := segAddr w.codesel l.noff }

/-- Raise LINKAGE for the executing instruction's active lanes, its registers written. (log 44, DEDUCED) -/
def State.linkage (s : State) (c : Cur) (w : Wave) (m : LaneMask) (regs : Wave → Wave) (sub : Nat) : State :=
  (s.modWave c.wave regs).fault c w fLINKAGE sub (orLane0 m) []

/-- LINKAGE before a link entry was read: what LINKIDX beyond the index, LINKENT, LINKGEN and LINKNAME then hold is not stated, and
is free; no claim is held through them (log 2). (log 44, DEDUCED) -/
def State.linkageBare (s : State) (c : Cur) (w : Wave) (m : LaneMask) (idx sub : Nat) : State :=
  let a := s.draw
  let b := a.2.draw
  let e := b.2.draw
  let f := e.2.draw
  let l : Link := { bidx := a.1.toNat % 2 ^ 20, nlen := b.1.toNat % 2 ^ 8, noff := f.1.toNat, ekind := 7, bad := true }
  f.2.linkage c w m (·.linkRegs idx l (e.1.toNat % 2 ^ 30) false) sub

/-- What a binding step gives the wave: the segment bound, or the state after a trap or a wait. -/
inductive Bound where
  | ok (s : State) (l : Link) (gen sel : Nat)
  | stop (s : State)

/-- The step at a binding entry (R320): a call adds a pin. -/
def State.entryStep (s : State) (c : Cur) (w : Wave) (m : LaneMask) (idx pa : Nat) (l : Link) (call : Bool) : Bound :=
  let e := s.homeNat pa 4
  let gen := e / 4
  if e % 4 = 2 then
    let s1 := if call then s.agentWrite (pa + 8) (leBytes 4 ((s.homeNat (pa + 8) 4 + 1) % 2 ^ 32)) false else s
    .ok (s1.acquire (clusterOfKey c.wave) 3) l gen (s.homeNat (pa + 4) 4 % 2 ^ 20)
  else if e % 4 = 0 then
    let s1 := (s.agentWrite pa (leBytes 4 (e + 1)) false).agentWrite (pa + 12) (leBytes 4 s.gts) false
    .stop (s1.linkage c w m (·.linkRegs idx l gen true) 1)
  else if e % 4 = 1 then .stop (s.hold c w { kind := 9, arg := l.bidx, dead := 0, done := false })
  else .stop (s.linkage c w m (·.linkRegs idx l gen false) 2)

/-- The binding step of R320. A context without a valid record has no entry (R423). (log 44, DEDUCED) -/
def State.bindStep (s : State) (c : Cur) (w : Wave) (m : LaneMask) (idx : Nat) (call : Bool) : Bound :=
  let u := s.who c w
  match s.linkAt u (coreOfKey c.wave) w idx with
  | .error f => if (s.ctxRec u.part u.ctx).isNone then .stop (s.linkageBare c w m idx 4) else .stop (s.readFault c w m f)
  | .ok none => .stop (s.linkageBare c w m idx 4)
  | .ok (some l) =>
    match if l.bad then none else s.entryPA u.part u.ctx l.bidx with
    | none => .stop (s.linkage c w m (·.linkRegs idx l 0 false) 4)
    | some pa => if s.marked pa 16 then .stop (s.readFault c w m (poisonAt pa)) else s.entryStep c w m idx pa l call

/-- A parked split whose entry has not changed goes on waiting. -/
def Split.parked (x : Split) : Bool := match x.wait with | some r => r.kind == 9 && !r.done | none => false

/-- LNK (R321). -/
def execLnk (o : LnkOp) (s : State) : Out :=
  s.run fun c w =>
    let x := c.split w
    let m := w.actLanes x o.ctl.pred o.ctl.neg
    let vec := match o.d with | .v _ => true | .s _ => false
    s.withReads c w [(o.a, 1)] (predRegs o.ctl.pred) m <|
      if vec && m = 0 then s.done c w
      else if x.parked then s
      else
        let idx := (w.src x 0 o.a).toNat % 2 ^ 16
        match s.bindStep c w m idx false with
        | .stop t => t
        | .ok t l gen sel =>
          match t.descBytes (t.who c w) sel with
          | .poison pa => t.readFault c w m (poisonAt pa)
          | d =>
            let kind := match d with | .ok b => (descOf b).kind | _ => 8
            if l.ekind != 7 && l.ekind != kind then t.linkage c w m (·.linkRegs idx l gen false) 5
            else (t.keepDesc (t.who c w) sel).done c (w.putD64 m o.d.asDst fun _ => segAddr sel 0)

/-- The wave enters a callee (R322, R330). -/
def Wave.enterCallee (w : Wave) (c : Cur) (d : Nat) (f : LFrame) : Wave :=
  let w1 := (w.putReturn c d (c.split w).lanes).modSplit c.entry (·.goto 0x40)
  { w1 with links := w1.links ++ [f], codesel := f.sel }

/-- CALLL whose condition holds at every lane: the checks of R322, the binding step, the call. (log 44, DEDUCED) -/
def State.calllGo (s : State) (c : Cur) (w : Wave) (d idx : Nat) : State :=
  let m := (c.split w).em
  if !w.converged c.entry then s.linkageBare c w m idx 7
  else if 8 ≤ w.links.length then s.linkageBare c w m idx 6
  else match s.bindStep c w m idx true with
    | .stop t => t
    | .ok t l gen sel =>
      let u := t.who c w
      let f : LFrame := { bidx := l.bidx, gen := gen, sel := sel }
      match t.descBytes u sel with
      | .poison pa => (t.dropPin u.part u.ctx f).readFault c w m (poisonAt pa)
      | got =>
        let good := match got with
          | .ok b => (descOf b).kind == 6 && (descOf b).x && decide (0x40 < (descOf b).limit)
          | _ => false
        if good then (t.keepDesc u sel).modWave c.wave (·.enterCallee c d f)
        else (t.dropPin u.part u.ctx f).linkage c w m (·.linkRegs idx l gen false) 5

/-- CALLL (R322). -/
def execCalll (o : CalllOp) (s : State) : Out :=
  s.run fun c w =>
    let x := c.split w
    let cond := w.condLanes o.ctl
    let mt := x.em &&& cond
    s.withReads c w [(o.a, 1)] (predRegs o.ctl.pred) x.em <|
      if mt = 0 then s.done c w
      else if mt != x.em then s.fault c w tUNIFORM 0 (oddLanes x.em (laneOf cond)) []
      else if x.parked then s
      else s.calllGo c w o.d ((w.src x 0 o.a).toNat % 2 ^ 16)

/-! ### Binding (R325, R326) -/

/-- A packed operand: context and index. At user level the context is the wave's own (R305). -/
def packedOf (u : Who) (v : Nat) : Nat × Nat := (if u.sup then v / 2 ^ 20 else u.ctx, v % 2 ^ 20)

/-- The wave's release of some scope goes first: the instruction goes on once its marker has left. (log 23, DESIGN CHOICE; log 45, DEDUCED) -/
def State.afterRelease (s : State) (c : Cur) (w : Wave) (kind scope : Nat) (go : State → Wave → State) : State :=
  match (c.split w).wait with
  | none =>
      let q := w.newOp none 1
      (s.hold c q.1 { kind := kind, arg := q.2, dead := 0, done := false }).release c.wave scope none q.2
  | some r => if (tfind w.ops r.arg).isSome then s else go s w

/-- The binding entry of a context that an instruction may name (R306 cause 16). (log 45, DEDUCED) -/
def State.nameable (s : State) (p ctx idx : Nat) : Option Nat := s.entryPA p ctx idx

/-- The cause BIND is refused for, 0 for none; `sel` is absent under .FAIL. (log 45, DEDUCED) -/
def State.bindCause (s : State) (p ctx idx : Nat) (sel : Option Nat) : Nat :=
  if (s.nameable p ctx idx).isNone then 16
  else match sel with
    | none => 0
    | some sel => match s.descPA p ctx true sel with
      | none => 16
      | some pa =>
          let d := descOf (s.homeBytes pa 32)
          if !d.valid || d.detached || d.bnd || d.drain != 0 then 17 else 0

/-- The claim the wave holds on an entry is over (R325 step 5). -/
def Wave.clearClaim (w : Wave) (own : Bool) (idx : Nat) : Wave :=
  if own && w.linkent.getLsbD 31 && w.linkent.toNat % 2 ^ 20 == idx then { w with linkent := w.linkent &&& 0x7FFFFFFF#32 } else w

/-- The steps of a BIND at the descriptor and the entry (R325 steps 2–4): BND and BIDX, then the entry; an entry that was BOUND
stays as it stands, and BND is cleared again. (log 45, DEDUCED) -/
def State.bindSteps (s : State) (p ctx idx pa : Nat) (sel : Option Nat) : State :=
  let e := s.homeNat pa 4
  let bound := e % 4 == 2
  let s1 := match sel.bind fun x => s.descPA p ctx true x with
    | none => s
    | some da =>
        let w1 := putBit (putBit (s.homeNat (da + 8) 8) 54 (!bound)) 50 false
        let w3 := s.homeNat (da + 24) 8
        (s.agentWrite (da + 8) (leBytes 8 w1) false).agentWrite (da + 24) (leBytes 8 (w3 / 2 ^ 20 * 2 ^ 20 + idx)) false
  let s2 := if bound then s1
    else match sel with
      | none => s1.agentWrite pa (leBytes 4 (e / 4 * 4 + 3) ++ leBytes 4 0) false
      | some x => s1.putEntry pa 2 (e / 4) x 0
  s2.wakeParked p ctx idx

/-- The poisoned word, if one is marked, of what BIND reads: the entry and the descriptor. -/
def State.bindMark (s : State) (p ctx idx : Nat) (sel : Option Nat) : Option Nat :=
  let at_ (x : Option Nat) (n : Nat) : Option Nat := match x with | some pa => if s.marked pa n then some pa else none | none => none
  match at_ (s.nameable p ctx idx) 16 with
  | some pa => some pa
  | none => at_ (sel.bind fun x => s.descPA p ctx true x) 32

/-- An instruction that a check refuses once its release is over has no effect: its operation is as if it had not begun (R306). -/
def Wave.undoOp (w : Wave) (op : Nat) : Wave := (w.donePart op).donePart op

/-- BIND and BIND.FAIL: the checks, the release of SYSTEM scope, the checks again, the steps. Its operation has two parts, the
release and the steps. (log 45, DEDUCED) -/
def State.bindOp (s : State) (ctl : Ctl) (d : Dst) (a : Src) (b : Option Nat) : Out :=
  s.run fun c w =>
    if !w.clvl then s.illegal c w cUNDEFOP
    else s.withReads c w ([(a, 1)] ++ (match b with | some r => [(.s r, 1)] | none => [])) [] (c.split w).em <|
      let u := s.who c w
      let q := packedOf u (w.src (c.split w) 0 a).toNat
      let sel := b.map fun r => (w.s r).toNat % 2 ^ 20
      let cause := s.bindCause u.part q.1 q.2 sel
      let refuse (s : State) (w : Wave) (go : State) : State :=
        if 0 < cause then s.illconv c w cause
        else match s.bindMark u.part q.1 q.2 sel with
          | some pa => s.readFault c w (c.split w).em (poisonAt pa)
          | none => go
      match (c.split w).wait with
      | none =>
          let r := w.newOp ctl.setf 2
          refuse s w ((s.hold c r.1 { kind := 0, arg := r.2, dead := 0, done := false }).release c.wave 4 none r.2)
      | some r =>
          if (tfind w.ops r.arg).any (1 < ·.left) then s
          else
            let w0 := w.undoOp r.arg
            refuse (s.putWave c.wave w0) w0 (match s.nameable u.part q.1 q.2 with
              | none => s
              | some pa =>
                let old := s.homeNat pa 4 % 4
                (s.bindSteps u.part q.1 q.2 pa sel).doneBy c fun w =>
                  ((w.clearClaim (q.1 == u.ctx) q.2).donePart r.arg).putD (c.split w).em d fun _ => BitVec.ofNat 32 old)

/-- (log 43, DESIGN CHOICE) -/
def execBind (o : BindOp) (s : State) : Out := s.bindOp o.ctl o.d o.a (some o.b)
def execBindFail (o : UnbindOp) (s : State) : Out := s.bindOp o.ctl o.d o.a none

/-- UNBIND (R326). It completes with the acknowledgement of the shootdown it caused, if it caused one. (log 45, DEDUCED) -/
def execUnbind (o : UnbindOp) (s : State) : Out :=
  s.run fun c w =>
    if !w.clvl then s.illegal c w cUNDEFOP
    else s.withReads c w [(o.a, 1)] [] (c.split w).em <|
      let u := s.who c w
      let q := packedOf u (w.src (c.split w) 0 o.a).toNat
      match s.nameable u.part q.1 q.2 with
      | none => s.illconv c w 16
      | some pa =>
        if s.marked pa 16 then s.readFault c w (c.split w).em (poisonAt pa) else
        let e := s.homeNat pa 4
        let next := (e / 4 + 1) % 2 ^ 30
        let w1 := w.putD (c.split w).em o.d fun _ => BitVec.ofNat 32 (e % 4)
        if e % 4 = 2 then
          let sel := s.homeNat (pa + 4) 4 % 2 ^ 20
          let pins := s.homeNat (pa + 8) 4
          let r := w1.newOpIf o.ctl.setf 1
          let s1 := (s.done c r.1).putEntry pa 0 next 0 0
          let s2 := s1.drainStep u.part q.1 sel pins true (some (w.team, w.wid, r.2))
          if (s2.part u.part).shootctr = (s1.part u.part).shootctr then s2.donePart c.wave r.2 else s2
        else if e % 4 = 0 then s.done c w1
        else ((s.done c w1).agentWrite pa (leBytes 4 (next * 4)) false).wakeParked u.part q.1 q.2

/-! ### Descriptors (R307, R308) -/

/-- The descriptor that SEGLD or SEGUPD names: a context that exists, a selector within the table its level reaches. -/
def State.namedDesc (s : State) (u : Who) (ctx sel : Nat) : Option Nat :=
  if (s.ctxRec u.part ctx).isNone then none else s.descPA u.part ctx u.sup sel

/-- SEGLD. (log 46, DEDUCED) -/
def execSegld (o : SegldOp) (s : State) : Out :=
  s.run fun c w =>
    s.withReads c w [(o.a, 1)] [] (c.split w).em <|
      let u := s.who c w
      let q := packedOf u (w.src (c.split w) 0 o.a).toNat
      match s.namedDesc u q.1 q.2 with
      | none => s.illconv c w 16
      | some pa =>
        let s1 := s.agentRead (pa / 128)
        if s1.marked pa 32 then s1.readFault c w (c.split w).em (poisonAt pa)
        else
          let b := s1.homeBytes pa 32
          let writes : List RegWrite := (List.range 8).map fun i => { reg := 192 + o.d + i, lane := 0, val := wordAt b (4 * i) }
          s1.doneBy c fun w =>
            let r := w.newOp o.ctl.setf 1
            let pend : Pend := { op := r.2, regs := sCodes o.d 8, writes := writes, atoms := [], dst := none, wide := false, fpx := 0 }
            { r.1 with pend := r.1.pend ++ [pend] }

/-- The cause SEGUPD is refused for, 0 for none: the old descriptor, the new one's bytes. (log 46, DEDUCED) -/
def segupdCause (old new : Desc) (n : List Byte) : Nat :=
  if new.w && (old.x || old.xrev) then 18
  else if (old.bnd || old.drain != 0) && (new.base != old.base || new.limit != old.limit || new.kind != old.kind || new.valid != old.valid) then 19
  else if new.kind = 7 || (new.w && new.x) || (new.x && new.kind != 6) || (new.w && new.kind == 6) || 2 ^ 57 < new.base + new.limit ||
      new.cairn.toNat % 64 != 0 || bitsOf (natAt n 8 8) 55 9 != 0 || bitsOf (natAt n 24 8) 52 12 != 0 then 20
  else 0

/-- The descriptor's words as SEGUPD leaves them: the device's fields kept; a detached segment made valid is whole again; X taken
away sets XREV. (log 46, DEDUCED) -/
def segupdBytes (o n : List Byte) (old new : Desc) : List Byte :=
  let fresh := new.valid && old.detached
  let v1 := natAt n 8 8
  let w1 := putBit (putBit (putBit (putBit v1 50 (bitOf (natAt o 8 8) 50 && !fresh)) 51 (old.detached && !fresh)) 53 (old.xrev || (old.x && !new.x))) 54 old.bnd
  leBytes 8 (natAt n 0 8) ++ leBytes 8 w1 ++ leBytes 8 (natAt n 16 8) ++ leBytes 8 (if fresh then 0 else natAt o 24 8)

/-- SEGUPD. (log 43, DESIGN CHOICE) -/
def execSegupd (o : SegupdOp) (s : State) : Out :=
  s.run fun c w =>
    if !w.clvl then s.illegal c w cUNDEFOP
    else s.withReads c w [(o.a, 1), (.s o.b, 8)] [] (c.split w).em <|
      let u := s.who c w
      let q := packedOf u (w.src (c.split w) 0 o.a).toNat
      match s.namedDesc u q.1 q.2 with
      | none => s.illconv c w 16
      | some pa =>
        if s.marked pa 32 then s.readFault c w (c.split w).em (poisonAt pa)
        else
          let b := s.homeBytes pa 32
          let n := ((List.range 8).map fun i => leBytes 4 (w.s (o.b + i)).toNat).flatten
          let cause := segupdCause (descOf b) (descOf n) n
          if 0 < cause then s.illconv c w cause
          else
            let s1 := s.agentWrite pa (segupdBytes b n (descOf b) (descOf n)) false
            let s2 := (s1.shootAll u.part 2 q.1 q.2 none).doneBy c id
            if (descOf b).x != (descOf n).x then s2.dropTrans u.part (imgKey q.1 q.2) q.2 0 (2 ^ 44) else s2

/-- The right SEGCHK asks for. -/
def accRight : Acc → Nat
  | .r => 0 | .w => 1 | .x => 2 | .a => 3 | .c => 6

/-- SEGCHK's bit of a lane. (log 46, DEDUCED) -/
def State.segchkBit (s : State) (u : Who) (acc : Acc) (n : Nat) (ea : DWord) : Bool :=
  if n = 0 then selOf ea != 0 && (match s.descBytes u (selOf ea) with | .ok _ => true | _ => false)
  else match s.checkSeg u { right := accRight acc, kinds := kindsAll, size := n, align := 0, write := false } ea with
    | .ok _ => true
    | .error _ => false

/-- SEGCHK: it never faults. (log 46, DEDUCED) -/
def execSegchk (o : SegchkOp) (s : State) : Out :=
  s.run fun c w =>
    let x := c.split w
    let m := w.actLanes x o.ctl.pred o.ctl.neg
    let u := s.who c w
    let n := (w.src x 0 o.b).toNat
    ((lanesOf m).foldl (fun (s : State) l => s.keepDesc u (selOf (w.reg64 o.a l))) s).done c
      (w.putPd o.d m fun l => s.segchkBit u o.acc n (w.reg64 o.a l))

/-! ### Shootdowns (R314, R317) -/

def shootMode : ShootMode → Nat
  | .all => 0 | .context => 1 | .selector => 2

/-- SHOOT: the wave's release of DEVICE scope, then the shootdown to every cluster; nothing waits for the acknowledgements.
(log 43, DESIGN CHOICE; log 45, DEDUCED) -/
def execShoot (o : ShootOp) (s : State) : Out :=
  s.run fun c w =>
    if !w.clvl then s.illegal c w cUNDEFOP
    else s.withReads c w [(o.a, 1), (o.b, 1)] [] (c.split w).em <|
      let ctx := (w.src (c.split w) 0 o.a).toNat % 2 ^ 12
      let sel := (w.src (c.split w) 0 o.b).toNat % 2 ^ 20
      s.afterRelease c w 0 3 fun s w =>
        (s.shootAll (partOfKey c.wave) (shootMode o.mode) ctx sel none).done c w

/-- SHOOTW: the split waits for every shootdown issued before it, then acquires. -/
def execShootw (_ : Ctl) (s : State) : Out :=
  s.run fun c w =>
    if !w.clvl then s.illegal c w cUNDEFOP
    else
      let p := s.part (partOfKey c.wave)
      let n := match (c.split w).wait with | some r => r.arg | none => p.shootctr
      if p.waiting.any (fun x => x.id < n) then s.hold c w { kind := 11, arg := n, dead := 0, done := false }
      else (s.done c w).acquire (clusterOfKey c.wave) 3

/-- Instruction-cache lines and LATT entries of a range go from every cluster of the partition. (log 47, DEDUCED) -/
def State.dropCode (s : State) (p ctx sel lo hi : Nat) : State :=
  ((List.range 12).map (12 * p + ·)).foldl (fun s k => s.modCluster k fun c =>
    { c with icache := c.icache.filter fun l => !(l.ctx == ctx && l.sel == sel && lo ≤ l.idx && l.idx < hi),
             latt := c.latt.filter fun l => !(l.ctx == ctx && l.sel == sel && lo ≤ l.idx && l.idx < hi) }) s

/-- ICINV: the checks, the release of DEVICE scope, then the lines go, and the split moves on. (log 45, DEDUCED) -/
def execIcinv (o : RangeOp) (s : State) : Out :=
  s.run fun c w =>
    s.withReads c w [(.s o.a, 2), (o.b, 1)] [] (c.split w).em <|
      let u := s.who c w
      let ea := w.s64 o.a
      let n := (w.src (c.split w) 0 o.b).toNat
      if n = 0 then s.done c w
      else match s.rangeCheck u 2 [6] n ea with
        | .error f => s.uniFault c w f
        | .ok a =>
          (s.keepFor u a 0).afterRelease c w 12 3 fun s w =>
            let s1 := s.dropCode u.part u.ctx (selOf ea) (offOf ea / 128) ((offOf ea + n) / 128)
            (s1.done c w).dropTrans u.part (imgKey u.ctx (selOf ea)) (selOf ea) (offOf ea) (offOf ea + n)

end Sys2Proof.Machine
end

