-- ==== Sys2Proof/Machine/Recovery.lean ====
section
/-! DEFINITION. The recovery instructions: SPLITRD, SPLITWR, FLAGWR, containment regions, capacities, the audit signature, poison injection; corrected errors, retirement and evacuation (17 R341–R347, 18 R348–R363, R373). -/

namespace Sys2Proof.Machine

/-! ### SPLITRD and SPLITWR (17 R343–R346) -/

/-- A word that an index of SPLITRD or SPLITWR names. (log 9, DESIGN CHOICE) -/
inductive Named where
  | ent (e word : Nat)
  | frm (e j word : Nat)
  | wait (e word : Nat)
  | bar (n word : Nat)
  | hdl (h word : Nat)
  deriving DecidableEq, Repr

/-- The word of an index; none for a reserved bit or a number out of range (R344). (log 9, DESIGN CHOICE) -/
def nameOf (sp : Space) (v : Nat) : Option Named :=
  match sp with
  | .ent => if v < 64 && v % 8 < 5 then some (.ent (v / 8) (v % 8)) else none
  | .frm => if v < 1024 && v % 8 < 5 then some (.frm (v / 8 % 8) (v / 64) (v % 8)) else none
  | .wait => if v < 64 && !bitOf v 2 && v % 4 != 1 then some (.wait (v / 8) (v % 4)) else none
  | .bar => if v < 1024 && v / 16 < 33 then some (.bar (v % 16) (v / 16)) else none
  | .hdl => if v < 32 then some (.hdl (v % 16) (v / 16)) else none

/-- Whether a space belongs to the frozen split table, which only a handler may name. -/
def spaceFrozen (sp : Space) : Bool := match sp with | .ent | .frm | .wait => true | .bar | .hdl => false

/-- The value SPLITRD reads. -/
def Wave.nameVal (w : Wave) (t : Team) (n : Named) : Nat :=
  match n with
  | .ent e k => if (w.split e).valid then ({ w.split e with widx := 0 }).words.getD k 0 else 0
  | .frm e j k => if (w.split e).valid then (match (w.split e).frames[j]? with | some f => f.words.getD k 0 | none => 0) else 0
  | .wait e k =>
      if !(w.split e).valid then 0
      else match (w.split e).wait with
        | none => 0
        | some r => if k = 0 then r.kind % 16 else if k = 2 then r.dead % 2 ^ 32 else r.dead / 2 ^ 32
  | .bar n k => if k = 0 then (t.bar n).phase else (tget 0 (t.bar n).arrived (k - 1)).toNat
  | .hdl h k =>
      let x := tget { off := 0, gen := 0, loaded := false } t.handles h
      if k = 0 then x.off else x.gen + bnat x.loaded * 2 ^ 16

def execSplitrd (o : SplitrdOp) (s : State) : Out :=
  s.run fun c w =>
    s.withReads c w [(o.a, 1)] [] (c.split w).em <|
      if spaceFrozen o.space && !w.intrap then s.illconv c w 23
      else match nameOf o.space (w.src (c.split w) 0 o.a).toNat, s.team? w.team with
        | some n, some t => s.done c ((w.putS o.d (BitVec.ofNat 32 (w.nameVal t n))).wrote [errS o.d])
        | _, _ => s.illconv c w 21

/-- The word index that SWIDX holds for an entry becomes 0. -/
def Wave.clearSwidx (w : Wave) (e : Nat) : Wave :=
  if e < 6 then { w with swidx0 := w.swidx0 - bitsOf w.swidx0 (5 * e) 5 * 2 ^ (5 * e) }
  else { w with swidx1 := w.swidx1 - bitsOf w.swidx1 (5 * (e - 6)) 5 * 2 ^ (5 * (e - 6)) }

/-- SPLITWR of an entry: EM, the PC, or PCHI. -/
def Wave.writeEnt (w : Wave) (e k v : Nat) : Wave :=
  if k = 1 then w.modSplit e fun x => { x with em := BitVec.ofNat 32 v &&& x.lanes }
  else if k = 2 then (w.modSplit e fun x => { x with pc := x.pc / 2 ^ 32 * 2 ^ 32 + v }).clearSwidx e
  else (w.modSplit e fun x => { x with pc := x.pc % 2 ^ 32 + v % 2 ^ 12 * 2 ^ 32 }).clearSwidx e

/-- SPLITWR of a barrier: one step at it, which never completes it. -/
def Team.writeBar (t : Team) (n k v : Nat) : Team :=
  let b := t.bar n
  { t with bars := tput t.bars n (if k = 0 then { b with phase := v } else { b with arrived := tset 0 b.arrived (k - 1) (BitVec.ofNat 32 v) }) }

/-- SPLITWR of a handle: its offset, or its generation and loaded bit, its operand-cache lines discarded. -/
def Team.writeHdl (t : Team) (h k v : Nat) : Team :=
  let x := tget { off := 0, gen := 0, loaded := false } t.handles h
  if k = 0 then { t with handles := tput t.handles h { x with off := v } }
  else { t with handles := tput t.handles h { x with gen := v % 2 ^ 16, loaded := bitOf v 16 },
                ocache := t.ocache.filter (·.1 != h) }

/-- The cause SPLITWR is refused for, 0 for none: 23, then 22, then 21 (R346). -/
def Wave.splitwrCause (w : Wave) (sp : Space) (i v : Nat) : Nat :=
  if spaceFrozen sp && !w.intrap then 23
  else match sp with
    | .frm | .wait => 22
    | .ent => if i % 8 = 0 || i % 8 = 3 then 22 else if (nameOf sp i).isNone || !(w.split (i / 8 % 8)).valid then 21 else 0
    | .bar => if !w.clvl then 22 else if (nameOf sp i).isNone then 21 else 0
    | .hdl => if !w.clvl then 22 else if (nameOf sp i).isNone || (i / 16 = 0 && v % 128 != 0) then 21 else 0

def execSplitwr (o : SplitwrOp) (s : State) : Out :=
  s.run fun c w =>
    s.withReads c w [(o.a, 1), (o.b, 1)] [] (c.split w).em <|
      let i := (w.src (c.split w) 0 o.a).toNat
      let v := (w.src (c.split w) 0 o.b).toNat
      let cause := w.splitwrCause o.space i v
      if 0 < cause then s.illconv c w cause
      else match nameOf o.space i with
        | some (.ent e k) => s.done c (w.writeEnt e k v)
        | some (.bar n k) => (s.modTeam w.team (·.writeBar n k v)).done c w
        | some (.hdl h k) => (s.modTeam w.team (·.writeHdl h k v)).done c w
        | _ => s.done c w

/-! ### FLAGWR (17 R347) -/

def execFlagwrSet (_ : Ctl) (k : Nat) (a : Src) (s : State) : Out :=
  s.run fun c w =>
    s.withReads c w [(a, 1)] [] (c.split w).em <|
      let n := (w.src (c.split w) 0 a).toNat
      if 63 < n then s.illconv c w 21 else s.done c (w.putFlag k n)

/-- What the device writes of a wave into the machine block of its save area when its save ends (R341), by offset. -/
def State.machineBlock (s : State) (t : Team) (w : Wave) : List (Nat × List Byte) :=
  [(0, leBytes 4 (1 + w.kern.vregs / 8 * 2 ^ 8 + w.kern.sregs * 2 ^ 13 + (w.hm.length + w.he.length) % 4 * 2 ^ 19 + w.hc.length % 32 * 2 ^ 21)),
   (4, leBytes 4 w.isel), (8, leBytes 8 s.gts), (0x10, wordBytes [t.gridid, t.linear, w.wid]),
   (0xC0, wordBytes ((List.range 12).map w.flag)), (0xF0, ((List.range 8).map fun i => leBytes 1 (tget 0 w.guards i)).flatten),
   (0x100, wordBytes [w.fpstat.toNat, w.rngLo.toNat, w.rngHi.toNat, w.rngStream.toNat, w.rngStep.toNat, w.swidx0, w.swidx1]),
   (0x11C, wordBytes [w.linkidx.toNat, w.linkent.toNat, w.linkgen.toNat, w.linksel.toNat, w.linkname.toNat % 2 ^ 32, w.linkname.toNat / 2 ^ 32,
      w.links.length]),
   (0x340, wordBytes ([w.cframes.length] ++ ((List.range 4).map fun f =>
      [w.crField f (·.off % 2 ^ 32), w.crField f CFrame.info, w.crField f (·.sel)]).flatten)),
   (0x380, wordBytes [w.audCore.toNat, w.audTeam.toNat, w.audGrid.toNat]),
   (0x390, wordBytes ((List.range 16).map (tget 0 w.bara))), (0x3D0, leBytes 4 (w.baraV.foldl (fun a n => a + 2 ^ n) 0))] ++
  ((List.range 8).map fun f => (0x140 + 16 * f, wordBytes [w.linkField f (·.bidx), w.linkField f (·.gen), w.linkField f (·.sel)])) ++
  ((List.range 8).map fun e => (0x400 + 16 * e, leBytes 4 (((w.split e).wait.map (·.kind)).getD 0 % 16))) ++
  ((List.range 8).map fun e => (0x408 + 16 * e, leBytes 8 (((w.split e).wait.map (·.dead)).getD 0))) ++
  ((List.range 8).map fun e => (0x500 + 32 * e, wordBytes (w.split e).words)) ++
  ((List.range 8).map fun e => (List.range (w.split e).frames.length).map fun j =>
    (0x600 + 512 * e + 32 * j, wordBytes (((w.split e).frames[j]?.map (·.words)).getD []))).flatten

/-- Free bytes, one for each count of the counter (log 2). -/
def State.drawBytes (s : State) (n : Nat) : List Byte × State :=
  ((List.range n).map fun i => Config.freeByte (s.freeCtr + i), { s with freeCtr := s.freeCtr + n })

/-- The held-command region: a record of 256 bytes for each held copy, one of 28 KiB for each held engine command (R341). The records are
device-private: their bytes are free, and the machine keeps the commands in `Saved`. (log 50, DEDUCED) -/
def State.heldRegion (s : State) (p area : Nat) (w : Wave) : State :=
  let put (off n : Nat) (s : State) : State := let r := s.drawBytes n; r.2.areaPut p area off r.1
  let s := (List.range (w.hc ++ w.cq).length).foldl (fun (s : State) i => put (0x9000 + 256 * i) 256 s) s
  (List.range (w.hm ++ w.mq ++ w.he ++ w.eq).length).foldl (fun (s : State) i => put (0xA000 + 0x7000 * i) 0x7000 s) s

/-- Whether a copy of a team runs. -/
def State.copiesRun (s : State) (team : Nat) : Bool := s.clusters.any fun c => c.2.slots.any fun x => x.2.team == team

/-- A team whose waves are all saved, and none of whose copies runs, gives up its tiles, scratch, handles and barriers (R337, 19 R375). -/
def State.tryAway (s : State) (team : Nat) : State :=
  match s.team? team with
  | none => s
  | some t =>
      if t.wkeys.isEmpty && !t.saved.isEmpty && !t.away && !s.copiesRun team then
        s.putTeam team { t with away := true, tiles := [], granules := [], scratch := [], smark := [], bars := [], handles := [], ocache := [] }
      else s

/-- The wave as its team keeps it while it is away. A parked split executes again at restore, so its wait goes. (log 50, DEDUCED) -/
def Wave.saved (w : Wave) (core : Core) : Saved :=
  { area := w.area, live := w.liveLanes, mq := w.hm ++ w.mq, eq := (w.he ++ w.eq).map (Cmd.keepTable core), cq := w.hc ++ w.cq, ops := w.ops, opctr := w.opctr, due := none, kern := w.kern, codesel := w.isel,
    waits := ((List.range 8).map fun e => match (w.split e).wait with
      | some r => if r.kind = 9 then [] else [(e, r)]
      | none => []).flatten,
    unwind := w.unwind }

/-- FLAGWR.SAVE's last steps: the machine block, the held-command region, the flags' counts, the wave's registers and slot freed. (log 50, DEDUCED) -/
def State.saveWave (s : State) (k : Nat) (w : Wave) : State :=
  match s.team? w.team with
  | none => s
  | some t =>
      let s1 := ((s.machineBlock t w).foldl (fun s x => s.areaPut t.part w.area x.1 x.2) s).heldRegion t.part w.area w
      let s2 := s1.modTeam w.team fun t => { t with saved := tput t.saved w.wid (w.saved (s.core (coreOfKey k))), wkeys := tdel t.wkeys w.wid }
      ({ s2 with waves := tdel s2.waves k }).tryAway w.team

/-- Whether the wave runs the handler of its save entry. (log 50, DEDUCED) -/
def Wave.inSave (w : Wave) : Bool :=
  w.clvl && w.intrap && (w.trapcode == tOVERCAP || w.trapcode == tPREEMPT) && w.trapinfo % 32 == 1

/-- Whether a cairn release of the wave is still on its way. (log 26, DEDUCED) -/
def State.releasing (s : State) (k : Nat) : Bool := s.hq.any fun q => q.2.any fun x => match x with | .release _ r => r.wave == k | _ => false

/-- FLAGWR.SAVE: every store and barrier of the wave is moved to its home; the split waits until its loads, atomics and releases
are over, and then the wave is gone. (log 50, DEDUCED) -/
def execFlagwrSave (_ : Ctl) (s : State) : Out :=
  s.run fun c w =>
    if !w.inSave then s.illconv c w 23
    else
      let s1 := s.publishWave c.wave
      match s1.wave? c.wave with
      | none => s1
      | some w =>
          if w.pend.isEmpty && !s1.releasing c.wave then s1.saveWave c.wave w
          else s1.hold c w { kind := 0, arg := 0, dead := 0, done := false }

/-! ### Containment regions (18 R352, R353) -/

def execCrbegin (o : CrbeginOp) (s : State) : Out :=
  s.run fun c w =>
    let t := w.target c o.tgt
    match s.checkTargets (s.who c w) w.codesel false ((lanesOf (orLane0 (c.split w).em)).map fun l => (l, w.codesel, t)) with
    | some f => s.faultAs c w f
    | none =>
        if 4 ≤ w.cframes.length then s.illconv c w 24
        else s.done c { w with cframes := w.cframes ++ [{ off := t.toNat, sel := w.codesel, team := o.team, lsdepth := w.links.length }] }

def execCrend (_ : Ctl) (s : State) : Out :=
  s.run fun c w => if w.cframes.isEmpty then s.illconv c w 25 else s.done c { w with cframes := w.cframes.dropLast }

/-! ### Capacities (18 R361, R362) -/

def State.qregsOf (s : State) (q : Nat) : Nat := tget 2048 s.qregs q
def State.ztilesOf (s : State) (q : Nat) : Nat := tget 128 s.ztiles q
def State.srambOf (s : State) (k : Nat) : Nat := tget 128 s.sramb k
def State.msckbOf (s : State) (c : Nat) : Nat := tget 4096 s.msckb c
def State.audfailOf (s : State) (q : Nat) : Nat := tget 0 s.audfail q

/-- The capacities of a partition's units: `per` units a partition. -/
def capsOf (f : Nat → Nat) (per p : Nat) : List Nat := (List.range per).map fun i => f (per * p + i)

/-- How many units an item has. -/
def capUnits (item : Nat) : Nat :=
  match item with
  | 0 => 768 | 1 => 192 | 2 => 48 | 3 => 384 | 10 => 192
  | _ => 4

/-- The value of a capacity item for a unit. -/
def State.capacity (s : State) (item a : Nat) : Nat :=
  match item with
  | 0 => s.qregsOf a
  | 1 => s.ztilesOf a
  | 2 => s.srambOf a
  | 3 => s.msckbOf a
  | 4 => (capsOf s.qregsOf 192 a).foldl max 0
  | 5 => (capsOf s.ztilesOf 48 a).foldl max 0
  | 6 => (capsOf s.srambOf 12 a).foldl max 0
  | 7 => (capsOf s.qregsOf 192 a).foldl (· + ·) 0
  | 8 => (capsOf s.ztilesOf 48 a).foldl (· + ·) 0
  | 9 => (capsOf s.srambOf 12 a).foldl (· + ·) 0
  | _ => s.audfailOf a

def execCapq (o : CapqOp) (s : State) : Out :=
  s.run fun c w =>
    s.withReads c w [(o.a, 1)] [] (c.split w).em <|
      let a := (w.src (c.split w) 0 o.a).toNat
      if capUnits o.item ≤ a then s.illconv c w 27
      else s.done c ((w.putS o.d (BitVec.ofNat 32 (s.capacity o.item a))).wrote [errS o.d])

/-- SIGRD (18 R367). Outside AUDIT grids no signature grows. -/
def execSigrd (_ : Ctl) (d : Nat) (s : State) : Out :=
  s.run fun c w =>
    let sig := match s.team? w.team with | some t => if t.audit then t.sig else 0 | none => 0
    s.done c ((w.putS64 d sig).wrote [errS d, errS (d + 1)])

/-! ### Units that fail (18 R356–R363) -/

def bankOf : EUnit → Nat
  | .regFile _ b => b | .accBank _ b => b | .sram _ b => b | .msc _ b => b | .dram _ b => b

/-- A unit's record, by its logical number; one never heard of has counted nothing, and the physical unit of its own number is behind it
(R357). -/
def State.unitRec (s : State) (u : EUnit) : UnitRec :=
  (s.units.find? (·.key == u)).getD { key := u, phys := bankOf u, count := 0, state := 0, decl := 0, target := none, moved := [] }

def State.putUnit (s : State) (x : UnitRec) : State :=
  { s with units := if s.units.any (·.key == x.key) then s.units.map fun y => if y.key == x.key then x else y else s.units ++ [x] }

/-- The partition a unit lies in. -/
def unitPart : EUnit → Nat
  | .regFile q _ => q / 192
  | .accBank c _ => c / 48
  | .sram k _ => k / 12
  | .msc c _ => c / 96
  | .dram c _ => if c < 384 then c / 96 else (c - 384) / 16

/-- UKIND and UNIT of an event record (R370). -/
def unitKind : EUnit → Nat
  | .regFile .. => 0 | .accBank .. => 1 | .sram .. => 2 | .msc .. => 3 | .dram .. => 4
def unitNum : EUnit → Nat
  | .regFile q b => q * 256 + b
  | .accBank c b => c * 256 + b
  | .sram k b => k * 256 + b
  | .msc c b => c * 256 + b
  | .dram c r => c * 2 ^ 20 + r

/-- An event record of a type whose FDOM, GRID and TEAM the map does not state: they are free (log 2). (log 48, DESIGN CHOICE) -/
def State.eventBare (s : State) (p typ ukind unit : Nat) : State :=
  let a := s.draw
  let b := a.2.draw
  let e := b.2.draw
  e.2.eventRec p typ ukind unit (a.1.toNat % 256) b.1.toNat e.1.toNat

/-- Whether a logical bank is removed or reserved. -/
def State.gone (s : State) (u : EUnit) (same : EUnit → Option Nat) (b : Nat) : Bool :=
  s.units.any fun x => (x.key == u && x.state == 2) || ((same x.key).isSome && x.target == some b)

/-- The number of a bank of the same holding unit, if `v` is one. -/
def sameUnit (u v : EUnit) : Option Nat :=
  match u, v with
  | .regFile q _, .regFile r b => if q = r then some b else none
  | .accBank q _, .accBank r b => if q = r then some b else none
  | .sram q _, .sram r b => if q = r then some b else none
  | .msc q _, .msc r b => if q = r then some b else none
  | _, _ => none

/-- The unit's bank `b` in place of its own. -/
def withBank (u : EUnit) (b : Nat) : EUnit :=
  match u with
  | .regFile q _ => .regFile q b | .accBank q _ => .accBank q b | .sram q _ => .sram q b | .msc q _ => .msc q b | .dram q _ => .dram q b

/-- How many banks a holding unit has, and how many lines a bank has (R359). -/
def unitBanks : EUnit → Nat
  | .regFile .. => 16 | .accBank .. => 32 | .sram .. => 128 | .msc .. => 16 | .dram .. => 0
def unitLines : EUnit → Nat
  | .regFile .. => 128 | .accBank .. => 256 | .sram .. => 512 | _ => 0

/-- The wave-registers resident waves hold in a quadrant. (log 15, DESIGN CHOICE) -/
def State.regsUsed (s : State) (q : Nat) : Nat :=
  (s.waves.filter fun p => quadOfKey p.1 == q).foldl (fun n p => n + p.2.kern.vregs) 0

/-- The teams resident on a core: a saved team that still holds its allocation is one. -/
def State.teamsOn (s : State) (core : Nat) : List (Nat × Team) := s.teams.filter fun t => t.2.core == core && !t.2.away

/-- The macros before `b` that are not gone. (log 15, DESIGN CHOICE) -/
def State.macrosBefore (s : State) (q b : Nat) : Nat :=
  ((List.range b).filter fun i => !s.gone (.regFile q i) (sameUnit (.regFile q i)) i).length

/-- Whether a bank holds live data (R357). Registers fill a quadrant's macros from macro 0 up (log 15, DESIGN CHOICE). -/
def State.live (s : State) (u : EUnit) : Bool :=
  match u with
  | .regFile q b => 128 * s.macrosBefore q b < s.regsUsed q
  | .accBank c b => (s.teamsOn c).any fun t => t.2.tiles.any fun z => z / 4 == b
  | .sram k b =>
      let x := (s.cluster k).bank b
      (x.mode == 1 && s.bankHeld k b) || (x.mode == 2 && (!x.words.isEmpty || !x.wait.isEmpty))
  | _ => false

/-- The banks that can be a retirement's target: of the same unit, not gone, with no live data, not the retiring one. -/
def State.targets (s : State) (u : EUnit) : List Nat :=
  (List.range (unitBanks u)).filter fun b =>
    b != bankOf u && !s.gone (withBank u b) (sameUnit u) b && (s.unitRec (withBank u b)).state == 0 && !s.live (withBank u b)

/-- The target of a retirement (R358): the highest-numbered; of SRAM a free SCRATCH bank first, then a CACHE bank. -/
def State.targetOf (s : State) (u : EUnit) : Option Nat :=
  match u with
  | .sram k _ =>
      let l := s.targets u
      let scr := l.filter fun b => ((s.cluster k).bank b).mode == 1
      let cac := l.filter fun b => ((s.cluster k).bank b).mode == 0
      (scr.getLast?).orElse fun _ => (cac.getLast?).orElse fun _ => l.getLast?
  | _ => (s.targets u).getLast?

/-- Every line of a cluster is written back and dropped (R234). (log 49, DEDUCED) -/
def State.emptyCluster (s : State) (k : Nat) : State := ((s.deliverAll k).cluster k).lines.foldl (fun s line => s.giveUpLine k line) (s.deliverAll k)

/-- A unit is RETIRED (R357): without a target its logical number is removed; with one, its number names the target's physical bank from
then on, whose counted errors go with it, and the target's number is removed. The event of TYPE 2. (log 49, DEDUCED) -/
def State.retire (s : State) (x : UnitRec) : State :=
  let s1 := match x.target with
    | none => s.putUnit { x with state := 2 }
    | some t =>
        let y := s.unitRec (withBank x.key t)
        (s.putUnit { y with state := 2, phys := x.phys }).putUnit
          { x with phys := y.phys, count := y.count, state := 0, decl := 0, target := none, moved := [] }
  s1.eventBare (unitPart x.key) 2 (unitKind x.key) (unitNum x.key)

/-- A save entry falls due for every wave of a team, and for its whole COSCHED block (R363, 07 R164). (log 49, DEDUCED) -/
def State.dueTeams (s : State) (ts : List Nat) (code : Nat) : State :=
  { s with waves := tmap (fun _ w => if ts.contains w.team && w.due.isNone then { w with due := some code } else w) s.waves }

/-- The teams that go with a team: itself, or every resident team of its COSCHED block. -/
def State.withBlock (s : State) (t : Nat) : List Nat :=
  match s.team? t with
  | none => []
  | some x => match tfind s.subs x.sub with
    | some b => if bitOf (natAt b.rcb 0 4) 23 then (s.teams.filter fun y => y.2.sub == x.sub && !y.2.away).map (·.1) else [t]
    | none => [t]

/-- Whether a team has live data in a bank. -/
def State.livesIn (s : State) (u : EUnit) (t : Nat) (x : Team) : Bool :=
  match u with
  | .regFile q _ => s.waves.any fun p => p.2.team == t && quadOfKey p.1 == q
  | .accBank c b => x.core == c && x.tiles.any fun z => z / 4 == b
  | .sram k b => x.core / 4 == k && x.granules.any fun g => g / 256 == b
  | _ => false

/-- The banks of a unit's holder. -/
def banksOf (u : EUnit) : List EUnit := (List.range (unitBanks u)).map (withBank u)

/-- The team that OVERCAP takes first (R363): of those with live data in the bank, the lowest priority, the most recently admitted; where no
team's data are in the bank (the words of a FIFO are their context's), of those with live data in a bank of its unit. (log 49, DEDUCED) -/
def State.overcapTeam (s : State) (u : EUnit) : Option Nat :=
  let here := s.teams.filter fun p => !p.2.away && s.livesIn u p.1 p.2
  let near := s.teams.filter fun p => !p.2.away && (banksOf u).any fun v => s.livesIn v p.1 p.2
  ((if here.isEmpty then near else here).foldl (fun (b : Option (Nat × Team)) p =>
    match b with
    | none => some p
    | some q => if p.2.prio < q.2.prio || (p.2.prio == q.2.prio && q.2.age < p.2.age) then some p else some q) none).map (·.1)

/-- A declared unit seeks its target (R357, R358): without live data it is removed; with a target it is evacuated; else OVERCAP makes
one free. -/
def State.seekTarget (s : State) (u : EUnit) : State :=
  let x := s.unitRec u
  let cache := match u with | .sram k b => ((s.cluster k).bank b).mode == 0 | .msc .. => true | _ => false
  if cache then ((match u with | .sram k _ => s.emptyCluster k | _ => s)).retire x
  else if !s.live u then s.retire x
  else match s.targetOf u with
    | some t =>
        let s1 := match u with | .sram k _ => if ((s.cluster k).bank t).mode = 0 then s.emptyCluster k else s | _ => s
        s1.putUnit { x with target := some t }
    | none => match s.overcapTeam u with
      | some t => s.dueTeams (s.withBlock t) tOVERCAP
      | none => s

/-- The capacity a declaration takes away (R359, R362). -/
def State.dropCapacity (s : State) (u : EUnit) : State :=
  match u with
  | .regFile q _ => { s with qregs := tset 2048 s.qregs q (s.qregsOf q - 128) }
  | .accBank c _ => { s with ztiles := tset 128 s.ztiles c (s.ztilesOf c - 4) }
  | .sram k _ => { s with sramb := tset 128 s.sramb k (s.srambOf k - 1) }
  | .msc c _ => { s with msckb := tset 4096 s.msckb c (s.msckbOf c - 256) }
  | .dram .. => s

/-- Whether the unit that holds a bank carries out another retirement, one declared earlier waits, or a switch of the bank is in progress:
declarations wait, in the order in which they were made (R359, R360). -/
def State.retireBusy (s : State) (u : EUnit) : Bool :=
  (s.units.any fun x => x.key != u && x.state == 1 && (sameUnit u x.key).isSome && (x.target.isSome || decide (x.decl < (s.unitRec u).decl))) ||
    (match u with | .sram k b => (s.cluster k).switches.any (·.bank == b) | _ => false)

/-- A unit's fault is declared lasting (R356, R359). A DRAM row group is only reported. -/
def State.declare (s : State) (u : EUnit) : State :=
  let x := s.unitRec u
  if x.state != 0 then s
  else match u with
    | .dram .. => (s.putUnit { x with state := 1 }).eventBare (unitPart u) 4 4 (unitNum u)
    | _ =>
      let n := (s.units.map (·.decl)).foldl max 0 + 1
      let s1 := ((s.putUnit { x with state := 1, decl := n }).dropCapacity u).eventBare (unitPart u) 1 (unitKind u) (unitNum u)
      if s1.retireBusy u then s1 else s1.seekTarget u

/-- The counting window GTS stands in; windows below 1000 ticks act as 1000. -/
def State.ceWindow (s : State) (p : Nat) : Nat := s.gts / max 1000 (s.part p).cewin

/-- The counts of a partition restart when a window has ended. -/
def State.ceRoll (s : State) (p : Nat) : State :=
  if s.ceWindow p = (s.part p).cestart then s
  else
    let s1 := s.modPart p fun x => { x with cestart := s.ceWindow p }
    { s1 with units := s1.units.map fun x => if unitPart x.key == p then { x with count := 0 } else x }

/-- A corrected error is counted against its unit (R356). -/
def State.correct (s : State) (u : EUnit) : State :=
  let p := unitPart u
  let s1 := s.ceRoll p
  let x := s1.unitRec u
  let s2 := s1.putUnit { x with count := x.count + 1 }
  if (s2.part p).cethr % 256 < x.count + 1 then s2.declare u else s2

/-- CORRECTED_ERROR. -/
def execCorrectedError (u : EUnit) (s : State) : Out := .next (s.correct u)

/-- CE_WINDOW_EXPIRY. -/
def execCeWindowExpiry (part : Nat) (s : State) : Out := .next (s.ceRoll part)

/-- A poison mark on the data of a unit's sector: `n` is a physical sector number for DRAM, MSC and CACHE banks, a sector of the bank
for SCRATCH and FIFO banks, a row of an accumulator bank, 6144 × wave slot + 32 × V register + lane for a register macro. (log 48, DESIGN CHOICE) -/
def State.markUnit (s : State) (u : EUnit) (n : Nat) : State :=
  match u with
  | .dram .. | .msc .. => { s with marks := sins s.marks n }
  | .accBank c b => s.modCore c fun x => { x with tmark := sins x.tmark (256 * b + n % 256) }
  | .regFile q _ => s.modWave (32 * q + n / 6144 % 32) fun w => { w with errs := sins w.errs (n % 6144) }
  | .sram k b =>
      let x := (s.cluster k).bank b
      if x.mode = 0 then s.modCluster k fun c => c.modCopy (n / 4) fun y => { y with marks := sins y.marks (n % 4) }
      else if x.mode = 2 then
        s.modCluster k fun c => c.putBank b { x with words := (List.range x.words.length).map fun i =>
          let p := x.words.getD i (0, false)
          (p.1, p.2 || i / 8 == n) }
      else
        let g := 256 * b + n / 8 % 256
        match s.teams.find? fun t => t.2.core / 4 == k && !t.2.away && t.2.granules.contains g with
        | none => s
        | some (t, y) => s.modTeam t fun z => { z with smark := sins z.smark (8 * y.granules.idxOf g + n % 8) }

/-- UNCORRECTABLE_ERROR. (log 48, DESIGN CHOICE) -/
def execUncorrectableError (u : EUnit) (sector : Nat) (s : State) : Out :=
  let s1 := (s.markUnit u sector).eventBare (unitPart u) 3 (unitKind u) (unitNum u)
  .next (match u with | .dram .. => s1 | _ => s1.declare u)

/-- The earliest declaration of the same holding unit that has waited. -/
def State.nextRetire (s : State) (u : EUnit) : State :=
  match s.units.find? fun x => x.state == 1 && x.target.isNone && (sameUnit u x.key).isSome && !s.retireBusy x.key with
  | none => s
  | some x => s.seekTarget x.key

/-- LINE_EVACUATION: one line of an evacuating bank is copied; with the last the bank is RETIRED, and its logical number names the
target's bank from then on. A declared unit without a target seeks one. (log 49, DEDUCED) -/
def execLineEvacuation (u : EUnit) (s : State) : Out :=
  let x := s.unitRec u
  if x.state != 1 || unitLines u = 0 then .next s
  else match x.target with
    | none => .next (if s.retireBusy u then s else s.seekTarget u)
    | some _ =>
        let y := { x with moved := x.moved ++ [x.moved.length] }
        if y.moved.length < unitLines u then .next (s.putUnit y)
        else .next ((s.retire y).nextRetire u)

/-! ### Poison injection (18 R373) -/

/-- One lane's step of PSNW: behind the wave's older stores to the sector, a mark, or one corrected error of its unit. -/
def State.psnwLane (s : State) (key team : Nat) (ce : Bool) (a : Access) : State :=
  let s1 := s.forceOwn key (a.kind == 1) (a.pa / 128)
  if a.kind = 1 then
    let g := ((s1.team? team).map fun t => t.granules.getD (a.pa / 256) 0).getD 0
    if ce then s1.correct (.sram (clusterOfKey key) (g / 256))
    else s1.modTeam team fun t => { t with smark := sins t.smark (a.pa / 32) }
  else
    let s2 := s1.flushHq (a.pa / 128)
    let r := a.pa / 2 ^ 48
    if ce then s2.correct (.dram (Config.channelOf (r % 4) (a.pa % 2 ^ 48) (4 ≤ r)) (Config.dramRow (a.pa / 32)))
    else { s2 with marks := sins s2.marks (a.pa / 32) }

def execPsnw (o : PsnwOp) (s : State) : Out :=
  s.run fun c w =>
    if !w.clvl then s.illegal c w cUNDEFOP
    else
      let x := c.split w
      let m := w.actLanes x o.ctl.pred o.ctl.neg
      let u := s.who c w
      s.withReads c w [(o.a.asSrc, 2)] (predRegs o.ctl.pred) m <|
        match s.checkLanes u { right := 1, kinds := [1, 2, 3], size := 32, align := 32, write := true } (lanesOf m) false m
            (fun l => .ok (w.reg64 o.a l)) with
        | .error f => s.faultAs c w f
        | .ok accs =>
            let s1 := accs.foldl (fun s p => s.psnwLane c.wave w.team o.ce p.2) (s.keepAll u accs)
            match s1.wave? c.wave with
            | none => s1
            | some w => s1.done c w

end Sys2Proof.Machine
end

