-- ==== Sys2Proof/Machine/Tensor.lean ====
section
/-! DEFINITION. Tensor layout records (12 R276–R278), the units of a segment or of the scratchpad that engines read and write (12 R283, 09 R224, R225), the audit records of engine writes (18 R367). -/

namespace Sys2Proof.Machine

/-! ### Records (R276, R277) -/

/-- A tensor layout record. Dimensions at or above the rank read as 1, 1 and 0. -/
structure TRec where
  base    : DWord
  rank    : Nat
  fmt     : Nat
  swz     : Nat
  fill    : Nat
  spitch  : Nat
  dims    : List Nat
  strides : List Nat
  boxes   : List Nat
  deriving DecidableEq, Repr

def trecOf (b : List Byte) : TRec :=
  let w := natAt b 8 4
  let rank := w % 8
  let at5 (f : Nat → Nat) (d : Nat) : List Nat := (List.range 5).map fun i => if i < rank then f i else d
  { base := BitVec.ofNat 64 (natAt b 0 8), rank := rank, fmt := bitsOf w 8 4, swz := bitsOf w 12 2, fill := natAt b 0x0C 4,
    spitch := natAt b 0x24 4, dims := at5 (fun i => natAt b (0x10 + 4 * i) 4) 1,
    strides := at5 (fun i => if i = 0 then 0 else natAt b (0x20 + 8 * i) 8) 0, boxes := at5 (fun i => natAt b (0x48 + 2 * i) 2) 1 }

/-- The packing unit of a width: how many elements fill whole bytes. -/
def packUnit (w : Nat) : Nat := if 8 ≤ w then 1 else if w = 4 then 2 else if w = 2 then 4 else 16

/-- The bytes of one unit. -/
def unitBytes (w : Nat) : Nat := packUnit w * w / 8

def TRec.w (t : TRec) : Nat := fmtBits t.fmt
def TRec.box (t : TRec) (i : Nat) : Nat := t.boxes.getD i 1
def TRec.dim (t : TRec) (i : Nat) : Nat := t.dims.getD i 1
def TRec.stride (t : TRec) (i : Nat) : Nat := t.strides.getD i 0
def TRec.span (t : TRec) : Nat := 16 * 2 ^ t.swz
def TRec.rowBytes (t : TRec) : Nat := t.box 0 * t.w / 8
def TRec.pitch (t : TRec) : Nat := if t.spitch = 0 then roundUp t.rowBytes 16 else t.spitch
def TRec.rows (t : TRec) : Nat := t.box 1 * t.box 2 * t.box 3 * t.box 4

/-- Whether a record with its dimension-0 coordinate is valid (R277). -/
def TRec.ok (t : TRec) (c0 : Int) : Bool :=
  1 ≤ t.rank && t.rank ≤ 5 && t.fmt < 12 && offOf t.base % 16 == 0 && t.spitch % 16 == 0 &&
  t.dims.all (fun d => 1 ≤ d && d < 2 ^ 31) && t.strides.all (fun x => x % 16 == 0 && x < 2 ^ 44) &&
  t.boxes.all (fun b => 1 ≤ b && b ≤ 256) && t.box 0 % packUnit t.w == 0 && c0 % (packUnit t.w : Int) == 0 &&
  t.rowBytes ≤ t.pitch && (t.swz == 0 || t.pitch % t.span == 0)

/-! ### Places (R278) -/

/-- A unit of a box: its row's number, its byte within the row, its offset in the tensor, and how many of its elements lie in
range (they are its first ones). -/
structure TUnit where
  row : Nat
  col : Nat
  off : Nat
  cnt : Nat
  deriving DecidableEq, Repr

/-- The unit that begins at element `b0` of row `row`, whose other coordinates are `xs` (dimensions 1 to 4). -/
def TRec.unitOf (t : TRec) (c0 : Int) (row : Nat) (xs : List Int) (b0 : Nat) : TUnit :=
  let x0 := c0 + b0
  let inRow := (List.range 4).all fun i => t.rank ≤ i + 1 || (0 ≤ xs.getD i 0 && xs.getD i 0 < t.dim (i + 1))
  let cnt := if inRow && 0 ≤ x0 then min (packUnit t.w) (t.dim 0 - x0.toNat) else 0
  let off : Int := (offOf t.base : Int) + x0 * t.w / 8 + ((List.range 4).map fun i => xs.getD i 0 * (t.stride (i + 1) : Int)).foldl (· + ·) 0
  { row := row, col := b0 * t.w / 8, off := off.toNat, cnt := cnt }

/-- The units of one row of a box. -/
def TRec.rowUnits (t : TRec) (c0 : Int) (row : Nat) (xs : List Int) : List TUnit :=
  (List.range (t.box 0 / packUnit t.w)).map fun j => t.unitOf c0 row xs (j * packUnit t.w)

/-- The units of a box in box order. -/
def TRec.boxUnits (t : TRec) (c : List Int) : List TUnit :=
  ((List.range t.rows).map fun r =>
    let b1 := r % t.box 1
    let b2 := r / t.box 1 % t.box 2
    let b3 := r / (t.box 1 * t.box 2) % t.box 3
    let b4 := r / (t.box 1 * t.box 2 * t.box 3)
    t.rowUnits (c.getD 0 0) r [c.getD 1 0 + b1, c.getD 2 0 + b2, c.getD 3 0 + b3, c.getD 4 0 + b4]).flatten

/-- The scratchpad place of a byte of a row. The swizzle permutes the 16-byte chunks of each aligned run of S bytes. (log 56, DEDUCED) -/
def TRec.soff (t : TRec) (sbase row o : Nat) : Nat :=
  sbase + row * t.pitch + (if t.swz = 0 then o else o ^^^ (16 * (row % (t.span / 16))))

/-! ### Units of a segment -/

/-- The physical addresses of `n` bytes from an offset of a segment as an engine reaches them when it runs: checked against the 44-bit
offset, the limit and the page tables (R283). Of expanded code there are none: it is read through its cluster. (log 56, DEDUCED) -/
def State.segUnit (s : State) (u : Who) (base : DWord) (off n : Nat) (write : Bool) : Except AFault (Access × List Nat) :=
  let sel := selOf base
  let ea := segAddr sel off
  if 2 ^ 44 ≤ off then .error { code := fOFFOVF, cause := 0, addr := base }
  else match s.descBytes u sel with
  | .bad => .error { code := fSEGV, cause := 4, addr := ea }
  | .poison _ => .error { code := fPOISON, cause := 5, addr := ea }
  | .ok b =>
      let d := descOf b
      let limit := if d.kind = 1 then min d.limit (s.scratchLen u.team) else d.limit
      let a : Access := { kind := d.kind, pa := off, cairn := d.cairn, prot := d.prot, ea := ea, desc := d }
      if limit < off + n then .error { code := fSEGV, cause := 1, addr := ea }
      else if d.kind = 1 then .ok (a, (List.range n).map fun i => off + i)
      else if d.ccode then (match s.badExpand u n a with | some f => .error f | none => .ok (a, []))
      else
        let lin := s.linear u d 0 off
        match s.badPage u sel d.kind lin n write ea with
        | some f => .error f
        | none =>
            let pas := (List.range n).map fun i => (s.linPA u sel d.kind (lin + i)).getD 0
            .ok ({ a with pa := pas.headD 0, lin := lin, cut := 128 - lin % 128, pa2 := pas.getD (128 - lin % 128) 0 }, pas)

/-- Bytes by address, gathered into runs within one line. -/
def byteRuns : List (Nat × Byte) → List (Nat × List Byte)
  | [] => []
  | (a, b) :: r =>
      match byteRuns r with
      | (a', l) :: t => if a' = a + 1 && a' / 128 == a / 128 then (a, b :: l) :: t else (a, [b]) :: (a', l) :: t
      | [] => [(a, [b])]

/-- The unit's elements with the first `cnt` taken from `new`, the rest from `old`. -/
def mergeUnit (w cnt new old : Nat) : Nat := new % 2 ^ (cnt * w) + old / 2 ^ (cnt * w) * 2 ^ (cnt * w)

/-! ### Scratchpad bytes -/

/-- A byte of a team's scratchpad, with its mark. -/
def Team.scrByte (t : Team) (a : Nat) : Byte × Bool := (memGet t.scratch a, t.smark.contains (a / 32))

/-- An engine writes scratchpad bytes at B: monitors wake, poisoned data mark the sectors they touch (12 R286). -/
def State.scrWrite (s : State) (team a : Nat) (l : List Byte) (bad : Bool) : State :=
  if l.isEmpty then s else s.scratchPut team (cellsAt a l) bad false

/-- Whether a store of a wave that is older than one of its engine commands has not been applied yet and touches a range (R224(b)).
`scr` tells scratchpad offsets from physical addresses. -/
def State.olderStore (s : State) (wave op : Nat) (scr : Bool) (a n : Nat) : Bool :=
  let old (e : Entry) : Bool := e.wave == wave && e.stamp < op && (e.kind == 1) == scr && e.covers a n
  (match s.wave? wave with
   | none => false
   | some w => (w.sb.map SItem.entries).flatten.any old) ||
  ((s.cluster (clusterOfKey wave)).pb.map PItem.entries).flatten.any old ||
  (if scr then false else ((tget [] s.hq (a / 128)).filterMap HItem.entry?).any old || ((tget [] s.hq ((a + n - 1) / 128)).filterMap HItem.entry?).any old)

/-! ### Audit records (R367) -/

/-- Bytes an engine wrote, by offset: value and the bits written. -/
abbrev Written := Tab (Nat × Nat)

def Written.note (t : Written) (off v m : Nat) : Written :=
  let o := tget (0, 0) t off
  tput t off (o.1 &&& (255 - m % 256) ||| (v &&& m), o.2 ||| m)

/-- A unit's bits written at an offset. -/
def Written.noteUnit (t : Written) (off bytes v bits : Nat) : Written :=
  (List.range bytes).foldl (fun (t : Written) i =>
    let m := bitsOf (2 ^ bits - 1) (8 * i) 8
    if m = 0 then t else t.note (off + i) (bitsOf v (8 * i) 8) m) t

/-- The records of the aligned 16-byte chunks that an engine command wrote. -/
def Written.recs (t : Written) (sel : Nat) : List (List Byte) :=
  let chunks := t.foldl (fun l p => sins l (p.1 / 16)) []
  chunks.map fun c =>
    let at_ (i : Nat) : Nat × Nat := tget (0, 0) t (16 * c + i)
    leBytes 8 (segAddr sel (16 * c)).toNat ++ leBytes 1 0x80 ++
      leBytes 2 ((List.range 16).foldl (fun m i => if (at_ i).2 != 0 then m + 2 ^ i else m) 0) ++
      (List.range 16).map fun i => BitVec.ofNat 8 (at_ i).1

/-- An audited team's signature takes in what an engine wrote to a kind other than SCRATCH. -/
def State.signWritten (s : State) (team kind sel : Nat) (t : Written) : State :=
  match s.team? team with
  | none => s
  | some x => if x.audit then (t.recs sel).foldl (fun s r => s.sign team kind r) s else s

end Sys2Proof.Machine
end

