-- ==== Sys2Proof/Machine/Matrix.lean ====
section
/-! DEFINITION. The matrix engine: MMA, MMAS, MMAT, ZCLR, ZLD, ZST, ZMOV, ZADD at issue and what they compute, operand handles (06 R127–R146, R153, R154). -/

namespace Sys2Proof.Machine

/-! ### Tiles (R128, R129) -/

/-- The 4096 elements of a physical tile; a tile never written holds zeros. (log 8, DESIGN CHOICE) -/
def Core.tile (c : Core) (p : Nat) : List Word := let t := tget [] c.tiles p; if t.isEmpty then List.replicate 4096 0 else t

/-- Write a tile and the marks of its rows (bit m of `marks` for row m). -/
def Core.putTile (c : Core) (p : Nat) (t : List Word) (marks : Nat) : Core :=
  { c with tiles := tset [] c.tiles p (if t.all (· == 0) then [] else t),
           tmark := (List.range 64).foldl (fun l m => if bitOf marks m then sins l (64 * p + m) else l) (c.tmark.filter fun k => k / 64 != p) }

/-- The marks of a tile's rows, bit m for row m. (log 8, DESIGN CHOICE) -/
def Core.tileMarks (c : Core) (p : Nat) : Nat := (List.range 64).foldl (fun a m => if c.tmark.contains (64 * p + m) then a + 2 ^ m else a) 0

/-- The physical tile that a team's tile number names (R128). -/
def State.phys (s : State) (team d : Nat) : Nat := ((s.team? team).map fun t => t.tiles.getD d 0).getD 0

/-- A tile's rows. -/
def tileRows (t : List Word) : List (List Word) := (List.range 64).map fun m => (t.drop (64 * m)).take 64

/-! ### Entering a queue (R127, R336) -/

/-- A wait for room in a queue: none that a save records (R341). (log 23, DESIGN CHOICE; log 53, DEDUCED) -/
def roomWait : Wait := { kind := 0, arg := 0, dead := 0, done := false }

/-- A wait at issue that has a bound, at which no split stops (R334). -/
def issueWait : Wait := { kind := boundWait, arg := 0, dead := 0, done := false }

/-- Whether the matrix and epilogue queues hold all the commands not started that they may. (log 53, DEDUCED) -/
def Wave.engineFull (w : Wave) : Bool := Config.engineRoom ≤ ((w.mq ++ w.eq).filter (!·.started)).length

/-- A command that has captured nothing yet. -/
def Cmd.bare (i : Instr) (g : Guard) (op : Nat) : Cmd :=
  { ins := i, op := op, guard := g, regs := [], sregs := [], blk := [], aux := [], rec2 := [], em := 0, word := 0, addr := 0, batch := 0, gen := 0,
    rngLo := 0, rngHi := 0, dst := [], outs := [], started := false }

/-- A command enters the matrix queue, or the epilogue queue. -/
def State.submit (s : State) (c : Cur) (_ : Wave) (setf : Option Nat) (epi : Bool) (mk : Nat → Cmd) : State :=
  s.doneBy c fun w =>
    let q := w.newOp setf 1
    if epi then { q.1 with eq := q.1.eq ++ [mk q.2] } else { q.1 with mq := q.1.mq ++ [mk q.2] }

/-- Whether a command's scratchpad range is older than stores the wave has not performed yet: the command to be issued next. -/
def State.scratchPending (s : State) (k : Nat) (w : Wave) (a n : Nat) : Bool := s.olderStore k (w.opctr + 1) true a n

/-- A scratchpad range must lie in the allocation, and its offset be a multiple of 16 (R144). -/
def State.scratchRange (s : State) (team off n align : Nat) : Option (Nat × Nat) :=
  if s.scratchLen team < off + n then some (fSEGV, 1) else if off % align != 0 then some (fALIGN, 0) else none

/-- A uniform instruction's fault at a scratchpad offset. -/
def State.scratchFault (s : State) (c : Cur) (w : Wave) (code cause off : Nat) : State :=
  s.uniFault c w { code := code, cause := cause, addr := segAddr 0 off }

/-! ### The checks of the format word (R102) -/

/-- The trap a format word raises: code, cause, FAULTMASK. -/
def Wave.fwTrap (w : Wave) (em : LaneMask) (r : Nat) (k : MKind) : Option (Nat × Nat × LaneMask) :=
  let fw := (w.v r 0).toNat
  let odd := maskWhere fun l => w.v r l != w.v r 0
  if em != allOnes then some (tILLCONV, 1, ~~~em)
  else if odd != 0 then some (tFMTDIV, 0, odd)
  else if !fwDefined fw then some (tILLCONV, 2, em)
  else match fwRow fw with
    | none => some (tILLCONV, 3, em)
    | some row => if k.accepts row (fwSpn fw) then none else some (tILLCONV, 4, em)

/-! ### Images (R130, R131) -/

/-- Capture a run of V registers. (log 52, DEDUCED) -/
def Wave.capture (w : Wave) (t : Tab (List Word)) (start n : Nat) : Tab (List Word) :=
  (List.range n).foldl (fun (t : Tab (List Word)) i => tput t (start + i) (allLanes.map (w.v (start + i)))) t

/-- The bytes of a captured run. -/
def imageOf (t : Tab (List Word)) (start n : Nat) : List Byte :=
  ((List.range n).map fun i => ((tget zeroLanes t (start + i)).map fun x => leBytes 4 x.toNat).flatten).flatten

/-- The element codes of the rows of an image: `k` elements of `w` bits each. -/
def imageRows (b : List Byte) (rows k w : Nat) : List (List Nat) :=
  (List.range rows).map fun m =>
    let x := natAt b (m * (k * w / 8)) (k * w / 8)
    (List.range k).map fun i => bitsOf x (i * w) w

/-- Whether a register word is one that engines carry as marked (18 R349, R351). -/
def Wave.badWord (w : Wave) (r l : Nat) : Bool := w.errs.contains (errV r l) || w.errs.contains (errV r l + errRow)

/-- Whether any word of a run is marked. -/
def Wave.badRun (w : Wave) (start n : Nat) : Bool :=
  if w.errs.isEmpty then false else (List.range n).any fun i => allLanes.any fun l => w.badWord (start + i) l

/-- The rows of an image, of `rb` bytes each, that have a marked word. (log 52, DEDUCED) -/
def Wave.badRows (w : Wave) (start rb : Nat) : Nat :=
  if w.errs.isEmpty then 0
  else (List.range 64).foldl (fun acc m =>
    if (List.range (rb / 4)).any fun i => w.badWord (start + (m * rb / 4 + i) / 32) ((m * rb / 4 + i) % 32) then acc + 2 ^ m else acc) 0

/-! ### Operand handles (R153, R154) -/

/-- (log 9, DESIGN CHOICE) -/
def Team.handle (t : Team) (h : Nat) : Handle := tget { off := 0, gen := 0, loaded := false } t.handles h

/-- A handle's generation advances: its operand-cache lines no longer serve. -/
def Team.advanceHandle (t : Team) (h : Nat) (f : Handle → Handle) : Team :=
  let x := t.handle h
  { t with handles := tput t.handles h (f { x with gen := (x.gen + 1) % 2 ^ 16 }), ocache := tdel t.ocache h }

/-- The B image of `n` bytes that a handle names, whether it holds a mark, whether a byte of it has changed under its generation, so that
what the command reads is undefined; and the team with the image noted. (log 54, DEDUCED) -/
def Team.readHandle (t : Team) (h n : Nat) : List Byte × Bool × Bool × Team :=
  let off := (t.handle h).off
  let b := memGets t.scratch off n
  let old := tget [] t.ocache h
  let new := (List.range n).map fun i => match old[i]? with
    | some o => (o.1, o.2 || o.1 != b.getD i 0)
    | none => (b.getD i 0, false)
  (b, (List.range (n / 32)).any fun i => t.smark.contains (off / 32 + i), new.any (·.2), { t with ocache := tput t.ocache h (new ++ old.drop n) })

/-- OHDL (R153). -/
def execOhdl (o : OhdlOp) (s : State) : Out :=
  s.run fun c w =>
    s.withReads c w [(o.a, 1)] [] (c.split w).em <|
      let off := (w.src (c.split w) 0 o.a).toNat
      if off % 128 != 0 then s.scratchFault c w fALIGN 0 off
      else (s.modTeam w.team fun t => t.advanceHandle o.h fun x => { x with off := off, loaded := true }).done c w

/-- Whether a command writes the scratchpad: a ZST, or an EPI whose tensor lies there. -/
def Cmd.writesScratch (c : Cmd) : Bool :=
  match c.ins with | .zst _ => true | .epi _ => c.outs.any fun x => x.es.any fun e => e.kind == 1 | _ => false

/-- SPFENCE (R154): it issues when the wave's scratchpad stores have been performed, those of its commands too (R144, R149(b)). -/
def execSpfence (o : SpfenceOp) (s : State) : Out :=
  s.run fun c w =>
    if (w.sb.map SItem.entries).flatten.any (fun e => e.kind == 1) || (w.eq ++ w.he).any Cmd.writesScratch then s.hold c w issueWait
    else (s.modTeam w.team fun t => (if o.all then List.range 16 else [o.h]).foldl (fun t h => t.advanceHandle h id) t).done c w

/-! ### Matrix commands at issue (R142) -/

/-- The rows of the result that a matrix command's operands mark (18 R351): every row by B, a scale or the format word, row m by A and
by its metadata. (log 52, DEDUCED) -/
def Wave.mmaMarks (w : Wave) (o : MmaOp) (fw : Nat) (badB : Bool) : Nat :=
  if badB || w.badRun o.c 1 || (match o.b with | .regs v => w.badRun v (fwBRegs fw) | .handle _ => false) ||
      (match o.scl with | some v => w.badRun v (fwBlocks fw) | none => false) then 2 ^ 64 - 1
  else w.badRows o.a (fwKc fw * fmtBits (fwA fw) / 8) ||| (match o.md with
    | some v => if w.errs.isEmpty then 0 else (List.range 64).foldl (fun acc m =>
        if (List.range (fwBlocks fw)).any fun g => w.badWord (v + (64 * g + m) / 32) (m % 32) then acc + 2 ^ m else acc) 0
    | none => 0)

/-- MMA, MMAS and MMAT issue: format word, causes 8 and 9, the handle's range, capture, the queue. (log 52, DEDUCED) -/
def State.mmaIssue (s : State) (k : MKind) (o : MmaOp) (i : Instr) : Out :=
  s.run fun c w =>
    let em := (c.split w).em
    let fw := (w.v o.c 0).toNat
    if w.engineFull then s.hold c w roomWait
    else match w.fwTrap em o.c k with
    | some (code, cause, mask) => s.fault c w code cause mask []
    | none =>
      match s.team? w.team with
      | none => s
      | some t =>
        let n := 128 * fwBRegs fw
        let h := match o.b with | .handle h => some h | .regs _ => none
        let off := match h with | some x => (t.handle x).off | none => 0
        if h.any fun x => !(t.handle x).loaded then s.illconv c w 8
        else if o.scl.isSome != (fwScale fw == 1) || !(MmaOp.runs o fw).all (fun r => runOk w.kern.vregs r.1 r.2) then s.illconv c w 9
        else if h.isSome && s.scratchLen w.team < off + n then s.scratchFault c w fSEGV 1 off
        else if h.isSome && s.scratchPending c.wave w off n then s.hold c w issueWait
        else
          let b := match h with | some x => t.readHandle x n | none => ([], false, false, t)
          let regs := (MmaOp.runs o fw).foldl (fun (x : Tab (List Word)) r => w.capture x r.1 r.2) []
          (s.putTeam w.team b.2.2.2).submit c w o.ctl.setf false fun op =>
            { Cmd.bare i o.guard op with regs := regs, aux := b.1, word := fw, batch := w.mmaMarks o fw b.2.1, gen := bnat b.2.2.1 }

/-- (log 53, DEDUCED) -/
def execMma (o : MmaOp) (s : State) : Out := s.mmaIssue .mma o (.mma o)
def execMmas (o : MmaOp) (s : State) : Out := s.mmaIssue .mmas o (.mmas o)
def execMmat (o : MmaOp) (s : State) : Out := s.mmaIssue .mmat o (.mmat o)

/-! ### The order of summation (R134–R139) -/

def isIntFmt (f : Fmt) : Bool := match eltFmt f with | .int .. => true | .fp _ => false

/-- The value of an integer element; the invalid T2 code contributes 0. -/
def eltInt (f : Fmt) (x : Nat) : Int :=
  match eltFmt f with
  | .int n sg => if badT2 f x then 0 else if sg then sxNat x n else ((x % 2 ^ n : Nat) : Int)
  | .fp _ => 0

/-- An exact product; of integers a zero product has no sign. -/
def prodEx (ints : Bool) (a b : Ex) : Ex := let p := exMul a b; if ints && p.isZero then exInt 0 else p

/-- The exact sum of a chunk's products (R135): a NaN operand, 0 × ∞ and products of both infinite signs raise NV. -/
def chunkSum (ints : Bool) (a b : List Ex) : Ex :=
  let v := ((List.zipWith (prodEx ints) a b).foldl FSum.add FSum.zero).val .rn
  if v.isNan then .nan true else v

/-- The chunk sum times the two E8M0 scales (R88, R134). -/
def scaleEx (x : Ex) (ea eb : Nat) : Ex :=
  if ea = 255 || eb = 255 then .nan true
  else match x with
    | .num n m e st => .num n m (e + ((ea + eb : Nat) : Int) - 254) st
    | y => y

/-- One FP32 accumulation, rounded once. -/
def accFp (z : Nat) (x : Ex) : FRes := finishFp fp32 .rn false 0 (exAdd .rn (unpackFp fp32 z) x)

/-- One integer accumulation, wrapping or saturating. -/
def accInt (sat : Bool) (z : Nat) (x : Int) : Nat :=
  let t := sxNat z 32 + x
  narrow 32 (if sat then clampInt (-(2 ^ 31)) (2 ^ 31 - 1) t else t)

/-- A list cut into chunks of 32. -/
def chunks32 {α : Type} (n : Nat) (l : List α) : List (List α) := (List.range n).map fun j => (l.drop (32 * j)).take 32

/-- An element accumulated over its chunks in FP32; the exceptions are collected. -/
def dotFp (ints : Bool) (scale : Nat → Option (Nat × Nat)) (z : Nat) (a b : List (List Ex)) : Nat × Nat :=
  (List.zip (List.range a.length) (List.zip a b)).foldl (fun (acc : Nat × Nat) p =>
    let x := chunkSum ints p.2.1 p.2.2
    let r := accFp acc.1 (match scale p.1 with | none => x | some (ea, eb) => scaleEx x ea eb)
    (r.bits, acc.2 ||| r.flags)) (z, 0)

/-- An element accumulated over its chunks in I32. -/
def dotInt (sat : Bool) (z : Nat) (a b : List (List Int)) : Nat :=
  (List.zip a b).foldl (fun (acc : Nat) p => accInt sat acc ((List.zipWith (· * ·) p.1 p.2).foldl (· + ·) 0)) z

/-- A dense row from a compressed one (R137): bit i of the metadata word of group g keeps position 32g + i, the kept positions fill the
group's slots in ascending order, at most `n` of them. -/
def denseRow (row : List Nat) (md : Nat → Nat) (n groups : Nat) : List Nat :=
  ((List.range groups).map fun g =>
    (List.range 32).map fun i =>
      let slot := popCount (md g) i
      if bitOf (md g) i && slot < n then row.getD (n * g + slot) 0 else 0).flatten

/-- What an MMA, MMAS or MMAT makes of a tile, row by row, and its exceptions. -/
def mmaCompute (o : MmaOp) (c : Cmd) (old : List Word) : List Word × Nat :=
  let fw := c.word
  let fa := fmtOfCode (fwA fw)
  let fb := fmtOfCode (fwB fw)
  let j := fwBlocks fw
  let tern := fa == .t2
  let arows := imageRows (imageOf c.regs o.a (fwARegs fw)) 64 (fwKc fw) (fmtBits (fwA fw))
  let arows := match o.md with
    | none => arows
    | some v => (List.zip (List.range 64) arows).map fun p =>
        denseRow p.2 (fun g => ((tget zeroLanes c.regs (v + (64 * g + p.1) / 32)).getD (p.1 % 32) 0).toNat) (fwSpn fw) j
  let bimg := match o.b with | .regs v => imageOf c.regs v (fwBRegs fw) | .handle _ => c.aux
  let bcols := if tern then List.zipWith (· ++ ·) (imageRows (bimg.take 4096) 64 64 8) (imageRows (bimg.drop 4096) 64 64 8)
    else imageRows bimg 64 (fwSpan fw) (fmtBits (fwB fw))
  let simg := match o.scl with | some v => imageOf c.regs v j | none => []
  let scale (m n i : Nat) : Option (Nat × Nat) :=
    if fwScale fw = 1 then some ((simg.getD (m + 64 * i) 0).toNat, (simg.getD (64 * j + n + 64 * i) 0).toNat) else none
  let zs := tileRows (if o.acc then old else List.replicate 4096 0)
  let fd := if tern && arows.any (fun r => r.any (· == 2)) then fFD else 0
  if fwAcc fw = 0 then
    let ints := isIntFmt fa
    let bs := bcols.map fun r => chunks32 j (r.map (unpackElt fb))
    let out := (List.zip (List.range 64) (List.zip arows zs)).map fun p =>
      let as := chunks32 j (p.2.1.map (unpackElt fa))
      (List.zip (List.range 64) (List.zip bs p.2.2)).map fun q => dotFp ints (scale p.1 q.1) q.2.2.toNat as q.2.1
    (out.flatten.map fun x => BitVec.ofNat 32 x.1, out.flatten.foldl (fun a x => a ||| x.2) fd)
  else
    let bs := bcols.map fun r => chunks32 j (r.map (eltInt fb))
    let out := (List.zip arows zs).map fun p =>
      let as := chunks32 j (p.1.map (eltInt fa))
      (List.zip bs p.2).map fun q => BitVec.ofNat 32 (dotInt (fwAcc fw == 2) q.2.toNat as q.1)
    (out.flatten, fd)

/-! ### Moving tiles (R144) -/

/-- (log 53, DEDUCED) -/
def execZclr (o : ZclrOp) (s : State) : Out :=
  s.run fun c w => if w.engineFull then s.hold c w roomWait else s.submit c w o.ctl.setf false fun op => Cmd.bare (.zclr o) o.guard op

/-- The bytes a ZLD or ZST spans. -/
def zmemSpan (stride : Nat) : Nat := 63 * 16 * stride + 256

/-- ZLD and ZST at issue. -/
def State.zmemIssue (s : State) (o : ZmemOp) (i : Instr) (epi : Bool) : Out :=
  s.run fun c w =>
    if w.engineFull then s.hold c w roomWait
    else s.withReads c w [(.s o.a, 1)] [] (c.split w).em <|
      let off := (w.s o.a).toNat
      match s.scratchRange w.team off (zmemSpan o.stride) 16 with
      | some (code, cause) => s.scratchFault c w code cause off
      | none => s.submit c w o.ctl.setf epi fun op => { Cmd.bare i o.guard op with addr := BitVec.ofNat 64 off }

def execZld (o : ZmemOp) (s : State) : Out := s.zmemIssue o (.zld o) false
def execZst (o : ZmemOp) (s : State) : Out := s.zmemIssue o (.zst o) true

/-- ZMOV at issue: all 32 lanes active. -/
def execZmov (o : ZmovOp) (s : State) : Out :=
  s.run fun c w =>
    let em := (c.split w).em
    if w.engineFull then s.hold c w roomWait
    else if em != allOnes then s.fault c w tILLCONV 1 (~~~em) []
    else s.submit c w o.ctl.setf true fun op => { Cmd.bare (.zmov o) o.guard op with dst := vCodes o.d 16 }

/-- ZADD at issue. -/
def execZadd (o : ZaddOp) (s : State) : Out :=
  s.run fun c w =>
    if w.engineFull then s.hold c w roomWait
    else match w.fwTrap (c.split w).em o.c .zadd with
      | some (code, cause, mask) => s.fault c w code cause mask []
      | none => s.submit c w o.ctl.setf false fun op => { Cmd.bare (.zadd o) o.guard op with word := (w.v o.c 0).toNat }

/-- ZADD's elements and exceptions. -/
def zaddCompute (fw : Nat) (d a : List Word) : List Word × Nat :=
  let r := List.zipWith (fun (x y : Word) =>
    if fwAcc fw = 0 then
      let z := finishFp fp32 .rn false 0 (exAdd .rn (unpackFp fp32 x.toNat) (unpackFp fp32 y.toNat))
      (BitVec.ofNat 32 z.bits, z.flags)
    else (BitVec.ofNat 32 (accInt (fwAcc fw == 2) x.toNat (sxNat y.toNat 32)), 0)) d a
  (r.map (·.1), r.foldl (fun a x => a ||| x.2) 0)

/-- The scratchpad rows of a ZLD, and the marks of its tile's rows. (log 54, DEDUCED) -/
def Team.zldRows (t : Team) (off stride : Nat) : List Word × Nat :=
  let rows := (List.range 64).map fun m => memGets t.scratch (off + m * 16 * stride) 256
  ((rows.map fun b => (List.range 64).map fun n => wordAt b (4 * n)).flatten,
    (List.range 64).foldl (fun acc m =>
      let a := off + m * 16 * stride
      if t.smark.any fun k => a / 32 ≤ k && k ≤ (a + 255) / 32 then acc + 2 ^ m else acc) 0)

end Sys2Proof.Machine
end

