-- ==== Sys2Proof/Machine/Engine.lean ====
section
/-! DEFINITION. The epilogue (06 R147–R150), activation banks (R151, R152), and the events of the matrix and epilogue queues (R142–R146, 18 R351). -/

namespace Sys2Proof.Machine

/-! ### EPI at issue (R150) -/

/-- The causes of R141 that the parameter block and the fields decide, the lowest first; 0 for none. (log 55, DEDUCED) -/
def State.epiCause (s : State) (core ctx : Nat) (w : Wave) (em : LaneMask) (o : EpiOp) (b : List Byte) : Nat :=
  let dest := epiDest b
  if !dest && em != allOnes then 1
  else if epiAct b = 2 && ((s.core core).act (epiTbank b)).nextOwner != some ctx then 5
  else if 6 ≤ epiRm b || epiAct b = 3 || epiBiasFmt b = 3 || 12 ≤ epiOfmt b || 5 ≤ epiScope b ||
      dest != o.b.isNone || dest != o.c.isSome then 6
  else match o.b with
    | some v => if runOk w.kern.vregs v (epiRegs b) then 0 else 9
    | none => 0

/-- The format of the bias elements. -/
def biasFmt (b : List Byte) : Fmt := match epiBiasFmt b with | 0 => .fp32 | 1 => .bf16 | _ => .fp16

/-- Read bias elements from the `i`th on, each as LD reads it; what is read is their bytes. (log 55, DEDUCED) -/
def State.readBias (s : State) (u : Who) (core : Nat) (w : Wave) (base : DWord) (size : Nat) :
    Nat → Nat → Except (AFault × State) (State × List Byte)
  | 0, _ => .ok (s, [])
  | n + 1, i =>
      match effAddr base ((size * i : Nat) : Int) with
      | .error f => .error (f, s)
      | .ok ea => match s.structRead u core w size size 1 ea with
        | .error f => .error f
        | .ok (s1, b) => match s1.readBias u core w base size n (i + 1) with
          | .error f => .error f
          | .ok (s2, r) => .ok (s2, b ++ r)

/-- The check of one unit that an EPI writes (R150 step 5), and the unit with its addresses. (log 55, DEDUCED) -/
def State.epiUnit (s : State) (c : Cur) (w : Wave) (op scope : Nat) (t : TRec) (m n : Nat) (x : TUnit) : Except AFault EOut :=
  let bytes := unitBytes t.w
  if 2 ^ 44 ≤ x.off then .error { code := fOFFOVF, cause := 0, addr := t.base }
  else match s.checkAccess (s.who c w) { right := 1, kinds := kindsST, size := bytes, align := 0, write := true } 0 (segAddr (selOf t.base) x.off) with
  | .error f => .error f
  | .ok a =>
      let es := (s.entriesOf c w scope false 0 a (List.replicate bytes 0)).map fun e => { e with op := 0, stamp := op }
      .ok { m := m, n := n, cnt := x.cnt, off := x.off, pas := (List.range bytes).map a.paAt, es := es }

/-- Check units in order; the first that fails decides. -/
def State.epiUnits (s : State) (c : Cur) (w : Wave) (op scope : Nat) (t : TRec) : List (Nat × Nat × TUnit) → Except AFault (List EOut)
  | [] => .ok []
  | (m, n, x) :: r =>
      match s.epiUnit c w op scope t m n x with
      | .error f => .error f
      | .ok a => match s.epiUnits c w op scope t r with
        | .error f => .error f
        | .ok l => .ok (a :: l)

/-- The units of the 64 × 64 box at its coordinates that have an element in range (R149(b)). -/
def epiBox (t : TRec) (c : List Int) : List (Nat × Nat × TUnit) :=
  (((List.range 64).map fun m =>
    (List.range (64 / packUnit t.w)).map fun j =>
      (m, j * packUnit t.w, t.unitOf (c.getD 0 0) m [c.getD 1 0 + m, c.getD 2 0, c.getD 3 0, c.getD 4 0] (j * packUnit t.w))).flatten).filter
        fun x => x.2.2.cnt != 0

/-- EPI enters the epilogue queue with what it has captured. -/
def State.epiQueue (s : State) (c : Cur) (w : Wave) (o : EpiOp) (blk bias rec_ : List Byte) (outs : List EOut) : State :=
  let gen := ((s.core (coreOfKey c.wave)).act (epiTbank blk)).nextGen
  let dst := match o.b with | some v => vCodes v (epiRegs blk) | none => []
  s.submit c w o.ctl.setf true fun op =>
    { Cmd.bare (.epi o) o.guard op with
      blk := blk, aux := bias, rec2 := rec_, gen := gen, rngLo := w.rngLo, rngHi := w.rngHi, dst := dst, outs := outs }

/-- EPI with DEST 1 after its record has been read: cause 7, the record and the coordinates, the units. (log 55, DEDUCED) -/
def State.epiTensor (s : State) (c : Cur) (w : Wave) (o : EpiOp) (blk bias rec_ : List Byte) (x : Nat) : State :=
  let t := trecOf rec_
  let co := (List.range 5).map fun i => if i < t.rank then sxNat (w.s (x + i)).toNat 32 else 0
  if t.fmt != epiOfmt blk || t.rank < 2 then s.illconv c w 7
  else if w.kern.sregs < x + t.rank then s.illconv c w 9
  else s.withReads c w [(.s x, t.rank)] [] (c.split w).em <|
    if !t.ok (co.getD 0 0) then s.illconv c w 15
    else match s.epiUnits c w (w.opctr + 1) (epiScope blk) t (epiBox t co) with
      | .error f => s.uniFault c w f
      | .ok outs => s.epiQueue c w o blk bias rec_ outs

/-- EPI. (log 53, DEDUCED) -/
def execEpi (o : EpiOp) (s : State) : Out :=
  s.run fun c w =>
    let u := s.who c w
    let core := coreOfKey c.wave
    let em := (c.split w).em
    if w.engineFull then s.hold c w roomWait
    else s.withReads c w [(.s o.a, 2)] [] em <|
      match s.structRead u core w 256 256 5 (w.s64 o.a) with
      | .error (f, t) => t.uniFault c w f
      | .ok (s1, blk) =>
        let cause := s1.epiCause core u.ctx w em o blk
        if 0 < cause then (if cause = 1 then s1.fault c w tILLCONV 1 (~~~em) [] else s1.illconv c w cause)
        else match s1.readBias u core w (BitVec.ofNat 64 (natAt blk 0x10 8)) ((biasFmt blk).bits / 8) (if epiBiasEn blk then 64 else 0) 0 with
          | .error (f, t) => t.uniFault c w f
          | .ok (s2, bias) =>
            match o.c with
            | none => s2.epiQueue c w o blk bias [] []
            | some x => match s2.structRead u core w 128 64 5 (BitVec.ofNat 64 (natAt blk 0x30 8)) with
              | .error (f, t) => t.uniFault c w f
              | .ok (s3, r) => s3.epiTensor c w o blk bias r x

/-! ### What an EPI computes (R148) -/

/-- An FP32 field of the parameter block. -/
def blkEx (b : List Byte) (off : Nat) : Ex := unpackFp fp32 (natAt b off 4)

/-- floor of an exact value, clamped to 0 to 255; none for a NaN. -/
def actIndex (x : Ex) : Option Nat :=
  match x with
  | .nan _ => none
  | .inf n => some (if n then 0 else 255)
  | .num n m e _ => some (if n then 0 else min 255 (if 0 ≤ e then m * 2 ^ e.toNat else m / 2 ^ (-e).toNat))

/-- An activation table: slope and intercept of a segment. -/
def actSeg (tab : List Word) (i : Nat) : Ex × Ex := (unpackFp fp32 (tab.getD (2 * i) 0).toNat, unpackFp fp32 (tab.getD (2 * i + 1) 0).toNat)

/-- Negation before an exact sum: a signalling NaN stays one. -/
def actExpr (b : List Byte) (x : Ex) : Ex := exMul (exAdd .rn x (blkEx b 0x28).neg) (blkEx b 0x2C)

/-- The index of an activation segment for a value, with its exceptions: 0 for a NaN; where the sum or the product is a NaN the spec states no
index, and it is a free value (log 2), `draw` being the number of the draw; an invalid operation there is NV (R84, R113). -/
def actPick (b : List Byte) (t draw : Nat) : Nat × Nat :=
  let x := unpackFp fp32 t
  if x.isNan then (0, 0)
  else match actExpr b x with
    | .nan nv => ((Config.freeWord draw).toNat % 256, if nv then fNV else 0)
    | y => ((actIndex y).getD 0, 0)

/-- One output element (R148): its bits and exceptions. -/
def epiElt (b : List Byte) (bias : Ex) (tab : List Word) (lo hi : Word) (draw : Nat) (x : Word) (m n : Nat) : FRes :=
  let v := if epiZint b then exInt (sxNat x.toNat 32) else unpackFp fp32 x.toNat
  let v := exMul (exMul v (blkEx b 4)) (blkEx b 8)
  let v := if epiBiasEn b then exAdd .rn v bias else v
  let t := finishFp fp32 .rn false 0 v
  let r : FRes := match epiAct b with
    | 1 => if bitOf t.bits 31 && !(unpackFp fp32 t.bits).isNan then { bits := 0, flags := t.flags } else t
    | 2 =>
        let i := actPick b t.bits draw
        let g := actSeg tab i.1
        let y := finishFp fp32 .rn false 0 (exFma .rn g.1 (unpackFp fp32 t.bits) g.2)
        { bits := y.bits, flags := t.flags ||| i.2 ||| y.flags }
    | _ => t
  let rm := rmOf (epiRm b)
  let w := if rm = .sr then srWord lo.toNat hi.toNat (natAt b 0x18 4) ((natAt b 0x20 4 + m) % 2 ^ 32) (natAt b 0x1C 4)
      ((natAt b 0x24 4 + n) % 2 ^ 32) else 0
  let y := finishElt (fmtOfCode (epiOfmt b)) rm (epiSat b) w (exMul (unpackFp fp32 r.bits) (blkEx b 0x0C))
  { bits := y.bits, flags := r.flags ||| y.flags }

/-- The bias of each column. -/
def biasList (b bytes : List Byte) : List Ex :=
  let n := (biasFmt b).bits / 8
  (List.range 64).map fun i => if epiBiasEn b then unpackElt (biasFmt b) (natAt bytes (n * i) n) else exInt 0

/-- The table an EPI uses: its own copy, or the bank's. -/
def Cmd.actTable (c : Cmd) (core : Core) : List Word :=
  if 256 < c.blk.length then (List.range 512).map fun i => wordAt c.blk (256 + 4 * i)
  else (core.act (epiTbank c.blk)).tab

/-- The elements of some rows of the tile an EPI has read. -/
def epiRows (c : Cmd) (tab : List Word) (draw : Nat) (rows : List Nat) : List (Nat × List FRes) :=
  let bs := biasList c.blk c.aux
  rows.map fun m =>
    (m, (List.zip (List.range 64) (List.zip bs (tget [] c.regs m))).map fun p =>
      epiElt c.blk p.2.1 tab c.rngLo c.rngHi (draw + 64 * m + p.1) p.2.2 m p.1)

/-- The union of the exceptions of elements. -/
def epiFlags (rows : List (Nat × List FRes)) : Nat := rows.foldl (fun a r => r.2.foldl (fun a x => a ||| x.flags) a) 0

/-- Element codes packed from the lowest bits (R87). -/
def packElts (w : Nat) (l : List Nat) : Nat := l.foldr (fun x acc => x % 2 ^ w + acc * 2 ^ w) 0

/-! ### ACTLD (R152) -/

/-- A bank whose next table has been read. -/
def ActBank.await (b : ActBank) (x : ActWait) : ActBank := { b with queue := b.queue ++ [x] }

def execActld (o : ActldOp) (s : State) : Out :=
  s.run fun c w =>
    let u := s.who c w
    let core := coreOfKey c.wave
    s.withReads c w [(.s o.a, 2)] [] (c.split w).em <|
      match s.structRead u core w 2048 128 1 (w.s64 o.a) with
      | .error (f, t) => t.uniFault c w f
      | .ok (s1, b) =>
          let x : ActWait := { team := w.team, wid := w.wid, op := (w.newOp o.ctl.setf 1).2, ctx := u.ctx, tab := (List.range 512).map fun i => wordAt b (4 * i) }
          (s1.modCore core fun y => y.putAct o.bank ((y.act o.bank).await x)).doneBy c fun w => (w.newOp o.ctl.setf 1).1

/-- Whether a command is an EPI that holds a generation of a bank up to a number and has no copy of its table. -/
def Cmd.usesAct (c : Cmd) (bank gen : Nat) : Bool :=
  match c.ins with
  | .epi _ => epiAct c.blk == 2 && epiTbank c.blk == bank && c.blk.length == 256 && c.gen ≤ gen
  | _ => false

/-- ACTIVATION_INSTALL: the oldest waiting table is installed once every EPI of an earlier generation has completed. -/
def execActivationInstall (core bank : Nat) (s : State) : Out :=
  let b := (s.core core).act bank
  match b.queue with
  | [] => .next s
  | x :: r =>
      if s.waves.any fun p => coreOfKey p.1 == core && (p.2.eq ++ p.2.he).any fun c => c.usesAct bank b.gen then .next s
      else
        let b' : ActBank := { loaded := true, owner := x.ctx, gen := b.gen + 1, tab := x.tab, queue := r }
        .next ((s.modCore core fun y => y.putAct bank b').donePartOf x.team x.wid x.op)

/-! ### The head of a queue (R142, R145, R175) -/

/-- The tile a command writes; the tile an epilogue command reads. -/
def Cmd.wtile (c : Cmd) : Option Nat :=
  match c.ins with
  | .mma o | .mmas o | .mmat o => some o.d
  | .zclr o => some o.d
  | .zld o => some o.d
  | .zadd o => some o.d
  | _ => none
def Cmd.rtile (c : Cmd) : Option Nat :=
  match c.ins with
  | .zst o => some o.d
  | .zmov o => some o.a
  | .epi o => some o.d
  | _ => none

/-- Whether a matrix command is on a tile: writes it, or, for ZADD, reads it. -/
def Cmd.onTile (c : Cmd) (t : Option Nat) : Bool := t.isSome && (c.wtile == t || (match c.ins with | .zadd o => some o.a == t | _ => false))

/-- Whether stores of the wave older than the command still touch what it reads or writes (09 R224(b)). (log 54, DEDUCED) -/
def State.storesPending (s : State) (k : Nat) (c : Cmd) : Bool :=
  match c.ins with
  | .zld o => s.olderStore k c.op true c.addr.toNat (zmemSpan o.stride)
  | .zst o => s.olderStore k c.op true c.addr.toNat (zmemSpan o.stride)
  | .epi _ => c.outs.any fun x => x.es.any fun e => s.olderStore k c.op (e.kind == 1) (e.cells.headD (0, 0)).1 e.cells.length
  | _ => false

/-- Whether the head of a queue must wait though its guard is TRUE. (log 54, DEDUCED) -/
def State.headHeld (s : State) (k : Nat) (w : Wave) (c : Cmd) : Bool :=
  s.storesPending k c ||
  (match c.ins with
   | .epi _ => epiAct c.blk == 2 && c.blk.length == 256 && ((s.core (coreOfKey k)).act (epiTbank c.blk)).gen != c.gen
   | _ => false) ||
  (c.wtile.isSome && w.eq.any fun e => !e.started && e.op < c.op && e.rtile == c.wtile)

/-- An epilogue command reads its tile: undefined values where an earlier matrix command of the wave on it has not completed. (log 54, DEDUCED) -/
def State.readTile (s : State) (k : Nat) (w : Wave) (c : Cmd) : State × Cmd :=
  let core := s.core (coreOfKey k)
  let p := s.phys w.team (c.rtile.getD 0)
  if w.mq.any fun m => m.op < c.op && m.onTile c.rtile then
    let rows := (List.range 64).map fun m => (m, (List.range 64).map fun n => Config.freeWord (s.freeCtr + 64 * m + n))
    ({ s with freeCtr := s.freeCtr + 4096 }, { c with regs := rows, batch := core.tileMarks p })
  else (s, { c with regs := List.zip (List.range 64) (tileRows (core.tile p)), batch := core.tileMarks p })

/-- A command starts: an epilogue command reads its tile, a ZLD its bytes. (log 54, DEDUCED) -/
def State.startCmd (s : State) (k : Nat) (w : Wave) (c : Cmd) : State × Cmd :=
  match c.ins with
  | .zst _ | .zmov _ | .epi _ => let r := s.readTile k w c; (r.1, { r.2 with started := true })
  | .zld o =>
      let r := ((s.team? w.team).map fun t => t.zldRows c.addr.toNat o.stride).getD ([], 0)
      (s, { c with regs := List.zip (List.range 64) (tileRows r.1), batch := r.2, started := true })
  | _ => (s, { c with started := true })

/-- A queue of a wave, and the wave with it replaced. -/
def Wave.queue (w : Wave) (q : Nat) : List Cmd := if q = 0 then w.mq else w.eq
def Wave.putQueue (w : Wave) (q : Nat) (l : List Cmd) : Wave := if q = 0 then { w with mq := l } else { w with eq := l }

/-- The guard of a command reads: 0 UNRESOLVED, 1 TRUE, 2 FALSE (R175); a command without one runs. -/
def Wave.guardOf (w : Wave) (c : Cmd) : Nat := match c.guard with | none => 1 | some g => tget 0 w.guards g

/-- ENGINE_COMMAND_RUN: the head of the matrix (0) or epilogue (1) queue reads its guard, and is held, discarded or started. -/
def execEngineCommandRun (k q : Nat) (s : State) : Out :=
  match s.wave? k with
  | none => .next s
  | some w =>
    match w.queue q with
    | [] => .next s
    | c :: r =>
      if c.started || w.guardOf c = 0 || !s.clocked (partOfKey k) then .next s
      else if w.guardOf c = 2 then .next ((s.putWave k (w.putQueue q r)).donePart k c.op)
      else if s.headHeld k w c then .next s
      else
        let x := s.startCmd k w c
        .next (x.1.modWave k (·.putQueue q (x.2 :: r)))

/-! ### Completion (R143, R149, 18 R351) -/

/-- A matrix command's tile, marks and exceptions when it completes. (log 52, DEDUCED) -/
def State.matrixDone (s : State) (k : Nat) (w : Wave) (c : Cmd) : State × Nat :=
  let q := coreOfKey k
  let core := s.core q
  let p := s.phys w.team (c.wtile.getD 0)
  let mma (o : MmaOp) : State × Nat :=
    if c.gen = 1 then
      ({ (s.putCore q (core.putTile p ((List.range 4096).map fun i => Config.freeWord (s.freeCtr + i)) (2 ^ 64 - 1 &&& c.batch))) with
          freeCtr := s.freeCtr + 4096 }, 0)
    else
      let r := mmaCompute o c (core.tile p)
      (s.putCore q (core.putTile p r.1 (c.batch ||| (if o.acc then core.tileMarks p else 0))), r.2)
  match c.ins with
  | .mma o => mma o
  | .mmas o => mma o
  | .mmat o => mma o
  | .zclr _ => (s.putCore q (core.putTile p (List.replicate 4096 0) 0), 0)
  | .zld _ => (s.putCore q (core.putTile p (c.regs.map (·.2)).flatten c.batch), 0)
  | .zadd o =>
      let a := s.phys w.team o.a
      let r := zaddCompute c.word (core.tile p) (core.tile a)
      (s.putCore q (core.putTile p r.1 (core.tileMarks p ||| core.tileMarks a)), r.2)
  | _ => (s, 0)

/-- Register words from row images: word i of the eight rows goes to register v + i / 32, lane i mod 32; the words of a marked row are
not written and are marked. (log 52, DEDUCED) -/
def Wave.putImage (w : Wave) (v : Nat) (words : List (Word × Bool)) : Wave :=
  let n := words.length / 32
  let at_ (r l : Nat) : Word × Bool := words.getD (32 * r + l) (0, false)
  let w1 := (List.range n).foldl (fun (w : Wave) r => w.putVm (v + r) (maskWhere fun l => !(at_ r l).2) fun l => (at_ r l).1) w
  let keys (bad : Bool) : List Nat := ((List.range n).map fun r => (allLanes.filter fun l => (at_ r l).2 == bad).map (errV (v + r))).flatten
  let w2 := w1.wrote (keys false)
  { w2 with errs := (keys true).foldl (fun e x => sins e (x + errRow)) w2.errs }

/-- The words of a row of `bytes` bytes packed in a number. -/
def rowWords (x bytes : Nat) (bad : Bool) : List (Word × Bool) := (List.range (bytes / 4)).map fun i => (BitVec.ofNat 32 (bitsOf x (32 * i) 32), bad)

/-- An engine's store to memory by a wave (09 R226): performed at the point R206 gives for its scope. -/
def State.engineStore (s : State) (team : Nat) (e : Entry) : State :=
  if e.kind = 1 then s.scratchPut team e.cells e.bad false
  else if s.replaying team then s.replayCells team e.cells
  else if e.kind = 0 || (e.scope = 0 && (e.kind == 2 || e.kind == 3)) then s.modWave e.wave fun w => { w with sb := w.sb ++ [.store e] }
  else if performsInPb e then s.modCluster (clusterOfKey e.wave) fun c => { c with pb := c.pb ++ [.store e] }
  else (s.flushHq e.line).applyEntry e true

/-- The lines that an EPI's unit is read from where it writes only a part of it, as their homes have them. -/
def State.epiRead (s : State) (team : Nat) (ew : Nat) (x : EOut) : State :=
  if x.cnt = packUnit ew || s.replaying team then s
  else x.es.foldl (fun (s : State) e => if e.kind = 1 then s else s.agentRead e.line) s

/-- The bytes that an EPI's unit holds. -/
def State.oldUnit (s : State) (k : Nat) (w : Wave) (x : EOut) : Nat :=
  leNat (x.es.map fun e => e.cells.map fun c => (s.readByte (coreOfKey k) w e.kind 3 c.1 e.via).1).flatten

/-- The store entries of one unit of a tensor, with their data. -/
def State.epiEntries (s : State) (k : Nat) (w : Wave) (ew : Nat) (elts : List (Nat × List FRes)) (marks : Nat) (x : EOut) : List Entry :=
  let row := tget [] elts x.m
  let new := packElts ew ((List.range (packUnit ew)).map fun i => ((row[x.n + i]?).map (·.bits)).getD 0)
  let v := if x.cnt = packUnit ew then new else mergeUnit ew x.cnt new (s.oldUnit k w x)
  let b := leBytes (unitBytes ew) v
  x.es.map fun e => { e with wave := k, core := coreOfKey k, cells := e.cells.map fun c => (c.1, b.getD (x.pas.idxOf c.1) 0), bad := bitOf marks x.m }

/-- An EPI's tensor writes and their audit records, a sector that it writes whole taken together (18 R348); those that a HOST or PEER home
refuses are dropped and reported (22 R394). -/
def State.epiTensorDone (s : State) (k : Nat) (w : Wave) (c : Cmd) (ew : Nat) (elts : List (Nat × List FRes)) : State :=
  let far (x : EOut) : Bool := x.es.any fun e => e.kind == 4 || e.kind == 5
  let refuse := s.modu.refused.contains (2 * k) && c.outs.any far
  let s := if refuse then (s.refused (2 * k)).alert 0x394 k else s
  let outs := c.outs.filter fun x => !(refuse && far x)
  let s0 := outs.foldl (fun s x => s.epiRead w.team ew x) s
  let s1 := (mergeSectors (outs.map (s0.epiEntries k w ew elts c.batch)).flatten).foldl (fun (s : State) e => s.engineStore w.team e) s0
  match outs with
  | [] => s1
  | x :: _ =>
      let wr := outs.foldl (fun (t : Written) y =>
        t.noteUnit y.off (unitBytes ew) (packElts ew ((List.range y.cnt).map fun i => (((tget [] elts y.m)[y.n + i]?).map (·.bits)).getD 0)) (y.cnt * ew)) []
      s1.signWritten w.team ((x.es.map (·.kind)).headD 0) (selOf (BitVec.ofNat 64 (natAt c.rec2 0 8))) wr

/-- An epilogue command completes: the state, the wave it changes, its exceptions. (log 54, DEDUCED) -/
def State.epilogueDone (s : State) (k : Nat) (w : Wave) (c : Cmd) : State × Wave × Nat :=
  let row (m : Nat) : List Word := tget [] c.regs m
  match c.ins with
  | .zst o =>
      let s1 := (List.range 64).foldl (fun (s : State) m =>
        s.scrWrite w.team (c.addr.toNat + m * 16 * o.stride) ((row m).map fun x => leBytes 4 x.toNat).flatten (bitOf c.batch m)) s
      (s1, (s1.wave? k).getD w, 0)
  | .zmov o =>
      (s, w.putImage o.d ((List.range 8).map fun i => (row (8 * o.blk + i)).map fun x => (x, bitOf c.batch (8 * o.blk + i))).flatten, 0)
  | .epi o =>
      let ew := fmtBits (epiOfmt c.blk)
      let elts := epiRows c (c.actTable (s.core (coreOfKey k))) s.freeCtr
        (match o.b with | some _ => (List.range 8).map fun i => 8 * o.blk + i | none => List.range 64)
      let s1 := if epiAct c.blk = 2 then { s with freeCtr := s.freeCtr + 4096 } else s
      match o.b with
      | some v => (s1, w.putImage v (elts.map fun r => rowWords (packElts ew (r.2.map (·.bits))) (8 * ew) (bitOf c.batch r.1)).flatten, epiFlags elts)
      | none =>
          let s2 := s1.epiTensorDone k w c ew elts
          (s2, (s2.wave? k).getD w, epiFlags elts)
  | _ => (s, w, 0)

/-- ENGINE_COMMAND_COMPLETE: the command started at the head of a queue finishes writing, its exceptions enter FPSTAT, its flag falls. -/
def execEngineCommandComplete (k q : Nat) (s : State) : Out :=
  match s.wave? k with
  | none => .next s
  | some w =>
    match w.queue q with
    | [] => .next s
    | c :: r =>
      if !c.started || !s.clocked (partOfKey k) then .next s
      else if q = 0 then
        let x := s.matrixDone k w c
        .next ((x.1.modWave k fun w => (w.putQueue 0 r).orFp x.2).donePart k c.op)
      else
        let x := s.epilogueDone k w c
        .next ((x.1.putWave k ((x.2.1.putQueue q r).orFp x.2.2)).donePart k c.op)

end Sys2Proof.Machine
end

