-- ==== Sys2Proof/Machine/Copy.lean ====
section
/-! DEFINITION. The block-transfer engine: BTCOPY, BTLIN, BTGATH at issue, batches, BTCLOSE, BTWAIT, BTRING, the copies' start and completion (12 R279–R295). -/

namespace Sys2Proof.Machine

/-! ### Issue (R279–R281) -/

/-- Whether the copy queue holds all the copies not started that it may (17 R336). (log 53, DEDUCED) -/
def Wave.copyFull (w : Wave) : Bool := Config.copyRoom ≤ w.cq.length

/-- A trap of a copy command: FAULTMASK holds the leader lane, FADDR the address. -/
def State.copyFault (s : State) (c : Cur) (w : Wave) (l : Nat) (f : AFault) : State := s.fault c w f.code f.cause (laneBit l) [(l, f.addr)]

/-- The checks of a memory side that do not depend on the element (R281 step 2). -/
def State.copySide (s : State) (u : Who) (ea : DWord) (write : Bool) : Option AFault :=
  if selOf ea = 0 then some { code := fNULLSEG, cause := 0, addr := ea }
  else match s.descBytes u (selOf ea) with
  | .bad => some { code := fSEGV, cause := 4, addr := ea }
  | .poison _ => some { code := fPOISON, cause := 5, addr := ea }
  | .ok b =>
      let d := descOf b
      if d.detached then some { code := fLINKAGE, cause := 3, addr := ea }
      else if !hasRight d (if write then 5 else 4) then some { code := fSEGV, cause := 2, addr := ea }
      else if !((2 ≤ d.kind && d.kind ≤ 5) || (d.kind == 6 && !write)) then some { code := fSEGV, cause := 3, addr := ea }
      else none

/-- The checks of a scratchpad side (R281 step 3). -/
def State.scratchSide (s : State) (team off extent align : Nat) : Option AFault :=
  let ea := segAddr 0 off
  if off % align != 0 then some { code := fALIGN, cause := 0, addr := ea }
  else if s.scratchLen team < off + extent then some { code := fSEGV, cause := 1, addr := ea }
  else none

/-- The first fault of several checks. -/
def firstFault : List (Option AFault) → Option AFault
  | [] => none
  | some f :: _ => some f
  | none :: r => firstFault r

/-- The wave's batch block (R287). (log 57, DESIGN CHOICE) -/
def State.batchBlock (s : State) (k : Nat) (w : Wave) : Option Nat := s.areaPA (partOfKey k) w.area 0x40

/-- A copy enters its queue and joins the open batch (R281 step 5, R288). -/
def State.copyQueue (s : State) (c : Cur) (w : Wave) (setf : Option Nat) (mk : Nat → Nat → Cmd) : State :=
  let blk := s.batchBlock c.wave w
  let batch := match blk with | some b => (s.homeNat b 4 + 1) % 2 ^ 32 | none => 1
  let s1 := match blk with
    | some b => let p := b + 0x20 + 4 * (batch % 16); s.putWord p ((s.homeNat p 4 + 1) % 2 ^ 32)
    | none => s
  s1.doneBy c fun v =>
    let q := v.newOp setf 1
    { q.1 with cq := q.1.cq ++ [{ mk q.2 batch with gen := bnat (s.who c w).sup }] }

/-- A copy's coordinates as captured words, from number 0 on. -/
def coordTab (l : List Int) : Tab Word := (List.zip (List.range l.length) l).map fun p => (p.1, BitVec.ofInt 32 p.2)
/-- (log 56, DEDUCED) -/
def Cmd.coord (c : Cmd) (i : Nat) : Int := sxNat (tget 0 c.sregs i).toNat 32

/-- What governs a copy: the active lanes and the leader. Where no lane is active the instruction only advances. (log 53, DEDUCED) -/
def State.runCopy (s : State) (ctl : Ctl) (srcs : List (Src × Nat)) (rows : Option Nat) (go : Cur → Wave → LaneMask → Nat → State) : Out :=
  s.run fun c w =>
    let m := w.actLanes (c.split w) ctl.pred ctl.neg
    let l := lowestLane m
    if m = 0 then s.withReads c w [] (predRegs ctl.pred) m <| s.done c w
    else if w.copyFull then s.hold c w roomWait
    else s.withReads c w srcs (predRegs ctl.pred) (laneBit l) <|
      s.withReads c w (match rows with | some e => [(.v e, 1)] | none => []) [] m <| go c w m l

/-- A register of a run that begins at an operand, at the leader lane; ZERO gives 0 for each. -/
def Wave.runWord (w : Wave) (x : Split) (l : Nat) (o : Src) (i : Nat) : Int := (w.src x l (o.plus i)).toInt

/-- Whether a run of registers from an operand stays within the declaration of its kind. -/
def Wave.runFits (w : Wave) (o : Src) (n : Nat) : Bool :=
  match o with
  | .v r => r + n ≤ w.kern.vregs
  | .s r => r + n ≤ w.kern.sregs
  | _ => true

/-- BTCOPY. -/
def execBtcopy (o : CopyOp) (s : State) : Out :=
  s.runCopy o.ctl [(o.a, 2), (o.b, 1), (o.c, 1)] none fun c w _ l =>
    let x := c.split w
    let u := s.who c w
    let ra := w.src64 x l false o.a
    match s.structReadAt u (coreOfKey c.wave) w l 128 64 5 ra with
    | .error (f, t) => t.copyFault c w l f
    | .ok (s1, b) =>
      let t := trecOf b
      let off := (w.src x l o.c).toNat
      if !t.ok (w.runWord x l o.b 0) then s1.copyFault c w l { code := tILLCONV, cause := 15, addr := ra }
      else if !w.runFits o.b t.rank then s1.copyFault c w l { code := tILLCONV, cause := 9, addr := ra }
      else s1.withReads c w [(o.b, t.rank)] [] (laneBit l) <|
        match firstFault [s1.copySide u t.base o.st, s1.scratchSide w.team off (t.rows * t.pitch) (if t.swz = 0 then 16 else max 16 t.span)] with
        | some f => s1.copyFault c w l f
        | none =>
            let co := (List.range 5).map fun i => if i < t.rank then w.runWord x l o.b i else 0
            s1.copyQueue c w o.ctl.setf fun op batch =>
              { Cmd.bare (.btcopy o) o.guard op with
                rec2 := b, sregs := coordTab co, addr := BitVec.ofNat 64 off, batch := batch }

/-- BTGATH: BOX1 is ignored; the rows are those of the active lanes, ascending. (log 56, DEDUCED) -/
def execBtgath (o : GathOp) (s : State) : Out :=
  s.runCopy o.ctl [(o.a, 2), (o.b, 1), (o.c, 1)] (some o.e) fun c w m l =>
    let x := c.split w
    let u := s.who c w
    let ra := w.src64 x l false o.a
    match s.structReadAt u (coreOfKey c.wave) w l 128 64 5 ra with
    | .error (f, t) => t.copyFault c w l f
    | .ok (s1, b) =>
      let t0 := trecOf b
      let t := { t0 with boxes := lset t0.boxes 1 1 }
      let off := (w.src x l o.c).toNat
      let c0 := (w.src x l o.b).toInt
      if !t.ok c0 || t.rank != 2 then s1.copyFault c w l { code := tILLCONV, cause := 15, addr := ra }
      else
        let rows := (lanesOf m).map fun j => (w.v o.e j).toInt
        match firstFault [s1.copySide u t.base o.st,
            s1.scratchSide w.team off (rows.length * t.pitch) (if t.swz = 0 then 16 else max 16 t.span)] with
        | some f => s1.copyFault c w l f
        | none =>
            s1.copyQueue c w o.ctl.setf fun op batch =>
              { Cmd.bare (.btgath o) o.guard op with
                rec2 := b, sregs := coordTab (c0 :: rows), addr := BitVec.ofNat 64 off, em := m, batch := batch }

/-- A side of a BTLIN: a seg-address, or a scratchpad offset. -/
def Wave.linSide (w : Wave) (x : Split) (l : Nat) (o : Src) (scr : Bool) : DWord :=
  if scr then BitVec.ofNat 64 (w.src x l o).toNat else w.src64 x l false o

/-- The alignment checks of BTLIN (R281 step 4): source, destination, length. (log 56, DEDUCED) -/
def linAlign (srcS dstS : Bool) (a b : DWord) (n : Nat) : Option AFault :=
  let at_ (scr : Bool) (x : DWord) : DWord := if scr then segAddr 0 x.toNat else x
  if offOf a % 16 != 0 then some { code := fALIGN, cause := 0, addr := at_ srcS a }
  else if offOf b % 16 != 0 then some { code := fALIGN, cause := 0, addr := at_ dstS b }
  else if n % 16 != 0 then some { code := fALIGN, cause := 0, addr := at_ srcS a }
  else none

/-- BTLIN. -/
def execBtlin (o : LinOp) (s : State) : Out :=
  s.runCopy o.ctl [(o.a, if o.srcS then 1 else 2), (o.b, if o.dstS then 1 else 2), (o.c, 1)] none fun c w _ l =>
    let x := c.split w
    let u := s.who c w
    let a := w.linSide x l o.a o.srcS
    let b := w.linSide x l o.b o.dstS
    let n := (w.src x l o.c).toNat
    match firstFault [if o.srcS then none else s.copySide u a false, if o.dstS then none else s.copySide u b true,
        if o.srcS then s.scratchSide w.team a.toNat n 16 else none, if o.dstS then s.scratchSide w.team b.toNat n 16 else none,
        linAlign o.srcS o.dstS a b n] with
    | some f => s.copyFault c w l f
    | none =>
        s.copyQueue c w o.ctl.setf fun op batch =>
          { Cmd.bare (.btlin o) o.guard op with
            addr := a, sregs := [(0, loWord b), (1, hiWord b), (2, BitVec.ofNat 32 n)], batch := batch }

/-! ### What a copy moves (R278, R283–R286) -/

/-- A byte's place: at a physical address, in the scratchpad, in expanded code. -/
inductive Loc where
  | mem (pa : Nat)
  | scr (a : Nat)
  | code (base : DWord) (off : Nat)
  deriving DecidableEq, Repr

/-- One unit to move: source and destination bytes, the low bits that come from the source, the bits written (the rest of those
are fill), the destination's offset in its segment, and its number among the units planned, from 1. -/
structure Move where
  src   : List Loc
  dst   : List Loc
  bits  : Nat
  total : Nat
  fill  : Nat
  off   : Nat
  ix    : Nat
  deriving DecidableEq, Repr

/-- The places of a unit of a segment, or how the copy ends there: status and FCODE of R294. -/
def State.memPlaces (s : State) (u : Who) (base : DWord) (off n : Nat) (write : Bool) : Except (Nat × Nat) (List Loc) :=
  match s.segUnit u base off n write with
  | .error f =>
      .error (if f.code = fOFFOVF then (1, fOFFOVF) else if f.code = fSEGV then (2, fSEGV)
              else if f.code = fPOISON then (3, fPOISON) else (3, fPAGE))
  | .ok (a, pas) => .ok (if a.desc.ccode then (List.range n).map fun i => .code base (off + i) else pas.map .mem)

/-- The fill of a whole unit. -/
def TRec.fillUnit (t : TRec) : Nat := packElts t.w (List.replicate (packUnit t.w) t.fill)

/-- Plan the units of a box, up to the first that fails; `i` units have been planned before. (log 56, DEDUCED) -/
def State.planUnits (s : State) (u : Who) (t : TRec) (st : Bool) (sbase : Nat) : Nat → List TUnit → List Move × Option (Nat × Nat)
  | _, [] => ([], none)
  | i, x :: r =>
      let n := unitBytes t.w
      let scr := (List.range n).map fun i => Loc.scr (t.soff sbase x.row (x.col + i))
      let all := packUnit t.w * t.w
      if x.cnt = 0 then
        let p := s.planUnits u t st sbase (i + 1) r
        if st then p else ({ src := [], dst := scr, bits := 0, total := all, fill := t.fillUnit, off := 0, ix := i + 1 } :: p.1, p.2)
      else match s.memPlaces u t.base x.off n st with
        | .error e => ([], some e)
        | .ok mem =>
            let p := s.planUnits u t st sbase (i + 1) r
            let mv : Move := if st then { src := scr, dst := mem, bits := x.cnt * t.w, total := x.cnt * t.w, fill := 0, off := x.off, ix := i + 1 }
              else { src := mem, dst := scr, bits := x.cnt * t.w, total := all, fill := t.fillUnit, off := 0, ix := i + 1 }
            (mv :: p.1, p.2)

/-- Plan `n` units of 16 bytes of a BTLIN from its `i`th on. -/
def State.planLin (s : State) (u : Who) (srcS dstS : Bool) (a b : DWord) (from_ : Nat) : Nat → Nat → List Move × Option (Nat × Nat)
  | 0, _ => ([], none)
  | n + 1, i =>
      let side (scr : Bool) (x : DWord) (write : Bool) : Except (Nat × Nat) (List Loc) :=
        if scr then .ok ((List.range 16).map fun j => .scr (x.toNat + 16 * i + j)) else s.memPlaces u x (offOf x + 16 * i) 16 write
      match side srcS a false with
      | .error e => ([], some e)
      | .ok src => match side dstS b true with
        | .error e => ([], some e)
        | .ok dst =>
            let p := s.planLin u srcS dstS a b from_ n (i + 1)
            ({ src := src, dst := dst, bits := 128, total := 128, fill := 0, off := offOf b + 16 * i, ix := i + 1 - from_ } :: p.1, p.2)

/-- The destination of a BTLIN. -/
def Cmd.linDst (c : Cmd) : DWord := dword (tget 0 c.sregs 0) (tget 0 c.sregs 1)

/-- The units of a box copy in box order. -/
def Cmd.boxUnits (c : Cmd) : List TUnit :=
  let t := trecOf c.rec2
  match c.ins with
  | .btcopy _ => t.boxUnits ((List.range 5).map c.coord)
  | .btgath _ => ((List.range (lanesOf c.em).length).map fun j => t.rowUnits (c.coord 0) j [c.coord (j + 1), 0, 0, 0]).flatten
  | _ => []

/-- How many units a copy has. -/
def Cmd.copyUnits (c : Cmd) : Nat := match c.ins with | .btlin _ => (tget 0 c.sregs 2).toNat / 16 | _ => c.boxUnits.length

/-- The plan of at most `n` units of a copy from the `i`th on: its moves in box order and how it ends there, if it does. -/
def State.copyPlan (s : State) (u : Who) (c : Cmd) (i n : Nat) : List Move × Option (Nat × Nat) :=
  match c.ins with
  | .btcopy o => s.planUnits u (trecOf c.rec2) o.st c.addr.toNat 0 ((c.boxUnits.drop i).take n)
  | .btgath o => s.planUnits u (trecOf c.rec2) o.st c.addr.toNat 0 ((c.boxUnits.drop i).take n)
  | .btlin o => s.planLin u o.srcS o.dstS c.addr c.linDst i (min n (c.copyUnits - i)) i
  | _ => ([], none)

/-- The sector of a place: scratchpad or memory; where its first and last destination bytes lie. -/
def Loc.sector : Loc → Bool × Nat
  | .mem a => (false, a / 32)
  | .scr a => (true, a / 32)
  | .code _ a => (false, a / 32)

/-- The moves that one step makes: those whose destinations follow each other in one sector, with a unit that straddles two (09 R224(a), 18
R348). -/
def oneBatch : List Move → List Move
  | [] => []
  | [m] => [m]
  | m :: n :: r => if (m.dst.getLast?).map Loc.sector == (n.dst.head?).map Loc.sector then m :: oneBatch (n :: r) else [m]

/-- Whether a place's home refuses a copy: in a HOST or PEER window when one refuses (22 R394), or of a partition held in reset
(R397). (log 63, DEDUCED) -/
def State.refusesLoc (s : State) (far : Bool) : Loc → Bool
  | .mem pa => (far && (regionKind pa == 4 || regionKind pa == 5)) || s.downAt pa
  | _ => false

/-- The moves before the first that a test picks. -/
def beforeBad (bad : Loc → Bool) : List Move → List Move
  | [] => []
  | m :: r => if m.src.any bad || m.dst.any bad then [] else m :: beforeBad bad r

/-- The places of a move as runs of addresses: memory, then scratchpad. -/
def locRuns (l : List Loc) : List (Bool × Nat × Nat) :=
  let mem := l.filterMap fun x => match x with | .mem a => some (a, (0 : Byte)) | _ => none
  let scr := l.filterMap fun x => match x with | .scr a => some (a, (0 : Byte)) | _ => none
  ((byteRuns mem).map fun r => (false, r.1, r.2.length)) ++ ((byteRuns scr).map fun r => (true, r.1, r.2.length))

/-- Whether older stores of the wave still touch what a copy reads or writes (09 R224(b)). -/
def State.movesPending (s : State) (wave op : Nat) (l : List Move) : Bool :=
  l.any fun m => (locRuns m.src ++ locRuns m.dst).any fun r => s.olderStore wave op r.1 r.2.1 r.2.2

/-- The lines a copy reads are brought up to date at their homes (09 R225(a)). -/
def State.readLines (s : State) (l : List Loc) : State :=
  (l.foldl (fun a x => match x with | .mem pa => sins a (pa / 128) | _ => a) []).foldl State.agentRead s

/-- A byte at a place and its mark. -/
def State.locByte (s : State) (u : Who) (l : Loc) : Byte × Bool :=
  match l with
  | .mem pa => match s.replayByte u.team pa with
    | some b => (b, false)
    | none => (s.homeByte pa, s.homeMark pa)
  | .scr a => ((s.team? u.team).map fun t => t.scrByte a).getD (0, false)
  | .code base off => match s.descBytes u (selOf base) with
      | .ok b => (match s.expandLine u (selOf base) (descOf b) (off / 128) with
        | .ok l => l.getD (off % 128) (0, false)
        | .error _ => (0, false))
      | _ => (0, false)

/-- A byte to be written at a place, and whether it comes from a marked sector. -/
abbrev Put := Loc × Byte × Bool

/-- Bytes of one line, each with its mark, written at its home in one step: a sector that gets a marked byte is marked (R286). -/
def State.copyWrite (s : State) (nw : Bool) (pa : Nat) (b : List Byte) (bad : List Nat) : State :=
  (s.flushHq (pa / 128)).homeApplyAt pa b.length true fun s =>
    let t := s.applyBytes pa b nw none
    { t with marks := bad.foldl (fun m x => sins m x) t.marks }

/-- Write bytes at places: memory line by line, the scratchpad in one step. -/
def State.putAll (s : State) (team : Nat) (nw : Bool) (l : List Put) : State :=
  let pick (f : Loc → Option Nat) : Tab (Byte × Bool) :=
    l.foldl (fun (t : Tab (Byte × Bool)) p => match f p.1 with | some a => tput t a p.2 | none => t) []
  let mem := pick fun x => match x with | .mem a => some a | _ => none
  let scr := pick fun x => match x with | .scr a => some a | _ => none
  let plain (t : Tab (Byte × Bool)) : List (Nat × Byte) := t.map fun p => (p.1, p.2.1)
  let bad (t : Tab (Byte × Bool)) : List Nat := sectorsOf (plain (t.filter (·.2.2)))
  let s1 := (byteRuns (plain mem)).foldl (fun (s : State) r =>
    if s.replaying team then s.replayPut team r.1 r.2
    else s.copyWrite nw r.1 r.2 ((bad mem).filter fun k => r.1 / 32 ≤ k && k ≤ (r.1 + r.2.length - 1) / 32)) s
  if scr.isEmpty then s1
  else (s1.scratchPut team (plain scr) false false).modTeam team fun t => { t with smark := (bad scr).foldl (fun m x => sins m x) t.smark }

/-- What a unit's destination holds after a move of a source value. -/
def Move.value (m : Move) (new old : Nat) : Nat :=
  let v := mergeUnit 1 m.bits new m.fill
  mergeUnit 1 m.total v old

/-- What a move writes: its source bytes at its places, over what the destination holds; `done` has been written in the same step. -/
def State.moveOne (s : State) (u : Who) (done : List Put) (m : Move) (src : List (Byte × Bool)) : List Put :=
  let at_ (l : Loc) : Byte := match done.reverse.find? (·.1 == l) with | some p => p.2.1 | none => (s.locByte u l).1
  let old := if m.total = 8 * m.dst.length then 0 else leNat (m.dst.map at_)
  let b := leBytes m.dst.length (m.value (leNat (src.map (·.1))) old)
  (List.range m.dst.length).map fun i =>
    (m.dst.getD i (.scr 0), b.getD i 0, decide (8 * i < m.bits) && (src.getD i (0, false)).2)

/-- Whether a BTLIN overlaps itself. -/
def overlaps (l : List Move) : Bool :=
  let dsts := (l.map (·.dst)).flatten
  l.any fun m => m.src.any dsts.contains

/-- The source bytes of a BTLIN that overlaps itself: of each that the copy writes, the old or the new value, a free choice for each
(log 2). They are taken in the order in which every choice of R284 can be made. (log 56, DEDUCED) -/
def State.mixed (s : State) (u : Who) (l : List Move) : List (Nat × List (Byte × Bool)) :=
  let dsts := (l.map (·.dst)).flatten
  let up : Bool := match l with
    | m :: _ => decide (dsts.idxOf (m.src.getD 0 (.scr 0)) < dsts.length) && (m.src.getD 0 (.scr 0)) != m.dst.getD 0 (.scr 0)
    | [] => false
  ((if up then l.reverse else l).foldl (fun (a : List (Nat × List (Byte × Bool)) × List Put) m =>
    let b : List (Byte × Bool) := (List.range 16).map fun i =>
      let p := m.src.getD i (.scr 0)
      match a.2.find? (·.1 == p) with
      | some q => if (Config.freeByte (s.freeCtr + 16 * m.ix + i)).getLsbD 0 then q.2 else s.locByte u p
      | none => s.locByte u p
    ((m.ix, b) :: a.1, a.2 ++ (List.zip m.dst b).map fun q => (q.1, q.2.1, q.2.2))) ([], [])).1

/-- Whether a copy writes without waking monitors; the seg-address its destination side begins at. -/
def Cmd.copyNw (c : Cmd) : Bool :=
  match c.ins with | .btcopy o => o.nw | .btgath o => o.nw | .btlin o => o.nw | _ => false
def Cmd.copyDst (c : Cmd) : DWord :=
  match c.ins with | .btlin _ => c.linDst | _ => (trecOf c.rec2).base

/-! ### Starting and completing (R282, R291, R292) -/

/-- The lowest free copy slot of a cluster. -/
def Cluster.freeSlot (c : Cluster) : Option Nat := (List.range Config.bteSlots).find? fun i => (tfind c.slots i).isNone

/-- The wave of a cluster whose queue's head is started next: round-robin among those whose head has a guard that is TRUE, or none (R282). -/
def State.bteNext (s : State) (j : Nat) : Option Nat :=
  let l := (s.waves.filter fun p => clusterOfKey p.1 == j && (match p.2.cq with | [] => false | c :: _ => p.2.guardOf c == 1)).map (·.1)
  (l.find? fun k => (s.cluster j).bteLast < k).orElse fun _ => l.head?

/-- COPY_START: the head of a wave's copy queue reads its guard, and is held, discarded with status DISCARDED, or, when its turn comes,
started in a free slot. -/
def execCopyStart (k : Nat) (s : State) : Out :=
  match s.wave? k with
  | none => .next s
  | some w =>
    match w.cq with
    | [] => .next s
    | c :: r =>
      if w.guardOf c = 0 then .next s
      else if w.guardOf c = 2 then .next ((s.putWave k { w with cq := r }).copyEnd w.team w.wid w.area c 5 0 0)
      else if s.bteNext (clusterOfKey k) != some k then .next s
      else match (s.cluster (clusterOfKey k)).freeSlot with
        | none => .next s
        | some i =>
            let u := s.waveWho k w
            let x : BteCopy := { team := w.team, wid := w.wid, wave := k, area := w.area, part := u.part, ctx := u.ctx,
                                 cmd := { c with started := true }, moved := 0, bits := 0, bad := false, first := [], wrote := [] }
            .next ((s.putWave k { w with cq := r }).modCluster (clusterOfKey k) fun y => { y with slots := tput y.slots i x, bteLast := k })

/-- The context that an engine of a cluster reads descriptors for. -/
def State.copyWho (_ : State) (k : Nat) (x : BteCopy) : Who :=
  { k := k, part := x.part, ctx := x.ctx, sup := x.cmd.gen == 1, team := x.team, wave := x.wave }

/-- Steps 2 to 4 of R291: the record, the batch block, the flag; the slot is free again. -/
def State.copyFinish (s : State) (k i : Nat) (x : BteCopy) (status : Nat × Nat) : State :=
  let s1 := s.signWritten x.team 2 (selOf x.cmd.copyDst) x.wrote
  let s2 := s1.modCluster k fun y => { y with slots := tdel y.slots i }
  (s2.copyEnd x.team x.wid x.area x.cmd status.1 status.2 ((x.bits + 7) / 8)).tryAway x.team

/-- The bytes that a step writes, of a copy that has read its sources or reads them now. -/
def State.batchPuts (s : State) (u : Who) (x : BteCopy) (l : List Move) : List Put :=
  l.foldl (fun (a : List Put) m =>
    a ++ s.moveOne u a m (match x.first[x.moved + m.ix - 1]? with | some b => b | none => m.src.map (s.locByte u))) []

/-- A copy that has made some moves: what it has written, how far it is. -/
def BteCopy.after (x : BteCopy) (l : List Move) (n : Nat) (puts : List Put) : BteCopy :=
  let byteAt (p : Loc) : Byte := match puts.reverse.find? (·.1 == p) with | some q => q.2.1 | none => 0
  { x with moved := x.moved + n, bits := x.bits + (l.map (·.total)).foldl (· + ·) 0, bad := x.bad || puts.any (·.2.2),
           wrote := l.foldl (fun (t : Written) m => match m.dst with
             | .mem _ :: _ => t.noteUnit m.off m.dst.length (leNat (m.dst.map byteAt)) m.total
             | _ => t) x.wrote }

/-- The moves of a copy's next step are made; with the last of its units, or at one that fails or that a home refuses, it completes.
(log 56, DEDUCED) -/
def State.copyStep (s : State) (k i : Nat) (x : BteCopy) : State :=
  let u := s.copyWho k x
  let plan := s.copyPlan u x.cmd x.moved 33
  let batch := oneBatch plan.1
  let mark := 2 * x.wave + 1
  let bad := s.refusesLoc (s.modu.refused.contains mark)
  let refuse := batch.any fun m => m.src.any bad || m.dst.any bad
  let moves := if refuse then beforeBad bad batch else batch
  let s1 := (if refuse then s.refused mark else s).readLines ((moves.map fun m => m.src ++ (if m.total = 8 * m.dst.length then [] else m.dst)).flatten)
  let puts := s1.batchPuts u x moves
  let n := if batch.isEmpty then min 33 (x.cmd.copyUnits - x.moved) else (moves.getLast?.map (·.ix)).getD 0
  let y := x.after moves n puts
  let s2 := s1.putAll x.team x.cmd.copyNw puts
  let ok : Nat × Nat := if y.bad then (4, fPOISON) else (0, 0)
  if refuse then s2.copyFinish k i y (6, 0)
  else match if batch.isEmpty then plan.2 else none with
    | some e => s2.copyFinish k i x e
    | none => if x.cmd.copyUnits ≤ y.moved then s2.copyFinish k i y ok else s2.modCluster k fun z => { z with slots := tput z.slots i y }

/-- The first step of a BTLIN that overlaps itself: it reads its sources. -/
def State.copyReads (s : State) (k i : Nat) (x : BteCopy) : State × BteCopy :=
  let u := s.copyWho k x
  let l := (s.copyPlan u x.cmd 0 x.cmd.copyUnits).1
  match x.cmd.ins with
  | .btlin _ =>
      if x.moved = 0 && x.first.isEmpty && overlaps l then
        let s1 := s.readLines ((l.map (·.src)).flatten)
        let v := s1.mixed u l
        let y := { x with first := (List.range l.length).map fun j => ((v.find? (·.1 == j + 1)).map (·.2)).getD [] }
        ({ (s1.modCluster k fun z => { z with slots := tput z.slots i y }) with freeCtr := s1.freeCtr + 16 * (l.length + 1) }, y)
      else (s, x)
  | _ => (s, x)

/-- The moves whose older stores a copy's next step waits for (09 R224(b)). -/
def State.copyNext (s : State) (k : Nat) (x : BteCopy) : List Move :=
  let u := s.copyWho k x
  let all := (s.copyPlan u x.cmd 0 x.cmd.copyUnits).1
  match x.cmd.ins with
  | .btlin _ => if x.moved = 0 && x.first.isEmpty && overlaps all then all else oneBatch (s.copyPlan u x.cmd x.moved 33).1
  | _ => oneBatch (s.copyPlan u x.cmd x.moved 33).1

/-- COPY_COMPLETE: the next step of a copy, the last of which completes it. -/
def execCopyComplete (k i : Nat) (s : State) : Out :=
  match tfind (s.cluster k).slots i with
  | none => .next s
  | some x =>
      if s.movesPending x.wave x.cmd.op (s.copyNext k x) then .next s
      else let r := s.copyReads k i x
           .next (r.1.copyStep k i r.2)

/-! ### Batches (R289, R290, R293) -/

/-- Whether a copy of a wave has not completed. -/
def State.copiesOut (s : State) (w : Wave) : Bool :=
  !w.cq.isEmpty || !w.hc.isEmpty || s.clusters.any fun p => p.2.slots.any fun x => x.2.team == w.team && x.2.wid == w.wid

/-- BTCLOSE. Where no copy of the wave is left every batch is complete, whatever a store has made of the block (00 R7; log 57, DESIGN CHOICE) -/
def execBtclose (o : CloseOp) (s : State) : Out :=
  s.run fun c w =>
    match s.batchBlock c.wave w with
    | none => s.done c w
    | some b =>
        let n := (s.homeNat b 4 + 1) % 2 ^ 32
        if s.copiesOut w && serialLt 32 (s.homeNat (b + 4) 4) ((n + 2 ^ 32 - 15) % 2 ^ 32) then s.hold c w { kind := 4, arg := n, dead := 0, done := false }
        else ((s.putWord b n).advanceDone b 16).doneBy c (·.putD (c.split w).em o.d fun _ => BitVec.ofNat 32 n)

/-- BTWAIT. (log 57, DESIGN CHOICE) -/
def execBtwait (o : BtwaitOp) (s : State) : Out :=
  s.run fun c w =>
    s.withReads c w [(o.a, 1)] [] (c.split w).em <|
      let n := (w.src (c.split w) 0 o.a).toNat
      match s.batchBlock c.wave w with
      | none => s.done c w
      | some b =>
          let fin := s.done c (w.putD (c.split w).em o.d fun _ => BitVec.ofNat 32 (s.homeNat (b + 8) 4))
          if n = 0 then fin
          else if serialLt 32 (s.homeNat b 4) n then s.illconv c w 14
          else if s.copiesOut w && serialLt 32 (s.homeNat (b + 4) 4) n then s.hold c w { kind := 5, arg := n, dead := 0, done := false }
          else fin

/-- Whether a copy of the wave up to an operation has not completed. -/
def State.copiesLeft (s : State) (w : Wave) (op : Nat) : Bool :=
  (w.cq ++ w.hc).any (·.op ≤ op) || s.clusters.any fun p => p.2.slots.any fun x => x.2.team == w.team && x.2.wid == w.wid && x.2.cmd.op ≤ op

/-- The ring is set: RBASE, RCOUNT and RHEAD 0. -/
def State.setRing (s : State) (blk : Nat) (base : DWord) (k : Nat) : State :=
  ((s.putDWord (blk + 0x10) base.toNat).putWord (blk + 0x18) k).putWord (blk + 0x1C) 0

/-- BTRING. (log 57, DESIGN CHOICE; log 68, DESIGN CHOICE) -/
def execBtring (o : RingOp) (s : State) : Out :=
  s.run fun c w =>
    s.withReads c w [(.s o.a, 2), (o.b, 1)] [] (c.split w).em <|
      let op := match (c.split w).wait with | some r => if r.kind = 6 then r.arg else w.opctr | none => w.opctr
      let base := w.s64 o.a
      let k := (w.src (c.split w) 0 o.b).toNat
      if s.copiesLeft w op then s.hold c w { kind := 6, arg := op, dead := 0, done := false }
      else match s.batchBlock c.wave w with
      | none => s.done c w
      | some b =>
        if selOf base = 0 && k = 0 then (s.setRing b 0 0).doneBy c id
        else if !((List.range 17).any fun i => k == 2 ^ i) then s.illconv c w 15
        else if offOf base % 32 != 0 then s.uniFault c w { code := fALIGN, cause := 0, addr := base }
        else match s.checkRange (s.who c w) { right := 1, kinds := kindsDTH, size := 32 * k, align := 32, write := true } 0 base with
          | .error f => s.uniFault c w f
          | .ok _ => (s.setRing b base k).doneBy c id

end Sys2Proof.Machine
end

