-- ==== Sys2Proof/Machine/Room.lean ====
section
/-! DEFINITION. What a region control block holds (07 R156), effective values and budgets (R157), the room of a partition and the placement of a team in it (R160, R163, R164, 17 R338). -/

namespace Sys2Proof.Machine

/-! ### Fields of a block (R156) -/

def blkKind (b : List Byte) : Nat := natAt b 0 4 % 4
def blkNpred (b : List Byte) : Nat := bitsOf (natAt b 0 4) 20 3
def blkCosched (b : List Byte) : Bool := bitOf (natAt b 0 4) 23
def blkAudit (b : List Byte) : Bool := bitOf (natAt b 0 4) 24
def blkWakeen (b : List Byte) : Bool := bitOf (natAt b 0 4) 25
def blkOvr (b : List Byte) : Nat := natAt b 4 2 % 1024
def blkCtx (b : List Byte) : Nat := bitsOf (natAt b 4 4) 16 12
def blkParent (b : List Byte) : Nat := natAt b 8 8
def blkPred (b : List Byte) (i : Nat) : Nat := natAt b (0x10 + 8 * i) 8
/-- KBIND of a leaf, EXPECT of an inner node. -/
def blkKbind (b : List Byte) : Nat := natAt b 0x50 4
def blkKoff (b : List Byte) : Nat := natAt b 0x54 4
def blkTx (b : List Byte) : Nat := natAt b 0x58 4
def blkTy (b : List Byte) : Nat := natAt b 0x5C 4
def blkTz (b : List Byte) : Nat := natAt b 0x60 4
def blkTeams (b : List Byte) : Nat := blkTx b * blkTy b * blkTz b
def blkTeamw (b : List Byte) : Nat := natAt b 0x64 4 % 64
def blkParam (b : List Byte) : Nat := natAt b 0x68 8

/-- The block's own value of an item of R157. -/
def blkOwn (b : List Byte) (i : Nat) : Nat :=
  match i with
  | 0 => natAt b 0x30 2
  | 1 => natAt b 0x32 2
  | 2 => natAt b 0x34 4
  | 3 => natAt b 0x38 2
  | 4 => natAt b 0x40 4
  | 5 => natAt b 0x3A 2
  | 6 => natAt b 0x3C 1
  | 7 => bitsOf (natAt b 0 4) 8 4
  | 8 => bitsOf (natAt b 0 4) 12 8
  | _ => natAt b 0x48 8

/-- The range of an item (R156). -/
def itemRange (i : Nat) : Nat × Nat :=
  match i with
  | 0 => (1, 48)
  | 1 => (1, 6144)
  | 2 => (8, 393216)
  | 3 => (0, 6144)
  | 4 => (0, 96 * 2 ^ 20)
  | 5 => (0, 256)
  | 6 => (1, 64)
  | 7 => (0, 15)
  | 8 => (0, 255)
  | _ => (0, 2 ^ 64 - 1)

/-! ### Capacity of a partition (R157(c), 18 R361) -/

/-- Whether a bank can hold new data: neither removed, nor reserved, nor declared lasting. (log 49, DEDUCED) -/
def State.usable (s : State) (u : EUnit) : Bool := !s.gone u (sameUnit u) (bankOf u) && (s.unitRec u).state != 1

/-- The SCRATCH banks of a cluster that can hold allocations. (log 49, DEDUCED) -/
def State.scratchBanks (s : State) (k : Nat) : List Nat :=
  (List.range 128).filter fun b => ((s.cluster k).bank b).mode == 1 && s.usable (.sram k b) && !(s.cluster k).switches.any (·.bank == b)

/-- The cores of a partition that keep register capacity. -/
def State.liveCores (s : State) (p : Nat) : Nat :=
  ((List.range 48).filter fun i => (List.range 4).any fun j => 0 < s.qregsOf (4 * (48 * p + i) + j)).length

/-- What a cleared bit of an item means at a root (R157(c)). -/
def State.rootItem (s : State) (p i : Nat) : Nat :=
  match i with
  | 0 => s.liveCores p
  | 1 => 128 * s.liveCores p
  | 2 => s.capacity 7 p
  | 3 => s.capacity 8 p
  | 4 => ((List.range 12).map fun j => 2 ^ 16 * (s.scratchBanks (12 * p + j)).length).foldl (· + ·) 0
  | 6 => 64
  | _ => 0

/-- The effective value of an item (R157), following clear bits to the parent; `n` bounds the depth of the tree. (log 59, DEDUCED) -/
def State.effOf (s : State) : Nat → Sub → Nat → Nat
  | 0, x, i => x.eff.getD i 0
  | n + 1, x, i =>
      if bitOf (blkOvr x.rcb) i then blkOwn x.rcb i
      else match x.parent with
        | none => s.rootItem x.part i
        | some p => match tfind s.subs p with
          | some y => s.effOf n y i
          | none => x.eff.getD i 0

/-- (log 59, DEDUCED) -/
def State.effItem (s : State) (x : Sub) (i : Nat) : Nat := s.effOf (s.subs.length + 1) x i

/-- Whether a submission is another one or stands below it. -/
def State.under (s : State) : Nat → Nat → Nat → Bool
  | 0, _, _ => false
  | n + 1, id, top =>
      id == top || (match tfind s.subs id with
        | none => false
        | some x => match x.parent with | none => false | some p => s.under n p top)

/-! ### Needs and rooms (R160) -/

/-- The need of one team: waves, wave-registers of each, tiles, scratch granules, monitor entries, and whether it needs save areas. -/
structure TeamNeed where
  tw    : Nat
  rw    : Nat
  tiles : Nat
  gran  : Nat
  monq  : Nat
  fresh : Bool
  deriving DecidableEq, Repr

def Sub.need (x : Sub) (fresh : Bool) : TeamNeed :=
  { tw := blkTeamw x.rcb, rw := x.kern.vregs, tiles := x.kern.ztiles, gran := (x.kern.scratch + 255) / 256, monq := x.eff.getD 5 0, fresh := fresh }

/-- WSLOTS, VREGS, ZTILES and SCRATCH of a need. -/
def TeamNeed.pools (n : TeamNeed) : List Nat := [n.tw, n.tw * n.rw, n.tiles, 256 * n.gran]

/-- A node of the tree: what its subtree holds of WSLOTS, VREGS, ZTILES and SCRATCH and what it may hold, the cores its teams occupy and how
many they may. -/
structure NodeRoom where
  held  : List Nat
  pools : List Nat
  cores : List Nat
  lim   : Nat
  deriving DecidableEq, Repr

/-- Whether a node grants a need: its holdings with the need stay within each effective budget (R160). -/
def NodeRoom.grants (d : NodeRoom) (pools : List Nat) : Bool :=
  (List.zip d.pools (List.zip d.held pools)).all fun p => p.2.1 + p.2.2 ≤ p.1

/-- What a partition has free: of each quadrant registers and slots, of each core tiles, of each cluster granules and monitor entries,
the save areas, the budgets that count. -/
structure Room where
  quads : List (Nat × Nat)
  tiles : List Nat
  gran  : List Nat
  mon   : List Nat
  areas : Nat
  nodes : List NodeRoom
  deriving DecidableEq, Repr

/-- The tiles of a core that are free. -/
def State.freeTiles (s : State) (core : Nat) : List Nat :=
  let used := ((s.teamsOn core).map (·.2.tiles)).flatten
  (List.range 128).filter fun z => s.usable (.accBank core (z / 4)) && !used.contains z

/-- The teams resident in a cluster. -/
def State.teamsIn (s : State) (k : Nat) : List (Nat × Team) := s.teams.filter fun t => t.2.core / 4 == k && !t.2.away

/-- The free granules of a cluster, lowest first. -/
def State.freeGranules (s : State) (k : Nat) : List Nat :=
  let used := ((s.teamsIn k).map (·.2.granules)).flatten
  ((s.scratchBanks k).map fun b => ((List.range 256).map (256 * b + ·)).filter fun g => !used.contains g).flatten

/-- How many they are. -/
def State.freeGran (s : State) (k : Nat) : Nat :=
  let banks := s.scratchBanks k
  256 * banks.length - ((s.teamsIn k).map fun t => (t.2.granules.filter fun g => banks.contains (g / 256)).length).foldl (· + ·) 0

/-- The save areas in use in a partition; how many the pool holds (17 R338). -/
def State.areasUsed (s : State) (p : Nat) : List Nat :=
  let a := (s.waves.filter fun w => partOfKey w.1 == p).foldl (fun l w => sins l w.2.area) []
  (s.teams.filter fun t => t.2.part == p).foldl (fun l t => t.2.saved.foldl (fun l v => sins l v.2.area) l) a
def State.poolAreas (s : State) (p : Nat) : Nat :=
  if (s.part p).svsegn = 0 then 0 else (descOf (s.homeBytes (s.part p).svseg 32)).limit / Config.saveAreaBytes

/-- A quadrant's free registers and slots (01 R14). -/
def State.quadRoom (s : State) (q : Nat) : Nat × Nat :=
  (s.qregsOf q - s.regsUsed q, Config.slotsPerQuad - (s.waves.filter fun p => quadOfKey p.1 == q).length)

/-- The budgets of a submission, and what the teams of its subtree hold of them (R157(a)). Replays hold nothing of a budget. (log 59, DEDUCED) -/
def State.nodeRoom (s : State) (id : Nat) (x : Sub) : NodeRoom :=
  let n := s.subs.length + 1
  let held := s.teams.filter fun t => !t.2.away && t.2.replay.isNone && s.under n t.2.sub id
  let sum := held.foldl (fun (a : List Nat) t => match tfind s.subs t.2.sub with
    | none => a
    | some y => List.zipWith (· + ·) a (y.need false).pools) [0, 0, 0, 0]
  { held := sum, pools := [1, 2, 3, 4].map (s.effItem x), cores := held.foldl (fun l t => sins l t.2.core) [], lim := s.effItem x 0 }

/-- The nodes that a submission's teams count against: itself and every ancestor, those that have ended too (R157(a)). (log 59, DEDUCED) -/
def State.nodeRooms (s : State) : Nat → Nat → Sub → List NodeRoom
  | 0, _, _ => []
  | n + 1, id, x =>
      s.nodeRoom id x :: (match x.parent with
        | none => []
        | some p => match tfind s.subs p with | none => [] | some y => s.nodeRooms n p y)

/-- The room of a partition for a submission; `areas` are the free save areas. -/
def State.roomOf (s : State) (p areas : Nat) (nodes : List NodeRoom) : Room :=
  { quads := (List.range 192).map fun i => s.quadRoom (192 * p + i), tiles := (List.range 48).map fun i => (s.freeTiles (48 * p + i)).length,
    gran := (List.range 12).map fun i => s.freeGran (12 * p + i),
    mon := (List.range 12).map fun i => Config.clusterMonitors - ((s.teamsIn (12 * p + i)).map (·.2.monq)).foldl (· + ·) 0,
    areas := areas, nodes := nodes }

/-- The same partition with no team resident. -/
def State.vacated (s : State) : State := { s with teams := [], waves := [] }

/-! ### Placement (R163) -/

/-- The quadrant of a core, by its index, with the most free registers: the lowest on a tie. -/
def bestQuad (l : List (Nat × Nat)) (core : Nat) : Nat :=
  (List.range 4).foldl (fun b i => if (l.getD b (0, 0)).1 < (l.getD (4 * core + i) (0, 0)).1 then 4 * core + i else b) (4 * core)

/-- Place `n` waves of `rw` registers on a core, each in turn. -/
def placeWaves (core rw : Nat) : Nat → List (Nat × Nat) → Option (List (Nat × Nat) × List Nat)
  | 0, l => some (l, [])
  | n + 1, l =>
      let b := bestQuad l core
      let q := l.getD b (0, 0)
      if q.1 < rw || q.2 = 0 then none
      else match placeWaves core rw n (lset l b (q.1 - rw, q.2 - 1)) with
        | none => none
        | some r => some (r.1, b :: r.2)

/-- Take an amount from an entry of a list. -/
def take1 (l : List Nat) (i n : Nat) : List Nat := lset l i (l.getD i 0 - n)

/-- A team on one core of the partition, if it fits: the room that is left, and its waves' quadrants by index. -/
def Room.placeOn (r : Room) (n : TeamNeed) (i : Nat) : Option (Room × List Nat) :=
  if r.tiles.getD i 0 < n.tiles || r.gran.getD (i / 4) 0 < n.gran || r.mon.getD (i / 4) 0 < n.monq ||
      r.nodes.any (fun d => d.lim < (sins d.cores i).length) then none
  else match placeWaves i n.rw n.tw r.quads with
    | none => none
    | some (q, picks) =>
        some ({ quads := q, tiles := take1 r.tiles i n.tiles, gran := take1 r.gran (i / 4) n.gran, mon := take1 r.mon (i / 4) n.monq,
                areas := r.areas - (if n.fresh then n.tw else 0),
                nodes := r.nodes.map fun d => { d with held := List.zipWith (· + ·) d.held n.pools, cores := sins d.cores i } }, picks)

/-- A team on the lowest core on which it fits. -/
def Room.place (r : Room) (n : TeamNeed) : Option (Room × Nat × List Nat) :=
  if (n.fresh && r.areas < n.tw) || !r.nodes.all (·.grants n.pools) then none
  else (List.range 48).findSome? fun i => (r.placeOn n i).map fun x => (x.1, i, x.2)

/-- Several teams, each in the room that the ones before leave. -/
def Room.placeAll (r : Room) : List TeamNeed → Option (List (Nat × List Nat))
  | [] => some []
  | n :: t => match r.place n with
    | none => none
    | some (r', i, picks) => (r'.placeAll t).map fun l => (i, picks) :: l

/-- Node rooms number a partition's cores from 0. -/
def NodeRoom.local (p : Nat) (d : NodeRoom) : NodeRoom := { d with cores := d.cores.map (· - 48 * p) }

/-- The room for a submission as the partition stands. -/
def State.roomFor (s : State) (id : Nat) (x : Sub) (areas : Nat) : Room :=
  s.roomOf x.part areas ((s.nodeRooms (s.subs.length + 1) id x).map (NodeRoom.local x.part))

end Sys2Proof.Machine
end

