-- ==== Sys2Proof/Machine/Launch.lean ====
section
/-! DEFINITION. Submitting a block: LAUNCH, the walker's check of a block and of its kernel header, predecessors (02 R53–R55, 07 R156–R161, 08 R194, R195, 15 R318, R327). -/

namespace Sys2Proof.Machine

/-! ### LAUNCH (R194) -/

/-- The check of a block's address: a 256-byte load of a DEVICE, TIER or HOST segment. -/
def blockNeed : Need := { right := 0, kinds := kindsDTH, size := 256, align := 256, write := false }

/-- LAUNCH: the checks, the release of DEVICE scope, the submission; FCODE comes to d when the walker has taken the block. Until then its
operation holds a lane record that no home applies (`fn` 18). (log 43, DESIGN CHOICE) -/
def execLaunch (o : LaunchOp) (s : State) : Out :=
  s.run fun c w =>
    if !w.clvl then s.illegal c w cUNDEFOP
    else s.withReads c w [(.s o.a, 2)] [] (c.split w).em <|
      if s.audited w then s.illconv c w 26
      else match s.checkRange (s.who c w) blockNeed 0 (w.s64 o.a) with
      | .error f => s.uniFault c w f
      | .ok a =>
        let u := s.who c w
        let poison : AFault := { code := fPOISON, cause := 5, addr := w.s64 o.a }
        if s.refuses c.wave 256 a then (s.refused (2 * c.wave)).uniFault c w poison
        else if (s.rangeBytes u (coreOfKey c.wave) w 3 0 256 a).any (·.2) then s.uniFault c w poison
        else
          let q := w.newOp o.ctl.setf 2
          let hold : LaneAtom := { lane := 0, kind := 0, addr := 0, width := 0, fn := 18, opnd := 0, cmp := 0, nw := true, cairn := none,
                                   slot := 0, param := 0, ea := 0, cut := 0, addr2 := 0, via := viaOf 0 0 0 0 }
          let pend : Pend := { op := q.2, regs := o.d.codes 1, writes := [], atoms := [hold], dst := some o.d, wide := false, fpx := 0 }
          let sub : Submit := { block := w.s64 o.a, pa := a.pa, ctx := u.ctx, level := w.clvl, boot := false, wave := c.wave, op := q.2 }
          (((s.keepFor u a 0).done c { q.1 with pend := q.1.pend ++ [pend] }).release c.wave 3 none q.2).modPart u.part fun p =>
            { p with launches := p.launches ++ [sub] }

/-! ### The checks of R161 -/

/-- The parent a block names: none when it names none; an error when it names no block in STATE 1 to 3 of its partition (R158). (log 58, DEDUCED) -/
def State.findParent (s : State) (x : Sub) : Option (Option Nat) :=
  if blkParent x.rcb = 0 then some none
  else match s.walkerAccess x blockNeed (BitVec.ofNat 64 (blkParent x.rcb)) with
    | .error _ => none
    | .ok a =>
      match (s.walkerRead x 4 (BitVec.ofNat 64 (blkParent x.rcb) + 0x84)).2 with
      | none => none
      | some st =>
        if st % 8 = 0 || 3 < st % 8 then none
        else (s.subs.find? fun y => y.2.part == x.part && y.2.pa == a.pa && y.2.state ≤ 3).map fun y => some y.1

/-- An overridden item out of its range. -/
def ownBad (b : List Byte) : Bool :=
  (List.range 10).any fun i => bitOf (blkOvr b) i && (blkOwn b i < (itemRange i).1 || (itemRange i).2 < blkOwn b i)

/-- A leaf's fields out of their ranges. -/
def leafBad (b : List Byte) : Bool :=
  blkTeams b == 0 || 2 ^ 32 < blkTeams b || blkTeamw b == 0 || 32 < blkTeamw b || blkKoff b % 64 != 0

/-- What the wake write needs (R167): a 4-byte store to DEVICE, TIER, HOST or PEER. -/
def wakeNeed : Need := { right := 1, kinds := [2, 3, 4, 5], size := 4, align := 4, write := true }
def blkWakeaddr (b : List Byte) : DWord := BitVec.ofNat 64 (natAt b 0x70 8)

def State.wakeBad (s : State) (x : Sub) : Bool :=
  blkWakeen x.rcb && ((x.boot && !bitOf (selOf (blkWakeaddr x.rcb)) 19) ||
    (match s.checkAccess (unitWho x.part x.ctx x.level) wakeNeed 0 (blkWakeaddr x.rcb) with | .error _ => true | .ok _ => false))

/-- The block with its parent and its effective values. -/
def State.withParent (s : State) (x : Sub) (par : Option Nat) : Sub :=
  let y := { x with parent := par }
  { y with eff := (List.range 10).map (s.effItem y) }

/-- An overridden budget above the parent's (R157(b)). (log 59, DEDUCED) -/
def State.overBudget (s : State) (x : Sub) : Bool :=
  match x.parent.bind (tfind s.subs ·) with
  | none => false
  | some y => (List.range 7).any fun i => bitOf (blkOvr x.rcb) i && s.effItem y i < blkOwn x.rcb i

/-- No kernel yet. -/
def Kernel.blank : Kernel :=
  { native := false, c16 := false, vregs := 0, sregs := 0, ztiles := 0, scratch := 0, codelen := 0, illh := 0, sel := 0, koff := 0 }

/-- A wave with nothing in its buffers: what the walker reads code as. -/
def State.nobody (s : State) : Wave := Wave.launched s.teamctr 0 Kernel.blank 0 0 true 0 0

/-- Bytes of a code segment of a context, as the walker reads them, and the room from their place to the segment's end. (log 58, DEDUCED) -/
def State.imageBytes (s : State) (p ctx : Nat) (sup : Bool) (sel off n : Nat) : Option (List Byte × Nat) :=
  let u := unitWho p ctx sup
  match s.checkRange u { right := 2, kinds := [6], size := n, align := 0, write := false } 0 (segAddr sel off) with
  | .error _ => none
  | .ok a =>
      if 2 ^ 44 ≤ off || (s.badExpand u n a).isSome then none
      else
        let b := s.rangeBytes u (4 * u.k) s.nobody 3 0 n a
        if b.any (·.2) then none else some (b.map (·.1), a.desc.limit - off)

/-- Whether a header breaks R55; `room` is from the header to the segment's end. The instruction that ILLH names is checked apart. (log 58, DEDUCED) -/
def badHeader (h : List Byte) (room : Nat) : Bool :=
  let w0 := natAt h 0 8
  let unit := if bitOf w0 39 then 8 else 4
  let codelen := natAt h 8 4
  let illh := natAt h 16 4
  let linkn := natAt h 28 2
  let linkoff := natAt h 24 4
  bitsOf w0 48 16 != 0xCD17 || bitsOf w0 40 8 != 1 || bitsOf w0 27 5 == 0 || 24 < bitsOf w0 27 5 || 56 < bitsOf w0 21 6 ||
    128 < bitsOf w0 13 8 || 2 ^ 23 < natAt h 12 4 || codelen % unit != 0 ||
    (illh != 0 && (illh < 64 || 64 + codelen < illh || illh % unit != 0)) ||
    (linkn == 0 && linkoff != 0) || (linkn != 0 && (linkoff < 64 || room < linkoff + 16 * linkn)) ||
    bitsOf w0 32 6 != 0 || bitsOf w0 0 13 != 0 || natAt h 20 4 != 0 || natAt h 30 2 != 0 || (h.drop 40).any (· != 0)

/-- The kernel a header declares. -/
def kernelOf (h : List Byte) (sel koff : Nat) : Kernel :=
  let w0 := natAt h 0 8
  { native := bitOf w0 39, c16 := bitOf w0 38, vregs := 8 * bitsOf w0 27 5, sregs := bitsOf w0 21 6, ztiles := bitsOf w0 13 8,
    scratch := natAt h 12 4, codelen := natAt h 8 4, illh := natAt h 16 4, sel := sel, koff := koff }

/-- Whether a native kernel's ILLH names a word that is no clause header. (log 58, DEDUCED) -/
def State.badIllh (s : State) (x : Sub) (sup : Bool) (k : Kernel) : Bool :=
  k.native && k.illh != 0 &&
    (match s.imageBytes x.part (blkCtx x.rcb) sup k.sel (k.koff + k.illh) 8 with
     | none => true
     | some r => natAt r.1 0 8 / 2 ^ 62 != 2)

/-- FCODE 3 and 2 (R161, 17 R338), on the partition as it would be with no team resident. -/
def State.sizeCode (s : State) (x : Sub) : Nat :=
  let n := x.need true
  let e := s.vacated
  let pool := s.poolAreas x.part
  let nodes := (e.nodeRooms (s.subs.length + 1) s.teamctr x).map fun d => { d with cores := [] }
  let total := blkTeams x.rcb
  if pool < n.tw || ((e.roomOf x.part pool []).place n).isNone then 3
  else if !blkCosched x.rcb then 0
  else if pool < total * n.tw || !nodes.all (·.grants (n.pools.map (total * ·))) then 2
  else if ((e.roomOf x.part pool nodes).placeAll (List.replicate total n)).isNone then 2
  else 0

/-- The checks of a leaf's kernel, with the pin taken where the entry is found BOUND (R166, R327): the state, FCODE or 0, the leaf. (log 58, DEDUCED) -/
def State.leafCheck (s : State) (x : Sub) (sup : Bool) : State × Nat × Sub :=
  let ctx := blkCtx x.rcb
  match s.entryPA x.part ctx (blkKbind x.rcb) with
  | none => (s, 6, x)
  | some pa =>
    let e := s.homeNat pa 4
    if s.marked pa 16 || e % 4 != 2 then (s, 6, x)
    else
      let f : LFrame := { bidx := blkKbind x.rcb, gen := e / 4, sel := s.homeNat (pa + 4) 4 % 2 ^ 20 }
      let s1 := s.agentWrite (pa + 8) (leBytes 4 ((s.homeNat (pa + 8) 4 + 1) % 2 ^ 32)) false
      match s1.imageBytes x.part ctx sup f.sel (blkKoff x.rcb) 64 with
      | none => (s1.dropPin x.part ctx f, 6, x)
      | some (h, room) =>
          let k := kernelOf h f.sel (blkKoff x.rcb)
          let y := { x with kern := k, pin := some f }
          let code := if natAt h 28 2 != 0 && blkKoff x.rcb != 0 then 6
            else if badHeader h room || s1.badIllh x sup k then 1
            else s1.sizeCode y
          if code = 0 then (s1, 0, y) else (s1.dropPin x.part ctx f, code, y)

/-- The walker's checks of a block in the order 5, 4, 6, 1, 3, 2: the state, FCODE or 0, the submission. (log 58, DEDUCED) -/
def State.blockCheck (s : State) (x : Sub) : State × Nat × Sub :=
  match if 1 < blkKind x.rcb || 4 < blkNpred x.rcb || ownBad x.rcb || s.wakeBad x || (x.leaf && leafBad x.rcb) then none else s.findParent x with
  | none => (s, 5, x)
  | some par =>
    let y := s.withParent x par
    if s.overBudget y then (s, 4, y)
    else match s.ctxRec x.part (blkCtx x.rcb) with
      | none => (s, 6, y)
      | some r => if x.leaf then s.leafCheck y (recLevel r) else (s, 0, y)

/-! ### Taking a block (R195) -/

/-- The submission whose block reads as given. -/
def subOf (part : Nat) (q : Submit) (b : List Byte) : Sub :=
  { part := part, block := q.block, ctx := q.ctx, level := q.level, boot := q.boot, pa := q.pa, rcb := b, gridid := 0, leaf := blkKind b == 1,
    state := 1, eff := [], parent := none, next := 0, tdone := 0, kern := Kernel.blank, pin := none }

/-- A failed launch is written into its block: DONEGTS, STATE 5, FCODE (R161). -/
def State.blockFail (s : State) (x : Sub) (code : Nat) : State := (s.subPut x 0x88 8 s.gts).subState x 5 code

/-- A block that may be submitted: CCOUNT, TDONE and STATE are written, and a leaf takes a GRIDID (R165). Returns FCODE.
(log 37, DESIGN CHOICE; log 41, DESIGN CHOICE) -/
def State.takeFresh (s : State) (part : Nat) (x0 : Sub) : State × Nat :=
  let r := s.blockCheck x0
  let s1 := (r.1.subPut x0 0x80 4 0).subPut x0 0x90 4 0
  if r.2.1 != 0 then (s1.blockFail x0 r.2.1, r.2.1)
  else
    let x := r.2.2
    let p := s1.part part
    let y := if x.leaf then { x with gridid := part * 2 ^ 30 + p.leafs % 2 ^ 30 } else x
    let s2 := if x.leaf then s1.putPart part { p with leafs := (p.leafs + 1) % 2 ^ 30 } else s1
    ({ (s2.subState y 1 0) with subs := tput s2.subs s2.teamctr y, teamctr := s2.teamctr + 1 }, 0)

/-- The step at the block's home. A block that cannot be read, or whose sectors were marked since LAUNCH checked it, fails with FCODE 5, which
is written into it as far as its page and its home let the walker. (log 58, DEDUCED) -/
def State.takeStep (s : State) (part : Nat) (q : Submit) : State × Nat :=
  let u := unitWho part q.ctx q.level
  let blank := subOf part q []
  match s.checkRange u blockNeed 0 q.block with
  | .error _ => (s.blockFail blank 5, 5)
  | .ok a =>
    let s1 := (s.linLines u (selOf q.block) a.kind a.lin 256).foldl State.agentRead s
    let b := s1.rangeBytes u (4 * u.k) s1.nobody 3 0 256 a
    let st := natAt (b.map (·.1)) 0x84 4 % 8
    if !((b.drop 0x84).take 4).any (·.2) && 1 ≤ st && st ≤ 3 then (s1, 10)
    else if b.any (·.2) || s1.downAt a.pa || s1.downAt a.pa2 then (s1.blockFail blank 5, 5)
    else s1.takeFresh part (subOf part q (b.map (·.1)))

/-- FCODE comes to the LAUNCH that waits for it. -/
def Wave.launchDone (w : Wave) (op fcode : Nat) : Wave :=
  { w with pend := w.pend.map fun p =>
      if p.op == op && p.atoms.any (·.fn == 18) then
        { p with atoms := [], writes := (p.dst.map fun d => match d with
            | .s n => [({ reg := 192 + n, lane := 0, val := BitVec.ofNat 32 fcode } : RegWrite)]
            | _ => []).getD [] }
      else p }

/-- Whether the release of the LAUNCH is over, so that the walker sees the block. -/
def State.launchReady (s : State) (q : Submit) : Bool :=
  q.boot || (match s.wave? q.wave with
    | none => true
    | some w => (tfind w.ops q.op).all (·.left ≤ 1))

/-- TAKE_BLOCK: the walker of a partition takes the first block whose LAUNCH has released. (log 58, DEDUCED) -/
def execTakeBlock (part : Nat) (s : State) : Out :=
  match (s.part part).launches.find? s.launchReady with
  | none => .next s
  | some q =>
    let s1 := s.modPart part fun p => { p with launches := p.launches.erase q }
    let r := s1.takeStep part q
    .next (if q.boot then r.1 else r.1.modWave q.wave (·.launchDone q.op r.2))

/-! ### Predecessors (R159) -/

/-- The STATEs of a submission's first `n` predecessors, none where one cannot be read: the block then goes on waiting. (log 58, DEDUCED) -/
def State.predStates (s : State) (x : Sub) : Nat → State × List (Option Nat)
  | 0 => (s, [])
  | n + 1 =>
      let r := s.predStates x n
      let q := r.1.walkerRead x 4 (BitVec.ofNat 64 (blkPred x.rcb n) + 0x84)
      (q.1, r.2 ++ [q.2.map (· % 8)])

/-- The STATE of a submission moves on, in the block and with the walker. (log 59, DEDUCED) -/
def State.subMove (s : State) (id : Nat) (x : Sub) (st : Nat) : State :=
  { (s.subState x st 0) with subs := tput s.subs id { x with state := st } }

/-- PREDECESSORS_DONE of submission `i`: STATE 2 when every predecessor reads 4, STATE 5 with FCODE 7 when one reads 5. An inner node that
expects a child goes from 2 to 3 at once. (log 59, DEDUCED) -/
def execPredecessorsDone (part i : Nat) (s : State) : Out :=
  match tfind s.subs i with
  | none => .next s
  | some x =>
    if x.part != part then .next s
    else if x.state = 2 && !x.leaf && blkKbind x.rcb != 0 then .next (s.subMove i x 3)
    else if x.state != 1 then .next s
    else
      let r := s.predStates x (blkNpred x.rcb)
      if r.2.any (· == some 5) then .next (r.1.subFail i 7)
      else if !r.2.all (· == some 4) then .next r.1
      else .next (r.1.subMove i x 2)

end Sys2Proof.Machine
end

