-- ==== Sys2Proof/Machine/Admit.lean ====
section
/-! DEFINITION. Admission, pre-emption, the save entry and the restore entry (07 R160–R165, 17 R334–R340, 18 R363, R364). -/

namespace Sys2Proof.Machine

/-! ### What the walker considers (R162) -/

/-- The teams of a submission that are no replays, by linear TEAMID. -/
def insTeam (x : Nat × Team) : List (Nat × Team) → List (Nat × Team)
  | [] => [x]
  | y :: r => if x.2.linear < y.2.linear then x :: y :: r else y :: insTeam x r

/-- (log 41, DESIGN CHOICE) -/
def State.teamsBy (s : State) (id : Nat) : List (Nat × Team) :=
  (s.teams.filter fun t => t.2.sub == id && t.2.replay.isNone).foldl (fun l t => insTeam t l) []

/-- The leaves in STATE 2 and 3 of a partition, higher PRIO first, then earlier launched. -/
def insSub (x : Nat × Sub) : List (Nat × Sub) → List (Nat × Sub)
  | [] => [x]
  | y :: r => if y.2.eff.getD 7 0 < x.2.eff.getD 7 0 then x :: y :: r else y :: insSub x r

def State.leaves (s : State) (p : Nat) : List (Nat × Sub) :=
  (s.subs.filter fun x => x.2.part == p && x.2.leaf && (x.2.state == 2 || x.2.state == 3)).foldl (fun l x => insSub x l) []

/-- What a submission would have admitted next, as saved teams or as numbers of teams never admitted. A COSCHED block goes whole. -/
def State.nextOf (s : State) (id : Nat) (x : Sub) : List (Option Nat × Nat) :=
  let ts := s.teamsBy id
  let away := (ts.filter (·.2.away)).map fun t => (some t.1, t.2.linear)
  let total := blkTeams x.rcb
  if blkCosched x.rcb then
    if ts.isEmpty then (if x.next = 0 then (List.range total).map fun i => (none, i) else [])
    else if ts.all (·.2.away) then away else []
  else match away with
    | a :: _ => [a]
    | [] => if x.next < total then [(none, x.next)] else []

/-- Where they would go, in a state and with so many free save areas. -/
def State.fits (s : State) (id : Nat) (x : Sub) (items : List (Option Nat × Nat)) (areas : Nat) : Option (List (Nat × List Nat)) :=
  (s.roomFor id x areas).placeAll (items.map fun i => x.need i.1.isNone)

def State.freeAreas (s : State) (p : Nat) : Nat := s.poolAreas p - (s.areasUsed p).length

/-! ### Pre-emption (R164) -/

/-- The state with some teams released; their save areas stay theirs. -/
def State.without (s : State) (ts : List Nat) : State :=
  { s with teams := s.teams.filter fun t => !ts.contains t.1, waves := s.waves.filter fun w => !ts.contains w.2.team }

/-- How readily a team gives way: a replay before all (18 R368), then by its priority. -/
def Team.rank (t : Team) : Nat := if t.replay.isSome then 0 else t.prio + 1

/-- Order of pre-emption: lowest rank first, the most recently admitted first among equals. (log 41, DESIGN CHOICE) -/
def insVictim (x : Nat × Team) : List (Nat × Team) → List (Nat × Team)
  | [] => [x]
  | y :: r =>
      if x.2.rank < y.2.rank || (x.2.rank == y.2.rank && y.2.age < x.2.age) then x :: y :: r else y :: insVictim x r

/-- Whether a team's save is due or under way. -/
def State.saving (s : State) (t : Nat) (x : Team) : Bool :=
  !x.saved.isEmpty || s.waves.any fun w => w.2.team == t && (w.2.due.isSome || w.2.inSave)

/-- The groups of resident teams that may give way to a priority, in order: a COSCHED block's teams go together. -/
def State.victimGroups (s : State) (p rank : Nat) : List (List Nat) :=
  let l := (s.teams.filter fun t => t.2.part == p && !t.2.away && !s.saving t.1 t.2 && t.2.rank < rank).foldl (fun l t => insVictim t l) []
  (l.map fun t => if t.2.replay.isSome then [t.1] else s.withBlock t.1)

/-- Take groups until the waiting team fits; then leave out each earlier one that turns out not to matter. -/
def pickVictims (fit : List Nat → Bool) (ex : List Nat) : List (List Nat) → Option (List (List Nat))
  | [] => none
  | g :: r => if fit (ex ++ g) then some [g] else (pickVictims fit (ex ++ g) r).map (g :: ·)

def pruneVictims (fit : List Nat → Bool) (keep : List (List Nat)) : List (List Nat) → List (List Nat)
  | [] => keep
  | g :: r => if fit (keep ++ r).flatten then pruneVictims fit keep r else pruneVictims fit (keep ++ [g]) r

/-- The teams the walker of a partition may pre-empt: for the first waiting team that does not fit and for which releases make room. -/
def State.victims (s : State) (p : Nat) : List Nat :=
  ((s.leaves p).findSome? fun x =>
    let items := s.nextOf x.1 x.2
    let areas := s.freeAreas p
    let saving := (s.teams.filter fun t => t.2.part == p && !t.2.away && s.saving t.1 t.2).map (·.1)
    let fit (ex : List Nat) : Bool := ((s.without (saving ++ ex)).fits x.1 x.2 items areas).isSome
    if items.isEmpty || (s.fits x.1 x.2 items areas).isSome || fit [] then none
    else (pickVictims fit [] (s.victimGroups p (x.2.eff.getD 7 0 + 1))).map fun gs => (pruneVictims fit [] gs).flatten).getD []

/-- The walker pre-empts a team, if R164 lets it: every wave is to enter its save. -/
def State.preempt (s : State) (t : Nat) : State :=
  match s.team? t with
  | none => s
  | some x => if (s.victims x.part).contains t then s.dueTeams (if x.replay.isSome then [t] else s.withBlock t) tPREEMPT else s

/-! ### Admission (R160–R165) -/

/-- The lowest number not in a list. -/
def lowestFree (l : List Nat) : Nat := ((List.range (l.length + 1)).find? fun i => !l.contains i).getD 0

/-- A wave takes the lowest free slot of a quadrant; it joins the active set if that has room (R168(a)). -/
def State.seatWave (s : State) (q : Nat) (w : Wave) : State × Nat :=
  let here := s.waves.filter fun p => quadOfKey p.1 == q
  let k := 32 * q + lowestFree (here.map fun p => p.1 % 32)
  (s.putWave k { w with active := (here.filter (·.2.active)).length < 8 }, k)

/-- The order of admissions of a partition. -/
def State.nextAge (s : State) (p : Nat) : Nat × State := ((s.part p).order, s.modPart p fun x => { x with order := x.order + 1 })

/-- A wave is admitted for the first time: a save area, its header STATE 0, its batch block zero (17 R338). -/
def State.newWave (s : State) (p team wid q : Nat) (k : Kernel) (seed param : DWord) (sup : Bool) : State :=
  let a := s.nextAge p
  let area := lowestFree (s.areasUsed p)
  let s1 := (a.2.areaPut p area 0 (leBytes 1 0)).areaPut p area 0x40 (List.replicate 128 0)
  let r := s1.seatWave q (Wave.launched team wid k seed param sup area a.1)
  r.1.modTeam team fun t => { t with wkeys := tput t.wkeys wid r.2 }

/-- A saved wave is seated again; it holds nothing until its restore entry. -/
def State.oldWave (s : State) (p team wid q : Nat) (sv : Saved) : State :=
  let a := s.nextAge p
  let r := a.2.seatWave q { (Wave.launched team wid sv.kern 0 0 true sv.area a.1) with restore := true, splits := [] }
  r.1.modTeam team fun t => { t with wkeys := tput t.wkeys wid r.2 }

/-- Tiles of a core and granules of its cluster are given to a team, all zero (06 R129, 10 R230). -/
def State.giveRoom (s : State) (t core : Nat) (n : TeamNeed) : State :=
  let tiles := (s.freeTiles core).take n.tiles
  let gran := (s.freeGranules (core / 4)).take n.gran
  let s1 := s.modCore core fun c =>
    { c with tiles := c.tiles.filter fun p => !tiles.contains p.1, tmark := c.tmark.filter fun m => !tiles.contains (m / 64) }
  s1.modTeam t fun x => { x with core := core, tiles := tiles, granules := gran, scratch := [], smark := [], bars := [], handles := [], ocache := [] }

/-- A team's waves take their quadrants in ascending WAVEID. -/
def State.seatAll (s : State) (go : State → Nat → Nat → State) (picks : List Nat) : State :=
  (List.zip (List.range picks.length) picks).foldl (fun s p => go s p.1 p.2) s

/-- Admit a team of a submission on a core: for the first time, or back from its save. The walker's acquires (R159) let a team that starts see
what its predecessors and its launcher published. (log 59, DEDUCED) -/
def State.admitOne (s : State) (id : Nat) (x : Sub) (item : Option Nat × Nat) (core : Nat) (picks : List Nat) : State :=
  let p := x.part
  let quads := picks.map (192 * p + ·)
  let a := s.nextAge p
  match item.1 with
  | some t =>
      let s1 := (a.2.modTeam t fun y => { y with away := false, age := a.1 }).giveRoom t core (x.need false)
      s1.seatAll (fun s wid q => match (s.team? t).bind fun y => tfind y.saved wid with
        | some sv => s.oldWave p t wid q sv
        | none => s) quads
  | none =>
      let l := item.2
      let t := s.teamctr
      let sup := match s.ctxRec p (blkCtx x.rcb) with | some r => recLevel r | none => false
      let seed : DWord := BitVec.ofNat 64 (x.eff.getD 9 0)
      let param : DWord := BitVec.ofNat 64 (blkParam x.rcb)
      let team := Team.launched id p core (blkCtx x.rcb) (l % blkTx x.rcb) (l / blkTx x.rcb % blkTy x.rcb) (l / (blkTx x.rcb * blkTy x.rcb)) l x.gridid
        (blkTeamw x.rcb) (x.eff.getD 5 0) (x.eff.getD 8 0) (x.eff.getD 7 0) seed param (blkAudit x.rcb) [] [] a.1
      let s1 := (({ a.2 with teamctr := t + 1, subs := tput s.subs id { x with next := l + 1 } }.putTeam t team).acquire (core / 4) 3).giveRoom t core
        (x.need true)
      s1.seatAll (fun s wid q => s.newWave p t wid q x.kern seed param sup) quads

/-- Every item in its place; a leaf goes to STATE 3 with its first team (R159). -/
def State.admitAll (s : State) (id : Nat) (x : Sub) (items : List (Option Nat × Nat)) (at_ : List (Nat × List Nat)) : State :=
  let s1 := (List.zip items at_).foldl (fun (s : State) i => match tfind s.subs id with
    | some x => s.admitOne id x i.1 (48 * x.part + i.2.1) i.2.2
    | none => s) s
  if x.state = 2 then (match tfind s1.subs id with | some y => s1.subMove id y 3 | none => s1) else s1

/-- A leaf whose saved team no core could hold even alone, and none of whose teams is resident, fails with FCODE 3 (18 R364). -/
def State.hopeless (s : State) (id : Nat) (x : Sub) : Bool :=
  let ts := s.teamsBy id
  !ts.isEmpty && ts.all (·.2.away) && ((s.vacated.roomOf x.part 0 []).place (x.need false)).isNone

/-- TEAM_ADMISSION: the walker of a partition admits the first team that fits, in the order of R162. A core whose clock is stopped, or whose
die is off, takes none (22 R401). (log 43, DESIGN CHOICE) -/
def execTeamAdmission (part : Nat) (s : State) : Out :=
  let ls := s.leaves part
  match ls.find? fun x => s.hopeless x.1 x.2 with
  | some x => .next (s.killLeaf x.1 3)
  | none =>
    if !s.clocked part then .next s
    else match ls.findSome? fun x =>
      let items := s.nextOf x.1 x.2
      if items.isEmpty then none else (s.fits x.1 x.2 items (s.freeAreas part)).map fun l => (x, items, l) with
    | none => .next s
    | some (x, items, l) => .next (s.admitAll x.1 x.2 items l)

/-! ### The save entry (17 R334–R337) -/

/-- Whether the engine queues of a wave hold only commands that stay queued (R335): behind an UNRESOLVED guard, or behind an epilogue
command that stays. -/
def Wave.drained (w : Wave) : Bool :=
  (match w.eq with | [] => true | c :: _ => !c.started && w.guardOf c == 0) &&
  (match w.mq with
   | [] => true
   | c :: _ => !c.started && (w.guardOf c == 0 || (c.wtile.isSome && w.eq.any fun e => !e.started && e.op < c.op && e.rtile == c.wtile)))

/-- The seg-address of a save area (R338). -/
def areaSeg (area : Nat) : DWord := segAddr 0x80000 (Config.saveAreaBytes * area)

/-- The trap of an entry that the walker or the auditor makes (R337 step 4, 18 R369). -/
def entryTrap (code cause area : Nat) (pc : DWord) : Trap :=
  { code := code, cause := cause, num := 0, half := 0, mask := 1, addrs := [(0, areaSeg area)], pc := pc }

/-- The wave enters its save: monitors and requests withdrawn, the trap-register image written, trap entry; the commands that stay queued
are held. (log 50, DEDUCED) -/
def State.enterSave (s : State) (k code : Nat) : State :=
  let s1 := s.withdraw k
  match s1.wave? k with
  | none => s1
  | some w =>
    let p := partOfKey k
    let s2 := (s1.areaPut p w.area 0x200 (wordBytes w.trapWords)).areaPut p w.area 0x240 w.faddrBytes
    s2.modWave k fun w =>
      let w1 := { w with swidx0 := w.swidxOf.1, swidx1 := w.swidxOf.2, due := none, hm := w.mq, he := w.eq, hc := w.cq, mq := [], eq := [], cq := [] }
      w1.enterHandler (entryTrap code 1 w.area 0) 0 (s.part p).svec true false

/-- SAVE_ENTRY: a due save is entered once every split stands at a pre-emption point and the engines have drained; in a handler it is held
until ERET, and TSTATE says so. -/
def execSaveEntry (k : Nat) (s : State) : Out :=
  match s.wave? k with
  | none => .next s
  | some w =>
    match if s.clocked (partOfKey k) then w.due else none with
    | none => .next s
    | some code =>
      if w.intrap then .next (s.putWave k { w with prepend := true })
      else if w.liveLanes = 0 || !w.allAtPoint || !w.drained then .next s
      else .next (s.enterSave k code)

/-! ### The restore entry (17 R339, R340) -/

/-- A wait as a restored wave resumes it (R340): WAITV returns status 0, a queue or cairn request is made again. -/
def Wait.resumed (r : Wait) : Wait := if r.kind = 8 then { r with arg := r.arg / 4 * 4, done := true } else r

/-- The wait of entry `e` as the save area's wait record gives its kind and its deadline (R341); what else it waits on is kept beside. A record
of kind 0 is no wait. -/
def waitOf (b : List Byte) (sv : Saved) (e : Nat) : Option Wait :=
  let kind := natAt b (0x400 + 16 * e) 4 % 16
  let dead := natAt b (0x408 + 16 * e) 8
  if kind = 0 then none
  else match tfind sv.waits e with
    | some r => some (if r.kind % 16 = kind then { r with dead := dead } else { kind := kind, arg := 0, dead := dead, done := false }).resumed
    | none => some ({ kind := kind, arg := 0, dead := dead, done := false } : Wait).resumed

/-- The machine block loaded into a wave (R339, R341): `b` is the save area's first 0x1600 bytes, `pc` and `sp` what the entry leaves open. -/
def Wave.loadBlock (w : Wave) (b : List Byte) (sv : Saved) (svec pc : DWord) (sp : Nat) : Wave :=
  let n (off : Nat) : Nat := natAt b off 4
  let x (off : Nat) : Word := BitVec.ofNat 32 (n off)
  let w1 : Wave :=
    { w with
      fpstat := x 0x100, rngLo := x 0x104, rngHi := x 0x108, rngStream := x 0x10C, rngStep := x 0x110, swidx0 := n 0x114, swidx1 := n 0x118,
      linkidx := x 0x11C, linkent := x 0x120, linkgen := x 0x124, linksel := x 0x128, linkname := dword (x 0x12C) (x 0x130),
      links := (List.range (n 0x134)).map fun f => { bidx := n (0x140 + 16 * f), gen := n (0x144 + 16 * f), sel := n (0x148 + 16 * f) },
      cframes := (List.range (n 0x340)).map fun f =>
        let i := n (0x348 + 12 * f)
        { off := n (0x344 + 12 * f) + i % 2 ^ 12 * 2 ^ 32, sel := n (0x34C + 12 * f), team := bitOf i 12, lsdepth := bitsOf i 13 4 },
      audCore := x 0x380, audTeam := x 0x384, audGrid := x 0x388,
      bara := ((List.range 16).map fun i => (i, n (0x390 + 4 * i))).filter (·.2 != 0),
      baraV := (List.range 16).filter fun i => bitOf (n 0x3D0) i,
      flags := ((List.range 12).map fun i => (i, n (0xC0 + 4 * i) % 64)).filter (·.2 != 0),
      guards := ((List.range 8).map fun i => (i, natAt b (0xF0 + i) 1 % 4)).filter (·.2 != 0),
      splits := ((List.range 8).map fun e => (e, splitOf b (0x500 + 32 * e) (0x600 + 512 * e) 32 0 (waitOf b sv e))).filter
        fun p => p.2.valid,
      isel := n 4 % 2 ^ 20, hm := sv.mq, he := sv.eq, hc := sv.cq, ops := sv.ops, opctr := sv.opctr, unwind := sv.unwind,
      restore := true, restored := false, rstop := sv.opctr }
  let lanes := w1.liveLanes
  { w1 with trapcode := tPREEMPT, trapinfo := 2, trappc := pc, faultmask := 1, faddr := [(0, areaSeg w.area)], intrap := true, clvl := true,
            plvl := bitOf (n 0x214) 30, nest := false, prepend := false, tsplit := sp, codesel := selOf svec,
            handler := some (handlerSplit lanes (offOf svec)) }

/-- RESTORE_ENTRY: a seated saved wave loads its machine block, performs FENCE.ACQ.DEVICE and enters the restore routine. What TRAPPC and
TSTATE.SPLIT then hold is not stated, and is free (log 2). (log 50, DEDUCED) -/
def execRestoreEntry (k : Nat) (s : State) : Out :=
  match s.wave? k with
  | none => .next s
  | some w =>
    match if w.restore && s.clocked (partOfKey k) then (s.team? w.team).bind fun t => tfind t.saved w.wid else none with
    | none => .next s
    | some sv =>
      let p := partOfKey k
      let b := s.areaGet p w.area 0 0x1600
      let a := s.draw
      let d := a.2.draw
      let e := d.2.draw
      let s1 := e.2.modTeam w.team fun t => { t with saved := tdel t.saved w.wid }
      .next ((s1.putWave k (w.loadBlock b sv (s.part p).svec (dword a.1 d.1) (e.1.toNat % 8))).acquire (clusterOfKey k) 3)

end Sys2Proof.Machine
end

