-- ==== Sys2Proof/Machine/Retire.lean ====
section
/-! DEFINITION. The end of waves, teams and grids (07 R166, R167), the TEAM unwind of other waves (18 R355), the Mirage auditor (R365–R369), the teardown of a partition (R372). -/

namespace Sys2Proof.Machine

/-! ### Waves and teams (R166(b), (c)) -/

/-- Whether a wave has nothing left to do. -/
def State.waveOver (s : State) (w : Wave) : Bool :=
  w.liveLanes == 0 && w.mq.isEmpty && w.eq.isEmpty && w.cq.isEmpty && w.hm.isEmpty && w.he.isEmpty && w.hc.isEmpty &&
    (List.range 12).all (fun k => w.flag k == 0) && !(s.clusters.any fun c => c.2.slots.any fun x => x.2.team == w.team && x.2.wid == w.wid) &&
    !((s.team? w.team).any fun t => (tfind t.saved w.wid).isSome)

/-- The divisor of AUDSEQ that selects a team (R365, R374). -/
def Part.audStride (p : Part) : Nat := 2 ^ min 16 (p.audctl % 32)

/-- A team of an AUDIT leaf has retired: it is counted, skipped if it trapped, and selected where AUDSEQ says so. (log 60, DEDUCED) -/
def State.auditTeam (s : State) (t : Team) (id : Nat) : State :=
  s.modPart t.part fun p =>
    let n := (p.audseq + 1) % 2 ^ 32
    let p1 := { p with audseq := n }
    if t.trapped then { p1 with audskip := (p.audskip + 1) % 2 ^ 32 }
    else if n % p.audStride = 0 then { p1 with audits := p.audits ++ [{ id := id, team := t, third := false, cores := [], sigs := [], running := none }] }
    else p1

/-- TDONE is written through the block's seg-address; a write that fails its checks is left out. (log 61, DEDUCED) -/
def State.putTdone (s : State) (x : Sub) (v : Nat) : State :=
  match s.walkerAccess x { right := 1, kinds := kindsDTH, size := 4, align := 4, write := true } (x.block + 0x90) with
  | .error _ => s
  | .ok a => s.agentPut a (leBytes 4 v)

/-- A team retires with its last wave: TDONE counts it. A replay leaves its signature with its audit. -/
def State.teamOver (s : State) (id : Nat) (t : Team) : State :=
  let s1 := { s with teams := tdel s.teams id }
  match t.replay with
  | some a => s1.modPart t.part fun p =>
      { p with audits := p.audits.map fun x => if x.id == a then { x with cores := x.cores ++ [t.core], sigs := x.sigs ++ [t.sig], running := none } else x }
  | none =>
    match tfind s1.subs t.sub with
    | none => s1
    | some x =>
      let y := { x with tdone := x.tdone + 1 }
      let s2 := { s1 with subs := tput s1.subs t.sub y }.putTdone x (y.tdone % 2 ^ 32)
      if t.audit then s2.auditTeam t id else s2

/-- After a wave has left: the team retires with its last one; if the others are saved it may give up its room. -/
def State.teamLeft (s : State) (id : Nat) : State :=
  match s.team? id with
  | none => s
  | some t => if t.wkeys.isEmpty && t.saved.isEmpty then s.teamOver id t else s.tryAway id

/-- WAVE_RETIREMENT: a wave without lanes, commands and counts frees its registers and its slot. (log 25, DESIGN CHOICE) -/
def execWaveRetirement (k : Nat) (s : State) : Out :=
  match s.wave? k with
  | none => .next s
  | some w => .next (if s.waveOver w then (s.endWave k).teamLeft w.team else s)

/-! ### Grids (R166(d), (e), R167) -/

/-- Whether a block has finished (R159): a leaf whose teams and replays are over, an inner node that has its completions, CCOUNT being what the
walker reads. (log 59, DEDUCED) -/
def State.blockOver (s : State) (id : Nat) (x : Sub) : Bool :=
  if x.leaf then x.state == 3 && x.tdone == blkTeams x.rcb && !(s.part x.part).audits.any (·.team.sub == id)
  else (x.state == 2 && blkKbind x.rcb == 0) || (x.state == 3 && (s.walkerRead x 4 (x.block + 0x80)).2.any fun n => blkKbind x.rcb ≤ n)

/-- The first step: every write is published, DONEGTS and STATE 4 are written. (log 61, DEDUCED) -/
def State.blockDone (s : State) (id : Nat) (x : Sub) : State :=
  let s1 := if x.leaf then ((List.range 12).map (12 * x.part + ·)).foldl State.publishAll s else s
  let s2 := (s1.subPut x 0x88 8 s.gts).subState x 4 0
  { s2 with subs := tput s2.subs id { x with state := 6 } }

/-- The CCOUNT post: an atomic at the parent's home that counts only in STATE 3. (log 61, DEDUCED) -/
def State.postParent (s : State) (x : Sub) : State :=
  if blkParent x.rcb = 0 then s
  else match s.walkerAccess x { right := 3, kinds := kindsDTH, size := 4, align := 4, write := true } (BitVec.ofNat 64 (blkParent x.rcb) + 0x80) with
    | .error _ => s.failedStep x 1
    | .ok a =>
      let st := s.walkerRead x 4 (BitVec.ofNat 64 (blkParent x.rcb) + 0x84)
      let n := st.1.walkerRead x 4 (BitVec.ofNat 64 (blkParent x.rcb) + 0x80)
      match st.2.map (· % 8), n.2 with
      | some 3, some n1 => n.1.agentPut a (leBytes 4 ((n1 + 1) % 2 ^ 32))
      | _, _ => n.1.failedStep x 1

/-- The wake write. (log 61, DEDUCED) -/
def State.wakeWrite (s : State) (x : Sub) : State :=
  if !blkWakeen x.rcb then s
  else match s.walkerAccess x wakeNeed (blkWakeaddr x.rcb) with
    | .error _ => s.failedStep x 2
    | .ok a => s.agentPut a (leBytes 4 (natAt x.rcb 0x78 4))

/-- GRID_COMPLETION of submission `i`, one step of R166(d) after the other: the block's own writes, the post, the wake write with the launch
pin's release. (log 61, DEDUCED) -/
def execGridCompletion (part i : Nat) (s : State) : Out :=
  match tfind s.subs i with
  | none => .next s
  | some x =>
    if x.part != part then .next s
    else if x.state = 6 then .next (let s1 := s.postParent x; { s1 with subs := tput s1.subs i { x with state := 7 } })
    else if x.state = 7 then .next (((s.wakeWrite x).unpinSub x).endSub i x)
    else .next (if s.blockOver i x then s.blockDone i x else s)

/-! ### TEAM unwind (18 R355) -/

/-- TEAM_UNWIND: a wave unwinds to its topmost TEAM frame once every split stands at a pre-emption point; in a handler it waits for ERET.
(log 51, DESIGN CHOICE) -/
def execTeamUnwind (k : Nat) (s : State) : Out :=
  match s.wave? k with
  | none => .next s
  | some w => .next (if w.unwind.isSome && !w.intrap && w.allAtPoint && s.clocked (partOfKey k) then s.unwindPending k else s)

/-! ### The Mirage auditor (R365–R369) -/

/-- Whether an audit wants a replay: the first, or the third run after a mismatch. -/
def Audit.wants (a : Audit) : Bool := a.running.isNone && (a.sigs.isEmpty || (a.third && a.sigs.length == 1))

/-- Whether a team of the partition waits for room. -/
def State.anyWaits (s : State) (p : Nat) : Bool := (s.leaves p).any fun x => !(s.nextOf x.1 x.2).isEmpty

/-- The lowest core of a cluster that no earlier run used, on which a team fits. -/
def State.replaySpot (s : State) (p : Nat) (n : TeamNeed) (used : List Nat) : Option (Nat × List Nat) :=
  let r := s.roomOf p (s.freeAreas p) []
  if n.fresh && r.areas < n.tw then none
  else (List.range 48).findSome? fun i =>
    if used.any (· / 4 == (48 * p + i) / 4) then none else (r.placeOn n i).map fun x => (i, x.2)

/-- A replay starts from the team's launch state: the same identifiers, seed, PARAM and bindings, all else zero. (log 60, DEDUCED) -/
def State.startReplay (s : State) (a : Audit) (x : Sub) (core : Nat) (picks : List Nat) : State :=
  let p := x.part
  let t := s.teamctr
  let g := s.nextAge p
  let sup := match s.ctxRec p a.team.ctx with | some r => recLevel r | none => false
  let o := a.team
  let team := { (Team.launched o.sub p core o.ctx o.x o.y o.z o.linear o.gridid o.teamw o.monq o.fdom 0 o.seed o.param true [] [] g.1) with
                replay := some a.id }
  let s1 := ({ g.2 with teamctr := t + 1 }.putTeam t team).giveRoom t core (x.need true)
  let s2 := s1.modPart p fun y => { y with audits := y.audits.map fun b => if b.id == a.id then { b with running := some t } else b }
  s2.seatAll (fun s wid q => s.newWave p t wid q x.kern o.seed o.param sup) (picks.map (192 * p + ·))

/-- A replay that was pre-empted comes back, on any core. (log 60, DEDUCED) -/
def State.resumeReplay (s : State) (t : Nat) (x : Sub) : State :=
  match (s.roomOf x.part (s.freeAreas x.part) []).place (x.need false) with
  | none => s
  | some (_, i, picks) => s.admitOne 0 x (some t, 0) (48 * x.part + i) picks

/-- AUDIT_REPLAY: with no team waiting, the walker lets a pre-empted replay go on, or starts the next one that an audit wants. (log 60, DEDUCED) -/
def execAuditReplay (part : Nat) (s : State) : Out :=
  if s.anyWaits part || !s.clocked part then .next s
  else match s.teams.find? fun t => t.2.part == part && t.2.away && t.2.replay.isSome with
    | some (t, y) => .next (match tfind s.subs y.sub with | some x => s.resumeReplay t x | none => s)
    | none =>
      match (s.part part).audits.find? Audit.wants with
      | none => .next s
      | some a => .next (match tfind s.subs a.team.sub with
        | none => s
        | some x => match s.replaySpot part (x.need true) (a.team.core :: a.cores) with
          | none => s
          | some (i, picks) => s.startReplay a x (48 * part + i) picks)

/-- A core is retired whole (R368): its quadrants and tiles have no capacity, and its teams are taken by OVERCAP. -/
def State.retireCore (s : State) (q : Nat) : State :=
  let s1 := { s with qregs := (List.range 4).foldl (fun m j => tset 2048 m (4 * q + j) 0) s.qregs, ztiles := tset 128 s.ztiles q 0 }
  s1.dueTeams ((s1.teamsOn q).map fun t => s1.withBlock t.1).flatten tOVERCAP

/-- A core is blamed for a mismatch. -/
def State.blame (s : State) (p q : Nat) : State :=
  let n := s.audfailOf q + 1
  let s1 := { s with audfail := tset 0 s.audfail q n }
  let thr := bitsOf (s.part p).audctl 8 8
  if thr != 0 && n = thr then s1.retireCore q else s1

/-- A mismatch is settled: AUDBAD, the blame, the record, the domain's bit, what AUDIT will report. (log 60, DEDUCED) -/
def State.settleAudit (s : State) (p : Nat) (a : Audit) : State :=
  let t := a.team
  let c1 := a.cores.getD 0 0
  let c2 := a.cores.getD 1 0
  let blamed := if a.sigs.getD 1 0 = t.sig then some c1 else if a.sigs.getD 1 0 = a.sigs.getD 0 0 then some t.core else none
  let b := blamed.getD 0xFF
  let s1 := s.modPart p fun x =>
    { x with audbad := (x.audbad + 1) % 2 ^ 32, audits := x.audits.filter fun y => y.id != a.id,
             fdpend := lset x.fdpend (t.fdom / 32) ((x.fdpend.getD (t.fdom / 32) 0) ||| 2 ^ (t.fdom % 32)),
             blames := tput x.blames t.fdom (BitVec.ofNat 32 (b + t.core * 2 ^ 8 + c1 * 2 ^ 16 + c2 * 2 ^ 24), BitVec.ofNat 32 t.linear,
               BitVec.ofNat 32 t.gridid) }
  let s2 := s1.eventRec p 5 5 b t.fdom t.gridid t.linear
  match blamed with
  | none => s2
  | some q => s2.blame p q

/-- Whether an audit has something to compare. -/
def Audit.due (a : Audit) : Bool := a.running.isNone && ((a.sigs.length == 1 && !a.third) || a.sigs.length == 2)

/-- AUDIT_COMPARE: a replay that overflowed is abandoned; else a finished replay's signature is compared. (log 60, DEDUCED) -/
def execAuditCompare (part : Nat) (s : State) : Out :=
  match s.teams.find? fun t => t.2.part == part && t.2.replay.isSome && t.2.rover with
  | some t => .next (s.abandonReplay t.1)
  | none =>
    match (s.part part).audits.find? Audit.due with
    | none => .next s
    | some a =>
      if a.sigs.length = 2 then .next (s.settleAudit part a)
      else if a.sigs.getD 0 0 = a.team.sig then
        .next (s.modPart part fun p => { p with audok := (p.audok + 1) % 2 ^ 32, audits := p.audits.filter fun y => y.id != a.id })
      else .next (s.modPart part fun p => { p with audits := p.audits.map fun y => if y.id == a.id then { y with third := true } else y })

/-- AUDIT: the wave, of a fault domain whose bit is set, takes trap 0x11 at a pre-emption point; the bit is cleared. (log 60, DEDUCED) -/
def execAudit (k : Nat) (s : State) : Out :=
  match s.wave? k with
  | none => .next s
  | some w =>
    match s.team? w.team with
    | none => .next s
    | some t =>
      let p := s.part t.part
      if !p.fdBit t.fdom || !s.clocked t.part || w.intrap || w.liveLanes = 0 || !w.allAtPoint || t.replay.isSome then .next s
      else
        let b := tget (0, 0, 0) p.blames t.fdom
        let p1 := { p with fdpend := lset p.fdpend (t.fdom / 32) (p.fdpend.getD (t.fdom / 32) 0 - 2 ^ (t.fdom % 32)), blames := tdel p.blames t.fdom }
        let w1 := { w with swidx0 := w.swidxOf.1, swidx1 := w.swidxOf.2, audCore := b.1, audTeam := b.2.1, audGrid := b.2.2 }
        .next (((s.putPart t.part p1).putWave k (w1.enterHandler (entryTrap tAUDIT 1 w.area 0) 0 p.svec true false)).modTeam w.team
          fun x => { x with trapped := true })

/-! ### Teardown (R372) -/

/-- The sectors of a line. -/
def lineSectors (line : Nat) : List Nat := (List.range 4).map (4 * line + ·)

/-- Every line of a partition whose directory entry names an owner or a partial loses its sectors to poison, its entry and every copy of it;
the other entries keep only sharers of other partitions. (log 62, DESIGN CHOICE) -/
def State.loseDir (s : State) (p : Nat) : State :=
  let mine (line : Nat) : Bool := line * 128 < 2 ^ 51 && partOfLine line == p
  let lost := (s.dir.filter fun d => mine d.1 && (d.2.owner.isSome || !d.2.partials.isEmpty)).map (·.1)
  let kept (d : Dir) : Dir := { d with sharers := d.sharers.filter (· / 12 != p) }
  { s with marks := (lost.map lineSectors).flatten.foldl sins s.marks,
           clusters := tmap (fun _ c => { c with copies := c.copies.filter fun x => !lost.contains x.line }) s.clusters,
           dir := (tmap (fun line d => if mine line then kept d else d) s.dir).filter fun d =>
             !lost.contains d.1 && !(mine d.1 && d.2.sharers.isEmpty) }

/-- The compute die and the requests of a partition are reset; what has left it for other homes stays on its way. Its memory, its capacities and
its power state stay, and no Cistern entry counts as used by it any more (20 R385).
(log 62, DESIGN CHOICE) -/
def State.resetPart (s : State) (p : Nat) : State :=
  let mineW (k : Nat) : Bool := partOfKey k == p
  { s with
    waves := s.waves.filter fun w => !mineW w.1
    teams := s.teams.filter fun t => t.2.part != p
    subs := s.subs.filter fun x => x.2.part != p
    cores := s.cores.filter fun c => c.1 / 48 != p
    clusters := s.clusters.filter fun c => c.1 / 12 != p
    mon := s.mon.filter fun m => !mineW m.wave
    cairns := (tmap (fun _ l => l.filter fun (r : CairnReq) => !mineW r.wave) s.cairns).filter fun c => !c.2.isEmpty
    modu := { s.modu with cistern := tmap (fun _ b => { b with ents := b.ents.map fun e => { e with by_ := srem e.by_ p } }) s.modu.cistern }
    parts := tset Part.reset s.parts p { Part.reset with power := (s.part p).power } }

/-- Pins released in this step rather than one by one: enough rounds of PIN_RELEASE for every pending one. (log 62, DESIGN CHOICE) -/
def State.pinsOver (s : State) (p : Nat) : Nat → State
  | 0 => s
  | n + 1 => match execPinRelease p s with
    | .next t => t.pinsOver p n
    | _ => s

/-- Steps 1 to 5 of R372; the partition is then held in reset. (log 62, DESIGN CHOICE) -/
def State.tearDown (s : State) (p : Nat) : State :=
  let s1 := (s.hq.filter fun h => h.1 * 128 < 2 ^ 51 && partOfLine h.1 == p).foldl (fun s h => s.flushHq h.1) s
  let s2 := (s1.waves.filter fun w => partOfKey w.1 == p).foldl (fun (s : State) w => s.withdraw w.1) (s1.loseDir p)
  let running := s2.subs.filter fun x => x.2.part == p && x.2.state ≤ 3
  let s3 := { s2 with waves := s2.waves.filter fun w => partOfKey w.1 != p, teams := s2.teams.filter fun t => t.2.part != p }
  let s4 := running.foldl (fun s x => s.subFail x.1 8) s3
  let s4 := (s4.subs.filter fun x => x.2.part == p && (x.2.state == 6 || x.2.state == 7)).foldl (fun (s : State) x => s.unpinSub x.2) s4
  let s5 := s4.pinsOver p (2 * (s4.part p).unpins.length)
  (s5.eventBare p 7 15 0).resetPart p

/-- PARTITION_TEARDOWN. (log 62, DESIGN CHOICE) -/
def execPartitionTeardown (part : Nat) (s : State) : Out := .next (if (s.part part).running then s.tearDown part else s)

end Sys2Proof.Machine
end

