-- ==== Sys2Proof/Machine/Outside.lean ====
section
/-! DEFINITION. The world outside the partitions: the host's mailbox commands, its memory accesses and those of peers, refusals, power states, firmware and attestation, the reset of the module (22 R392–R408). -/

namespace Sys2Proof.Machine

/-! ### Answers to the host -/

/-- The host reads a mailbox answer to a command's opcode: 0 done, 1 refused where the spec names no code, 2 Invalid Input, 6 busy (log 16, PRESUMED). -/
def State.answer (s : State) (opcode code : Nat) : State := { s with modu := { s.modu with answers := s.modu.answers ++ [(opcode, code)] } }

/-- A CXL event record for the host. -/
def State.cxlEvent (s : State) (code arg : Nat) : State := { s with modu := { s.modu with cxl := s.modu.cxl ++ [(code, arg)] } }

/-- An SPDM answer. -/
def State.spdmAnswer (s : State) (b : List Byte) : State := { s with modu := { s.modu with spdm := s.modu.spdm ++ [b] } }

/-- An outside agent gets the answer to a read: bytes, or none for a poison indication or a refusal. -/
def State.outRead (s : State) (agent pa : Nat) (b : List Byte) : State := { s with modu := { s.modu with reads := s.modu.reads ++ [(agent, pa, b)] } }

/-! ### Start and Stop (R395, R396) -/

/-- The registers CTXTLO to SVECHI of a Start, with the leaf-launch count 0. -/
def startRegs (o : StartPayload) (p : Part) : Part :=
  { p with running := true, leafs := 0, ctxt := o.ctxt, ctxtn := o.ctxtn, svseg := o.svseg, svsegn := o.svsegn, svpt := o.svpt, svec := o.svec }

/-- Whether every field of a payload lies in its range and no reserved bit is set. -/
def startOk (o : StartPayload) : Bool :=
  !o.reserved && o.part < 4 && o.ctxt < 2 ^ 52 && o.ctxtn ≤ 4096 && o.svseg < 2 ^ 52 && o.svsegn ≤ 2 ^ 19 && o.svpt < 2 ^ 52

/-- The boot block's physical address and context, under the payload's own tables; none where a check fails. -/
def State.bootBlock (s : State) (o : StartPayload) : Option (Nat × Nat) :=
  let t := s.modPart o.part (startRegs o)
  if !bitOf (selOf o.bootrcb) 19 then none
  else match t.checkRange (unitWho o.part 0 true) blockNeed 0 o.bootrcb with
    | .error _ => none
    | .ok a =>
      let boot : Submit := { block := o.bootrcb, pa := a.pa, ctx := 0, level := true, boot := true, wave := 0, op := 0 }
      match (t.walkerRead (subOf o.part boot []) 4 (o.bootrcb + 4)).2 with
      | none => none
      | some x =>
        let ctx := bitsOf x 16 12
        match t.ctxRec o.part ctx with
        | some r => if recLevel r then some (a.pa, ctx) else none
        | none => none

/-- START: the registers are written and the boot block goes to the walker, or the command fails with no effect. (log 16, PRESUMED) -/
def execStart (o : StartPayload) (s : State) : Out :=
  if !startOk o || (s.part o.part).running then .next (s.answer 0xC001 2)
  else match s.bootBlock o with
    | none => .next (s.answer 0xC001 2)
    | some (pa, ctx) =>
      let boot : Submit := { block := o.bootrcb, pa := pa, ctx := ctx, level := true, boot := true, wave := 0, op := 0 }
      .next ((s.modPart o.part fun p => { startRegs o p with launches := [boot] }).answer 0xC001 0)

/-- Whether a block of a partition is in STATE 1 to 3. (log 64, DESIGN CHOICE) -/
def State.blocksRun (s : State) (p : Nat) : Bool := s.subs.any fun x => x.2.part == p && 1 ≤ x.2.state && x.2.state ≤ 3

/-- Everything in the publish buffers and pending pin releases of a partition is done. (log 64, DESIGN CHOICE) -/
def State.quiesce (s : State) (p : Nat) : State :=
  let t := ((List.range 12).map (12 * p + ·)).foldl State.publishAll s
  t.pinsOver p (2 * (t.part p).unpins.length)

/-- STOP. (log 16, PRESUMED; log 64, DESIGN CHOICE) -/
def execStop (part : Nat) (force reserved : Bool) (s : State) : Out :=
  if reserved || 4 ≤ part then .next (s.answer 0xC002 2)
  else if !(s.part part).running then .next (s.answer 0xC002 0)
  else if force then .next ((s.tearDown part).answer 0xC002 0)
  else if s.blocksRun part then .next (s.answer 0xC002 1)
  else .next (((s.quiesce part).resetPart part).answer 0xC002 0)

/-! ### Power states (R401–R404) -/

/-- Whether every die that has reported reads below 95 °C. (log 64, DESIGN CHOICE) -/
def Module.cool (m : Module) : Bool := m.temps.all fun t => t.2 < 95

/-- Whether a wave of a partition is resident. (log 64, DESIGN CHOICE) -/
def State.anyWave (s : State) (p : Nat) : Bool := s.waves.any fun w => partOfKey w.1 == p

/-- A partition changes its state; leaving I2 restores it to reset, entering it drains the publish buffers first. (log 64, DESIGN CHOICE) -/
def State.setPower (s : State) (p st : Nat) : State :=
  let s1 := if (s.part p).power = 9 && st != 9 then s.resetPart p else if st = 9 then s.quiesce p else s
  s1.modPart p fun x => { x with power := st }

/-- SET_STATE: byte 0 PART, byte 1 the target. (log 16, PRESUMED; log 64, DESIGN CHOICE) -/
def execSetState (b0 b1 : Byte) (s : State) : Out :=
  let p := b0.toNat
  let st := b1.toNat
  if 4 ≤ p || 10 ≤ st then .next (s.answer 0xC010 2)
  else if st = 9 && s.anyWave p then .next (s.answer 0xC010 1)
  else if s.modu.clamp && st < 7 && !s.modu.cool then .next (s.answer 0xC010 6)
  else
    let s1 := if s.modu.cool then { s with modu := { s.modu with clamp := false } } else s
    .next ((s1.setPower p st).answer 0xC010 0)

/-- THERMAL_CLAMP: a die's reading; past 105 °C every partition is clamped to P7, and that is reported by a CXL event record and an MCTP alert. (log 42, DESIGN CHOICE; log 64, DESIGN CHOICE) -/
def execThermalClamp (die celsius : Nat) (s : State) : Out :=
  let s1 := { s with modu := { s.modu with temps := tput s.modu.temps die celsius } }
  if celsius ≤ 105 then .next s1
  else
    let s2 := { s1 with modu := { s1.modu with clamp := true } }
    .next (((List.range 4).foldl (fun s p => s.modPart p fun x => if x.power < 7 then { x with power := 7 } else x) s2).cxlEvent 0x404 die
      |>.alert 0x404 die)

/-! ### Memory seen from outside (R392, R397, R399, R400) -/

/-- Every line of a range is read at its home. -/
def State.agentReads (s : State) (pa n : Nat) : State :=
  (List.range ((pa + n - 1) / 128 - pa / 128 + 1)).foldl (fun s i => s.agentRead (pa / 128 + i)) s

/-- An access of an outside agent at the homes of HBM and of the tier. (log 13, DESIGN CHOICE) -/
def State.outAccess (s : State) (agent : Nat) (a : MemAccess) : State :=
  if a.write then s.agentWrites a.pa (a.bytes.length / 128 + 2) a.bytes
  else
    let s1 := s.agentReads a.pa a.len
    s1.outRead agent a.pa (if s1.marked a.pa a.len then [] else s1.homeBytes a.pa a.len)

/-- HOST_MEM_ACCESS, to a partition that runs. (log 13, DESIGN CHOICE) -/
def execHostMemAccess (a : MemAccess) (s : State) : Out :=
  .next (if 8 ≤ a.pa / 2 ^ 48 || s.downAt a.pa then s else s.outAccess 0 a)

/-- RESET_REFUSAL: the host's access to a partition held in reset; a read gets a poison indication, a write is dropped and reported. (log 63, DEDUCED) -/
def execResetRefusal (a : MemAccess) (s : State) : Out :=
  .next (if !s.downAt a.pa then s else if a.write then s.alert 0x397 a.pa else s.outRead 0 a.pa [])

/-- The line a message is about. -/
def Msg.line : Msg → Nat
  | .fill c _ => c.line
  | .inv line => line
  | .push line _ _ _ => line

/-- A HOST line is snooped away from every cluster, and what was on its way there. -/
def State.snoopLine (s : State) (line : Nat) : State :=
  { s with clusters := tmap (fun _ c => { c with copies := c.copies.filter (·.line != line), msgs := c.msgs.filter (·.line != line) }) s.clusters }

/-- HOST_SNOOP: a host write to its own memory; the Ovyen counts it as a write applied to the line. (log 13, DESIGN CHOICE) -/
def execHostSnoop (a : MemAccess) (s : State) : Out :=
  if a.pa / 2 ^ 48 != 8 || !a.write || a.bytes.isEmpty then .next s
  else
    let lines := (List.range ((a.pa + a.bytes.length - 1) / 128 - a.pa / 128 + 1)).map (a.pa / 128 + ·)
    .next ((lines.foldl State.snoopLine s).agentWrites a.pa (a.bytes.length / 128 + 2) a.bytes)

/-- PEER_ACCESS; a partition held in reset refuses with the link's error response. (log 13, DESIGN CHOICE) -/
def execPeerAccess (peer : Nat) (a : MemAccess) (s : State) : Out :=
  .next (if 8 ≤ a.pa / 2 ^ 48 then s else if s.downAt a.pa then s.outRead (peer + 1) a.pa [] else s.outAccess (peer + 1) a)

/-- LINK_REFUSAL: the next access of wave `w` to a HOST or PEER home is refused, or its next copy (`i` odd). -/
def execLinkRefusal (w i : Nat) (s : State) : Out := .next { s with modu := { s.modu with refused := s.modu.refused ++ [2 * w + i % 2] } }

/-! ### Firmware, identity, attestation (R405–R408) -/

/-- SET_TRUST_LIST: up to 32 keys, from the mailbox or an authenticated session. (log 16, PRESUMED) -/
def execSetTrustList (auth : Bool) (keys : List (BitVec 512)) (s : State) : Out :=
  if 32 < keys.length then .next (s.answer 0xC020 2)
  else if !auth then .next (s.answer 0xC020 1)
  else .next ({ s with modu := { s.modu with trust := keys } }.answer 0xC020 0)

/-- The number of the device's own signing key. -/
def deviceKeyNumber : Nat := 0

/-- 66 + 66 bytes of a signature. -/
def sigBytes (x : BitVec 1056) : List Byte := (leBytes 132 x.toNat).reverse

/-- 64 bytes of a digest. -/
def digestBytes (x : BitVec 512) : List Byte := (leBytes 64 x.toNat).reverse

/-- An answer signed with the device key. (log 13, DESIGN CHOICE) -/
def signed (b : List Byte) : List Byte := b ++ sigBytes (Config.ecdsaSign deviceKeyNumber b)

/-- GET_CERTIFICATE. -/
def execGetCertificate (s : State) : Out := .next (s.spdmAnswer Config.certChain)

/-- CHALLENGE: the nonce signed. (log 13, DESIGN CHOICE) -/
def execChallenge (nonce : List Byte) (s : State) : Out := .next (s.spdmAnswer (signed nonce))

/-- A capacity table as it is measured: how many entries, then each with its number. (log 13, DESIGN CHOICE) -/
def measuredTab (t : Tab Nat) : List Byte := leBytes 4 t.length ++ (t.map fun x => leBytes 4 x.1 ++ leBytes 4 x.2).flatten

/-- The bytes that an index of R406 measures. (log 13, DESIGN CHOICE) -/
def State.measuredBytes (s : State) (index : Nat) : List Byte :=
  match index with
  | 2 => s.modu.running
  | 4 => (s.modu.trust.map digestBytes).flatten
  | 5 => (measuredTab s.qregs ++ measuredTab s.ztiles ++ measuredTab s.sramb ++ measuredTab s.msckb) ++
      (s.units.map fun u => wordBytes [unitKind u.key, unitNum u.key, u.phys, u.state, match u.target with | none => 0 | some t => t + 1]).flatten
  | 6 => ((List.range 4).map fun p => leBytes 4 (s.part p).trctl ++ leBytes 4 (s.part p).cewin).flatten
  | n => Config.measured n

/-- GET_MEASUREMENTS: the SHA-512 digest of an index from 1 to 6, signed with the nonce. (log 13, DESIGN CHOICE) -/
def execGetMeasurements (index : Nat) (nonce : List Byte) (s : State) : Out :=
  if index = 0 || 6 < index then .next (s.spdmAnswer [])
  else .next (s.spdmAnswer (signed (digestBytes (Config.sha512 (s.measuredBytes index)) ++ nonce)))

/-- FIRMWARE_UPDATE: an image that verifies, with a rollback counter not below the stored one, waits for the next module reset.
(log 7, DESIGN CHOICE; log 16, PRESUMED; log 65, DESIGN CHOICE) -/
def execFirmwareUpdate (image : List Byte) (s : State) : Out :=
  .next (if Config.firmwareVerifies image && s.modu.rollback ≤ Config.firmwareCounter image then
    { s with modu := { s.modu with stored := some image } } else s)

/-- MODULE_RESET: everything as after reset, with what no reset restores (R362) and what the management controller stores; a stored firmware
image becomes active. (log 7, DESIGN CHOICE; log 65, DESIGN CHOICE) -/
def execModuleReset (s : State) : Out :=
  let image := s.modu.stored.getD s.modu.running
  let counter := match s.modu.stored with | some i => Config.firmwareCounter i | none => s.modu.rollback
  .next { State.reset with
    agenda := s.agenda, freeCtr := s.freeCtr, mem := s.mem, marks := s.marks, qregs := s.qregs, ztiles := s.ztiles, sramb := s.sramb
    msckb := s.msckb, audfail := s.audfail, units := s.units
    modu := { Module.reset with
      trust := s.modu.trust, running := image, rollback := counter, cistUse := s.modu.cistUse
      cistern := tmap (fun _ b => { b with ents := b.ents.map fun e => { e with by_ := [] } }) s.modu.cistern } }

end Sys2Proof.Machine
end

