-- ==== Sys2Proof/Machine/Lower.lean ====
section
/-! DEFINITION. The documented lowering of a Zynran image to native clauses, with its target table (03 R76–R81). -/

namespace Sys2Proof.Machine

/-! ### The instructions of an image in address order -/

/-- An instruction of an image: its offset from the kernel header, its raw fields, whether it decodes. -/
structure ZItem where
  off   : Nat
  raw   : Raw
  legal : Bool
  deriving DecidableEq, Repr

/-- Parcels of code read one instruction after another; parcels that an instruction at the end lacks end the list. -/
def zItems (e : DecEnv) : Nat → Nat → List Nat → List ZItem
  | 0, _, _ => []
  | n + 1, off, l =>
      let p0 := l.getD 0 0
      let k := parcelsOf p0
      if l.length < k || l.isEmpty then []
      else
        let p1 := l.getD 1 0
        let p2 := l.getD 2 0
        let ok := match decodeZynran e p0 p1 p2 with | (_, .ok _) => true | _ => false
        { off := off, raw := zynranRaw p0 p1 p2, legal := ok } :: zItems e n (off + 4 * k) (l.drop k)

/-- The parcels of code bytes. (log 18, DEDUCED) -/
def parcelList : Nat → List Byte → List Nat
  | 0, _ => []
  | n + 1, b => if b.length < 4 then [] else natAt b 0 4 :: parcelList n (b.drop 4)

/-! ### Short forms as full words (R68) -/

/-- The Z64 equivalent of a short opcode (R67). -/
def shortOp (op : Nat) : Nat :=
  match op with
  | 0x01 => 0x02C | 0x02 => 0x01F | 0x03 => 0x017 | 0x04 => 0x016
  | 0x05 => 0x027 | 0x06 => 0x028 | 0x07 => 0x029
  | 0x08 => 0x010 | 0x09 => 0x011 | 0x0A => 0x013
  | 0x0B => 0x018 | 0x0C => 0x019 | 0x0D => 0x01A | 0x0E => 0x01B
  | 0x0F => 0x01C | 0x10 => 0x01D | 0x11 => 0x01E | 0x12 => 0x020
  | 0x13 => 0x021 | 0x14 => 0x022 | 0x15 => 0x023 | 0x16 => 0x024
  | 0x20 => 0x040 | 0x21 => 0x041 | 0x22 => 0x042 | 0x23 => 0x044 | 0x24 => 0x045 | 0x25 => 0x051 | 0x26 => 0x052
  | 0x28 => 0x04A | 0x29 => 0x04B | 0x2A => 0x049 | 0x2B => 0x04C | 0x2C => 0x04D | 0x2D => 0x04E | 0x2E => 0x04F | 0x2F => 0x050
  | 0x30 => 0x058 | 0x31 => 0x059
  | 0x38 => 0x1C8 | 0x39 => 0x1C9 | 0x3F => 0x090
  | _ => 0

/-- Whether a short opcode is binary: d := d op a. -/
def shortBinary (op : Nat) : Bool := (0x08 ≤ op && op ≤ 0x16) || (0x20 ≤ op && op ≤ 0x26)

/-- The TYPE that a size stands for (R68): 0; the 64-bit type of the opcode's natural signedness; its packed type. -/
def shortType (op size : Nat) : Nat :=
  match size with
  | 1 => (if op = 0x03 || op = 0x04 || op = 0x08 || op = 0x09 || op = 0x15 then Ty.i64 else Ty.b64).code
  | 2 => (if op = 0x25 || op = 0x26 then Ty.f16x2 else if op = 0x0D || op = 0x0E then Ty.n16x2 else Ty.i16x2).code
  | _ => 0

/-- The fields d, a, b, c of a short form's Z64 equivalent (R68, R77). TRAPZ, for which R68's table has no row, gets d, a and b 249 and c 0
(log 70, DESIGN CHOICE). -/
def shortFull (r : Raw) : Nat × Nat × Nat × Nat :=
  let size := bitsOf r.mods 3 2
  if r.op = 0x39 || r.op = 0x38 then (r.d, r.a, 249, 4 + size + 8)
  else if r.op = 0x30 || r.op = 0x31 then (r.d, r.a, 0, 0)
  else if r.op = 0x3F || r.op = 0 then (249, 249, 249, 0)
  else if shortBinary r.op then (r.d, r.d, r.a, shortType r.op size)
  else (r.d, r.a, 249, shortType r.op size)

/-! ### Pairing (R78) -/

/-- The registers from a code on, as codes; the special operands are none. -/
def regsFrom (x n : Nat) : List Nat := if x < 248 then (List.range n).map (x + ·) else []

/-- The words a register operand of a short form has: d and a. -/
def shortWidths (r : Raw) : Nat × Nat :=
  let w := if bitsOf r.mods 3 2 == 1 then 2 else 1
  (w, if (0x13 ≤ r.op && r.op ≤ 0x16) || r.op = 0x38 || r.op = 0x39 then 1 else w)

/-- What a short form writes, and what it reads or writes. -/
def shortWrites (r : Raw) : List Nat := if r.op = 0x39 then [] else regsFrom r.d (shortWidths r).1
def shortTouches (r : Raw) : List Nat := regsFrom r.d (shortWidths r).1 ++ regsFrom r.a (shortWidths r).2

/-- Whether a half can hold an instruction at all; a TRAPZ stays a word of its own. (log 18, DEDUCED) -/
def halfOk (r : Raw) : Bool := r.op != 0 && !r.neg && (r.pred < 7 || r.pred == 15)

/-- Whether two adjacent short forms pair. -/
def pairs (r q : Raw) : Bool :=
  halfOk r && halfOk q && !(shortTouches q).any (shortWrites r).contains &&
    (match shortRow r, shortRow q with | some x, some y => pairOk r q x y | _, _ => false)

/-! ### Clauses (R79, R80) -/

/-- A native word to be: a short form alone, a pair, a full form. -/
inductive LWord where
  | short (r : Raw)
  | pair (r q : Raw)
  | full (off : Nat) (r : Raw)
  deriving DecidableEq, Repr

/-- A clause to be; `other` says that it holds an instruction outside the classes of R79(d), `n` counts its native words. -/
structure LClause where
  start : Nat
  words : List LWord
  wait  : Nat
  flagA : Option Nat
  flagB : Option Nat
  other : Bool
  yield : Bool
  ended : Bool
  n     : Nat
  deriving DecidableEq, Repr

/-- The integer, address, floating-point, conversion, predicate-logic and cross-lane classes (R63). -/
def quietClass (r : Raw) : Bool :=
  if r.form == 0 then r.op != 0 && r.op != 0x38 && r.op != 0x39 && r.op != 0x3F
  else (0x010 ≤ r.op && r.op < 0x080) || (0x100 ≤ r.op && r.op < 0x180)

/-- Instructions marked T (R63). -/
def markedT (r : Raw) : Bool :=
  if r.form == 0 then r.op == 0
  else r.op == 0 || (0x080 ≤ r.op && r.op ≤ 0x087) || r.op == 0x093 || r.op == 0x094 || r.op == 0x0B1

/-- The offset that a displacement of an instruction names, if it lies above the header. -/
def dispOff (off : Nat) (d : Disp) : List Nat :=
  let t : Int := (off : Int) + 4 * d.toInt
  if t < 0 then [] else [t.toNat]

/-- The target and the reconvergence address that an instruction's literal names. -/
def litTargets (x : ZItem) : List Nat :=
  if x.raw.form == 0 || x.raw.lit.isNone then []
  else match x.raw.op with
    | 0x080 => dispOff x.off (tgtOf x.raw) ++ dispOff x.off (rcOf x.raw)
    | 0x081 | 0x083 => dispOff x.off (tgtOf x.raw)
    | 0x082 => dispOff x.off (rcOf x.raw)
    | _ => []

/-- Whether the yield bit follows from a clause's last instruction. -/
def yields (x : ZItem) : Bool :=
  x.raw.form != 0 && (x.raw.op == 0x08E || x.raw.op == 0x08F ||
    ((x.raw.op == 0x080 || x.raw.op == 0x081) && x.raw.lit.isSome && (tgtOf x.raw).toInt < 0))

/-- The words that an instruction adds to a clause, and the clause's words with it. -/
def LClause.join (c : LClause) (x : ZItem) : Nat × List LWord :=
  if x.raw.form == 0 then
    match c.words.getLast? with
    | some (.short r) => if pairs r x.raw then (0, c.words.dropLast ++ [.pair r x.raw]) else (1, c.words ++ [.short x.raw])
    | _ => (1, c.words ++ [.short x.raw])
  else (if x.raw.lit.isSome then 2 else 1, c.words ++ [.full x.off x.raw])

/-- The flag an instruction sets. -/
def ZItem.sets (x : ZItem) : Option Nat := if x.raw.flag < 12 then some x.raw.flag else none

/-- Whether an instruction must begin a new clause, `starts` being the offsets of R79(a) and (b). -/
def LClause.breaks (starts : List Nat) (c : LClause) (x : ZItem) : Bool :=
  c.ended || starts.contains x.off || (x.raw.wait != 0 && c.other) ||
    (match x.sets, c.flagA, c.flagB with | some f, some a, some b => f != a && f != b | _, _, _ => false) ||
    31 < c.n + (c.join x).1

/-- A clause with one more instruction. -/
def LClause.add (c : LClause) (x : ZItem) : LClause :=
  let j := c.join x
  let flags : Option Nat × Option Nat := match x.sets, c.flagA, c.flagB with
    | none, a, b => (a, b)
    | some f, none, b => (some f, b)
    | some f, some a, none => if f = a then (some a, none) else (some a, some f)
    | some _, some a, some b => (some a, some b)
  { c with words := j.2, n := c.n + j.1, wait := c.wait ||| x.raw.wait, flagA := flags.1, flagB := flags.2, other := c.other || !quietClass x.raw,
           yield := yields x, ended := markedT x.raw }

/-- A clause with nothing in it. -/
def LClause.open (off : Nat) : LClause :=
  { start := off, words := [], wait := 0, flagA := none, flagB := none, other := false, yield := false, ended := false, n := 0 }

/-- The clauses of a list of instructions, `c` being the one under way. What does not decode gets no words and ends a clause (log 18, DEDUCED). -/
def lowClauses (starts : List Nat) : Option LClause → List ZItem → List LClause
  | c, [] => c.toList
  | c, x :: r =>
      if !x.legal then c.toList ++ lowClauses starts none r
      else match c with
        | none => lowClauses starts (some ((LClause.open x.off).add x)) r
        | some c => if c.breaks starts x then c :: lowClauses starts (some ((LClause.open x.off).add x)) r
                    else lowClauses starts (some (c.add x)) r

/-! ### Native words (R77, R80, R81) -/

/-- Each clause's Zynran offset with its header's native offset. (log 66, DESIGN CHOICE) -/
def targetTable : Nat → List LClause → List (Nat × Nat)
  | _, [] => []
  | o, c :: r => (c.start, o) :: targetTable (o + 8 * (c.n + 1)) r

/-- A displacement of a literal, as the native word at `at_` carries it; a target that begins no clause leaves it alone (log 18,
DEDUCED), and one that 20 bits do not hold wraps (log 70, DESIGN CHOICE). -/
def lowDisp (table : List (Nat × Nat)) (off at_ : Nat) (d : Disp) : Disp :=
  match dispOff off d with
  | [t] => match table.find? (·.1 == t) with
    | some e => BitVec.ofInt 20 (((e.2 : Int) - at_) / 8)
    | none => d
  | _ => d

/-- The literal and c of a full word, its branch targets rewritten (R81), the reconvergence displacement of BRA and BRX among them (log 70,
DESIGN CHOICE). -/
def lowLit (table : List (Nat × Nat)) (off at_ : Nat) (r : Raw) : Nat × Nat :=
  let l := r.lit.getD 0
  if r.lit.isNone then (r.c, 0)
  else match r.op with
    | 0x080 => let t := lowDisp table off at_ (tgtOf r); let q := lowDisp table off at_ (rcOf r); (dispC t q, dispLit t q)
    | 0x081 | 0x083 => let t := lowDisp table off at_ (tgtOf r); (dispC t 0, dispLit t 0)
    | 0x082 => let q := lowDisp table off at_ (rcOf r); (dispC 0 q, dispLit 0 q)
    | _ => (r.c, l)

/-- A full word's bits (R41). -/
def fullBits (op d a b c pred : Nat) (neg : Bool) (ch : Nat) : Nat :=
  op * 2 ^ 52 + d * 2 ^ 44 + a * 2 ^ 36 + b * 2 ^ 28 + c * 2 ^ 20 + pred * 2 ^ 16 + bnat neg * 2 ^ 15 + ch * 2 ^ 13

/-- A pair half's bits (R43). -/
def halfBits (r : Raw) : Nat := r.op * 2 ^ 24 + r.d * 2 ^ 16 + r.a * 2 ^ 8 + (if r.pred = 15 then 7 else r.pred) * 2 ^ 5 + bitsOf r.mods 3 2 * 8

/-- The native words of one word to be. -/
def LWord.bits (table : List (Nat × Nat)) (flagA : Option Nat) (at_ : Nat) : LWord → List Nat
  | .short r => let f := shortFull r; [fullBits (shortOp r.op) f.1 f.2.1 f.2.2.1 f.2.2.2 r.pred r.neg 0]
  | .pair r q => [2 ^ 62 + halfBits r * 2 ^ 31 + halfBits q]
  | .full off r =>
      let ch := if 12 ≤ r.flag then 0 else if flagA == some r.flag then 1 else 2
      let x := lowLit table off at_ r
      fullBits r.op r.d r.a r.b x.1 r.pred r.neg ch :: (if r.lit.isSome then [3 * 2 ^ 62 + x.2] else [])

/-- A clause's words after its header, from a native offset on. -/
def clauseBits (table : List (Nat × Nat)) (flagA : Option Nat) : Nat → List LWord → List Nat
  | _, [] => []
  | o, x :: r => let b := x.bits table flagA o; b ++ clauseBits table flagA (o + 8 * b.length) r

/-- A clause with its header. -/
def LClause.bits (table : List (Nat × Nat)) (o : Nat) (c : LClause) : List Nat :=
  let h : Header := { wait := BitVec.ofNat 12 c.wait, flagA := c.flagA, flagB := c.flagB, len := c.n, yield := c.yield }
  h.word :: clauseBits table c.flagA (o + 8) c.words

/-- The lowering of an image's code: the target table and the native words. A branch that does not decode names its targets all the same
(R79; log 70, DESIGN CHOICE). (log 18, DEDUCED; log 66, DESIGN CHOICE) -/
def lower (e : DecEnv) (illh : Nat) (code : List Byte) : List (Nat × Nat) × List Nat :=
  let items := zItems e code.length 64 (parcelList code.length code)
  let starts := 64 :: illh :: (items.map litTargets).flatten
  let cs := lowClauses starts none items
  let table := targetTable 0 cs
  (table, ((List.zip table cs).map fun p => p.2.bits table p.1.2).flatten)

end Sys2Proof.Machine
end

