-- ==== Sys2Proof/Machine/Translate.lean ====
section
/-! DEFINITION. Ndelet, the Cistern and the Oasis pool: building, finding, verifying and installing translations (20 R381–R387), and the modes of splits at safe points (R381, R382). -/

namespace Sys2Proof.Machine

/-! ### Keys and signatures (R383, R384) -/

/-- K: SHA-512 of FVHASH, FEATV, CODELEN and the code. -/
def cistKey (header code : List Byte) : BitVec 512 :=
  Config.sha512 (leBytes 8 (natAt header 32 8) ++ leBytes 8 Config.featv.toNat ++ leBytes 4 (natAt header 8 4) ++ code)

/-- A target table's bytes (R386). -/
def tableBytes (t : List (Nat × Nat)) : List Byte := (t.map fun x => leBytes 4 x.1 ++ leBytes 4 x.2).flatten

/-- What a signature covers: K, the native image, the target table. -/
def signedBytes (key : BitVec 512) (image : List Byte) (table : List (Nat × Nat)) : List Byte :=
  leBytes 64 key.toNat ++ image ++ tableBytes table

/-- Whether a found translation's signature verifies under a trusted key; the device's own is always on the list, and a signature that it
makes verifies. (log 11, DESIGN CHOICE) -/
def State.trusts (s : State) (e : CistEnt) : Bool :=
  let b := signedBytes e.key e.image e.table
  (e.signer == Config.deviceKey && (e.sig == Config.ecdsaSign 0 b || Config.ecdsaVerify e.signer b e.sig)) ||
    (s.modu.trust.contains e.signer && Config.ecdsaVerify e.signer b e.sig)

/-- Native words of an image's bytes. -/
def imageWords : Nat → List Byte → List DWord
  | 0, _ => []
  | n + 1, b => if b.length < 8 then [] else BitVec.ofNat 64 (natAt b 0 8) :: imageWords n (b.drop 8)

/-! ### TRCTL (R387) -/

def Part.nden (p : Part) : Bool := bitOf p.trctl 0
def Part.oasen (p : Part) : Bool := bitOf p.trctl 1
def Part.cisten (p : Part) : Bool := bitOf p.trctl 2
def Part.nostore (p : Part) : Bool := bitOf p.trctl 3

/-! ### The Cistern (R383, R385) -/

/-- An erase block that has never been erased. -/
def CistBlock.blank : CistBlock := { erases := 0, dead := 0, ents := [] }

/-- How many erase blocks the store has; the first from `i` on, of `n`, other than `not`, that has room for so many bytes. (log 17, DESIGN
CHOICE) -/
def cistBlocks : Nat := Config.cisternBytes / Config.cistBlock
def Module.cistRoom (m : Module) (not : Option Nat) (size : Nat) : Nat → Nat → Option Nat
  | _, 0 => none
  | i, n + 1 =>
      if some i != not && (tget CistBlock.blank m.cistern i).used + size ≤ Config.cistBlock then some i
      else m.cistRoom not size (i + 1) n

/-- The lowest block with room: among those written to so far, and the first that has never been. -/
def Module.cistSpot (m : Module) (not : Option Nat) (size : Nat) : Option Nat :=
  m.cistRoom not size 0 (min cistBlocks ((m.cistern.map (·.1)).foldl max 0 + 2))

/-- An entry is written into a block. -/
def Module.cistPut (m : Module) (i : Nat) (e : CistEnt) : Module :=
  let b := tget CistBlock.blank m.cistern i
  { m with cistern := tput m.cistern i { b with ents := b.ents ++ [e] } }

/-- When the newest entry of a block was last used. -/
def CistBlock.newest (b : CistBlock) : Nat := (b.ents.getLast?.map (·.used)).getD 0

/-- Insert a block by the use of its newest entry. -/
def insBlock (x : Nat × CistBlock) : List (Nat × CistBlock) → List (Nat × CistBlock)
  | [] => [x]
  | y :: r => if x.2.newest < y.2.newest then x :: y :: r else y :: insBlock x r

/-- The block that is to be freed (R385): of the 16 whose newest entry is least recently used, the lowest erase count, the lowest number on
a tie. -/
def Module.cistVictim (m : Module) : Option (Nat × CistBlock) :=
  ((m.cistern.foldl (fun l x => insBlock x l) []).take 16).foldl (fun (a : Option (Nat × CistBlock)) x =>
    match a with
    | none => some x
    | some y => if x.2.erases < y.2.erases || (x.2.erases == y.2.erases && x.1 < y.1) then some x else some y) none

/-- A block is erased: its entries that some partition has used since its last reset are rewritten elsewhere first, or in the block itself where
nothing else has room; the rest are dropped. (log 17, DESIGN CHOICE) -/
def Module.cistFreeBlock (m : Module) (x : Nat × CistBlock) : Module :=
  (x.2.ents.filter fun e => !e.by_.isEmpty).foldl (fun (m : Module) e => m.cistPut ((m.cistSpot (some x.1) e.bytes).getD x.1) e)
    { m with cistern := tput m.cistern x.1 { erases := x.2.erases + 1, dead := 0, ents := [] } }

/-- An entry is written; a block is freed where none has room. An entry that no block can hold, or for which the freed block has no room, is
not kept. (log 17, DESIGN CHOICE) -/
def Module.cistStore (m : Module) (e : CistEnt) : Module :=
  match m.cistSpot none e.bytes with
  | some i => m.cistPut i e
  | none => match m.cistVictim with
    | none => m
    | some x =>
      let m1 := m.cistFreeBlock x
      match m1.cistSpot none e.bytes with
      | some i => m1.cistPut i e
      | none => m1

/-- The entries of the store. -/
def Module.cistEnts (m : Module) : List CistEnt := (m.cistern.map (·.2.ents)).flatten

/-- An entry is used for a partition. -/
def Module.cistTouch (m : Module) (p : Nat) (e : CistEnt) : Module :=
  { m with cistUse := m.cistUse + 1,
           cistern := tmap (fun _ b => { b with ents := b.ents.map fun x => if x == e then { x with used := m.cistUse + 1, by_ := sins x.by_ p } else x }) m.cistern }

/-- An entry that failed its verification is discarded (R384). -/
def Module.cistDiscard (m : Module) (e : CistEnt) : Module :=
  let same (x : CistEnt) : Bool := x.key == e.key && x.signer == e.signer && x.sig == e.sig && x.image == e.image && x.table == e.table
  { m with cistern := tmap (fun _ b =>
      { b with dead := b.dead + ((b.ents.filter same).map CistEnt.bytes).foldl (· + ·) 0, ents := b.ents.filter (!same ·) }) m.cistern }

/-- A translation goes to the Cistern unless NOSTORE is set or the Cistern is kept unused. (log 17, DESIGN CHOICE; log 66, DESIGN CHOICE) -/
def State.cistKeep (s : State) (p : Nat) (e : CistEnt) : State :=
  if (s.part p).nostore || !(s.part p).cisten then s
  else { s with modu := { (s.modu.cistStore { e with used := s.modu.cistUse + 1, by_ := [p] }) with cistUse := s.modu.cistUse + 1 } }

/-! ### The Oasis pool (R386) -/

/-- Bytes of a record's fixed part. -/
def oasisHead : Nat := 0x180

/-- The bytes a record takes: whole 128-byte lines. -/
def oasisLen (nlen tlen : Nat) : Nat := roundUp (oasisHead + nlen + 8 * tlen) 128

/-- Lines of the pool, read at SYSTEM scope through the partition's supervisor table; none where an access fails or a line is marked. -/
def State.poolRead (s : State) (p : Nat) (off : Nat) : Nat → Option (List Byte)
  | 0 => some []
  | n + 1 =>
      let ea := s.part p |>.oasbase
      match effAddr ea (off : Int) with
      | .error _ => none
      | .ok a => match s.checkAccess (unitWho p 0 true) { right := 0, kinds := [4], size := 128, align := 128, write := false } 0 a with
        | .error _ => none
        | .ok x =>
            if (List.range 128).any fun i => s.homeMark (x.paAt i) then none
            else (s.poolRead p (off + 128) n).map fun r => ((List.range 128).map fun i => s.homeByte (x.paAt i)) ++ r

/-- The pool's record at an offset: its length and contents; none past the last record. Records stand one after another from OASBASE on; one
with NLEN 0 ends them (log 17, DESIGN CHOICE). -/
def State.poolRecord (s : State) (p off : Nat) : Option (Nat × CistEnt) :=
  match s.poolRead p off 3 with
  | none => none
  | some h =>
    let nlen := natAt h 0x48 4
    let tlen := natAt h 0x4C 4
    if nlen = 0 || nlen % 8 != 0 then none
    else match s.poolRead p off (oasisLen nlen tlen / 128) with
      | none => none
      | some b =>
        let pairAt (i : Nat) : Nat × Nat := (natAt b (oasisHead + nlen + 8 * i) 4, natAt b (oasisHead + nlen + 8 * i + 4) 4)
        some (oasisLen nlen tlen,
          { key := BitVec.ofNat 512 (natAt b 0 64), featv := BitVec.ofNat 64 (natAt b 0x40 8), signer := BitVec.ofNat 512 (natAt b 0x50 64),
            sig := BitVec.ofNat 1056 (leNat ((b.drop 0x90).take 132).reverse), image := (b.drop oasisHead).take nlen,
            table := (List.range tlen).map pairAt, used := 0, by_ := [] })

/-- Search the pool for a key, `n` records at most: the record, or the offset where the next one is written. (log 17, DESIGN CHOICE) -/
def State.poolFind (s : State) (p : Nat) (key : BitVec 512) (off : Nat) : Nat → Except Nat CistEnt
  | 0 => .error off
  | n + 1 => match s.poolRecord p off with
    | none => .error off
    | some (k, e) => if e.key == key then .ok e else s.poolFind p key (off + k) n

/-- The end of the records of a pool, `n` at most. (log 17, DESIGN CHOICE) -/
def State.poolEnd (s : State) (p off : Nat) : Nat → Nat
  | 0 => off
  | n + 1 => match s.poolRecord p off with
    | none => off
    | some (k, _) => s.poolEnd p (off + k) n

/-- The records a pool may hold: one of 44-bit offsets takes at least four lines; the search goes by the number of bytes listed. -/
def State.poolFuel (s : State) : Nat := s.mem.length + 1

/-- A record's bytes. -/
def CistEnt.record (e : CistEnt) : List Byte :=
  let head := leBytes 64 e.key.toNat ++ leBytes 8 e.featv.toNat ++ leBytes 4 e.image.length ++ leBytes 4 e.table.length ++
    leBytes 64 e.signer.toNat ++ (leBytes 132 e.sig.toNat).reverse ++ List.replicate 108 0
  let body := head ++ e.image ++ tableBytes e.table
  body ++ List.replicate (oasisLen e.image.length e.table.length - body.length) 0

/-- Whole lines are written to the pool, each by one access; a line that may not be written ends it. -/
def State.poolLines (s : State) (p off : Nat) : Nat → List Byte → State
  | 0, _ => s
  | n + 1, b =>
      if b.isEmpty then s
      else match effAddr (s.part p).oasbase (off : Int) with
        | .error _ => s
        | .ok a => match s.checkAccess (unitWho p 0 true) { right := 1, kinds := [4], size := 128, align := 128, write := true } 0 a with
          | .error _ => s
          | .ok x => (s.agentPut x (b.take 128)).poolLines p (off + 128) n (b.drop 128)

/-- A built translation is written behind the last record of the pool. (log 17, DESIGN CHOICE) -/
def State.poolStore (s : State) (p : Nat) (e : CistEnt) : State :=
  s.poolLines p (s.poolEnd p 0 s.poolFuel) (e.record.length / 128) e.record

/-! ### Building and installing (R381–R387) -/

/-- Whether a split may still run a withdrawn translation. -/
def State.transUsed (s : State) (p : Nat) (t : Translation) : Bool :=
  s.waves.any fun w => partOfKey w.1 == p && w.2.codesel == t.sel && w.2.splits.any (·.2.trans)

/-- A translation becomes the image's own; a withdrawn one is kept until no split can be in it. (log 66, DESIGN CHOICE) -/
def State.installTrans (s : State) (p ctx sel off len : Nat) (e : CistEnt) : State :=
  let t : Translation := { ctx := ctx, sel := sel, off := off, len := len, key := e.key, table := e.table, words := imageWords e.image.length e.image,
                            gone := false }
  s.modPart p fun x => { x with trans := x.trans.filter (fun y =>
    if y.gone then s.transUsed p y else !(y.ctx == ctx && y.sel == sel && y.off == off)) ++ [t] }

/-- What the decode of an image depends on, at either level and in or out of a handler. -/
def kernelEnv (k : Kernel) : DecEnv := { vregs := k.vregs, sregs := k.sregs, ztiles := k.ztiles, sup := true, c16 := k.c16, inTrap := true }

/-- Ndelet builds a translation from an image's header and code, signed with the device key. (log 66, DESIGN CHOICE) -/
def buildTrans (k : Kernel) (header code : List Byte) : CistEnt :=
  let r := lower (kernelEnv k) k.illh code
  let image := (r.2.map (leBytes 8)).flatten
  let key := cistKey header code
  { key := key, featv := Config.featv, signer := Config.deviceKey, sig := Config.ecdsaSign 0 (signedBytes key image r.1), image := image, table := r.1,
    used := 0, by_ := [] }

/-- Ndelet builds a translation, if TRCTL lets it; it goes to the Cistern and the pool, and is verified like any other before it is installed
(R384). (log 66, DESIGN CHOICE) -/
def State.buildFor (s : State) (p ctx sel off : Nat) (k : Kernel) (header code : List Byte) : State :=
  if !(s.part p).nden then s
  else
    let e := buildTrans k header code
    let s1 := (s.modPart p fun x =>
      { x with trbuilt := (x.trbuilt + 1) % 2 ^ 32,
               found := x.found ++ [{ ctx := ctx, sel := sel, off := off, len := k.codelen, ent := e, oasis := false }] }).cistKeep p e
    if (s.part p).oasen then s1.poolStore p e else s1

/-- A lookup of an image: the Cistern, then the pool, else Ndelet builds it. -/
def State.seekTrans (s : State) (p ctx sel off : Nat) (k : Kernel) (header code : List Byte) : State :=
  let x := s.part p
  let key := cistKey header code
  let find (e : CistEnt) (oasis : Bool) : Found := { ctx := ctx, sel := sel, off := off, len := k.codelen, ent := e, oasis := oasis }
  let cist := if x.cisten then s.modu.cistEnts.find? (·.key == key) else none
  let pool := if x.oasen then (match s.poolFind p key 0 s.poolFuel with | .ok e => some e | .error _ => none) else none
  match cist, pool with
  | some e, _ =>
      { (s.putPart p { x with trhitc := (x.trhitc + 1) % 2 ^ 32, found := x.found ++ [find e false] }) with modu := s.modu.cistTouch p e }
  | none, some e => s.putPart p { x with trhito := (x.trhito + 1) % 2 ^ 32, found := x.found ++ [find e true] }
  | none, none => s.buildFor p ctx sel off k header code

/-- An image that may be translated: its kernel, its header, its code. A native kernel is never translated. (log 66, DESIGN CHOICE) -/
def State.imageOf (s : State) (part ctx sel off : Nat) : Option (Kernel × List Byte × List Byte) :=
  let sup := ctx == supKey
  if sup != bitOf sel 19 then none
  else match s.imageBytes part ctx sup sel off 64 with
    | none => none
    | some (h, room) =>
      let k := kernelOf h sel off
      if badHeader h room || k.native || k.codelen = 0 then none
      else (s.imageBytes part ctx sup sel (off + 64) k.codelen).map fun c => (k, h, c.1)

/-- TRANSLATION_BUILD: the image at offset `off` of a selector of a context (4096 for the supervisor table) is looked up, or built. (log 66,
DESIGN CHOICE) -/
def execTranslationBuild (part ctx sel off : Nat) (s : State) : Out :=
  let x := s.part part
  let known := x.trans.any (fun t => !t.gone && t.ctx == ctx && t.sel == sel && t.off == off) ||
    x.found.any (fun t => t.ctx == ctx && t.sel == sel && t.off == off)
  if known || !x.running then .next s
  else match s.imageOf part ctx sel off with
    | none => .next s
    | some (k, h, code) => .next (s.seekTrans part ctx sel off k h code)

/-- TRANSLATION_INSTALL: a found translation is verified, then installed, and kept in the Cistern if it came from the pool; one that fails is
discarded and counted, and Ndelet builds the image's translation. (log 66, DESIGN CHOICE) -/
def execTranslationInstall (part i : Nat) (s : State) : Out :=
  match (s.part part).found[i]? with
  | none => .next s
  | some f =>
    let s1 := s.modPart part fun x => { x with found := ldel x.found i }
    if !s.trusts f.ent then
      let s2 := s1.modPart part fun x => { x with trrej := (x.trrej + 1) % 2 ^ 32 }
      let s3 := if f.oasis then s2 else { s2 with modu := s2.modu.cistDiscard f.ent }
      .next (match s3.imageOf part f.ctx f.sel f.off with
        | some (k, h, code) => s3.buildFor part f.ctx f.sel f.off k h code
        | none => s3)
    else
      let s2 := s1.installTrans part f.ctx f.sel f.off f.len f.ent
      .next (if f.oasis then s2.cistKeep part f.ent else s2)

end Sys2Proof.Machine
end

