-- ==== Sys2Proof/Machine/Dispatch.lean ====
section
/-! DEFINITION. The dispatcher: one arm for each constructor of Instr. -/

namespace Sys2Proof.Machine

/-- The meaning of an instruction or of one step of another agent. -/
def exec (i : Instr) (s : State) : Host.Outcome State Fault Refusal :=
  match i with
  | .trapz => Sys2Proof.Machine.execTrapz s
  | .trapzZ32 => Sys2Proof.Machine.execTrapzZ32 s
  | .iadd o => Sys2Proof.Machine.execIadd o s
  | .iaddZ32 o => Sys2Proof.Machine.execIaddZ32 o s
  | .isub o => Sys2Proof.Machine.execIsub o s
  | .isubZ32 o => Sys2Proof.Machine.execIsubZ32 o s
  | .iadc o => Sys2Proof.Machine.execIadc o s
  | .imul o => Sys2Proof.Machine.execImul o s
  | .imulZ32 o => Sys2Proof.Machine.execImulZ32 o s
  | .imulh o => Sys2Proof.Machine.execImulh o s
  | .imad o => Sys2Proof.Machine.execImad o s
  | .imadD o => Sys2Proof.Machine.execImadD o s
  | .iabs o => Sys2Proof.Machine.execIabs o s
  | .iabsZ32 o => Sys2Proof.Machine.execIabsZ32 o s
  | .ineg o => Sys2Proof.Machine.execIneg o s
  | .inegZ32 o => Sys2Proof.Machine.execInegZ32 o s
  | .imin o => Sys2Proof.Machine.execImin o s
  | .iminZ32 o => Sys2Proof.Machine.execIminZ32 o s
  | .imax o => Sys2Proof.Machine.execImax o s
  | .imaxZ32 o => Sys2Proof.Machine.execImaxZ32 o s
  | .nmin o => Sys2Proof.Machine.execNmin o s
  | .nminZ32 o => Sys2Proof.Machine.execNminZ32 o s
  | .nmax o => Sys2Proof.Machine.execNmax o s
  | .nmaxZ32 o => Sys2Proof.Machine.execNmaxZ32 o s
  | .andB o => Sys2Proof.Machine.execAndB o s
  | .andZ32 o => Sys2Proof.Machine.execAndZ32 o s
  | .orB o => Sys2Proof.Machine.execOrB o s
  | .orZ32 o => Sys2Proof.Machine.execOrZ32 o s
  | .xorB o => Sys2Proof.Machine.execXorB o s
  | .xorZ32 o => Sys2Proof.Machine.execXorZ32 o s
  | .notB o => Sys2Proof.Machine.execNotB o s
  | .notZ32 o => Sys2Proof.Machine.execNotZ32 o s
  | .andn o => Sys2Proof.Machine.execAndn o s
  | .andnZ32 o => Sys2Proof.Machine.execAndnZ32 o s
  | .shl o => Sys2Proof.Machine.execShl o s
  | .shlZ32 o => Sys2Proof.Machine.execShlZ32 o s
  | .shr o => Sys2Proof.Machine.execShr o s
  | .shrZ32 o => Sys2Proof.Machine.execShrZ32 o s
  | .sar o => Sys2Proof.Machine.execSar o s
  | .sarZ32 o => Sys2Proof.Machine.execSarZ32 o s
  | .rotl o => Sys2Proof.Machine.execRotl o s
  | .rotlZ32 o => Sys2Proof.Machine.execRotlZ32 o s
  | .bfx o => Sys2Proof.Machine.execBfx o s
  | .bfi o => Sys2Proof.Machine.execBfi o s
  | .popc o => Sys2Proof.Machine.execPopc o s
  | .popcZ32 o => Sys2Proof.Machine.execPopcZ32 o s
  | .clz o => Sys2Proof.Machine.execClz o s
  | .clzZ32 o => Sys2Proof.Machine.execClzZ32 o s
  | .brev o => Sys2Proof.Machine.execBrev o s
  | .brevZ32 o => Sys2Proof.Machine.execBrevZ32 o s
  | .icmp o => Sys2Proof.Machine.execIcmp o s
  | .sel o => Sys2Proof.Machine.execSel o s
  | .mov o => Sys2Proof.Machine.execMov o s
  | .movZ32 o => Sys2Proof.Machine.execMovZ32 o s
  | .movl o => Sys2Proof.Machine.execMovl o s
  | .prmt o => Sys2Proof.Machine.execPrmt o s
  | .sega o => Sys2Proof.Machine.execSega o s
  | .padd o => Sys2Proof.Machine.execPadd o s
  | .pseg o => Sys2Proof.Machine.execPseg o s
  | .poff o => Sys2Proof.Machine.execPoff o s
  | .fadd o => Sys2Proof.Machine.execFadd o s
  | .faddZ32 o => Sys2Proof.Machine.execFaddZ32 o s
  | .fsub o => Sys2Proof.Machine.execFsub o s
  | .fsubZ32 o => Sys2Proof.Machine.execFsubZ32 o s
  | .fmul o => Sys2Proof.Machine.execFmul o s
  | .fmulZ32 o => Sys2Proof.Machine.execFmulZ32 o s
  | .ffma o => Sys2Proof.Machine.execFfma o s
  | .ffmaD o => Sys2Proof.Machine.execFfmaD o s
  | .fmin o => Sys2Proof.Machine.execFmin o s
  | .fminZ32 o => Sys2Proof.Machine.execFminZ32 o s
  | .fmax o => Sys2Proof.Machine.execFmax o s
  | .fmaxZ32 o => Sys2Proof.Machine.execFmaxZ32 o s
  | .fcmp o => Sys2Proof.Machine.execFcmp o s
  | .fclass o => Sys2Proof.Machine.execFclass o s
  | .fdiv o => Sys2Proof.Machine.execFdiv o s
  | .fsqrt o => Sys2Proof.Machine.execFsqrt o s
  | .fsqrtZ32 o => Sys2Proof.Machine.execFsqrtZ32 o s
  | .frcp o => Sys2Proof.Machine.execFrcp o s
  | .frcpZ32 o => Sys2Proof.Machine.execFrcpZ32 o s
  | .frsq o => Sys2Proof.Machine.execFrsq o s
  | .frsqZ32 o => Sys2Proof.Machine.execFrsqZ32 o s
  | .fexp2 o => Sys2Proof.Machine.execFexp2 o s
  | .fexp2Z32 o => Sys2Proof.Machine.execFexp2Z32 o s
  | .flog2 o => Sys2Proof.Machine.execFlog2 o s
  | .flog2Z32 o => Sys2Proof.Machine.execFlog2Z32 o s
  | .fsin o => Sys2Proof.Machine.execFsin o s
  | .fsinZ32 o => Sys2Proof.Machine.execFsinZ32 o s
  | .fcos o => Sys2Proof.Machine.execFcos o s
  | .fcosZ32 o => Sys2Proof.Machine.execFcosZ32 o s
  | .ftanh o => Sys2Proof.Machine.execFtanh o s
  | .ftanhZ32 o => Sys2Proof.Machine.execFtanhZ32 o s
  | .hadd2 o => Sys2Proof.Machine.execHadd2 o s
  | .hadd2Z32 o => Sys2Proof.Machine.execHadd2Z32 o s
  | .hmul2 o => Sys2Proof.Machine.execHmul2 o s
  | .hmul2Z32 o => Sys2Proof.Machine.execHmul2Z32 o s
  | .hfma2 o => Sys2Proof.Machine.execHfma2 o s
  | .hfma2D o => Sys2Proof.Machine.execHfma2D o s
  | .f2i o => Sys2Proof.Machine.execF2i o s
  | .f2iZ32 o => Sys2Proof.Machine.execF2iZ32 o s
  | .i2f o => Sys2Proof.Machine.execI2f o s
  | .i2fZ32 o => Sys2Proof.Machine.execI2fZ32 o s
  | .fcvt o => Sys2Proof.Machine.execFcvt o s
  | .fpk o => Sys2Proof.Machine.execFpk o s
  | .fupk o => Sys2Proof.Machine.execFupk o s
  | .qnt o => Sys2Proof.Machine.execQnt o s
  | .dqnt o => Sys2Proof.Machine.execDqnt o s
  | .plop o => Sys2Proof.Machine.execPlop o s
  | .shfl o => Sys2Proof.Machine.execShfl o s
  | .vred o => Sys2Proof.Machine.execVred o s
  | .vscan o => Sys2Proof.Machine.execVscan o s
  | .vote o => Sys2Proof.Machine.execVote o s
  | .ballot o => Sys2Proof.Machine.execBallot o s
  | .elect c d => Sys2Proof.Machine.execElect c d s
  | .matchOp o => Sys2Proof.Machine.execMatchOp o s
  | .bra o => Sys2Proof.Machine.execBra o s
  | .brau o => Sys2Proof.Machine.execBrau o s
  | .brauReg o => Sys2Proof.Machine.execBrauReg o s
  | .brx o => Sys2Proof.Machine.execBrx o s
  | .call o => Sys2Proof.Machine.execCall o s
  | .callx o => Sys2Proof.Machine.execCallx o s
  | .ret o => Sys2Proof.Machine.execRet o s
  | .exit c => Sys2Proof.Machine.execExit c s
  | .endOp c => Sys2Proof.Machine.execEndOp c s
  | .emrd c d lanes => Sys2Proof.Machine.execEmrd c d lanes s
  | .emwr c a op => Sys2Proof.Machine.execEmwr c a op s
  | .waitf c a limit => Sys2Proof.Machine.execWaitf c a limit s
  | .bar c n => Sys2Proof.Machine.execBar c n s
  | .bara c n => Sys2Proof.Machine.execBara c n s
  | .barw c n => Sys2Proof.Machine.execBarw c n s
  | .yield c => Sys2Proof.Machine.execYield c s
  | .sleep c a => Sys2Proof.Machine.execSleep c a s
  | .nop c => Sys2Proof.Machine.execNop c s
  | .nopZ32 pred neg => Sys2Proof.Machine.execNopZ32 pred neg s
  | .launch o => Sys2Proof.Machine.execLaunch o s
  | .gset c slot v => Sys2Proof.Machine.execGset c slot v s
  | .trap c num => Sys2Proof.Machine.execTrap c num s
  | .eret c => Sys2Proof.Machine.execEret c s
  | .sysr o => Sys2Proof.Machine.execSysr o s
  | .sysw o => Sys2Proof.Machine.execSysw o s
  | .bkpt c num => Sys2Proof.Machine.execBkpt c num s
  | .protld o => Sys2Proof.Machine.execProtld o s
  | .protsel o => Sys2Proof.Machine.execProtsel o s
  | .ltadv o => Sys2Proof.Machine.execLtadv o s
  | .btcopy o => Sys2Proof.Machine.execBtcopy o s
  | .btlin o => Sys2Proof.Machine.execBtlin o s
  | .btgath o => Sys2Proof.Machine.execBtgath o s
  | .btclose o => Sys2Proof.Machine.execBtclose o s
  | .btwait o => Sys2Proof.Machine.execBtwait o s
  | .btring o => Sys2Proof.Machine.execBtring o s
  | .lnk o => Sys2Proof.Machine.execLnk o s
  | .calll o => Sys2Proof.Machine.execCalll o s
  | .bind o => Sys2Proof.Machine.execBind o s
  | .bindFail o => Sys2Proof.Machine.execBindFail o s
  | .unbind o => Sys2Proof.Machine.execUnbind o s
  | .segld o => Sys2Proof.Machine.execSegld o s
  | .segupd o => Sys2Proof.Machine.execSegupd o s
  | .segchk o => Sys2Proof.Machine.execSegchk o s
  | .shoot o => Sys2Proof.Machine.execShoot o s
  | .shootw c => Sys2Proof.Machine.execShootw c s
  | .icinv o => Sys2Proof.Machine.execIcinv o s
  | .splitrd o => Sys2Proof.Machine.execSplitrd o s
  | .splitwr o => Sys2Proof.Machine.execSplitwr o s
  | .flagwrSet c k a => Sys2Proof.Machine.execFlagwrSet c k a s
  | .flagwrSave c => Sys2Proof.Machine.execFlagwrSave c s
  | .crbegin o => Sys2Proof.Machine.execCrbegin o s
  | .crend c => Sys2Proof.Machine.execCrend c s
  | .capq o => Sys2Proof.Machine.execCapq o s
  | .sigrd c d => Sys2Proof.Machine.execSigrd c d s
  | .psnw o => Sys2Proof.Machine.execPsnw o s
  | .mma o => Sys2Proof.Machine.execMma o s
  | .mmas o => Sys2Proof.Machine.execMmas o s
  | .mmat o => Sys2Proof.Machine.execMmat o s
  | .zclr o => Sys2Proof.Machine.execZclr o s
  | .zld o => Sys2Proof.Machine.execZld o s
  | .zst o => Sys2Proof.Machine.execZst o s
  | .zmov o => Sys2Proof.Machine.execZmov o s
  | .zadd o => Sys2Proof.Machine.execZadd o s
  | .epi o => Sys2Proof.Machine.execEpi o s
  | .actld o => Sys2Proof.Machine.execActld o s
  | .ohdl o => Sys2Proof.Machine.execOhdl o s
  | .spfence o => Sys2Proof.Machine.execSpfence o s
  | .ld o => Sys2Proof.Machine.execLd o s
  | .st o => Sys2Proof.Machine.execSt o s
  | .atom o => Sys2Proof.Machine.execAtom o s
  | .atomB64 o => Sys2Proof.Machine.execAtomB64 o s
  | .atomcas o => Sys2Proof.Machine.execAtomcas o s
  | .atomcasSp o => Sys2Proof.Machine.execAtomcasSp o s
  | .atomdp o => Sys2Proof.Machine.execAtomdp o s
  | .fatom o => Sys2Proof.Machine.execFatom o s
  | .red o => Sys2Proof.Machine.execRed o s
  | .redB64 o => Sys2Proof.Machine.execRedB64 o s
  | .ldsp o => Sys2Proof.Machine.execLdsp o s
  | .ldspZ32 o => Sys2Proof.Machine.execLdspZ32 o s
  | .stsp o => Sys2Proof.Machine.execStsp o s
  | .stspZ32 o => Sys2Proof.Machine.execStspZ32 o s
  | .ldspPi o => Sys2Proof.Machine.execLdspPi o s
  | .stspPi o => Sys2Proof.Machine.execStspPi o s
  | .braDec o => Sys2Proof.Machine.execBraDec o s
  | .braDecReg o => Sys2Proof.Machine.execBraDecReg o s
  | .ldq o => Sys2Proof.Machine.execLdq o s
  | .stq o => Sys2Proof.Machine.execStq o s
  | .acq o => Sys2Proof.Machine.execAcq o s
  | .acqt o => Sys2Proof.Machine.execAcqt o s
  | .rel o => Sys2Proof.Machine.execRel o s
  | .fence c kind scope => Sys2Proof.Machine.execFence c kind scope s
  | .pub c scope => Sys2Proof.Machine.execPub c scope s
  | .waitv o => Sys2Proof.Machine.execWaitv o s
  | .wake o => Sys2Proof.Machine.execWake o s
  | .pref o => Sys2Proof.Machine.execPref o s
  | .rinv o => Sys2Proof.Machine.execRinv o s
  | .rinvWb o => Sys2Proof.Machine.execRinvWb o s
  | .rflush o => Sys2Proof.Machine.execRflush o s
  | .bankcfg c a => Sys2Proof.Machine.execBankcfg c a s
  | .ltimeWrite o => Sys2Proof.Machine.execLtimeWrite o s
  | .fdpendClear o => Sys2Proof.Machine.execFdpendClear o s
  | .instructionFetch w e => Sys2Proof.Machine.execInstructionFetch w e s
  | .clauseHeader h => Sys2Proof.Machine.execClauseHeader h s
  | .trapEntry w e t => Sys2Proof.Machine.execTrapEntry w e t s
  | .splitArrival w e => Sys2Proof.Machine.execSplitArrival w e s
  | .stallEvent w => Sys2Proof.Machine.execStallEvent w s
  | .sleepDeadline w e => Sys2Proof.Machine.execSleepDeadline w e s
  | .storeBufferDrain w n => Sys2Proof.Machine.execStoreBufferDrain w n s
  | .publishBufferDrain k n => Sys2Proof.Machine.execPublishBufferDrain k n s
  | .homeApply line => Sys2Proof.Machine.execHomeApply line s
  | .copyDrop k line => Sys2Proof.Machine.execCopyDrop k line s
  | .loadDataReturn w n => Sys2Proof.Machine.execLoadDataReturn w n s
  | .atomicApply w n => Sys2Proof.Machine.execAtomicApply w n s
  | .cairnGrant cairn => Sys2Proof.Machine.execCairnGrant cairn s
  | .cairnRelease cairn => Sys2Proof.Machine.execCairnRelease cairn s
  | .waitvTimeout w e => Sys2Proof.Machine.execWaitvTimeout w e s
  | .monitorEviction w e => Sys2Proof.Machine.execMonitorEviction w e s
  | .spuriousWake w e => Sys2Proof.Machine.execSpuriousWake w e s
  | .queueService k bank => Sys2Proof.Machine.execQueueService k bank s
  | .bankLineHandle k bank line => Sys2Proof.Machine.execBankLineHandle k bank line s
  | .rangeLineStep w n line => Sys2Proof.Machine.execRangeLineStep w n line s
  | .gets k line => Sys2Proof.Machine.execGets k line s
  | .getx k line => Sys2Proof.Machine.execGetx k line s
  | .putw k line => Sys2Proof.Machine.execPutw k line s
  | .homeAtom k line => Sys2Proof.Machine.execHomeAtom k line s
  | .readReq k line => Sys2Proof.Machine.execReadReq k line s
  | .evict k line => Sys2Proof.Machine.execEvict k line s
  | .wback k line => Sys2Proof.Machine.execWback k line s
  | .fpub k cairn => Sys2Proof.Machine.execFpub k cairn s
  | .flush line => Sys2Proof.Machine.execFlush line s
  | .neut line => Sys2Proof.Machine.execNeut line s
  | .disc line => Sys2Proof.Machine.execDisc line s
  | .part core line => Sys2Proof.Machine.execPart core line s
  | .fillReply k => Sys2Proof.Machine.execFillReply k s
  | .invalidation k => Sys2Proof.Machine.execInvalidation k s
  | .recall k line keep => Sys2Proof.Machine.execRecall k line keep s
  | .push k => Sys2Proof.Machine.execPush k s
  | .ltimeTick core => Sys2Proof.Machine.execLtimeTick core s
  | .protocolInstall part => Sys2Proof.Machine.execProtocolInstall part s
  | .pageWalk k ctx linear => Sys2Proof.Machine.execPageWalk k ctx linear s
  | .shootdown k => Sys2Proof.Machine.execShootdown k s
  | .pinRelease part => Sys2Proof.Machine.execPinRelease part s
  | .parkedWake w e => Sys2Proof.Machine.execParkedWake w e s
  | .engineCommandRun w q => Sys2Proof.Machine.execEngineCommandRun w q s
  | .engineCommandComplete w q => Sys2Proof.Machine.execEngineCommandComplete w q s
  | .activationInstall core bank => Sys2Proof.Machine.execActivationInstall core bank s
  | .copyStart w => Sys2Proof.Machine.execCopyStart w s
  | .copyComplete k n => Sys2Proof.Machine.execCopyComplete k n s
  | .takeBlock part => Sys2Proof.Machine.execTakeBlock part s
  | .predecessorsDone part n => Sys2Proof.Machine.execPredecessorsDone part n s
  | .teamAdmission part => Sys2Proof.Machine.execTeamAdmission part s
  | .saveEntry w => Sys2Proof.Machine.execSaveEntry w s
  | .restoreEntry w => Sys2Proof.Machine.execRestoreEntry w s
  | .waveRetirement w => Sys2Proof.Machine.execWaveRetirement w s
  | .gridCompletion part n => Sys2Proof.Machine.execGridCompletion part n s
  | .teamUnwind w => Sys2Proof.Machine.execTeamUnwind w s
  | .correctedError u => Sys2Proof.Machine.execCorrectedError u s
  | .uncorrectableError u sector => Sys2Proof.Machine.execUncorrectableError u sector s
  | .ceWindowExpiry part => Sys2Proof.Machine.execCeWindowExpiry part s
  | .lineEvacuation u => Sys2Proof.Machine.execLineEvacuation u s
  | .auditReplay part => Sys2Proof.Machine.execAuditReplay part s
  | .auditCompare part => Sys2Proof.Machine.execAuditCompare part s
  | .audit w => Sys2Proof.Machine.execAudit w s
  | .partitionTeardown part => Sys2Proof.Machine.execPartitionTeardown part s
  | .start p => Sys2Proof.Machine.execStart p s
  | .stop part force reserved => Sys2Proof.Machine.execStop part force reserved s
  | .setState b0 b1 => Sys2Proof.Machine.execSetState b0 b1 s
  | .setTrustList auth keys => Sys2Proof.Machine.execSetTrustList auth keys s
  | .getCertificate => Sys2Proof.Machine.execGetCertificate s
  | .challenge nonce => Sys2Proof.Machine.execChallenge nonce s
  | .getMeasurements index nonce => Sys2Proof.Machine.execGetMeasurements index nonce s
  | .firmwareUpdate image => Sys2Proof.Machine.execFirmwareUpdate image s
  | .thermalClamp die celsius => Sys2Proof.Machine.execThermalClamp die celsius s
  | .hostMemAccess a => Sys2Proof.Machine.execHostMemAccess a s
  | .hostSnoop a => Sys2Proof.Machine.execHostSnoop a s
  | .peerAccess peer a => Sys2Proof.Machine.execPeerAccess peer a s
  | .linkRefusal w n => Sys2Proof.Machine.execLinkRefusal w n s
  | .resetRefusal a => Sys2Proof.Machine.execResetRefusal a s
  | .translationBuild part ctx sel off => Sys2Proof.Machine.execTranslationBuild part ctx sel off s
  | .translationInstall part n => Sys2Proof.Machine.execTranslationInstall part n s
  | .moduleReset => Sys2Proof.Machine.execModuleReset s

end Sys2Proof.Machine
end

