-- ==== Sys2Proof/Machine/Issue.lean ====
section
/-! DEFINITION. Issuing one instruction of a split (02 R44–R50, 07 R169, 08 R198), the scheduler that runs when the agenda names nobody (log 1). -/

namespace Sys2Proof.Machine

/-- Nothing is executing. (log 4, DESIGN CHOICE) -/
def State.idle (s : State) : State := { s with cur := none }

/-- After an instruction, nothing is executing. -/
def settle (o : Out) : Out :=
  match o with
  | .next s => .next s.idle
  | .fault f => .fault f
  | .refused r => .refused r

/-- Whether the executing instruction trapped. -/
def State.didTrap (s : State) : Bool := match s.cur with | some c => c.trapped | none => false

/-- Whether an instruction may not issue yet: a flag of its own wait mask is not zero (R49), its set-flag stands at 63
(R47), a register it names awaits a result (R48), or an older atomic has not taken effect (09 R207). A split that already waits in the instruction has issued it; TRAPZ
waits for nothing (R56). -/
def Wave.held (w : Wave) (x : Split) (i : Instr) (r : Raw) : Bool :=
  x.wait.isNone && r.op != 0 &&
    ((r.form == 1 && !w.waitOk (BitVec.ofNat 12 r.wait)) || w.flagFull (if r.flag < 12 then some r.flag else none) || w.scoreHeld i ||
      (w.atomsLeft && i.memOp))

/-- Execute the instruction at a split's place. (log 4, DESIGN CHOICE) -/
def State.execAt (s : State) (c : Cur) (i : Instr) : Out := settle (exec i { s with cur := some c })

/-- Half 1 of a pair, reading what half 0 read; a trap of it leaves half 0 without effect too (R44). -/
def State.execSecond (s0 t : State) (c : Cur) (w : Wave) (j : Instr) (q : Raw) : Out :=
  match exec j { t with cur := some { c with raw := q, snap := some w } } with
  | .next t1 => if t1.didTrap then settle (exec j { s0 with cur := some { c with raw := q } }) else .next t1.idle
  | o => o

/-- A pair word: both halves, or neither (R44). (log 4, DESIGN CHOICE) -/
def State.execPair (s : State) (c : Cur) (w : Wave) (i j : Instr) (r q : Raw) : Out :=
  match exec i { s with cur := some { c with raw := r, next := c.base, nextw := c.widx } } with
  | .next t => if t.didTrap then .next t.idle else s.execSecond t c w j q
  | o => o

/-! ### The modes of splits (20 R381, R382) -/

/-- What a step of a split whose partition has no translation leaves alone. -/
def Out.onNext (o : Out) (f : State → State) : Out :=
  match o with
  | .next s => .next (f s)
  | .fault x => .fault x
  | .refused r => .refused r

/-- The branches at whose targets a split may switch. -/
def isBranch (i : Instr) : Bool := match i with | .bra _ | .brau _ | .brauReg _ | .brx _ => true | _ => false
def isEretInstr (i : Instr) : Bool := match i with | .eret _ => true | _ => false

/-- The modes after an instruction at `base` whose successor is `next`: splits leave translated code or, after a backward branch, may enter it. -/
def State.modesAfter (k : Nat) (before : Wave) (i : Instr) (base next : Nat) (s : State) : State :=
  if (s.part (partOfKey k)).trans.isEmpty then s
  else
    let s1 := if isEretInstr i then s.resumeTrans k else s.leaveTrans k before next
    match if isBranch i then s1.wave? k else none with
    | none => s1
    | some w => s1.safePoints k ((List.range 8).filter (before.moved w)) (· < base)

/-- A split issues the word it stands at. -/
def State.issueWord (s : State) (k e : Nat) (w : Wave) (i : Instr) (r : Raw) (pair : Option (Instr × Raw))
    (pc next nextw widx : Nat) : Out :=
  let x := w.split e
  let c : Cur := { wave := k, entry := e, pc := pc, base := x.pc, next := next, nextw := nextw, widx := widx, raw := r,
                   snap := none, trapped := false }
  match pair with
  | none => if w.held x i r then .next s else (s.execAt c i).onNext (State.modesAfter k w i c.base next)
  | some (j, q) => if w.held x i r || w.held x j q then .next s else s.execPair c w i j r q

/-- The raw fields a clause header's step runs with. -/
def headerCur (k e pc : Nat) : Cur :=
  { wave := k, entry := e, pc := pc, base := pc, next := pc, nextw := 1, widx := 0, raw := Raw.none 2, snap := none, trapped := false }

/-- A split acts on what its fetch found. -/
def State.issueFetched (s : State) (k e : Nat) (w : Wave) (f : Fetched) : Out :=
  match f with
  | .skip next => .next (s.putWave k (w.modSplit e fun x => { x with pc := next, widx := 0 }))
  | .header h => s.execAt (headerCur k e (w.split e).pc) (.clauseHeader h)
  | .word i r pair pc next nextw widx => s.issueWord k e w i r pair pc next nextw widx
  | .fault _ | .bad _ _ | .zero => settle (exec (.instructionFetch k e) s)

/-- Entry `e` of wave `k` issues: it acts on its top frame if it stands at its reconvergence address, else it fetches,
decodes and executes; a split that may not issue does nothing. -/
def State.issue (s : State) (k e : Nat) : Out :=
  match s.wave? k with
  | none => .next s
  | some w =>
    if !s.mayIssue k e w then .next s
    else
      let x := w.split e
      if x.atArrival then settle (exec (.splitArrival k e) s)
      else
        let u := s.waveWho k w
        (s.keepFetch u w x).issueFetched k e w (s.fetch u w x)

/-! ### The default scheduler (log 1) -/

/-- The first of a list of numbers past `last`, or the first of all: round-robin. -/
def nextAfter (last : Nat) (l : List Nat) : Option Nat := (l.find? (last < ·)).orElse fun _ => l.head?

/-- The entries of a wave that may issue, and the waves with one, by ascending key. -/
def State.issueEntries (s : State) (k : Nat) (w : Wave) : List Nat := (List.range 9).filter fun e => s.mayIssue k e w
def State.issueWaves (s : State) : List Nat := (s.waves.filter fun p => !(s.issueEntries p.1 p.2).isEmpty).map (·.1)

/-- The split that issues next when turn `n` has come: quadrants by turns, in each the waves round-robin, in each wave its splits
round-robin (R169). -/
def State.nextIssuer (s : State) (n : Nat) : Option (Nat × Nat) :=
  let ws := s.issueWaves
  let qs := ws.foldl (fun l k => sins l (quadOfKey k)) []
  match qs[n % qs.length]? with
  | none => none
  | some q => match nextAfter (tget 0 s.rot q) (ws.filter fun k => quadOfKey k == q) with
    | none => none
    | some k => match s.wave? k with
      | none => none
      | some w => (nextAfter (tget 0 s.rote k) (s.issueEntries k w)).map fun e => (k, e)

/-- The rotation notes which wave and which of its splits had the turn. -/
def State.rotate (s : State) (k e : Nat) : State := { s with rot := tput s.rot (quadOfKey k) k, rote := tput s.rote k e }

/-- Time passes: the clocks count, and note which pending waves are ready. -/
def State.pass (s : State) (n : Nat) : State := State.noteReady { s with gts := (s.gts + n) % 2 ^ 64 }

/-- What can become of a wave beside its own issue. -/
def State.waveWork (_ : State) (k : Nat) (w : Wave) : List (State → Out) :=
  ((List.range w.sb.length).map fun i => execStoreBufferDrain k i) ++ ((List.range w.pend.length).map fun i => execLoadDataReturn k i) ++
  ((List.range w.pend.length).map fun i => execAtomicApply k i) ++
  ((w.pend.map (·.atoms)).flatten.filter (·.fn == 16)).map (fun x => execGets (clusterOfKey k) (x.addr / 128)) ++
  ((List.range 9).map fun e => execSleepDeadline k e) ++ ((List.range 9).map fun e => execWaitvTimeout k e) ++
  ((List.range 9).map fun e => execParkedWake k e) ++
  [execEngineCommandRun k 0, execEngineCommandRun k 1, execEngineCommandComplete k 0, execEngineCommandComplete k 1, execCopyStart k, execStallEvent k,
   execTeamUnwind k, execAudit k, execSaveEntry k, execRestoreEntry k, execWaveRetirement k]

/-- What can become of a cluster's buffers, engine and banks. -/
def State.clusterWork (_ : State) (k : Nat) (c : Cluster) : List (State → Out) :=
  ((List.range c.pb.length).map fun i => execPublishBufferDrain k i) ++ [execFillReply k, execInvalidation k, execPush k, execShootdown k] ++
  (c.slots.map fun x => execCopyComplete k x.1) ++ (c.banks.map fun x => execQueueService k x.1) ++
  (c.switches.map fun x => execBankLineHandle k x.bank (x.todo.headD 0)) ++ (c.copies.map fun x => execCopyDrop k x.line)

/-- What can become of a core's activation banks and logical time. -/
def coreWork (q : Nat) : List (State → Out) := [execActivationInstall q 0, execActivationInstall q 1, execLtimeTick q]

/-- What the walker and the homes of a partition can do. -/
def State.partWork (s : State) (p : Nat) (x : Part) : List (State → Out) :=
  [execTakeBlock p, execTeamAdmission p, execPinRelease p, execProtocolInstall p, execAuditReplay p, execAuditCompare p, execCeWindowExpiry p] ++
  ((s.subs.filter (·.2.part == p)).map fun y => execPredecessorsDone p y.1) ++ ((s.subs.filter (·.2.part == p)).map fun y => execGridCompletion p y.1) ++
  ((List.zip (List.range x.ranges.length) x.ranges).map fun r => execRangeLineStep r.2.wave r.1 (r.2.lines.headD 0)) ++
  ((List.range x.found.length).map fun i => execTranslationInstall p i)

/-- What the homes can do with their queues. -/
def State.homeWork (s : State) : List (State → Out) :=
  (s.hq.map fun h => execHomeApply h.1) ++ (s.cairns.map fun c => execCairnGrant c.1) ++ ((s.hq.map fun h => h.2.map fun x => match x with | .release pa _ => [execCairnRelease pa] | _ => []).flatten).flatten ++
  (s.units.map fun u => execLineEvacuation u.key)

/-- What other agents could do next, in one fixed order; each is a permitted step. (log 42, DESIGN CHOICE) -/
def State.background (s : State) : List (State → Out) :=
  (s.waves.map fun p => s.waveWork p.1 p.2).flatten ++ (s.clusters.map fun p => s.clusterWork p.1 p.2).flatten ++
  (s.cores.map fun p => coreWork p.1).flatten ++ (s.parts.map fun p => s.partWork p.1 p.2).flatten ++ s.homeWork

/-- The step when the agenda names nobody: splits and the other agents by turns; with nothing to do, time passes. (log 1, DESIGN CHOICE) -/
def State.schedule (s : State) : Out :=
  let n := s.turn / 2
  let s1 := { s with turn := s.turn + 1 }
  if s.turn % 2 = 0 then
    match s.nextIssuer n with
    | some (k, e) => (s1.rotate k e).issue k e
    | none => .next (s1.pass 1)
  else
    match s.background[n % s.background.length]? with
    | some f => f s1
    | none => .next (s1.pass 1)

/-- One choice of the agenda. (log 1, DESIGN CHOICE; log 42, DESIGN CHOICE; log 43, DESIGN CHOICE) -/
def State.act (s : State) (c : Choice) : Out :=
  match c with
  | .issue k e => s.issue k e
  | .event i => settle (exec i s.idle)
  | .tick n => .next (s.pass n)
  | .preempt t => .next (s.preempt t)

/-- One step of the machine: the head of the agenda, else what the default scheduler picks. (log 1, DESIGN CHOICE) -/
def State.go (s : State) : Out :=
  match s.agenda with
  | c :: r => State.act { s with agenda := r } c
  | [] => s.idle.schedule

end Sys2Proof.Machine
end

