-- ==== Sys2Proof/Machine/Step.lean ====
section
/-! DEFINITION. One step of the machine, and placing an instruction where it is fetched next. -/

namespace Sys2Proof.Machine

/-- One step (Issue.lean says what). -/
def step (s : State) : Host.Outcome State Fault Refusal := s.go

/-- The state with an instruction of the table stored where the next step fetches (log 14, DESIGN CHOICE). -/
def State.withFetchWord (s : State) (nbits w : Nat) : State := s.placed nbits w

end Sys2Proof.Machine
end

