-- ==== Sys2Proof/Safety.lean ====
section
/-! DEFINITION. The vocabulary of the claims: what a safe step is, when an instruction of a split runs on sound registers, what its sources and its destination hold, what it may write. -/

namespace Sys2Proof

/-! ### Elements of an operand (05 R105) -/

/-- Elements that one operand of a type holds. -/
def Ty.elts (t : Ty) : Nat := if t.isPacked then 2 else 1

/-- Element `i` of an operand's bits. -/
def Ty.eltBits (t : Ty) (x i : Nat) : BitVec t.elt := BitVec.ofNat t.elt (x / 2 ^ (t.elt * i))

/-- The integer an element stands for. -/
def Ty.num (t : Ty) (b : BitVec t.elt) : Int := if t.signed then b.toInt else (b.toNat : Int)

/-- The element an exact result leaves: its low bits, or under .SAT the nearest number of the type's range (05 R108). -/
def Ty.keep (t : Ty) (sat : Bool) (r : Int) : BitVec t.elt :=
  let lo : Int := if t.signed then -2 ^ (t.elt - 1) else 0
  let hi : Int := if t.signed then 2 ^ (t.elt - 1) - 1 else 2 ^ t.elt - 1
  BitVec.ofInt t.elt (if sat then max lo (min hi r) else r)

/-! ### What a register-only instruction writes -/

/-- Whether a V register, or an S register, is one of a destination run. -/
def Dst.hasV (d : Dst) (cnt n : Nat) : Bool := match d with | .v k => k ≤ n && n < k + cnt | _ => false
def Dst.hasS (d : Dst) (cnt n : Nat) : Bool := match d with | .s k => k ≤ n && n < k + cnt | _ => false

/-- The destination run of a register-only instruction and its length in registers; none for an instruction of another kind. -/
def Instr.regDst (i : Instr) : Option (Dst × Nat) :=
  match i with
  | .iadd o | .isub o | .imul o | .imadD o | .imin o | .imax o | .nmin o | .nmax o | .andB o | .orB o | .xorB o | .andn o | .shl o
  | .shr o | .sar o | .rotl o | .bfx o => some (o.d, o.ty.words)
  | .iadc o => some (o.d, 2)
  | .imad o => some (o.d, o.ty.words)
  | .imulh o => some (o.d, o.ty.words)
  | .bfi o | .prmt o | .ffma o | .hfma2 o => some (o.d, 1)
  | .iabs o | .ineg o | .notB o | .popc o | .clz o | .brev o | .mov o | .movl o => some (o.d, o.ty.words)
  | .iaddZ32 o | .isubZ32 o | .imulZ32 o | .iabsZ32 o | .inegZ32 o | .iminZ32 o | .imaxZ32 o => some (o.d, o.sz.tyI.words)
  | .nminZ32 o | .nmaxZ32 o => some (o.d, o.sz.tyN.words)
  | .andZ32 o | .orZ32 o | .xorZ32 o | .notZ32 o | .andnZ32 o | .shlZ32 o | .shrZ32 o | .movZ32 o => some (o.d, o.sz.tyB.words)
  | .sarZ32 o => some (o.d, o.sz.tyI.words)
  | .rotlZ32 o | .popcZ32 o | .clzZ32 o | .brevZ32 o => some (o.d, 1)
  | .sel o => some (o.d, o.ty.words)
  | .pseg o => some (o.d, 1)
  | .poff o => some (o.d, 2)
  | .fadd o | .fsub o | .fmul o | .fmin o | .fmax o | .fdiv o | .hadd2 o | .hmul2 o | .ffmaD o | .hfma2D o => some (o.d, 1)
  | .fsqrt o | .frcp o | .frsq o | .fexp2 o | .flog2 o | .fsin o | .fcos o | .ftanh o => some (o.d, 1)
  | .faddZ32 o | .fsubZ32 o | .fmulZ32 o | .fminZ32 o | .fmaxZ32 o | .hadd2Z32 o | .hmul2Z32 o | .fsqrtZ32 o | .frcpZ32 o | .frsqZ32 o
  | .fexp2Z32 o | .flog2Z32 o | .fsinZ32 o | .fcosZ32 o | .ftanhZ32 o | .f2iZ32 o | .i2fZ32 o => some (o.d, 1)
  | .f2i o => some (o.d, o.dst.words)
  | .i2f o => some (o.d, 1)
  | .fcvt o => some (o.d, 1)
  | .qnt o | .dqnt o => some (o.d, 1)
  | .fpk o => some (o.d, o.fmt.packed)
  | .fupk o => some (o.d, o.src.count)
  | .shfl o => some (o.d, if o.w64 then 2 else 1)
  | .vred o | .vscan o => some (o.d, o.ty.words)
  | .ballot o => some (o.d, 1)
  | .matchOp o => some (o.d, 1)
  | _ => none

/-- The predicate a register-only instruction writes. -/
def Instr.predDst (i : Instr) : Option Nat :=
  match i with
  | .icmp o | .fcmp o => some o.d
  | .fclass o => some o.d
  | .plop o => some o.d
  | .vote o => some o.d
  | .elect _ d => some d
  | _ => none

/-- Whether the instruction only reads and writes registers and predicates of its wave. -/
def Instr.regOnly (i : Instr) : Bool := i.regDst.isSome || i.predDst.isSome

/-- The register-only instructions that can leave an exception in FPSTAT (04 R98, 05 R106). -/
def Instr.floats (i : Instr) : Bool :=
  match i with
  | .ffma _ | .hfma2 _ | .fadd _ | .fsub _ | .fmul _ | .fmin _ | .fmax _ | .fdiv _ | .hadd2 _ | .hmul2 _ | .ffmaD _ | .hfma2D _
  | .fsqrt _ | .frcp _ | .frsq _ | .fexp2 _ | .flog2 _ | .fsin _ | .fcos _ | .ftanh _
  | .faddZ32 _ | .fsubZ32 _ | .fmulZ32 _ | .fminZ32 _ | .fmaxZ32 _ | .hadd2Z32 _ | .hmul2Z32 _ | .fsqrtZ32 _ | .frcpZ32 _ | .frsqZ32 _
  | .fexp2Z32 _ | .flog2Z32 _ | .fsinZ32 _ | .fcosZ32 _ | .ftanhZ32 _ | .f2iZ32 _ | .i2fZ32 _
  | .f2i _ | .i2f _ | .fcvt _ | .qnt _ | .dqnt _ | .fpk _ | .fupk _ | .fcmp _ => true
  | .vred o | .vscan o => o.ty == .f32
  | _ => false

/-- The control fields of a register-only instruction. -/
def Instr.regCtl (i : Instr) : Ctl :=
  match i with
  | .iadd o | .isub o | .imul o | .imadD o | .imin o | .imax o | .nmin o | .nmax o | .andB o | .orB o | .xorB o | .andn o | .shl o
  | .shr o | .sar o | .rotl o | .bfx o | .imulh o | .fadd o | .fsub o | .fmul o | .fmin o | .fmax o | .fdiv o | .hadd2 o | .hmul2 o
  | .ffmaD o | .hfma2D o => o.ctl
  | .iadc o | .imad o | .bfi o | .prmt o | .ffma o | .hfma2 o => o.ctl
  | .iabs o | .ineg o | .notB o | .popc o | .clz o | .brev o | .mov o | .movl o | .pseg o | .poff o
  | .fsqrt o | .frcp o | .frsq o | .fexp2 o | .flog2 o | .fsin o | .fcos o | .ftanh o => o.ctl
  | .iaddZ32 o | .isubZ32 o | .imulZ32 o | .iabsZ32 o | .inegZ32 o | .iminZ32 o | .imaxZ32 o | .nminZ32 o | .nmaxZ32 o
  | .andZ32 o | .orZ32 o | .xorZ32 o | .notZ32 o | .andnZ32 o | .shlZ32 o | .shrZ32 o | .movZ32 o | .sarZ32 o
  | .rotlZ32 o | .popcZ32 o | .clzZ32 o | .brevZ32 o
  | .faddZ32 o | .fsubZ32 o | .fmulZ32 o | .fminZ32 o | .fmaxZ32 o | .hadd2Z32 o | .hmul2Z32 o | .fsqrtZ32 o | .frcpZ32 o | .frsqZ32 o
  | .fexp2Z32 o | .flog2Z32 o | .fsinZ32 o | .fcosZ32 o | .ftanhZ32 o | .f2iZ32 o | .i2fZ32 o => o.ctl
  | .sel o => o.ctl
  | .f2i o | .i2f o => o.ctl
  | .fcvt o | .fupk o => o.ctl
  | .qnt o | .dqnt o | .fpk o => o.ctl
  | .shfl o => o.ctl
  | .vred o | .vscan o => o.ctl
  | .ballot o => o.ctl
  | .matchOp o => o.ctl
  | .icmp o | .fcmp o => o.ctl
  | .fclass o => o.ctl
  | .plop o => o.ctl
  | .vote o => o.ctl
  | .elect c _ => c
  | _ => { pred := 15, neg := false, setf := none, wait := 0 }

namespace Machine

/-- The step answers a next state. -/
def State.goesOn (s : State) : Bool := match step s with | .next _ => true | _ => false

/-- Memory is in its canonical form: equal memories are equal data. -/
def State.memOk (s : State) : Bool := Memory.wf s.mem

/-! ### A split that runs an instruction -/

/-- Wave `w` runs an instruction at `c`, and no register word that it can read holds an error. -/
def State.runs (s : State) (c : Cur) (w : Wave) : Prop := s.here = some (c, w) ∧ (c.reads w).errs = []

/-- Wave `w` runs an instruction at `c`, and none of its register words holds an error. -/
def State.ready (s : State) (c : Cur) (w : Wave) : Prop := s.here = some (c, w) ∧ w.errs = []

/-- The lanes an instruction acts on: EM and its predicate (00 R9(c)), as it reads them (02 R44). -/
def Cur.active (c : Cur) (w : Wave) (ctl : Ctl) : LaneMask := (c.reads w).actLanes ((c.reads w).split c.entry) ctl.pred ctl.neg

/-- A source at a lane, as the instruction reads it: the number its operand's bits are. -/
def Cur.bits (c : Cur) (w : Wave) (ty : Ty) (l : Nat) (o : Src) : Nat := (c.reads w).opnd ((c.reads w).split c.entry) ty l o
/-- A 32-bit source at a lane. -/
def Cur.word (c : Cur) (w : Wave) (l : Nat) (o : Src) : Word := (c.reads w).src ((c.reads w).split c.entry) l o

/-- What a destination holds at a lane: one register, or a pair. -/
def Wave.dst (w : Wave) (wide : Bool) (d : Dst) (l : Nat) : Nat :=
  match d with
  | .v n => if wide then (w.v64 n l).toNat else (w.v n l).toNat
  | .s n => if wide then (w.s64 n).toNat else (w.s n).toNat
  | .zero => 0

/-- Where a destination is written: a V register at the active lanes, an S register once, as lane 0 computes it (05 R104). -/
def Cur.writes (_ : Cur) (d : Dst) (m : LaneMask) (l : Nat) : Bool :=
  match d with
  | .v _ => laneOf m l
  | .s _ => l == 0
  | .zero => false

/-- Where an instruction computes: at the active lanes, or once for an S destination; also when ZERO discards the result. -/
def Cur.computes (_ : Cur) (d : Dst) (m : LaneMask) (l : Nat) : Bool := if d.uni then l == 0 else laneOf m l

/-- The active lanes a lane shares a cross-lane instruction with, ascending: those of the wave, or of its half under compat16 (05 R122). -/
def Cur.peers (c : Cur) (w : Wave) (ctl : Ctl) (l : Nat) : List Nat :=
  (List.range 32).filter fun j => laneOf (c.active w ctl) j && (!(c.reads w).c16 || j / 16 == l / 16)

/-- A lane's number in its wave, or in its half under compat16. -/
def Cur.laneNo (c : Cur) (w : Wave) (l : Nat) : Nat := if (c.reads w).c16 then l % 16 else l

/-- A number that orders FP32 encodings that are no NaN as their values are ordered, −0 just below +0. -/
def fpKey (x : Word) : Int := if x.getLsbD 31 then -((x.toNat % 2 ^ 31 : Nat) : Int) - 1 else (x.toNat : Int)
/-- The same order with both zeros equal. -/
def fpKey0 (x : Word) : Int := if x.getLsbD 31 then -((x.toNat % 2 ^ 31 : Nat) : Int) else (x.toNat : Int)
/-- An FP32 NaN, and a signalling one. -/
def fpIsNan (x : Word) : Bool := decide (0x7F800000 < x.toNat % 2 ^ 31)
def fpIsSig (x : Word) : Bool := fpIsNan x && !x.getLsbD 22

/-- `w'` is `w` with other registers, predicates and FPSTAT at most; no word is newly marked. -/
def Wave.onlyRegs (w w' : Wave) : Prop :=
  w' = { w with vr := w'.vr, sr := w'.sr, pr := w'.pr, errs := w'.errs, fpstat := w'.fpstat } ∧ ∀ e ∈ w'.errs, e ∈ w.errs

/-- The registers a run does not name, and every V register at the lanes outside a mask, hold what they held. -/
def Wave.sameBut (w w' : Wave) (d : Dst) (cnt : Nat) (m : LaneMask) : Prop :=
  (∀ n l, l < 32 → d.hasV cnt n = false ∨ laneOf m l = false → w'.v n l = w.v n l) ∧ (∀ n, d.hasS cnt n = false → w'.s n = w.s n)

/-- The predicates but one, and that one at the lanes outside a mask, hold what they held. -/
def Wave.samePreds (w w' : Wave) (d : Option Nat) (m : LaneMask) : Prop :=
  ∀ n l, l < 32 → d ≠ some n ∨ laneOf m l = false → laneOf (w'.p n) l = laneOf (w.p n) l

/-- Nothing but one wave differs. -/
def State.onlyWave (s t : State) (k : Nat) : Prop := t = { s with waves := t.waves } ∧ ∀ j, j ≠ k → t.wave? j = s.wave? j

/-! ### Splits and control flow (07 R171–R174, 08 R177–R201) -/

/-- `w'` is `w` with another split table, or another handler split, at most. -/
def Wave.onlySplits (w w' : Wave) : Prop := w' = { w with splits := w'.splits, handler := w'.handler }

/-- The lanes whose branch condition holds: the predicate at each lane, negated or not, within EM (08 R177). -/
def Cur.taken (c : Cur) (w : Wave) (ctl : Ctl) : LaneMask := (c.split w).em &&& (if ctl.neg then ~~~(w.p ctl.pred) else w.p ctl.pred)

/-- A code offset that the wave may transfer to: CODESEL's descriptor can be read and the offset lies below its limit (08 R179). -/
def State.codeTarget (s : State) (c : Cur) (w : Wave) (t : Int) : Prop :=
  ∃ b, s.descBytes (s.who c w) w.codesel = .ok b ∧ 0 ≤ t ∧ t < (descOf b).limit

/-- A displacement from the branch's own address, in units of its encoding (08 R178). -/
def Cur.at (c : Cur) (w : Wave) (d : Disp) : Int := (c.pc : Int) + (if w.kern.native then 8 else 4) * d.toInt

/-- The lanes of a mask for which a value differs from that of the mask's lowest lane. -/
def differ {α : Type} [DecidableEq α] (m : LaneMask) (f : Nat → α) : LaneMask :=
  maskWhere fun l => laneOf m l && decide (f l ≠ f (lowestLane m))

/-! ### Memory instructions (chapters 09 and 10) -/

/-- A load: its control fields, destination, size and scope. -/
def loadForm (i : Instr) : Option (Ctl × Dst × MSize × Nat) :=
  match i with
  | .ld o | .ldsp o | .ldspPi o => some (o.ctl, o.d, o.size, o.scope.code)
  | .ldspZ32 o => some (o.ctl, o.d, spSize o.sz, 1)
  | _ => none

/-- A store: its control fields, source, size and scope. -/
def storeForm (i : Instr) : Option (Ctl × Src × MSize × Nat) :=
  match i with
  | .st o | .stsp o | .stspPi o => some (o.ctl, o.d, o.size, o.scope.code)
  | .stspZ32 o => some ({ pred := o.pred, neg := o.neg, setf := none, wait := 0 }, o.d, spSize o.sz, 1)
  | _ => none

/-- An atomic: its control fields, destination, bytes, operation (as `LaneAtom.fn` numbers it) and whether it does not notify. -/
def atomForm (i : Instr) : Option (Ctl × Dst × Nat × Nat × Bool) :=
  match i with
  | .atom o => some (o.ctl, o.d, 4, o.op.code, o.nw)
  | .atomB64 o => some (o.ctl, o.d, 8, o.op.code, o.nw)
  | .red o => some (o.ctl, .zero, 4, o.op.code, o.nw)
  | .redB64 o => some (o.ctl, .zero, 8, o.op.code, o.nw)
  | .atomcas o => some (o.ctl, o.d, if o.w64 then 8 else 4, 12, o.nw)
  | .atomcasSp o => some (o.ctl, o.d, 4, 12, false)
  | .atomdp o => some (o.ctl, o.d, 4, 13, false)
  | .fatom o => some (o.ctl, o.d, 4, if o.bf16 then 15 else 14, o.nw)
  | _ => none

/-- The operand of an atomic at a lane, and the value it compares with. -/
def Cur.atomVals (c : Cur) (w : Wave) (i : Instr) (l : Nat) : Nat × Nat :=
  match i with
  | .atom o | .red o => ((c.word w l o.b).toNat, 0)
  | .atomB64 o | .redB64 o => (c.bits w (if o.op = .minI ∨ o.op = .maxI then .i64 else .n64) l o.b, 0)
  | .fatom o => ((c.word w l o.b).toNat, 0)
  | .atomcas o => if o.w64 then (c.bits w .b64 l (o.b.plus 2), c.bits w .b64 l o.b) else ((c.word w l (o.b.plus 1)).toNat, (c.word w l o.b).toNat)
  | .atomcasSp o => ((c.word w l o.c).toNat, (c.word w l o.b).toNat)
  | _ => (0, 0)

/-- The accesses of a memory instruction, one for each lane it acts for, each at the address its operands give and past its checks; or
the fault that the checks report (10 R235–R237). -/
def State.lanesOfMem (s : State) (c : Cur) (w : Wave) (i : Instr) : Except LFault (List (Nat × Access)) :=
  let u := s.who c w
  let r := c.reads w
  let x := r.split c.entry
  let m (k : Ctl) : LaneMask := c.active w k
  match i with
  | .ld o => s.checkLanes u { right := 0, kinds := kindsAll, size := o.size.bytes, align := o.size.bytes, write := false, narrow := o.scope.code < 3 }
      (memLanes o.d.uni (m o.ctl)) o.d.uni (m o.ctl) (r.laneEa x o.a o.b)
  | .st o => s.checkLanes u { right := 1, kinds := kindsST, size := o.size.bytes, align := o.size.bytes, write := true, narrow := o.scope.code < 3 }
      (lanesOf (m o.ctl)) false (m o.ctl) (r.laneEa x o.a o.b)
  | .ldsp o | .ldspPi o => s.scratchLanes u o.size.bytes (memLanes o.d.uni (m o.ctl)) o.d.uni (m o.ctl) (r.scratchOff x o.a o.b)
  | .ldspZ32 o => s.scratchLanes u (spSize o.sz).bytes (memLanes o.d.uni (m o.ctl)) o.d.uni (m o.ctl) (r.scratchOff x (Src.toReg o.a) .zero)
  | .stsp o | .stspPi o => s.scratchLanes u o.size.bytes (lanesOf (m o.ctl)) false (m o.ctl) (r.scratchOff x o.a o.b)
  | .stspZ32 o => s.scratchLanes u (spSize o.sz).bytes (lanesOf (c.active w { pred := o.pred, neg := o.neg, setf := none, wait := 0 })) false
      (c.active w { pred := o.pred, neg := o.neg, setf := none, wait := 0 }) (r.scratchOff x (Src.toReg o.a) .zero)
  | .atomcasSp o => s.scratchLanes u 4 (memLanes o.d.uni (m o.ctl)) o.d.uni (m o.ctl) fun l => ((r.src x l o.a).toNat : Int)
  | .atom o | .atomB64 o => atomAt u o.ctl o.d o.a (if i = .atom o then 4 else 8)
  | .red o | .redB64 o => atomAt u o.ctl .zero o.a (if i = .red o then 4 else 8)
  | .atomcas o => atomAt u o.ctl o.d o.a (if o.w64 then 8 else 4)
  | .atomdp o => atomAt u o.ctl o.d o.a 4
  | .fatom o => atomAt u o.ctl o.d o.a 4
  | _ => .ok []
where
  atomAt (u : Who) (k : Ctl) (d : Dst) (a : Reg) (n : Nat) : Except LFault (List (Nat × Access)) :=
    s.checkLanes u { right := 3, kinds := kindsAtom, size := n, align := n, write := true } (memLanes d.uni (c.active w k)) d.uni
      (c.active w k) fun l => .ok ((c.reads w).reg64 a l)

/-- The offset register that a post-increment form moves on. -/
def incReg (i : Instr) : Option Reg := match i with | .ldspPi o => some o.a | .stspPi o => some o.a | _ => none

/-- `w'` is `w` with another operation in flight, and its flag, at most. -/
def Wave.onlyOps (w w' : Wave) : Prop := w' = { w with flags := w'.flags, ops := w'.ops, opctr := w'.opctr, pend := w'.pend }

/-- Word `j` of the data a store writes for a lane: of a register run, or of another operand widened with zeros. -/
def Cur.dataWord (c : Cur) (w : Wave) (l : Nat) (o : Src) (j : Nat) : Word :=
  match o with
  | .v _ | .s _ => c.word w l (o.plus j)
  | _ => if j = 0 then c.word w l o else 0

/-- Whether a cell of a protocol carries an action (11 R257). -/
def Protocol.does (p : Protocol) (st ev act : Nat) : Prop := p.cellAt st ev / act % 2 = 1

/-- A read of a line for a cluster moves no bytes of its home: nothing waits in the line's queue, its directory entry has the slot the read
names, no other cluster owns it, no core holds a partial of it, and the slot's protocol discards nothing at a read. -/
def State.quiet (s : State) (k line slot : Nat) : Prop :=
  tget [] s.hq line = [] ∧ (∀ d, tfind s.dir line = some d → d.slot = slot ∧ (d.owner = none ∨ d.owner = some k)) ∧
    s.partialCores line = [] ∧ ∀ st, ¬(s.protocolOf (partOfLine line) slot).does st 0 (2 ^ 17)

/-- Every line that some accesses of `n` bytes touch is quiet, under one slot. -/
def State.quietFor (s : State) (u : Who) (core n : Nat) (accs : List (Nat × Access)) : Prop :=
  ∃ slot : Nat → Nat, ∀ p ∈ accs, ∀ i, i < n →
    let line := p.2.paAt i / 128
    s.slotFor (partOfLine line) (s.slotAt u p.2 i).1 = slot line ∧ s.quiet (core / 4) line (slot line)

/-- The value an atomic writes (10 R242–R244): none where the compare fails, or where a decrement to zero has nothing to take. -/
def atomValue (fn : Nat) {n : Nat} (old b cmp : BitVec n) : Option (BitVec n) :=
  match fn with
  | 0 => some (old + b)
  | 1 => some (old - b)
  | 2 => some (if b.toInt < old.toInt then b else old)
  | 3 => some (if old.toInt < b.toInt then b else old)
  | 4 => some (if b.toNat < old.toNat then b else old)
  | 5 => some (if old.toNat < b.toNat then b else old)
  | 6 => some (old &&& b)
  | 7 => some (old ||| b)
  | 8 => some (old ^^^ b)
  | 9 => some b
  | 10 => some (if b.toNat ≤ old.toNat then 0 else old + 1)
  | 11 => some (if old = 0 ∨ b.toNat < old.toNat then b else old - 1)
  | 12 => if old = cmp then some b else none
  | 13 => if 0 < old.toInt then some (old - 1) else none
  | _ => none

/-- The directory entry a request finds at a line, under the slot it names, when no switch of slots comes first. -/
def State.finds (s : State) (line slot : Nat) (d : Dir) : Prop :=
  s.dirOf line (s.slotFor (partOfLine line) slot) = d ∧ d.slot = s.slotFor (partOfLine line) slot

/-- No write waits in a line's queue, no core holds a partial of it, and no cluster but `k` owns it. -/
def State.still (s : State) (k : Option Nat) (line : Nat) (d : Dir) : Prop :=
  tget [] s.hq line = [] ∧ s.partialCores line = [] ∧ (d.owner = none ∨ d.owner = k)

/-- A write of the Ovyen's own only writes its bytes: no cluster owns the line, no core holds a partial of it, and its protocol, if it has an
entry, applies a PUTW in every state and discards nothing. -/
def State.writable (s : State) (line : Nat) : Prop :=
  ∀ d, tfind s.dir line = some d → d.owner = none ∧ s.partialCores line = [] ∧
    let p := s.protocolOf (partOfLine line) d.slot
    d.st < p.nstates ∧ p.reset < p.nstates ∧
      ∀ st, st < p.nstates → p.does st 2 (2 ^ 6) ∧ ¬p.does st 2 (2 ^ 17) ∧ p.cellAt st 2 % 16 < p.nstates

/-- No write waits in a line's queue and no directory entry stands for it: the Ovyen's own write of the line only writes its bytes. -/
def State.plainLine (s : State) (line : Nat) : Prop := tget [] s.hq line = [] ∧ tfind s.dir line = none

/-- No cluster's publish buffer holds an entry of a line. -/
def State.unpublished (s : State) (line : Nat) : Prop := ∀ k e, PItem.store e ∈ (s.cluster k).pb → e.line ≠ line

/-- A cluster owns none of its copies, and no message is on its way to it: an acquire at DEVICE scope only drops the copies. -/
def State.unowned (s : State) (k : Nat) : Prop :=
  (s.cluster k).msgs = [] ∧ ∀ x ∈ (s.cluster k).copies, ∀ d, tfind s.dir x.line = some d → d.owner ≠ some k

/-- The element code at place `i` of row `m` of an image, whose rows hold `k` elements of `n` bits, packed from bit 0 up (06 R130). -/
def imageElt (b : List Byte) (n k m i : Nat) : Nat := leNat b / 2 ^ ((m * k + i) * n) % 2 ^ n

/-- Element (m, n) of what an EPI makes of the tile it has read (06 R148); `draw` numbers the draws for activation indices that the spec leaves open. -/
def Cmd.element (c : Cmd) (core : Core) (draw m n : Nat) : Nat :=
  (epiElt c.blk ((biasList c.blk c.aux).getD n (exInt 0)) (c.actTable core) c.rngLo c.rngHi (draw + 64 * m + n) ((tget [] c.regs m).getD n 0) m n).bits

/-- Whether the rows 0 to 63 that a command has captured hold 64 words each. -/
def Cmd.fullRows (c : Cmd) : Prop := ∀ m, m < 64 → (tget [] c.regs m).length = 64

/-- Nothing waits at a home, no directory entry stands, nobody monitors a line or waits for a cairn: what the Ovyen writes itself only changes bytes. -/
def State.calm (s : State) : Prop := s.hq = [] ∧ s.dir = [] ∧ s.mon = [] ∧ s.cairns = []

end Machine

end Sys2Proof
end

