-- ==== Sys2Proof/Certificates/Slice0/Obligations.lean ====
section
/-! DEFINITION. The statements for the provers, from the spec's numbered rules. -/

namespace Sys2Proof

open Machine

/-! ### Register-only instructions (chapter 05) -/

/-- IADD, ISUB, IMUL, IMIN, IMAX, NMIN and NMAX: each element of the destination is the exact result on the sources' elements,
kept to the element's width or, under .SAT, clamped to its range. -/
def IntegerArithmetic : Prop :=
  ∀ (o : Bin) (s : State) (c : Cur) (w : Wave), s.runs c w →
    ∀ p ∈ ([(.iadd o, (· + ·), o.sat), (.isub o, (· - ·), o.sat), (.imul o, (· * ·), o.sat), (.imin o, min, false), (.imax o, max, false),
        (.nmin o, min, false), (.nmax o, max, false)] : List (Instr × (Int → Int → Int) × Bool)), p.1.wf = true →
      ∃ w', exec p.1 s = .next (s.done c w') ∧
        ∀ l i, l < 32 → i < o.ty.elts → c.writes o.d (c.active w o.ctl) l = true →
          o.ty.eltBits (w'.dst o.ty.wide o.d l) i =
            o.ty.keep p.2.2 (p.2.1 (o.ty.num (o.ty.eltBits (c.bits w o.ty l o.a) i)) (o.ty.num (o.ty.eltBits (c.bits w o.ty l o.b) i)))

/-- IABS and INEG, with the most negative value as the rule gives it: itself, or the largest value under .SAT. -/
def AbsoluteAndNegate : Prop :=
  ∀ (o : Un) (s : State) (c : Cur) (w : Wave), s.runs c w →
    ∀ p ∈ ([(.iabs o, fun x => |x|), (.ineg o, fun x => -x)] : List (Instr × (Int → Int))), p.1.wf = true →
      ∃ w', exec p.1 s = .next (s.done c w') ∧
        ∀ l i, l < 32 → i < o.ty.elts → c.writes o.d (c.active w o.ctl) l = true →
          o.ty.eltBits (w'.dst o.ty.wide o.d l) i = o.ty.keep o.sat (p.2 (o.ty.num (o.ty.eltBits (c.bits w o.ty l o.a) i)))

/-- AND, OR, XOR, ANDN and the shifts on whole operands: a shift by the width or more clears the result, or fills it with the sign; a
rotation counts modulo 32. The count is b's 32 bits, also under a 64-bit type. -/
def BitwiseAndShifts : Prop :=
  ∀ (o : Bin) (s : State) (c : Cur) (w : Wave), s.runs c w →
    (∀ p ∈ ([(.andB o, fun x y => x &&& y), (.orB o, fun x y => x ||| y), (.xorB o, fun x y => x ^^^ y), (.andn o, fun x y => x &&& ~~~y)] :
        List (Instr × (BitVec o.ty.elt → BitVec o.ty.elt → BitVec o.ty.elt))), p.1.wf = true →
      ∃ w', exec p.1 s = .next (s.done c w') ∧ ∀ l, l < 32 → c.writes o.d (c.active w o.ctl) l = true →
        o.ty.eltBits (w'.dst o.ty.wide o.d l) 0 = p.2 (o.ty.eltBits (c.bits w o.ty l o.a) 0) (o.ty.eltBits (c.bits w o.ty l o.b) 0)) ∧
    (∀ p ∈ ([(.shl o, fun x n => x <<< n), (.shr o, fun x n => x >>> n), (.sar o, fun x n => x.sshiftRight n),
        (.rotl o, fun x n => x.rotateLeft n)] : List (Instr × (BitVec o.ty.elt → Nat → BitVec o.ty.elt))), p.1.wf = true →
      ∃ w', exec p.1 s = .next (s.done c w') ∧ ∀ l, l < 32 → c.writes o.d (c.active w o.ctl) l = true →
        o.ty.eltBits (w'.dst o.ty.wide o.d l) 0 = p.2 (o.ty.eltBits (c.bits w o.ty l o.a) 0) (c.word w l o.b).toNat)

/-- NOT, MOV, POPC, CLZ and BREV, bit by bit: POPC counts the ones, CLZ the zeros above the highest one, BREV reverses. -/
def UnaryBits : Prop :=
  ∀ (o : Un) (s : State) (c : Cur) (w : Wave) (l : Nat), s.runs c w → l < 32 → c.writes o.d (c.active w o.ctl) l = true →
    ((Instr.notB o).wf = true → ∃ w', exec (.notB o) s = .next (s.done c w') ∧
      o.ty.eltBits (w'.dst o.ty.wide o.d l) 0 = ~~~o.ty.eltBits (c.bits w o.ty l o.a) 0) ∧
    ((Instr.mov o).wf = true → ∃ w', exec (.mov o) s = .next (s.done c w') ∧
      w'.dst o.ty.wide o.d l = c.bits w o.ty l o.a) ∧
    ((Instr.popc o).wf = true → ∃ w', exec (.popc o) s = .next (s.done c w') ∧
      w'.dst false o.d l = ((List.range 32).filter fun i => (c.word w l o.a).getLsbD i).length) ∧
    ((Instr.clz o).wf = true → ∃ w', exec (.clz o) s = .next (s.done c w') ∧
      (c.word w l o.a = 0 → w'.dst false o.d l = 32) ∧
      (∀ n, n < 32 → (c.word w l o.a).getLsbD n = true → (∀ i, n < i → (c.word w l o.a).getLsbD i = false) → w'.dst false o.d l = 31 - n)) ∧
    ((Instr.brev o).wf = true → ∃ w', exec (.brev o) s = .next (s.done c w') ∧
      ∀ i, i < 32 → (BitVec.ofNat 32 (w'.dst false o.d l)).getLsbD i = (c.word w l o.a).getLsbD (31 - i))

/-- IMAD and its mirror form add the exact product to c, or to d as it was before; IMULH keeps bits [63:32] of the exact product; IADC
leaves the 33-bit sum in a pair, the carry out in its high word. -/
def MultiplyAddAndCarry : Prop :=
  ∀ (s : State) (c : Cur) (w : Wave) (l : Nat), s.runs c w → l < 32 →
    (∀ o : Tri, (Instr.imad o).wf = true → c.writes o.d (c.active w o.ctl) l = true → ∃ w', exec (.imad o) s = .next (s.done c w') ∧
      o.ty.eltBits (w'.dst o.ty.wide o.d l) 0 = o.ty.keep o.sat (o.ty.num (o.ty.eltBits (c.bits w o.ty l o.a) 0) *
        o.ty.num (o.ty.eltBits (c.bits w o.ty l o.b) 0) + o.ty.num (o.ty.eltBits (c.bits w o.ty l o.c) 0))) ∧
    (∀ o : Bin, (Instr.imadD o).wf = true → c.writes o.d (c.active w o.ctl) l = true → ∃ w', exec (.imadD o) s = .next (s.done c w') ∧
      o.ty.eltBits (w'.dst o.ty.wide o.d l) 0 = o.ty.keep o.sat (o.ty.num (o.ty.eltBits (c.bits w o.ty l o.a) 0) *
        o.ty.num (o.ty.eltBits (c.bits w o.ty l o.b) 0) + o.ty.num (o.ty.eltBits ((c.reads w).dst o.ty.wide o.d l) 0))) ∧
    (∀ o : Bin, (Instr.imulh o).wf = true → c.writes o.d (c.active w o.ctl) l = true → ∃ w', exec (.imulh o) s = .next (s.done c w') ∧
      (w'.dst false o.d l : Int) = (o.ty.num (o.ty.eltBits (c.bits w o.ty l o.a) 0) * o.ty.num (o.ty.eltBits (c.bits w o.ty l o.b) 0)) / 2 ^ 32 % 2 ^ 32) ∧
    (∀ o : Tri, (Instr.iadc o).wf = true → c.writes o.d (c.active w o.ctl) l = true → ∃ w', exec (.iadc o) s = .next (s.done c w') ∧
      w'.dst true o.d l = (c.word w l o.a).toNat + (c.word w l o.b).toNat + (c.word w l o.c).toNat % 2)

/-- BFX, BFI and PRMT: the field [pos + len - 1 : pos] of a, cut at bit 31, extended by its top bit for I32; the field of the background
replaced; the byte gather with its five controls, applied in their order. -/
def FieldsAndBytes : Prop :=
  ∀ (s : State) (c : Cur) (w : Wave) (l : Nat), s.runs c w → l < 32 →
    (∀ o : Bin, (Instr.bfx o).wf = true → c.writes o.d (c.active w o.ctl) l = true → ∃ w', exec (.bfx o) s = .next (s.done c w') ∧
      ∀ i, i < 32 →
        let pos := (c.word w l o.b).toNat % 256
        let len := (c.word w l o.b).toNat / 256 % 256
        let top := min (pos + len) 32 - 1
        (BitVec.ofNat 32 (w'.dst false o.d l)).getLsbD i =
          (len != 0 && pos < 32 && if pos + i ≤ top then (c.word w l o.a).getLsbD (pos + i) else o.ty.signed && (c.word w l o.a).getLsbD top)) ∧
    (∀ o : Tri, (Instr.bfi o).wf = true → c.writes o.d (c.active w o.ctl) l = true → ∃ w', exec (.bfi o) s = .next (s.done c w') ∧
      ∀ i, i < 32 →
        let pos := (c.word w l o.b).toNat % 256
        let len := (c.word w l o.b).toNat / 256 % 256
        (BitVec.ofNat 32 (w'.dst false o.d l)).getLsbD i =
          if pos ≤ i ∧ i < pos + len then (c.word w l o.a).getLsbD (i - pos) else (c.word w l o.c).getLsbD i) ∧
    (∀ o : Tri, (Instr.prmt o).wf = true → c.writes o.d (c.active w o.ctl) l = true → ∃ w', exec (.prmt o) s = .next (s.done c w') ∧
      ∀ i k, i < 4 → k < 8 →
        let y := (c.word w l o.c).extractLsb' (8 * i) 8
        let n := 8 * (y.toNat % 8)
        let x := ((c.word w l o.b) ++ (c.word w l o.a) : BitVec 64)
        let j := if y.getLsbD 4 then (if y.getLsbD 3 then 0 else 7) else (if y.getLsbD 3 then 7 - k else k)
        (BitVec.ofNat 32 (w'.dst false o.d l)).getLsbD (8 * i + k) = (!y.getLsbD 6 && (y.getLsbD 5 != x.getLsbD (n + j))))

/-- ICMP writes its predicate at the active lanes as the two integers compare, and SEL takes a or b by a predicate, 15 taking a. -/
def CompareAndSelect : Prop :=
  ∀ (s : State) (c : Cur) (w : Wave) (l : Nat), s.runs c w → l < 32 →
    (∀ o : Cmp, (Instr.icmp o).wf = true → laneOf (c.active w o.ctl) l = true → ∃ w', exec (.icmp o) s = .next (s.done c w') ∧
      let x := o.ty.num (o.ty.eltBits (c.bits w o.ty l o.a) 0)
      let y := o.ty.num (o.ty.eltBits (c.bits w o.ty l o.b) 0)
      (laneOf (w'.p o.d) l = true ↔ match o.cond with
        | .eq => x = y | .ne => x ≠ y | .lt => x < y | .le => x ≤ y | .gt => x > y | .ge => x ≥ y | _ => False)) ∧
    (∀ o : Sel, (Instr.sel o).wf = true → c.writes o.d (c.active w o.ctl) l = true → ∃ w', exec (.sel o) s = .next (s.done c w') ∧
      w'.dst o.ty.wide o.d l = if o.c = 15 ∨ laneOf ((c.reads w).p o.c) l = true then c.bits w o.ty l o.a else c.bits w o.ty l o.b)

/-- MOVL writes its S destination once, with the value of a at the lowest-numbered active lane, or with 0 when no lane is active. -/
def MoveLowestLane : Prop :=
  ∀ (o : Un) (s : State) (c : Cur) (w : Wave), s.runs c w → (Instr.movl o).wf = true →
    ∃ w', exec (.movl o) s = .next (s.done c w') ∧
      (c.active w o.ctl = 0 → w'.dst o.ty.wide o.d 0 = 0) ∧
      (∀ l, l < 32 → laneOf (c.active w o.ctl) l = true → (∀ j, j < l → laneOf (c.active w o.ctl) j = false) →
        w'.dst o.ty.wide o.d 0 = c.bits w o.ty l o.a)

/-- SEGA and PADD write a pair of selector and 44-bit offset; PSEG and POFF take it apart. A lane whose offset leaves the 44 bits makes
the whole instruction raise OFFOVF instead (the statement after this one). -/
def AddressInstructions : Prop :=
  ∀ (s : State) (c : Cur) (w : Wave), s.runs c w →
    (∀ o : Bin, (Instr.sega o).wf = true →
      (∀ l, l < 32 → c.computes o.d (c.active w o.ctl) l = true → c.bits w .b64 l o.b < 2 ^ 44) →
      ∃ w', exec (.sega o) s = .next (s.done c w') ∧ s.onlyWave (s.done c w') c.wave ∧ w.onlyRegs w' ∧
        w.sameBut w' o.d 2 (c.active w o.ctl) ∧ w'.fpstat = w.fpstat ∧ w'.pr = w.pr ∧
        ∀ l, l < 32 → c.writes o.d (c.active w o.ctl) l = true →
          w'.dst true o.d l = (c.word w l o.a).toNat % 2 ^ 20 * 2 ^ 44 + c.bits w .b64 l o.b) ∧
    (∀ o : Bin, (Instr.padd o).wf = true →
      let off (l : Nat) : Int := (c.bits w .b64 l o.a % 2 ^ 44 : Nat) + o.ty.num (o.ty.eltBits (c.bits w o.ty l o.b) 0)
      (∀ l, l < 32 → c.computes o.d (c.active w o.ctl) l = true → 0 ≤ off l ∧ off l < 2 ^ 44) →
      ∃ w', exec (.padd o) s = .next (s.done c w') ∧ s.onlyWave (s.done c w') c.wave ∧ w.onlyRegs w' ∧
        w.sameBut w' o.d 2 (c.active w o.ctl) ∧ w'.fpstat = w.fpstat ∧ w'.pr = w.pr ∧
        ∀ l, l < 32 → c.writes o.d (c.active w o.ctl) l = true →
          (w'.dst true o.d l : Int) = (c.bits w .b64 l o.a / 2 ^ 44 * 2 ^ 44 : Nat) + off l) ∧
    (∀ o : Un, (Instr.pseg o).wf = true → ∃ w', exec (.pseg o) s = .next (s.done c w') ∧
      ∀ l, l < 32 → c.writes o.d (c.active w o.ctl) l = true → w'.dst false o.d l = c.bits w .b64 l o.a / 2 ^ 44) ∧
    (∀ o : Un, (Instr.poff o).wf = true → ∃ w', exec (.poff o) s = .next (s.done c w') ∧
      ∀ l, l < 32 → c.writes o.d (c.active w o.ctl) l = true → w'.dst true o.d l = c.bits w .b64 l o.a % 2 ^ 44)

/-- A PADD or SEGA lane that leaves the 44-bit offset makes the instruction raise OFFOVF before itself: FAULTMASK holds the faulting
lanes, and FADDR for each its a operand (PADD) or b operand (SEGA). With an S destination the mask is `active`, or lane 0. -/
def OffsetOverflowTraps : Prop :=
  ∀ (o : Bin) (s : State) (c : Cur) (w : Wave), s.runs c w →
    ∀ p ∈ ([(.sega o, o.b, fun l => decide (2 ^ 44 ≤ c.bits w .b64 l o.b)),
        (.padd o, o.a, fun l => let t : Int := (c.bits w .b64 l o.a % 2 ^ 44 : Nat) + o.ty.num (o.ty.eltBits (c.bits w o.ty l o.b) 0)
          decide (t < 0 ∨ 2 ^ 44 ≤ t))] : List (Instr × Src × (Nat → Bool))), p.1.wf = true →
      (∃ l, l < 32 ∧ c.computes o.d (c.active w o.ctl) l = true ∧ p.2.2 l = true) →
      exec p.1 s = .next (if o.d.uni
        then s.fault c w 0x0A 0 (orLane0 (c.active w o.ctl))
          ((lanesOf (orLane0 (c.active w o.ctl))).map fun l => (l, (BitVec.ofNat 64 (c.bits w .b64 0 p.2.1) : DWord)))
        else s.fault c w 0x0A 0 (maskWhere fun l => laneOf (c.active w o.ctl) l && p.2.2 l)
          (((lanesOf (c.active w o.ctl)).filter p.2.2).map fun l => (l, (BitVec.ofNat 64 (c.bits w .b64 l p.2.1) : DWord))))

/-! ### Floating point (chapters 04, 05) -/

/-- The arithmetic with two sources, FADD, FSUB, FMUL, FDIV, HADD2 and HMUL2: each element is the exact result rounded once by RM into
the type, and FPSTAT gains exactly the exceptions of the elements computed. -/
def FloatTwoSources : Prop :=
  ∀ (o : Bin) (s : State) (c : Cur) (w : Wave), s.runs c w →
    ∀ p ∈ ([(.fadd o, fun a b => (exAdd o.rm a b, 0)), (.fsub o, fun a b => (exAdd o.rm a b.neg, 0)), (.fmul o, fun a b => (exMul a b, 0)),
        (.fdiv o, exDiv), (.hadd2 o, fun a b => (exAdd o.rm a b, 0)), (.hmul2 o, fun a b => (exMul a b, 0))] :
        List (Instr × (Ex → Ex → Ex × Nat))), p.1.wf = true →
      let x (l i : Nat) (r : Src) : Ex := unpackFp o.ty.fpf (o.ty.eltBits (c.bits w o.ty l r) i).toNat
      let y (l i : Nat) : Ex × Nat := p.2 (x l i o.a) (x l i o.b)
      let z (l i : Nat) : FRes := finishFp o.ty.fpf o.rm o.sat (s.laneWord (c.reads w) o.rm l i) (y l i).1
      ∃ w', exec p.1 s = .next (s.done c w') ∧
        (∀ l i, l < 32 → i < o.ty.elts → c.writes o.d (c.active w o.ctl) l = true →
          o.ty.eltBits (w'.dst false o.d l) i = BitVec.ofNat o.ty.elt (z l i).bits) ∧
        ∀ k, k < 32 → (w'.fpstat.getLsbD k = true ↔ w.fpstat.getLsbD k = true ∨
          ∃ l i, l < 32 ∧ i < o.ty.elts ∧ c.computes o.d (c.active w o.ctl) l = true ∧ ((z l i).flags ||| (y l i).2).testBit k = true)

/-- The fused forms FFMA and HFMA2 and FSQRT likewise: a × b + c rounded once, with d as it was for c in the mirror forms. -/
def FusedAndRoot : Prop :=
  ∀ (s : State) (c : Cur) (w : Wave), s.runs c w →
    (∀ o : Tri, ∀ i ∈ [Instr.ffma o, .hfma2 o], i.wf = true →
      let x (l j : Nat) (r : Src) : Ex := unpackFp o.ty.fpf (o.ty.eltBits (c.bits w o.ty l r) j).toNat
      let z (l j : Nat) : FRes := finishFp o.ty.fpf o.rm o.sat (s.laneWord (c.reads w) o.rm l j)
        (exAdd o.rm (exMul (x l j o.a) (x l j o.b)) (x l j o.c))
      ∃ w', exec i s = .next (s.done c w') ∧
        (∀ l j, l < 32 → j < o.ty.elts → c.writes o.d (c.active w o.ctl) l = true →
          o.ty.eltBits (w'.dst false o.d l) j = BitVec.ofNat o.ty.elt (z l j).bits) ∧
        ∀ k, k < 32 → (w'.fpstat.getLsbD k = true ↔ w.fpstat.getLsbD k = true ∨
          ∃ l j, l < 32 ∧ j < o.ty.elts ∧ c.computes o.d (c.active w o.ctl) l = true ∧ (z l j).flags.testBit k = true)) ∧
    (∀ o : Bin, exec (.ffmaD o) s = exec (.ffma { ctl := o.ctl, d := o.d, a := o.a, b := o.b, c := o.d.asSrc, ty := o.ty, rm := o.rm, sat := o.sat }) s ∧
      exec (.hfma2D o) s = exec (.hfma2 { ctl := o.ctl, d := o.d, a := o.a, b := o.b, c := o.d.asSrc, ty := o.ty, rm := o.rm, sat := o.sat }) s) ∧
    (∀ o : Un, (Instr.fsqrt o).wf = true →
      let z (l : Nat) : FRes := finishFp fp32 o.rm o.sat (s.laneWord (c.reads w) o.rm l 0) (exSqrt (unpackFp fp32 (c.word w l o.a).toNat))
      ∃ w', exec (.fsqrt o) s = .next (s.done c w') ∧
        (∀ l, l < 32 → c.writes o.d (c.active w o.ctl) l = true → w'.dst false o.d l = (z l).bits % 2 ^ 32) ∧
        ∀ k, k < 32 → (w'.fpstat.getLsbD k = true ↔ w.fpstat.getLsbD k = true ∨
          ∃ l, l < 32 ∧ c.computes o.d (c.active w o.ctl) l = true ∧ (z l).flags.testBit k = true))

/-- FCMP's relations: on numbers as their values compare, both zeros equal; with a NaN the plain relations are false, the unordered ones
true. -/
def FloatCompare : Prop :=
  ∀ (o : Cmp) (s : State) (c : Cur) (w : Wave) (l : Nat), s.runs c w → l < 32 → (Instr.fcmp o).wf = true → laneOf (c.active w o.ctl) l = true →
    ∃ w', exec (.fcmp o) s = .next (s.done c w') ∧
      let a := c.word w l o.a
      let b := c.word w l o.b
      let un := fpIsNan a = true ∨ fpIsNan b = true
      let x := fpKey0 a
      let y := fpKey0 b
      (laneOf (w'.p o.d) l = true ↔ match o.cond with
        | .eq => ¬un ∧ x = y | .ne => ¬un ∧ x ≠ y | .lt => ¬un ∧ x < y | .le => ¬un ∧ x ≤ y | .gt => ¬un ∧ x > y | .ge => ¬un ∧ x ≥ y
        | .equ => un ∨ x = y | .neu => un ∨ x ≠ y | .ltu => un ∨ x < y | .leu => un ∨ x ≤ y | .gtu => un ∨ x > y | .geu => un ∨ x ≥ y
        | .num => ¬un | .nan => un)

/-- F2I rounds by RM and clamps to the destination's range; I2F and FCVT round the exact value once into the destination; QNT rounds
a × b into the element format, DQNT element × b into F32. -/
def Conversions : Prop :=
  ∀ (s : State) (c : Cur) (w : Wave) (l : Nat), s.runs c w → l < 32 →
    (∀ o : CvtT, (Instr.f2i o).wf = true → c.writes o.d (c.active w o.ctl) l = true → ∃ w', exec (.f2i o) s = .next (s.done c w') ∧
      o.dst.eltBits (w'.dst o.dst.wide o.d l) 0 = BitVec.ofInt o.dst.elt
        (finishInt o.dst.lo o.dst.hi o.rm (s.laneWord (c.reads w) o.rm l 0) (unpackFp o.src.fpf (o.src.eltBits (c.word w l o.a).toNat 0).toNat)).1) ∧
    (∀ o : CvtT, (Instr.i2f o).wf = true → c.writes o.d (c.active w o.ctl) l = true → ∃ w', exec (.i2f o) s = .next (s.done c w') ∧
      o.dst.eltBits (w'.dst false o.d l) 0 = BitVec.ofNat o.dst.elt
        (finishFp o.dst.fpf o.rm o.sat (s.laneWord (c.reads w) o.rm l 0) (exInt (o.src.num (o.src.eltBits (c.bits w o.src l o.a) 0)))).bits) ∧
    (∀ o : CvtF, (Instr.fcvt o).wf = true → c.writes o.d (c.active w o.ctl) l = true → ∃ w', exec (.fcvt o) s = .next (s.done c w') ∧
      w'.dst false o.d l = (finishElt o.dst o.rm o.sat (s.laneWord (c.reads w) o.rm l 0)
        (unpackElt o.src ((c.word w l o.a).toNat % 2 ^ o.src.bits))).bits % 2 ^ 32) ∧
    (∀ o : CvtP, (Instr.qnt o).wf = true → c.writes o.d (c.active w o.ctl) l = true → ∃ w', exec (.qnt o) s = .next (s.done c w') ∧
      w'.dst false o.d l = (finishElt o.fmt o.rm o.sat (s.laneWord (c.reads w) o.rm l 0)
        (exMul (unpackFp fp32 (c.word w l o.a).toNat) (unpackFp fp32 (c.word w l o.b).toNat))).bits % 2 ^ 32) ∧
    (∀ o : CvtP, (Instr.dqnt o).wf = true → c.writes o.d (c.active w o.ctl) l = true → ∃ w', exec (.dqnt o) s = .next (s.done c w') ∧
      w'.dst false o.d l = (finishFp fp32 o.rm o.sat (s.laneWord (c.reads w) o.rm l 0)
        (exMul (unpackElt o.fmt ((c.word w l o.a).toNat % 2 ^ o.fmt.bits)) (unpackFp fp32 (c.word w l o.b).toNat))).bits % 2 ^ 32)

/-- FPK rounds source register a + i into element i of its packed words, and FUPK writes element i of its packed words into register
d + i: with FMT 0 as the F32 value, with an integer source code as the integer. -/
def PackAndUnpack : Prop :=
  ∀ (s : State) (c : Cur) (w : Wave) (l : Nat), s.runs c w → l < 32 →
    (∀ o : CvtP, (Instr.fpk o).wf = true → c.writes o.d (c.active w o.ctl) l = true → ∃ w', exec (.fpk o) s = .next (s.done c w') ∧
      let g := (w'.dst false o.d l) + (if o.fmt.packed = 3 then (w'.dst false (o.d.plus 1) l) * 2 ^ 32 + (w'.dst false (o.d.plus 2) l) * 2 ^ 64 else 0)
      ∀ i, i < o.fmt.count → g / 2 ^ (o.fmt.bits * i) % 2 ^ o.fmt.bits =
        (finishElt o.fmt o.rm o.sat (s.laneWord (c.reads w) o.rm l i) (unpackFp fp32 (c.word w l (o.a.plus i)).toNat)).bits % 2 ^ o.fmt.bits) ∧
    (∀ o : CvtF, (Instr.fupk o).wf = true → c.writes o.d (c.active w o.ctl) l = true → ∃ w', exec (.fupk o) s = .next (s.done c w') ∧
      let g := (c.word w l o.a).toNat +
        (if o.src.packed = 3 then (c.word w l (o.a.plus 1)).toNat * 2 ^ 32 + (c.word w l (o.a.plus 2)).toNat * 2 ^ 64 else 0)
      ∀ i, i < o.src.count →
        let e := g / 2 ^ (o.src.bits * i) % 2 ^ o.src.bits
        (o.dst = .fp32 → w'.dst false (o.d.plus i) l = (finishFp fp32 .rn false 0 (unpackElt o.src e)).bits % 2 ^ 32) ∧
        (o.dst = o.src → o.src.isInt = true → badT2 o.src e = false →
          w'.dst false (o.d.plus i) l = (if o.src = .n8 then e else ((BitVec.ofNat o.src.bits e).signExtend 32).toNat)))

/-- The approximations answer one fixed function of the input bits and RM, whatever the state, the lane or the destination; a NaN gives
the canonical NaN, and the zeros and infinities give the values of the table. -/
def ApproximationsAreFixed : Prop :=
  ∃ f : Nat → RM → Word → Word,
    (∀ (o : Un) (s : State) (c : Cur) (w : Wave), s.runs c w →
      ∀ p ∈ [(0, Instr.frcp o), (1, .frsq o), (2, .fexp2 o), (3, .flog2 o), (4, .fsin o), (5, .fcos o), (6, .ftanh o)], p.2.wf = true →
        ∃ w', exec p.2 s = .next (s.done c w') ∧ ∀ l, l < 32 → c.writes o.d (c.active w o.ctl) l = true →
          w'.dst false o.d l = (f p.1 o.rm (c.word w l o.a)).toNat) ∧
    (∀ n rm x, n < 7 → fpIsNan x = true → f n rm x = 0x7FC00000#32) ∧
    (∀ rm, f 0 rm 0 = 0x7F800000#32 ∧ f 0 rm 0x80000000#32 = 0xFF800000#32 ∧ f 0 rm 0x7F800000#32 = 0 ∧ f 0 rm 0xFF800000#32 = 0x80000000#32 ∧
      f 1 rm 0 = 0x7F800000#32 ∧ f 1 rm 0x80000000#32 = 0xFF800000#32 ∧ f 1 rm 0x7F800000#32 = 0 ∧ f 1 rm 0xFF800000#32 = 0x7FC00000#32 ∧
      f 2 rm 0 = 0x3F800000#32 ∧ f 2 rm 0xFF800000#32 = 0 ∧ f 2 rm 0x7F800000#32 = 0x7F800000#32 ∧ f 2 rm 0x40000000#32 = 0x40800000#32 ∧
      f 3 rm 0 = 0xFF800000#32 ∧ f 3 rm 0x80000000#32 = 0xFF800000#32 ∧ f 3 rm 0x7F800000#32 = 0x7F800000#32 ∧ f 3 rm 0x41000000#32 = 0x40400000#32 ∧
      f 4 rm 0 = 0 ∧ f 4 rm 0x80000000#32 = 0x80000000#32 ∧ f 4 rm 0x7F800000#32 = 0x7FC00000#32 ∧
      f 5 rm 0 = 0x3F800000#32 ∧ f 5 rm 0x80000000#32 = 0x3F800000#32 ∧ f 5 rm 0xFF800000#32 = 0x7FC00000#32 ∧
      f 6 rm 0 = 0 ∧ f 6 rm 0x80000000#32 = 0x80000000#32 ∧ f 6 rm 0x7F800000#32 = 0x3F800000#32 ∧ f 6 rm 0xFF800000#32 = 0xBF800000#32)

/-! ### Predicates and lanes (chapter 05) -/

/-- PLOP writes, at each active lane, the bit of its table that the two source predicates select. -/
def PredicateLogic : Prop :=
  ∀ (o : Plop) (s : State) (c : Cur) (w : Wave), s.runs c w → (Instr.plop o).wf = true →
    ∃ w', exec (.plop o) s = .next (s.done c w') ∧ ∀ l, l < 32 → laneOf (c.active w o.ctl) l = true →
      laneOf (w'.p o.d) l = o.lut.getLsbD (2 * (laneOf ((c.reads w).p o.a) l).toNat + (laneOf ((c.reads w).p o.b) l).toNat)

/-- SHFL: an active lane receives a of the lane it names, or its own where that lane lies outside the wave (the half, under compat16) or
is not active; no lane outside its half is read. -/
def Shuffle : Prop :=
  ∀ (o : Shfl) (s : State) (c : Cur) (w : Wave) (n l : Nat), s.runs c w → (Instr.shfl o).wf = true → o.d = .v n → l < 32 →
    laneOf (c.active w o.ctl) l = true →
    ∃ w', exec (.shfl o) s = .next (s.done c w') ∧
      let width := if (c.reads w).c16 then 16 else 32
      let first := l / width * width
      let b : Int := (c.word w l o.b).toNat
      let k : Int := c.laneNo w l
      let src : Int := match o.sub with
        | .idx => b | .up => k - b | .down => k + b | .xor => ((c.laneNo w l ^^^ (c.word w l o.b).toNat : Nat) : Int)
      let ty := if o.w64 then Ty.b64 else .b32
      w'.dst o.w64 o.d l =
        if 0 ≤ src ∧ src < width ∧ laneOf (c.active w o.ctl) (first + src.toNat) = true then c.bits w ty (first + src.toNat) o.a
        else c.bits w ty l o.a

/-- VRED and VSCAN on integers: the wrapped sum, the least, the greatest or the bitwise combination over the active lanes (up to the
lane, or below it, for a scan), and the empty value where there is none. -/
def ReduceAndScan : Prop :=
  ∀ (o : Red) (s : State) (c : Cur) (w : Wave) (l : Nat), s.runs c w → o.ty ≠ .f32 → l < 32 → c.writes o.d (c.active w o.ctl) l = true →
    ∀ p ∈ [(Instr.vred o, c.peers w o.ctl l), (.vscan o, (c.peers w o.ctl l).filter fun j => if o.exc then decide (j < l) else decide (j ≤ l))],
      p.1.wf = true → ∃ w', exec p.1 s = .next (s.done c w') ∧
        let x (j : Nat) : BitVec o.ty.elt := o.ty.eltBits (c.bits w o.ty j o.a) 0
        let lo : Int := if o.ty.signed then -2 ^ (o.ty.elt - 1) else 0
        let hi : Int := if o.ty.signed then 2 ^ (o.ty.elt - 1) - 1 else 2 ^ o.ty.elt - 1
        o.ty.eltBits (w'.dst o.ty.wide o.d l) 0 = match o.op with
          | .add => (p.2.map x).foldr (· + ·) 0
          | .min => BitVec.ofInt o.ty.elt ((p.2.map fun j => o.ty.num (x j)).foldr min hi)
          | .max => BitVec.ofInt o.ty.elt ((p.2.map fun j => o.ty.num (x j)).foldr max lo)
          | .and => (p.2.map x).foldr (· &&& ·) (~~~0)
          | .or => (p.2.map x).foldr (· ||| ·) 0
          | .xor => (p.2.map x).foldr (· ^^^ ·) 0

/-- VOTE, BALLOT, ELECT and MATCH over the active lanes, or over those of the lane's half under compat16. -/
def VoteBallotElectMatch : Prop :=
  ∀ (s : State) (c : Cur) (w : Wave), s.runs c w →
    (∀ o : Vote, (Instr.vote o).wf = true → ∃ w', exec (.vote o) s = .next (s.done c w') ∧
      ∀ l, l < 32 → laneOf (c.active w o.ctl) l = true →
        let q (j : Nat) : Prop := laneOf ((c.reads w).p o.a) j = true
        (laneOf (w'.p o.d) l = true ↔ match o.sub with
          | .all => ∀ j ∈ c.peers w o.ctl l, q j
          | .any => ∃ j ∈ c.peers w o.ctl l, q j
          | .eq => (∀ j ∈ c.peers w o.ctl l, q j) ∨ ∀ j ∈ c.peers w o.ctl l, ¬q j)) ∧
    (∀ o : Ballot, (Instr.ballot o).wf = true → ∃ w', exec (.ballot o) s = .next (s.done c w') ∧
      ∀ l, l < 32 → c.writes o.d (c.active w o.ctl) l = true →
        ∀ k, k < 32 → ((w'.dst false o.d l).testBit k = true ↔
          ∃ j ∈ c.peers w o.ctl l, c.laneNo w j = k ∧ laneOf ((c.reads w).p o.a) j = true)) ∧
    (∀ ctl d, (Instr.elect ctl d).wf = true → ∃ w', exec (.elect ctl d) s = .next (s.done c w') ∧
      ∀ l, l < 32 → laneOf (c.active w ctl) l = true → (laneOf (w'.p d) l = true ↔ ∀ j ∈ c.peers w ctl l, l ≤ j)) ∧
    (∀ o : Match, (Instr.matchOp o).wf = true → ∃ w', exec (.matchOp o) s = .next (s.done c w') ∧
      let a (j : Nat) : Nat := c.bits w (if o.w64 then .b64 else .b32) j o.a
      ∀ l, l < 32 → c.writes o.d (c.active w o.ctl) l = true →
        ∀ k, k < 32 → ((w'.dst false o.d l).testBit k = true ↔
          ∃ j ∈ c.peers w o.ctl l, c.laneNo w j = k ∧ if o.all then ∀ i ∈ c.peers w o.ctl l, a i = a l else a j = a l))

/-! ### Control flow (chapters 07, 08) -/

/-- The branch step: no lane taken continues at the fall-through; all taken moves the whole split; else the lowest free entry takes the
lanes under a pair of JOIN frames, or, with none free (and always in a handler), they wait in a DEFER frame. Other entries stay. -/
def BranchStep : Prop :=
  ∀ (w : Wave) (e : Nat) (mt : LaneMask) (t f k : Nat), e ≤ 8 → (w.split e).valid = true →
    let x := w.split e
    let w' := w.branch e mt t f k
    let fr (kind link : Nat) (orig : Bool) (m : LaneMask) (dpc : Nat) : Frame :=
      { maska := m, maskb := m, dpc := dpc, outer := x.rpc, noouter := x.norpc, orig := orig, link := link, kind := kind }
    let stay (g : Frame) : Split := { x with lanes := x.lanes &&& ~~~mt, em := x.em &&& ~~~mt, pc := f, widx := 0, wait := none, rpc := k,
                                             norpc := false, frames := x.frames ++ [g] }
    w.onlySplits w' ∧
    (mt = 0 → w'.split e = { x with pc := f, widx := 0, wait := none } ∧ ∀ j, j ≠ e → w'.split j = w.split j) ∧
    (mt ≠ 0 → mt = x.em → w'.split e = { x with pc := t, widx := 0, wait := none } ∧ ∀ j, j ≠ e → w'.split j = w.split j) ∧
    (mt ≠ 0 → mt ≠ x.em →
      (∀ i, e ≠ 8 → i < 8 → (w.split i).valid = false → (∀ j, j < i → (w.split j).valid = true) →
        w'.split e = stay (fr 0 i true 0 0) ∧
        w'.split i = { x with lanes := mt, em := mt, pc := t, widx := 0, wait := none, rpc := k, norpc := false, frames := x.frames ++ [fr 0 e false 0 0] } ∧
        ∀ j, j ≠ e → j ≠ i → w'.split j = w.split j) ∧
      (e = 8 ∨ (∀ j, j < 8 → (w.split j).valid = true) →
        w'.split e = stay (fr 1 0 false mt t) ∧ ∀ j, j ≠ e → w'.split j = w.split j))

/-- BRA and CALL perform the branch step for the lanes of EM whose condition holds, at the displacement's target; CALL first writes the
return address, the selector of the code with the next instruction's offset, to its pair at the lanes that call. -/
def DirectBranches : Prop :=
  ∀ (s : State) (c : Cur) (w : Wave), s.ready c w →
    (∀ o : Bra, (Instr.bra o).wf = true → (c.taken w o.ctl = 0 ∨ c.taken w o.ctl = (c.split w).em ∨ (c.split w).frames.length < 16) → (c.taken w o.ctl = 0 ∨ s.codeTarget c w (c.at w o.tgt)) →
      exec (.bra o) s = .next (s.putWave c.wave
        (w.branch c.entry (c.taken w o.ctl) (c.at w o.tgt).toNat c.next (c.at w o.rc % 2 ^ 44).toNat))) ∧
    (∀ o : CallT, (Instr.call o).wf = true → (c.taken w o.ctl = 0 ∨ c.taken w o.ctl = (c.split w).em ∨ (c.split w).frames.length < 16) →
      (c.taken w o.ctl = 0 ∨ s.codeTarget c w (c.at w o.tgt)) →
      ∃ w1, exec (.call o) s = .next (s.putWave c.wave (w1.branch c.entry (c.taken w o.ctl) (c.at w o.tgt).toNat c.next c.next)) ∧
        w.onlyRegs w1 ∧ w.sameBut w1 (.v o.d) 2 (c.taken w o.ctl) ∧ w1.pr = w.pr ∧ w1.fpstat = w.fpstat ∧
        ∀ l, l < 32 → laneOf (c.taken w o.ctl) l = true → w1.v64 o.d l = segAddr w.codesel c.next)

/-- BRX and CALLX: with no lane taken BRX continues at its reconvergence address and CALLX at the next instruction; else one branch step
for each group of lanes with one target, in the order of their lowest lanes. -/
def IndexedBranches : Prop :=
  ∀ (s : State) (c : Cur) (w : Wave) (a : Reg) (ctl : Ctl), s.ready c w →
    let rem := c.taken w ctl
    let ls := lanesOf rem
    let gs := (ls.filter fun l => ls.all fun j => l ≤ j || w.reg64 a j != w.reg64 a l).map fun l =>
      (maskWhere fun j => ls.contains j && w.reg64 a j == w.reg64 a l, offOf (w.reg64 a l))
    let steps (w0 : Wave) (rc : Nat) : Wave := gs.foldl (fun v g => v.branch c.entry g.1 g.2 c.next rc) w0
    (∀ l, laneOf rem l = true → selOf (w.reg64 a l) = w.codesel ∧ s.codeTarget c w (offOf (w.reg64 a l))) →
    (c.split w).frames.length + gs.length ≤ (if rem = (c.split w).em then 17 else 16) →
    (∀ o : Brx, (Instr.brx o).wf = true → o.ctl = ctl → o.a = a →
      let rc := (c.at w o.rc % 2 ^ 44).toNat
      exec (.brx o) s = .next (s.putWave c.wave
        (if rem = 0 then w.modSplit c.entry fun x => { x with pc := rc, widx := 0, wait := none } else steps w rc))) ∧
    (∀ o : CallX, (Instr.callx o).wf = true → o.ctl = ctl → o.a = a →
      ∃ w1, exec (.callx o) s = .next (s.putWave c.wave
          (if rem = 0 then w.modSplit c.entry fun x => { x with pc := c.next, widx := 0, wait := none } else steps w1 c.next)) ∧
        w.onlyRegs w1 ∧ w.sameBut w1 (.v o.d) 2 rem ∧ ∀ l, l < 32 → laneOf rem l = true → w1.v64 o.d l = segAddr w.codesel c.next)

/-- BRA.DEC lowers its counter by one, wrapping, and branches as BRAU does while the counter is not zero, to its literal target or to the one
address that the lanes of EM hold, UNIFORM where they differ. RET moves the split to the one
address its lanes hold, or the lowest lane of LANES holds when EM is empty; an address in another segment changes CODESEL and pops the top
link frame, if there is one. -/
def CountedBranchAndReturn : Prop :=
  ∀ (s : State) (c : Cur) (w : Wave), s.ready c w →
    (∀ o : BraDec, (Instr.braDec o).wf = true → (w.s o.d = 1 ∨ (c.split w).em = 0 ∨ s.codeTarget c w (c.at w o.tgt)) →
      ∃ w1, exec (.braDec o) s = .next (s.putWave c.wave (w1.modSplit c.entry fun x =>
          { x with pc := if w.s o.d = 1 ∨ (c.split w).em = 0 then c.next else (c.at w o.tgt).toNat, widx := 0, wait := none })) ∧
        w.onlyRegs w1 ∧ w.sameBut w1 (.s o.d) 1 0 ∧ w1.pr = w.pr ∧ w1.s o.d = w.s o.d - 1) ∧
    (∀ o : BraDecReg, (Instr.braDecReg o).wf = true →
      let em := (c.split w).em
      let goes (pc : Nat) : Prop := ∃ w1, exec (.braDecReg o) s = .next (s.putWave c.wave (w1.modSplit c.entry fun x =>
          { x with pc := pc, widx := 0, wait := none })) ∧
        w.onlyRegs w1 ∧ w.sameBut w1 (.s o.d) 1 0 ∧ w1.pr = w.pr ∧ w1.s o.d = w.s o.d - 1
      (w.s o.d = 1 ∨ em = 0 → goes c.next) ∧
      (w.s o.d ≠ 1 → differ em (w.reg64 o.a) ≠ 0 → exec (.braDecReg o) s = .next (s.fault c w 0x06 0 (differ em (w.reg64 o.a)) [])) ∧
      (∀ t, w.s o.d ≠ 1 → em ≠ 0 → (∀ l, laneOf em l = true → w.reg64 o.a l = t) → selOf t = w.codesel → s.codeTarget c w (offOf t) →
        goes (offOf t))) ∧
    (∀ (o : RegTgt) (t : DWord) (b : List Byte), (Instr.ret o).wf = true →
      ((c.split w).em ≠ 0 → ∀ l, laneOf (c.split w).em l = true → w.reg64 o.a l = t) →
      ((c.split w).em = 0 → w.reg64 o.a (lowestLane (c.split w).lanes) = t) →
      s.descBytes (s.who c w) (selOf t) = .ok b → offOf t < (descOf b).limit →
      let w1 := w.modSplit c.entry fun x => { x with pc := offOf t, widx := 0, wait := none }
      (selOf t = w.codesel → exec (.ret o) s = .next (s.putWave c.wave w1)) ∧
      (selOf t ≠ w.codesel → w.links = [] → exec (.ret o) s = .next (s.putWave c.wave { w1 with codesel := selOf t })) ∧
      (∀ fs f, selOf t ≠ w.codesel → w.links = fs ++ [f] → w.converged c.entry = true →
        exec (.ret o) s = .next ((s.putWave c.wave { w1 with codesel := selOf t, links := fs }).dropPin
          (partOfKey c.wave) (s.who c w).ctx f)) ∧
      (selOf t ≠ w.codesel → w.links ≠ [] → w.converged c.entry = false →
        exec (.ret o) s = .next (s.fault c w 0x0E 7 (orLane0 (c.split w).em) [])))

/-- EXIT ends the active lanes and END every lane of the split: they leave every entry and every frame, the rest of the split stands at
the next instruction, and the wave's unresolved guard slots read FALSE once its last lane is gone; then the team's barriers are tested. An
EXIT with no active lane only moves on. -/
def EndingLanes : Prop :=
  ∀ (s : State) (c : Cur) (w : Wave), s.ready c w →
    (∀ ctl, (Instr.exit ctl).wf = true → w.actLanes (c.split w) ctl.pred ctl.neg = 0 → exec (.exit ctl) s = .next (s.done c w)) ∧
    ∀ (i : Instr) (ctl : Ctl) (m : LaneMask), i.wf = true →
      (i = .exit ctl ∧ m = w.actLanes (c.split w) ctl.pred ctl.neg ∧ m ≠ 0 ∨ i = .endOp ctl ∧ m = (c.split w).lanes) →
      ∃ w', exec i s = .next ((s.putWave c.wave w').testBars w.team) ∧
        w' = { w with splits := w'.splits, handler := w'.handler, guards := w'.guards } ∧
        (∀ e, e ≤ 8 → let x := (w.advance c).split e
          w'.split e = { x with lanes := x.lanes &&& ~~~m, em := x.em &&& ~~~m,
                                frames := x.frames.map fun f => { f with maska := f.maska &&& ~~~m, maskb := f.maskb &&& ~~~m } }) ∧
        ∀ k, k < 8 → tget 0 w'.guards k = if tget 0 w.guards k = 0 ∧ w'.liveLanes = 0 then 2 else tget 0 w.guards k

/-- What waits for nothing moves on: YIELD and NOP always, WAITF when every flag of its mask is at the limit or below (a mask of zero
waits for none), SLEEP 0, a SLEEP whose deadline has passed; else WAITF and SLEEP hold their split, SLEEP until GTS has passed the GTS at
issue plus a's ticks. -/
def Waiting : Prop :=
  ∀ (s : State) (c : Cur) (w : Wave) (ctl : Ctl), s.ready c w →
    (∀ i ∈ [Instr.yield ctl, .nop ctl, .nopZ32 ctl.pred ctl.neg], exec i s = .next (s.done c w)) ∧
    (∀ a limit, (Instr.waitf ctl a limit).wf = true →
      ((∀ k, k < 12 → (w.src (c.split w) 0 a).getLsbD k = true → w.flag k ≤ limit) → exec (.waitf ctl a limit) s = .next (s.done c w)) ∧
      ((∃ k, k < 12 ∧ (w.src (c.split w) 0 a).getLsbD k = true ∧ limit < w.flag k) →
        exec (.waitf ctl a limit) s = .next (s.hold c w { kind := 1, arg := 0, dead := 0, done := false }))) ∧
    (∀ a, (Instr.sleep ctl a).wf = true →
      ((c.split w).wait = none → w.src (c.split w) 0 a = 0 → exec (.sleep ctl a) s = .next (s.done c w)) ∧
      (∀ r, (c.split w).wait = some r → (r.done || s.passed r.dead) = true → exec (.sleep ctl a) s = .next (s.done c w)) ∧
      ((c.split w).wait = none → w.src (c.split w) 0 a ≠ 0 → exec (.sleep ctl a) s = .next (s.hold c w
        { kind := 7, arg := 0, dead := (s.gts + (w.src (c.split w) 0 a).toNat) % 2 ^ 64, done := false })))

/-- BAR and BARA first release at TEAM scope and wait for the release; then they add the split's whole LANES to the wave's arrived set, or,
where lanes are in it already, wait for the next phase and do so then. BARA completes there and records the phase of its arrival; BAR waits,
and with the barrier completed moves on with an acquire; BARW moves on so once the phase it recorded has passed, or when nothing is recorded,
and else waits. A handler's BAR, BARA and BARW move on and touch no barrier: the rule forbids a handler BAR, and log 68 is the model's choice. -/
def Barriers : Prop :=
  ∀ (s : State) (c : Cur) (w : Wave) (t : Team) (ctl : Ctl) (n : Nat), s.ready c w → s.team? w.team = some t → n < 16 →
    let acq (s : State) : State := s.acquire (clusterOfKey c.wave) 1
    let x := c.split w
    let passed : Prop := w.baraV.contains n = false ∨ serialLt 32 (tget 0 w.bara n) (t.bar n).phase = true
    (c.entry < 8 →
      (∀ i ∈ [Instr.bar ctl n, .bara ctl n], x.wait = none → exec i s = .next (s.barRelease c w)) ∧
      (∀ r, x.wait = some r → (r.kind ≠ 2 ∧ tfind w.ops r.arg = none) ∨ (r.kind = 2 ∧ r.done = true ∧ 16 ≤ r.arg) →
        (tget 0 (t.bar n).arrived w.wid &&& x.lanes = 0 →
          let s1 := s.putTeam w.team (t.arriveBar n w.wid x.lanes)
          exec (.bara ctl n) s = .next ((s1.done c { w with bara := tset 0 w.bara n (t.bar n).phase, baraV := sins w.baraV n }).testBar w.team n) ∧
          exec (.bar ctl n) s = .next ((s1.hold c w { kind := 2, arg := n, dead := 0, done := false }).testBar w.team n)) ∧
        (tget 0 (t.bar n).arrived w.wid &&& x.lanes ≠ 0 → ∀ i ∈ [Instr.bar ctl n, .bara ctl n],
          exec i s = .next (s.hold c w { kind := 2, arg := 16 + n, dead := 0, done := false }))) ∧
      (∀ r, x.wait = some r → r.kind = 2 → r.done = true → r.arg < 16 → exec (.bar ctl n) s = .next (acq (s.done c w))) ∧
      (∀ r, x.wait = some r → r.kind = 2 → r.done = false → ∀ i ∈ [Instr.bar ctl n, .bara ctl n], exec i s = .next s) ∧
      (¬passed → exec (.barw ctl n) s = .next (s.hold c w { kind := 3, arg := n, dead := 0, done := false }))) ∧
    (passed → exec (.barw ctl n) s = .next (acq (s.done c w))) ∧
    (c.entry = 8 → ∀ i ∈ [Instr.bar ctl n, .bara ctl n, .barw ctl n], ∃ s' w', exec i s = .next s' ∧ s'.teams = s.teams ∧
      s'.wave? c.wave = some w' ∧ (w'.split 8).pc = c.next ∧ (w'.split 8).wait = none)

/-- A barrier completes when every wave of the team that holds a lane, resident or saved, has arrived with every lane it has not exited: the
phase goes up by one, every arrived set is empty, and the splits that wait for it in BAR or BARW are done waiting; while one has not, nothing
changes. -/
def BarrierCompletes : Prop :=
  ∀ (s : State) (k n : Nat) (t : Team) (b : Barrier), s.team? k = some t → tfind t.bars n = some b →
    let lives (wid : Nat) (m : LaneMask) : Prop := m ≠ 0 ∧
      ((∃ p w, p ∈ t.wkeys ∧ s.wave? p.2 = some w ∧ w.wid = wid ∧ w.liveLanes = m) ∨ ∃ v ∈ t.saved, v.1 = wid ∧ v.2.live = m)
    ((∃ wid m, lives wid m ∧ m &&& ~~~(tget 0 b.arrived wid) ≠ 0) → s.testBar k n = s) ∧
    ((∃ wid m, lives wid m) → (∀ wid m, lives wid m → m &&& ~~~(tget 0 b.arrived wid) = 0) →
      ∃ t', (s.testBar k n).team? k = some t' ∧ t' = { t with bars := t'.bars } ∧
        tfind t'.bars n = some { phase := (b.phase + 1) % 2 ^ 32, arrived := [] } ∧ (∀ j, j ≠ n → tfind t'.bars j = tfind t.bars j) ∧
        ∀ p ∈ t.wkeys, ∀ w, s.wave? p.2 = some w → ∃ w', (s.testBar k n).wave? p.2 = some w' ∧ w' = { w with splits := w'.splits } ∧
          ∀ e r, e < 8 → (w.split e).wait = some r → (w'.split e).wait =
            some (if (r.kind = 2 ∨ r.kind = 3) ∧ r.arg % 16 = n then { r with done := true } else r))

/-! ### Traps (08 R196–R201) -/

/-- The trap entry of a split takes the trap that stands at its place and no other. A trap that goes to the supervisor, taken while no handler
runs: the trap registers are written, FADDR zero outside FAULTMASK; the
level it came from is saved and the supervisor's taken; the word index of every entry is recorded; and a handler split over every lane that
has not exited starts at SVEC. No register, no other wave and no byte of memory changes. -/
def TrapEntry : Prop :=
  ∀ (s : State) (k e : Nat) (t : Trap) (w : Wave), s.wave? k = some w → w.intrap = false → e < 8 → s.replaying w.team = false →
    w.contains t = false → (t.code = 3 → w.kern.illh = 0) →
    let svec := (s.part (partOfKey k)).svec
    let x := w.split e
    let stands : Prop := (∃ f, s.fetch (s.waveWho k w) w x = .fault f ∧ t =
        { code := f.code, cause := f.cause, num := 0, half := 0, mask := orLane0 x.em,
          addrs := (lanesOf (orLane0 x.em)).map fun l => (l, f.addr), pc := segAddr w.codesel x.pc }) ∨
      s.fetch (s.waveWho k w) w x = .zero ∧ t =
        { code := 0, cause := 0, num := 0, half := 0, mask := orLane0 x.em,
          addrs := (lanesOf (orLane0 x.em)).map fun l => (l, segAddr w.codesel x.pc), pc := segAddr w.codesel x.pc }
    (s.mayIssue k e w = true → x.atArrival = false → stands → exec (.trapEntry k e t) s = .next (s.takeTrap k e t none)) ∧
    (t.code ≠ 3 → ¬stands → exec (.trapEntry k e t) s = .next s) ∧
    ∃ w', (s.takeTrap k e t none).wave? k = some w' ∧ (s.takeTrap k e t none).mem = s.mem ∧
      (∀ j, j ≠ k → (s.takeTrap k e t none).wave? j = s.wave? j) ∧
      w'.trapcode = t.code ∧ w'.trapinfo = t.cause + t.num * 2 ^ 8 + t.half * 2 ^ 16 ∧ w'.trappc = t.pc ∧ w'.faultmask = t.mask ∧
      (∀ l a, (l, a) ∈ w'.faddr → laneOf t.mask l = true ∧ (l, a) ∈ t.addrs) ∧
      (∀ l a, (l, a) ∈ t.addrs → laneOf t.mask l = true → a ≠ 0 → (l, a) ∈ w'.faddr) ∧
      w'.intrap = true ∧ w'.clvl = true ∧ w'.plvl = w.clvl ∧ w'.nest = false ∧ w'.tsplit = e ∧
      w'.codesel = selOf svec ∧
      w'.handler = some { valid := true, lanes := w.liveLanes, em := w.liveLanes, pc := offOf svec, rpc := 0, norpc := true, arrived := false,
                          frames := [], widx := 0, wait := none, trans := false } ∧
      (∀ i, i < 6 → w'.swidx0 / 2 ^ (5 * i) % 2 ^ 5 = (w.split i).widx % 32) ∧
      (∀ i, i < 2 → w'.swidx1 / 2 ^ (5 * i) % 2 ^ 5 = (w.split (6 + i)).widx % 32) ∧
      w'.vr = w.vr ∧ w'.sr = w.sr ∧ w'.pr = w.pr ∧ w'.fpstat = w.fpstat ∧ w'.flags = w.flags ∧ w'.sb = w.sb ∧ w'.ops = w.ops ∧ w'.errs = w.errs

/-- ILLEGAL with an illegal-encoding handler in the kernel's header goes there, at the level the wave runs at, with the emulation
registers of the word; without one it goes to the supervisor as any other trap. -/
def IllegalHandler : Prop :=
  ∀ (s : State) (k e : Nat) (t : Trap) (w : Wave) (emu : Tab Word), s.wave? k = some w → w.intrap = false → e < 8 → t.code = 3 →
    s.replaying w.team = false →
    ∃ w', (s.takeTrap k e t (some emu)).wave? k = some w' ∧ w'.emu = emu ∧ w'.trapcode = 3 ∧ w'.trappc = t.pc ∧ w'.intrap = true ∧
      w'.plvl = w.clvl ∧
      (w.kern.illh ≠ 0 → w'.clvl = w.clvl ∧ ∃ h, w'.handler = some h ∧ w'.codesel = selOf (segAddr w.kern.sel (w.kern.koff + w.kern.illh)) ∧
        h.pc = offOf (segAddr w.kern.sel (w.kern.koff + w.kern.illh)) ∧ h.lanes = w.liveLanes ∧ h.em = w.liveLanes) ∧
      (w.kern.illh = 0 → w'.clvl = true ∧ ∃ h, w'.handler = some h ∧ w'.codesel = selOf (s.part (partOfKey k)).svec ∧
        h.pc = offOf (s.part (partOfKey k)).svec)

/-- A trap in a handler: at user level it goes to the supervisor with NEST 1, the interrupted handler stored in the wave's nested frame; at
supervisor level nothing is stored, and the leaf ends with FCODE 9. -/
def TrapInHandler : Prop :=
  ∀ (s : State) (k e : Nat) (t : Trap) (w : Wave), s.calm → s.wave? k = some w → w.intrap = true → s.replaying w.team = false →
    let s1 := s.modTeam w.team fun x => { x with trapped := x.trapped || !(t.code == 0x13 || t.code == 0x10) }
    (w.clvl = true → s.takeTrap k e t none = s1.doubleTrap k w) ∧
    (w.clvl = false → ∃ w', s.takeTrap k e t none = (s1.areaPut (partOfKey k) w.area 0x1600 w.nestedFrame).putWave k w' ∧
      w'.nest = true ∧ w'.intrap = true ∧ w'.clvl = true ∧ w'.plvl = false ∧ w'.trapcode = t.code ∧ w'.trappc = t.pc ∧
      w'.codesel = selOf (s.part (partOfKey k)).svec ∧ w'.vr = w.vr ∧ w'.sr = w.sr)

/-! ### Steps beside an instruction (07 R168, R173, 02 R49, 08 R192, R421) -/

/-- An arrived split acts on its top frame: DEFER runs the other lanes and becomes SERIAL, SERIAL gathers both, JOIN waits for its partner
and fuses with it into the entry whose frame has ORIG 1; with no frame an empty split is freed. Where a translation is installed the split's mode is then brought up to date. -/
def SplitArrivals : Prop :=
  ∀ (s : State) (k e : Nat) (w : Wave), s.wave? k = some w → s.mayIssue k e w = true → (w.split e).atArrival = true →
    let x0 := w.split e
    let x : Split := if x0.lanes = 0 ∧ x0.norpc = false then { x0 with pc := x0.rpc, widx := 0 } else x0
    exec (.splitArrival k e) s = .next ((s.putWave k (w.arrive e)).modesArrived k e w) ∧
    ((s.part (partOfKey k)).trans = [] → exec (.splitArrival k e) s = .next (s.putWave k (w.arrive e))) ∧ w.onlySplits (w.arrive e) ∧
    (x.frames = [] → x.lanes = 0 → (w.arrive e).split e = Split.invalid) ∧
    (∀ fs f, x.frames = fs ++ [f] → f.kind = 1 →
      (w.arrive e).split e = { x with lanes := f.maska, em := f.maskb, pc := f.dpc, widx := 0,
                                      frames := fs ++ [{ f with maska := x.lanes, maskb := x.em, kind := 2 }] }) ∧
    (∀ fs f, x.frames = fs ++ [f] → f.kind = 2 →
      (w.arrive e).split e = { x with lanes := x.lanes ||| f.maska, em := x.em ||| f.maskb, rpc := f.outer, norpc := f.noouter, frames := fs }) ∧
    (∀ fs f, x.frames = fs ++ [f] → f.kind = 0 → e < 8 → f.link < 8 → f.link ≠ e →
      let y := w.split f.link
      (∀ gs g, y.valid = true → y.arrived = true → y.frames = gs ++ [g] → g.kind = 0 → g.link = e →
        (f.orig = true → (w.arrive e).split e =
            { x with lanes := x.lanes ||| y.lanes, em := x.em ||| y.em, rpc := f.outer, norpc := f.noouter, frames := fs, arrived := false } ∧ (w.arrive e).split f.link = Split.invalid) ∧
        (f.orig = false → (w.arrive e).split f.link =
            { y with lanes := y.lanes ||| x.lanes, em := y.em ||| x.em, rpc := g.outer, norpc := g.noouter, frames := gs, arrived := false } ∧
          (w.arrive e).split e = Split.invalid)) ∧
      (y.arrived = false → (w.arrive e).split e = { x with arrived := true } ∧ ∀ j, j ≠ e → (w.arrive e).split j = w.split j))

/-- A clause begins once every flag of its header's wait mask reads zero, and until then the step changes nothing; a sleeping split is ready
once GTS has reached its deadline. -/
def ClauseAndSleep : Prop :=
  (∀ (s : State) (c : Cur) (w : Wave) (h : Header), s.here = some (c, w) →
    ((∀ k, k < 12 → h.wait.getLsbD k = true → w.flag k = 0) → exec (.clauseHeader h) s = .next (s.done c w)) ∧
    ((∃ k, k < 12 ∧ h.wait.getLsbD k = true ∧ w.flag k ≠ 0) → exec (.clauseHeader h) s = .next s)) ∧
  (∀ (s : State) (k e : Nat) (w : Wave) (r : Wait), s.wave? k = some w → (w.split e).wait = some r → r.kind = 7 → s.passed r.dead = true →
    ∃ w', exec (.sleepDeadline k e) s = .next (s.putWave k w') ∧ w.onlySplits w' ∧
      w'.split e = { w.split e with wait := some { r with done := true } } ∧ ∀ j, j ≠ e → w'.split j = w.split j)

/-- The fetch of a split that may issue takes the trap that it finds, before any instruction: a fetch fault, an illegal encoding with its
emulation registers, or a word of zeros; with none found it completes, and only the cluster's caches gain what the fetch used. -/
def InstructionFetch : Prop :=
  ∀ (s : State) (k e : Nat) (w : Wave), s.wave? k = some w → s.mayIssue k e w = true → (w.split e).atArrival = false →
    let u := s.waveWho k w
    let x := w.split e
    let s1 := s.keepFetch u w x
    let trap (code cause : Nat) (a : DWord) : Trap :=
      { code := code, cause := cause, num := 0, half := 0, mask := orLane0 x.em, addrs := (lanesOf (orLane0 x.em)).map fun l => (l, a),
        pc := segAddr w.codesel x.pc }
    (∀ f, s.fetch u w x = .fault f → exec (.instructionFetch k e) s = .next (s1.takeTrap k e (trap f.code f.cause f.addr) none)) ∧
    (∀ b, s.fetch u w x = .bad b none → exec (.instructionFetch k e) s = .next (s1.takeTrap k e
      { code := 3, cause := b.cause, num := 0, half := if b.raw.form = 3 then b.raw.half else 0, mask := 0, addrs := [],
        pc := segAddr w.codesel x.pc } (some (emuOf b.raw b.cause)))) ∧
    (∀ b a, s.fetch u w x = .bad b (some a) →
      exec (.instructionFetch k e) s = .next (s1.takeTrap k e (trap 3 b.cause a) (some (emuOf b.raw b.cause)))) ∧
    (s.fetch u w x = .zero → exec (.instructionFetch k e) s = .next (s1.takeTrap k e (trap 0 0 (segAddr w.codesel x.pc)) none)) ∧
    ((∃ i r p a b n y, s.fetch u w x = .word i r p a b n y) ∨ (∃ h, s.fetch u w x = .header h) ∨ (∃ n, s.fetch u w x = .skip n) →
      exec (.instructionFetch k e) s = .next s1) ∧
    s1.waves = s.waves ∧ s1.mem = s.mem ∧ s1.teams = s.teams

/-- A stall event exchanges the active wave of a quadrant for the pending wave that has been ready longest, the first of the table on a tie:
both waves change nothing but whether they are active, and since when they are ready. With no pending wave ready nothing changes. -/
def StallExchange : Prop :=
  ∀ (s : State) (k : Nat) (w : Wave), s.wave? k = some w → w.active = true → s.clocked (partOfKey k) = true →
    let rival (p : Nat × Wave) : Prop := quadOfKey p.1 = quadOfKey k ∧ p.2.active = false ∧ s.readyWave p.1 p.2 = true
    ((∀ p ∈ s.waves, ¬rival p) → exec (.stallEvent k) s = .next s) ∧
    ∀ (j : Nat) (v : Wave) (x : Nat) (l1 l2 : Tab Wave), j ≠ k → s.waves = l1 ++ (j, v) :: l2 → s.wave? j = some v → rival (j, v) →
      v.rdy = some x → (∀ p ∈ l1, rival p → ∀ y, p.2.rdy = some y → serialLt 64 x y = true) →
      (∀ p ∈ l2, rival p → ∀ y, p.2.rdy = some y → serialLt 64 y x = false) →
      ∃ t, exec (.stallEvent k) s = .next t ∧ t.wave? j = some { v with active := true, rdy := none } ∧
        t.wave? k = some { w with active := false, rdy := none } ∧ (∀ i, i ≠ j → i ≠ k → t.wave? i = s.wave? i) ∧ t = { s with waves := t.waves }

/-! ### Stepping -/

/-- When the agenda names a split that may issue and stands at no reconvergence address, and the words at its place decode to instruction i,
which nothing holds, the step is exec of i with that split current; then no instruction is current, and the modes of translated splits are
brought up to date. A held instruction is left for later. -/
def StepRunsDecoded : Prop :=
  ∀ (s : State) (k e : Nat) (rest : List Choice) (w : Wave) (i : Instr) (r : Raw) (pc next nextw widx : Nat),
    s.agenda = .issue k e :: rest → s.wave? k = some w → s.mayIssue k e w = true → (w.split e).atArrival = false →
    let s0 : State := { s with agenda := rest }
    let u := s0.waveWho k w
    s0.fetch u w (w.split e) = .word i r none pc next nextw widx →
    let s1 := s0.keepFetch u w (w.split e)
    let c : Cur := { wave := k, entry := e, pc := pc, base := (w.split e).pc, next := next, nextw := nextw, widx := widx, raw := r, snap := none,
                     trapped := false }
    (w.held (w.split e) i r = false → ∀ t, exec i { s1 with cur := some c } = .next t →
      step s = .next (State.modesAfter k w i c.base next { t with cur := none })) ∧
    (w.held (w.split e) i r = true → step s = .next s1)

/-- The rest of the agenda: an event runs as exec of it with no split current, and a tick moves GTS and notes which pending waves are
ready; of a wave it changes no more than whether it is active and since when it is ready, and no active wave leaves the active set. -/
def StepRunsChoices : Prop :=
  ∀ (s : State) (rest : List Choice),
    (∀ i t, s.agenda = .event i :: rest → exec i { s with agenda := rest, cur := none } = .next t → step s = .next { t with cur := none }) ∧
    (∀ n, s.agenda = .tick n :: rest → ∃ t, step s = .next t ∧
      t = { s with agenda := rest, gts := (s.gts + n) % 2 ^ 64, waves := t.waves } ∧
      ∀ k w, s.wave? k = some w → ∃ w', t.wave? k = some w' ∧ w' = { w with active := w'.active, rdy := w'.rdy } ∧
        (w.active = true → w'.active = true))

/-! ### Special registers and privilege (08 R202, R203, 15 R300, R301, 18 R374, 20 R387) -/

/-- SYSR of a register that the level may reach writes its value, with W64 the pair's, to its destination and changes nothing else; one
that the level may not reach is ILLEGAL with cause RSVOPND. -/
def SpecialRegisterRead : Prop :=
  ∀ (o : Sysr) (s : State) (c : Cur) (w : Wave), s.ready c w → (Instr.sysr o).wf = true →
    ((sysCovers o.addr o.w64).all (fun a => sysAccess w.clvl a != 0) = true →
      ∃ w', exec (.sysr o) s = .next (s.done c w') ∧ s.onlyWave (s.done c w') c.wave ∧ w.onlyRegs w' ∧ w'.pr = w.pr ∧ w'.fpstat = w.fpstat ∧
        w.sameBut w' o.d (if o.w64 then 2 else 1) (w.actLanes (c.split w) o.ctl.pred o.ctl.neg) ∧
        ∀ l, l < 32 → c.writes o.d (w.actLanes (c.split w) o.ctl.pred o.ctl.neg) l = true →
          let v (a : Nat) : Nat := s.readSys c.wave w (match o.d with | .v _ => true | _ => false) l a
          w'.dst o.w64 o.d l = if o.w64 then (v o.addr + v (o.addr + 1) * 2 ^ 32) % 2 ^ 64 else v o.addr % 2 ^ 32) ∧
    ((sysCovers o.addr o.w64).all (fun a => sysAccess w.clvl a != 0) = false → exec (.sysr o) s = .next (s.illegal c w 4))

/-- What the special registers of the wave, the core, the partition and the device read, at the addresses of the maps. -/
def SpecialRegisterMap : Prop :=
  ∀ (s : State) (k : Nat) (w : Wave) (v : Bool) (l : Nat) (t : Team), s.team? w.team = some t → w.c16 = false →
    let p := s.part (partOfKey k)
    let lo (x : DWord) : Nat := x.toNat % 2 ^ 32
    let hi (x : DWord) : Nat := x.toNat / 2 ^ 32
    ∀ r ∈ [(0x001, t.ctx), (0x002, w.wid), (0x003, t.x), (0x004, t.y), (0x005, t.z), (0x006, t.linear), (0x007, t.gridid), (0x008, w.codesel),
        (0x00A, s.gts % 2 ^ 32), (0x00B, s.gts / 2 ^ 32), (0x010, w.fpstat.toNat), (0x011, w.rngLo.toNat), (0x012, w.rngHi.toNat),
        (0x013, w.rngStream.toNat), (0x014, w.rngStep.toNat), (0x020, w.trapcode), (0x021, w.trapinfo), (0x022, lo w.trappc),
        (0x023, hi w.trappc), (0x024, w.faultmask.toNat),
        (0x025, (if w.intrap then 2 ^ 31 else 0) + (if w.clvl then 2 ^ 30 else 0) + (if w.plvl then 2 ^ 29 else 0) + (if w.nest then 2 ^ 28 else 0) +
          (if w.prepend then 2 ^ 27 else 0) + w.tsplit % 8 * 2 ^ 24),
        (0x026, w.swidx0), (0x027, w.swidx1), (0x028, lo (tget 0 w.faddr l)), (0x029, hi (tget 0 w.faddr l)), (0x030, (tget 0 w.emu 0).toNat),
        (0x036, (tget 0 w.emu 6).toNat), (0x040, lo p.svec), (0x041, hi p.svec), (0x050, (s.core (coreOfKey k)).ltime),
        (0x051, (s.core (coreOfKey k)).period), (0x100, p.ctxt % 2 ^ 32), (0x101, p.ctxt / 2 ^ 32), (0x102, p.ctxtn), (0x104, p.svseg % 2 ^ 32),
        (0x106, p.svsegn), (0x108, p.svpt % 2 ^ 32), (0x10C, w.linkidx.toNat), (0x10D, w.linkent.toNat), (0x10E, w.linkgen.toNat),
        (0x10F, w.linksel.toNat), (0x110, lo w.linkname), (0x112, w.links.length), (0x200, w.cframes.length), (0x210, p.cewin), (0x211, p.cethr),
        (0x212, lo p.evbase), (0x214, p.evcount), (0x215, p.evhead), (0x220, p.audctl), (0x221, p.audseq), (0x222, p.audok), (0x223, p.audbad),
        (0x224, p.audskip), (0x228, p.fdpend.getD 0 0), (0x22F, p.fdpend.getD 7 0), (0x230, w.audCore.toNat), (0x231, w.audTeam.toNat),
        (0x232, w.audGrid.toNat), (0x300, p.trctl), (0x308, p.trbuilt), (0x309, p.trhitc), (0x30A, p.trhito), (0x30B, p.trrej),
        (0x310, lo p.oasbase), (0x311, hi p.oasbase)], s.readSys k w v l r.1 = r.2

/-- A SYSW that covers a register which its level may not reach is ILLEGAL with cause RSVOPND. Every other SYSW, of one register or with W64 of two,
completes: each register covered that the level may write holds at once its half of the value in the bits the map lets be written; a
register that it may only read, and every other special register of the wave, keeps its value. Nothing else of the wave changes but its place. -/
def SpecialRegisterWrite : Prop :=
  ∀ (o : Sysw) (s : State) (c : Cur) (w : Wave), s.ready c w → o.ok = true →
    let cov := sysCovers o.addr o.w64
    let v (a : Nat) : Word := if o.w64 then (if a = o.addr then loWord (w.src64 (c.split w) 0 false o.a) else hiWord (w.src64 (c.split w) 0 false o.a))
      else w.src (c.split w) 0 o.a
    let bits : List (Nat × Word) := [(0x010, 0x3F), (0x011, allOnes), (0x012, allOnes), (0x013, allOnes), (0x014, allOnes), (0x022, allOnes), (0x023, allOnes),
      (0x026, 0x3FFFFFFF), (0x027, 0x3FF), (0x040, allOnes), (0x041, allOnes), (0x050, 0xFFFF), (0x051, allOnes), (0x100, allOnes),
      (0x101, 0xFFFFF), (0x102, allOnes), (0x104, allOnes), (0x105, 0xFFFFF), (0x106, allOnes), (0x108, allOnes), (0x109, 0xFFFFF),
      (0x210, allOnes), (0x211, 0xFF), (0x212, allOnes), (0x213, allOnes), (0x214, allOnes), (0x220, 0xFF1F), (0x300, 0xF),
      (0x310, allOnes), (0x311, allOnes)]
    ∀ i ∈ [Instr.sysw o, .ltimeWrite o, .fdpendClear o],
      ((∃ a ∈ cov, sysAccess w.clvl a = 0) → exec i s = .next (s.illegal c w 4)) ∧
      ((∀ a ∈ cov, sysAccess w.clvl a ≠ 0) → ∃ t w', exec i s = .next t ∧ t.wave? c.wave = some w' ∧
        (w'.split c.entry).pc = c.next ∧ w'.vr = w.vr ∧ w'.sr = w.sr ∧ w'.pr = w.pr ∧ w'.flags = w.flags ∧ t.mem = s.mem ∧ t.teams = s.teams ∧
        (∀ j, j ≠ c.wave → t.wave? j = s.wave? j) ∧
        (∀ a m, a ∈ cov → sysAccess w.clvl a = 2 → (a, m) ∈ bits → t.readSys c.wave w' false 0 a = (v a &&& m).toNat) ∧
        (∀ a x l, a ∉ cov ∨ sysAccess w.clvl a = 1 → t.readSys c.wave w' x l a = s.readSys c.wave w x l a) ∧
        (0x025 ∈ cov → w'.plvl = if w.clvl then (v 0x025).getLsbD 29 else w.plvl))

/-- A SYSW that covers only registers its level may only read is ignored; a one written to an FDPEND
bit clears it and a zero leaves it; a write of LTIME expires every lease copy of the cluster for the core that wrote. -/
def SpecialRegisterWriteRules : Prop :=
  ∀ (o : Sysw) (s : State) (c : Cur) (w : Wave), s.ready c w → o.ok = true →
    let cov := sysCovers o.addr o.w64
    let v (a : Nat) : Word := if o.w64 then (if a = o.addr then loWord (w.src64 (c.split w) 0 false o.a) else hiWord (w.src64 (c.split w) 0 false o.a))
      else w.src (c.split w) 0 o.a
    ∀ i ∈ [Instr.sysw o, .ltimeWrite o, .fdpendClear o],
      ((∀ a ∈ cov, sysAccess w.clvl a = 1) → exec i s = .next (s.done c w)) ∧
      (w.clvl = true → (∀ a ∈ cov, sysAccess true a ≠ 0) → (s.part (partOfKey c.wave)).fdpend.length = 8 → ∃ t, exec i s = .next t ∧
        ∀ j, j < 8 → (t.part (partOfKey c.wave)).fdpend.getD j 0 = if 0x228 + j ∈ cov then
          (BitVec.ofNat 32 ((s.part (partOfKey c.wave)).fdpend.getD j 0) &&& ~~~v (0x228 + j)).toNat else (s.part (partOfKey c.wave)).fdpend.getD j 0) ∧
      (w.clvl = true → 0x050 ∈ cov → (∀ a ∈ cov, sysAccess true a ≠ 0) → ∃ t, exec i s = .next t ∧ (t.core (coreOfKey c.wave)).ltime = (v 0x050).toNat % 2 ^ 16 ∧
        ∀ x ∈ (t.cluster (clusterOfKey c.wave)).copies, x.lease = true → coreOfKey c.wave % 4 ∈ x.expired)

/-! ### Loads, stores and atomics (chapters 09, 10) -/

/-- A load whose lanes pass their checks takes its bytes at issue, little-endian from its address; its flag counts one more, and when the
data returns, the destination holds the value (8- and 16-bit signed forms extended by their sign) and the flag has come down again. A
post-increment moves the offset register on by the size, at issue. Memory is as before where no line had work waiting. -/
def Loads : Prop :=
  ∀ (s : State) (c : Cur) (w : Wave) (i : Instr) (ctl : Ctl) (d : Dst) (z : MSize) (scope : Nat) (accs : List (Nat × Access)),
    s.ready c w → s.runs c w → ((∀ o, i ≠ .ldspZ32 o) → c.snap = none) → i.wf = true → loadForm i = some (ctl, d, z, scope) → s.lanesOfMem c w i = .ok accs →
    let u := s.who c w
    let core := coreOfKey c.wave
    let m := c.active w ctl
    let s1 := s.fillAll u core w scope z.bytes accs
    let got (a : Access) : List (Byte × Bool) := s1.accBytes u core w scope z.bytes a
    (∀ p ∈ accs, s.badExpand u z.bytes p.2 = none ∧ s.refusesLoad u core w scope z.bytes p.2 = false ∧ (got p.2).any (·.2) = false) →
    ∃ (t : State) (w0 w1 w2 : Wave), exec i s = .next (t.done c w2) ∧ t = s1 ∧ t.wave? c.wave = some w0 ∧
      w0 = { w with splits := w0.splits, handler := w0.handler, flags := w0.flags, ops := w0.ops } ∧ w1.onlyOps w2 ∧ w0.onlyRegs w1 ∧
      w1.pr = w.pr ∧ w1.fpstat = w.fpstat ∧ (incReg i = none → w1 = w0) ∧
      (∀ a, incReg i = some a → w.sameBut w1 a.asDst 1 m ∧
        ∀ l, l < 32 → c.writes a.asDst m l = true → w1.reg a l = (c.reads w).reg a l + BitVec.ofNat 32 z.bytes) ∧
      (∀ k, w2.flag k = if ctl.setf = some k ∧ accs ≠ [] then w0.flag k + 1 else w0.flag k) ∧
      (s.quietFor u core z.bytes accs → t.mem = s.mem ∧ w0 = w) ∧
      (accs ≠ [] → s.clocked (partOfKey c.wave) = true → ∃ w3, exec (.loadDataReturn c.wave w.pend.length) (t.done c w2) = .next ((t.done c w2).putWave c.wave w3) ∧
        (∀ k, w3.flag k = w0.flag k) ∧ w3.pend = w.pend ∧ w1.sameBut w3 d z.regs m ∧ w3.pr = w.pr ∧ w3.fpstat = w.fpstat ∧
        ∀ p ∈ accs, d ≠ .zero →
          let v := leNat ((got p.2).map (·.1))
          match z with
          | .i8 => w3.dst false d p.1 = ((BitVec.ofNat 8 v).signExtend 32).toNat
          | .i16 => w3.dst false d p.1 = ((BitVec.ofNat 16 v).signExtend 32).toNat
          | .b64 => w3.dst true d p.1 = v
          | .b128 => ∀ j, j < 4 → w3.dst false (d.plus j) p.1 = v / 2 ^ (32 * j) % 2 ^ 32
          | _ => w3.dst false d p.1 = v)

/-- Where a lane fails its checks, the memory instruction raises the fault they report, before itself: memory, the store buffer and the
operations in flight stay. -/
def MemoryFaults : Prop :=
  ∀ (s : State) (c : Cur) (w : Wave) (i : Instr) (f : LFault), s.ready c w → s.runs c w → ((∀ o, i ≠ .ldspZ32 o) → (∀ o, i ≠ .stspZ32 o) → c.snap = none) → i.wf = true →
    ((loadForm i).isSome || (storeForm i).isSome || (atomForm i).isSome) = true → s.audited w = false →
    s.lanesOfMem c w i = .error f → exec i s = .next (s.fault c w f.code f.cause f.mask f.addrs)

/-- The checks of an access, in their order: NULLSEG for selector 0, the descriptor, LINKAGE for a detached segment, the limit, the right, the
kind, the alignment, and last the page, with its write protection. -/
def AccessChecks : Prop :=
  ∀ (s : State) (u : Who) (n : Need) (l : Nat) (ea : DWord),
    let sel := selOf ea
    let off := offOf ea
    let bad (code cause : Nat) : Prop := s.checkAccess u n l ea = .error { code := code, cause := cause, addr := ea }
    (sel = 0 → bad 0x09 0) ∧
    (sel ≠ 0 → s.descBytes u sel = .bad → bad 0x08 4) ∧
    ∀ b, sel ≠ 0 → s.descBytes u sel = .ok b →
      let d := descOf b
      let limit := if d.kind = 1 then min d.limit (s.scratchLen u.team) else d.limit
      let inside : Prop := n.size = 0 ∨ off + n.size ≤ limit
      let aligned : Prop := n.align = 0 ∨ off % n.align = 0
      let passes : Prop := d.detached = false ∧ inside ∧ hasRight d n.right = true ∧ d.kind ∈ n.kinds ∧ aligned
      (d.detached = true → bad 0x0E 3) ∧
      (d.detached = false → ¬inside → bad 0x08 1) ∧
      (d.detached = false → inside → hasRight d n.right = false → bad 0x08 2) ∧
      (d.detached = false → inside → hasRight d n.right = true → d.kind ∉ n.kinds → bad 0x08 3) ∧
      (d.detached = false → inside → hasRight d n.right = true → d.kind ∈ n.kinds → ¬aligned → bad 0x0B 0) ∧
      (passes → d.kind = 1 → ∃ a, s.checkAccess u n l ea = .ok a ∧ a.pa = off ∧ a.kind = 1 ∧ a.ea = ea) ∧
      (passes → d.kind ≠ 1 → d.ccode = false →
        let lin := s.linear u d l off
        let cut := 128 - lin % 128
        let one : Prop := n.size ≤ cut ∨ 128 < n.size
        let ea2 := ea + BitVec.ofNat 64 cut
        let hit (e : DWord) (x : Nat) : Option Copy :=
          if n.hits d.kind && !u.unit then s.tagged (coreOfKey u.wave) (viaOf u.ctx e d.kind x) else none
        let found (p : Nat → Nat) : Prop := ∃ a, s.checkAccess u n l ea = .ok a ∧ a.kind = d.kind ∧ a.ea = ea ∧
          ∀ i, i < n.size → i < cut ∨ ¬one → a.paAt i = p i
        (∀ k, hit ea lin = none → s.translate u sel d.kind lin = .fault k → bad 0x0C k) ∧
        (∀ pg sh pa wp, hit ea lin = none → s.translate u sel d.kind lin = .page pg sh pa wp →
          (wp = true → n.write = true → bad 0x0C 2) ∧
          (wp = false ∨ n.write = false →
            (one → found fun i => pa + (lin - pg) + i) ∧
            (¬one → hit ea2 (lin + cut) = none →
              (∀ k, s.translate u sel d.kind (lin + cut) = .fault k → bad 0x0C k) ∧
              ∀ pg2 sh2 pa2 wp2, s.translate u sel d.kind (lin + cut) = .page pg2 sh2 pa2 wp2 →
                (wp2 = true → n.write = true → bad 0x0C 2) ∧
                (wp2 = false ∨ n.write = false →
                  found fun i => if i < cut then pa + (lin - pg) + i else pa2 + (lin + cut - pg2) + (i - cut))))) ∧
        ∀ k, hit ea lin = some k →
          let wp := k.tags.any fun t => t.via.same (viaOf u.ctx ea d.kind lin) && t.wp
          (wp = true → n.write = true → bad 0x0C 2) ∧
          (wp = false ∨ n.write = false → one → found fun i => k.line * 128 + lin % 128 + i))

/-- Where a load's byte comes from: the newest covering entry of the wave's own store buffer, else (beyond the scratch bank) of its
cluster's publish buffer, else of its cluster's stores that wait at the home, else the cluster's copy that may serve it, else the home. -/
def LoadSources : Prop :=
  ∀ (s : State) (core : Nat) (w : Wave) (kind scope a : Nat) (v : Via),
    let has (e : Entry) : Prop := (e.kind = 1 ↔ kind = 1) ∧ e.byteAt a ≠ none
    let got (e : Entry) : Byte × Bool := ((e.byteAt a).getD 0, e.bad)
    let read := s.readByte core w kind scope a v
    let pb := (s.cluster (core / 4)).pb
    let q := tget [] s.hq (a / 128)
    let ours (x : HItem) (e : Entry) : Prop := x.entry? = some e ∧ e.core / 4 = core / 4 ∧ has e
    (∀ l r e, w.sb = l ++ .store e :: r → has e → (∀ f, SItem.store f ∈ r → ¬has f) → read = got e) ∧
    ((∀ f, SItem.store f ∈ w.sb → ¬has f) →
      (kind = 1 → ∀ t, s.team? w.team = some t → read = (memGet t.scratch a, t.smark.contains (a / 32))) ∧
      (kind ≠ 1 → s.replayByte w.team a = none →
        (∀ l r e, pb = l ++ .store e :: r → has e → (∀ f, PItem.store f ∈ r → ¬has f) → read = got e) ∧
        ((∀ f, PItem.store f ∈ pb → ¬has f) →
          (∀ l r x e, q = l ++ x :: r → ours x e → (∀ y ∈ r, ∀ f, ¬ours y f) → read = got e) ∧
          ((∀ y ∈ q, ∀ f, ¬ours y f) →
            (∀ k, s.copyFor core kind scope a v = some k → read = (k.bytes.getD (a % 128) 0, k.marks.contains (a % 128 / 32))) ∧
            (s.copyFor core kind scope a v = none → read = (s.homeByte a, s.homeMark a))))))

/-- What an atomic writes over the value it finds: the table of R242 with wrapping, signed and unsigned comparison, ATOMCAS and ATOMDP; the
FP forms round the exact sum once, by RN. -/
def AtomicValues : Prop :=
  (∀ (fn : Nat), fn < 14 → ∀ w ∈ [32, 64], ∀ old b cmp : BitVec w,
    (atomNew fn w old.toNat b.toNat cmp.toNat).1.map (BitVec.ofNat w) = atomValue fn old b cmp ∧ (atomNew fn w old.toNat b.toNat cmp.toNat).2 = 0) ∧
  (∀ (old b : Word) (cmp : Nat), let r := finishFp fp32 .rn false 0 (exAdd .rn (unpackFp fp32 old.toNat) (unpackFp fp32 b.toNat))
    atomNew 14 32 old.toNat b.toNat cmp = (some r.bits, r.flags)) ∧
  ∀ (old b : Word) (cmp : Nat),
    let one (i : Nat) : FRes := finishFp fpBf16 .rn false 0
      (exAdd .rn (unpackFp fpBf16 (old.extractLsb' (16 * i) 16).toNat) (unpackFp fpBf16 (b.extractLsb' (16 * i) 16).toNat))
    atomNew 15 32 old.toNat b.toNat cmp = (some ((one 0).bits + (one 1).bits * 2 ^ 16), (one 0).flags ||| (one 1).flags)

/-- What leaves a store buffer: an item that an older marker or an older store of its bytes holds back stays; a scratch store is written to
its team's bank; any other store enters the cluster's publish buffer; a marker of a scope narrower than DEVICE completes, or sends its cairn's
release message to the home, unless a HOST or PEER store of its wave stands in the publish buffer; it is then a barrier there, as one of a
wide scope always is. Memory stays. -/
def StoreBufferDrains : Prop :=
  ∀ (s : State) (key i : Nat) (w : Wave) (x : SItem), s.wave? key = some w → w.sb[i]? = some x →
    let older := w.sb.take i
    let held : Prop := (∃ y ∈ older, ∃ sc r op, y = .marker sc r op) ∨ (older ≠ [] ∧ ∃ sc r op, x = .marker sc r op) ∨
      ∃ e f, x = .store e ∧ SItem.store f ∈ older ∧ (e.kind = 1 ↔ f.kind = 1) ∧ ∃ a, e.byteAt a ≠ none ∧ f.byteAt a ≠ none
    let k := clusterOfKey key
    let far : Prop := ∃ e, PItem.store e ∈ (s.cluster k).pb ∧ e.wave = key ∧ (e.kind = 4 ∨ e.kind = 5)
    (held → exec (.storeBufferDrain key i) s = .next s) ∧
    (¬held → ∃ t w', exec (.storeBufferDrain key i) s = .next t ∧ t.mem = s.mem ∧ t.wave? key = some w' ∧ w'.sb = ldel w.sb i ∧
      w'.vr = w.vr ∧ w'.sr = w.sr ∧ w'.pr = w.pr ∧
      (∀ e, x = .store e → t.hq = s.hq) ∧
      (∀ e tm, x = .store e → e.kind = 1 → s.team? w.team = some tm → ∃ tm', t.team? w.team = some tm' ∧
        tm' = { tm with scratch := memCells tm.scratch e.cells, smark := tm'.smark }) ∧
      (∀ e, x = .store e → e.kind ≠ 1 → s.replaying w.team = false →
        ∃ e', (t.cluster k).pb = (s.cluster k).pb ++ [.store e'] ∧ e' = { e with op := e'.op }) ∧
      (∀ sc op, x = .marker sc none op → sc < 3 → ¬far → (t.cluster k).pb = (s.cluster k).pb ∧ t.hq = s.hq) ∧
      (∀ sc pa ex op, x = .marker sc (some (pa, ex)) op → sc < 3 → ¬far → (t.cluster k).pb = (s.cluster k).pb ∧
        tget [] t.hq (pa / 128) = tget [] s.hq (pa / 128) ++ [.release pa { ex := ex, scope := sc, wave := key, op := op }]) ∧
      (∀ sc r op, x = .marker sc r op → 3 ≤ sc ∨ far → (t.cluster k).pb = (s.cluster k).pb ++ [.barrier key sc r op] ∧ t.hq = s.hq))

/-- What leaves a publish buffer, and what a home applies: an entry behind an older one of its bytes, or behind a barrier of its wave, stays;
else it enters its line's queue at the home, where, with no other owner to recall, its bytes are written when its turn comes, every other byte
of memory staying. A barrier that no store of its wave precedes, or for a scope narrower than DEVICE no HOST or PEER store, disappears. -/
def PublishBufferDrains : Prop :=
  (∀ (s : State) (k i : Nat) (x : PItem), (s.cluster k).pb[i]? = some x →
    let pb := (s.cluster k).pb
    let older := pb.take i
    (∀ e, x = .store e →
      let held : Prop := (∃ f, PItem.store f ∈ older ∧ (e.kind = 1 ↔ f.kind = 1) ∧ ∃ a, e.byteAt a ≠ none ∧ f.byteAt a ≠ none) ∨
        ∃ sc r op, PItem.barrier e.wave sc r op ∈ older
      (held → exec (.publishBufferDrain k i) s = .next s) ∧
      (¬held → s.wantsOwner k e = false →
        kindHasProt e.kind = false ∨ (∀ d, tfind s.dir e.line = some d → d.owner = none ∨ d.owner = some (e.core / 4)) →
        ∃ t, exec (.publishBufferDrain k i) s = .next t ∧ t.mem = s.mem ∧ t.waves = s.waves ∧
          (t.cluster k).pb = ldel pb i ∧ tget [] t.hq e.line = tget [] s.hq e.line ++ [.store e] ∧
          ∀ l, l ≠ e.line → tget [] t.hq l = tget [] s.hq l)) ∧
    (∀ key sc r op, x = .barrier key sc r op →
      (∀ e, PItem.store e ∈ older → e.wave ≠ key ∨ (sc < 3 ∧ e.kind ≠ 4 ∧ e.kind ≠ 5)) →
      ∃ t, exec (.publishBufferDrain k i) s = .next t ∧ t.mem = s.mem ∧ (t.cluster k).pb = ldel pb i ∧
        (r = none → t.hq = s.hq) ∧
        (∀ pa ex, r = some (pa, ex) → tget [] t.hq (pa / 128) =
          tget [] s.hq (pa / 128) ++ [.release pa { ex := ex, scope := sc, wave := key, op := op }])) ∧
    (∀ key sc r op e, x = .barrier key sc r op → PItem.store e ∈ older → e.wave = key → 3 ≤ sc ∨ e.kind = 4 ∨ e.kind = 5 →
      exec (.publishBufferDrain k i) s = .next s) ∧
    (∀ e, x = .store e → (∀ y ∈ older, PItem.ofLine y e.line = false) →
      (∀ y ∈ older, ∀ key sc r op, y = .barrier key sc r op → key ≠ e.wave) →
      (∀ y ∈ older, ∀ f, y = .store f → e.clash f = false) →
      exec (.putw k e.line) s = exec (.publishBufferDrain k i) s)) ∧
  ∀ (s : State) (e : Entry) (rest : List HItem), s.downAt (e.line * 128) = false →
    let line := e.line
    (tget [] s.hq line = .recalled e :: rest ∨ tget [] s.hq line = .store e :: rest ∧ (kindHasProt e.kind = false ∨
      ∃ d, s.finds line e.slot d ∧ s.partialCores line = [] ∧ (s.protocolOf (partOfLine line) d.slot).does d.st 2 (2 ^ 6) ∧
        ¬(s.protocolOf (partOfLine line) d.slot).does d.st 2 (2 ^ 17))) →
    ∃ t, exec (.homeApply line) s = .next t ∧ t.mem = memCells s.mem e.cells ∧ tget [] t.hq line = rest ∧
      ∀ l, l ≠ line → tget [] t.hq l = tget [] s.hq l

/-- A range operation handles its lines one by one, as its own step or as the home's event: the line leaves the list, with RINV and RINV.WB
no cluster keeps a copy of it, no store of it waits in a publish buffer, and with the last line the operation is over. -/
def RangeLines : Prop :=
  ∀ (s : State) (j : RangeJob) (line p : Nat) (w : Wave), p = partOfKey j.wave → p < 4 → (s.part p).ranges = [j] →
    (∀ n, n < 4 → n ≠ p → (s.part n).ranges = []) → line ∈ j.lines → s.wave? j.wave = some w →
    (j.kind = 1 → ∀ x ∈ (s.part (partOfLine line)).protjobs, x.slot ≠ (match tfind s.dir line with | some d => d.slot | none => 16)) →
    ∀ i ∈ Instr.rangeLineStep j.wave 0 line :: (if j.kind = 2 then [Instr.flush line] else if j.kind = 1 then [.neut line] else if j.kind = 0 then [.disc line] else []),
      ∃ t, exec i s = .next t ∧
        (t.part p).ranges = (if j.lines.filter (· ≠ line) = [] then [] else [{ j with lines := j.lines.filter (· ≠ line) }]) ∧
        (∀ k, k < 48 → (∀ x ∈ (t.cluster k).pb, x.ofLine line = false) ∧ (j.kind = 0 ∨ j.kind = 1 → ∀ y ∈ (t.cluster k).copies, y.line ≠ line))

/-! ### Queues, cairns, fences, waiting on memory, ranges and banks (chapters 09, 10) -/

/-- RINV, RINV.WB and RFLUSH with their checks passed join the partition's range operations with the lines of the range, or do nothing for no
byte; PREF asks for a line and changes no memory; BANKCFG refuses by its causes, holds for a busy bank, leaves a bank in its own mode, refuses
one that holds data, puts a bank into its new mode, or, for a bank leaving CACHE in a cluster with lines, has each line given up first. -/
def RangesPrefetchesAndBanks : Prop :=
  (∀ (s : State) (c : Cur) (w : Wave) (o : RangeOp) (a : Access), s.ready c w →
    let u := s.who c w
    let ea := w.s64 o.a
    let n := (w.src (c.split w) 0 o.b).toNat
    ∀ p ∈ ([(Instr.rinv o, 0, 1, [2, 3]), (.rinvWb o, 1, 0, [2, 3, 4, 5]), (.rflush o, 2, 0, [2, 3, 4, 5])] : List (Instr × Nat × Nat × List Nat)),
      s.rangeCheck u p.2.2.1 p.2.2.2 n ea = .ok a →
      (n = 0 → exec p.1 s = .next (s.done c w)) ∧
      (n ≠ 0 → w.sb = [] → ∃ t w' j, exec p.1 s = .next t ∧ t.mem = s.mem ∧ t.hq = s.hq ∧ t.wave? c.wave = some w' ∧ w'.vr = w.vr ∧ w'.sr = w.sr ∧
        (w'.split c.entry).pc = c.next ∧ (t.part (partOfKey c.wave)).ranges = (s.part (partOfKey c.wave)).ranges ++ [j] ∧
        j.wave = c.wave ∧ j.kind = p.2.1 ∧ j.lines = s.linLines u (selOf ea) a.kind (a.desc.base + offOf ea) n ∧
        ∀ k, w'.flag k = if o.ctl.setf = some k then w.flag k + 1 else w.flag k)) ∧
  (∀ (s : State) (c : Cur) (w : Wave) (o : PrefOp), s.ready c w →
    ∃ w', exec (.pref o) s = .next (s.done c w') ∧ w.onlyOps w' ∧ (o.dev = true → w' = w) ∧
      ∀ l ea a, o.dev = false → laneOf (w.actLanes (c.split w) o.ctl.pred o.ctl.neg) l = true → l < 32 → w.laneEa (c.split w) o.a o.b l = .ok ea →
        s.checkAccess (s.who c w) { right := 0, kinds := [0, 2, 3, 4, 6], size := 1, align := 1, write := false, narrow := true } l ea = .ok a → a.kind ≠ 6 →
        ∃ p, w'.pend = w.pend ++ [p] ∧ ∃ x ∈ p.atoms, x.fn = 16 ∧ x.lane = l ∧ x.addr = a.pa) ∧
  (∀ (s : State) (c : Cur) (w : Wave) (ctl : Ctl) (a : Src), s.ready c w → w.clvl = true →
    let v := (w.src (c.split w) 0 a).toNat
    let k := v / 2 ^ 8 % 64
    let n := v % 128
    let mode := v / 2 ^ 28 % 4
    let ctx := if mode = 2 then v / 2 ^ 16 % 2 ^ 12 else 0
    let b := (s.cluster k).bank n
    let same : Prop := b.mode = mode ∧ (mode = 2 → b.ctx = ctx)
    (∀ cause, s.bankCause (partOfKey c.wave) v = cause → cause ≠ 0 → exec (.bankcfg ctl a) s = .next (s.illconv c w cause)) ∧
    (s.bankCause (partOfKey c.wave) v = 0 → s.bankBusy k n = true → exec (.bankcfg ctl a) s = .next s) ∧
    (s.bankCause (partOfKey c.wave) v = 0 → s.bankBusy k n = false →
      (same → exec (.bankcfg ctl a) s = .next (s.done c w)) ∧
      (¬same → s.bankFull k n = true → exec (.bankcfg ctl a) s = .next (s.illconv c w 10)) ∧
      (¬same → s.bankFull k n = false → b.mode ≠ 0 ∨ ((s.cluster k).copies = [] ∧ (s.cluster k).pb = [] ∧ (s.cluster k).msgs = []) →
        ∃ (t : State), exec (.bankcfg ctl a) s = .next (t.done c w) ∧ t.waves = s.waves ∧ t.mem = s.mem ∧
        (t.cluster k).bank n = { mode := mode, ctx := ctx, words := [], wait := [] } ∧ ∀ j, j ≠ n → (t.cluster k).bank j = (s.cluster k).bank j) ∧
      (¬same → b.mode = 0 → let lines := ((s.deliverAll k).cluster k).lines
        lines ≠ [] → ∃ t w' x, exec (.bankcfg ctl a) s = .next t ∧ t.mem = s.mem ∧ t.wave? c.wave = some w' ∧
        (w'.split c.entry).pc = c.next ∧ (t.cluster k).switches = (s.cluster k).switches ++ [x] ∧ x.bank = n ∧ x.mode = mode ∧ x.todo = lines))) ∧
  ∀ (s : State) (k n line : Nat) (x : Switch), (s.cluster k).switches = [x] → x.bank = n → line ∈ x.todo →
    ∃ t, exec (.bankLineHandle k n line) s = .next t ∧ (∀ y ∈ (t.cluster k).copies, y.line ≠ line) ∧ (∀ y ∈ (t.cluster k).pb, y.ofLine line = false) ∧
      (x.todo.filter (· ≠ line) ≠ [] → (t.cluster k).switches = [{ x with todo := x.todo.filter (· ≠ line) }]) ∧
      (x.todo.filter (· ≠ line) = [] → (t.cluster k).switches = [] ∧ (t.cluster k).bank n = { mode := x.mode, ctx := if x.mode = 2 then x.ctx else 0, words := [], wait := [] })

/-! ### Segments and linking (chapter 15) -/

/-- A binding step at a link: with its entry bound, LNK writes the segment's address and CALLL enters the segment at 0x40, with a pin, a link
frame and the return address in its pair; an unbound entry becomes claimed and raises LINKAGE 1, a claimed one parks the split, a failed one
raises LINKAGE 2. -/
def Linking : Prop :=
  ∀ (s : State) (c : Cur) (w : Wave) (a : Src) (l : Link) (pa : Nat), s.ready c w →
    let u := s.who c w
    let x := c.split w
    let idx := (w.src x 0 a).toNat % 2 ^ 16
    let e := s.homeNat pa 4
    let sel := s.homeNat (pa + 4) 4 % 2 ^ 20
    x.parked = false → s.linkAt u (coreOfKey c.wave) w idx = .ok (some l) → l.bad = false → s.entryPA u.part u.ctx l.bidx = some pa →
    s.marked pa 16 = false → pa % 16 = 0 → s.plainLine (pa / 128) → kindHasProt (regionKind pa) = true →
    (∀ q ∈ s.mon, q.wave ≠ c.wave) → s.unowned u.k →
    let regsSet (t : State) (claim : Bool) : Prop := ∃ w1, t.wave? c.wave = some w1 ∧ 
        w1 = { w with linkidx := w1.linkidx, linkent := w1.linkent, linkgen := w1.linkgen, linkname := w1.linkname } ∧ w1.linkidx = BitVec.ofNat 32 (idx + l.nlen * 2 ^ 16) ∧
        w1.linkent = BitVec.ofNat 32 (l.bidx + if claim then 2 ^ 31 else 0) ∧ w1.linkgen = BitVec.ofNat 32 (e / 4) ∧ w1.linkname = segAddr w.codesel l.noff
    (∀ o : LnkOp, o.a = a →
      let m := w.actLanes x o.ctl.pred o.ctl.neg
      let marks : LaneMask := orLane0 m
      (∀ n, o.d = .v n → m = 0 → exec (.lnk o) s = .next (s.done c w)) ∧
      ((∀ n, o.d = .v n → m ≠ 0) →
        (e % 4 = 2 → l.ekind = 7 → (∀ pb, s.descBytes u sel ≠ .poison pb) → ∃ t w', exec (.lnk o) s = .next t ∧ t.mem = s.mem ∧ (t.cluster u.k).copies = [] ∧ t.wave? c.wave = some w' ∧
          w.sameBut w' o.d.asDst 2 m ∧ (w'.split c.entry).pc = c.next ∧
          ∀ j, j < 32 → c.writes o.d.asDst m j = true → w'.dst true o.d.asDst j = (segAddr sel 0).toNat) ∧
        (e % 4 = 0 → ∃ t, exec (.lnk o) s = .next (t.fault c w 0x0E 1 marks []) ∧ regsSet t true ∧
          t.mem = memPuts (memPuts s.mem pa (leBytes 4 (e + 1))) (pa + 12) (leBytes 4 s.gts)) ∧
        (e % 4 = 1 → exec (.lnk o) s = .next (s.hold c w { kind := 9, arg := l.bidx, dead := 0, done := false })) ∧
        (e % 4 = 3 → ∃ t, exec (.lnk o) s = .next (t.fault c w 0x0E 2 marks []) ∧ t.mem = s.mem ∧ regsSet t false))) ∧
    ∀ o : CalllOp, o.a = a →
      let mt := c.taken w o.ctl
      (mt = 0 → exec (.calll o) s = .next (s.done c w)) ∧
      (mt ≠ 0 → mt ≠ x.em → exec (.calll o) s = .next (s.fault c w 0x06 0 (differ x.em (laneOf (if o.ctl.neg then ~~~(w.p o.ctl.pred) else w.p o.ctl.pred))) [])) ∧
      (mt ≠ 0 → mt = x.em → w.converged c.entry = true → w.links.length < 8 → e % 4 = 2 →
        ∀ b, (s.agentWrite (pa + 8) (leBytes 4 ((s.homeNat (pa + 8) 4 + 1) % 2 ^ 32)) false).descBytes u sel = .ok b → (descOf b).kind = 6 →
          (descOf b).x = true → 0x40 < (descOf b).limit →
        ∃ t w', exec (.calll o) s = .next t ∧ t.mem = memPuts s.mem (pa + 8) (leBytes 4 ((s.homeNat (pa + 8) 4 + 1) % 2 ^ 32)) ∧ t.wave? c.wave = some w' ∧
          w'.codesel = sel ∧ w'.links = w.links ++ [{ bidx := l.bidx, gen := e / 4, sel := sel }] ∧ (w'.split c.entry).pc = 0x40 ∧
          w.sameBut w' (.v o.d) 2 x.lanes ∧ ∀ j, j < 32 → laneOf x.lanes j = true → w'.v64 o.d j = segAddr w.codesel c.next)

/-- BIND, BIND.FAIL and UNBIND: refused by their causes; BIND first waits for its release, is then checked again (one
that is refused only now leaves no operation behind), and leaves the entry bound to the segment, or failed, and writes the state it found. UNBIND leaves the entry unbound under its next generation. -/
def Binding : Prop :=
  ∀ (s : State) (c : Cur) (w : Wave) (ctl : Ctl) (d : Dst) (a : Src), s.ready c w → w.clvl = true →
    let u := s.who c w
    let v := (w.src (c.split w) 0 a).toNat
    let ctx := if u.sup then v / 2 ^ 20 else u.ctx
    let idx := v % 2 ^ 20
    let result (t : State) (n : Nat) : Prop := ∃ w', t.wave? c.wave = some w' ∧ w.sameBut w' d 1 (c.split w).em ∧ (w'.split c.entry).pc = c.next ∧
      ∀ l, l < 32 → c.writes d (c.split w).em l = true → w'.dst false d l = n
    (∀ b sel i, (i = Instr.bind { ctl := ctl, d := d, a := a, b := b } ∧ sel = some ((w.s b).toNat % 2 ^ 20)) ∨
        (i = .bindFail { ctl := ctl, d := d, a := a } ∧ sel = none) →
      let cause := s.bindCause u.part ctx idx sel
      (cause ≠ 0 → (c.split w).wait = none → exec i s = .next (s.illconv c w cause)) ∧
      (∀ r, cause ≠ 0 → (c.split w).wait = some r → (tfind w.ops r.arg).any (1 < ·.left) = false →
        exec i s = .next ((s.putWave c.wave (w.undoOp r.arg)).illconv c (w.undoOp r.arg) cause)) ∧
      (cause = 0 → (c.split w).wait = none → s.bindMark u.part ctx idx sel = none → ∃ t w', exec i s = .next t ∧ t.mem = s.mem ∧ t.wave? c.wave = some w' ∧ (w'.split c.entry).pc = (c.split w).pc ∧
        ∃ r, (w'.split c.entry).wait = some r ∧ w'.sb = w.sb ++ [.marker 4 none r.arg] ∧ tfind w'.ops r.arg = some { flag := ctl.setf, left := 2 }) ∧
      (∀ r pa, cause = 0 → (c.split w).wait = some r → (tfind w.ops r.arg).any (1 < ·.left) = false → s.bindMark u.part ctx idx sel = none → s.entryPA u.part ctx idx = some pa →
        pa % 16 = 0 → s.plainLine (pa / 128) → s.homeNat pa 4 % 4 ≠ 2 →
        (∀ x, sel = some x → ∃ da, s.descPA u.part ctx true x = some da ∧ da % 32 = 0 ∧ da / 128 ≠ pa / 128 ∧ s.plainLine (da / 128)) →
        ∃ t, exec i s = .next t ∧ result t (s.homeNat pa 4 % 4) ∧
          t.homeNat pa 4 = s.homeNat pa 4 / 4 * 4 + (if sel.isSome then 2 else 3) ∧
          (∀ x, sel = some x → t.homeNat (pa + 4) 4 = x ∧ t.homeNat (pa + 8) 4 = 0 ∧
            ∀ da, s.descPA u.part ctx true x = some da → (descOf (t.homeBytes da 32)).bnd = true ∧ t.homeNat (da + 24) 8 % 2 ^ 20 = idx))) ∧
    (∀ i, i = Instr.unbind { ctl := ctl, d := d, a := a } →
      (s.entryPA u.part ctx idx = none → exec i s = .next (s.illconv c w 16)) ∧
      (∀ pa, s.entryPA u.part ctx idx = some pa → s.marked pa 16 = false → pa % 16 = 0 → s.plainLine (pa / 128) →
        let e := s.homeNat pa 4
        (e % 4 = 0 → ∃ t, exec i s = .next t ∧ t.mem = s.mem ∧ result t 0) ∧
        (e % 4 = 1 ∨ e % 4 = 3 → ∃ t, exec i s = .next t ∧ result t (e % 4) ∧ t.homeNat pa 4 = (e / 4 + 1) % 2 ^ 30 * 4) ∧
        (∀ da, e % 4 = 2 → (s.putEntry pa 0 ((e / 4 + 1) % 2 ^ 30) 0 0).descPA u.part ctx true (s.homeNat (pa + 4) 4 % 2 ^ 20) = some da → da % 32 = 0 → da / 128 ≠ pa / 128 → s.plainLine (da / 128) →
          ∃ t, exec i s = .next t ∧ result t 2 ∧ t.homeNat pa 4 = (e / 4 + 1) % 2 ^ 30 * 4 ∧ (descOf (t.homeBytes da 32)).bnd = false)))

/-- SEGLD reads a descriptor's eight words, SEGUPD writes it, keeps the device's own fields and starts a shootdown of it, SEGCHK answers at
each lane whether an access would pass, SHOOT starts a shootdown behind its release, SHOOTW waits for those before it, and ICINV drops the
instruction lines of a range behind its release. -/
def Segments : Prop :=
  ∀ (s : State) (c : Cur) (w : Wave), s.ready c w →
    let u := s.who c w
    let x := c.split w
    let p := partOfKey c.wave
    let ctxOf (v : Nat) : Nat := if u.sup then v / 2 ^ 20 else u.ctx
    let shot (t : State) (y : Shoot) : Prop := (∀ k, 12 * p ≤ k → k < 12 * p + 12 → (t.cluster k).shoots = (s.cluster k).shoots ++ [y]) ∧
      y.id = (s.part p).shootctr ∧ (t.part p).shootctr = y.id + 1 ∧ ∃ z ∈ (t.part p).waiting, z.id = y.id
    (∀ (o : SegldOp) (pa : Nat), let v := (w.src x 0 o.a).toNat
      s.namedDesc u (ctxOf v) (v % 2 ^ 20) = some pa → s.marked pa 32 = false → s.plainLine (pa / 128) →
      ∃ t w' q, exec (.segld o) s = .next t ∧ t.mem = s.mem ∧ t.wave? c.wave = some w' ∧ w'.vr = w.vr ∧ w'.sr = w.sr ∧ (w'.split c.entry).pc = c.next ∧
        w'.pend = w.pend ++ [q] ∧ q.writes.length = 8 ∧ (∀ f, w'.flag f = if o.ctl.setf = some f then w.flag f + 1 else w.flag f) ∧
        ∀ i, i < 8 → q.writes[i]? = some { reg := 192 + o.d + i, lane := 0, val := BitVec.ofNat 32 (s.homeNat (pa + 4 * i) 4) }) ∧
    (∀ (o : SegldOp), let v := (w.src x 0 o.a).toNat
      s.namedDesc u (ctxOf v) (v % 2 ^ 20) = none → exec (.segld o) s = .next (s.illconv c w 16)) ∧
    (∀ (o : SegupdOp) (pa : Nat), w.clvl = true → let v := (w.src x 0 o.a).toNat
      let old := descOf (s.homeBytes pa 32)
      let n := ((List.range 8).map fun i => leBytes 4 (w.s (o.b + i)).toNat).flatten
      let new := descOf n
      s.namedDesc u (ctxOf v) (v % 2 ^ 20) = some pa → s.marked pa 32 = false → pa % 32 = 0 → s.plainLine (pa / 128) → u.part = p →
      (segupdCause old new n ≠ 0 → exec (.segupd o) s = .next (s.illconv c w (segupdCause old new n))) ∧
      (segupdCause old new n = 0 → ∃ t w' y, exec (.segupd o) s = .next t ∧ t.wave? c.wave = some w' ∧ w'.vr = w.vr ∧ w'.sr = w.sr ∧
        (w'.split c.entry).pc = c.next ∧ t.homeNat pa 8 = natAt n 0 8 ∧ t.homeNat (pa + 16) 8 = natAt n 16 8 ∧
        (descOf (t.homeBytes pa 32)).bnd = old.bnd ∧ ((descOf (t.homeBytes pa 32)).xrev = (old.xrev || (old.x && !new.x))) ∧
        shot t y ∧ y.mode = 2 ∧ y.sel = v % 2 ^ 20)) ∧
    (∀ (o : SegchkOp), let m := w.actLanes x o.ctl.pred o.ctl.neg
      let n := (w.src x 0 o.b).toNat
      ∃ t w', exec (.segchk o) s = .next t ∧ t.mem = s.mem ∧ t.wave? c.wave = some w' ∧ w'.vr = w.vr ∧ w'.sr = w.sr ∧ (w'.split c.entry).pc = c.next ∧
        w.samePreds w' (some o.d) m ∧
        ∀ l, l < 32 → laneOf m l = true → o.d < 15 →
          let ea := w.reg64 o.a l
          (laneOf (w'.p o.d) l = true ↔ if n = 0 then selOf ea ≠ 0 ∧ ∃ b, s.descBytes u (selOf ea) = .ok b
            else ∃ d, s.checkSeg u { right := accRight o.acc, kinds := kindsAll, size := n, align := 0, write := false } ea = .ok d)) ∧
    (∀ (o : ShootOp), w.clvl = true →
      (x.wait = none → ∃ t w' r, exec (.shoot o) s = .next t ∧ t.mem = s.mem ∧ t.wave? c.wave = some w' ∧ (w'.split c.entry).pc = x.pc ∧
        (w'.split c.entry).wait = some r ∧ w'.sb = w.sb ++ [.marker 3 none r.arg]) ∧
      (∀ r, x.wait = some r → tfind w.ops r.arg = none → ∃ t w' y, exec (.shoot o) s = .next t ∧ t.mem = s.mem ∧ t.wave? c.wave = some w' ∧ w'.vr = w.vr ∧
        (w'.split c.entry).pc = c.next ∧ shot t y ∧ y.mode = (match o.mode with | .all => 0 | .context => 1 | .selector => 2) ∧
        y.sel = (w.src x 0 o.b).toNat % 2 ^ 20)) ∧
    (∀ ctl, w.clvl = true → x.wait = none →
      ((∀ y ∈ (s.part p).waiting, (s.part p).shootctr ≤ y.id) → exec (.shootw ctl) s = .next ((s.done c w).acquire (clusterOfKey c.wave) 3)) ∧
      ((∃ y ∈ (s.part p).waiting, y.id < (s.part p).shootctr) → exec (.shootw ctl) s = .next (s.hold c w { kind := 11, arg := (s.part p).shootctr, dead := 0, done := false }))) ∧
    (∀ (o : RangeOp) (a : Access), let ea := w.s64 o.a
      let n := (w.src x 0 o.b).toNat
      (n = 0 → exec (.icinv o) s = .next (s.done c w)) ∧
      (n ≠ 0 → s.rangeCheck u 2 [6] n ea = .ok a → ∀ r, x.wait = some r → tfind w.ops r.arg = none → u.part = p →
        ∃ t w', exec (.icinv o) s = .next t ∧ t.mem = s.mem ∧ t.wave? c.wave = some w' ∧ w'.vr = w.vr ∧ w'.sr = w.sr ∧ (w'.split c.entry).pc = c.next ∧
          ∀ k, 12 * p ≤ k → k < 12 * p + 12 → ∀ y ∈ (t.cluster k).icache, ¬(y.ctx = u.ctx ∧ y.sel = selOf ea ∧
            offOf ea / 128 ≤ y.idx ∧ y.idx < (offOf ea + n) / 128)))

/-- A page walk leaves its translation, of the context's own table or the supervisor's, in the cluster's TLB; a cluster that carries out a shootdown keeps no descriptor, instruction line or
data copy that it covers, and acknowledges; a released pin takes one off the entry's count; a parked split that wakes tries again. -/
def TranslationUnits : Prop :=
  (∀ (s : State) (k ctx lin pg sh pa : Nat) (wp : Bool) (b : List Byte), let sup := decide (supKey ≤ ctx)
    let same (y : TlbEnt) : Prop := y.ctx = ctx % supKey ∧ y.sup = sup ∧ y.page = pg ∧ y.bits = sh
    s.ctxRec (k / 12) (ctx % supKey) = some b → s.walk 2 lin 3 (if sup then (s.part (k / 12)).svpt else recPtroot b) = .page pg sh pa wp →
    ∃ t, exec (.pageWalk k ctx lin) s = .next t ∧ t.mem = s.mem ∧ t.waves = s.waves ∧
      ∃ y ∈ (t.cluster k).tlb, same y ∧ ((∀ z ∈ (s.cluster k).tlb, ¬same z) → y.pa = pa ∧ y.wp = wp)) ∧
  (∀ (s : State) (k : Nat) (x : Shoot) (rest : List Shoot), (s.cluster k).shoots = x :: rest → ∃ t, exec (.shootdown k) s = .next t ∧
    (t.cluster k).shoots = rest ∧
    (∀ y ∈ (t.cluster k).icache, ¬(x.mode = 0 ∨ y.ctx = x.ctx ∧ (x.mode = 1 ∨ y.sel = x.sel))) ∧
    (∀ y ∈ (t.cluster k).desc, ¬(x.mode = 0 ∨ y.ctx = x.ctx ∧ (x.mode = 1 ∨ y.sel = x.sel))) ∧
    (∀ y ∈ (t.cluster k).tlb, ¬(x.mode = 0 ∨ y.ctx = x.ctx)) ∧
    ((s.cluster k).msgs = [] → (s.cluster k).pb = [] → (∀ y ∈ (s.cluster k).copies, s.plainLine y.line) →
      ∀ y ∈ (t.cluster k).copies, ∀ g ∈ y.tags, ¬(x.mode = 0 ∨ g.via.ctx = x.ctx ∧ (x.mode = 1 ∨ g.via.sel = x.sel)))) ∧
  (∀ (s : State) (p ctx : Nat) (f : LFrame) (rest : List (Nat × LFrame × Bool)) (pa : Nat), (s.part p).unpins = (ctx, f, false) :: rest →
    s.entryPA p ctx f.bidx = some pa → pa % 16 = 0 → s.plainLine (pa / 128) → 0 < s.homeNat (pa + 8) 4 →
    (s.homeNat pa 4 / 4 = f.gen → ∃ t, exec (.pinRelease p) s = .next t ∧ (t.part p).unpins = rest ∧ t.homeNat (pa + 8) 4 = s.homeNat (pa + 8) 4 - 1) ∧
    (s.homeNat pa 4 / 4 ≠ f.gen → ∃ t, exec (.pinRelease p) s = .next t ∧ t.mem = s.mem ∧ (t.part p).unpins = (ctx, f, true) :: rest)) ∧
  ∀ (s : State) (k e : Nat) (w : Wave) (r : Wait), s.wave? k = some w → (w.split e).wait = some r → r.kind = 9 →
    ∃ t w', exec (.parkedWake k e) s = .next t ∧ t.mem = s.mem ∧ t.wave? k = some w' ∧ w.onlySplits w' ∧ (w'.split e).wait = some { r with done := true }

/-! ### The matrix engine and its epilogue (chapter 06) -/

/-- Matrix and epilogue commands at issue: a full queue holds the split; a command that its checks do not refuse enters its queue with what it has
captured, counts on its flag and its split goes on; the checks trap as R102, R141 and R144 say. -/
def MatrixIssue : Prop :=
  ∀ (s : State) (c : Cur) (w : Wave), s.ready c w →
    let em := (c.split w).em
    let fw (r : Nat) : Nat := (w.v r 0).toNat
    let off (r : Nat) : Nat := (w.s r).toNat
    let enters (i : Instr) (setf : Option Nat) (g : Guard) (epi : Bool) (what : Cmd → Prop) : Prop := ∃ t w' k, exec i s = .next t ∧ t.mem = s.mem ∧
      t.wave? c.wave = some w' ∧ w'.vr = w.vr ∧ w'.sr = w.sr ∧ w'.pr = w.pr ∧ w'.fpstat = w.fpstat ∧ (w'.split c.entry).pc = c.next ∧
      (if epi then w'.eq = w.eq ++ [k] ∧ w'.mq = w.mq else w'.mq = w.mq ++ [k] ∧ w'.eq = w.eq) ∧ k.ins = i ∧ k.guard = g ∧ k.started = false ∧
      tfind w'.ops k.op = some { flag := setf, left := 1 } ∧ (∀ f, w'.flag f = if setf = some f then w.flag f + 1 else w.flag f) ∧ what k
    let badWord (i : Instr) (k : MKind) (r : Nat) : Prop :=
      (em ≠ allOnes → exec i s = .next (s.fault c w 0x04 1 (~~~em) [])) ∧
      (em = allOnes → (∃ l, l < 32 ∧ w.v r l ≠ w.v r 0) → exec i s = .next (s.fault c w 0x05 0 (differ allOnes (w.v r)) [])) ∧
      (em = allOnes → (∀ l, l < 32 → w.v r l = w.v r 0) →
        (fwDefined (fw r) = false → exec i s = .next (s.illconv c w 2)) ∧
        (fwDefined (fw r) = true → fwRow (fw r) = none → exec i s = .next (s.illconv c w 3)) ∧
        ∀ x, fwDefined (fw r) = true → fwRow (fw r) = some x → k.accepts x (fwSpn (fw r)) = false → exec i s = .next (s.illconv c w 4))
    let goodWord (k : MKind) (r : Nat) : Prop := em = allOnes ∧ (∀ l, l < 32 → w.v r l = w.v r 0) ∧ fwDefined (fw r) = true ∧
      ∃ x, fwRow (fw r) = some x ∧ k.accepts x (fwSpn (fw r)) = true
    (w.engineFull = true → ∀ i, (∃ o, i = .mma o ∨ i = .mmas o ∨ i = .mmat o) ∨ (∃ o, i = .zclr o) ∨ (∃ o, i = .zld o ∨ i = .zst o) ∨ (∃ o, i = .zmov o) ∨
      (∃ o, i = .zadd o) ∨ (∃ o, i = .epi o) → exec i s = .next (s.hold c w { kind := 0, arg := 0, dead := 0, done := false })) ∧
    (w.engineFull = false →
      (∀ (o : MmaOp) (t : Team), s.team? w.team = some t → ∀ p ∈ [(MKind.mma, Instr.mma o), (.mmas, .mmas o), (.mmat, .mmat o)],
        let f := fw o.c
        badWord p.2 p.1 o.c ∧
        (goodWord p.1 o.c →
          (∀ h, o.b = .handle h → (t.handle h).loaded = false → exec p.2 s = .next (s.illconv c w 8)) ∧
          ((∀ h, o.b = .handle h → (t.handle h).loaded = true) →
            (o.scl.isSome ≠ (fwScale f == 1) ∨ (∃ r ∈ MmaOp.runs o f, Machine.runOk w.kern.vregs r.1 r.2 = false) → exec p.2 s = .next (s.illconv c w 9)) ∧
            (o.scl.isSome = (fwScale f == 1) → (∀ r ∈ MmaOp.runs o f, Machine.runOk w.kern.vregs r.1 r.2 = true) →
              (∀ h, o.b = .handle h → s.scratchLen w.team < (t.handle h).off + 128 * fwBRegs f →
                exec p.2 s = .next (s.uniFault c w { code := 0x08, cause := 1, addr := segAddr 0 (t.handle h).off })) ∧
              ((∀ h, o.b = .handle h → (t.handle h).off + 128 * fwBRegs f ≤ s.scratchLen w.team ∧ w.sb = [] ∧ (s.cluster (clusterOfKey c.wave)).pb = []) →
                enters p.2 o.ctl.setf o.guard false fun k => k.word = f ∧
                  (∀ r ∈ MmaOp.runs o f, ∀ j, j < r.2 → tget [] k.regs (r.1 + j) = (List.range 32).map (w.v (r.1 + j))) ∧
                  ∀ h, o.b = .handle h → k.aux = memGets t.scratch (t.handle h).off (128 * fwBRegs f)))))) ∧
      (∀ o : ZclrOp, enters (.zclr o) o.ctl.setf o.guard false fun _ => True) ∧
      (∀ (o : ZmemOp), ∀ p ∈ [(Instr.zld o, false), (.zst o, true)],
        let n := 63 * 16 * o.stride + 256
        (s.scratchLen w.team < off o.a + n → exec p.1 s = .next (s.uniFault c w { code := 0x08, cause := 1, addr := segAddr 0 (off o.a) })) ∧
        (off o.a + n ≤ s.scratchLen w.team → off o.a % 16 ≠ 0 → exec p.1 s = .next (s.uniFault c w { code := 0x0B, cause := 0, addr := segAddr 0 (off o.a) })) ∧
        (off o.a + n ≤ s.scratchLen w.team → off o.a % 16 = 0 → enters p.1 o.ctl.setf o.guard p.2 fun k => k.addr = BitVec.ofNat 64 (off o.a))) ∧
      (∀ o : ZmovOp, (em ≠ allOnes → exec (.zmov o) s = .next (s.fault c w 0x04 1 (~~~em) [])) ∧
        (em = allOnes → enters (.zmov o) o.ctl.setf o.guard true fun _ => True)) ∧
      (∀ o : ZaddOp, badWord (.zadd o) .zadd o.c ∧ (goodWord .zadd o.c → enters (.zadd o) o.ctl.setf o.guard false fun k => k.word = fw o.c)))

/-- EPI at issue with its parameter block read: the causes of R141, or the command enters the epilogue queue with its block and bias, and under DEST 1
with its record and the units of the tensor that it writes, which are checked first. -/
def EpilogueIssue : Prop :=
  ∀ (s : State) (c : Cur) (w : Wave) (o : EpiOp) (s1 s2 : State) (blk bias : List Byte), s.ready c w → w.engineFull = false →
    s.structRead (s.who c w) (coreOfKey c.wave) w 256 256 5 (w.s64 o.a) = .ok (s1, blk) →
    let em := (c.split w).em
    let u := s.who c w
    let q := coreOfKey c.wave
    let cause := s1.epiCause q u.ctx w em o blk
    let enters (s3 : State) (what : Cmd → Prop) : Prop := ∃ t w' k, exec (.epi o) s = .next t ∧ t.mem = s3.mem ∧ t.wave? c.wave = some w' ∧ w'.vr = w.vr ∧
      w'.sr = w.sr ∧ (w'.split c.entry).pc = c.next ∧ w'.eq = w.eq ++ [k] ∧ w'.mq = w.mq ∧ k.ins = .epi o ∧ k.guard = o.guard ∧ k.blk = blk ∧ k.aux = bias ∧
      k.rngLo = w.rngLo ∧ k.rngHi = w.rngHi ∧ k.gen = ((s3.core q).act (epiTbank blk)).nextGen ∧ tfind w'.ops k.op = some { flag := o.ctl.setf, left := 1 } ∧
      (∀ f, w'.flag f = if o.ctl.setf = some f then w.flag f + 1 else w.flag f) ∧ what k
    (cause = 1 → exec (.epi o) s = .next (s1.fault c w 0x04 1 (~~~em) [])) ∧
    (1 < cause → exec (.epi o) s = .next (s1.illconv c w cause)) ∧
    (epiDest blk = false → em ≠ allOnes → cause = 1) ∧
    (cause = 0 → s1.readBias u q w (BitVec.ofNat 64 (natAt blk 0x10 8)) ((biasFmt blk).bits / 8) (if epiBiasEn blk then 64 else 0) 0 = .ok (s2, bias) →
      s2.wave? c.wave = some w →
      (o.c = none → enters s2 fun k => k.outs = []) ∧
      ∀ x s3 r, o.c = some x → s2.structRead u q w 128 64 5 (BitVec.ofNat 64 (natAt blk 0x30 8)) = .ok (s3, r) → s3.wave? c.wave = some w →
        let t := trecOf r
        let co := (List.range 5).map fun i => if i < t.rank then (w.s (x + i)).toInt else 0
        (t.fmt ≠ epiOfmt blk ∨ t.rank < 2 → exec (.epi o) s = .next (s3.illconv c w 7)) ∧
        (t.fmt = epiOfmt blk → 2 ≤ t.rank → w.kern.sregs < x + t.rank → exec (.epi o) s = .next (s3.illconv c w 9)) ∧
        (t.fmt = epiOfmt blk → 2 ≤ t.rank → x + t.rank ≤ w.kern.sregs →
          (t.ok (co.getD 0 0) = false → exec (.epi o) s = .next (s3.illconv c w 15)) ∧
          (t.ok (co.getD 0 0) = true →
            (∀ f, s3.epiUnits c w (w.opctr + 1) (epiScope blk) t (epiBox t co) = .error f → exec (.epi o) s = .next (s3.uniFault c w f)) ∧
            ∀ outs, s3.epiUnits c w (w.opctr + 1) (epiScope blk) t (epiBox t co) = .ok outs → enters s3 fun k => k.outs = outs ∧ k.rec2 = r)))

/-- Operand handles and activation tables: OHDL loads a handle and opens its next generation, SPFENCE opens the next generation of one handle or of all
once the wave's scratchpad stores, and those of its commands, are performed, ACTLD queues a table at its bank, and an install makes the oldest waiting table the bank's. -/
def HandlesAndActivation : Prop :=
  (∀ (s : State) (c : Cur) (w : Wave) (t : Team), s.ready c w → s.team? w.team = some t →
    (∀ o : OhdlOp, let off := (w.src (c.split w) 0 o.a).toNat
      (off % 128 ≠ 0 → exec (.ohdl o) s = .next (s.uniFault c w { code := 0x0B, cause := 0, addr := segAddr 0 off })) ∧
      (off % 128 = 0 → ∃ t', exec (.ohdl o) s = .next ((s.putTeam w.team t').done c w) ∧
        t' = { t with handles := t'.handles, ocache := t'.ocache } ∧ t'.handle o.h = { off := off, gen := ((t.handle o.h).gen + 1) % 2 ^ 16, loaded := true } ∧
        ∀ h, h ≠ o.h → t'.handle h = t.handle h)) ∧
    (∀ o : SpfenceOp,
      ((∃ e, SItem.store e ∈ w.sb ∧ e.kind = 1) ∨ (∃ k ∈ w.eq ++ w.he, k.writesScratch = true) →
        exec (.spfence o) s = .next (s.hold c w { kind := 16, arg := 0, dead := 0, done := false })) ∧
      ((∀ e, SItem.store e ∈ w.sb → e.kind ≠ 1) → (∀ k ∈ w.eq ++ w.he, k.writesScratch = false) → ∃ t', (∃ t1 : State, exec (.spfence o) s = .next t1 ∧ t1.team? w.team = some t' ∧ t1.mem = s.mem ∧
          ∃ w', t1.wave? c.wave = some w' ∧ w'.vr = w.vr ∧ w'.sr = w.sr ∧ (w'.split c.entry).pc = c.next) ∧
        t' = { t with handles := t'.handles, ocache := t'.ocache } ∧
        ∀ h, t'.handle h = if h = o.h ∧ o.all = false ∨ h < 16 ∧ o.all = true then { t.handle h with gen := ((t.handle h).gen + 1) % 2 ^ 16 } else t.handle h)) ∧
    (∀ (o : ActldOp) (s1 : State) (b : List Byte), s.structRead (s.who c w) (coreOfKey c.wave) w 2048 128 1 (w.s64 o.a) = .ok (s1, b) →
      s1.wave? c.wave = some w →
      let q := coreOfKey c.wave
      ∃ t1 w' x, exec (.actld o) s = .next t1 ∧ t1.mem = s1.mem ∧ t1.wave? c.wave = some w' ∧ w'.vr = w.vr ∧ w'.sr = w.sr ∧ (w'.split c.entry).pc = c.next ∧
        (t1.core q).act o.bank = { (s1.core q).act o.bank with queue := ((s1.core q).act o.bank).queue ++ [x] } ∧
        x.tab = (List.range 512).map (fun i => BitVec.ofNat 32 (natAt b (4 * i) 4)) ∧ x.ctx = t.ctx ∧
        tfind w'.ops x.op = some { flag := o.ctl.setf, left := 1 } ∧ ∀ f, w'.flag f = if o.ctl.setf = some f then w.flag f + 1 else w.flag f)) ∧
  ∀ (s : State) (q bank : Nat) (x : ActWait) (r : List ActWait), ((s.core q).act bank).queue = x :: r →
    (∀ p ∈ s.waves, p.2.eq = [] ∧ p.2.he = []) → (∀ tm, s.team? x.team = some tm → tfind tm.saved x.wid = none) →
    ∃ t, exec (.activationInstall q bank) s = .next t ∧
      (t.core q).act bank = { loaded := true, owner := x.ctx, gen := ((s.core q).act bank).gen + 1, tab := x.tab, queue := r }

/-- ENGINE_COMMAND_RUN: the head of a queue reads its guard: unresolved it stays, FALSE it is discarded and its flag falls, TRUE and not held it
starts; an epilogue command then reads its tile, a ZLD its rows. -/
def EngineRun : Prop :=
  ∀ (s : State) (k q : Nat) (w : Wave) (c : Cmd) (r : List Cmd), s.wave? k = some w → w.queue q = c :: r → c.started = false → s.clocked (partOfKey k) = true →
    (w.guardOf c = 0 → exec (.engineCommandRun k q) s = .next s) ∧
    (w.guardOf c = 2 → c.op ≠ 0 → exec (.engineCommandRun k q) s = .next (s.putWave k ((w.putQueue q r).donePart c.op))) ∧
    (w.guardOf c = 1 → s.headHeld k w c = true → exec (.engineCommandRun k q) s = .next s) ∧
    (w.guardOf c = 1 → s.headHeld k w c = false → ∃ t w' c', exec (.engineCommandRun k q) s = .next t ∧ t.mem = s.mem ∧ t.wave? k = some w' ∧
      w' = w.putQueue q (c' :: r) ∧ c'.started = true ∧ c'.ins = c.ins ∧ c'.op = c.op ∧
      (∀ n, c.rtile = some n → (∀ m ∈ w.mq, m.op < c.op → m.onTile (some n) = false) → ∀ m, m < 64 →
        tget [] c'.regs m = (((s.core (coreOfKey k)).tile (s.phys w.team n)).drop (64 * m)).take 64) ∧
      (∀ o tm, c.ins = .zld o → s.team? w.team = some tm → ∀ m, m < 64 →
        tget [] c'.regs m = (List.range 64).map fun n => BitVec.ofNat 32 (leNat (memGets tm.scratch (c.addr.toNat + m * 16 * o.stride + 4 * n) 4))))

/-- ENGINE_COMMAND_COMPLETE of the matrix queue: what ZCLR, ZLD, ZADD and a dense MMA leave in their tile. Of an MMA with ACC 1 (I32, wrapping) every
element is the old one, or zero, plus the sum of the exact products; with ACC 0 it is accumulated chunk by chunk of 32 products. -/
def MatrixResults : Prop :=
  ∀ (s : State) (k : Nat) (w : Wave) (c : Cmd) (r : List Cmd), s.wave? k = some w → w.mq = c :: r → c.started = true → c.op ≠ 0 → s.clocked (partOfKey k) = true →
    let q := coreOfKey k
    let tile (t : State) (n : Nat) : List Word := (t.core q).tile (s.phys w.team n)
    let completes (n : Nat) (what : List Word → Prop) : Prop := ∃ t w', exec (.engineCommandComplete k 0) s = .next t ∧ t.mem = s.mem ∧
      t.wave? k = some w' ∧ w'.mq = r ∧ w'.eq = w.eq ∧ w'.vr = w.vr ∧ w'.sr = w.sr ∧
      (∀ f, tfind w.ops c.op = some { flag := some f, left := 1 } → w'.flag f = w.flag f - 1) ∧
      (∀ p, p ≠ s.phys w.team n → (t.core q).tile p = (s.core q).tile p) ∧ what (tile t n)
    (∀ o, c.ins = .zclr o → completes o.d fun z => z = List.replicate 4096 0) ∧
    (∀ o, c.ins = .zld o → (c.regs.map (·.2)).flatten.length = 4096 → completes o.d fun z => z = (c.regs.map (·.2)).flatten) ∧
    (∀ o, c.ins = .zadd o → (tile s o.d).length = 4096 → (tile s o.a).length = 4096 → completes o.d fun z => z.length = 4096 ∧ ∀ i, i < 4096 →
      let x := (tile s o.d).getD i 0
      let y := (tile s o.a).getD i 0
      (fwAcc c.word = 1 → z.getD i 0 = x + y) ∧
      (fwAcc c.word = 2 → z.getD i 0 = BitVec.ofInt 32 (max (-2 ^ 31) (min (2 ^ 31 - 1) (x.toInt + y.toInt)))) ∧
      (fwAcc c.word = 0 → z.getD i 0 = BitVec.ofNat 32 (finishFp fp32 .rn false 0 (exAdd .rn (unpackFp fp32 x.toNat) (unpackFp fp32 y.toNat))).bits)) ∧
    (∀ o, c.ins = .mma o → c.gen ≠ 1 → o.md = none → fwSpn c.word = 0 → fmtOfCode (fwA c.word) ≠ .t2 → (o.acc = true → (tile s o.d).length = 4096) →
      let fa := fmtOfCode (fwA c.word)
      let fb := fmtOfCode (fwB c.word)
      let n := fwK c.word
      let a (i j : Nat) : Nat := imageElt (imageOf c.regs o.a (fwARegs c.word)) fa.bits n i j
      let b (i j : Nat) : Nat := imageElt (match o.b with | .regs v => imageOf c.regs v (fwBRegs c.word) | .handle _ => c.aux) fb.bits n i j
      let old (i : Nat) : Word := if o.acc then (tile s o.d).getD i 0 else 0
      completes o.d fun z => z.length = 4096 ∧ ∀ i j, i < 64 → j < 64 →
        (fwAcc c.word = 1 → z.getD (64 * i + j) 0 =
          BitVec.ofInt 32 ((old (64 * i + j)).toInt + ((List.range n).map fun x => eltInt fa (a i x) * eltInt fb (b j x)).sum)) ∧
        (fwAcc c.word = 0 → fwScale c.word ≠ 1 → z.getD (64 * i + j) 0 = BitVec.ofNat 32 (dotFp (isIntFmt fa) (fun _ => none) (old (64 * i + j)).toNat
          (chunks32 (n / 32) ((List.range n).map fun x => unpackElt fa (a i x))) (chunks32 (n / 32) ((List.range n).map fun x => unpackElt fb (b j x)))).1)) ∧
    (∀ o, c.ins = .mmas o ∨ c.ins = .mmat o → c.gen ≠ 1 → (mmaCompute o c (tile s o.d)).1.length = 4096 →
      completes o.d fun z => z = (mmaCompute o c (tile s o.d)).1)

/-- ENGINE_COMMAND_COMPLETE of the epilogue queue: ZST stores its rows, ZMOV and an EPI with DEST 0 write their V registers, and an EPI with DEST 1
stores the units of the tensor that lie in range, a sector that it writes whole as one entry. -/
def EpilogueResults : Prop :=
  ∀ (s : State) (k : Nat) (w : Wave) (c : Cmd) (r : List Cmd) (tm : Team), s.wave? k = some w → w.eq = c :: r → c.started = true → c.op ≠ 0 → c.batch = 0 →
    s.clocked (partOfKey k) = true → s.team? w.team = some tm → s.mon = [] →
    let core := s.core (coreOfKey k)
    let row (m : Nat) : List Word := tget [] c.regs m
    let completes (what : State → Wave → Prop) : Prop := ∃ t w', exec (.engineCommandComplete k 1) s = .next t ∧ t.mem = s.mem ∧
      t.wave? k = some w' ∧ w'.eq = r ∧ w'.mq = w.mq ∧ w'.sr = w.sr ∧ w'.pr = w.pr ∧ what t w'
    let writes (v n : Nat) (words : Nat → Word) (w' : Wave) : Prop := (∀ i, i < 32 * n → w'.v (v + i / 32) (i % 32) = words i) ∧
      ∀ x l, l < 32 → x < v ∨ v + n ≤ x → w'.v x l = w.v x l
    c.fullRows →
    (∀ o, c.ins = .zst o → completes fun t w' => w'.vr = w.vr ∧ ∃ t', t.team? w.team = some t' ∧ t'.scratch =
      (List.range 64).foldl (fun x m => memPuts x (c.addr.toNat + m * 16 * o.stride) ((row m).map fun y => leBytes 4 y.toNat).flatten) tm.scratch) ∧
    (∀ o, c.ins = .zmov o → o.blk < 8 → completes fun _ w' => writes o.d 16 (fun i => (row (8 * o.blk + i / 64)).getD (i % 64) 0) w') ∧
    (∀ o v, c.ins = .epi o → o.b = some v → o.blk < 8 → let n := fmtBits (epiOfmt c.blk)
      completes fun _ w' => writes v (n / 2) (fun i => BitVec.ofNat 32 (bitsOf
        (packElts n ((List.range 64).map fun j => c.element core s.freeCtr (8 * o.blk + i / (2 * n)) j)) (32 * (i % (2 * n))) 32)) w') ∧
    (∀ o, c.ins = .epi o → o.b = none → tm.audit = false → tm.replay = none → let n := fmtBits (epiOfmt c.blk)
      let b (x : EOut) : List Byte := leBytes (unitBytes n) (packElts n ((List.range (packUnit n)).map fun i => c.element core s.freeCtr x.m (x.n + i)))
      (∀ x ∈ c.outs, x.cnt = packUnit n ∧ x.m < 64 ∧ x.n + packUnit n ≤ 64 ∧ ∀ e ∈ x.es, e.kind = 2 ∧ e.scope = 0) →
      completes fun _ w' => w'.vr = w.vr ∧ w'.sb = w.sb ++ (mergeSectors (c.outs.map fun x => x.es.map fun e =>
        { e with wave := k, core := coreOfKey k, cells := e.cells.map fun p => (p.1, (b x).getD (x.pas.idxOf p.1) 0), bad := false }).flatten).map SItem.store)

/-! ### Copies and batches (chapter 12) -/

/-- BTCOPY, BTGATH and BTLIN at issue: with no active lane nothing happens; a full queue holds the split; the checks of R281 trap for the leader lane;
else the copy joins its queue and the open batch with what it has captured, and counts on its flag. -/
def CopyIssue : Prop :=
  ∀ (s : State) (c : Cur) (w : Wave), s.ready c w →
    let x := c.split w
    let u := s.who c w
    let act (k : Ctl) : LaneMask := w.actLanes x k.pred k.neg
    let lead (k : Ctl) : Nat := lowestLane (act k)
    let joins (b : State) (i : Instr) (k : Ctl) (what : Cmd → Prop) : Prop := (∀ p, b.batchBlock c.wave w = some p →
        b.plainLine ((p + 0x20 + 4 * ((b.homeNat p 4 + 1) % 2 ^ 32 % 16)) / 128)) →
      ∃ t w' y, exec i s = .next t ∧ t.wave? c.wave = some w' ∧ w'.vr = w.vr ∧ w'.sr = w.sr ∧ w'.pr = w.pr ∧ (w'.split c.entry).pc = c.next ∧
        w'.cq = w.cq ++ [y] ∧ w'.mq = w.mq ∧ w'.eq = w.eq ∧ y.ins = i ∧ y.started = false ∧ tfind w'.ops y.op = some { flag := k.setf, left := 1 } ∧
        (∀ f, w'.flag f = if k.setf = some f then w.flag f + 1 else w.flag f) ∧ what y ∧
        (b.batchBlock c.wave w = none → t.mem = b.mem) ∧
        ∀ p, b.batchBlock c.wave w = some p → let q := p + 0x20 + 4 * (y.batch % 16)
          y.batch = (b.homeNat p 4 + 1) % 2 ^ 32 ∧ t.mem = memPuts b.mem q (leBytes 4 ((b.homeNat q 4 + 1) % 2 ^ 32))
    (∀ (i : Instr) (k : Ctl), (∃ o : CopyOp, i = .btcopy o ∧ k = o.ctl) ∨ (∃ o : GathOp, i = .btgath o ∧ k = o.ctl) ∨ (∃ o : LinOp, i = .btlin o ∧ k = o.ctl) →
      (act k = 0 → exec i s = .next (s.done c w)) ∧
      (act k ≠ 0 → w.copyFull = true → exec i s = .next (s.hold c w { kind := 0, arg := 0, dead := 0, done := false }))) ∧
    (w.copyFull = false →
      (∀ (o : CopyOp) (s1 : State) (b : List Byte), act o.ctl ≠ 0 → let l := lead o.ctl
        let ra := w.src64 x l false o.a
        let off := (w.src x l o.c).toNat
        let t := trecOf b
        let fail (code cause : Nat) (addr : DWord) : Prop := exec (.btcopy o) s = .next (s1.fault c w code cause (laneBit l) [(l, addr)])
        s.structReadAt u (coreOfKey c.wave) w l 128 64 5 ra = .ok (s1, b) → s1.wave? c.wave = some w →
        (t.ok (w.src x l o.b).toInt = false → fail 0x04 15 ra) ∧
        (t.ok (w.src x l o.b).toInt = true → w.runFits o.b t.rank = false → fail 0x04 9 ra) ∧
        (t.ok (w.src x l o.b).toInt = true → w.runFits o.b t.rank = true →
          (∀ f, s1.copySide u t.base o.st = some f → fail f.code f.cause f.addr) ∧
          (∀ f, s1.copySide u t.base o.st = none → s1.scratchSide w.team off (t.rows * t.pitch) (if t.swz = 0 then 16 else max 16 t.span) = some f →
            fail f.code f.cause f.addr) ∧
          (s1.copySide u t.base o.st = none → s1.scratchSide w.team off (t.rows * t.pitch) (if t.swz = 0 then 16 else max 16 t.span) = none →
            joins s1 (.btcopy o) o.ctl fun y => y.guard = o.guard ∧ y.rec2 = b ∧ y.addr = BitVec.ofNat 64 off ∧
              ∀ i, i < 5 → y.coord i = if i < t.rank then (w.src x l (o.b.plus i)).toInt else 0))) ∧
      (∀ (o : GathOp) (s1 : State) (b : List Byte), act o.ctl ≠ 0 → let l := lead o.ctl
        let ra := w.src64 x l false o.a
        let off := (w.src x l o.c).toNat
        let c0 := (w.src x l o.b).toInt
        let t : TRec := { trecOf b with boxes := lset (trecOf b).boxes 1 1 }
        let rows := (lanesOf (act o.ctl)).map fun j => (w.v o.e j).toInt
        let fail (code cause : Nat) (addr : DWord) : Prop := exec (.btgath o) s = .next (s1.fault c w code cause (laneBit l) [(l, addr)])
        s.structReadAt u (coreOfKey c.wave) w l 128 64 5 ra = .ok (s1, b) → s1.wave? c.wave = some w →
        (t.ok c0 = false ∨ t.rank ≠ 2 → fail 0x04 15 ra) ∧
        (t.ok c0 = true → t.rank = 2 → s1.copySide u t.base o.st = none →
          s1.scratchSide w.team off (rows.length * t.pitch) (if t.swz = 0 then 16 else max 16 t.span) = none →
          joins s1 (.btgath o) o.ctl fun y => y.guard = o.guard ∧ y.rec2 = b ∧ y.addr = BitVec.ofNat 64 off ∧ y.em = act o.ctl ∧ y.coord 0 = c0 ∧
            ∀ j, j < rows.length → y.coord (j + 1) = rows.getD j 0)) ∧
      ∀ (o : LinOp), act o.ctl ≠ 0 → let l := lead o.ctl
        let side (r : Src) (scr : Bool) : DWord := if scr then BitVec.ofNat 64 (w.src x l r).toNat else w.src64 x l false r
        let a := side o.a o.srcS
        let b := side o.b o.dstS
        let n := (w.src x l o.c).toNat
        let checks := [if o.srcS then none else s.copySide u a false, if o.dstS then none else s.copySide u b true,
          if o.srcS then s.scratchSide w.team a.toNat n 16 else none, if o.dstS then s.scratchSide w.team b.toNat n 16 else none, linAlign o.srcS o.dstS a b n]
        (∀ pre f rest, checks = pre ++ some f :: rest → (∀ y ∈ pre, y = none) →
          exec (.btlin o) s = .next (s.fault c w f.code f.cause (laneBit l) [(l, f.addr)])) ∧
        ((∀ y ∈ checks, y = none) → joins s (.btlin o) o.ctl fun y => y.guard = o.guard ∧ y.addr = a ∧ y.linDst = b ∧ (tget 0 y.sregs 2).toNat = n))

/-- Batches: BTCLOSE closes the open batch and returns its number, or waits while a copy of the wave has not completed
and 15 closed ones are not done; BTWAIT waits for a closed batch and
returns the count of errors, at once for batch 0, and traps for a batch not closed yet; BTRING waits for the wave's copies and sets the completion ring. -/
def Batches : Prop :=
  ∀ (s : State) (c : Cur) (w : Wave) (b : Nat), s.ready c w → s.batchBlock c.wave w = some b → b % 64 = 0 →
    let x := c.split w
    let closed := s.homeNat b 4
    let fin := s.homeNat (b + 4) 4
    let goes (i : Instr) (d : Dst) (n : Nat) (t : State) : Prop := ∃ w', exec i s = .next t ∧ t.wave? c.wave = some w' ∧ w.sameBut w' d 1 x.em ∧
      w'.pr = w.pr ∧ (w'.split c.entry).pc = c.next ∧ ∀ l, l < 32 → c.writes d x.em l = true → w'.dst false d l = n
    (∀ o : CloseOp, let n := (closed + 1) % 2 ^ 32
      (s.copiesOut w = true → serialLt 32 fin ((n + 2 ^ 32 - 15) % 2 ^ 32) = true → exec (.btclose o) s = .next (s.hold c w { kind := 4, arg := n, dead := 0, done := false })) ∧
      (s.copiesOut w = false ∨ serialLt 32 fin ((n + 2 ^ 32 - 15) % 2 ^ 32) = false → s.plainLine (b / 128) → ∃ t, goes (.btclose o) o.d n t ∧ t.homeNat b 4 = n ∧
        ∀ p, p < b ∨ b + 8 ≤ p → memGet t.mem p = memGet s.mem p)) ∧
    (∀ o : BtwaitOp, let n := (w.src x 0 o.a).toNat
      (n = 0 → ∃ t, goes (.btwait o) o.d (s.homeNat (b + 8) 4) t ∧ t.mem = s.mem) ∧
      (n ≠ 0 → serialLt 32 closed n = true → exec (.btwait o) s = .next (s.illconv c w 14)) ∧
      (n ≠ 0 → serialLt 32 closed n = false → s.copiesOut w = true → serialLt 32 fin n = true →
        exec (.btwait o) s = .next (s.hold c w { kind := 5, arg := n, dead := 0, done := false })) ∧
      (n ≠ 0 → serialLt 32 closed n = false → s.copiesOut w = false ∨ serialLt 32 fin n = false → ∃ t, goes (.btwait o) o.d (s.homeNat (b + 8) 4) t ∧ t.mem = s.mem)) ∧
    (∀ o : RingOp, x.wait = none → let base := w.s64 o.a
      let k := (w.src x 0 o.b).toNat
      let power : Prop := ∃ i, i ≤ 16 ∧ k = 2 ^ i
      let set (a : Nat) (n : Nat) : Prop := ∃ t w', exec (.btring o) s = .next t ∧ t.wave? c.wave = some w' ∧ w'.vr = w.vr ∧ w'.sr = w.sr ∧
        (w'.split c.entry).pc = c.next ∧ t.homeNat (b + 0x10) 8 = a ∧ t.homeNat (b + 0x18) 4 = n ∧ t.homeNat (b + 0x1C) 4 = 0 ∧
        ∀ p, p < b + 0x10 ∨ b + 0x20 ≤ p → memGet t.mem p = memGet s.mem p
      (s.copiesLeft w w.opctr = true → exec (.btring o) s = .next (s.hold c w { kind := 6, arg := w.opctr, dead := 0, done := false })) ∧
      (s.copiesLeft w w.opctr = false →
        (selOf base = 0 → k = 0 → s.plainLine (b / 128) → set 0 0) ∧
        (¬(selOf base = 0 ∧ k = 0) → ¬power → exec (.btring o) s = .next (s.illconv c w 15)) ∧
        (power → offOf base % 32 ≠ 0 → exec (.btring o) s = .next (s.uniFault c w { code := 0x0B, cause := 0, addr := base })) ∧
        (power → offOf base % 32 = 0 →
          (∀ f, s.checkRange (s.who c w) { right := 1, kinds := kindsDTH, size := 32 * k, align := 32, write := true } 0 base = .error f →
            exec (.btring o) s = .next (s.uniFault c w f)) ∧
          ∀ a, s.checkRange (s.who c w) { right := 1, kinds := kindsDTH, size := 32 * k, align := 32, write := true } 0 base = .ok a →
            s.plainLine (b / 128) → set base.toNat k)))

/-- COPY_START and COPY_COMPLETE: the head of a copy queue waits for its guard, for its turn (round-robin among the waves of its cluster with a
head that may start) and for a slot, is discarded, or takes the lowest free slot; a step of a BTLIN moves the units of one sector of its
destination, and with the last one its slot is free again, its flag falls and its batch counts one copy less (stated where the homes are calm
and the completion ring is off). -/
def CopyEngine : Prop :=
  let counted (s t : State) (blk : Option Nat) (batch : Nat) : Prop := (blk = none → t.mem = s.mem) ∧ ∀ b, blk = some b →
    let p := b + 0x20 + 4 * (batch % 16)
    t.homeNat p 4 = s.homeNat p 4 - 1 ∧ ∀ q, q < b ∨ b + 0x60 ≤ q → memGet t.mem q = memGet s.mem q
  let ringOff (s : State) (blk : Option Nat) : Prop := ∀ b, blk = some b → b % 64 = 0 ∧ s.homeNat (b + 0x18) 4 = 0
  (∀ (s : State) (k : Nat) (w : Wave) (c : Cmd) (r : List Cmd), s.wave? k = some w → w.cq = c :: r →
    let cl := s.cluster (clusterOfKey k)
    (w.guardOf c = 0 → exec (.copyStart k) s = .next s) ∧
    (w.guardOf c = 1 → s.bteNext (clusterOfKey k) ≠ some k → exec (.copyStart k) s = .next s) ∧
    (w.guardOf c = 1 → (∀ i, i < Config.bteSlots → (tfind cl.slots i).isSome = true) → exec (.copyStart k) s = .next s) ∧
    (∀ i, w.guardOf c = 1 → s.bteNext (clusterOfKey k) = some k → i < Config.bteSlots → tfind cl.slots i = none →
      (∀ j, j < i → (tfind cl.slots j).isSome = true) →
      ∃ t, exec (.copyStart k) s = .next t ∧ t.mem = s.mem ∧ t.wave? k = some { w with cq := r } ∧ (t.cluster (clusterOfKey k)).bteLast = k ∧
        ∃ x : BteCopy, (t.cluster (clusterOfKey k)).slots = tput cl.slots i x ∧ x.team = w.team ∧ x.wid = w.wid ∧ x.wave = k ∧ x.area = w.area ∧
          x.part = partOfKey k ∧ (∀ tm, s.team? w.team = some tm → x.ctx = tm.ctx) ∧ x.cmd = { c with started := true } ∧ x.moved = 0) ∧
    (∀ tm, w.guardOf c = 2 → c.op ≠ 0 → s.calm → s.team? w.team = some tm → ringOff s (s.areaPA tm.part w.area 0x40) → tfind tm.saved w.wid = none →
      tfind tm.wkeys w.wid = some k → ∃ t w', exec (.copyStart k) s = .next t ∧ t.wave? k = some w' ∧ w'.cq = r ∧ w'.vr = w.vr ∧ w'.sr = w.sr ∧
        w'.flags = (w.donePart c.op).flags ∧ w'.ops = (w.donePart c.op).ops ∧ counted s t (s.areaPA tm.part w.area 0x40) c.batch)) ∧
  (∀ (s : State) (j n : Nat), (s.waves.map (·.1)).Pairwise (· < ·) → s.bteNext j = some n →
    let ready (m : Nat) : Prop := ∃ w c r, s.wave? m = some w ∧ clusterOfKey m = j ∧ w.cq = c :: r ∧ w.guardOf c = 1
    let last := (s.cluster j).bteLast
    ready n ∧ ∀ m, ready m → (last < n ∧ (last < m → n ≤ m)) ∨ (n ≤ m ∧ m ≤ last)) ∧
  ∀ (s : State) (k i : Nat) (x : BteCopy) (o : LinOp) (tm : Team) (w : Wave), tfind (s.cluster k).slots i = some x → x.cmd.ins = .btlin o → x.cmd.op ≠ 0 →
    s.team? x.team = some tm → s.wave? x.wave = some w → tm.saved = [] → tfind tm.wkeys x.wid = some x.wave → tm.replay = none → tm.audit = false →
    w.sb = [] → (s.cluster (clusterOfKey x.wave)).pb = [] → s.calm → s.modu.refused = [] →
    ringOff s (s.areaPA tm.part x.area 0x40) → s.marks = [] → tm.smark = [] → x.first = [] → x.bad = false →
    let c := x.cmd
    let n := (tget 0 c.sregs 2).toNat
    let a := c.addr
    let b := c.linDst.toNat
    let m := min (n / 16 - x.moved) (if (b / 16 + x.moved) % 2 = 0 then 2 else 1)
    let steps (scratch : List (Nat × Byte)) : Prop := ∃ t t' w', exec (.copyComplete k i) s = .next t ∧ t.team? x.team = some t' ∧ t'.scratch = scratch ∧
      t.wave? x.wave = some w' ∧ w'.vr = w.vr ∧ w'.sr = w.sr ∧
      (x.moved + m < n / 16 → t.mem = s.mem ∧ w'.flags = w.flags ∧ ∃ y, tfind (t.cluster k).slots i = some y ∧ y.cmd = c ∧ y.moved = x.moved + m) ∧
      (x.moved + m = n / 16 → tfind (t.cluster k).slots i = none ∧ counted s t (s.areaPA tm.part x.area 0x40) c.batch ∧
        ∀ f, tfind w.ops c.op = some { flag := some f, left := 1 } → w'.flag f = w.flag f - 1)
    n % 16 = 0 → b % 16 = 0 → o.dstS = true → x.moved ≤ n / 16 →
    (o.srcS = true → a.toNat % 16 = 0 → a.toNat + n ≤ b ∨ b + n ≤ a.toNat →
      steps (memPuts tm.scratch (b + 16 * x.moved) (memGets tm.scratch (a.toNat + 16 * x.moved) (16 * m)))) ∧
    ∀ (y : Nat → Access) (pas : Nat → List Nat), o.srcS = false →
      (∀ j, j < n / 16 → s.segUnit (s.copyWho k x) a (offOf a + 16 * j) 16 false = .ok (y j, pas j) ∧ (y j).desc.ccode = false ∧
        ∀ p ∈ pas j, s.downAt p = false) → (∀ j, j < n / 16 → (pas j).length = 16) →
      steps (memPuts tm.scratch (b + 16 * x.moved) ((List.range m).map fun j => (pas (x.moved + j)).map (memGet s.mem)).flatten)

/-! ### Blocks, teams, grids, audits (chapters 07, 08, 17, 18) -/

/-- LAUNCH at supervisor level hands its block to the walker behind a release of DEVICE scope, or traps; TAKE_BLOCK answers FCODE 10 for a block that is
under way, writes STATE 5 with the code of a check that fails, or takes the block in STATE 1; PREDECESSORS_DONE waits for every predecessor, moves a
submission on to STATE 2, and ends it when a predecessor has failed; an inner node that expects a child goes on to STATE 3. A field of a block is
written through the block's own seg-address (stated where the homes are calm), and a submission that is over stays as a node while another stands
below it. -/
def BlocksAreTaken : Prop :=
  (∀ (s : State) (c : Cur) (w : Wave) (o : LaunchOp), s.ready c w →
    let u := s.who c w
    let ea := w.s64 o.a
    let need : Need := { right := 0, kinds := kindsDTH, size := 256, align := 256, write := false }
    let bytes (a : Access) : List (Byte × Bool) := s.rangeBytes u (coreOfKey c.wave) w 3 0 256 a
    (w.clvl = false → exec (.launch o) s = .next (s.illegal c w cUNDEFOP)) ∧
    (w.clvl = true → s.audited w = true → exec (.launch o) s = .next (s.illconv c w 26)) ∧
    (w.clvl = true → s.audited w = false →
      (∀ f, s.checkRange u need 0 ea = .error f → exec (.launch o) s = .next (s.uniFault c w f)) ∧
      (∀ a, s.checkRange u need 0 ea = .ok a → s.refuses c.wave 256 a = true →
        exec (.launch o) s = .next ((s.refused (2 * c.wave)).uniFault c w { code := 0x0F, cause := 5, addr := ea })) ∧
      (∀ a, s.checkRange u need 0 ea = .ok a → s.refuses c.wave 256 a = false → (∃ b ∈ bytes a, b.2 = true) →
        exec (.launch o) s = .next (s.uniFault c w { code := 0x0F, cause := 5, addr := ea })) ∧
      (∀ a, s.checkRange u need 0 ea = .ok a → s.refuses c.wave 256 a = false → (∀ b ∈ bytes a, b.2 = false) →
        ∃ t w' op, exec (.launch o) s = .next t ∧ t.mem = s.mem ∧
        t.wave? c.wave = some w' ∧ w'.vr = w.vr ∧ w'.sr = w.sr ∧ (w'.split c.entry).pc = c.next ∧ w'.sb = w.sb ++ [.marker 3 none op] ∧
        tfind w'.ops op = some { flag := o.ctl.setf, left := 2 } ∧ (∀ f, w'.flag f = if o.ctl.setf = some f then w.flag f + 1 else w.flag f) ∧
        (t.part u.part).launches = (s.part u.part).launches ++
          [{ block := ea, pa := a.pa, ctx := u.ctx, level := true, boot := false, wave := c.wave, op := op }]))) ∧
  (∀ (s : State) (p : Nat) (q : Submit) (rest : List Submit), s.calm → (s.part p).launches = q :: rest → s.launchReady q = true →
    let u := unitWho p q.ctx q.level
    let s1 := s.modPart p fun x => { x with launches := rest }
    let goes (t : State) (code : Nat) : Prop := exec (.takeBlock p) s = .next (if q.boot then t else t.modWave q.wave (·.launchDone q.op code))
    (∀ f, s1.checkRange u blockNeed 0 q.block = .error f → goes (s1.blockFail (subOf p q []) 5) 5) ∧
    ∀ a, s1.checkRange u blockNeed 0 q.block = .ok a →
      let b := s1.rangeBytes u (4 * u.k) s1.nobody 3 0 256 a
      let r := b.map (·.1)
      let st := natAt r 0x84 4 % 8
      let x0 := subOf p q r
      let running : Prop := (∀ y ∈ (b.drop 0x84).take 4, y.2 = false) ∧ 1 ≤ st ∧ st ≤ 3
      let lost : Prop := (∃ y ∈ b, y.2 = true) ∨ s1.downAt a.pa = true ∨ s1.downAt a.pa2 = true
      (running → goes s1 10) ∧
      (¬running → lost → goes (s1.blockFail (subOf p q []) 5) 5) ∧
      (¬running → ¬lost → ∀ s2 code x, s1.blockCheck x0 = (s2, code, x) →
        let v := (s2.subPut x0 0x80 4 0).subPut x0 0x90 4 0
        (code ≠ 0 → goes (v.blockFail x0 code) code) ∧
        (code = 0 → let y := if x.leaf then { x with gridid := p * 2 ^ 30 + (v.part p).leafs % 2 ^ 30 } else x
          ∃ t, goes t 0 ∧ tfind t.subs v.teamctr = some y ∧ t.teamctr = v.teamctr + 1 ∧ (∃ z : State, t.mem = (z.subState y 1 0).mem ∧ z.mem = v.mem ∧ z.clusters = v.clusters) ∧
            (x.leaf = true → (t.part p).leafs = ((v.part p).leafs + 1) % 2 ^ 30)))) ∧
  (∀ (w : Wave) (op code n : Nat) (l r : List Pend) (y : Pend) (a : LaneAtom), w.pend = l ++ y :: r → y.op = op → y.atoms = [a] → a.fn = 18 →
    y.dst = some (.s n) → (∀ z ∈ l ++ r, z.op ≠ op) → (w.launchDone op code).pend =
      l ++ { y with atoms := [], writes := [{ reg := 192 + n, lane := 0, val := BitVec.ofNat 32 code }] } :: r) ∧
  (∀ (s : State) (x : Sub) (off n v : Nat) (a : Access), s.calm → n ≤ a.cut →
    s.walkerAccess x { right := 1, kinds := kindsDTH, size := n, align := n, write := true } (x.block + BitVec.ofNat 64 off) = .ok a →
    (s.subPut x off n v).mem = memPuts s.mem a.pa (leBytes n v) ∧ (s.subPut x off n v).waves = s.waves ∧ (s.subPut x off n v).calm) ∧
  (∀ (s : State) (x : Sub) (code : Nat), s.blockFail x code = (s.subPut x 0x88 8 s.gts).subPut x 0x84 4 (5 + code * 2 ^ 24)) ∧
  (∀ (s : State) (p i : Nat) (x : Sub), s.calm → tfind s.subs i = some x → x.part = p →
    let ps := (List.range (blkNpred x.rcb)).map fun j => ((s.walkerRead x 4 (BitVec.ofNat 64 (blkPred x.rcb j) + 0x84)).2).map (· % 8)
    (x.state = 1 → some 5 ∈ ps → exec (.predecessorsDone p i) s = .next (s.subFail i 7)) ∧
    (x.state = 1 → some 5 ∉ ps → (∃ y ∈ ps, y ≠ some 4) → exec (.predecessorsDone p i) s = .next s) ∧
    (x.state = 1 → (∀ y ∈ ps, y = some 4) → ∃ t, exec (.predecessorsDone p i) s = .next t ∧ tfind t.subs i = some { x with state := 2 } ∧
      t.mem = (s.subState x 2 0).mem) ∧
    (x.state = 2 → x.leaf = false → natAt x.rcb 0x50 4 ≠ 0 → ∃ t, exec (.predecessorsDone p i) s = .next t ∧ tfind t.subs i = some { x with state := 3 } ∧
      t.mem = (s.subState x 3 0).mem)) ∧
  ∀ (s : State) (i : Nat) (x : Sub), (x.parent ≠ some i → (∀ z ∈ s.subs, z.2.parent ≠ some i) → tfind (s.endSub i x).subs i = none) ∧
    ((s.subs.map (·.1)).Pairwise (· < ·) → (∃ z ∈ s.subs, z.1 ≠ i ∧ z.2.parent = some i ∧ z.2.state ≠ 8) →
      tfind (s.endSub i x).subs i = some { x with state := 8, pin := none })

/-- TEAM_ADMISSION with one leaf in turn admits its next team on the core that fits, each wave in its quadrant; SAVE_ENTRY takes a due wave at a
pre-emption point into its save, and RESTORE_ENTRY a seated saved wave into its restore routine, both through the supervisor's vector. -/
def AdmissionAndSave : Prop :=
  (∀ (s : State) (p : Nat), s.leaves p = [] → exec (.teamAdmission p) s = .next s) ∧
  (∀ (s : State) (p : Nat), s.clocked p = false → (∀ x ∈ s.leaves p, s.hopeless x.1 x.2 = false) → exec (.teamAdmission p) s = .next s) ∧
  (∀ (s : State) (p id i : Nat) (x : Sub) (picks : List Nat), s.calm → s.clocked p = true → s.leaves p = [(id, x)] → tfind s.subs id = some x → x.part = p → x.state = 3 →
    blkCosched x.rcb = false → s.teamsBy id = [] → x.next < blkTeams x.rcb → s.fits id x [(none, x.next)] (s.freeAreas p) = some [(i, picks)] →
    ∃ t tm y, exec (.teamAdmission p) s = .next t ∧ t.teamctr = s.teamctr + 1 ∧ t.team? s.teamctr = some tm ∧ tm.sub = id ∧ tm.part = p ∧
      tm.core = 48 * p + i ∧ tm.ctx = blkCtx x.rcb ∧ tm.linear = x.next ∧ tm.x = x.next % blkTx x.rcb ∧ tm.y = x.next / blkTx x.rcb % blkTy x.rcb ∧
      tm.z = x.next / (blkTx x.rcb * blkTy x.rcb) ∧ tm.gridid = x.gridid ∧ tm.scratch = [] ∧ tm.saved = [] ∧ tfind t.subs id = some y ∧ y.next = x.next + 1 ∧
      ∀ a, picks = [a] → ∃ k w, tfind tm.wkeys 0 = some k ∧ t.wave? k = some w ∧ w.team = s.teamctr ∧ w.wid = 0 ∧ w.kern = x.kern ∧
        (w.split 0).pc = x.kern.koff + 64 ∧ (w.split 0).em = allOnes) ∧
  (∀ (s : State) (k : Nat) (w : Wave) (code : Nat), s.calm → s.clocked (partOfKey k) = true → s.wave? k = some w → w.due = some code →
    (w.intrap = true → exec (.saveEntry k) s = .next (s.putWave k { w with prepend := true })) ∧
    (w.intrap = false → w.liveLanes = 0 ∨ w.allAtPoint = false ∨ w.drained = false → exec (.saveEntry k) s = .next s) ∧
    (w.intrap = false → w.liveLanes ≠ 0 → w.allAtPoint = true → w.drained = true → Config.saveAreaBytes * w.area < 2 ^ 44 → ∃ t w', exec (.saveEntry k) s = .next t ∧ t.wave? k = some w' ∧
      w'.due = none ∧ w'.trapcode = code ∧ w'.trapinfo = 1 ∧ w'.intrap = true ∧ w'.clvl = true ∧ w'.plvl = w.clvl ∧ w'.codesel = selOf (s.part (partOfKey k)).svec ∧
      w'.faddr = [(0, segAddr 0x80000 (Config.saveAreaBytes * w.area))] ∧ w'.mq = [] ∧ w'.eq = [] ∧ w'.cq = [] ∧ w'.hm = w.mq ∧ w'.he = w.eq ∧ w'.hc = w.cq ∧
      w'.splits = w.splits ∧ w'.handler = some (handlerSplit w.liveLanes (offOf (s.part (partOfKey k)).svec)) ∧ w'.vr = w.vr ∧ w'.sr = w.sr)) ∧
  ∀ (s : State) (k : Nat) (w : Wave) (tm : Team) (sv : Saved), s.wave? k = some w → w.restore = true → s.clocked (partOfKey k) = true →
    s.unowned (clusterOfKey k) → s.team? w.team = some tm → tfind tm.saved w.wid = some sv →
    ∃ t w' tm', exec (.restoreEntry k) s = .next t ∧ t.mem = s.mem ∧ t.wave? k = some w' ∧ t.team? w.team = some tm' ∧ tfind tm'.saved w.wid = none ∧
      w'.trapcode = 0x13 ∧ w'.trapinfo = 2 ∧ w'.intrap = true ∧ w'.clvl = true ∧ w'.codesel = selOf (s.part (partOfKey k)).svec ∧
      w'.faddr = [(0, segAddr 0x80000 (Config.saveAreaBytes * w.area))] ∧
      w'.fpstat = BitVec.ofNat 32 (natAt (s.areaGet (partOfKey k) w.area 0 0x1600) 0x100 4) ∧
      w'.linkname = dword (BitVec.ofNat 32 (natAt (s.areaGet (partOfKey k) w.area 0 0x1600) 0x12C 4)) (BitVec.ofNat 32 (natAt (s.areaGet (partOfKey k) w.area 0 0x1600) 0x130 4)) ∧
      w'.hm = sv.mq ∧ w'.he = sv.eq ∧ w'.hc = sv.cq ∧ w'.ops = sv.ops ∧ w'.opctr = sv.opctr ∧ w'.unwind = sv.unwind ∧ (t.cluster (clusterOfKey k)).copies = []

/-- WAVE_RETIREMENT frees a wave that has nothing left, and the team with its last wave, which its block's TDONE counts; GRID_COMPLETION moves a finished
block on in three steps: STATE 4, the post to its parent, the wake write. -/
def WavesAndGridsEnd : Prop :=
  (∀ (s : State) (k : Nat) (w : Wave), s.wave? k = some w → s.waveOver w = false → exec (.waveRetirement k) s = .next s) ∧
  (∀ (s : State) (k : Nat) (w : Wave) (tm : Team), s.calm → s.wave? k = some w → s.waveOver w = true → w.sb = [] → w.linkent.getLsbD 31 = false →
    s.team? w.team = some tm →
    ∃ t, exec (.waveRetirement k) s = .next t ∧ t.wave? k = none ∧
      (∀ j, j ≠ k → t.wave? j = s.wave? j) ∧
      (tdel tm.wkeys w.wid ≠ [] → t.team? w.team = some { tm with wkeys := tdel tm.wkeys w.wid } ∧ t.mem = s.mem ∧ t.subs = s.subs) ∧
      (∀ x, tdel tm.wkeys w.wid = [] → tm.saved = [] → tm.replay = none → tm.audit = false → tfind s.subs tm.sub = some x →
        t.team? w.team = none ∧ tfind t.subs tm.sub = some { x with tdone := x.tdone + 1 } ∧
          ∃ s1 : State, t = s1.putTdone x ((x.tdone + 1) % 2 ^ 32) ∧ s1.mem = s.mem ∧ s1.calm)) ∧
  (∀ (s : State) (x : Sub) (v : Nat) (a : Access), s.calm → 4 ≤ a.cut →
    s.walkerAccess x { right := 1, kinds := kindsDTH, size := 4, align := 4, write := true } (x.block + 0x90) = .ok a →
    (s.putTdone x v).mem = memPuts s.mem a.pa (leBytes 4 v)) ∧
  ∀ (s : State) (p i : Nat) (x : Sub), s.calm → tfind s.subs i = some x → x.part = p →
    (x.state ≠ 6 → x.state ≠ 7 → s.blockOver i x = false → exec (.gridCompletion p i) s = .next s) ∧
    (x.state ≠ 6 → x.state ≠ 7 → s.blockOver i x = true → ∃ t, exec (.gridCompletion p i) s = .next t ∧ tfind t.subs i = some { x with state := 6 } ∧
      (let s1 := if x.leaf then ((List.range 12).map (12 * p + ·)).foldl State.publishAll s else s
        ∀ a, s1.calm → (s1.subPut x 0x88 8 s.gts).walkerAccess x { right := 1, kinds := kindsDTH, size := 4, align := 4, write := true }
        (x.block + 0x84) = .ok a → 4 ≤ a.cut → t.homeNat a.pa 4 = 4)) ∧
    (x.state = 6 → ∃ t, exec (.gridCompletion p i) s = .next t ∧ tfind t.subs i = some { x with state := 7 } ∧
      (blkParent x.rcb = 0 → t.mem = s.mem) ∧
      ∀ a st n, blkParent x.rcb ≠ 0 → s.walkerAccess x { right := 3, kinds := kindsDTH, size := 4, align := 4, write := true } (BitVec.ofNat 64 (blkParent x.rcb) + 0x80) = .ok a →
        (s.walkerRead x 4 (BitVec.ofNat 64 (blkParent x.rcb) + 0x84)).2 = some st → (s.walkerRead x 4 (BitVec.ofNat 64 (blkParent x.rcb) + 0x80)).2 = some n →
        st % 8 = 3 → 4 ≤ a.cut → t.homeNat a.pa 4 = (n + 1) % 2 ^ 32) ∧
    (x.state = 7 → ∃ t, exec (.gridCompletion p i) s = .next t ∧ ((∀ z ∈ s.subs, z.2.parent ≠ some i) → tfind t.subs i = none) ∧
      (blkWakeen x.rcb = false → t.mem = s.mem) ∧
      (∀ a, blkWakeen x.rcb = true → s.walkerAccess x { right := 1, kinds := [2, 3, 4, 5], size := 4, align := 4, write := true } (blkWakeaddr x.rcb) = .ok a → 4 ≤ a.cut →
        t.homeNat a.pa 4 = natAt x.rcb 0x78 4) ∧
      ∀ f, x.pin = some f → (t.part p).unpins = (s.part p).unpins ++ [(natAt x.rcb 4 4 / 2 ^ 16 % 2 ^ 12, f, false)])

/-- The auditor: a replay starts when nobody waits for room; equal signatures count in AUDOK, unequal ones want a third run, and after that the
mismatch counts in AUDBAD and sets the fault domain's bit; a wave of that domain takes trap 0x11 at a pre-emption point. A teardown puts the
partition in reset with its power state. -/
def AuditsAndTeardown : Prop :=
  (∀ (s : State) (p : Nat), s.anyWaits p = true → exec (.auditReplay p) s = .next s) ∧
  (∀ (s : State) (p : Nat) (a : Audit) (x : Sub) (i : Nat) (picks : List Nat), s.calm → s.clocked p = true → s.anyWaits p = false →
    (∀ t ∈ s.teams, ¬(t.2.part = p ∧ t.2.away = true ∧ t.2.replay.isSome = true)) → (s.part p).audits = [a] → a.wants = true → x.part = p →
    tfind s.subs a.team.sub = some x → s.replaySpot p (x.need true) (a.team.core :: a.cores) = some (i, picks) →
    ∃ t tm, exec (.auditReplay p) s = .next t ∧ t.team? s.teamctr = some tm ∧ tm.replay = some a.id ∧ tm.core = 48 * p + i ∧ tm.linear = a.team.linear ∧
      tm.x = a.team.x ∧ tm.y = a.team.y ∧ tm.z = a.team.z ∧ tm.seed = a.team.seed ∧ tm.param = a.team.param ∧ tm.sig = 0 ∧ tm.audit = true ∧
      (t.part p).audits = [{ a with running := some s.teamctr }]) ∧
  (∀ (s : State) (p : Nat) (a : Audit), (∀ t ∈ s.teams, ¬(t.2.part = p ∧ t.2.replay.isSome = true ∧ t.2.rover = true)) → (s.part p).audits = [a] → a.running = none →
    let x := s.part p
    (∀ g, a.sigs = [g] → a.third = false → g = a.team.sig → ∃ t, exec (.auditCompare p) s = .next t ∧
      t.part p = { x with audok := (x.audok + 1) % 2 ^ 32, audits := [] } ∧ t.mem = s.mem) ∧
    (∀ g, a.sigs = [g] → a.third = false → g ≠ a.team.sig → ∃ t, exec (.auditCompare p) s = .next t ∧
      t.part p = { x with audits := [{ a with third := true }] } ∧ t.mem = s.mem) ∧
    (∀ g h, a.sigs = [g, h] → x.evcount = 0 → x.fdpend.length = 8 → a.team.fdom < 256 → ∃ t, exec (.auditCompare p) s = .next t ∧
      (t.part p).audbad = (x.audbad + 1) % 2 ^ 32 ∧ (t.part p).audits = [] ∧ (t.part p).fdBit a.team.fdom = true ∧ t.mem = s.mem ∧
      (h = a.team.sig → bitsOf x.audctl 8 8 = 0 → t.audfailOf (a.cores.getD 0 0) = s.audfailOf (a.cores.getD 0 0) + 1))) ∧
  (∀ (s : State) (k : Nat) (w : Wave) (tm : Team), s.wave? k = some w → s.team? w.team = some tm →
    let p := s.part tm.part
    (p.fdBit tm.fdom = false ∨ s.clocked tm.part = false ∨ w.intrap = true ∨ w.liveLanes = 0 ∨ w.allAtPoint = false ∨ tm.replay.isSome = true → exec (.audit k) s = .next s) ∧
    (p.fdBit tm.fdom = true → s.clocked tm.part = true → w.intrap = false → w.liveLanes ≠ 0 → w.allAtPoint = true → tm.replay = none → p.fdpend.length = 8 →
      ∃ t w' tm', exec (.audit k) s = .next t ∧ t.mem = s.mem ∧ t.wave? k = some w' ∧ w'.trapcode = 0x11 ∧ w'.trapinfo = 1 ∧ w'.intrap = true ∧ w'.clvl = true ∧
        w'.plvl = w.clvl ∧ w'.splits = w.splits ∧ w'.vr = w.vr ∧ w'.sr = w.sr ∧ w'.handler = some (handlerSplit w.liveLanes (offOf p.svec)) ∧
        (∀ b, tfind p.blames tm.fdom = some b → w'.audCore = b.1 ∧ w'.audTeam = b.2.1 ∧ w'.audGrid = b.2.2) ∧
        (t.part tm.part).fdBit tm.fdom = false ∧ t.team? w.team = some tm' ∧ tm'.trapped = true)) ∧
  ∀ (s : State) (p : Nat), ((s.part p).running = false → exec (.partitionTeardown p) s = .next s) ∧
    ((s.part p).running = true → ∃ t, exec (.partitionTeardown p) s = .next t ∧ t.part p = { Part.reset with power := (t.part p).power } ∧
      (∀ x ∈ t.waves, partOfKey x.1 ≠ p) ∧ (∀ x ∈ t.teams, x.2.part ≠ p) ∧ (∀ x ∈ t.subs, x.2.part ≠ p) ∧ (∀ x ∈ t.cores, x.1 / 48 ≠ p) ∧
      (∀ x ∈ t.clusters, x.1 / 12 ≠ p) ∧ (∀ x ∈ t.mon, partOfKey x.wave ≠ p))

/-! ### The world outside (chapters 20, 22) -/

/-- The host's commands: Start writes a partition's registers and hands its boot block to the walker, or fails with no effect; Stop, Set State and the
trust list answer as R395, R396, R402 and R406 say (the answer codes are log 16). -/
def HostCommands : Prop :=
  ∀ (s : State),
    let told (t : State) (op code : Nat) : Prop := t.modu.answers = s.modu.answers ++ [(op, code)]
    let fails (i : Instr) (op code : Nat) : Prop := exec i s = .next (s.answer op code)
    (∀ o : StartPayload,
      (startOk o = false ∨ (s.part o.part).running = true ∨ s.bootBlock o = none → fails (.start o) 0xC001 2) ∧
      (∀ pa ctx, startOk o = true → (s.part o.part).running = false → s.bootBlock o = some (pa, ctx) → ∃ t, exec (.start o) s = .next t ∧ told t 0xC001 0 ∧
        t.mem = s.mem ∧ t.waves = s.waves ∧ t.part o.part = (let q := { s.part o.part with running := true, leafs := 0, ctxt := o.ctxt, ctxtn := o.ctxtn }
          let r := { q with svseg := o.svseg, svsegn := o.svsegn, svpt := o.svpt, svec := o.svec }
          { r with launches := [{ block := o.bootrcb, pa := pa, ctx := ctx, level := true, boot := true, wave := 0, op := 0 }] }))) ∧
    (∀ (p : Nat) (force reserved : Bool),
      (reserved = true ∨ 4 ≤ p → fails (.stop p force reserved) 0xC002 2) ∧
      (reserved = false → p < 4 → (s.part p).running = false → fails (.stop p force reserved) 0xC002 0) ∧
      (reserved = false → p < 4 → (s.part p).running = true → force = false → s.blocksRun p = true → fails (.stop p force reserved) 0xC002 1) ∧
      (reserved = false → p < 4 → (s.part p).running = true → force = true ∨ s.blocksRun p = false → ∃ t, exec (.stop p force reserved) s = .next t ∧
        t.part p = { Part.reset with power := (t.part p).power } ∧ ∀ x ∈ t.waves, partOfKey x.1 ≠ p)) ∧
    (∀ b0 b1 : Byte, let p := b0.toNat
      let st := b1.toNat
      (4 ≤ p ∨ 10 ≤ st → fails (.setState b0 b1) 0xC010 2) ∧
      (p < 4 → st = 9 → s.anyWave p = true → fails (.setState b0 b1) 0xC010 1) ∧
      (p < 4 → st < 7 → s.modu.clamp = true → s.modu.cool = false → fails (.setState b0 b1) 0xC010 6) ∧
      (p < 4 → st < 9 → (s.part p).power ≠ 9 → ¬(st < 7 ∧ s.modu.clamp = true ∧ s.modu.cool = false) → ∃ t, exec (.setState b0 b1) s = .next t ∧ told t 0xC010 0 ∧
        t.mem = s.mem ∧ t.part p = { s.part p with power := st } ∧ t.modu.clamp = (s.modu.clamp && !s.modu.cool)) ∧
      (p < 4 → st < 9 → (s.part p).power = 9 → ¬(st < 7 ∧ s.modu.clamp = true ∧ s.modu.cool = false) → ∃ t, exec (.setState b0 b1) s = .next t ∧ told t 0xC010 0 ∧
        t.part p = { Part.reset with power := st }) ∧
      (p < 4 → st = 9 → s.anyWave p = false → ∃ t, exec (.setState b0 b1) s = .next t ∧ (t.part p).power = 9)) ∧
    (∀ (auth : Bool) (keys : List (BitVec 512)),
      (32 < keys.length → fails (.setTrustList auth keys) 0xC020 2) ∧
      (keys.length ≤ 32 → auth = false → fails (.setTrustList auth keys) 0xC020 1) ∧
      (keys.length ≤ 32 → auth = true → ∃ t, exec (.setTrustList auth keys) s = .next t ∧ told t 0xC020 0 ∧ t.modu.trust = keys ∧ t.mem = s.mem)) ∧
    (∀ die celsius : Nat, ∃ t, exec (.thermalClamp die celsius) s = .next t ∧ tfind t.modu.temps die = some celsius ∧ t.mem = s.mem ∧
      (celsius ≤ 105 → t.modu.clamp = s.modu.clamp ∧ t.modu.alerts = s.modu.alerts ∧ t.modu.cxl = s.modu.cxl ∧ t.parts = s.parts) ∧
      (105 < celsius → t.modu.clamp = true ∧ t.modu.alerts = s.modu.alerts ++ [(0x404, die)] ∧ t.modu.cxl = s.modu.cxl ++ [(0x404, die)] ∧ ∀ p, p < 4 → 7 ≤ (t.part p).power))

/-- Identity, firmware and reset: certificates, challenges and measurements are answered and change nothing else (their byte layouts are the model's own, log 13);
an image that verifies with a counter not below the stored one waits for the next module reset, which restores everything but what no reset restores. -/
def IdentityAndReset : Prop :=
  ∀ (s : State),
    let answers (i : Instr) (b : List Byte) : Prop := exec i s = .next { s with modu := { s.modu with spdm := s.modu.spdm ++ [b] } }
    answers .getCertificate Config.certChain ∧
    (∀ nonce, answers (.challenge nonce) (nonce ++ sigBytes (Config.ecdsaSign 0 nonce))) ∧
    (∀ index nonce, (index = 0 ∨ 6 < index → answers (.getMeasurements index nonce) []) ∧
      (1 ≤ index → index ≤ 6 → let b := digestBytes (Config.sha512 (s.measuredBytes index)) ++ nonce
        answers (.getMeasurements index nonce) (b ++ sigBytes (Config.ecdsaSign 0 b)))) ∧
    (∀ image, let ok : Prop := Config.firmwareVerifies image = true ∧ s.modu.rollback ≤ Config.firmwareCounter image
      (ok → exec (.firmwareUpdate image) s = .next { s with modu := { s.modu with stored := some image } }) ∧ (¬ok → exec (.firmwareUpdate image) s = .next s)) ∧
    ∃ t, exec .moduleReset s = .next t ∧ t.waves = [] ∧ t.teams = [] ∧ t.subs = [] ∧ t.cores = [] ∧ t.clusters = [] ∧ t.parts = [] ∧ t.gts = 0 ∧ t.dir = [] ∧
      t.hq = [] ∧ t.mon = [] ∧ t.cairns = [] ∧ t.mem = s.mem ∧ t.qregs = s.qregs ∧ t.ztiles = s.ztiles ∧ t.sramb = s.sramb ∧ t.msckb = s.msckb ∧
      t.audfail = s.audfail ∧ t.units = s.units ∧ t.modu.trust = s.modu.trust ∧ t.modu.stored = none ∧
      t.modu.cistern = tmap (fun _ b => { b with ents := b.ents.map fun e => { e with by_ := [] } }) s.modu.cistern ∧
      (∀ i, s.modu.stored = some i → t.modu.running = i ∧ t.modu.rollback = Config.firmwareCounter i) ∧
      (s.modu.stored = none → t.modu.running = s.modu.running ∧ t.modu.rollback = s.modu.rollback)

/-- Translations: a lookup that finds nothing builds one when Ndelet is enabled and counts it; a built one, like one that is found, waits to be
verified, and is then installed, or discarded from the store, counted, and built again where Ndelet is enabled. A native kernel is never translated.
(When a lookup and a verification happen is the model's own, log 66.) -/
def Translations : Prop :=
  (∀ (s : State) (p ctx sel off : Nat), (s.part p).running = false ∨ (decide (ctx = 4096) ≠ bitOf sel 19) ∨
      (∃ y ∈ (s.part p).trans, y.gone = false ∧ y.ctx = ctx ∧ y.sel = sel ∧ y.off = off) ∨ (∃ y ∈ (s.part p).found, y.ctx = ctx ∧ y.sel = sel ∧ y.off = off) →
    exec (.translationBuild p ctx sel off) s = .next s) ∧
  (∀ (s : State) (p ctx sel off : Nat) (h code : List Byte) (room r2 : Nat), (s.part p).running = true → decide (ctx = 4096) = bitOf sel 19 →
    (∀ y ∈ (s.part p).trans, y.gone = true ∨ ¬(y.ctx = ctx ∧ y.sel = sel ∧ y.off = off)) →
    (∀ y ∈ (s.part p).found, ¬(y.ctx = ctx ∧ y.sel = sel ∧ y.off = off)) →
    s.imageBytes p ctx (decide (ctx = 4096)) sel off 64 = some (h, room) → badHeader h room = false →
    let k := kernelOf h sel off
    let goes (t : State) (e : CistEnt) (pool : Bool) : Prop := t.mem = s.mem ∧ t.waves = s.waves ∧ (t.part p).trans = (s.part p).trans ∧
      (t.part p).found = (s.part p).found ++ [{ ctx := ctx, sel := sel, off := off, len := k.codelen, ent := e, oasis := pool }]
    (k.native = true → exec (.translationBuild p ctx sel off) s = .next s) ∧
    (k.native = false → k.codelen ≠ 0 → s.imageBytes p ctx (decide (ctx = 4096)) sel (off + 64) k.codelen = some (code, r2) →
      let key := cistKey h code
      (∀ e, (s.part p).cisten = true → s.modu.cistEnts.find? (·.key == key) = some e → ∃ t, exec (.translationBuild p ctx sel off) s = .next t ∧ goes t e false ∧
        (t.part p).trhitc = ((s.part p).trhitc + 1) % 2 ^ 32) ∧
      ((s.part p).cisten = false ∨ (∀ e ∈ s.modu.cistEnts, e.key ≠ key) →
        (∀ e, (s.part p).oasen = true → s.poolFind p key 0 s.poolFuel = .ok e → ∃ t, exec (.translationBuild p ctx sel off) s = .next t ∧ goes t e true ∧
          (t.part p).trhito = ((s.part p).trhito + 1) % 2 ^ 32 ∧ t.modu = s.modu) ∧
        ((s.part p).oasen = false →
          ((s.part p).nden = false → exec (.translationBuild p ctx sel off) s = .next s) ∧
          ((s.part p).nden = true → ∃ t e, exec (.translationBuild p ctx sel off) s = .next t ∧ goes t e false ∧
            (t.part p).trbuilt = ((s.part p).trbuilt + 1) % 2 ^ 32 ∧ e.key = key ∧ e.featv = Config.featv ∧ e.signer = Config.deviceKey ∧
            e.table = (lower (kernelEnv k) k.illh code).1 ∧ e.image = ((lower (kernelEnv k) k.illh code).2.map (leBytes 8)).flatten ∧
            e.sig = Config.ecdsaSign 0 (signedBytes key e.image e.table) ∧ ((s.part p).nostore = true ∨ (s.part p).cisten = false → t.modu = s.modu)))))) ∧
  ∀ (s : State) (p i : Nat),
    let same (x y : CistEnt) : Prop := x.key = y.key ∧ x.signer = y.signer ∧ x.sig = y.sig ∧ x.image = y.image ∧ x.table = y.table
    ((s.part p).found[i]? = none → exec (.translationInstall p i) s = .next s) ∧
    ∀ f, (s.part p).found[i]? = some f →
      (s.trusts f.ent = false → ∃ t r, exec (.translationInstall p i) s = .next t ∧ (t.part p).found = ldel (s.part p).found i ++ r ∧
        (t.part p).trans = (s.part p).trans ∧ (t.part p).trrej = ((s.part p).trrej + 1) % 2 ^ 32 ∧
        (f.oasis = false → ∀ x ∈ t.modu.cistEnts, ¬same x f.ent) ∧
        (∀ y ∈ r, y.ctx = f.ctx ∧ y.sel = f.sel ∧ y.off = f.off ∧ y.ent.signer = Config.deviceKey) ∧
        ((s.part p).nden = false → t.mem = s.mem ∧ r = [])) ∧
      (s.trusts f.ent = true → ∃ t y, exec (.translationInstall p i) s = .next t ∧ t.mem = s.mem ∧ (t.part p).found = ldel (s.part p).found i ∧
        (t.part p).trrej = (s.part p).trrej ∧ y ∈ (t.part p).trans ∧ y.gone = false ∧ y.ctx = f.ctx ∧ y.sel = f.sel ∧ y.off = f.off ∧ y.len = f.len ∧
        y.key = f.ent.key ∧ y.table = f.ent.table ∧ y.words = imageWords f.ent.image.length f.ent.image)

/-! ### Encodings, poisoned registers, the whole machine -/

/-- Opcode 0 is TRAPZ in the short table, in the Zynran table and in the native table, whatever the other fields hold, and so is a zero word where a
clause header is expected; TRAPZ goes to the supervisor with trap code 0x00, also in a kernel with an illegal-encoding handler. -/
def TrapzWords : Prop :=
  (∀ (e : DecEnv) (p0 p1 p2 : Nat),
    (p0 % 2 ^ 9 = 0 → decodeZynran e p0 p1 p2 = (1, .ok .trapzZ32)) ∧
    (p0 % 4 = 1 → p0 < 2 ^ 32 → p0 / 4 % 2 ^ 9 = 0 → decodeZynran e p0 p1 p2 = (2, .ok .trapz)) ∧
    (p0 % 4 = 2 → p0 < 2 ^ 32 → p0 / 4 % 2 ^ 9 = 0 → decodeZynran e p0 p1 p2 = (3, .ok .trapz))) ∧
  (∀ (e : DecEnv) (r : Raw), r.op = 0 → judgeFull e r = .ok .trapz ∧ judgeShort e r = .ok .trapzZ32) ∧
  (∀ (e : DecEnv) (ws : List Nat), decodeClause e 0 ws = .ok none) ∧
  ∀ (s : State) (c : Cur) (w : Wave), s.ready c w → w.intrap = false → s.replaying w.team = false → c.entry < 8 →
    ∀ i ∈ [Instr.trapz, .trapzZ32], ∃ t w', exec i s = .next t ∧ t.wave? c.wave = some w' ∧ w'.trapcode = 0 ∧ w'.intrap = true ∧ w'.clvl = true ∧
      w'.codesel = selOf (s.part (partOfKey c.wave)).svec ∧ ∃ h, w'.handler = some h ∧ h.pc = offOf (s.part (partOfKey c.wave)).svec

/-- Words written out from the encoding tables decode to the instructions they stand for: one of each form and of several families. -/
def EncodingWordList : Prop :=
  decodeParcels DecEnv.full [0x1E001420] = some (.iaddZ32 { pred := 15, neg := false, sz := .w32, d := .v 10, a := .v 0, rm := .rn }) ∧
  (let plain : Ctl := { pred := 15, neg := false, setf := none, wait := 0 }
   let flag (k : Nat) : Ctl := { plain with setf := some k }
   decodeParcels DecEnv.full [0x282010A9, 0x000F7900] = some (.icmp { ctl := plain, d := 2, a := .v 4, b := .v 5, ty := .i32, cond := .lt }) ∧
   decodeParcels DecEnv.full [0x16204701, 0x00017820] = some (.ld { ctl := flag 1, d := .v 8, a := .s 4, b := .v 2, size := .b32, scope := .wave }) ∧
   decodeParcels DecEnv.full [0x60205709, 0x00037980] =
     some (.atom { ctl := flag 3, d := .v 10, a := .v 4, b := .v 12, op := .add, scope := .device, nw := false }) ∧
   decodeParcels DecEnv.full [0x00000602, 0x00017A01, 0x0F9003E6] =
     some (.mma { ctl := flag 1, guard := none, d := 0, a := 0, b := .regs 32, c := 64, md := none, acc := true, scl := none }) ∧
   decodeParcels DecEnv.full [0xC7CFCA02, 0x000F0807, 0x00400020] = some (.bra { ctl := { plain with pred := 1 }, tgt := 0x20, rc := 0x40 }) ∧
   decodeParcels DecEnv.full [0x07C80A55, 0x000F7810] = some (.sysr { ctl := plain, d := .v 1, addr := 2, w64 := false }) ∧
   decodeParcels DecEnv.full [0x4627CAA2, 0x00027E56, 0x0F900070] =
     some (.btcopy { ctl := flag 2, guard := none, a := .s 4, b := .s 8, c := .s 10, st := false, nw := false, tag := 7 }) ∧
   decodeParcels DecEnv.full [0xCFC652C2, 0x000F7807, 3] = some (.lnk { ctl := plain, d := .s 10, a := .lit 3 }))

end Sys2Proof

section

open Sys2Proof Sys2Proof.Machine

/-! ### Register-only instructions (chapter 05) -/

/-- Frame and completion of every register-only instruction but SEGA and PADD: with sound registers it answers a next state, in every
operand form; only its own wave differs, and that wave moves past the instruction with no register changed but its destination run at the
active lanes, or its predicate there; FPSTAT keeps what it holds for an integer instruction and loses no bit for any. -/
def Obligations.RegisterOnlyCompletes : Prop :=
  ∀ (i : Instr) (s : State) (c : Cur) (w : Wave), i.regOnly = true → i.wf = true → s.runs c w →
    ∃ w', exec i s = .next (s.done c w') ∧ s.onlyWave (s.done c w') c.wave ∧ w.onlyRegs w' ∧
      w.sameBut w' ((i.regDst.map (·.1)).getD .zero) ((i.regDst.map (·.2)).getD 0) (c.active w i.regCtl) ∧
      w.samePreds w' i.predDst (c.active w i.regCtl) ∧
      (i.floats = false → w'.fpstat = w.fpstat) ∧ w.fpstat ||| w'.fpstat = w'.fpstat

/-- Integer arithmetic, in three parts. -/
def Obligations.Integers : Prop := IntegerArithmetic ∧ AbsoluteAndNegate ∧ MultiplyAddAndCarry

/-- Logic and bit manipulation, in three parts. -/
def Obligations.Bits : Prop := BitwiseAndShifts ∧ UnaryBits ∧ FieldsAndBytes

/-- Compares, selection and moves, in two parts. -/
def Obligations.CompareSelectMove : Prop := CompareAndSelect ∧ MoveLowestLane

/-- Each short form does, in every state, what the full form does whose first source is the destination, with the type its size field
names. -/
def Obligations.ShortFormsAreFullForms : Prop :=
  ∀ (o : Short) (s : State),
    let i := o.bin o.sz.tyI; let n := o.bin o.sz.tyN; let b := o.bin o.sz.tyB; let f := o.bin .f32; let h := o.bin .f16x2
    let ui := o.un o.sz.tyI; let ub := o.un o.sz.tyB; let uf := o.un .f32
    (∀ p ∈ [(Instr.iaddZ32 o, Instr.iadd i), (.isubZ32 o, .isub i), (.imulZ32 o, .imul i), (.iminZ32 o, .imin i), (.imaxZ32 o, .imax i),
      (.nminZ32 o, .nmin n), (.nmaxZ32 o, .nmax n), (.andZ32 o, .andB b), (.orZ32 o, .orB b), (.xorZ32 o, .xorB b), (.andnZ32 o, .andn b),
      (.shlZ32 o, .shl b), (.shrZ32 o, .shr b), (.sarZ32 o, .sar i), (.rotlZ32 o, .rotl (o.bin .b32)), (.iabsZ32 o, .iabs ui),
      (.inegZ32 o, .ineg ui), (.notZ32 o, .notB ub), (.movZ32 o, .mov ub), (.popcZ32 o, .popc (o.un .b32)), (.clzZ32 o, .clz (o.un .b32)),
      (.brevZ32 o, .brev (o.un .b32)), (.faddZ32 o, .fadd f), (.fsubZ32 o, .fsub f), (.fmulZ32 o, .fmul f), (.fminZ32 o, .fmin f),
      (.fmaxZ32 o, .fmax f), (.fsqrtZ32 o, .fsqrt uf), (.frcpZ32 o, .frcp uf), (.frsqZ32 o, .frsq uf), (.fexp2Z32 o, .fexp2 uf),
      (.flog2Z32 o, .flog2 uf), (.fsinZ32 o, .fsin uf), (.fcosZ32 o, .fcos uf), (.ftanhZ32 o, .ftanh uf), (.hadd2Z32 o, .hadd2 h),
      (.hmul2Z32 o, .hmul2 h)], exec p.1 s = exec p.2 s)

/-- Address arithmetic, in two parts. -/
def Obligations.Addresses : Prop := AddressInstructions ∧ OffsetOverflowTraps

/-! ### Floating point (chapters 04, 05) -/

/-- FMIN and FMAX: the other operand beside one NaN, the canonical NaN for two, else the smaller (larger) operand unrounded, −0 below
+0; NV exactly for a signalling NaN. FCMP raises NV for a signalling NaN, and for any NaN under LT, LE, GT and GE, and nothing else. -/
def Obligations.MinMaxAndCompareNaN : Prop :=
  ∀ (s : State) (c : Cur) (w : Wave), s.runs c w →
    (∀ o : Bin, ∀ p ∈ ([(.fmin o, fun a b => if fpKey a ≤ fpKey b then a else b), (.fmax o, fun a b => if fpKey a ≤ fpKey b then b else a)] :
        List (Instr × (Word → Word → Word))), p.1.wf = true →
      ∃ w', exec p.1 s = .next (s.done c w') ∧
        (∀ l, l < 32 → c.writes o.d (c.active w o.ctl) l = true →
          let a := c.word w l o.a
          let b := c.word w l o.b
          w'.dst false o.d l = (if fpIsNan a && fpIsNan b then 0x7FC00000#32 else if fpIsNan a then b else if fpIsNan b then a else p.2 a b).toNat) ∧
        ∀ k, k < 32 → (w'.fpstat.getLsbD k = true ↔ w.fpstat.getLsbD k = true ∨
          k = 0 ∧ ∃ l, l < 32 ∧ c.computes o.d (c.active w o.ctl) l = true ∧ (fpIsSig (c.word w l o.a) || fpIsSig (c.word w l o.b)) = true)) ∧
    (∀ o : Cmp, (Instr.fcmp o).wf = true →
      ∃ w', exec (.fcmp o) s = .next (s.done c w') ∧
        ∀ k, k < 32 → (w'.fpstat.getLsbD k = true ↔ w.fpstat.getLsbD k = true ∨
          k = 0 ∧ ∃ l, l < 32 ∧ laneOf (c.active w o.ctl) l = true ∧
            (fpIsSig (c.word w l o.a) = true ∨ fpIsSig (c.word w l o.b) = true ∨
              (o.cond = .lt ∨ o.cond = .le ∨ o.cond = .gt ∨ o.cond = .ge) ∧ (fpIsNan (c.word w l o.a) = true ∨ fpIsNan (c.word w l o.b) = true))))

/-- FCLASS writes at each active lane whether the mask byte has the bit of the operand's class; mask 0 writes 0; FPSTAT stays. -/
def Obligations.FloatClass : Prop :=
  ∀ (o : Cls) (s : State) (c : Cur) (w : Wave), s.runs c w → (Instr.fclass o).wf = true →
    ∃ w', exec (.fclass o) s = .next (s.done c w') ∧ w'.fpstat = w.fpstat ∧
      ∀ l, l < 32 → laneOf (c.active w o.ctl) l = true →
        let a := c.word w l o.a
        let m := a.toNat % 2 ^ 31
        let k := if fpIsNan a then 0 else if m = 0 then 4 else if a.getLsbD 31 then (if m = 0x7F800000 then 1 else if 0x800000 ≤ m then 2 else 3)
          else (if m = 0x7F800000 then 7 else if 0x800000 ≤ m then 6 else 5)
        laneOf (w'.p o.d) l = o.mask.getLsbD k ∧ (o.mask = 0 → laneOf (w'.p o.d) l = false)

/-- Conversions between formats, in two parts. -/
def Obligations.FormatConversions : Prop := Conversions ∧ PackAndUnpack

/-- Floating-point arithmetic, in three parts. The value of an approximation is a free function of its operand (log 10), and nothing is said of it but that it depends on nothing else. -/
def Obligations.FloatArithmetic : Prop := FloatTwoSources ∧ FusedAndRoot ∧ ApproximationsAreFixed

/-! ### Predicates and lanes (chapter 05) -/

/-- Cross-lane instructions, in two parts. -/
def Obligations.CrossLane : Prop := Shuffle ∧ ReduceAndScan

/-- Instructions about predicates and about what active lanes agree on, in three parts. -/
def Obligations.Predicates : Prop := FloatCompare ∧ PredicateLogic ∧ VoteBallotElectMatch

/-! ### Control flow (chapters 07, 08) -/

/-- BRAU never splits: it falls through when no lane of EM takes it, moves the whole split when all take it to one target, and otherwise
raises UNIFORM before itself for the lanes whose condition or target differs from that of the lowest lane of EM. -/
def Obligations.UniformBranch : Prop :=
  ∀ (s : State) (c : Cur) (w : Wave), s.ready c w →
    let em := (c.split w).em
    let go (t : Nat) : State := s.putWave c.wave (w.modSplit c.entry fun x => { x with pc := t, widx := 0, wait := none })
    (∀ o : BrauT, (Instr.brau o).wf = true → let mt := c.taken w o.ctl
      (mt = 0 → exec (.brau o) s = .next (go c.next)) ∧
      (mt ≠ 0 → mt ≠ em → exec (.brau o) s = .next (s.fault c w 0x06 0 (differ em (laneOf mt)) [])) ∧
      (mt ≠ 0 → mt = em → s.codeTarget c w (c.at w o.tgt) → exec (.brau o) s = .next (go (c.at w o.tgt).toNat))) ∧
    (∀ o : RegTgt, (Instr.brauReg o).wf = true → let mt := c.taken w o.ctl
      (mt = 0 → exec (.brauReg o) s = .next (go c.next)) ∧
      (mt ≠ 0 → differ em (fun l => (laneOf mt l, w.reg64 o.a l)) ≠ 0 →
        exec (.brauReg o) s = .next (s.fault c w 0x06 0 (differ em fun l => (laneOf mt l, w.reg64 o.a l)) [])) ∧
      (∀ t, mt ≠ 0 → mt = em → (∀ l, laneOf em l = true → w.reg64 o.a l = t) → selOf t = w.codesel → s.codeTarget c w (offOf t) →
        exec (.brauReg o) s = .next (go (offOf t))))

/-- Branches, in four parts. -/
def Obligations.Branches : Prop := BranchStep ∧ DirectBranches ∧ IndexedBranches ∧ CountedBranchAndReturn

/-- EMRD writes EM, or LANES, to its S register once; EMWR sets, narrows or widens EM within LANES, for the next instruction on. -/
def Obligations.ExecutionMask : Prop :=
  ∀ (s : State) (c : Cur) (w : Wave) (ctl : Ctl), s.ready c w →
    (∀ d lanes, (Instr.emrd ctl d lanes).wf = true → ∃ w', exec (.emrd ctl d lanes) s = .next (s.done c w') ∧ w.onlyRegs w' ∧
      w.sameBut w' (.s d) 1 0 ∧ w'.pr = w.pr ∧ w'.s d = if lanes then (c.split w).lanes else (c.split w).em) ∧
    (∀ a op, (Instr.emwr ctl a op).wf = true → let v := w.src (c.split w) 0 a
      exec (.emwr ctl a op) s = .next (s.done c (w.modSplit c.entry fun x => { x with
        em := match op with | .set => v &&& x.lanes | .and => x.em &&& v | .or => (x.em ||| v) &&& x.lanes })))

/-- GSET writes its slot and no other: UNRESOLVED (0), TRUE (1), FALSE (2), or TRUE exactly when its source is not zero. -/
def Obligations.GuardSet : Prop :=
  ∀ (s : State) (c : Cur) (w : Wave) (ctl : Ctl) (slot : Nat) (v : GVal), s.ready c w → (Instr.gset ctl slot v).wf = true →
    ∃ g, exec (.gset ctl slot v) s = .next (s.done c { w with guards := g }) ∧
      tget 0 g slot = (match v with
        | .unresolved => 0 | .true => 1 | .false => 2
        | .from a => if w.src (c.split w) 0 a = 0 then 2 else 1) ∧
      ∀ k, k ≠ slot → tget 0 g k = tget 0 w.guards k

/-- Barriers, in two parts. -/
def Obligations.BarrierRules : Prop := Barriers ∧ BarrierCompletes

/-! ### Traps (08 R196–R201) -/

/-- TRAP and BKPT trap when `active` is not empty, with FAULTMASK equal to it and their number, and otherwise only move on. TRAP has moved
on when it traps, and its TRAPPC is the next instruction; BKPT traps before itself. TRAPZ always traps, with FAULTMASK the split's EM, or
lane 0, and the address of the zero word for each of its lanes. -/
def Obligations.TrapInstructions : Prop :=
  ∀ (s : State) (c : Cur) (w : Wave) (ctl : Ctl) (num : Nat), s.ready c w →
    let m := w.actLanes (c.split w) ctl.pred ctl.neg
    let half := if c.raw.form = 3 then c.raw.half else 0
    (m = 0 → exec (.trap ctl num) s = .next (s.done c w) ∧ exec (.bkpt ctl num) s = .next (s.done c w)) ∧
    (m ≠ 0 →
      exec (.trap ctl num) s = .next ((s.done c w).raise c
        { code := 1, cause := 0, num := num, half := half, mask := m, addrs := [], pc := segAddr w.codesel c.next }) ∧
      exec (.bkpt ctl num) s = .next (s.raise c
        { code := 2, cause := 0, num := num, half := half, mask := m, addrs := [], pc := segAddr w.codesel c.base })) ∧
    ∀ i ∈ [Instr.trapz, .trapzZ32], let z := if (c.split w).em = 0 then 1#32 else (c.split w).em
      exec i s = .next (s.raise c
        { code := 0, cause := 0, num := 0, half := half, mask := z, addrs := (lanesOf z).map fun l => (l, segAddr w.codesel c.pc),
          pc := segAddr w.codesel c.base })

/-- Taking a trap, in three parts. -/
def Obligations.TakingATrap : Prop := TrapEntry ∧ IllegalHandler ∧ TrapInHandler

/-- ERET outside a handler is ILLEGAL with cause UNDEFOP. In a handler that is neither nested nor a restore's, with no claim held, it sets
the trapping split's PC and CODESEL from TRAPPC, resumes every entry of native code at its recorded word index, and returns to level PLVL with INTRAP 0;
no register changes. -/
def Obligations.ExceptionReturn : Prop :=
  ∀ (s : State) (c : Cur) (w : Wave) (ctl : Ctl), s.ready c w →
    (w.intrap = false → exec (.eret ctl) s = .next (s.illegal c w 1)) ∧
    (w.intrap = true → w.nest = false → w.restore = false → w.linkent.getLsbD 31 = false → w.unwind = none → w.trapcode ≠ 0x11 →
      w.tsplit < 8 → (w.split w.tsplit).valid = true →
      ∃ w', exec (.eret ctl) s = .next (s.putWave c.wave w') ∧ w'.intrap = false ∧ w'.clvl = w.plvl ∧ w'.handler = none ∧
        w'.codesel = selOf w.trappc ∧ (w'.split w.tsplit).pc = offOf w.trappc ∧ (w'.split w.tsplit).wait = none ∧
        (∀ i, i < 8 → (w.split i).valid = true → (w'.split i).widx = (if w.kern.native then w.swidxAt i else (w.split i).widx) ∧ (w'.split i).lanes = (w.split i).lanes ∧
          (w'.split i).em = (w.split i).em ∧ (w'.split i).frames = (w.split i).frames ∧ (i ≠ w.tsplit → (w'.split i).pc = (w.split i).pc)) ∧
        w'.vr = w.vr ∧ w'.sr = w.sr ∧ w'.pr = w.pr ∧ w'.fpstat = w.fpstat ∧ w'.trapcode = w.trapcode)

/-! ### Steps beside an instruction (07 R168, R173, 02 R49, 08 R192, R421) -/

/-- How lanes end and how splits meet, in two parts. -/
def Obligations.LanesEndAndMeet : Prop := EndingLanes ∧ SplitArrivals

/-- What a split waits for, in two parts. -/
def Obligations.Waits : Prop := Waiting ∧ ClauseAndSleep

/-- Fetching and the active set, in two parts. -/
def Obligations.FetchAndStall : Prop := InstructionFetch ∧ StallExchange

/-! ### Stepping -/

/-- What a step runs, in two parts. The agenda is the model's own (log 1). -/
def Obligations.StepRuns : Prop := StepRunsDecoded ∧ StepRunsChoices

/-! ### Special registers and privilege (08 R202, R203, 15 R300, R301, 18 R374, 20 R387) -/

/-- Reads of special registers, in two parts. -/
def Obligations.SpecialRegisterReads : Prop := SpecialRegisterRead ∧ SpecialRegisterMap

/-- Writes of special registers, in two parts. -/
def Obligations.SpecialRegisterWrites : Prop := SpecialRegisterWrite ∧ SpecialRegisterWriteRules

/-- At user level the supervisor instructions raise ILLEGAL with cause UNDEFOP before anything else: the loads of protocol and segment
tables, the launch of a grid, the shootdowns, the pool switch, and the copies of a waiting wave's state. -/
def Obligations.SupervisorInstructions : Prop :=
  ∀ (s : State) (c : Cur) (w : Wave) (i : Instr), s.ready c w → w.clvl = false →
    (∃ o, i = .protld o) ∨ (∃ o, i = .launch o) ∨ (∃ o, i = .psnw o) ∨ (∃ o, i = .bind o) ∨ (∃ o, i = .bindFail o) ∨ (∃ o, i = .unbind o) ∨
      (∃ o, i = .segupd o) ∨ (∃ o, i = .shoot o) ∨ (∃ k, i = .shootw k) ∨ (∃ k a, i = .bankcfg k a) →
    exec i s = .next (s.illegal c w 1)

/-! ### Loads, stores and atomics (chapters 09, 10) -/

/-- A store whose lanes pass their checks appends entries to the wave's store buffer that hold its bytes, little-endian at each lane's
address, no other byte, and none of two lines; of two lanes that write one byte the higher one's stands. No byte of memory, no queue and no
register changes but the offset register of a post-increment form. -/
def Obligations.Stores : Prop :=
  ∀ (s : State) (c : Cur) (w : Wave) (i : Instr) (ctl : Ctl) (d : Src) (z : MSize) (scope : Nat) (accs : List (Nat × Access)),
    s.ready c w → s.runs c w → ((∀ o, i ≠ .stspZ32 o) → c.snap = none) → i.wf = true → storeForm i = some (ctl, d, z, scope) → s.lanesOfMem c w i = .ok accs →
    (∀ p ∈ accs, s.refuses c.wave z.bytes p.2 = false) →
    ∃ (t : State) (w1 w2 : Wave) (es : List Entry), exec i s = .next (t.done c w2) ∧ t.mem = s.mem ∧ t.hq = s.hq ∧ t.waves = s.waves ∧
      w.onlyRegs w1 ∧ w1.pr = w.pr ∧ w1.fpstat = w.fpstat ∧ w2 = { w1 with flags := w2.flags, ops := w2.ops, opctr := w2.opctr, sb := w2.sb } ∧
      (incReg i = none → w1 = w) ∧
      (∀ a, incReg i = some a → w.sameBut w1 a.asDst 1 (c.active w ctl) ∧
        ∀ l, l < 32 → c.writes a.asDst (c.active w ctl) l = true → w1.reg a l = (c.reads w).reg a l + BitVec.ofNat 32 z.bytes) ∧
      w2.sb = w.sb ++ es.map SItem.store ∧
      (∀ e ∈ es, e.wave = c.wave ∧ e.scope = scope ∧ e.bad = false ∧ (e.kind ≠ 1 → ∀ x ∈ e.cells, ∀ y ∈ e.cells, x.1 / 128 = y.1 / 128) ∧
        ∀ x ∈ e.cells, ∃ p ∈ accs, ∃ j, j < z.bytes ∧ x.1 = p.2.paAt j ∧ (e.kind = 1 ↔ p.2.kind = 1)) ∧
      ∀ k (h : k < accs.length) j, j < z.bytes →
        (∀ k' (h' : k' < accs.length), k < k' → (accs[k'].2.kind = 1 ↔ accs[k].2.kind = 1) →
          ∀ j', j' < z.bytes → accs[k'].2.paAt j' ≠ accs[k].2.paAt j) →
        newestByte es (accs[k].2.kind == 1) (accs[k].2.paAt j) =
          some (BitVec.ofNat 8 ((c.dataWord w accs[k].1 d (j / 4)).toNat / 2 ^ (8 * (j % 4))), false)

/-- An atomic whose lanes pass their checks waits in the wave as one atomic for each lane, with its operands; its flag counts one more with a
destination, or one for each lane without. Memory and registers stay till it is applied. -/
def Obligations.Atomics : Prop :=
  ∀ (s : State) (c : Cur) (w : Wave) (i : Instr) (ctl : Ctl) (d : Dst) (n fn : Nat) (nw : Bool) (accs : List (Nat × Access)),
    s.ready c w → i.wf = true → c.snap = none → atomForm i = some (ctl, d, n, fn, nw) → s.lanesOfMem c w i = .ok accs →
    (s.audited w = true → d = .zero ∧ fn ≠ 12 ∧ fn ≠ 13) →
    (∀ p ∈ accs, s.refuses c.wave n p.2 = false ∧ s.accMarked c.wave w p.2 n = false) →
    ∃ (t : State) (w' : Wave), exec i s = .next (t.done c w') ∧ t.mem = s.mem ∧ t.hq = s.hq ∧ t.waves = s.waves ∧ w.onlyOps w' ∧
      (∀ k, w'.flag k = if ctl.setf = some k ∧ accs ≠ [] then w.flag k + 1 else w.flag k) ∧
      (accs = [] → w' = w) ∧
      (accs ≠ [] → ∃ p, w'.pend = w.pend ++ [p] ∧ p.dst = (if d = .zero then none else some d) ∧ p.writes = [] ∧
        tfind w'.ops p.op = some { flag := ctl.setf, left := if d = .zero then accs.length else 1 } ∧
        p.atoms.length = accs.length ∧
        ∀ k (h : k < accs.length) (g : k < p.atoms.length), p.atoms[k].lane = accs[k].1 ∧ (∀ j, p.atoms[k].at_ j = accs[k].2.paAt j) ∧
          p.atoms[k].kind = accs[k].2.kind ∧ p.atoms[k].width = 8 * n ∧ p.atoms[k].fn = fn ∧ p.atoms[k].nw = nw ∧
          (p.atoms[k].opnd, p.atoms[k].cmp) = c.atomVals w i accs[k].1)

/-- The checks of memory accesses, in two parts. -/
def Obligations.MemoryChecks : Prop := MemoryFaults ∧ AccessChecks

/-- Loads, in two parts. -/
def Obligations.LoadRules : Prop := Loads ∧ LoadSources

/-- The next lane of an atomic takes effect in one step, once no older store of its wave or cluster covers its bytes: the new value is written
where the address lies (the scratch bank of the team, or the home of the line, whose protocol applies it), every other byte stays, and the
old value waits for the destination, or the part of an operation without one is over. One of a marked sector changes nothing. -/
def Obligations.AtomicTakesEffect : Prop :=
  AtomicValues ∧
  ∀ (s : State) (key i : Nat) (w : Wave) (p : Pend) (x : LaneAtom) (rest : List LaneAtom), s.wave? key = some w → w.pend[i]? = some p →
    p.atoms = x :: rest → x.fn < 16 → selOf x.ea ≠ 0 →
    (s.atomCovered key w x = true → exec (.atomicApply key i) s = .next s) ∧
    (s.atomCovered key w x = false → s.replaying w.team = false → s.isDeposit x p.dst.isNone = false → x.width / 8 ≤ x.cut ∨ x.kind = 1 →
      let n := x.width / 8
      let line := x.addr / 128
      let put (m : Memory) : Memory := match (atomNew x.fn x.width (memNat m x.addr n) x.opnd x.cmp).1 with
        | none => m | some v => memPuts m x.addr (leBytes n v)
      let inLine : Prop := x.addr % 128 + n ≤ 128
      let clean (marks : List Nat) : Prop := ∀ j, j < n → marks.contains ((x.addr + j) / 32) = false
      let keeps (t : State) (old : Nat) : Prop := ∃ w', t.wave? key = some w' ∧ w'.vr = w.vr ∧ w'.sr = w.sr ∧ w'.sb = w.sb ∧
        (∀ d, p.dst = some d → w'.pend = lset w.pend i { p with
          atoms := rest, fpx := p.fpx ||| (atomNew x.fn x.width old x.opnd x.cmp).2,
          writes := p.writes ++ regWrites d x.lane (if p.wide then [BitVec.ofNat 32 old, BitVec.ofNat 32 (old / 2 ^ 32)] else [BitVec.ofNat 32 old]) }) ∧
        (p.dst = none → rest = [] → w'.pend = ldel w.pend i)
      (∀ tm, x.kind = 1 → s.team? w.team = some tm →
        (clean tm.smark → ∃ t tm', exec (.atomicApply key i) s = .next t ∧ t.mem = s.mem ∧
          t.team? w.team = some tm' ∧ tm' = { tm with scratch := put tm.scratch, smark := tm'.smark } ∧ keeps t (memNat tm.scratch x.addr n)) ∧
        (¬clean tm.smark → ∃ t, exec (.atomicApply key i) s = .next t ∧ t.mem = s.mem ∧ t.team? w.team = some tm)) ∧
      ((x.kind = 4 ∨ x.kind = 5) ∧ tget [] s.hq line = [] ∨
        (x.kind = 2 ∨ x.kind = 3) ∧ (∃ d, s.finds line x.slot d ∧ s.still (some (clusterOfKey key)) line d ∧
          (s.protocolOf (partOfLine line) d.slot).does d.st 3 (2 ^ 6) ∧ ¬(s.protocolOf (partOfLine line) d.slot).does d.st 3 (2 ^ 17)) →
        inLine → clean s.marks → s.downAt x.addr = false →
        ∃ t, exec (.atomicApply key i) s = .next t ∧ t.mem = put s.mem ∧ t.hq = tdel s.hq line ∧ keeps t (memNat s.mem x.addr n))) ∧
    (∀ k line, kindHasProt x.kind = true → x.addr / 128 = line → k = clusterOfKey key →
      (∀ q ∈ s.waves, clusterOfKey q.1 = k → q.1 ≠ key → q.2.pend = []) → (key, w) ∈ s.waves → w.pend = [p] → i = 0 →
      (∀ q ∈ s.waves, q.1 = key → q = (key, w)) →
      exec (.homeAtom k line) s = exec (.atomicApply key i) s)

/-- How stores move towards their homes, in two parts. -/
def Obligations.Drains : Prop := StoreBufferDrains ∧ PublishBufferDrains

/-- What a cell does to its line's directory entry (R257): the owner, the sharers, the cores with partials, the next state (the reset state
where the next one is SHARED and nobody shares), the timestamps of a lease line, and the reply. -/
def Obligations.DirectoryCells : Prop :=
  ∀ (s : State) (line : Nat) (d : Dir) (prot : Protocol) (cc : Nat) (q : Req) (app : State → State) (off n : Nat),
    let has (a : Nat) : Prop := cc / 2 ^ a % 2 = 1
    let r := s.runCell line d prot cc q app off n
    let mine (k : Nat) : Prop := q.cluster = some k
    r.2.1 = cc / 16 % 4 ∧
    ∃ d', tfind r.1.dir line = some d' ∧ d'.slot = d.slot ∧
      (let own := if has 13 then q.cluster else if has 9 ∨ has 8 ∨ has 17 then none else d.owner
       d'.owner = if has 12 ∧ own = q.cluster then none else own) ∧
      (∀ k, k ∈ d'.sharers ↔ (k ∈ d.sharers ∧ ¬(mine k ∧ (has 13 ∨ has 12)) ∨ has 11 ∧ mine k ∨ has 8 ∧ d.owner = some k) ∧ (has 7 → mine k)) ∧
      d'.st = (if (prot.attr.getD (cc % 16) 0).testBit 0 ∧ d'.sharers = [] then prot.reset else cc % 16) ∧
      (∀ k, k ∈ d'.partials ↔ ¬has 16 ∧ ¬has 17 ∧ (k ∈ d.partials ∨ has 18 ∧ q.core = some k)) ∧
      (∀ x, q.core = some x →
        let lt := (s.core x).ltime
        let w0 := if d.fresh then lt else d.wts
        let r0 := if d.fresh then lt else d.rts
        d'.wts = (if has 15 then serialMax 16 lt ((r0 + 1) % 2 ^ 16) else w0) ∧
        (let r1 := if has 15 then d'.wts else r0
         d'.rts = if has 14 then serialMax 16 r1 ((serialMax 16 lt d'.wts + q.lease) % 2 ^ 16) else r1) ∧
        (app = id → (∀ k, (s.cluster k).msgs = []) → (r.1.core x).ltime = if has 15 then serialMax 16 lt d'.wts % 2 ^ 16 else lt))

/-- A cluster's requests and its acts on the messages of the homes: each leaves the copies, the publish buffer and the directory entry as
the rule of its event says. -/
def Obligations.RequestsAndReplies : Prop :=
  ∀ (s : State) (k line : Nat),
    let pbOf (t : State) : List PItem := (t.cluster k).pb
    let clear (t : State) : Prop := ∀ x ∈ pbOf t, x.ofLine line = false
    let none_ (t : State) : Prop := ∀ y ∈ (t.cluster k).copies, y.line ≠ line
    let cl := s.cluster k
    -- replies
    (∀ x q rest, cl.msgs = .fill x q :: rest → ∃ t, exec (.fillReply k) s = .next t ∧ t.mem = s.mem ∧ (t.cluster k).msgs = rest ∧
      (t.cluster k).copies.map (fun y => (y.line, y.bytes)) = (cl.copies.filter (·.line != x.line)).map (fun y => (y.line, y.bytes)) ++ [(x.line, x.bytes)] ∧
      (∃ y ∈ (t.cluster k).copies, y = { x with expired := y.expired, tags := y.tags } ∧ (∀ g ∈ x.tags, g ∈ y.tags) ∧
        ∀ p, p < 4 → (p ∈ y.expired ↔ x.lease = true ∧ serialLt 16 x.rts (t.core (4 * k + p)).ltime = true)) ∧
      (t.core q).ltime = if x.lease then serialMax 16 (s.core q).ltime x.wts % 2 ^ 16 else (s.core q).ltime) ∧
    (∀ l rest, cl.msgs = .inv l :: rest → ∃ t, exec (.invalidation k) s = .next t ∧ t.mem = s.mem ∧ (t.cluster k).msgs = rest ∧
      (t.cluster k).copies = cl.copies.filter (·.line != l)) ∧
    (∀ l off b ms rest, cl.msgs = .push l off b ms :: rest → ∃ t, exec (.push k) s = .next t ∧ t.mem = s.mem ∧ (t.cluster k).msgs = rest ∧
      (t.cluster k).copies.map (fun y => (y.line, y.bytes)) = cl.copies.map fun x => (x.line, if x.line = l
        then (List.range x.bytes.length).map fun i => if off ≤ i ∧ i < off + b.length then b.getD (i - off) 0 else x.bytes.getD i 0 else x.bytes)) ∧
    (s.owns k line = false → ∃ t, exec (.copyDrop k line) s = .next t ∧ t.mem = s.mem ∧ t.waves = s.waves ∧
      (t.cluster k).copies = cl.copies.filter (·.line != line) ∧ (t.cluster k).pb = cl.pb) ∧
    (s.owns k line = true → (∃ y ∈ cl.copies, y.line = line) → ∃ t, exec (.copyDrop k line) s = .next t ∧ clear t ∧ none_ t) ∧
    -- requests
    (∀ key w x d, s.prefWave k line = some (key, w, x) → clusterOfKey key = k → x.addr / 128 = line → kindHasProt x.kind = true →
      s.refusesAt key x.kind x.addr = false → s.cached k x.via = true →
      s.finds line x.slot d → s.still (some k) line d → ¬(s.protocolOf (partOfLine line) d.slot).does d.st 0 (2 ^ 17) →
      (let rep := (s.protocolOf (partOfLine line) d.slot).cellAt d.st 0 / 16 % 4
       rep = 1 ∨ rep = 2) →
      ∃ t y, exec (.gets k line) s = .next t ∧ t.mem = s.mem ∧ (t.cluster k).msgs.getLast? = some (.fill y (coreOfKey key)) ∧ y.line = line ∧
        y.bytes = memGets s.mem (line * 128) 128 ∧ t.wave? key = some (w.prefSent line)) ∧
    (∀ l e r d, cl.pb = l ++ .store e :: r → (∀ x ∈ l, x.ofLine line = false) → e.line = line → s.wantsOwner k e = true →
      s.finds line e.slot d → tget [] s.hq line = [] → e.core / 4 = k → (s.protocolOf (partOfLine line) d.slot).does d.st 1 (2 ^ 13) →
      ¬(s.protocolOf (partOfLine line) d.slot).does d.st 1 (2 ^ 12) →
      ∃ t d', exec (.getx k line) s = .next t ∧ tfind t.dir line = some d' ∧ d'.owner = some k) ∧
    (∀ d d', cl.slots ≠ [] → tfind s.dir line = some d → s.finds line d.slot d → s.still (some k) line d →
      tfind (s.runCell line d (s.protocolOf (partOfLine line) d.slot) ((s.protocolOf (partOfLine line) d.slot).cellAt d.st 4)
        { cluster := some k, core := none, slot := d.slot, lease := 1, rfmt := false } id 0 0).1.dir line = some d' →
      ∃ t, exec (.readReq k line) s = .next t ∧ t.mem = s.mem ∧ tfind t.dir line = some d') ∧
    (∀ d, (∃ y ∈ cl.copies, y.line = line) → clear s → tfind s.dir line = some d → s.finds line d.slot d → tget [] s.hq line = [] →
      d.owner ≠ some k → (s.protocolOf (partOfLine line) d.slot).does d.st 5 (2 ^ 12) → ¬(s.protocolOf (partOfLine line) d.slot).does d.st 5 (2 ^ 11) →
      ∃ t d', exec (.evict k line) s = .next t ∧ none_ t ∧ tfind t.dir line = some d' ∧ k ∉ d'.sharers) ∧
    (s.owns k line = true → ∃ t, exec (.wback k line) s = .next t ∧ clear t ∧ none_ t) ∧
    (∀ keep d, tfind s.dir line = some d → d.owner = some k → ∃ t, exec (.recall k line keep) s = .next t ∧ clear t ∧ (keep = false → none_ t)) ∧
    (∀ pa, ∃ t, exec (.fpub k pa) s = .next t ∧ ∀ e, PItem.store e ∈ pbOf t → e.cairn ≠ some pa) ∧
    (∀ q d, (∃ y ∈ (s.core q).parts, y.line = line) → tfind s.dir line = some d → q ∉ d.partials → s.finds line d.slot d → tget [] s.hq line = [] →
      (s.protocolOf (partOfLine line) d.slot).does d.st 11 (2 ^ 18) →
      ¬(s.protocolOf (partOfLine line) d.slot).does d.st 11 (2 ^ 16) → ¬(s.protocolOf (partOfLine line) d.slot).does d.st 11 (2 ^ 17) →
      ∃ t d', exec (.part q line) s = .next t ∧ tfind t.dir line = some d' ∧ q ∈ d'.partials) ∧
    (∀ d, tfind s.dir line = some d → tget [] s.hq line = [] → (∃ j ∈ (s.part (partOfLine line)).protjobs, j.slot = d.slot) →
      ∃ t d', exec (.neut line) s = .next t ∧ tfind t.dir line = some d' ∧ d'.fresh = true ∧ d'.slot = d.slot ∧
        ∀ k, k < 48 → ∀ x ∈ (t.cluster k).pb, x.ofLine line = false)

/-! ### Queues, cairns, fences, waiting on memory, ranges and banks (chapters 09, 10) -/

/-- LDQ and STQ: with no active lane nothing happens, an id that names no queue of the context raises SEGV; a push appends its words, lowest
lane first, when there is room and nobody waits, and a pop takes the oldest words for its registers; else the request joins the end of the
bank's order and its split waits, until the bank serves it. -/
def Obligations.Queues : Prop :=
  (∀ (s : State) (c : Cur) (w : Wave) (ctl : Ctl) (q : Src) (dr : Nat) (w64 : Bool) (ld : LdqOp) (st : StqOp), s.ready c w → s.audited w = false →
    ld.ctl = ctl → ld.q = q → ld.d = dr → ld.w64 = w64 → st.ctl = ctl → st.q = q → st.d = dr → st.w64 = w64 →
    let m := w.actLanes (c.split w) ctl.pred ctl.neg
    let id := (w.src (c.split w) 0 q).toNat
    let bk (t : State) : Bank := (t.cluster (id / 128 % 64)).bank (id % 128)
    let words := ((lanesOf m).map fun l => if w64 then [w.v dr l, w.v (dr + 1) l] else [w.v dr l]).flatten
    let dests := ((lanesOf m).map fun l => if w64 then [(dr, l), (dr + 1, l)] else [(dr, l)]).flatten
    let named : Prop := id / 128 % 64 / 12 = partOfKey c.wave ∧ (bk s).mode = 2 ∧ (bk s).ctx = (s.who c w).ctx
    let on (t : State) (w' : Wave) : Prop := t.wave? c.wave = some w' ∧ t.mem = s.mem ∧ w'.vr = w.vr ∧ w'.sr = w.sr ∧ (w'.split c.entry).pc = c.next ∧
      (w'.split c.entry).wait = none
    let waits (t : State) (w' : Wave) (push : Bool) : Prop := t.wave? c.wave = some w' ∧ t.mem = s.mem ∧ w'.vr = w.vr ∧ (w'.split c.entry).pc = (c.split w).pc ∧
      (∃ r, (w'.split c.entry).wait = some r ∧ r.kind = (if push then 15 else 14) ∧ r.done = false) ∧ (bk t).words = (bk s).words ∧
      ∃ r, (bk t).wait = (bk s).wait ++ [r] ∧ r.wave = c.wave ∧ r.entry = c.entry ∧ r.push = push ∧ r.words = (if push then words else []) ∧
        r.dests = if push then [] else dests
    (m = 0 → exec (.ldq ld) s = .next (s.done c w) ∧ exec (.stq st) s = .next (s.done c w)) ∧
    (m ≠ 0 → ¬named → ∀ i ∈ [Instr.ldq ld, .stq st],
      exec i s = .next (s.fault c w 0x08 3 m ((lanesOf m).map fun l => (l, (BitVec.ofNat 64 id : DWord))))) ∧
    (m ≠ 0 → named → (c.split w).wait = none →
      ((bk s).wait = [] → (bk s).words.length + words.length ≤ Config.fifoWords → ∃ t w', exec (.stq st) s = .next t ∧ on t w' ∧
        (∀ k, w'.flag k = w.flag k) ∧ (bk t).words = (bk s).words ++ words.map (·, false) ∧ (bk t).wait = []) ∧
      ((bk s).wait ≠ [] ∨ Config.fifoWords < (bk s).words.length + words.length → ∃ t w', exec (.stq st) s = .next t ∧
        ((bk s).wait = [] ∨ (∃ r rest, (bk s).wait = r :: rest ∧ r.push = false ∧ (bk s).words.length < r.dests.length) → waits t w' true)) ∧
      ((bk s).wait = [] → dests.length ≤ (bk s).words.length → ((bk s).words.take dests.length).all (fun x => !x.2) = true →
        ∃ t w' p, exec (.ldq ld) s = .next t ∧ on t w' ∧ (bk t).words = (bk s).words.drop dests.length ∧ (bk t).wait = [] ∧
          w'.pend = w.pend ++ [p] ∧ p.writes.length = dests.length ∧
          (∀ i, i < dests.length → p.writes[i]? = some { reg := (dests.getD i (0, 0)).1, lane := (dests.getD i (0, 0)).2, val := ((bk s).words.getD i (0, false)).1 }) ∧
          ∀ k, w'.flag k = if ctl.setf = some k then w.flag k + 1 else w.flag k) ∧
      ((bk s).wait = [] → (bk s).words.length < dests.length → ∃ t w', exec (.ldq ld) s = .next t ∧ waits t w' false))) ∧
  ∀ (s : State) (k b : Nat) (r : QReq) (rest : List QReq) (w : Wave), ((s.cluster k).bank b).wait = r :: rest → s.wave? r.wave = some w →
    let x := (s.cluster k).bank b
    let after (t : State) : Bank := (t.cluster k).bank b
    (r.push = true → x.words.length + r.words.length ≤ Config.fifoWords → ∃ t w', exec (.queueService k b) s = .next t ∧
      (after t).words = x.words ++ r.words.map (·, false) ∧ (after t).wait = rest ∧ t.wave? r.wave = some w' ∧
      (w'.split r.entry).wait = (w.split r.entry).wait.map fun y => { y with done := true }) ∧
    (r.push = false → r.dests.length ≤ x.words.length → (x.words.take r.dests.length).all (fun x => !x.2) = true →
      ∃ t w' p, exec (.queueService k b) s = .next t ∧ (after t).words = x.words.drop r.dests.length ∧ (after t).wait = rest ∧ t.wave? r.wave = some w' ∧
        w'.pend = w.pend ++ [p] ∧ p.op = r.op ∧ (w'.split r.entry).wait = (w.split r.entry).wait.map fun y => { y with done := true }) ∧
    (r.push = true → Config.fifoWords < x.words.length + r.words.length → exec (.queueService k b) s = .next s)

/-- Cairns: a request that finds the mode free and nobody waiting is granted at once; the cairn then counts the holder, and its cluster
drops the copies bound to it. ACQ else waits in the cairn's order, ACQT answers 0. REL completes by appending a release marker behind the
wave's stores; its message at the home takes the holder off, notes its cluster in NARROW when its scope is narrower than DEVICE, notes the
time and counts the release, or sets ERR and nothing else when the mode was not held. -/
def Obligations.Cairns : Prop :=
  let frees (v : Nat) (ex : Bool) : Prop := v.testBit 16 = false ∧ if ex then v % 2 ^ 16 = 0 else v % 2 ^ 16 < 65535
  let plain (s : State) (pa j : Nat) : Prop := s.writable (pa / 128) ∧ (∀ k, k < 48 → k ≠ j → (memNat s.mem (pa + 8) 8).testBit k = false) ∧
    ∀ line ∈ (s.cluster j).bound pa, s.owns j line = false
  (∀ (s : State) (c : Cur) (w : Wave) (a : Nat) (ex : Bool) (x : Access), s.ready c w → s.audited w = false → s.cairnAccess c w a = .ok x →
    x.pa % 64 = 0 → tget [] s.hq (x.pa / 128) = [] → plain s x.pa (clusterOfKey c.wave) → (s.cluster (clusterOfKey c.wave)).msgs = [] →
    let pa := x.pa
    let v := memNat s.mem pa 4
    let free : Prop := tget [] s.cairns pa = [] ∧ frees v ex
    let stuck : Prop := ¬free ∧ ∀ r rest, tget [] s.cairns pa = r :: rest → ¬frees v r.ex
    let granted (t : State) : Prop := memNat t.mem pa 4 = v + (if ex then 2 ^ 16 else 1) ∧
      (∀ b, b < pa ∨ pa + 4 ≤ b → memGet t.mem b = memGet s.mem b) ∧
      ∀ y ∈ (t.cluster (clusterOfKey c.wave)).copies, ∀ g ∈ y.tags, g.cairn ≠ some pa
    let on (t : State) (w' : Wave) : Prop := t.wave? c.wave = some w' ∧ w'.vr = w.vr ∧ w'.sr = w.sr ∧ (w'.split c.entry).pc = c.next ∧
      (w'.split c.entry).wait = none ∧ ∀ k, w'.flag k = w.flag k
    (∀ o : AcqOp, o.a = a → o.ex = ex → (c.split w).wait = none →
      (free → ∃ t w', exec (.acq o) s = .next t ∧ granted t ∧ on t w' ∧ w'.pr = w.pr) ∧
      (stuck → (∀ q ∈ s.mon, ¬(q.wave = c.wave ∧ q.entry = c.entry)) → ∃ t w' r, exec (.acq o) s = .next t ∧
        tget [] t.cairns pa = tget [] s.cairns pa ++ [{ wave := c.wave, entry := c.entry, ex := ex }] ∧ t.wave? c.wave = some w' ∧
        (w'.split c.entry).wait = some r ∧ r.kind = 13 ∧ r.done = false ∧ (w'.split c.entry).pc = (c.split w).pc ∧
        memNat t.mem (pa + 4) 4 = (memNat s.mem (pa + 4) 4 + 1) % 2 ^ 32 ∧ memNat t.mem pa 4 = v)) ∧
    (∀ (o : AcqOp) (r : Wait), o.a = a → (c.split w).wait = some r → r.done = true → ∃ t : State, exec (.acq o) s = .next (t.done c w) ∧
      t.waves = s.waves ∧ t.mem = s.mem) ∧
    (∀ o : AcqtOp, o.a = a → o.ex = ex → o.d < 15 →
      (free → ∃ t w', exec (.acqt o) s = .next t ∧ granted t ∧ on t w' ∧
        ∀ l, l < 32 → laneOf (w'.p o.d) l = (laneOf (c.split w).lanes l || laneOf (w.p o.d) l)) ∧
      (stuck → ∃ t w', exec (.acqt o) s = .next t ∧ t.mem = s.mem ∧ on t w' ∧
        ∀ l, l < 32 → laneOf (w'.p o.d) l = (!laneOf (c.split w).lanes l && laneOf (w.p o.d) l))) ∧
    (∀ o : RelOp, o.a = a → o.ex = ex → ∃ t w' op, exec (.rel o) s = .next t ∧ t.mem = s.mem ∧ t.wave? c.wave = some w' ∧ w'.vr = w.vr ∧
      w'.sr = w.sr ∧ (w'.split c.entry).pc = c.next ∧ w'.sb = w.sb ++ [.marker (max 1 o.scope.code) (some (pa, ex)) op] ∧
      ∀ k, w'.flag k = if o.ctl.setf = some k then w.flag k + 1 else w.flag k)) ∧
  ∀ (s : State) (pa : Nat), pa % 64 = 0 →
    let v := memNat s.mem pa 4
    let nar := memNat s.mem (pa + 8) 8
    (∀ r rest, tget [] s.hq (pa / 128) = .release pa r :: rest → tget [] s.cairns pa = [] → s.writable (pa / 128) → clusterOfKey r.wave < 48 →
      let k := clusterOfKey r.wave
      ∃ t, exec (.cairnRelease pa) s = .next t ∧ tget [] t.hq (pa / 128) = rest ∧
        (∀ w f, s.wave? r.wave = some w → r.op ≠ 0 → tfind w.ops r.op = some { flag := some f, left := 1 } →
          ∃ w', t.wave? r.wave = some w' ∧ w'.flag f = w.flag f - 1) ∧
        let held := if r.ex then v.testBit 16 else decide (v % 2 ^ 16 ≠ 0)
        (held = true → memNat t.mem pa 4 = v - (if r.ex then 2 ^ 16 else 1) ∧
          (∀ b, b < 64 → (memNat t.mem (pa + 8) 8).testBit b = (decide (b = k ∧ r.scope < 3) || nar.testBit b)) ∧
          memNat t.mem (pa + 0x18) 4 = (memNat s.mem (pa + 0x18) 4 + 1) % 2 ^ 32 ∧ memNat t.mem (pa + 0x10) 8 = s.gts % 2 ^ 64 ∧
          ∀ b, b < pa ∨ pa + 4 ≤ b ∧ b < pa + 8 ∨ pa + 0x1C ≤ b → memGet t.mem b = memGet s.mem b) ∧
        (held = false → memNat t.mem pa 4 = (if v.testBit 17 then v else v + 2 ^ 17) ∧
          ∀ b, b < pa ∨ pa + 4 ≤ b → memGet t.mem b = memGet s.mem b)) ∧
    (∀ r w, tget [] s.cairns pa = [r] → s.wave? r.wave = some w → plain s pa (clusterOfKey r.wave) → frees v r.ex → 0 < memNat s.mem (pa + 4) 4 →
      (s.cluster (clusterOfKey r.wave)).msgs = [] →
      ∃ t w', exec (.cairnGrant pa) s = .next t ∧ tget [] t.cairns pa = [] ∧ memNat t.mem pa 4 = v + (if r.ex then 2 ^ 16 else 1) ∧
        memNat t.mem (pa + 4) 4 = memNat s.mem (pa + 4) 4 - 1 ∧ t.wave? r.wave = some w' ∧
        (w'.split r.entry).wait = (w.split r.entry).wait.map fun y => { y with done := true })

/-- Fences and publishes: a release appends its marker behind the wave's stores, an acquire of a wide scope drops every copy of the cluster,
and a narrower one those of HOST lines; FENCE.SC waits for its marker between the two, and PUB counts on its flag until the marker has left.
Memory and registers stay where the cluster owns no line that it gives up. -/
def Obligations.Fences : Prop :=
  (∀ (s : State) (c : Cur) (w : Wave) (ctl : Ctl) (scope : Scope), s.ready c w →
    let mk (op : Nat) : SItem := .marker scope.code none op
    let acq (t : State) : State := t.acquire (clusterOfKey c.wave) scope.code
    (exec (.fence ctl .rel scope) s = .next (s.putWave c.wave { w.advance c with sb := w.sb ++ [mk 0] })) ∧
    (exec (.fence ctl .acq scope) s = .next (acq (s.done c w))) ∧
    (exec (.fence ctl .ar scope) s = .next (acq (s.putWave c.wave { w.advance c with sb := w.sb ++ [mk 0] }))) ∧
    ((c.split w).wait = none → ∃ t w' r, exec (.fence ctl .sc scope) s = .next t ∧ t = s.putWave c.wave w' ∧ w'.sb = w.sb ++ [mk r.arg] ∧
      (w'.split c.entry).wait = some r ∧ r.kind = 10 ∧ r.done = false ∧ w'.vr = w.vr ∧ w'.sr = w.sr ∧ (tfind w'.ops r.arg).isSome = true) ∧
    (∀ r, (c.split w).wait = some r → tfind w.ops r.arg = none → exec (.fence ctl .sc scope) s = .next (acq (s.done c w))) ∧
    (∃ w' op, exec (.pub ctl scope) s = .next (s.putWave c.wave w') ∧ w'.sb = w.sb ++ [mk op] ∧ w'.vr = w.vr ∧ w'.sr = w.sr ∧ w'.pr = w.pr ∧
      (w'.split c.entry).pc = c.next ∧ (∀ f, ctl.setf = some f → tfind w'.ops op = some { flag := some f, left := 1 }) ∧
      ∀ f, w'.flag f = if ctl.setf = some f then w.flag f + 1 else w.flag f)) ∧
  ∀ (t : State) (k scope : Nat), let t' := t.acquire k scope
    (3 ≤ scope → (t'.cluster k).copies = []) ∧
    (scope < 3 → (∀ y ∈ (t'.cluster k).copies, regionKind (y.line * 128) ≠ 4) ∧
      ((t.cluster k).msgs = [] → (t'.cluster k).copies = (t.cluster k).copies.filter fun y => decide (regionKind (y.line * 128) ≠ 4))) ∧
    (t'.cluster k).msgs = [] ∧
    (scope < 3 ∨ (∀ line, t.owns k line = false) → t'.mem = t.mem ∧ t'.waves = t.waves ∧ t'.hq = t.hq ∧ (t'.cluster k).pb = (t.cluster k).pb)

/-- WAITV compares and arms in one step: status 1 at once when the value differs, 2 when the team's entries are used up, else its split waits
with an armed entry. WAKE, an eviction, a spurious wake and the deadline each end it: status 0, or 3 once the tick of its deadline is over. -/
def Obligations.WaitingOnMemory : Prop :=
  (∀ (s : State) (c : Cur) (w : Wave) (t : Team) (o : WaitvOp) (a : Access), s.ready c w → (c.split w).wait = none → s.audited w = false →
    s.team? w.team = some t →
    let n := if o.w64 then 8 else 4
    let u := s.who c w
    let expect := if o.w64 then (w.s64 o.b).toNat else (w.s o.b).toNat
    let tmo := (w.s (o.b + n / 4)).toNat
    s.checkLanes u { right := 0, kinds := kindsWait, size := n, align := n, write := false } [0] true (c.split w).em (fun _ => .ok (w.s64 o.a)) = .ok [(0, a)] →
    s.accMarked c.wave w a n = false → s.refuses c.wave n a = false → a.kind = 1 ∨ n ≤ a.cut →
    (∀ e, SItem.store e ∈ w.sb → (e.kind = 1 ↔ a.kind = 1) → e.line ≠ a.pa / 128) →
    (∀ e, PItem.store e ∈ (s.cluster (clusterOfKey c.wave)).pb → a.kind ≠ 1 → e.line ≠ a.pa / 128) →
    (a.kind = 1 ∨ a.kind = 4 ∧ tget [] s.hq (a.pa / 128) = [] ∨
      ∃ d, s.finds (a.pa / 128) (s.slotOf u a).1 d ∧ s.still (some (clusterOfKey c.wave)) (a.pa / 128) d ∧
        ¬(s.protocolOf (partOfLine (a.pa / 128)) d.slot).does d.st 4 (2 ^ 17)) →
    let v := if a.kind = 1 then memNat t.scratch a.pa n else memNat s.mem a.pa n
    let armed := (s.mon.filter fun m => (s.wave? m.wave).any (·.team == w.team)).length
    let ends (k : Nat) : Prop := ∃ s' w', exec (.waitv o) s = .next s' ∧ s'.mem = s.mem ∧ s'.mon = s.mon ∧ s'.wave? c.wave = some w' ∧
      w.sameBut w' (.s o.d) 1 0 ∧ w'.s o.d = BitVec.ofNat 32 k ∧ (w'.split c.entry).pc = c.next
    (v ≠ expect → ends 1) ∧ (v = expect → t.monq ≤ armed → ends 2) ∧
    (v = expect → armed < t.monq → ∃ s' w' r, exec (.waitv o) s = .next s' ∧ s'.mem = s.mem ∧ s'.wave? c.wave = some w' ∧ w'.vr = w.vr ∧ w'.sr = w.sr ∧
      s'.mon = s.mon ++ [{ wave := c.wave, entry := c.entry, team := if a.kind = 1 then some w.team else none, line := a.pa / 128 }] ∧
      (w'.split c.entry).pc = (c.split w).pc ∧ (w'.split c.entry).wait = some r ∧ r.kind = 8 ∧ r.done = false ∧
      r.dead = if tmo = 0 then 0 else (s.gts + tmo) % 2 ^ 64)) ∧
  (∀ (s : State) (c : Cur) (w : Wave) (o : WaitvOp) (r : Wait), s.ready c w → (c.split w).wait = some r → r.done = true →
    ∃ w', exec (.waitv o) s = .next (s.putWave c.wave w') ∧ w.sameBut w' (.s o.d) 1 0 ∧ w'.s o.d = BitVec.ofNat 32 (r.arg % 4) ∧ (w'.split c.entry).pc = c.next) ∧
  (∀ (s : State) (k e : Nat) (w : Wave) (r : Wait), s.wave? k = some w → (∃ m ∈ s.mon, m.wave = k ∧ m.entry = e) → (w.split e).wait = some r →
    let ended (i : Instr) (n : Nat) : Prop := ∃ t w', exec i s = .next t ∧ t.mem = s.mem ∧ t.mon = s.mon.filter (fun m => !(m.wave == k && m.entry == e)) ∧
      t.wave? k = some w' ∧ w.onlySplits w' ∧ (w'.split e).wait = some { r with arg := r.arg + n, done := true }
    ended (.monitorEviction k e) 0 ∧ ended (.spuriousWake k e) 0 ∧
    (r.kind = 8 → r.done = false → r.dead ≠ 0 → s.passed ((r.dead + 1) % 2 ^ 64) = true → ended (.waitvTimeout k e) 3) ∧
    (r.kind = 8 → s.passed ((r.dead + 1) % 2 ^ 64) = false → exec (.waitvTimeout k e) s = .next s)) ∧
  ∀ (s : State) (c : Cur) (w : Wave) (o : WakeOp) (accs : List (Nat × Access)), s.ready c w →
    let m := w.actLanes (c.split w) o.ctl.pred o.ctl.neg
    s.checkLanes (s.who c w) { right := 0, kinds := kindsWait, size := 1, align := 1, write := false } (lanesOf m) false m (fun l => .ok (w.reg64 o.a l)) = .ok accs →
    w.sb = [] → (s.cluster (clusterOfKey c.wave)).pb = [] → s.hq = [] →
    let hit (q : Mon) (p : Nat × Access) : Bool := q.team == (if p.2.kind = 1 then some w.team else none) && q.line == p.2.pa / 128
    ∃ t w', exec (.wake o) s = .next t ∧ t.mem = s.mem ∧ t.wave? c.wave = some w' ∧ w'.vr = w.vr ∧ w'.sr = w.sr ∧ (w'.split c.entry).pc = c.next ∧
      (o.all = true → t.mon = s.mon.filter fun q => !accs.any (hit q)) ∧
      (∀ p l q r, o.all = false → accs = [p] → s.mon = l ++ q :: r → (∀ x ∈ l, hit x p = false) → hit q p = true →
        (∀ x ∈ l ++ r, ¬(x.wave = q.wave ∧ x.entry = q.entry)) → t.mon = l ++ r)

/-- Ranges, prefetches and banks, in two parts. -/
def Obligations.RangesAndBanks : Prop := RangesPrefetchesAndBanks ∧ RangeLines

/-! ### Protocols and logical time (chapter 11) -/

/-- PROTLD queues the table of a good image, or an emptied slot, for the homes, and raises PROTLOAD with the first check that fails;
PROTOCOL_INSTALL puts the oldest one in its slot with no line left under it; PROTSEL writes its range entry (stated where the homes have
nothing in flight for the lines of the old and the new range); LTADV and LTIME_TICK move the
core's logical time on. -/
def Obligations.ProtocolsAndTime : Prop :=
  (∀ (s : State) (c : Cur) (w : Wave) (o : ProtldOp), s.ready c w → w.clvl = true →
    let p := partOfKey c.wave
    let queued (t : State) (tab : Option Protocol) : Prop := ∃ w' j, exec (.protld o) s = .next t ∧ t.wave? c.wave = some w' ∧ w'.vr = w.vr ∧ w'.sr = w.sr ∧
      (w'.split c.entry).pc = c.next ∧ (t.part p).protjobs = (s.part p).protjobs ++ [j] ∧ j.slot = o.slot ∧ j.tab = tab ∧ j.team = w.team ∧ j.wid = w.wid
    (selOf (w.s64 o.a) = 0 → ∃ t, queued t none ∧ t.mem = s.mem) ∧
    (∀ s1 b, selOf (w.s64 o.a) ≠ 0 → s.structRead (s.who c w) (coreOfKey c.wave) w imageBytes 128 1 (w.s64 o.a) = .ok (s1, b) → s1.parts = s.parts →
      s1.wave? c.wave = some w →
      (imageCause b o.slot = 0 → ∃ t, queued t (some (imageProtocol b))) ∧
      (imageCause b o.slot ≠ 0 → exec (.protld o) s = .next (s1.fault c w 0x12 (imageCause b o.slot) (orLane0 (c.split w).em) [])))) ∧
  (∀ (s : State) (p : Nat) (j : ProtJob) (rest : List ProtJob), (s.part p).protjobs = j :: rest →
    ∃ t, exec (.protocolInstall p) s = .next t ∧ (t.part p).protjobs = rest ∧
      (∀ tab, j.tab = some tab → tfind (t.part p).prots j.slot = some tab) ∧
      (j.tab = none → t.protocol? p j.slot = none) ∧ (∀ k, k ≠ j.slot → tfind (t.part p).prots k = tfind (s.part p).prots k)) ∧
  (∀ (s : State) (c : Cur) (w : Wave) (o : ProtselOp) (b : List Byte), s.ready c w → s.audited w = false → s.ctxRec (partOfKey c.wave) (s.who c w).ctx = some b →
    let u := s.who c w
    let sa := w.s64 o.a
    let n := (w.s o.b).toNat
    let param := (w.s (o.b + 1)).toNat
    let t := recRangetab b + 16 * o.idx
    (∀ f, n ≠ 0 → s.protselFault u sa n param = some f → f.1 = 0x04 → exec (.protsel o) s = .next (s.illconv c w f.2)) ∧
    (∀ f, n ≠ 0 → s.protselFault u sa n param = some f → f.1 ≠ 0x04 → exec (.protsel o) s = .next (s.uniFault c w { code := f.1, cause := f.2, addr := sa })) ∧
    ((n = 0 ∨ s.protselFault u sa n param = none) → u.part = partOfKey c.wave → t % 16 = 0 → s.plainLine (t / 128) →
      (∀ l ∈ s.segLines u (BitVec.ofNat 64 (s.homeNat t 8)) (s.homeNat (t + 8) 4) ++ s.segLines u sa n, s.plainLine l ∧ s.unpublished l) →
      ∃ s' w', exec (.protsel o) s = .next s' ∧ s'.wave? c.wave = some w' ∧ w'.vr = w.vr ∧ w'.sr = w.sr ∧ (w'.split c.entry).pc = c.next ∧
        s'.mem = memPuts s.mem t (if n = 0 then List.replicate 16 0 else leBytes 8 sa.toNat ++ leBytes 4 n ++ leBytes 4 param))) ∧
  (∀ (s : State) (c : Cur) (w : Wave) (o : LtadvOp), s.ready c w →
    let q := coreOfKey c.wave
    let a := (w.src (c.split w) 0 o.a).toNat
    let v := if o.max then serialMax 16 (s.core q).ltime (a % 2 ^ 16) else ((s.core q).ltime + a % 2 ^ 12) % 2 ^ 16
    ∃ t w', exec (.ltadv o) s = .next t ∧ (t.core q).ltime = v % 2 ^ 16 ∧ t.mem = s.mem ∧ t.wave? c.wave = some w' ∧ w.sameBut w' o.d 1 (c.split w).em ∧
      w'.pr = w.pr ∧ (w'.split c.entry).pc = c.next ∧ (∀ l, l < 32 → c.writes o.d (c.split w).em l = true → w'.dst false o.d l = v % 2 ^ 32) ∧
      ∀ x ∈ (t.cluster (q / 4)).copies, x.lease = true → serialLt 16 x.rts (v % 2 ^ 16) = true → q % 4 ∈ x.expired) ∧
  ∀ (s : State) (q : Nat), (s.core q).period ≠ 0 → s.clocked (q / 48) = true → ∃ t, exec (.ltimeTick q) s = .next t ∧ (t.core q).ltime = ((s.core q).ltime + 1) % 2 ^ 16 ∧
    t.mem = s.mem ∧ t.waves = s.waves

/-! ### Segments and linking (chapter 15) -/

/-- Linkage, in two parts. -/
def Obligations.LinkingAndBinding : Prop := Linking ∧ Binding

/-- Segments and the units that translate, in two parts. -/
def Obligations.SegmentsAndUnits : Prop := Segments ∧ TranslationUnits

/-! ### Recovery (chapters 17, 18) -/

/-- SPLITRD and SPLITWR of the frozen split table, the barriers and the handles; FLAGWR sets a flag's count, and FLAGWR.SAVE ends a wave's
save: refusals by their causes, else the word named is read or written and nothing else. -/
def Obligations.SplitTableAccess : Prop :=
  ∀ (s : State) (c : Cur) (w : Wave) (t : Team), s.ready c w → s.team? w.team = some t →
    let x := c.split w
    (∀ (o : SplitrdOp), let v := (w.src x 0 o.a).toNat
      let reads (n : Nat) : Prop := ∃ w', exec (.splitrd o) s = .next (s.done c w') ∧ w.onlyRegs w' ∧ w.sameBut w' (.s o.d) 1 0 ∧ w'.pr = w.pr ∧
        w'.fpstat = w.fpstat ∧ w'.s o.d = BitVec.ofNat 32 n
      (o.space = .ent ∨ o.space = .frm ∨ o.space = .wait → w.intrap = false → exec (.splitrd o) s = .next (s.illconv c w 23)) ∧
      (w.intrap = true →
        (∀ e, e < 8 → o.space = .ent → let y := w.split e
          (y.valid = true → v = 8 * e → reads y.lanes.toNat) ∧ (y.valid = true → v = 8 * e + 1 → reads y.em.toNat) ∧
          (y.valid = true → v = 8 * e + 2 → reads (y.pc % 2 ^ 32)) ∧ (y.valid = true → v = 8 * e + 3 → reads (y.rpc % 2 ^ 32)) ∧
          (y.valid = false → v < 64 → v / 8 = e → v % 8 < 5 → reads 0)) ∧
        (∀ e j f, e < 8 → j < 16 → o.space = .frm → (w.split e).valid = true → (w.split e).frames[j]? = some f →
          (v = 64 * j + 8 * e → reads f.maska.toNat) ∧ (v = 64 * j + 8 * e + 1 → reads f.maskb.toNat) ∧ (v = 64 * j + 8 * e + 2 → reads (f.dpc % 2 ^ 32)) ∧
          (v = 64 * j + 8 * e + 3 → reads (f.outer % 2 ^ 32))) ∧
        (∀ e r, e < 8 → o.space = .wait → (w.split e).valid = true → (w.split e).wait = some r →
          (v = 8 * e → reads (r.kind % 16)) ∧ (v = 8 * e + 2 → reads (r.dead % 2 ^ 32)) ∧ (v = 8 * e + 3 → reads (r.dead / 2 ^ 32))) ∧
        (o.space = .ent → v % 8 = 5 → exec (.splitrd o) s = .next (s.illconv c w 21))) ∧
      (∀ n, n < 16 → o.space = .bar → (v = n → reads (t.bar n).phase) ∧ ∀ k, k < 32 → v = n + 16 * (k + 1) → reads (tget 0 (t.bar n).arrived k).toNat) ∧
      (∀ h y, h < 16 → o.space = .hdl → tfind t.handles h = some y →
        (v = h → reads y.off) ∧ (v = h + 16 → reads (y.gen + if y.loaded then 2 ^ 16 else 0)))) ∧
    (∀ (o : SplitwrOp), let i := (w.src x 0 o.a).toNat
      let v := (w.src x 0 o.b).toNat
      let onEntry (e : Nat) (y : Split) : Prop := ∃ w', exec (.splitwr o) s = .next (s.done c w') ∧
        w' = { w with splits := w'.splits, swidx0 := w'.swidx0, swidx1 := w'.swidx1 } ∧ w'.split e = y ∧ ∀ j, j ≠ e → w'.split j = w.split j
      let onTeam (t' : Team) : Prop := exec (.splitwr o) s = .next ((s.putTeam w.team t').done c w)
      (o.space = .ent ∨ o.space = .frm ∨ o.space = .wait → w.intrap = false → exec (.splitwr o) s = .next (s.illconv c w 23)) ∧
      (o.space = .frm ∨ o.space = .wait → w.intrap = true → exec (.splitwr o) s = .next (s.illconv c w 22)) ∧
      (o.space = .bar ∨ o.space = .hdl → w.clvl = false → exec (.splitwr o) s = .next (s.illconv c w 22)) ∧
      (∀ e, e < 8 → o.space = .ent → w.intrap = true → (w.split e).valid = true →
        (i = 8 * e + 1 → onEntry e { w.split e with em := BitVec.ofNat 32 v &&& (w.split e).lanes }) ∧
        (i = 8 * e + 2 → onEntry e { w.split e with pc := (w.split e).pc / 2 ^ 32 * 2 ^ 32 + v }) ∧
        (i = 8 * e + 4 → onEntry e { w.split e with pc := (w.split e).pc % 2 ^ 32 + v % 2 ^ 12 * 2 ^ 32 }) ∧
        (i = 8 * e ∨ i = 8 * e + 3 → exec (.splitwr o) s = .next (s.illconv c w 22))) ∧
      (∀ n, n < 16 → o.space = .bar → w.clvl = true →
        (i = n → onTeam { t with bars := tput t.bars n { t.bar n with phase := v } }) ∧
        (∀ k, k < 32 → i = n + 16 * (k + 1) → onTeam { t with bars := tput t.bars n { t.bar n with arrived := tset 0 (t.bar n).arrived k (BitVec.ofNat 32 v) } })) ∧
      (∀ h y, h < 16 → o.space = .hdl → w.clvl = true → tfind t.handles h = some y →
        (i = h → v % 128 = 0 → onTeam { t with handles := tput t.handles h { y with off := v } }) ∧
        (i = h → v % 128 ≠ 0 → exec (.splitwr o) s = .next (s.illconv c w 21)))) ∧
    (∀ ctl k a, let n := (w.src x 0 a).toNat
      (63 < n → exec (.flagwrSet ctl k a) s = .next (s.illconv c w 21)) ∧
      (n ≤ 63 → ∃ w', exec (.flagwrSet ctl k a) s = .next (s.done c w') ∧ w' = { w with flags := w'.flags } ∧ w'.flag k = n ∧ ∀ j, j ≠ k → w'.flag j = w.flag j)) ∧
    ∀ ctl, let saving : Prop := w.clvl = true ∧ w.intrap = true ∧ (w.trapcode = 0x10 ∨ w.trapcode = 0x13) ∧ w.trapinfo % 32 = 1
      (¬saving → exec (.flagwrSave ctl) s = .next (s.illconv c w 23)) ∧
      (saving → w.sb = [] → (s.cluster (clusterOfKey c.wave)).pb = [] → s.hq = [] →
        (w.pend ≠ [] → ∃ t w', exec (.flagwrSave ctl) s = .next t ∧ t.mem = s.mem ∧ t.wave? c.wave = some w' ∧ w'.vr = w.vr ∧ w'.sr = w.sr ∧
          (w'.split c.entry).pc = x.pc ∧ ∃ r, (w'.split c.entry).wait = some r ∧ r.kind = 0) ∧
        (w.pend = [] → ∃ s' t' sv, exec (.flagwrSave ctl) s = .next s' ∧ s'.team? w.team = some t' ∧ tfind t'.wkeys w.wid = none ∧
          tfind t'.saved w.wid = some sv ∧ sv.area = w.area ∧ sv.live = w.liveLanes ∧ sv.unwind = w.unwind ∧ sv.ops = w.ops ∧ sv.kern = w.kern ∧ sv.codesel = w.isel ∧ sv.mq = w.hm ++ w.mq ∧
          sv.cq = w.hc ++ w.cq))

/-- Containment regions, capacities, the audit signature and poison injection. -/
def Obligations.ContainmentAndCapacities : Prop :=
  ∀ (s : State) (c : Cur) (w : Wave), s.ready c w →
    let x := c.split w
    let inS (i : Instr) (d : Dst) (wide : Bool) (n : Nat) : Prop := ∃ w', exec i s = .next (s.done c w') ∧ w.onlyRegs w' ∧
      w.sameBut w' d (if wide then 2 else 1) 0 ∧ w'.pr = w.pr ∧ w'.fpstat = w.fpstat ∧ w'.dst wide d 0 = n % 2 ^ (if wide then 64 else 32)
    (∀ (o : CrbeginOp), s.codeTarget c w (c.at w o.tgt) →
      (4 ≤ w.cframes.length → exec (.crbegin o) s = .next (s.illconv c w 24)) ∧
      (w.cframes.length < 4 → exec (.crbegin o) s = .next (s.done c { w with
        cframes := w.cframes ++ [{ off := (c.at w o.tgt).toNat, sel := w.codesel, team := o.team, lsdepth := w.links.length }] }))) ∧
    (∀ ctl, (w.cframes = [] → exec (.crend ctl) s = .next (s.illconv c w 25)) ∧
      ∀ fs f, w.cframes = fs ++ [f] → exec (.crend ctl) s = .next (s.done c { w with cframes := fs })) ∧
    (∀ (o : CapqOp), let a := (w.src x 0 o.a).toNat
      let per (f : Nat → Nat) (n : Nat) : List Nat := (List.range n).map fun i => f (n * a + i)
      let q := tget 2048 s.qregs
      let z := tget 128 s.ztiles
      let b := tget 128 s.sramb
      ∀ r ∈ [(0, 768, q a), (1, 192, z a), (2, 48, b a), (3, 384, tget 4096 s.msckb a), (4, 4, (per q 192).foldr max 0), (5, 4, (per z 48).foldr max 0),
          (6, 4, (per b 12).foldr max 0), (7, 4, (per q 192).sum), (8, 4, (per z 48).sum), (9, 4, (per b 12).sum), (10, 192, tget 0 s.audfail a)],
        o.item = r.1 → (a < r.2.1 → inS (.capq o) (.s o.d) false r.2.2) ∧ (r.2.1 ≤ a → exec (.capq o) s = .next (s.illconv c w 27))) ∧
    (∀ ctl d t, s.team? w.team = some t → inS (.sigrd ctl d) (.s d) true (if t.audit then t.sig.toNat else 0)) ∧
    ∀ (o : PsnwOp) (accs : List (Nat × Access)), w.clvl = true →
      s.checkLanes (s.who c w) { right := 1, kinds := [1, 2, 3], size := 32, align := 32, write := true } (lanesOf (w.actLanes x o.ctl.pred o.ctl.neg))
        false (w.actLanes x o.ctl.pred o.ctl.neg) (fun l => .ok (w.reg64 o.a l)) = .ok accs →
      w.sb = [] → (s.cluster (clusterOfKey c.wave)).pb = [] → s.hq = [] → o.ce = false →
      ∃ t w', exec (.psnw o) s = .next t ∧ t.mem = s.mem ∧ t.wave? c.wave = some w' ∧ w'.vr = w.vr ∧ w'.sr = w.sr ∧ (w'.split c.entry).pc = c.next ∧
        (∀ n, n ∈ t.marks ↔ n ∈ s.marks ∨ ∃ p ∈ accs, p.2.kind ≠ 1 ∧ n = p.2.pa / 32) ∧
        ∀ tm, s.team? w.team = some tm → ∃ tm', t.team? w.team = some tm' ∧
          ∀ n, n ∈ tm'.smark ↔ n ∈ tm.smark ∨ ∃ p ∈ accs, p.2.kind = 1 ∧ n = p.2.pa / 32

/-- Errors of the units: a corrected one is counted in its window, and declares its unit above the threshold; an uncorrectable one marks its
sector; a window's end clears the counts; an evacuation moves line after line, and with the last one its bank's logical number names
the target's physical bank and the target's number is removed; a TEAM unwind resumes a wave at its
topmost TEAM frame. -/
def Obligations.UnitErrors : Prop :=
  (∀ (s : State) (u : EUnit), s.ceWindow (unitPart u) = (s.part (unitPart u)).cestart → (s.unitRec u).count + 1 ≤ (s.part (unitPart u)).cethr % 256 →
    ∃ t, exec (.correctedError u) s = .next t ∧ (t.unitRec u).count = (s.unitRec u).count + 1 ∧ (t.unitRec u).state = (s.unitRec u).state ∧ t.mem = s.mem ∧
      t.waves = s.waves ∧ ∀ v, v ≠ u → t.unitRec v = s.unitRec v) ∧
  (∀ (s : State) (u : EUnit), s.ceWindow (unitPart u) = (s.part (unitPart u)).cestart → (s.part (unitPart u)).cethr % 256 < (s.unitRec u).count + 1 →
    (s.unitRec u).state = 0 → (s.unitRec u).target = none → (s.part (unitPart u)).evcount = 0 →
    ∃ t, exec (.correctedError u) s = .next t ∧ (t.unitRec u).state ≠ 0 ∧
      (∀ q b, u = .regFile q b → tget 2048 t.qregs q = tget 2048 s.qregs q - 128) ∧ (∀ q b, u = .accBank q b → tget 128 t.ztiles q = tget 128 s.ztiles q - 4) ∧
      (∀ q b, u = .sram q b → tget 128 t.sramb q = tget 128 s.sramb q - 1) ∧ (∀ q b, u = .msc q b → tget 4096 t.msckb q = tget 4096 s.msckb q - 256)) ∧
  (∀ (s : State) (p : Nat), s.ceWindow p ≠ (s.part p).cestart → ∃ t, exec (.ceWindowExpiry p) s = .next t ∧ (t.part p).cestart = s.ceWindow p ∧
    t.mem = s.mem ∧ t.waves = s.waves ∧ (∀ x ∈ t.units, unitPart x.key = p → x.count = 0) ∧ t.units.map (·.key) = s.units.map (·.key)) ∧
  (∀ (s : State) (n ch r : Nat), (s.part (unitPart (.dram ch r))).evcount = 0 → ∃ t, exec (.uncorrectableError (.dram ch r) n) s = .next t ∧
    (∀ m, m ∈ t.marks ↔ m = n ∨ m ∈ s.marks) ∧ t.mem = s.mem ∧ t.waves = s.waves) ∧
  (∀ (s : State) (n q b : Nat), (s.part (unitPart (.accBank q b))).evcount = 0 →
    ((s.unitRec (.accBank q b)).state = 0 → (s.unitRec (.accBank q b)).target = none) → ∃ t, exec (.uncorrectableError (.accBank q b) n) s = .next t ∧
    (∀ m, m ∈ (t.core q).tmark ↔ m = 256 * b + n % 256 ∨ m ∈ (s.core q).tmark) ∧ (t.unitRec (.accBank q b)).state ≠ 0) ∧
  (∀ (s : State) (u : EUnit) (b : Nat), let x := s.unitRec u
    x.state = 1 → x.target = some b → unitLines u ≠ 0 →
    ∃ t, exec (.lineEvacuation u) s = .next t ∧
      (x.moved.length + 1 < unitLines u → t.unitRec u = { x with key := (t.unitRec u).key, moved := x.moved ++ [x.moved.length] } ∧ t.mem = s.mem) ∧
      (unitLines u ≤ x.moved.length + 1 → (s.part (unitPart u)).evcount = 0 → b ≠ Machine.bankOf u → let y := s.unitRec (withBank u b)
        t.unitRec u = { x with phys := y.phys, count := y.count, state := 0, decl := 0, target := none, moved := [] } ∧
        (t.unitRec (withBank u b)).state = 2 ∧ (t.unitRec (withBank u b)).phys = x.phys)) ∧
  ∀ (s : State) (k : Nat) (w : Wave) (m : LaneMask) (a : Tab DWord) (cause : Nat) (l r : List CFrame) (f : CFrame), s.wave? k = some w →
    w.unwind = some (m, a, cause) → w.intrap = false → s.clocked (partOfKey k) = true → w.allAtPoint = true → w.cframes = l ++ f :: r → f.team = true → (∀ y ∈ r, y.team = false) →
    w.mq = [] → w.eq = [] → w.cq = [] →
    ∃ t w', exec (.teamUnwind k) s = .next t ∧ t.wave? k = some w' ∧ w'.unwind = none ∧ w'.cframes = l ∧ w'.trapcode = 0x0F ∧ w'.trapinfo = cause ∧
      w'.faultmask = m ∧ w'.codesel = f.sel ∧ w'.links = w.links.take f.lsdepth ∧ w'.vr = w.vr ∧ w'.sr = w.sr ∧
      (w.liveLanes ≠ 0 → (w'.split 0).pc = f.off ∧ (w'.split 0).em = w.liveLanes ∧ (w'.split 0).lanes = w.liveLanes)

/-! ### The matrix engine and its epilogue (chapter 06) -/

/-- Engine commands before they complete, in four parts. -/
def Obligations.EngineCommands : Prop := MatrixIssue ∧ EpilogueIssue ∧ HandlesAndActivation ∧ EngineRun

/-- Results of engine commands, in two parts. -/
def Obligations.EngineResults : Prop := MatrixResults ∧ EpilogueResults

/-! ### Copies and batches (chapter 12) -/

/-- The block-transfer engine, in three parts. -/
def Obligations.Copies : Prop := CopyIssue ∧ Batches ∧ CopyEngine

/-! ### Blocks, teams, grids, audits (chapters 07, 08, 17, 18) -/

/-- Blocks and teams, in two parts. -/
def Obligations.BlocksAndTeams : Prop := BlocksAreTaken ∧ AdmissionAndSave

/-- How work ends, in two parts. -/
def Obligations.EndsAndAudits : Prop := WavesAndGridsEnd ∧ AuditsAndTeardown

/-! ### The world outside (chapters 20, 22) -/

/-- Accesses of the host and of peers, and refusals of links: a write changes its bytes at their homes, a read is answered with them, or with nothing where
a sector is marked or the partition is held in reset; a host write to its own memory takes the clusters' copies away. -/
def Obligations.OutsideAccesses : Prop :=
  ∀ (s : State) (a : MemAccess) (n : Nat), s.calm →
    let read (t : State) (agent : Nat) (b : List Byte) : Prop := t.modu.reads = s.modu.reads ++ [(agent, a.pa, b)]
    let reaches (i : Instr) (agent : Nat) : Prop := ∃ t, exec i s = .next t ∧
      (a.write = true → t.mem = memPuts s.mem a.pa a.bytes ∧ t.modu.reads = s.modu.reads) ∧
      (a.write = false → t.mem = s.mem ∧ read t agent (if s.marked a.pa a.len then [] else memGets s.mem a.pa a.len))
    let here : Prop := a.pa / 2 ^ 48 < 8
    (here → s.downAt a.pa = false → reaches (.hostMemAccess a) 0 ∧ reaches (.peerAccess n a) (n + 1)) ∧
    (¬here ∨ s.downAt a.pa = true → exec (.hostMemAccess a) s = .next s) ∧
    (¬here → exec (.peerAccess n a) s = .next s) ∧
    (here → s.downAt a.pa = true → ∃ t, exec (.peerAccess n a) s = .next t ∧ t.mem = s.mem ∧ read t (n + 1) []) ∧
    (s.downAt a.pa = false → exec (.resetRefusal a) s = .next s) ∧
    (s.downAt a.pa = true → ∃ t, exec (.resetRefusal a) s = .next t ∧ t.mem = s.mem ∧ (a.write = true → t.modu.alerts = s.modu.alerts ++ [(0x397, a.pa)]) ∧
      (a.write = false → read t 0 [])) ∧
    (a.pa / 2 ^ 48 ≠ 8 ∨ a.write = false ∨ a.bytes = [] → exec (.hostSnoop a) s = .next s) ∧
    (a.pa / 2 ^ 48 = 8 → a.write = true → a.bytes ≠ [] → ∃ t, exec (.hostSnoop a) s = .next t ∧ t.mem = memPuts s.mem a.pa a.bytes ∧
      ∀ k, ∀ y ∈ (t.cluster k).copies, ¬(a.pa / 128 ≤ y.line ∧ y.line ≤ (a.pa + a.bytes.length - 1) / 128)) ∧
    (∀ w i, ∃ t, exec (.linkRefusal w i) s = .next t ∧ t.modu.refused = s.modu.refused ++ [2 * w + i % 2] ∧ t.mem = s.mem ∧ t.waves = s.waves)

/-- The module seen by the host, in three parts. The answer codes and byte layouts are the model's choice (log 13, log 16). -/
def Obligations.HostAndTranslation : Prop := HostCommands ∧ IdentityAndReset ∧ Translations

/-! ### Encodings, poisoned registers, the whole machine -/

/-- Encodings, in two parts. -/
def Obligations.EncodingWords : Prop := TrapzWords ∧ EncodingWordList

/-- Decoding what the encoder writes gives the instruction back: every short form, at every value its operands admit. -/
def Obligations.ShortFormsRoundTrip : Prop :=
  ∀ (i : Instr) (op : Nat) (o : Short) (ws : List Nat), i.wf = true → i.shortFields = some (op, o) → encode i = some ws → decodeParcels DecEnv.full ws = some i

/-- The same of every Zynran instruction: no bit of an encoding is dropped. -/
def Obligations.ZynranRoundTrip : Prop :=
  ∀ (i : Instr) (ws : List Nat), i.wf = true → encode i = some ws → decodeParcels DecEnv.full ws = some i

/-- The same in native code: a full form alone in its clause, with its literal word; its wait mask stands in the header. -/
def Obligations.NativeRoundTrip : Prop :=
  ∀ (i : Instr) (f : Fields) (h : Nat) (ws : List Nat), i.wf = true → i.fields = some f → f.ctl.wait = 0 → encodeNative i = some (h :: ws) →
    ∃ c r, decodeClause DecEnv.full h ws = .ok (some c) ∧ c.words = [(1, .one i r ws.length)] ∧ c.hdr.len = ws.length ∧ c.hdr.wait = 0

/-- A register word that holds an error traps the instruction that reads it, for the lanes that read it: cause 3 for an uncorrectable error, cause 4 for a
word that a marked tile row should have filled. -/
def Obligations.PoisonedRegister : Prop :=
  ∀ (s : State) (c : Cur) (w : Wave) (o : Bin) (n l : Nat), s.here = some (c, w) → c.snap = none → (Instr.iadd o).wf = true →
    n < 192 → l < 32 → o.a = .v n →
    laneOf (w.actLanes (c.split w) o.ctl.pred o.ctl.neg) l = true →
    ∀ i ∈ [Instr.iadd o, .isub o, .imul o, .andB o, .orB o, .xorB o],
      (w.errs = [32 * n + l] → exec i s = .next (s.fault c w 0x0F 3 (laneBit l) [])) ∧
      (w.errs = [32 * n + l + 8192] → exec i s = .next (s.fault c w 0x0F 4 (laneBit l) []))

/-- Right after reset no wave runs, every partition is held in reset with its registers at the values their maps state, GTS is 0, and memory is in its
canonical form with nothing listed (what an unlisted byte reads as is log 5). -/
def Obligations.ResetState : Prop :=
  State.reset.memOk = true ∧ (∀ a, memGet State.reset.mem a = 0) ∧ State.reset.gts = 0 ∧ (∀ k, State.reset.wave? k = none) ∧
  (∀ p, (State.reset.part p).running = false ∧ (State.reset.part p).svec = 0 ∧ (State.reset.part p).cewin = 10000000 ∧ (State.reset.part p).cethr = 3 ∧
    (State.reset.part p).evcount = 0 ∧ (State.reset.part p).audctl = 0 ∧ (State.reset.part p).trctl = 5) ∧
  (∀ k b, ((State.reset.cluster k).bank b).mode = if b < 96 then 0 else 1) ∧
  ∃ t, step State.reset = .next t ∧ t.mem = [] ∧ t.waves = []

/-- Every step keeps memory in its canonical form: addresses strictly rising, and no listed byte equal to what an unlisted one reads as. -/
def Obligations.MemoryStaysCanonical : Prop :=
  ∀ (s t : State), s.memOk = true → step s = .next t → t.memOk = true

end
end

