-- ==== Sys2Proof/Laws/Tab.lean ====
section
/-! SUPPORT. Laws of tables by number and of memory: what a read gives after a write, and that every write keeps memory's canonical form. -/

namespace Sys2Proof.Machine

/-! ### Tables -/

theorem tfind_tput {α : Type} (t : Tab α) (k j : Nat) (a : α) : tfind (tput t k a) j = if j = k then some a else tfind t j := by
  induction t with
  | nil => simp [tput, tfind]
  | cons p r ih =>
    obtain ⟨i, b⟩ := p
    simp only [tput]
    split
    · simp [tfind]
    · split
      · subst_vars; simp only [tfind]; split <;> simp_all
      · simp only [tfind, ih]; split <;> split <;> simp_all

theorem tfind_tdel {α : Type} (t : Tab α) (k j : Nat) : tfind (tdel t k) j = if j = k then none else tfind t j := by
  induction t with
  | nil => simp [tdel, tfind]
  | cons p r ih =>
    obtain ⟨i, b⟩ := p
    simp only [tdel]
    split
    · rw [ih]; simp only [tfind]; split <;> simp_all
    · simp only [tfind, ih]; split <;> split <;> simp_all

@[simp] theorem tfind_tput_same {α : Type} (t : Tab α) (k : Nat) (a : α) : tfind (tput t k a) k = some a := by simp [tfind_tput]

theorem tget_tput {α : Type} (d : α) (t : Tab α) (k j : Nat) (a : α) : tget d (tput t k a) j = if j = k then a else tget d t j := by
  simp only [tget, tfind_tput]; split <;> simp

theorem tget_tset {α : Type} [DecidableEq α] (d : α) (t : Tab α) (k j : Nat) (a : α) :
    tget d (tset d t k a) j = if j = k then a else tget d t j := by
  unfold tset
  split
  · simp only [tget, tfind_tdel]; split <;> simp_all
  · exact tget_tput d t k j a

@[simp] theorem tget_tset_same {α : Type} [DecidableEq α] (d : α) (t : Tab α) (k : Nat) (a : α) : tget d (tset d t k a) k = a := by
  simp [tget_tset]

theorem tfind_tmap {α : Type} (f : Nat → α → α) (t : Tab α) (k : Nat) : tfind (tmap f t) k = (tfind t k).map (f k) := by
  induction t with
  | nil => rfl
  | cons p r ih =>
    obtain ⟨i, b⟩ := p
    simp only [tmap, List.map_cons, tfind] at ih ⊢
    split
    · subst_vars; simp
    · exact ih

/-! ### Memory -/

theorem memGet_memSet (m : Memory) (a x : Nat) (b : Byte) : memGet (memSet m a b) x = if x = a then b else memGet m x :=
  tget_tset unlistedByte m a x b

theorem memGet_memPuts (m : Memory) (a x : Nat) (l : List Byte) :
    memGet (memPuts m a l) x = if a ≤ x ∧ x < a + l.length then l.getD (x - a) 0 else memGet m x := by
  induction l generalizing m a with
  | nil => simp [memPuts]
  | cons b r ih =>
    simp only [memPuts, ih, memGet_memSet, List.length_cons]
    by_cases h1 : x = a
    · subst h1; simp
    · by_cases h2 : a + 1 ≤ x ∧ x < a + 1 + r.length
      · obtain ⟨n, hn⟩ : ∃ n, x - a = n + 1 := ⟨x - a - 1, by omega⟩
        have : x - (a + 1) = n := by omega
        simp [h2, show a ≤ x ∧ x < a + (r.length + 1) by omega, hn, this]
      · rw [if_neg h2, if_neg h1, if_neg (show ¬ (a ≤ x ∧ x < a + (r.length + 1)) by omega)]

/-- The keys of a table all lie above a bound. -/
def Memory.above (n : Nat) (m : Memory) : Prop := ∀ c ∈ m, n < c.1

theorem Memory.wf_cons {c : Host.Cell} {m : Memory} :
    Memory.wf (c :: m) = true ↔ c.2 ≠ unlistedByte ∧ Memory.above c.1 m ∧ Memory.wf m = true := by
  induction m generalizing c with
  | nil => simp [Memory.wf, Memory.above]
  | cons d r ih =>
    simp only [Memory.wf, Bool.and_eq_true, bne_iff_ne, ne_eq, decide_eq_true_eq, and_assoc]
    constructor
    · rintro ⟨h1, h2, h3⟩
      refine ⟨h1, ?_, h3⟩
      intro x hx
      rcases List.mem_cons.1 hx with rfl | hx
      · exact h2
      · exact Nat.lt_trans h2 ((ih.1 h3).2.1 x hx)
    · rintro ⟨h1, h2, h3⟩
      exact ⟨h1, h2 d (by simp), h3⟩

theorem Memory.above_tdel {n : Nat} {m : Memory} (a : Nat) (h : Memory.above n m) : Memory.above n (tdel m a) := by
  induction m with
  | nil => exact h
  | cons d r ih =>
    have hr : Memory.above n r := fun x hx => h x (List.mem_cons_of_mem _ hx)
    obtain ⟨j, b⟩ := d
    simp only [tdel]
    split
    · exact ih hr
    · intro x hx
      rcases List.mem_cons.1 hx with rfl | hx
      · exact h _ (by simp)
      · exact ih hr x hx

theorem Memory.wf_tdel {m : Memory} (a : Nat) (h : Memory.wf m = true) : Memory.wf (tdel m a) = true := by
  induction m with
  | nil => exact h
  | cons d r ih =>
    obtain ⟨h1, h2, h3⟩ := Memory.wf_cons.1 h
    obtain ⟨j, b⟩ := d
    simp only [tdel]
    split
    · exact ih h3
    · exact Memory.wf_cons.2 ⟨h1, Memory.above_tdel a h2, ih h3⟩

theorem Memory.above_tput {n : Nat} {m : Memory} (a : Nat) (b : Byte) (h : Memory.above n m) (ha : n < a) :
    Memory.above n (tput m a b) := by
  induction m with
  | nil => intro x hx; simp [tput] at hx; subst hx; exact ha
  | cons d r ih =>
    have hr : Memory.above n r := fun x hx => h x (List.mem_cons_of_mem _ hx)
    obtain ⟨j, c⟩ := d
    simp only [tput]
    split
    · intro x hx
      rcases List.mem_cons.1 hx with rfl | hx
      · exact ha
      · exact h x hx
    · split
      · intro x hx
        rcases List.mem_cons.1 hx with rfl | hx
        · exact ha
        · exact hr x hx
      · intro x hx
        rcases List.mem_cons.1 hx with rfl | hx
        · exact h _ (by simp)
        · exact ih hr x hx

theorem Memory.wf_tput {m : Memory} (a : Nat) (b : Byte) (hb : b ≠ unlistedByte) (h : Memory.wf m = true) :
    Memory.wf (tput m a b) = true := by
  induction m with
  | nil => simp [tput, Memory.wf, hb]
  | cons d r ih =>
    obtain ⟨h1, h2, h3⟩ := Memory.wf_cons.1 h
    obtain ⟨j, c⟩ := d
    simp only [tput]
    split
    · rename_i hlt
      refine Memory.wf_cons.2 ⟨hb, ?_, h⟩
      intro x hx
      rcases List.mem_cons.1 hx with rfl | hx
      · exact hlt
      · exact Nat.lt_trans hlt (h2 x hx)
    · split
      · rename_i he
        exact Memory.wf_cons.2 ⟨hb, by rw [he]; exact h2, h3⟩
      · rename_i hn he
        exact Memory.wf_cons.2 ⟨h1, Memory.above_tput a b h2 (show j < a by omega), ih h3⟩

/-- A write of one byte keeps the canonical form. -/
theorem Memory.wf_memSet {m : Memory} (a : Nat) (b : Byte) (h : Memory.wf m = true) : Memory.wf (memSet m a b) = true := by
  unfold memSet tset
  split
  · exact Memory.wf_tdel a h
  · exact Memory.wf_tput a b ‹_› h

/-- A write of bytes keeps the canonical form. -/
theorem Memory.wf_memPuts {m : Memory} (a : Nat) (l : List Byte) (h : Memory.wf m = true) : Memory.wf (memPuts m a l) = true := by
  induction l generalizing m a with
  | nil => exact h
  | cons b r ih => exact ih (a + 1) (Memory.wf_memSet a b h)

theorem reset_memWf : Memory.wf State.reset.mem = true := rfl

/-! ### Lanes -/

theorem laneOf_allOnes {l : Nat} (h : l < 32) : laneOf allOnes l = true := by
  interval_cases l <;> decide

/-- The number a mask is built as, over the lanes below `n`. -/
def maskSum (f : Nat → Bool) (n : Nat) : Nat := (List.range n).foldl (fun acc l => if f l then acc + 2 ^ l else acc) 0

theorem maskSum_succ (f : Nat → Bool) (n : Nat) : maskSum f (n + 1) = if f n then maskSum f n + 2 ^ n else maskSum f n := by
  simp [maskSum, List.range_succ, List.foldl_append]

theorem maskSum_lt (f : Nat → Bool) (n : Nat) : maskSum f n < 2 ^ n := by
  induction n with
  | zero => simp [maskSum]
  | succ n ih => rw [maskSum_succ, Nat.pow_succ]; split <;> omega

theorem testBit_maskSum (f : Nat → Bool) (n i : Nat) : (maskSum f n).testBit i = (decide (i < n) && f i) := by
  induction n with
  | zero => simp [maskSum]
  | succ n ih =>
    rw [maskSum_succ]
    have hlt := maskSum_lt f n
    rcases Nat.lt_trichotomy i n with h | h | h
    · split
      · rw [Nat.add_comm, Nat.testBit_two_pow_add_gt h, ih]; simp [h, Nat.lt_succ_of_lt h]
      · rw [ih]; simp [h, Nat.lt_succ_of_lt h]
    · subst h
      split
      · rw [Nat.add_comm, Nat.testBit_two_pow_add_eq, Nat.testBit_lt_two_pow hlt]; simp_all
      · rw [Nat.testBit_lt_two_pow hlt]; simp_all
    · have : ∀ x, x < 2 ^ (n + 1) → x.testBit i = false := fun x hx =>
        Nat.testBit_lt_two_pow (Nat.lt_of_lt_of_le hx (Nat.pow_le_pow_right (by omega) h))
      rw [this _ (by rw [Nat.pow_succ]; split <;> omega)]
      simp [show ¬ i < n + 1 by omega]

/-- A mask made of the lanes that satisfy a test holds exactly those. -/
theorem laneOf_maskWhere (f : Nat → Bool) {l : Nat} (h : l < 32) : laneOf (maskWhere f) l = f l := by
  have e : maskWhere f = BitVec.ofNat 32 (maskSum f 32) := rfl
  rw [e, laneOf, BitVec.getLsbD_ofNat, testBit_maskSum]
  simp [h]

theorem mem_lanesOf {m : LaneMask} {l : Nat} : l ∈ lanesOf m ↔ l < 32 ∧ laneOf m l = true := by
  simp [lanesOf, allLanes]

end Sys2Proof.Machine
end

