-- ==== Sys2Proof/Laws/State.lean ====
section
/-! SUPPORT. One lemma per field per update of the state and of a wave, so that no proof unfolds a record update; what each accessor reads after each update. -/

namespace Sys2Proof.Machine

/-! ### Updates of the state -/

@[simp] theorem State.putWave_gts (s : State) (k : Nat) (w : Wave) : (s.putWave k w).gts = s.gts := rfl
@[simp] theorem State.putWave_agenda (s : State) (k : Nat) (w : Wave) : (s.putWave k w).agenda = s.agenda := rfl
@[simp] theorem State.putWave_turn (s : State) (k : Nat) (w : Wave) : (s.putWave k w).turn = s.turn := rfl
@[simp] theorem State.putWave_rot (s : State) (k : Nat) (w : Wave) : (s.putWave k w).rot = s.rot := rfl
@[simp] theorem State.putWave_rote (s : State) (k : Nat) (w : Wave) : (s.putWave k w).rote = s.rote := rfl
@[simp] theorem State.putWave_freeCtr (s : State) (k : Nat) (w : Wave) : (s.putWave k w).freeCtr = s.freeCtr := rfl
@[simp] theorem State.putWave_cur (s : State) (k : Nat) (w : Wave) : (s.putWave k w).cur = s.cur := rfl
@[simp] theorem State.putWave_teams (s : State) (k : Nat) (w : Wave) : (s.putWave k w).teams = s.teams := rfl
@[simp] theorem State.putWave_teamctr (s : State) (k : Nat) (w : Wave) : (s.putWave k w).teamctr = s.teamctr := rfl
@[simp] theorem State.putWave_subs (s : State) (k : Nat) (w : Wave) : (s.putWave k w).subs = s.subs := rfl
@[simp] theorem State.putWave_cores (s : State) (k : Nat) (w : Wave) : (s.putWave k w).cores = s.cores := rfl
@[simp] theorem State.putWave_clusters (s : State) (k : Nat) (w : Wave) : (s.putWave k w).clusters = s.clusters := rfl
@[simp] theorem State.putWave_parts (s : State) (k : Nat) (w : Wave) : (s.putWave k w).parts = s.parts := rfl
@[simp] theorem State.putWave_mem (s : State) (k : Nat) (w : Wave) : (s.putWave k w).mem = s.mem := rfl
@[simp] theorem State.putWave_marks (s : State) (k : Nat) (w : Wave) : (s.putWave k w).marks = s.marks := rfl
@[simp] theorem State.putWave_hq (s : State) (k : Nat) (w : Wave) : (s.putWave k w).hq = s.hq := rfl
@[simp] theorem State.putWave_dir (s : State) (k : Nat) (w : Wave) : (s.putWave k w).dir = s.dir := rfl
@[simp] theorem State.putWave_mon (s : State) (k : Nat) (w : Wave) : (s.putWave k w).mon = s.mon := rfl
@[simp] theorem State.putWave_cairns (s : State) (k : Nat) (w : Wave) : (s.putWave k w).cairns = s.cairns := rfl
@[simp] theorem State.putWave_qregs (s : State) (k : Nat) (w : Wave) : (s.putWave k w).qregs = s.qregs := rfl
@[simp] theorem State.putWave_ztiles (s : State) (k : Nat) (w : Wave) : (s.putWave k w).ztiles = s.ztiles := rfl
@[simp] theorem State.putWave_sramb (s : State) (k : Nat) (w : Wave) : (s.putWave k w).sramb = s.sramb := rfl
@[simp] theorem State.putWave_msckb (s : State) (k : Nat) (w : Wave) : (s.putWave k w).msckb = s.msckb := rfl
@[simp] theorem State.putWave_audfail (s : State) (k : Nat) (w : Wave) : (s.putWave k w).audfail = s.audfail := rfl
@[simp] theorem State.putWave_units (s : State) (k : Nat) (w : Wave) : (s.putWave k w).units = s.units := rfl
@[simp] theorem State.putWave_modu (s : State) (k : Nat) (w : Wave) : (s.putWave k w).modu = s.modu := rfl

@[simp] theorem State.putTeam_gts (s : State) (t : Nat) (x : Team) : (s.putTeam t x).gts = s.gts := rfl
@[simp] theorem State.putTeam_agenda (s : State) (t : Nat) (x : Team) : (s.putTeam t x).agenda = s.agenda := rfl
@[simp] theorem State.putTeam_turn (s : State) (t : Nat) (x : Team) : (s.putTeam t x).turn = s.turn := rfl
@[simp] theorem State.putTeam_rot (s : State) (t : Nat) (x : Team) : (s.putTeam t x).rot = s.rot := rfl
@[simp] theorem State.putTeam_rote (s : State) (t : Nat) (x : Team) : (s.putTeam t x).rote = s.rote := rfl
@[simp] theorem State.putTeam_freeCtr (s : State) (t : Nat) (x : Team) : (s.putTeam t x).freeCtr = s.freeCtr := rfl
@[simp] theorem State.putTeam_cur (s : State) (t : Nat) (x : Team) : (s.putTeam t x).cur = s.cur := rfl
@[simp] theorem State.putTeam_waves (s : State) (t : Nat) (x : Team) : (s.putTeam t x).waves = s.waves := rfl
@[simp] theorem State.putTeam_teamctr (s : State) (t : Nat) (x : Team) : (s.putTeam t x).teamctr = s.teamctr := rfl
@[simp] theorem State.putTeam_subs (s : State) (t : Nat) (x : Team) : (s.putTeam t x).subs = s.subs := rfl
@[simp] theorem State.putTeam_cores (s : State) (t : Nat) (x : Team) : (s.putTeam t x).cores = s.cores := rfl
@[simp] theorem State.putTeam_clusters (s : State) (t : Nat) (x : Team) : (s.putTeam t x).clusters = s.clusters := rfl
@[simp] theorem State.putTeam_parts (s : State) (t : Nat) (x : Team) : (s.putTeam t x).parts = s.parts := rfl
@[simp] theorem State.putTeam_mem (s : State) (t : Nat) (x : Team) : (s.putTeam t x).mem = s.mem := rfl
@[simp] theorem State.putTeam_marks (s : State) (t : Nat) (x : Team) : (s.putTeam t x).marks = s.marks := rfl
@[simp] theorem State.putTeam_hq (s : State) (t : Nat) (x : Team) : (s.putTeam t x).hq = s.hq := rfl
@[simp] theorem State.putTeam_dir (s : State) (t : Nat) (x : Team) : (s.putTeam t x).dir = s.dir := rfl
@[simp] theorem State.putTeam_mon (s : State) (t : Nat) (x : Team) : (s.putTeam t x).mon = s.mon := rfl
@[simp] theorem State.putTeam_cairns (s : State) (t : Nat) (x : Team) : (s.putTeam t x).cairns = s.cairns := rfl
@[simp] theorem State.putTeam_qregs (s : State) (t : Nat) (x : Team) : (s.putTeam t x).qregs = s.qregs := rfl
@[simp] theorem State.putTeam_ztiles (s : State) (t : Nat) (x : Team) : (s.putTeam t x).ztiles = s.ztiles := rfl
@[simp] theorem State.putTeam_sramb (s : State) (t : Nat) (x : Team) : (s.putTeam t x).sramb = s.sramb := rfl
@[simp] theorem State.putTeam_msckb (s : State) (t : Nat) (x : Team) : (s.putTeam t x).msckb = s.msckb := rfl
@[simp] theorem State.putTeam_audfail (s : State) (t : Nat) (x : Team) : (s.putTeam t x).audfail = s.audfail := rfl
@[simp] theorem State.putTeam_units (s : State) (t : Nat) (x : Team) : (s.putTeam t x).units = s.units := rfl
@[simp] theorem State.putTeam_modu (s : State) (t : Nat) (x : Team) : (s.putTeam t x).modu = s.modu := rfl

@[simp] theorem State.putCore_gts (s : State) (q : Nat) (c : Core) : (s.putCore q c).gts = s.gts := rfl
@[simp] theorem State.putCore_agenda (s : State) (q : Nat) (c : Core) : (s.putCore q c).agenda = s.agenda := rfl
@[simp] theorem State.putCore_turn (s : State) (q : Nat) (c : Core) : (s.putCore q c).turn = s.turn := rfl
@[simp] theorem State.putCore_rot (s : State) (q : Nat) (c : Core) : (s.putCore q c).rot = s.rot := rfl
@[simp] theorem State.putCore_rote (s : State) (q : Nat) (c : Core) : (s.putCore q c).rote = s.rote := rfl
@[simp] theorem State.putCore_freeCtr (s : State) (q : Nat) (c : Core) : (s.putCore q c).freeCtr = s.freeCtr := rfl
@[simp] theorem State.putCore_cur (s : State) (q : Nat) (c : Core) : (s.putCore q c).cur = s.cur := rfl
@[simp] theorem State.putCore_waves (s : State) (q : Nat) (c : Core) : (s.putCore q c).waves = s.waves := rfl
@[simp] theorem State.putCore_teams (s : State) (q : Nat) (c : Core) : (s.putCore q c).teams = s.teams := rfl
@[simp] theorem State.putCore_teamctr (s : State) (q : Nat) (c : Core) : (s.putCore q c).teamctr = s.teamctr := rfl
@[simp] theorem State.putCore_subs (s : State) (q : Nat) (c : Core) : (s.putCore q c).subs = s.subs := rfl
@[simp] theorem State.putCore_clusters (s : State) (q : Nat) (c : Core) : (s.putCore q c).clusters = s.clusters := rfl
@[simp] theorem State.putCore_parts (s : State) (q : Nat) (c : Core) : (s.putCore q c).parts = s.parts := rfl
@[simp] theorem State.putCore_mem (s : State) (q : Nat) (c : Core) : (s.putCore q c).mem = s.mem := rfl
@[simp] theorem State.putCore_marks (s : State) (q : Nat) (c : Core) : (s.putCore q c).marks = s.marks := rfl
@[simp] theorem State.putCore_hq (s : State) (q : Nat) (c : Core) : (s.putCore q c).hq = s.hq := rfl
@[simp] theorem State.putCore_dir (s : State) (q : Nat) (c : Core) : (s.putCore q c).dir = s.dir := rfl
@[simp] theorem State.putCore_mon (s : State) (q : Nat) (c : Core) : (s.putCore q c).mon = s.mon := rfl
@[simp] theorem State.putCore_cairns (s : State) (q : Nat) (c : Core) : (s.putCore q c).cairns = s.cairns := rfl
@[simp] theorem State.putCore_qregs (s : State) (q : Nat) (c : Core) : (s.putCore q c).qregs = s.qregs := rfl
@[simp] theorem State.putCore_ztiles (s : State) (q : Nat) (c : Core) : (s.putCore q c).ztiles = s.ztiles := rfl
@[simp] theorem State.putCore_sramb (s : State) (q : Nat) (c : Core) : (s.putCore q c).sramb = s.sramb := rfl
@[simp] theorem State.putCore_msckb (s : State) (q : Nat) (c : Core) : (s.putCore q c).msckb = s.msckb := rfl
@[simp] theorem State.putCore_audfail (s : State) (q : Nat) (c : Core) : (s.putCore q c).audfail = s.audfail := rfl
@[simp] theorem State.putCore_units (s : State) (q : Nat) (c : Core) : (s.putCore q c).units = s.units := rfl
@[simp] theorem State.putCore_modu (s : State) (q : Nat) (c : Core) : (s.putCore q c).modu = s.modu := rfl

@[simp] theorem State.putCluster_gts (s : State) (k : Nat) (c : Cluster) : (s.putCluster k c).gts = s.gts := rfl
@[simp] theorem State.putCluster_agenda (s : State) (k : Nat) (c : Cluster) : (s.putCluster k c).agenda = s.agenda := rfl
@[simp] theorem State.putCluster_turn (s : State) (k : Nat) (c : Cluster) : (s.putCluster k c).turn = s.turn := rfl
@[simp] theorem State.putCluster_rot (s : State) (k : Nat) (c : Cluster) : (s.putCluster k c).rot = s.rot := rfl
@[simp] theorem State.putCluster_rote (s : State) (k : Nat) (c : Cluster) : (s.putCluster k c).rote = s.rote := rfl
@[simp] theorem State.putCluster_freeCtr (s : State) (k : Nat) (c : Cluster) : (s.putCluster k c).freeCtr = s.freeCtr := rfl
@[simp] theorem State.putCluster_cur (s : State) (k : Nat) (c : Cluster) : (s.putCluster k c).cur = s.cur := rfl
@[simp] theorem State.putCluster_waves (s : State) (k : Nat) (c : Cluster) : (s.putCluster k c).waves = s.waves := rfl
@[simp] theorem State.putCluster_teams (s : State) (k : Nat) (c : Cluster) : (s.putCluster k c).teams = s.teams := rfl
@[simp] theorem State.putCluster_teamctr (s : State) (k : Nat) (c : Cluster) : (s.putCluster k c).teamctr = s.teamctr := rfl
@[simp] theorem State.putCluster_subs (s : State) (k : Nat) (c : Cluster) : (s.putCluster k c).subs = s.subs := rfl
@[simp] theorem State.putCluster_cores (s : State) (k : Nat) (c : Cluster) : (s.putCluster k c).cores = s.cores := rfl
@[simp] theorem State.putCluster_parts (s : State) (k : Nat) (c : Cluster) : (s.putCluster k c).parts = s.parts := rfl
@[simp] theorem State.putCluster_mem (s : State) (k : Nat) (c : Cluster) : (s.putCluster k c).mem = s.mem := rfl
@[simp] theorem State.putCluster_marks (s : State) (k : Nat) (c : Cluster) : (s.putCluster k c).marks = s.marks := rfl
@[simp] theorem State.putCluster_hq (s : State) (k : Nat) (c : Cluster) : (s.putCluster k c).hq = s.hq := rfl
@[simp] theorem State.putCluster_dir (s : State) (k : Nat) (c : Cluster) : (s.putCluster k c).dir = s.dir := rfl
@[simp] theorem State.putCluster_mon (s : State) (k : Nat) (c : Cluster) : (s.putCluster k c).mon = s.mon := rfl
@[simp] theorem State.putCluster_cairns (s : State) (k : Nat) (c : Cluster) : (s.putCluster k c).cairns = s.cairns := rfl
@[simp] theorem State.putCluster_qregs (s : State) (k : Nat) (c : Cluster) : (s.putCluster k c).qregs = s.qregs := rfl
@[simp] theorem State.putCluster_ztiles (s : State) (k : Nat) (c : Cluster) : (s.putCluster k c).ztiles = s.ztiles := rfl
@[simp] theorem State.putCluster_sramb (s : State) (k : Nat) (c : Cluster) : (s.putCluster k c).sramb = s.sramb := rfl
@[simp] theorem State.putCluster_msckb (s : State) (k : Nat) (c : Cluster) : (s.putCluster k c).msckb = s.msckb := rfl
@[simp] theorem State.putCluster_audfail (s : State) (k : Nat) (c : Cluster) : (s.putCluster k c).audfail = s.audfail := rfl
@[simp] theorem State.putCluster_units (s : State) (k : Nat) (c : Cluster) : (s.putCluster k c).units = s.units := rfl
@[simp] theorem State.putCluster_modu (s : State) (k : Nat) (c : Cluster) : (s.putCluster k c).modu = s.modu := rfl

@[simp] theorem State.putPart_gts (s : State) (p : Nat) (x : Part) : (s.putPart p x).gts = s.gts := rfl
@[simp] theorem State.putPart_agenda (s : State) (p : Nat) (x : Part) : (s.putPart p x).agenda = s.agenda := rfl
@[simp] theorem State.putPart_turn (s : State) (p : Nat) (x : Part) : (s.putPart p x).turn = s.turn := rfl
@[simp] theorem State.putPart_rot (s : State) (p : Nat) (x : Part) : (s.putPart p x).rot = s.rot := rfl
@[simp] theorem State.putPart_rote (s : State) (p : Nat) (x : Part) : (s.putPart p x).rote = s.rote := rfl
@[simp] theorem State.putPart_freeCtr (s : State) (p : Nat) (x : Part) : (s.putPart p x).freeCtr = s.freeCtr := rfl
@[simp] theorem State.putPart_cur (s : State) (p : Nat) (x : Part) : (s.putPart p x).cur = s.cur := rfl
@[simp] theorem State.putPart_waves (s : State) (p : Nat) (x : Part) : (s.putPart p x).waves = s.waves := rfl
@[simp] theorem State.putPart_teams (s : State) (p : Nat) (x : Part) : (s.putPart p x).teams = s.teams := rfl
@[simp] theorem State.putPart_teamctr (s : State) (p : Nat) (x : Part) : (s.putPart p x).teamctr = s.teamctr := rfl
@[simp] theorem State.putPart_subs (s : State) (p : Nat) (x : Part) : (s.putPart p x).subs = s.subs := rfl
@[simp] theorem State.putPart_cores (s : State) (p : Nat) (x : Part) : (s.putPart p x).cores = s.cores := rfl
@[simp] theorem State.putPart_clusters (s : State) (p : Nat) (x : Part) : (s.putPart p x).clusters = s.clusters := rfl
@[simp] theorem State.putPart_mem (s : State) (p : Nat) (x : Part) : (s.putPart p x).mem = s.mem := rfl
@[simp] theorem State.putPart_marks (s : State) (p : Nat) (x : Part) : (s.putPart p x).marks = s.marks := rfl
@[simp] theorem State.putPart_hq (s : State) (p : Nat) (x : Part) : (s.putPart p x).hq = s.hq := rfl
@[simp] theorem State.putPart_dir (s : State) (p : Nat) (x : Part) : (s.putPart p x).dir = s.dir := rfl
@[simp] theorem State.putPart_mon (s : State) (p : Nat) (x : Part) : (s.putPart p x).mon = s.mon := rfl
@[simp] theorem State.putPart_cairns (s : State) (p : Nat) (x : Part) : (s.putPart p x).cairns = s.cairns := rfl
@[simp] theorem State.putPart_qregs (s : State) (p : Nat) (x : Part) : (s.putPart p x).qregs = s.qregs := rfl
@[simp] theorem State.putPart_ztiles (s : State) (p : Nat) (x : Part) : (s.putPart p x).ztiles = s.ztiles := rfl
@[simp] theorem State.putPart_sramb (s : State) (p : Nat) (x : Part) : (s.putPart p x).sramb = s.sramb := rfl
@[simp] theorem State.putPart_msckb (s : State) (p : Nat) (x : Part) : (s.putPart p x).msckb = s.msckb := rfl
@[simp] theorem State.putPart_audfail (s : State) (p : Nat) (x : Part) : (s.putPart p x).audfail = s.audfail := rfl
@[simp] theorem State.putPart_units (s : State) (p : Nat) (x : Part) : (s.putPart p x).units = s.units := rfl
@[simp] theorem State.putPart_modu (s : State) (p : Nat) (x : Part) : (s.putPart p x).modu = s.modu := rfl

@[simp] theorem State.wave?_putWave (s : State) (k : Nat) (w : Wave) : (s.putWave k w).wave? k = some w := tfind_tput_same _ _ _
theorem State.wave?_putWave_ne (s : State) (k j : Nat) (w : Wave) (h : j ≠ k) : (s.putWave k w).wave? j = s.wave? j := by
  simp [State.wave?, State.putWave, tfind_tput, h]
@[simp] theorem State.team?_putTeam (s : State) (t : Nat) (x : Team) : (s.putTeam t x).team? t = some x := tfind_tput_same _ _ _
theorem State.team?_putTeam_ne (s : State) (t j : Nat) (x : Team) (h : j ≠ t) : (s.putTeam t x).team? j = s.team? j := by
  simp [State.team?, State.putTeam, tfind_tput, h]
@[simp] theorem State.core_putCore (s : State) (q : Nat) (c : Core) : (s.putCore q c).core q = c := tget_tset_same _ _ _ _
theorem State.core_putCore_ne (s : State) (q j : Nat) (c : Core) (h : j ≠ q) : (s.putCore q c).core j = s.core j := by
  simp [State.core, State.putCore, tget_tset, h]
@[simp] theorem State.cluster_putCluster (s : State) (k : Nat) (c : Cluster) : (s.putCluster k c).cluster k = c := tget_tset_same _ _ _ _
theorem State.cluster_putCluster_ne (s : State) (k j : Nat) (c : Cluster) (h : j ≠ k) : (s.putCluster k c).cluster j = s.cluster j := by
  simp [State.cluster, State.putCluster, tget_tset, h]
@[simp] theorem State.part_putPart (s : State) (p : Nat) (x : Part) : (s.putPart p x).part p = x := tget_tset_same _ _ _ _
theorem State.part_putPart_ne (s : State) (p j : Nat) (x : Part) (h : j ≠ p) : (s.putPart p x).part j = s.part j := by
  simp [State.part, State.putPart, tget_tset, h]

@[simp] theorem State.team?_putWave (s : State) (k : Nat) (w : Wave) (j : Nat) : (s.putWave k w).team? j = s.team? j := rfl
@[simp] theorem State.core_putWave (s : State) (k : Nat) (w : Wave) (j : Nat) : (s.putWave k w).core j = s.core j := rfl
@[simp] theorem State.cluster_putWave (s : State) (k : Nat) (w : Wave) (j : Nat) : (s.putWave k w).cluster j = s.cluster j := rfl
@[simp] theorem State.part_putWave (s : State) (k : Nat) (w : Wave) (j : Nat) : (s.putWave k w).part j = s.part j := rfl
@[simp] theorem State.wave?_putTeam (s : State) (t : Nat) (x : Team) (j : Nat) : (s.putTeam t x).wave? j = s.wave? j := rfl
@[simp] theorem State.core_putTeam (s : State) (t : Nat) (x : Team) (j : Nat) : (s.putTeam t x).core j = s.core j := rfl
@[simp] theorem State.cluster_putTeam (s : State) (t : Nat) (x : Team) (j : Nat) : (s.putTeam t x).cluster j = s.cluster j := rfl
@[simp] theorem State.part_putTeam (s : State) (t : Nat) (x : Team) (j : Nat) : (s.putTeam t x).part j = s.part j := rfl
@[simp] theorem State.wave?_putCore (s : State) (q : Nat) (c : Core) (j : Nat) : (s.putCore q c).wave? j = s.wave? j := rfl
@[simp] theorem State.team?_putCore (s : State) (q : Nat) (c : Core) (j : Nat) : (s.putCore q c).team? j = s.team? j := rfl
@[simp] theorem State.cluster_putCore (s : State) (q : Nat) (c : Core) (j : Nat) : (s.putCore q c).cluster j = s.cluster j := rfl
@[simp] theorem State.part_putCore (s : State) (q : Nat) (c : Core) (j : Nat) : (s.putCore q c).part j = s.part j := rfl
@[simp] theorem State.wave?_putCluster (s : State) (k : Nat) (c : Cluster) (j : Nat) : (s.putCluster k c).wave? j = s.wave? j := rfl
@[simp] theorem State.team?_putCluster (s : State) (k : Nat) (c : Cluster) (j : Nat) : (s.putCluster k c).team? j = s.team? j := rfl
@[simp] theorem State.core_putCluster (s : State) (k : Nat) (c : Cluster) (j : Nat) : (s.putCluster k c).core j = s.core j := rfl
@[simp] theorem State.part_putCluster (s : State) (k : Nat) (c : Cluster) (j : Nat) : (s.putCluster k c).part j = s.part j := rfl
@[simp] theorem State.wave?_putPart (s : State) (p : Nat) (x : Part) (j : Nat) : (s.putPart p x).wave? j = s.wave? j := rfl
@[simp] theorem State.team?_putPart (s : State) (p : Nat) (x : Part) (j : Nat) : (s.putPart p x).team? j = s.team? j := rfl
@[simp] theorem State.core_putPart (s : State) (p : Nat) (x : Part) (j : Nat) : (s.putPart p x).core j = s.core j := rfl
@[simp] theorem State.cluster_putPart (s : State) (p : Nat) (x : Part) (j : Nat) : (s.putPart p x).cluster j = s.cluster j := rfl

/-! ### Updates of a wave -/

@[simp] theorem Wave.putV_team (w : Wave) (n : Nat) (f : Nat → Word) : (w.putV n f).team = w.team := rfl
@[simp] theorem Wave.putV_wid (w : Wave) (n : Nat) (f : Nat → Word) : (w.putV n f).wid = w.wid := rfl
@[simp] theorem Wave.putV_kern (w : Wave) (n : Nat) (f : Nat → Word) : (w.putV n f).kern = w.kern := rfl
@[simp] theorem Wave.putV_codesel (w : Wave) (n : Nat) (f : Nat → Word) : (w.putV n f).codesel = w.codesel := rfl
@[simp] theorem Wave.putV_isel (w : Wave) (n : Nat) (f : Nat → Word) : (w.putV n f).isel = w.isel := rfl
@[simp] theorem Wave.putV_sr (w : Wave) (n : Nat) (f : Nat → Word) : (w.putV n f).sr = w.sr := rfl
@[simp] theorem Wave.putV_pr (w : Wave) (n : Nat) (f : Nat → Word) : (w.putV n f).pr = w.pr := rfl
@[simp] theorem Wave.putV_errs (w : Wave) (n : Nat) (f : Nat → Word) : (w.putV n f).errs = w.errs := rfl
@[simp] theorem Wave.putV_flags (w : Wave) (n : Nat) (f : Nat → Word) : (w.putV n f).flags = w.flags := rfl
@[simp] theorem Wave.putV_guards (w : Wave) (n : Nat) (f : Nat → Word) : (w.putV n f).guards = w.guards := rfl
@[simp] theorem Wave.putV_fpstat (w : Wave) (n : Nat) (f : Nat → Word) : (w.putV n f).fpstat = w.fpstat := rfl
@[simp] theorem Wave.putV_rngLo (w : Wave) (n : Nat) (f : Nat → Word) : (w.putV n f).rngLo = w.rngLo := rfl
@[simp] theorem Wave.putV_rngHi (w : Wave) (n : Nat) (f : Nat → Word) : (w.putV n f).rngHi = w.rngHi := rfl
@[simp] theorem Wave.putV_rngStream (w : Wave) (n : Nat) (f : Nat → Word) : (w.putV n f).rngStream = w.rngStream := rfl
@[simp] theorem Wave.putV_rngStep (w : Wave) (n : Nat) (f : Nat → Word) : (w.putV n f).rngStep = w.rngStep := rfl
@[simp] theorem Wave.putV_trapcode (w : Wave) (n : Nat) (f : Nat → Word) : (w.putV n f).trapcode = w.trapcode := rfl
@[simp] theorem Wave.putV_trapinfo (w : Wave) (n : Nat) (f : Nat → Word) : (w.putV n f).trapinfo = w.trapinfo := rfl
@[simp] theorem Wave.putV_trappc (w : Wave) (n : Nat) (f : Nat → Word) : (w.putV n f).trappc = w.trappc := rfl
@[simp] theorem Wave.putV_faultmask (w : Wave) (n : Nat) (f : Nat → Word) : (w.putV n f).faultmask = w.faultmask := rfl
@[simp] theorem Wave.putV_faddr (w : Wave) (n : Nat) (f : Nat → Word) : (w.putV n f).faddr = w.faddr := rfl
@[simp] theorem Wave.putV_intrap (w : Wave) (n : Nat) (f : Nat → Word) : (w.putV n f).intrap = w.intrap := rfl
@[simp] theorem Wave.putV_clvl (w : Wave) (n : Nat) (f : Nat → Word) : (w.putV n f).clvl = w.clvl := rfl
@[simp] theorem Wave.putV_plvl (w : Wave) (n : Nat) (f : Nat → Word) : (w.putV n f).plvl = w.plvl := rfl
@[simp] theorem Wave.putV_nest (w : Wave) (n : Nat) (f : Nat → Word) : (w.putV n f).nest = w.nest := rfl
@[simp] theorem Wave.putV_prepend (w : Wave) (n : Nat) (f : Nat → Word) : (w.putV n f).prepend = w.prepend := rfl
@[simp] theorem Wave.putV_tsplit (w : Wave) (n : Nat) (f : Nat → Word) : (w.putV n f).tsplit = w.tsplit := rfl
@[simp] theorem Wave.putV_swidx0 (w : Wave) (n : Nat) (f : Nat → Word) : (w.putV n f).swidx0 = w.swidx0 := rfl
@[simp] theorem Wave.putV_swidx1 (w : Wave) (n : Nat) (f : Nat → Word) : (w.putV n f).swidx1 = w.swidx1 := rfl
@[simp] theorem Wave.putV_emu (w : Wave) (n : Nat) (f : Nat → Word) : (w.putV n f).emu = w.emu := rfl
@[simp] theorem Wave.putV_linkidx (w : Wave) (n : Nat) (f : Nat → Word) : (w.putV n f).linkidx = w.linkidx := rfl
@[simp] theorem Wave.putV_linkent (w : Wave) (n : Nat) (f : Nat → Word) : (w.putV n f).linkent = w.linkent := rfl
@[simp] theorem Wave.putV_linkgen (w : Wave) (n : Nat) (f : Nat → Word) : (w.putV n f).linkgen = w.linkgen := rfl
@[simp] theorem Wave.putV_linksel (w : Wave) (n : Nat) (f : Nat → Word) : (w.putV n f).linksel = w.linksel := rfl
@[simp] theorem Wave.putV_linkname (w : Wave) (n : Nat) (f : Nat → Word) : (w.putV n f).linkname = w.linkname := rfl
@[simp] theorem Wave.putV_links (w : Wave) (n : Nat) (f : Nat → Word) : (w.putV n f).links = w.links := rfl
@[simp] theorem Wave.putV_cframes (w : Wave) (n : Nat) (f : Nat → Word) : (w.putV n f).cframes = w.cframes := rfl
@[simp] theorem Wave.putV_audCore (w : Wave) (n : Nat) (f : Nat → Word) : (w.putV n f).audCore = w.audCore := rfl
@[simp] theorem Wave.putV_audTeam (w : Wave) (n : Nat) (f : Nat → Word) : (w.putV n f).audTeam = w.audTeam := rfl
@[simp] theorem Wave.putV_audGrid (w : Wave) (n : Nat) (f : Nat → Word) : (w.putV n f).audGrid = w.audGrid := rfl
@[simp] theorem Wave.putV_splits (w : Wave) (n : Nat) (f : Nat → Word) : (w.putV n f).splits = w.splits := rfl
@[simp] theorem Wave.putV_handler (w : Wave) (n : Nat) (f : Nat → Word) : (w.putV n f).handler = w.handler := rfl
@[simp] theorem Wave.putV_sb (w : Wave) (n : Nat) (f : Nat → Word) : (w.putV n f).sb = w.sb := rfl
@[simp] theorem Wave.putV_pend (w : Wave) (n : Nat) (f : Nat → Word) : (w.putV n f).pend = w.pend := rfl
@[simp] theorem Wave.putV_ops (w : Wave) (n : Nat) (f : Nat → Word) : (w.putV n f).ops = w.ops := rfl
@[simp] theorem Wave.putV_opctr (w : Wave) (n : Nat) (f : Nat → Word) : (w.putV n f).opctr = w.opctr := rfl
@[simp] theorem Wave.putV_mq (w : Wave) (n : Nat) (f : Nat → Word) : (w.putV n f).mq = w.mq := rfl
@[simp] theorem Wave.putV_eq (w : Wave) (n : Nat) (f : Nat → Word) : (w.putV n f).eq = w.eq := rfl
@[simp] theorem Wave.putV_cq (w : Wave) (n : Nat) (f : Nat → Word) : (w.putV n f).cq = w.cq := rfl
@[simp] theorem Wave.putV_hm (w : Wave) (n : Nat) (f : Nat → Word) : (w.putV n f).hm = w.hm := rfl
@[simp] theorem Wave.putV_he (w : Wave) (n : Nat) (f : Nat → Word) : (w.putV n f).he = w.he := rfl
@[simp] theorem Wave.putV_hc (w : Wave) (n : Nat) (f : Nat → Word) : (w.putV n f).hc = w.hc := rfl
@[simp] theorem Wave.putV_bara (w : Wave) (n : Nat) (f : Nat → Word) : (w.putV n f).bara = w.bara := rfl
@[simp] theorem Wave.putV_baraV (w : Wave) (n : Nat) (f : Nat → Word) : (w.putV n f).baraV = w.baraV := rfl
@[simp] theorem Wave.putV_area (w : Wave) (n : Nat) (f : Nat → Word) : (w.putV n f).area = w.area := rfl
@[simp] theorem Wave.putV_active (w : Wave) (n : Nat) (f : Nat → Word) : (w.putV n f).active = w.active := rfl
@[simp] theorem Wave.putV_age (w : Wave) (n : Nat) (f : Nat → Word) : (w.putV n f).age = w.age := rfl
@[simp] theorem Wave.putV_rdy (w : Wave) (n : Nat) (f : Nat → Word) : (w.putV n f).rdy = w.rdy := rfl
@[simp] theorem Wave.putV_due (w : Wave) (n : Nat) (f : Nat → Word) : (w.putV n f).due = w.due := rfl
@[simp] theorem Wave.putV_unwind (w : Wave) (n : Nat) (f : Nat → Word) : (w.putV n f).unwind = w.unwind := rfl
@[simp] theorem Wave.putV_restore (w : Wave) (n : Nat) (f : Nat → Word) : (w.putV n f).restore = w.restore := rfl
@[simp] theorem Wave.putV_restored (w : Wave) (n : Nat) (f : Nat → Word) : (w.putV n f).restored = w.restored := rfl
@[simp] theorem Wave.putV_rstop (w : Wave) (n : Nat) (f : Nat → Word) : (w.putV n f).rstop = w.rstop := rfl
@[simp] theorem Wave.putV_halted (w : Wave) (n : Nat) (f : Nat → Word) : (w.putV n f).halted = w.halted := rfl

@[simp] theorem Wave.putS_team (w : Wave) (n : Nat) (x : Word) : (w.putS n x).team = w.team := rfl
@[simp] theorem Wave.putS_wid (w : Wave) (n : Nat) (x : Word) : (w.putS n x).wid = w.wid := rfl
@[simp] theorem Wave.putS_kern (w : Wave) (n : Nat) (x : Word) : (w.putS n x).kern = w.kern := rfl
@[simp] theorem Wave.putS_codesel (w : Wave) (n : Nat) (x : Word) : (w.putS n x).codesel = w.codesel := rfl
@[simp] theorem Wave.putS_isel (w : Wave) (n : Nat) (x : Word) : (w.putS n x).isel = w.isel := rfl
@[simp] theorem Wave.putS_vr (w : Wave) (n : Nat) (x : Word) : (w.putS n x).vr = w.vr := rfl
@[simp] theorem Wave.putS_pr (w : Wave) (n : Nat) (x : Word) : (w.putS n x).pr = w.pr := rfl
@[simp] theorem Wave.putS_errs (w : Wave) (n : Nat) (x : Word) : (w.putS n x).errs = w.errs := rfl
@[simp] theorem Wave.putS_flags (w : Wave) (n : Nat) (x : Word) : (w.putS n x).flags = w.flags := rfl
@[simp] theorem Wave.putS_guards (w : Wave) (n : Nat) (x : Word) : (w.putS n x).guards = w.guards := rfl
@[simp] theorem Wave.putS_fpstat (w : Wave) (n : Nat) (x : Word) : (w.putS n x).fpstat = w.fpstat := rfl
@[simp] theorem Wave.putS_rngLo (w : Wave) (n : Nat) (x : Word) : (w.putS n x).rngLo = w.rngLo := rfl
@[simp] theorem Wave.putS_rngHi (w : Wave) (n : Nat) (x : Word) : (w.putS n x).rngHi = w.rngHi := rfl
@[simp] theorem Wave.putS_rngStream (w : Wave) (n : Nat) (x : Word) : (w.putS n x).rngStream = w.rngStream := rfl
@[simp] theorem Wave.putS_rngStep (w : Wave) (n : Nat) (x : Word) : (w.putS n x).rngStep = w.rngStep := rfl
@[simp] theorem Wave.putS_trapcode (w : Wave) (n : Nat) (x : Word) : (w.putS n x).trapcode = w.trapcode := rfl
@[simp] theorem Wave.putS_trapinfo (w : Wave) (n : Nat) (x : Word) : (w.putS n x).trapinfo = w.trapinfo := rfl
@[simp] theorem Wave.putS_trappc (w : Wave) (n : Nat) (x : Word) : (w.putS n x).trappc = w.trappc := rfl
@[simp] theorem Wave.putS_faultmask (w : Wave) (n : Nat) (x : Word) : (w.putS n x).faultmask = w.faultmask := rfl
@[simp] theorem Wave.putS_faddr (w : Wave) (n : Nat) (x : Word) : (w.putS n x).faddr = w.faddr := rfl
@[simp] theorem Wave.putS_intrap (w : Wave) (n : Nat) (x : Word) : (w.putS n x).intrap = w.intrap := rfl
@[simp] theorem Wave.putS_clvl (w : Wave) (n : Nat) (x : Word) : (w.putS n x).clvl = w.clvl := rfl
@[simp] theorem Wave.putS_plvl (w : Wave) (n : Nat) (x : Word) : (w.putS n x).plvl = w.plvl := rfl
@[simp] theorem Wave.putS_nest (w : Wave) (n : Nat) (x : Word) : (w.putS n x).nest = w.nest := rfl
@[simp] theorem Wave.putS_prepend (w : Wave) (n : Nat) (x : Word) : (w.putS n x).prepend = w.prepend := rfl
@[simp] theorem Wave.putS_tsplit (w : Wave) (n : Nat) (x : Word) : (w.putS n x).tsplit = w.tsplit := rfl
@[simp] theorem Wave.putS_swidx0 (w : Wave) (n : Nat) (x : Word) : (w.putS n x).swidx0 = w.swidx0 := rfl
@[simp] theorem Wave.putS_swidx1 (w : Wave) (n : Nat) (x : Word) : (w.putS n x).swidx1 = w.swidx1 := rfl
@[simp] theorem Wave.putS_emu (w : Wave) (n : Nat) (x : Word) : (w.putS n x).emu = w.emu := rfl
@[simp] theorem Wave.putS_linkidx (w : Wave) (n : Nat) (x : Word) : (w.putS n x).linkidx = w.linkidx := rfl
@[simp] theorem Wave.putS_linkent (w : Wave) (n : Nat) (x : Word) : (w.putS n x).linkent = w.linkent := rfl
@[simp] theorem Wave.putS_linkgen (w : Wave) (n : Nat) (x : Word) : (w.putS n x).linkgen = w.linkgen := rfl
@[simp] theorem Wave.putS_linksel (w : Wave) (n : Nat) (x : Word) : (w.putS n x).linksel = w.linksel := rfl
@[simp] theorem Wave.putS_linkname (w : Wave) (n : Nat) (x : Word) : (w.putS n x).linkname = w.linkname := rfl
@[simp] theorem Wave.putS_links (w : Wave) (n : Nat) (x : Word) : (w.putS n x).links = w.links := rfl
@[simp] theorem Wave.putS_cframes (w : Wave) (n : Nat) (x : Word) : (w.putS n x).cframes = w.cframes := rfl
@[simp] theorem Wave.putS_audCore (w : Wave) (n : Nat) (x : Word) : (w.putS n x).audCore = w.audCore := rfl
@[simp] theorem Wave.putS_audTeam (w : Wave) (n : Nat) (x : Word) : (w.putS n x).audTeam = w.audTeam := rfl
@[simp] theorem Wave.putS_audGrid (w : Wave) (n : Nat) (x : Word) : (w.putS n x).audGrid = w.audGrid := rfl
@[simp] theorem Wave.putS_splits (w : Wave) (n : Nat) (x : Word) : (w.putS n x).splits = w.splits := rfl
@[simp] theorem Wave.putS_handler (w : Wave) (n : Nat) (x : Word) : (w.putS n x).handler = w.handler := rfl
@[simp] theorem Wave.putS_sb (w : Wave) (n : Nat) (x : Word) : (w.putS n x).sb = w.sb := rfl
@[simp] theorem Wave.putS_pend (w : Wave) (n : Nat) (x : Word) : (w.putS n x).pend = w.pend := rfl
@[simp] theorem Wave.putS_ops (w : Wave) (n : Nat) (x : Word) : (w.putS n x).ops = w.ops := rfl
@[simp] theorem Wave.putS_opctr (w : Wave) (n : Nat) (x : Word) : (w.putS n x).opctr = w.opctr := rfl
@[simp] theorem Wave.putS_mq (w : Wave) (n : Nat) (x : Word) : (w.putS n x).mq = w.mq := rfl
@[simp] theorem Wave.putS_eq (w : Wave) (n : Nat) (x : Word) : (w.putS n x).eq = w.eq := rfl
@[simp] theorem Wave.putS_cq (w : Wave) (n : Nat) (x : Word) : (w.putS n x).cq = w.cq := rfl
@[simp] theorem Wave.putS_hm (w : Wave) (n : Nat) (x : Word) : (w.putS n x).hm = w.hm := rfl
@[simp] theorem Wave.putS_he (w : Wave) (n : Nat) (x : Word) : (w.putS n x).he = w.he := rfl
@[simp] theorem Wave.putS_hc (w : Wave) (n : Nat) (x : Word) : (w.putS n x).hc = w.hc := rfl
@[simp] theorem Wave.putS_bara (w : Wave) (n : Nat) (x : Word) : (w.putS n x).bara = w.bara := rfl
@[simp] theorem Wave.putS_baraV (w : Wave) (n : Nat) (x : Word) : (w.putS n x).baraV = w.baraV := rfl
@[simp] theorem Wave.putS_area (w : Wave) (n : Nat) (x : Word) : (w.putS n x).area = w.area := rfl
@[simp] theorem Wave.putS_active (w : Wave) (n : Nat) (x : Word) : (w.putS n x).active = w.active := rfl
@[simp] theorem Wave.putS_age (w : Wave) (n : Nat) (x : Word) : (w.putS n x).age = w.age := rfl
@[simp] theorem Wave.putS_rdy (w : Wave) (n : Nat) (x : Word) : (w.putS n x).rdy = w.rdy := rfl
@[simp] theorem Wave.putS_due (w : Wave) (n : Nat) (x : Word) : (w.putS n x).due = w.due := rfl
@[simp] theorem Wave.putS_unwind (w : Wave) (n : Nat) (x : Word) : (w.putS n x).unwind = w.unwind := rfl
@[simp] theorem Wave.putS_restore (w : Wave) (n : Nat) (x : Word) : (w.putS n x).restore = w.restore := rfl
@[simp] theorem Wave.putS_restored (w : Wave) (n : Nat) (x : Word) : (w.putS n x).restored = w.restored := rfl
@[simp] theorem Wave.putS_rstop (w : Wave) (n : Nat) (x : Word) : (w.putS n x).rstop = w.rstop := rfl
@[simp] theorem Wave.putS_halted (w : Wave) (n : Nat) (x : Word) : (w.putS n x).halted = w.halted := rfl

@[simp] theorem Wave.putP_team (w : Wave) (n : Nat) (m : LaneMask) : (w.putP n m).team = w.team := rfl
@[simp] theorem Wave.putP_wid (w : Wave) (n : Nat) (m : LaneMask) : (w.putP n m).wid = w.wid := rfl
@[simp] theorem Wave.putP_kern (w : Wave) (n : Nat) (m : LaneMask) : (w.putP n m).kern = w.kern := rfl
@[simp] theorem Wave.putP_codesel (w : Wave) (n : Nat) (m : LaneMask) : (w.putP n m).codesel = w.codesel := rfl
@[simp] theorem Wave.putP_isel (w : Wave) (n : Nat) (m : LaneMask) : (w.putP n m).isel = w.isel := rfl
@[simp] theorem Wave.putP_vr (w : Wave) (n : Nat) (m : LaneMask) : (w.putP n m).vr = w.vr := rfl
@[simp] theorem Wave.putP_sr (w : Wave) (n : Nat) (m : LaneMask) : (w.putP n m).sr = w.sr := rfl
@[simp] theorem Wave.putP_errs (w : Wave) (n : Nat) (m : LaneMask) : (w.putP n m).errs = w.errs := rfl
@[simp] theorem Wave.putP_flags (w : Wave) (n : Nat) (m : LaneMask) : (w.putP n m).flags = w.flags := rfl
@[simp] theorem Wave.putP_guards (w : Wave) (n : Nat) (m : LaneMask) : (w.putP n m).guards = w.guards := rfl
@[simp] theorem Wave.putP_fpstat (w : Wave) (n : Nat) (m : LaneMask) : (w.putP n m).fpstat = w.fpstat := rfl
@[simp] theorem Wave.putP_rngLo (w : Wave) (n : Nat) (m : LaneMask) : (w.putP n m).rngLo = w.rngLo := rfl
@[simp] theorem Wave.putP_rngHi (w : Wave) (n : Nat) (m : LaneMask) : (w.putP n m).rngHi = w.rngHi := rfl
@[simp] theorem Wave.putP_rngStream (w : Wave) (n : Nat) (m : LaneMask) : (w.putP n m).rngStream = w.rngStream := rfl
@[simp] theorem Wave.putP_rngStep (w : Wave) (n : Nat) (m : LaneMask) : (w.putP n m).rngStep = w.rngStep := rfl
@[simp] theorem Wave.putP_trapcode (w : Wave) (n : Nat) (m : LaneMask) : (w.putP n m).trapcode = w.trapcode := rfl
@[simp] theorem Wave.putP_trapinfo (w : Wave) (n : Nat) (m : LaneMask) : (w.putP n m).trapinfo = w.trapinfo := rfl
@[simp] theorem Wave.putP_trappc (w : Wave) (n : Nat) (m : LaneMask) : (w.putP n m).trappc = w.trappc := rfl
@[simp] theorem Wave.putP_faultmask (w : Wave) (n : Nat) (m : LaneMask) : (w.putP n m).faultmask = w.faultmask := rfl
@[simp] theorem Wave.putP_faddr (w : Wave) (n : Nat) (m : LaneMask) : (w.putP n m).faddr = w.faddr := rfl
@[simp] theorem Wave.putP_intrap (w : Wave) (n : Nat) (m : LaneMask) : (w.putP n m).intrap = w.intrap := rfl
@[simp] theorem Wave.putP_clvl (w : Wave) (n : Nat) (m : LaneMask) : (w.putP n m).clvl = w.clvl := rfl
@[simp] theorem Wave.putP_plvl (w : Wave) (n : Nat) (m : LaneMask) : (w.putP n m).plvl = w.plvl := rfl
@[simp] theorem Wave.putP_nest (w : Wave) (n : Nat) (m : LaneMask) : (w.putP n m).nest = w.nest := rfl
@[simp] theorem Wave.putP_prepend (w : Wave) (n : Nat) (m : LaneMask) : (w.putP n m).prepend = w.prepend := rfl
@[simp] theorem Wave.putP_tsplit (w : Wave) (n : Nat) (m : LaneMask) : (w.putP n m).tsplit = w.tsplit := rfl
@[simp] theorem Wave.putP_swidx0 (w : Wave) (n : Nat) (m : LaneMask) : (w.putP n m).swidx0 = w.swidx0 := rfl
@[simp] theorem Wave.putP_swidx1 (w : Wave) (n : Nat) (m : LaneMask) : (w.putP n m).swidx1 = w.swidx1 := rfl
@[simp] theorem Wave.putP_emu (w : Wave) (n : Nat) (m : LaneMask) : (w.putP n m).emu = w.emu := rfl
@[simp] theorem Wave.putP_linkidx (w : Wave) (n : Nat) (m : LaneMask) : (w.putP n m).linkidx = w.linkidx := rfl
@[simp] theorem Wave.putP_linkent (w : Wave) (n : Nat) (m : LaneMask) : (w.putP n m).linkent = w.linkent := rfl
@[simp] theorem Wave.putP_linkgen (w : Wave) (n : Nat) (m : LaneMask) : (w.putP n m).linkgen = w.linkgen := rfl
@[simp] theorem Wave.putP_linksel (w : Wave) (n : Nat) (m : LaneMask) : (w.putP n m).linksel = w.linksel := rfl
@[simp] theorem Wave.putP_linkname (w : Wave) (n : Nat) (m : LaneMask) : (w.putP n m).linkname = w.linkname := rfl
@[simp] theorem Wave.putP_links (w : Wave) (n : Nat) (m : LaneMask) : (w.putP n m).links = w.links := rfl
@[simp] theorem Wave.putP_cframes (w : Wave) (n : Nat) (m : LaneMask) : (w.putP n m).cframes = w.cframes := rfl
@[simp] theorem Wave.putP_audCore (w : Wave) (n : Nat) (m : LaneMask) : (w.putP n m).audCore = w.audCore := rfl
@[simp] theorem Wave.putP_audTeam (w : Wave) (n : Nat) (m : LaneMask) : (w.putP n m).audTeam = w.audTeam := rfl
@[simp] theorem Wave.putP_audGrid (w : Wave) (n : Nat) (m : LaneMask) : (w.putP n m).audGrid = w.audGrid := rfl
@[simp] theorem Wave.putP_splits (w : Wave) (n : Nat) (m : LaneMask) : (w.putP n m).splits = w.splits := rfl
@[simp] theorem Wave.putP_handler (w : Wave) (n : Nat) (m : LaneMask) : (w.putP n m).handler = w.handler := rfl
@[simp] theorem Wave.putP_sb (w : Wave) (n : Nat) (m : LaneMask) : (w.putP n m).sb = w.sb := rfl
@[simp] theorem Wave.putP_pend (w : Wave) (n : Nat) (m : LaneMask) : (w.putP n m).pend = w.pend := rfl
@[simp] theorem Wave.putP_ops (w : Wave) (n : Nat) (m : LaneMask) : (w.putP n m).ops = w.ops := rfl
@[simp] theorem Wave.putP_opctr (w : Wave) (n : Nat) (m : LaneMask) : (w.putP n m).opctr = w.opctr := rfl
@[simp] theorem Wave.putP_mq (w : Wave) (n : Nat) (m : LaneMask) : (w.putP n m).mq = w.mq := rfl
@[simp] theorem Wave.putP_eq (w : Wave) (n : Nat) (m : LaneMask) : (w.putP n m).eq = w.eq := rfl
@[simp] theorem Wave.putP_cq (w : Wave) (n : Nat) (m : LaneMask) : (w.putP n m).cq = w.cq := rfl
@[simp] theorem Wave.putP_hm (w : Wave) (n : Nat) (m : LaneMask) : (w.putP n m).hm = w.hm := rfl
@[simp] theorem Wave.putP_he (w : Wave) (n : Nat) (m : LaneMask) : (w.putP n m).he = w.he := rfl
@[simp] theorem Wave.putP_hc (w : Wave) (n : Nat) (m : LaneMask) : (w.putP n m).hc = w.hc := rfl
@[simp] theorem Wave.putP_bara (w : Wave) (n : Nat) (m : LaneMask) : (w.putP n m).bara = w.bara := rfl
@[simp] theorem Wave.putP_baraV (w : Wave) (n : Nat) (m : LaneMask) : (w.putP n m).baraV = w.baraV := rfl
@[simp] theorem Wave.putP_area (w : Wave) (n : Nat) (m : LaneMask) : (w.putP n m).area = w.area := rfl
@[simp] theorem Wave.putP_active (w : Wave) (n : Nat) (m : LaneMask) : (w.putP n m).active = w.active := rfl
@[simp] theorem Wave.putP_age (w : Wave) (n : Nat) (m : LaneMask) : (w.putP n m).age = w.age := rfl
@[simp] theorem Wave.putP_rdy (w : Wave) (n : Nat) (m : LaneMask) : (w.putP n m).rdy = w.rdy := rfl
@[simp] theorem Wave.putP_due (w : Wave) (n : Nat) (m : LaneMask) : (w.putP n m).due = w.due := rfl
@[simp] theorem Wave.putP_unwind (w : Wave) (n : Nat) (m : LaneMask) : (w.putP n m).unwind = w.unwind := rfl
@[simp] theorem Wave.putP_restore (w : Wave) (n : Nat) (m : LaneMask) : (w.putP n m).restore = w.restore := rfl
@[simp] theorem Wave.putP_restored (w : Wave) (n : Nat) (m : LaneMask) : (w.putP n m).restored = w.restored := rfl
@[simp] theorem Wave.putP_rstop (w : Wave) (n : Nat) (m : LaneMask) : (w.putP n m).rstop = w.rstop := rfl
@[simp] theorem Wave.putP_halted (w : Wave) (n : Nat) (m : LaneMask) : (w.putP n m).halted = w.halted := rfl

@[simp] theorem Wave.putFlag_team (w : Wave) (k n : Nat) : (w.putFlag k n).team = w.team := rfl
@[simp] theorem Wave.putFlag_wid (w : Wave) (k n : Nat) : (w.putFlag k n).wid = w.wid := rfl
@[simp] theorem Wave.putFlag_kern (w : Wave) (k n : Nat) : (w.putFlag k n).kern = w.kern := rfl
@[simp] theorem Wave.putFlag_codesel (w : Wave) (k n : Nat) : (w.putFlag k n).codesel = w.codesel := rfl
@[simp] theorem Wave.putFlag_isel (w : Wave) (k n : Nat) : (w.putFlag k n).isel = w.isel := rfl
@[simp] theorem Wave.putFlag_vr (w : Wave) (k n : Nat) : (w.putFlag k n).vr = w.vr := rfl
@[simp] theorem Wave.putFlag_sr (w : Wave) (k n : Nat) : (w.putFlag k n).sr = w.sr := rfl
@[simp] theorem Wave.putFlag_pr (w : Wave) (k n : Nat) : (w.putFlag k n).pr = w.pr := rfl
@[simp] theorem Wave.putFlag_errs (w : Wave) (k n : Nat) : (w.putFlag k n).errs = w.errs := rfl
@[simp] theorem Wave.putFlag_guards (w : Wave) (k n : Nat) : (w.putFlag k n).guards = w.guards := rfl
@[simp] theorem Wave.putFlag_fpstat (w : Wave) (k n : Nat) : (w.putFlag k n).fpstat = w.fpstat := rfl
@[simp] theorem Wave.putFlag_rngLo (w : Wave) (k n : Nat) : (w.putFlag k n).rngLo = w.rngLo := rfl
@[simp] theorem Wave.putFlag_rngHi (w : Wave) (k n : Nat) : (w.putFlag k n).rngHi = w.rngHi := rfl
@[simp] theorem Wave.putFlag_rngStream (w : Wave) (k n : Nat) : (w.putFlag k n).rngStream = w.rngStream := rfl
@[simp] theorem Wave.putFlag_rngStep (w : Wave) (k n : Nat) : (w.putFlag k n).rngStep = w.rngStep := rfl
@[simp] theorem Wave.putFlag_trapcode (w : Wave) (k n : Nat) : (w.putFlag k n).trapcode = w.trapcode := rfl
@[simp] theorem Wave.putFlag_trapinfo (w : Wave) (k n : Nat) : (w.putFlag k n).trapinfo = w.trapinfo := rfl
@[simp] theorem Wave.putFlag_trappc (w : Wave) (k n : Nat) : (w.putFlag k n).trappc = w.trappc := rfl
@[simp] theorem Wave.putFlag_faultmask (w : Wave) (k n : Nat) : (w.putFlag k n).faultmask = w.faultmask := rfl
@[simp] theorem Wave.putFlag_faddr (w : Wave) (k n : Nat) : (w.putFlag k n).faddr = w.faddr := rfl
@[simp] theorem Wave.putFlag_intrap (w : Wave) (k n : Nat) : (w.putFlag k n).intrap = w.intrap := rfl
@[simp] theorem Wave.putFlag_clvl (w : Wave) (k n : Nat) : (w.putFlag k n).clvl = w.clvl := rfl
@[simp] theorem Wave.putFlag_plvl (w : Wave) (k n : Nat) : (w.putFlag k n).plvl = w.plvl := rfl
@[simp] theorem Wave.putFlag_nest (w : Wave) (k n : Nat) : (w.putFlag k n).nest = w.nest := rfl
@[simp] theorem Wave.putFlag_prepend (w : Wave) (k n : Nat) : (w.putFlag k n).prepend = w.prepend := rfl
@[simp] theorem Wave.putFlag_tsplit (w : Wave) (k n : Nat) : (w.putFlag k n).tsplit = w.tsplit := rfl
@[simp] theorem Wave.putFlag_swidx0 (w : Wave) (k n : Nat) : (w.putFlag k n).swidx0 = w.swidx0 := rfl
@[simp] theorem Wave.putFlag_swidx1 (w : Wave) (k n : Nat) : (w.putFlag k n).swidx1 = w.swidx1 := rfl
@[simp] theorem Wave.putFlag_emu (w : Wave) (k n : Nat) : (w.putFlag k n).emu = w.emu := rfl
@[simp] theorem Wave.putFlag_linkidx (w : Wave) (k n : Nat) : (w.putFlag k n).linkidx = w.linkidx := rfl
@[simp] theorem Wave.putFlag_linkent (w : Wave) (k n : Nat) : (w.putFlag k n).linkent = w.linkent := rfl
@[simp] theorem Wave.putFlag_linkgen (w : Wave) (k n : Nat) : (w.putFlag k n).linkgen = w.linkgen := rfl
@[simp] theorem Wave.putFlag_linksel (w : Wave) (k n : Nat) : (w.putFlag k n).linksel = w.linksel := rfl
@[simp] theorem Wave.putFlag_linkname (w : Wave) (k n : Nat) : (w.putFlag k n).linkname = w.linkname := rfl
@[simp] theorem Wave.putFlag_links (w : Wave) (k n : Nat) : (w.putFlag k n).links = w.links := rfl
@[simp] theorem Wave.putFlag_cframes (w : Wave) (k n : Nat) : (w.putFlag k n).cframes = w.cframes := rfl
@[simp] theorem Wave.putFlag_audCore (w : Wave) (k n : Nat) : (w.putFlag k n).audCore = w.audCore := rfl
@[simp] theorem Wave.putFlag_audTeam (w : Wave) (k n : Nat) : (w.putFlag k n).audTeam = w.audTeam := rfl
@[simp] theorem Wave.putFlag_audGrid (w : Wave) (k n : Nat) : (w.putFlag k n).audGrid = w.audGrid := rfl
@[simp] theorem Wave.putFlag_splits (w : Wave) (k n : Nat) : (w.putFlag k n).splits = w.splits := rfl
@[simp] theorem Wave.putFlag_handler (w : Wave) (k n : Nat) : (w.putFlag k n).handler = w.handler := rfl
@[simp] theorem Wave.putFlag_sb (w : Wave) (k n : Nat) : (w.putFlag k n).sb = w.sb := rfl
@[simp] theorem Wave.putFlag_pend (w : Wave) (k n : Nat) : (w.putFlag k n).pend = w.pend := rfl
@[simp] theorem Wave.putFlag_ops (w : Wave) (k n : Nat) : (w.putFlag k n).ops = w.ops := rfl
@[simp] theorem Wave.putFlag_opctr (w : Wave) (k n : Nat) : (w.putFlag k n).opctr = w.opctr := rfl
@[simp] theorem Wave.putFlag_mq (w : Wave) (k n : Nat) : (w.putFlag k n).mq = w.mq := rfl
@[simp] theorem Wave.putFlag_eq (w : Wave) (k n : Nat) : (w.putFlag k n).eq = w.eq := rfl
@[simp] theorem Wave.putFlag_cq (w : Wave) (k n : Nat) : (w.putFlag k n).cq = w.cq := rfl
@[simp] theorem Wave.putFlag_hm (w : Wave) (k n : Nat) : (w.putFlag k n).hm = w.hm := rfl
@[simp] theorem Wave.putFlag_he (w : Wave) (k n : Nat) : (w.putFlag k n).he = w.he := rfl
@[simp] theorem Wave.putFlag_hc (w : Wave) (k n : Nat) : (w.putFlag k n).hc = w.hc := rfl
@[simp] theorem Wave.putFlag_bara (w : Wave) (k n : Nat) : (w.putFlag k n).bara = w.bara := rfl
@[simp] theorem Wave.putFlag_baraV (w : Wave) (k n : Nat) : (w.putFlag k n).baraV = w.baraV := rfl
@[simp] theorem Wave.putFlag_area (w : Wave) (k n : Nat) : (w.putFlag k n).area = w.area := rfl
@[simp] theorem Wave.putFlag_active (w : Wave) (k n : Nat) : (w.putFlag k n).active = w.active := rfl
@[simp] theorem Wave.putFlag_age (w : Wave) (k n : Nat) : (w.putFlag k n).age = w.age := rfl
@[simp] theorem Wave.putFlag_rdy (w : Wave) (k n : Nat) : (w.putFlag k n).rdy = w.rdy := rfl
@[simp] theorem Wave.putFlag_due (w : Wave) (k n : Nat) : (w.putFlag k n).due = w.due := rfl
@[simp] theorem Wave.putFlag_unwind (w : Wave) (k n : Nat) : (w.putFlag k n).unwind = w.unwind := rfl
@[simp] theorem Wave.putFlag_restore (w : Wave) (k n : Nat) : (w.putFlag k n).restore = w.restore := rfl
@[simp] theorem Wave.putFlag_restored (w : Wave) (k n : Nat) : (w.putFlag k n).restored = w.restored := rfl
@[simp] theorem Wave.putFlag_rstop (w : Wave) (k n : Nat) : (w.putFlag k n).rstop = w.rstop := rfl
@[simp] theorem Wave.putFlag_halted (w : Wave) (k n : Nat) : (w.putFlag k n).halted = w.halted := rfl

@[simp] theorem Wave.orFp_team (w : Wave) (fl : Nat) : (w.orFp fl).team = w.team := rfl
@[simp] theorem Wave.orFp_wid (w : Wave) (fl : Nat) : (w.orFp fl).wid = w.wid := rfl
@[simp] theorem Wave.orFp_kern (w : Wave) (fl : Nat) : (w.orFp fl).kern = w.kern := rfl
@[simp] theorem Wave.orFp_codesel (w : Wave) (fl : Nat) : (w.orFp fl).codesel = w.codesel := rfl
@[simp] theorem Wave.orFp_isel (w : Wave) (fl : Nat) : (w.orFp fl).isel = w.isel := rfl
@[simp] theorem Wave.orFp_vr (w : Wave) (fl : Nat) : (w.orFp fl).vr = w.vr := rfl
@[simp] theorem Wave.orFp_sr (w : Wave) (fl : Nat) : (w.orFp fl).sr = w.sr := rfl
@[simp] theorem Wave.orFp_pr (w : Wave) (fl : Nat) : (w.orFp fl).pr = w.pr := rfl
@[simp] theorem Wave.orFp_errs (w : Wave) (fl : Nat) : (w.orFp fl).errs = w.errs := rfl
@[simp] theorem Wave.orFp_flags (w : Wave) (fl : Nat) : (w.orFp fl).flags = w.flags := rfl
@[simp] theorem Wave.orFp_guards (w : Wave) (fl : Nat) : (w.orFp fl).guards = w.guards := rfl
@[simp] theorem Wave.orFp_rngLo (w : Wave) (fl : Nat) : (w.orFp fl).rngLo = w.rngLo := rfl
@[simp] theorem Wave.orFp_rngHi (w : Wave) (fl : Nat) : (w.orFp fl).rngHi = w.rngHi := rfl
@[simp] theorem Wave.orFp_rngStream (w : Wave) (fl : Nat) : (w.orFp fl).rngStream = w.rngStream := rfl
@[simp] theorem Wave.orFp_rngStep (w : Wave) (fl : Nat) : (w.orFp fl).rngStep = w.rngStep := rfl
@[simp] theorem Wave.orFp_trapcode (w : Wave) (fl : Nat) : (w.orFp fl).trapcode = w.trapcode := rfl
@[simp] theorem Wave.orFp_trapinfo (w : Wave) (fl : Nat) : (w.orFp fl).trapinfo = w.trapinfo := rfl
@[simp] theorem Wave.orFp_trappc (w : Wave) (fl : Nat) : (w.orFp fl).trappc = w.trappc := rfl
@[simp] theorem Wave.orFp_faultmask (w : Wave) (fl : Nat) : (w.orFp fl).faultmask = w.faultmask := rfl
@[simp] theorem Wave.orFp_faddr (w : Wave) (fl : Nat) : (w.orFp fl).faddr = w.faddr := rfl
@[simp] theorem Wave.orFp_intrap (w : Wave) (fl : Nat) : (w.orFp fl).intrap = w.intrap := rfl
@[simp] theorem Wave.orFp_clvl (w : Wave) (fl : Nat) : (w.orFp fl).clvl = w.clvl := rfl
@[simp] theorem Wave.orFp_plvl (w : Wave) (fl : Nat) : (w.orFp fl).plvl = w.plvl := rfl
@[simp] theorem Wave.orFp_nest (w : Wave) (fl : Nat) : (w.orFp fl).nest = w.nest := rfl
@[simp] theorem Wave.orFp_prepend (w : Wave) (fl : Nat) : (w.orFp fl).prepend = w.prepend := rfl
@[simp] theorem Wave.orFp_tsplit (w : Wave) (fl : Nat) : (w.orFp fl).tsplit = w.tsplit := rfl
@[simp] theorem Wave.orFp_swidx0 (w : Wave) (fl : Nat) : (w.orFp fl).swidx0 = w.swidx0 := rfl
@[simp] theorem Wave.orFp_swidx1 (w : Wave) (fl : Nat) : (w.orFp fl).swidx1 = w.swidx1 := rfl
@[simp] theorem Wave.orFp_emu (w : Wave) (fl : Nat) : (w.orFp fl).emu = w.emu := rfl
@[simp] theorem Wave.orFp_linkidx (w : Wave) (fl : Nat) : (w.orFp fl).linkidx = w.linkidx := rfl
@[simp] theorem Wave.orFp_linkent (w : Wave) (fl : Nat) : (w.orFp fl).linkent = w.linkent := rfl
@[simp] theorem Wave.orFp_linkgen (w : Wave) (fl : Nat) : (w.orFp fl).linkgen = w.linkgen := rfl
@[simp] theorem Wave.orFp_linksel (w : Wave) (fl : Nat) : (w.orFp fl).linksel = w.linksel := rfl
@[simp] theorem Wave.orFp_linkname (w : Wave) (fl : Nat) : (w.orFp fl).linkname = w.linkname := rfl
@[simp] theorem Wave.orFp_links (w : Wave) (fl : Nat) : (w.orFp fl).links = w.links := rfl
@[simp] theorem Wave.orFp_cframes (w : Wave) (fl : Nat) : (w.orFp fl).cframes = w.cframes := rfl
@[simp] theorem Wave.orFp_audCore (w : Wave) (fl : Nat) : (w.orFp fl).audCore = w.audCore := rfl
@[simp] theorem Wave.orFp_audTeam (w : Wave) (fl : Nat) : (w.orFp fl).audTeam = w.audTeam := rfl
@[simp] theorem Wave.orFp_audGrid (w : Wave) (fl : Nat) : (w.orFp fl).audGrid = w.audGrid := rfl
@[simp] theorem Wave.orFp_splits (w : Wave) (fl : Nat) : (w.orFp fl).splits = w.splits := rfl
@[simp] theorem Wave.orFp_handler (w : Wave) (fl : Nat) : (w.orFp fl).handler = w.handler := rfl
@[simp] theorem Wave.orFp_sb (w : Wave) (fl : Nat) : (w.orFp fl).sb = w.sb := rfl
@[simp] theorem Wave.orFp_pend (w : Wave) (fl : Nat) : (w.orFp fl).pend = w.pend := rfl
@[simp] theorem Wave.orFp_ops (w : Wave) (fl : Nat) : (w.orFp fl).ops = w.ops := rfl
@[simp] theorem Wave.orFp_opctr (w : Wave) (fl : Nat) : (w.orFp fl).opctr = w.opctr := rfl
@[simp] theorem Wave.orFp_mq (w : Wave) (fl : Nat) : (w.orFp fl).mq = w.mq := rfl
@[simp] theorem Wave.orFp_eq (w : Wave) (fl : Nat) : (w.orFp fl).eq = w.eq := rfl
@[simp] theorem Wave.orFp_cq (w : Wave) (fl : Nat) : (w.orFp fl).cq = w.cq := rfl
@[simp] theorem Wave.orFp_hm (w : Wave) (fl : Nat) : (w.orFp fl).hm = w.hm := rfl
@[simp] theorem Wave.orFp_he (w : Wave) (fl : Nat) : (w.orFp fl).he = w.he := rfl
@[simp] theorem Wave.orFp_hc (w : Wave) (fl : Nat) : (w.orFp fl).hc = w.hc := rfl
@[simp] theorem Wave.orFp_bara (w : Wave) (fl : Nat) : (w.orFp fl).bara = w.bara := rfl
@[simp] theorem Wave.orFp_baraV (w : Wave) (fl : Nat) : (w.orFp fl).baraV = w.baraV := rfl
@[simp] theorem Wave.orFp_area (w : Wave) (fl : Nat) : (w.orFp fl).area = w.area := rfl
@[simp] theorem Wave.orFp_active (w : Wave) (fl : Nat) : (w.orFp fl).active = w.active := rfl
@[simp] theorem Wave.orFp_age (w : Wave) (fl : Nat) : (w.orFp fl).age = w.age := rfl
@[simp] theorem Wave.orFp_rdy (w : Wave) (fl : Nat) : (w.orFp fl).rdy = w.rdy := rfl
@[simp] theorem Wave.orFp_due (w : Wave) (fl : Nat) : (w.orFp fl).due = w.due := rfl
@[simp] theorem Wave.orFp_unwind (w : Wave) (fl : Nat) : (w.orFp fl).unwind = w.unwind := rfl
@[simp] theorem Wave.orFp_restore (w : Wave) (fl : Nat) : (w.orFp fl).restore = w.restore := rfl
@[simp] theorem Wave.orFp_restored (w : Wave) (fl : Nat) : (w.orFp fl).restored = w.restored := rfl
@[simp] theorem Wave.orFp_rstop (w : Wave) (fl : Nat) : (w.orFp fl).rstop = w.rstop := rfl
@[simp] theorem Wave.orFp_halted (w : Wave) (fl : Nat) : (w.orFp fl).halted = w.halted := rfl

@[simp] theorem Wave.wrote_team (w : Wave) (l : List Nat) : (w.wrote l).team = w.team := by unfold Wave.wrote; split <;> rfl
@[simp] theorem Wave.wrote_wid (w : Wave) (l : List Nat) : (w.wrote l).wid = w.wid := by unfold Wave.wrote; split <;> rfl
@[simp] theorem Wave.wrote_kern (w : Wave) (l : List Nat) : (w.wrote l).kern = w.kern := by unfold Wave.wrote; split <;> rfl
@[simp] theorem Wave.wrote_codesel (w : Wave) (l : List Nat) : (w.wrote l).codesel = w.codesel := by unfold Wave.wrote; split <;> rfl
@[simp] theorem Wave.wrote_isel (w : Wave) (l : List Nat) : (w.wrote l).isel = w.isel := by unfold Wave.wrote; split <;> rfl
@[simp] theorem Wave.wrote_vr (w : Wave) (l : List Nat) : (w.wrote l).vr = w.vr := by unfold Wave.wrote; split <;> rfl
@[simp] theorem Wave.wrote_sr (w : Wave) (l : List Nat) : (w.wrote l).sr = w.sr := by unfold Wave.wrote; split <;> rfl
@[simp] theorem Wave.wrote_pr (w : Wave) (l : List Nat) : (w.wrote l).pr = w.pr := by unfold Wave.wrote; split <;> rfl
@[simp] theorem Wave.wrote_flags (w : Wave) (l : List Nat) : (w.wrote l).flags = w.flags := by unfold Wave.wrote; split <;> rfl
@[simp] theorem Wave.wrote_guards (w : Wave) (l : List Nat) : (w.wrote l).guards = w.guards := by unfold Wave.wrote; split <;> rfl
@[simp] theorem Wave.wrote_fpstat (w : Wave) (l : List Nat) : (w.wrote l).fpstat = w.fpstat := by unfold Wave.wrote; split <;> rfl
@[simp] theorem Wave.wrote_rngLo (w : Wave) (l : List Nat) : (w.wrote l).rngLo = w.rngLo := by unfold Wave.wrote; split <;> rfl
@[simp] theorem Wave.wrote_rngHi (w : Wave) (l : List Nat) : (w.wrote l).rngHi = w.rngHi := by unfold Wave.wrote; split <;> rfl
@[simp] theorem Wave.wrote_rngStream (w : Wave) (l : List Nat) : (w.wrote l).rngStream = w.rngStream := by unfold Wave.wrote; split <;> rfl
@[simp] theorem Wave.wrote_rngStep (w : Wave) (l : List Nat) : (w.wrote l).rngStep = w.rngStep := by unfold Wave.wrote; split <;> rfl
@[simp] theorem Wave.wrote_trapcode (w : Wave) (l : List Nat) : (w.wrote l).trapcode = w.trapcode := by unfold Wave.wrote; split <;> rfl
@[simp] theorem Wave.wrote_trapinfo (w : Wave) (l : List Nat) : (w.wrote l).trapinfo = w.trapinfo := by unfold Wave.wrote; split <;> rfl
@[simp] theorem Wave.wrote_trappc (w : Wave) (l : List Nat) : (w.wrote l).trappc = w.trappc := by unfold Wave.wrote; split <;> rfl
@[simp] theorem Wave.wrote_faultmask (w : Wave) (l : List Nat) : (w.wrote l).faultmask = w.faultmask := by unfold Wave.wrote; split <;> rfl
@[simp] theorem Wave.wrote_faddr (w : Wave) (l : List Nat) : (w.wrote l).faddr = w.faddr := by unfold Wave.wrote; split <;> rfl
@[simp] theorem Wave.wrote_intrap (w : Wave) (l : List Nat) : (w.wrote l).intrap = w.intrap := by unfold Wave.wrote; split <;> rfl
@[simp] theorem Wave.wrote_clvl (w : Wave) (l : List Nat) : (w.wrote l).clvl = w.clvl := by unfold Wave.wrote; split <;> rfl
@[simp] theorem Wave.wrote_plvl (w : Wave) (l : List Nat) : (w.wrote l).plvl = w.plvl := by unfold Wave.wrote; split <;> rfl
@[simp] theorem Wave.wrote_nest (w : Wave) (l : List Nat) : (w.wrote l).nest = w.nest := by unfold Wave.wrote; split <;> rfl
@[simp] theorem Wave.wrote_prepend (w : Wave) (l : List Nat) : (w.wrote l).prepend = w.prepend := by unfold Wave.wrote; split <;> rfl
@[simp] theorem Wave.wrote_tsplit (w : Wave) (l : List Nat) : (w.wrote l).tsplit = w.tsplit := by unfold Wave.wrote; split <;> rfl
@[simp] theorem Wave.wrote_swidx0 (w : Wave) (l : List Nat) : (w.wrote l).swidx0 = w.swidx0 := by unfold Wave.wrote; split <;> rfl
@[simp] theorem Wave.wrote_swidx1 (w : Wave) (l : List Nat) : (w.wrote l).swidx1 = w.swidx1 := by unfold Wave.wrote; split <;> rfl
@[simp] theorem Wave.wrote_emu (w : Wave) (l : List Nat) : (w.wrote l).emu = w.emu := by unfold Wave.wrote; split <;> rfl
@[simp] theorem Wave.wrote_linkidx (w : Wave) (l : List Nat) : (w.wrote l).linkidx = w.linkidx := by unfold Wave.wrote; split <;> rfl
@[simp] theorem Wave.wrote_linkent (w : Wave) (l : List Nat) : (w.wrote l).linkent = w.linkent := by unfold Wave.wrote; split <;> rfl
@[simp] theorem Wave.wrote_linkgen (w : Wave) (l : List Nat) : (w.wrote l).linkgen = w.linkgen := by unfold Wave.wrote; split <;> rfl
@[simp] theorem Wave.wrote_linksel (w : Wave) (l : List Nat) : (w.wrote l).linksel = w.linksel := by unfold Wave.wrote; split <;> rfl
@[simp] theorem Wave.wrote_linkname (w : Wave) (l : List Nat) : (w.wrote l).linkname = w.linkname := by unfold Wave.wrote; split <;> rfl
@[simp] theorem Wave.wrote_links (w : Wave) (l : List Nat) : (w.wrote l).links = w.links := by unfold Wave.wrote; split <;> rfl
@[simp] theorem Wave.wrote_cframes (w : Wave) (l : List Nat) : (w.wrote l).cframes = w.cframes := by unfold Wave.wrote; split <;> rfl
@[simp] theorem Wave.wrote_audCore (w : Wave) (l : List Nat) : (w.wrote l).audCore = w.audCore := by unfold Wave.wrote; split <;> rfl
@[simp] theorem Wave.wrote_audTeam (w : Wave) (l : List Nat) : (w.wrote l).audTeam = w.audTeam := by unfold Wave.wrote; split <;> rfl
@[simp] theorem Wave.wrote_audGrid (w : Wave) (l : List Nat) : (w.wrote l).audGrid = w.audGrid := by unfold Wave.wrote; split <;> rfl
@[simp] theorem Wave.wrote_splits (w : Wave) (l : List Nat) : (w.wrote l).splits = w.splits := by unfold Wave.wrote; split <;> rfl
@[simp] theorem Wave.wrote_handler (w : Wave) (l : List Nat) : (w.wrote l).handler = w.handler := by unfold Wave.wrote; split <;> rfl
@[simp] theorem Wave.wrote_sb (w : Wave) (l : List Nat) : (w.wrote l).sb = w.sb := by unfold Wave.wrote; split <;> rfl
@[simp] theorem Wave.wrote_pend (w : Wave) (l : List Nat) : (w.wrote l).pend = w.pend := by unfold Wave.wrote; split <;> rfl
@[simp] theorem Wave.wrote_ops (w : Wave) (l : List Nat) : (w.wrote l).ops = w.ops := by unfold Wave.wrote; split <;> rfl
@[simp] theorem Wave.wrote_opctr (w : Wave) (l : List Nat) : (w.wrote l).opctr = w.opctr := by unfold Wave.wrote; split <;> rfl
@[simp] theorem Wave.wrote_mq (w : Wave) (l : List Nat) : (w.wrote l).mq = w.mq := by unfold Wave.wrote; split <;> rfl
@[simp] theorem Wave.wrote_eq (w : Wave) (l : List Nat) : (w.wrote l).eq = w.eq := by unfold Wave.wrote; split <;> rfl
@[simp] theorem Wave.wrote_cq (w : Wave) (l : List Nat) : (w.wrote l).cq = w.cq := by unfold Wave.wrote; split <;> rfl
@[simp] theorem Wave.wrote_hm (w : Wave) (l : List Nat) : (w.wrote l).hm = w.hm := by unfold Wave.wrote; split <;> rfl
@[simp] theorem Wave.wrote_he (w : Wave) (l : List Nat) : (w.wrote l).he = w.he := by unfold Wave.wrote; split <;> rfl
@[simp] theorem Wave.wrote_hc (w : Wave) (l : List Nat) : (w.wrote l).hc = w.hc := by unfold Wave.wrote; split <;> rfl
@[simp] theorem Wave.wrote_bara (w : Wave) (l : List Nat) : (w.wrote l).bara = w.bara := by unfold Wave.wrote; split <;> rfl
@[simp] theorem Wave.wrote_baraV (w : Wave) (l : List Nat) : (w.wrote l).baraV = w.baraV := by unfold Wave.wrote; split <;> rfl
@[simp] theorem Wave.wrote_area (w : Wave) (l : List Nat) : (w.wrote l).area = w.area := by unfold Wave.wrote; split <;> rfl
@[simp] theorem Wave.wrote_active (w : Wave) (l : List Nat) : (w.wrote l).active = w.active := by unfold Wave.wrote; split <;> rfl
@[simp] theorem Wave.wrote_age (w : Wave) (l : List Nat) : (w.wrote l).age = w.age := by unfold Wave.wrote; split <;> rfl
@[simp] theorem Wave.wrote_rdy (w : Wave) (l : List Nat) : (w.wrote l).rdy = w.rdy := by unfold Wave.wrote; split <;> rfl
@[simp] theorem Wave.wrote_due (w : Wave) (l : List Nat) : (w.wrote l).due = w.due := by unfold Wave.wrote; split <;> rfl
@[simp] theorem Wave.wrote_unwind (w : Wave) (l : List Nat) : (w.wrote l).unwind = w.unwind := by unfold Wave.wrote; split <;> rfl
@[simp] theorem Wave.wrote_restore (w : Wave) (l : List Nat) : (w.wrote l).restore = w.restore := by unfold Wave.wrote; split <;> rfl
@[simp] theorem Wave.wrote_restored (w : Wave) (l : List Nat) : (w.wrote l).restored = w.restored := by unfold Wave.wrote; split <;> rfl
@[simp] theorem Wave.wrote_rstop (w : Wave) (l : List Nat) : (w.wrote l).rstop = w.rstop := by unfold Wave.wrote; split <;> rfl
@[simp] theorem Wave.wrote_halted (w : Wave) (l : List Nat) : (w.wrote l).halted = w.halted := by unfold Wave.wrote; split <;> rfl

@[simp] theorem Wave.putSplit_team (w : Wave) (e : Nat) (x : Split) : (w.putSplit e x).team = w.team := by unfold Wave.putSplit; split <;> rfl
@[simp] theorem Wave.putSplit_wid (w : Wave) (e : Nat) (x : Split) : (w.putSplit e x).wid = w.wid := by unfold Wave.putSplit; split <;> rfl
@[simp] theorem Wave.putSplit_kern (w : Wave) (e : Nat) (x : Split) : (w.putSplit e x).kern = w.kern := by unfold Wave.putSplit; split <;> rfl
@[simp] theorem Wave.putSplit_codesel (w : Wave) (e : Nat) (x : Split) : (w.putSplit e x).codesel = w.codesel := by unfold Wave.putSplit; split <;> rfl
@[simp] theorem Wave.putSplit_isel (w : Wave) (e : Nat) (x : Split) : (w.putSplit e x).isel = w.isel := by unfold Wave.putSplit; split <;> rfl
@[simp] theorem Wave.putSplit_vr (w : Wave) (e : Nat) (x : Split) : (w.putSplit e x).vr = w.vr := by unfold Wave.putSplit; split <;> rfl
@[simp] theorem Wave.putSplit_sr (w : Wave) (e : Nat) (x : Split) : (w.putSplit e x).sr = w.sr := by unfold Wave.putSplit; split <;> rfl
@[simp] theorem Wave.putSplit_pr (w : Wave) (e : Nat) (x : Split) : (w.putSplit e x).pr = w.pr := by unfold Wave.putSplit; split <;> rfl
@[simp] theorem Wave.putSplit_errs (w : Wave) (e : Nat) (x : Split) : (w.putSplit e x).errs = w.errs := by unfold Wave.putSplit; split <;> rfl
@[simp] theorem Wave.putSplit_flags (w : Wave) (e : Nat) (x : Split) : (w.putSplit e x).flags = w.flags := by unfold Wave.putSplit; split <;> rfl
@[simp] theorem Wave.putSplit_guards (w : Wave) (e : Nat) (x : Split) : (w.putSplit e x).guards = w.guards := by unfold Wave.putSplit; split <;> rfl
@[simp] theorem Wave.putSplit_fpstat (w : Wave) (e : Nat) (x : Split) : (w.putSplit e x).fpstat = w.fpstat := by unfold Wave.putSplit; split <;> rfl
@[simp] theorem Wave.putSplit_rngLo (w : Wave) (e : Nat) (x : Split) : (w.putSplit e x).rngLo = w.rngLo := by unfold Wave.putSplit; split <;> rfl
@[simp] theorem Wave.putSplit_rngHi (w : Wave) (e : Nat) (x : Split) : (w.putSplit e x).rngHi = w.rngHi := by unfold Wave.putSplit; split <;> rfl
@[simp] theorem Wave.putSplit_rngStream (w : Wave) (e : Nat) (x : Split) : (w.putSplit e x).rngStream = w.rngStream := by unfold Wave.putSplit; split <;> rfl
@[simp] theorem Wave.putSplit_rngStep (w : Wave) (e : Nat) (x : Split) : (w.putSplit e x).rngStep = w.rngStep := by unfold Wave.putSplit; split <;> rfl
@[simp] theorem Wave.putSplit_trapcode (w : Wave) (e : Nat) (x : Split) : (w.putSplit e x).trapcode = w.trapcode := by unfold Wave.putSplit; split <;> rfl
@[simp] theorem Wave.putSplit_trapinfo (w : Wave) (e : Nat) (x : Split) : (w.putSplit e x).trapinfo = w.trapinfo := by unfold Wave.putSplit; split <;> rfl
@[simp] theorem Wave.putSplit_trappc (w : Wave) (e : Nat) (x : Split) : (w.putSplit e x).trappc = w.trappc := by unfold Wave.putSplit; split <;> rfl
@[simp] theorem Wave.putSplit_faultmask (w : Wave) (e : Nat) (x : Split) : (w.putSplit e x).faultmask = w.faultmask := by unfold Wave.putSplit; split <;> rfl
@[simp] theorem Wave.putSplit_faddr (w : Wave) (e : Nat) (x : Split) : (w.putSplit e x).faddr = w.faddr := by unfold Wave.putSplit; split <;> rfl
@[simp] theorem Wave.putSplit_intrap (w : Wave) (e : Nat) (x : Split) : (w.putSplit e x).intrap = w.intrap := by unfold Wave.putSplit; split <;> rfl
@[simp] theorem Wave.putSplit_clvl (w : Wave) (e : Nat) (x : Split) : (w.putSplit e x).clvl = w.clvl := by unfold Wave.putSplit; split <;> rfl
@[simp] theorem Wave.putSplit_plvl (w : Wave) (e : Nat) (x : Split) : (w.putSplit e x).plvl = w.plvl := by unfold Wave.putSplit; split <;> rfl
@[simp] theorem Wave.putSplit_nest (w : Wave) (e : Nat) (x : Split) : (w.putSplit e x).nest = w.nest := by unfold Wave.putSplit; split <;> rfl
@[simp] theorem Wave.putSplit_prepend (w : Wave) (e : Nat) (x : Split) : (w.putSplit e x).prepend = w.prepend := by unfold Wave.putSplit; split <;> rfl
@[simp] theorem Wave.putSplit_tsplit (w : Wave) (e : Nat) (x : Split) : (w.putSplit e x).tsplit = w.tsplit := by unfold Wave.putSplit; split <;> rfl
@[simp] theorem Wave.putSplit_swidx0 (w : Wave) (e : Nat) (x : Split) : (w.putSplit e x).swidx0 = w.swidx0 := by unfold Wave.putSplit; split <;> rfl
@[simp] theorem Wave.putSplit_swidx1 (w : Wave) (e : Nat) (x : Split) : (w.putSplit e x).swidx1 = w.swidx1 := by unfold Wave.putSplit; split <;> rfl
@[simp] theorem Wave.putSplit_emu (w : Wave) (e : Nat) (x : Split) : (w.putSplit e x).emu = w.emu := by unfold Wave.putSplit; split <;> rfl
@[simp] theorem Wave.putSplit_linkidx (w : Wave) (e : Nat) (x : Split) : (w.putSplit e x).linkidx = w.linkidx := by unfold Wave.putSplit; split <;> rfl
@[simp] theorem Wave.putSplit_linkent (w : Wave) (e : Nat) (x : Split) : (w.putSplit e x).linkent = w.linkent := by unfold Wave.putSplit; split <;> rfl
@[simp] theorem Wave.putSplit_linkgen (w : Wave) (e : Nat) (x : Split) : (w.putSplit e x).linkgen = w.linkgen := by unfold Wave.putSplit; split <;> rfl
@[simp] theorem Wave.putSplit_linksel (w : Wave) (e : Nat) (x : Split) : (w.putSplit e x).linksel = w.linksel := by unfold Wave.putSplit; split <;> rfl
@[simp] theorem Wave.putSplit_linkname (w : Wave) (e : Nat) (x : Split) : (w.putSplit e x).linkname = w.linkname := by unfold Wave.putSplit; split <;> rfl
@[simp] theorem Wave.putSplit_links (w : Wave) (e : Nat) (x : Split) : (w.putSplit e x).links = w.links := by unfold Wave.putSplit; split <;> rfl
@[simp] theorem Wave.putSplit_cframes (w : Wave) (e : Nat) (x : Split) : (w.putSplit e x).cframes = w.cframes := by unfold Wave.putSplit; split <;> rfl
@[simp] theorem Wave.putSplit_audCore (w : Wave) (e : Nat) (x : Split) : (w.putSplit e x).audCore = w.audCore := by unfold Wave.putSplit; split <;> rfl
@[simp] theorem Wave.putSplit_audTeam (w : Wave) (e : Nat) (x : Split) : (w.putSplit e x).audTeam = w.audTeam := by unfold Wave.putSplit; split <;> rfl
@[simp] theorem Wave.putSplit_audGrid (w : Wave) (e : Nat) (x : Split) : (w.putSplit e x).audGrid = w.audGrid := by unfold Wave.putSplit; split <;> rfl
@[simp] theorem Wave.putSplit_sb (w : Wave) (e : Nat) (x : Split) : (w.putSplit e x).sb = w.sb := by unfold Wave.putSplit; split <;> rfl
@[simp] theorem Wave.putSplit_pend (w : Wave) (e : Nat) (x : Split) : (w.putSplit e x).pend = w.pend := by unfold Wave.putSplit; split <;> rfl
@[simp] theorem Wave.putSplit_ops (w : Wave) (e : Nat) (x : Split) : (w.putSplit e x).ops = w.ops := by unfold Wave.putSplit; split <;> rfl
@[simp] theorem Wave.putSplit_opctr (w : Wave) (e : Nat) (x : Split) : (w.putSplit e x).opctr = w.opctr := by unfold Wave.putSplit; split <;> rfl
@[simp] theorem Wave.putSplit_mq (w : Wave) (e : Nat) (x : Split) : (w.putSplit e x).mq = w.mq := by unfold Wave.putSplit; split <;> rfl
@[simp] theorem Wave.putSplit_eq (w : Wave) (e : Nat) (x : Split) : (w.putSplit e x).eq = w.eq := by unfold Wave.putSplit; split <;> rfl
@[simp] theorem Wave.putSplit_cq (w : Wave) (e : Nat) (x : Split) : (w.putSplit e x).cq = w.cq := by unfold Wave.putSplit; split <;> rfl
@[simp] theorem Wave.putSplit_hm (w : Wave) (e : Nat) (x : Split) : (w.putSplit e x).hm = w.hm := by unfold Wave.putSplit; split <;> rfl
@[simp] theorem Wave.putSplit_he (w : Wave) (e : Nat) (x : Split) : (w.putSplit e x).he = w.he := by unfold Wave.putSplit; split <;> rfl
@[simp] theorem Wave.putSplit_hc (w : Wave) (e : Nat) (x : Split) : (w.putSplit e x).hc = w.hc := by unfold Wave.putSplit; split <;> rfl
@[simp] theorem Wave.putSplit_bara (w : Wave) (e : Nat) (x : Split) : (w.putSplit e x).bara = w.bara := by unfold Wave.putSplit; split <;> rfl
@[simp] theorem Wave.putSplit_baraV (w : Wave) (e : Nat) (x : Split) : (w.putSplit e x).baraV = w.baraV := by unfold Wave.putSplit; split <;> rfl
@[simp] theorem Wave.putSplit_area (w : Wave) (e : Nat) (x : Split) : (w.putSplit e x).area = w.area := by unfold Wave.putSplit; split <;> rfl
@[simp] theorem Wave.putSplit_active (w : Wave) (e : Nat) (x : Split) : (w.putSplit e x).active = w.active := by unfold Wave.putSplit; split <;> rfl
@[simp] theorem Wave.putSplit_age (w : Wave) (e : Nat) (x : Split) : (w.putSplit e x).age = w.age := by unfold Wave.putSplit; split <;> rfl
@[simp] theorem Wave.putSplit_rdy (w : Wave) (e : Nat) (x : Split) : (w.putSplit e x).rdy = w.rdy := by unfold Wave.putSplit; split <;> rfl
@[simp] theorem Wave.putSplit_due (w : Wave) (e : Nat) (x : Split) : (w.putSplit e x).due = w.due := by unfold Wave.putSplit; split <;> rfl
@[simp] theorem Wave.putSplit_unwind (w : Wave) (e : Nat) (x : Split) : (w.putSplit e x).unwind = w.unwind := by unfold Wave.putSplit; split <;> rfl
@[simp] theorem Wave.putSplit_restore (w : Wave) (e : Nat) (x : Split) : (w.putSplit e x).restore = w.restore := by unfold Wave.putSplit; split <;> rfl
@[simp] theorem Wave.putSplit_restored (w : Wave) (e : Nat) (x : Split) : (w.putSplit e x).restored = w.restored := by unfold Wave.putSplit; split <;> rfl
@[simp] theorem Wave.putSplit_rstop (w : Wave) (e : Nat) (x : Split) : (w.putSplit e x).rstop = w.rstop := by unfold Wave.putSplit; split <;> rfl
@[simp] theorem Wave.putSplit_halted (w : Wave) (e : Nat) (x : Split) : (w.putSplit e x).halted = w.halted := by unfold Wave.putSplit; split <;> rfl

end Sys2Proof.Machine
end

