-- ==== Sys2Proof/Laws/Regs.lean ====
section
/-! SUPPORT. What registers, flags and splits read after each write, and what running an instruction of a split answers. -/

namespace Sys2Proof.Machine

/-! ### A read of one kind after a write of another -/

@[simp] theorem Wave.s_putV (w : Wave) (i : Nat) (f : Nat → Word) (n : Nat) : (w.putV i f).s n = w.s n := rfl
@[simp] theorem Wave.p_putV (w : Wave) (i : Nat) (f : Nat → Word) (n : Nat) : (w.putV i f).p n = w.p n := rfl
@[simp] theorem Wave.flag_putV (w : Wave) (i : Nat) (f : Nat → Word) (k : Nat) : (w.putV i f).flag k = w.flag k := rfl
@[simp] theorem Wave.split_putV (w : Wave) (i : Nat) (f : Nat → Word) (e : Nat) : (w.putV i f).split e = w.split e := rfl
@[simp] theorem Wave.v_putS (w : Wave) (i : Nat) (x : Word) (n l : Nat) : (w.putS i x).v n l = w.v n l := rfl
@[simp] theorem Wave.p_putS (w : Wave) (i : Nat) (x : Word) (n : Nat) : (w.putS i x).p n = w.p n := rfl
@[simp] theorem Wave.flag_putS (w : Wave) (i : Nat) (x : Word) (k : Nat) : (w.putS i x).flag k = w.flag k := rfl
@[simp] theorem Wave.split_putS (w : Wave) (i : Nat) (x : Word) (e : Nat) : (w.putS i x).split e = w.split e := rfl
@[simp] theorem Wave.v_putP (w : Wave) (i : Nat) (m : LaneMask) (n l : Nat) : (w.putP i m).v n l = w.v n l := rfl
@[simp] theorem Wave.s_putP (w : Wave) (i : Nat) (m : LaneMask) (n : Nat) : (w.putP i m).s n = w.s n := rfl
@[simp] theorem Wave.flag_putP (w : Wave) (i : Nat) (m : LaneMask) (k : Nat) : (w.putP i m).flag k = w.flag k := rfl
@[simp] theorem Wave.split_putP (w : Wave) (i : Nat) (m : LaneMask) (e : Nat) : (w.putP i m).split e = w.split e := rfl
@[simp] theorem Wave.v_putFlag (w : Wave) (i j : Nat) (n l : Nat) : (w.putFlag i j).v n l = w.v n l := rfl
@[simp] theorem Wave.s_putFlag (w : Wave) (i j : Nat) (n : Nat) : (w.putFlag i j).s n = w.s n := rfl
@[simp] theorem Wave.p_putFlag (w : Wave) (i j : Nat) (n : Nat) : (w.putFlag i j).p n = w.p n := rfl
@[simp] theorem Wave.split_putFlag (w : Wave) (i j : Nat) (e : Nat) : (w.putFlag i j).split e = w.split e := rfl
@[simp] theorem Wave.v_orFp (w : Wave) (fl : Nat) (n l : Nat) : (w.orFp fl).v n l = w.v n l := rfl
@[simp] theorem Wave.s_orFp (w : Wave) (fl : Nat) (n : Nat) : (w.orFp fl).s n = w.s n := rfl
@[simp] theorem Wave.p_orFp (w : Wave) (fl : Nat) (n : Nat) : (w.orFp fl).p n = w.p n := rfl
@[simp] theorem Wave.flag_orFp (w : Wave) (fl : Nat) (k : Nat) : (w.orFp fl).flag k = w.flag k := rfl
@[simp] theorem Wave.split_orFp (w : Wave) (fl : Nat) (e : Nat) : (w.orFp fl).split e = w.split e := rfl
@[simp] theorem Wave.v_wrote (w : Wave) (r : List Nat) (n l : Nat) : (w.wrote r).v n l = w.v n l := by unfold Wave.wrote; split <;> rfl
@[simp] theorem Wave.s_wrote (w : Wave) (r : List Nat) (n : Nat) : (w.wrote r).s n = w.s n := by unfold Wave.wrote; split <;> rfl
@[simp] theorem Wave.p_wrote (w : Wave) (r : List Nat) (n : Nat) : (w.wrote r).p n = w.p n := by unfold Wave.wrote; split <;> rfl
@[simp] theorem Wave.flag_wrote (w : Wave) (r : List Nat) (k : Nat) : (w.wrote r).flag k = w.flag k := by unfold Wave.wrote; split <;> rfl
@[simp] theorem Wave.split_wrote (w : Wave) (r : List Nat) (e : Nat) : (w.wrote r).split e = w.split e := by unfold Wave.wrote; split <;> rfl
@[simp] theorem Wave.v_putSplit (w : Wave) (i : Nat) (x : Split) (n l : Nat) : (w.putSplit i x).v n l = w.v n l := by unfold Wave.putSplit; split <;> rfl
@[simp] theorem Wave.s_putSplit (w : Wave) (i : Nat) (x : Split) (n : Nat) : (w.putSplit i x).s n = w.s n := by unfold Wave.putSplit; split <;> rfl
@[simp] theorem Wave.p_putSplit (w : Wave) (i : Nat) (x : Split) (n : Nat) : (w.putSplit i x).p n = w.p n := by unfold Wave.putSplit; split <;> rfl
@[simp] theorem Wave.flag_putSplit (w : Wave) (i : Nat) (x : Split) (k : Nat) : (w.putSplit i x).flag k = w.flag k := by unfold Wave.putSplit; split <;> rfl

/-! ### A read after a write of the same kind -/

theorem getD_map_allLanes (f : Nat → Word) {l : Nat} (h : l < 32) : (allLanes.map f).getD l 0 = f l := by
  simp [allLanes, List.getD_eq_getElem?_getD, h]

theorem Wave.v_putV_lane (w : Wave) (n i : Nat) (f : Nat → Word) {l : Nat} (h : l < 32) :
    (w.putV n f).v i l = if i = n then f l else w.v i l := by
  simp only [Wave.v, Wave.putV, tget_tset]
  split
  · exact getD_map_allLanes f h
  · rfl

theorem Wave.v_putVm_lane (w : Wave) (n i : Nat) (m : LaneMask) (f : Nat → Word) {l : Nat} (h : l < 32) :
    (w.putVm n m f).v i l = if i = n ∧ laneOf m l = true then f l else w.v i l := by
  simp only [Wave.putVm, Wave.v_putV_lane w n i _ h]
  split <;> split <;> simp_all

theorem Wave.s_putS (w : Wave) (n i : Nat) (x : Word) : (w.putS n x).s i = if i = n then x else w.s i := by
  simp only [Wave.s, Wave.putS, tget_tset]

theorem Wave.p_putP (w : Wave) (n i : Nat) (m : LaneMask) (hn : n ≠ 15) : (w.putP n m).p i = if i = n then m else w.p i := by
  simp only [Wave.p, Wave.putP, tget_tset]
  split <;> split <;> simp_all

theorem Wave.flag_putFlag (w : Wave) (k i n : Nat) : (w.putFlag k n).flag i = if i = k then n else w.flag i := by
  simp only [Wave.flag, Wave.putFlag, tget_tset]

@[simp] theorem Wave.split_putSplit (w : Wave) (e : Nat) (x : Split) : (w.putSplit e x).split e = x := by
  unfold Wave.split Wave.putSplit; split <;> simp

theorem Wave.split_putSplit_ne (w : Wave) (e i : Nat) (x : Split) (h : i ≠ e) : (w.putSplit e x).split i = w.split i := by
  unfold Wave.split Wave.putSplit
  by_cases h8 : e = 8
  · subst h8; simp [h]
  · by_cases hi : i = 8
    · simp [h8, hi]
    · simp [h8, hi, tget_tset, h]

/-- A masked write of a destination, read back at a V register. -/
theorem Wave.v_putD (w : Wave) (m : LaneMask) (d : Dst) (f : Nat → Word) (i : Nat) {l : Nat} (h : l < 32) :
    (w.putD m d f).v i l = match d with
      | .v n => if i = n ∧ laneOf m l = true then f l else w.v i l
      | _ => w.v i l := by
  cases d with
  | v n => simp [Wave.putD, Wave.v_putVm_lane _ _ _ _ _ h]
  | s n => simp [Wave.putD]
  | zero => rfl

/-- A write of a destination, read back at an S register: the value of lane 0. -/
theorem Wave.s_putD (w : Wave) (m : LaneMask) (d : Dst) (f : Nat → Word) (i : Nat) :
    (w.putD m d f).s i = match d with
      | .s n => if i = n then f 0 else w.s i
      | _ => w.s i := by
  cases d <;> simp [Wave.putD, Wave.s_putS, Wave.putVm]

@[simp] theorem Wave.p_putD (w : Wave) (m : LaneMask) (d : Dst) (f : Nat → Word) (i : Nat) : (w.putD m d f).p i = w.p i := by
  cases d <;> simp [Wave.putD, Wave.putVm]

theorem Wave.laneOf_putPd (w : Wave) (n i : Nat) (m : LaneMask) (f : Nat → Bool) (hn : n ≠ 15) {l : Nat} (h : l < 32) :
    laneOf ((w.putPd n m f).p i) l = if i = n ∧ laneOf m l = true then f l else laneOf (w.p i) l := by
  simp only [Wave.putPd, Wave.putPm, Wave.p_wrote, Wave.p_putP _ _ _ _ hn]
  split
  · rw [laneOf_maskWhere _ h]; split <;> simp_all
  · simp_all

/-! ### Running an instruction of a split -/

theorem State.run_some {s : State} {c : Cur} {w : Wave} (h : s.here = some (c, w)) (f : Cur → Wave → State) :
    s.run f = .next (f c w) := by simp [State.run, h]

theorem State.run_next {s t : State} {f : Cur → Wave → State} (h : s.run f = .next t) :
    ∃ c w, s.here = some (c, w) ∧ t = f c w := by
  unfold State.run at h
  split at h
  · cases h
  · rename_i c w e; cases h; exact ⟨c, w, e, rfl⟩

@[simp] theorem State.wave?_done (s : State) (c : Cur) (w : Wave) : (s.done c w).wave? c.wave = some (w.advance c) := by
  simp [State.done]

theorem State.wave?_done_ne (s : State) (c : Cur) (w : Wave) (j : Nat) (h : j ≠ c.wave) : (s.done c w).wave? j = s.wave? j := by
  simp [State.done, State.wave?_putWave_ne _ _ _ _ h]

/-- No register word is marked, so nothing read is poisoned. -/
theorem Wave.poisoned_sound (w : Wave) (h : w.errs = []) (srcs : List (Src × Nat)) (preds : List Nat) (m : LaneMask) :
    w.poisoned srcs preds m = none := by simp [Wave.poisoned, h]

/-- Everything a register-only instruction can do: it runs for the executing split, and either raises the POISON of a register it
reads or writes its destination and moves on. -/
theorem State.runLane_next {s t : State} {pred : Nat} {neg : Bool} {d : Dst} {wide : Bool} {srcs : List (Src × Nat)}
    {val : Wave → Split → Nat → Nat × Nat} (h : s.runLane pred neg d wide srcs val = .next t) :
    ∃ c w, s.here = some (c, w) ∧
      ((∃ cause mask, (c.reads w).poisoned srcs (predRegs pred) ((c.reads w).actLanes ((c.reads w).split c.entry) pred neg) = some (cause, mask) ∧
          t = s.fault c w fPOISON cause mask []) ∨
        t = s.done c ((w.putW wide ((c.reads w).actLanes ((c.reads w).split c.entry) pred neg) d
              fun l => (val (c.reads w) ((c.reads w).split c.entry) l).1).orFp
            (unionFlags (if d.uni then [0] else lanesOf ((c.reads w).actLanes ((c.reads w).split c.entry) pred neg))
              fun l => (val (c.reads w) ((c.reads w).split c.entry) l).2))) := by
  obtain ⟨c, w, e, rfl⟩ := State.run_next h
  refine ⟨c, w, e, ?_⟩
  dsimp only
  split
  · rename_i cause mask hp; exact .inl ⟨cause, mask, hp, rfl⟩
  · exact .inr rfl

/-- With sound registers a register-only instruction writes its destination and moves on. -/
theorem State.runLane_sound {s : State} {c : Cur} {w : Wave} (h : s.here = some (c, w)) (he : (c.reads w).errs = [])
    (pred : Nat) (neg : Bool) (d : Dst) (wide : Bool) (srcs : List (Src × Nat)) (val : Wave → Split → Nat → Nat × Nat) :
    s.runLane pred neg d wide srcs val =
      .next (s.done c ((w.putW wide ((c.reads w).actLanes ((c.reads w).split c.entry) pred neg) d
              fun l => (val (c.reads w) ((c.reads w).split c.entry) l).1).orFp
            (unionFlags (if d.uni then [0] else lanesOf ((c.reads w).actLanes ((c.reads w).split c.entry) pred neg))
              fun l => (val (c.reads w) ((c.reads w).split c.entry) l).2))) := by
  simp only [State.runLane, State.run_some h, Wave.poisoned_sound _ he]

/-- With sound registers an instruction that writes a predicate writes it and moves on. -/
theorem State.runPred_sound {s : State} {c : Cur} {w : Wave} (h : s.here = some (c, w)) (he : (c.reads w).errs = [])
    (pred : Nat) (neg : Bool) (d : Nat) (srcs : List (Src × Nat)) (preds : List Nat) (val : Wave → Split → LaneMask → Nat → Bool × Nat) :
    s.runPred pred neg d srcs preds val =
      .next (s.done c ((w.putPd d ((c.reads w).actLanes ((c.reads w).split c.entry) pred neg)
              fun l => (val (c.reads w) ((c.reads w).split c.entry) ((c.reads w).actLanes ((c.reads w).split c.entry) pred neg) l).1).orFp
            (unionFlags (lanesOf ((c.reads w).actLanes ((c.reads w).split c.entry) pred neg))
              fun l => (val (c.reads w) ((c.reads w).split c.entry) ((c.reads w).actLanes ((c.reads w).split c.entry) pred neg) l).2))) := by
  simp only [State.runPred, State.run_some h, Wave.poisoned_sound _ he]

end Sys2Proof.Machine
end

