-- ==== Sys2Proof/Laws/Frames.lean ====
section
/-! SUPPORT. What a write of a destination, of a predicate and of FPSTAT leaves alone, and what it leaves in the destination. -/

namespace Sys2Proof.Machine

/-! ### Waves that differ in registers only -/

theorem Wave.onlyRegs_refl (w : Wave) : w.onlyRegs w := ⟨rfl, fun _ h => h⟩

theorem Wave.onlyRegs_trans {a b c : Wave} (h1 : a.onlyRegs b) (h2 : b.onlyRegs c) : a.onlyRegs c := by
  refine ⟨?_, fun e he => h1.2 e (h2.2 e he)⟩
  rw [h2.1]
  conv => lhs; rw [h1.1]

theorem Wave.onlyRegs_putV (w : Wave) (n : Nat) (f : Nat → Word) : w.onlyRegs (w.putV n f) := ⟨rfl, fun _ h => h⟩
theorem Wave.onlyRegs_putVm (w : Wave) (n : Nat) (m : LaneMask) (f : Nat → Word) : w.onlyRegs (w.putVm n m f) := ⟨rfl, fun _ h => h⟩
theorem Wave.onlyRegs_putS (w : Wave) (n : Nat) (x : Word) : w.onlyRegs (w.putS n x) := ⟨rfl, fun _ h => h⟩
theorem Wave.onlyRegs_putP (w : Wave) (n : Nat) (m : LaneMask) : w.onlyRegs (w.putP n m) := ⟨rfl, fun _ h => h⟩
theorem Wave.onlyRegs_orFp (w : Wave) (fl : Nat) : w.onlyRegs (w.orFp fl) := ⟨rfl, fun _ h => h⟩
theorem Wave.onlyRegs_wrote (w : Wave) (r : List Nat) : w.onlyRegs (w.wrote r) := by
  unfold Wave.wrote
  split
  · exact Wave.onlyRegs_refl w
  · exact ⟨rfl, fun e he => (List.mem_filter.1 he).1⟩

theorem Wave.onlyRegs_putD (w : Wave) (m : LaneMask) (d : Dst) (f : Nat → Word) : w.onlyRegs (w.putD m d f) := by
  cases d with
  | v n => exact Wave.onlyRegs_trans (Wave.onlyRegs_putVm w n m f) (Wave.onlyRegs_wrote _ _)
  | s n => exact Wave.onlyRegs_trans (Wave.onlyRegs_putS w n (f 0)) (Wave.onlyRegs_wrote _ _)
  | zero => exact Wave.onlyRegs_refl w

theorem Wave.onlyRegs_putD64 (w : Wave) (m : LaneMask) (d : Dst) (f : Nat → DWord) : w.onlyRegs (w.putD64 m d f) :=
  Wave.onlyRegs_trans (Wave.onlyRegs_putD _ _ _ _) (Wave.onlyRegs_putD _ _ _ _)

theorem Wave.onlyRegs_putW (w : Wave) (wide : Bool) (m : LaneMask) (d : Dst) (f : Nat → Nat) : w.onlyRegs (w.putW wide m d f) := by
  unfold Wave.putW; split
  · exact Wave.onlyRegs_putD64 _ _ _ _
  · exact Wave.onlyRegs_putD _ _ _ _

theorem Wave.onlyRegs_putPd (w : Wave) (n : Nat) (m : LaneMask) (f : Nat → Bool) : w.onlyRegs (w.putPd n m f) :=
  Wave.onlyRegs_trans (Wave.onlyRegs_putP _ _ _) (Wave.onlyRegs_wrote _ _)

/-! ### Registers outside the destination -/

theorem Wave.sameBut_refl (w : Wave) (d : Dst) (cnt : Nat) (m : LaneMask) : w.sameBut w d cnt m := ⟨fun _ _ _ _ => rfl, fun _ _ => rfl⟩

theorem Wave.sameBut_trans {a b c : Wave} {d : Dst} {cnt : Nat} {m : LaneMask} (h1 : a.sameBut b d cnt m) (h2 : b.sameBut c d cnt m) :
    a.sameBut c d cnt m :=
  ⟨fun n l h x => (h2.1 n l h x).trans (h1.1 n l h x), fun n x => (h2.2 n x).trans (h1.2 n x)⟩

theorem Wave.sameBut_orFp (w : Wave) (fl : Nat) (d : Dst) (cnt : Nat) (m : LaneMask) : w.sameBut (w.orFp fl) d cnt m :=
  ⟨fun _ _ _ _ => rfl, fun _ _ => rfl⟩

/-- A write of register `i` of a run stays within the run. -/
theorem Wave.sameBut_putD_plus (w : Wave) (m : LaneMask) (d : Dst) (cnt i : Nat) (hi : i < cnt) (f : Nat → Word) :
    w.sameBut (w.putD m (d.plus i) f) d cnt m := by
  constructor
  · intro n l hl h
    rw [Wave.v_putD _ _ _ _ _ hl]
    cases d with
    | v k =>
      simp only [Dst.plus]
      split
      · rename_i hx
        rcases h with h | h
        · simp [Dst.hasV] at h; omega
        · simp_all
      · rfl
    | s k => rfl
    | zero => rfl
  · intro n h
    rw [Wave.s_putD]
    cases d with
    | v k => rfl
    | s k =>
      simp only [Dst.plus]
      split
      · simp [Dst.hasS] at h; omega
      · rfl
    | zero => rfl

theorem Dst.plus_zero (d : Dst) : d.plus 0 = d := by cases d <;> rfl

theorem Wave.sameBut_putD (w : Wave) (m : LaneMask) (d : Dst) (cnt : Nat) (h : 0 < cnt) (f : Nat → Word) :
    w.sameBut (w.putD m d f) d cnt m := by
  have := Wave.sameBut_putD_plus w m d cnt 0 h f
  rwa [Dst.plus_zero] at this

theorem Wave.sameBut_putD64 (w : Wave) (m : LaneMask) (d : Dst) (f : Nat → DWord) : w.sameBut (w.putD64 m d f) d 2 m :=
  Wave.sameBut_trans (Wave.sameBut_putD _ _ _ _ (by omega) _) (Wave.sameBut_putD_plus _ _ _ _ _ (by omega) _)

theorem Wave.sameBut_putW (w : Wave) (wide : Bool) (m : LaneMask) (d : Dst) (f : Nat → Nat) :
    w.sameBut (w.putW wide m d f) d (if wide then 2 else 1) m := by
  unfold Wave.putW; split
  · exact Wave.sameBut_putD64 _ _ _ _
  · exact Wave.sameBut_putD _ _ _ _ (by omega) _

/-- A write of a predicate leaves every register alone. -/
theorem Wave.sameBut_putPd (w : Wave) (n : Nat) (m : LaneMask) (f : Nat → Bool) (d : Dst) (cnt : Nat) (m' : LaneMask) :
    w.sameBut (w.putPd n m f) d cnt m' :=
  ⟨fun _ _ _ _ => by simp [Wave.putPd, Wave.putPm], fun _ _ => by simp [Wave.putPd, Wave.putPm]⟩

/-! ### Predicates -/

theorem Wave.samePreds_refl (w : Wave) (d : Option Nat) (m : LaneMask) : w.samePreds w d m := fun _ _ _ _ => rfl

@[simp] theorem Wave.p_putW (w : Wave) (wide : Bool) (m : LaneMask) (d : Dst) (f : Nat → Nat) (i : Nat) : (w.putW wide m d f).p i = w.p i := by
  unfold Wave.putW Wave.putD64; split <;> simp

theorem Wave.samePreds_putPd (w : Wave) (n : Nat) (m : LaneMask) (f : Nat → Bool) (hn : n ≠ 15) : w.samePreds (w.putPd n m f) (some n) m := by
  intro i l hl h
  rw [Wave.laneOf_putPd _ _ _ _ _ hn hl]
  rcases h with h | h
  · rw [if_neg]; rintro ⟨rfl, -⟩; exact h rfl
  · rw [if_neg]; rintro ⟨-, h2⟩; rw [h] at h2; cases h2

/-! ### FPSTAT -/

@[simp] theorem Wave.fpstat_putD (w : Wave) (m : LaneMask) (d : Dst) (f : Nat → Word) : (w.putD m d f).fpstat = w.fpstat := by
  cases d <;> simp [Wave.putD, Wave.putVm]
@[simp] theorem Wave.fpstat_putW (w : Wave) (wide : Bool) (m : LaneMask) (d : Dst) (f : Nat → Nat) : (w.putW wide m d f).fpstat = w.fpstat := by
  unfold Wave.putW Wave.putD64; split <;> simp
@[simp] theorem Wave.fpstat_putPd (w : Wave) (n : Nat) (m : LaneMask) (f : Nat → Bool) : (w.putPd n m f).fpstat = w.fpstat := by
  simp [Wave.putPd, Wave.putPm]

/-- FPSTAT loses no bit. -/
theorem Wave.orFp_keeps (w : Wave) (fl : Nat) : w.fpstat ||| (w.orFp fl).fpstat = (w.orFp fl).fpstat := by
  simp only [Wave.orFp]; rw [← BitVec.or_assoc, BitVec.or_self]

theorem unionFlags_zero (ls : List Nat) : unionFlags ls (fun _ => 0) = 0 := by
  unfold unionFlags
  induction ls with
  | nil => rfl
  | cons a r _ => simp

/-! ### What the destination holds -/

theorem loWord_hiWord (x : DWord) : dword (loWord x) (hiWord x) = x := by
  apply BitVec.eq_of_toNat_eq
  have := x.isLt
  simp [dword, loWord, hiWord, BitVec.toNat_ofNat, Nat.shiftRight_eq_div_pow] at this ⊢
  omega

/-- After a write, the destination holds the value of each lane it is written at. -/
theorem Wave.dst_putW (c : Cur) (w : Wave) (wide : Bool) (m : LaneMask) (d : Dst) (f : Nat → Nat) {l : Nat} (hl : l < 32)
    (h : c.writes d m l = true) : (w.putW wide m d f).dst wide d l = f l % 2 ^ (if wide then 64 else 32) := by
  cases d with
  | zero => cases h
  | v n =>
    simp only [Cur.writes] at h
    cases wide
    · simp [Wave.putW, Wave.dst, Wave.v_putD _ _ _ _ _ hl, h]
    · simp only [Wave.putW, Wave.putD64, Wave.dst, Wave.v64, Wave.v_putD _ _ _ _ _ hl, Dst.plus, h, if_true]
      simp [loWord_hiWord]
  | s n =>
    simp only [Cur.writes, beq_iff_eq] at h
    subst h
    cases wide
    · simp [Wave.putW, Wave.dst, Wave.s_putD]
    · simp only [Wave.putW, Wave.putD64, Wave.dst, Wave.s64, Wave.s_putD, Dst.plus, if_true]
      simp [loWord_hiWord]

@[simp] theorem Wave.dst_orFp (w : Wave) (fl : Nat) (wide : Bool) (d : Dst) (l : Nat) : (w.orFp fl).dst wide d l = w.dst wide d l := by
  cases d <;> rfl

/-- Moving on changes one wave. -/
theorem State.onlyWave_done (s : State) (c : Cur) (w : Wave) : s.onlyWave (s.done c w) c.wave :=
  ⟨rfl, fun j h => State.wave?_done_ne s c w j h⟩

end Sys2Proof.Machine
end

