-- ==== Sys2Proof/Tests/Slice0.lean ====
section
/-! SUPPORT. Small checks of one step each: ill-formed terms refused, words decoded, the spec's worked numbers, and for each statement of
`Certificates/Slice0/Obligations.lean` a state and operands that meet its hypotheses. -/

namespace Sys2Proof.Tests

open Sys2Proof Machine

set_option Elab.async false

/-! ### The laboratory: one wave of one team, with small segments -/

/-- The control fields of an instruction that nothing governs. -/
def ctl : Ctl := { pred := 15, neg := false, setf := none, wait := 0 }
/-- The same with a set-flag. -/
def ctlF (k : Nat) : Ctl := { ctl with setf := some k }
/-- Under predicate 3, with set-flag 1: two lanes act. -/
def ctlM : Ctl := { ctl with pred := 3, setf := some 1 }

/-- Descriptor bytes (15 R302): base, kind, limit and rights, VALID. -/
def desc (base kind limit rights : Nat) : List (List Byte) := [leBytes 8 (base + kind * 2 ^ 57), leBytes 8 (limit + rights * 2 ^ 44 + 2 ^ 52)]

/-- Physical memory: a root table whose pages map linear to physical (the second to the tier, the third to host memory), context 0 with its segment, binding
and range tables, the supervisor's table with the save pool. Segments: 1 CODE at 40000H, 2 DEVICE at 80000H, 3 SCRATCH, 4 TIER, 5 HOST, 6 read-only
DEVICE at 90000H, 7 detached, 8 a DEVICE segment bound to the cairn at 2:1000H, 9 a second CODE segment at 42000H, with every right. -/
def labBytes : List (Nat × List Byte) :=
  [(0, leBytes 8 0x5001), (0x5000, leBytes 8 3), (0x5008, leBytes 8 (4 * 2 ^ 48 + 3)), (0x5010, leBytes 8 (8 * 2 ^ 48 + 3)),
   (0x1000, leBytes 8 (3 + 10 * 2 ^ 32)), (0x1008, leBytes 8 0x2000), (0x1018, leBytes 8 0x6000), (0x1020, leBytes 4 8), (0x1038, leBytes 8 0x7000),
   (0x2020, (desc 0x40000 6 0x1000 5).flatten), (0x2040, (desc 0x80000 2 0x10000 27).flatten), (0x2060, (desc 0 1 0x1000 27).flatten),
   (0x2080, (desc 0x40000000 3 0x1000 27).flatten), (0x20A0, (desc 0x80000000 4 0x1000 27).flatten), (0x20C0, (desc 0x90000 2 0x1000 1).flatten),
   (0x20E0, (desc 0x91000 2 0x1000 (27 + 128)).flatten), (0x2100, (desc 0x92000 2 0x1000 27).flatten ++ leBytes 8 (2 * 2 ^ 44 + 0x1000)),
   (0x2120, (desc 0x42000 6 0x1000 31).flatten),
   (0x8000, (desc 0x100000 2 (64 * 0x18000) 11).flatten)]

/-- The same, byte by byte, in memory's canonical form. -/
def labMem : List (Nat × Byte) :=
  [(0x0, 1), (0x1, 80), (0x1000, 3), (0x1004, 10), (0x1009, 32), (0x1019, 96), (0x1020, 8), (0x1039, 112), (0x2022, 4), (0x2027, 12), (0x2029, 16), (0x202D, 80),
   (0x202E, 16), (0x2042, 8), (0x2047, 4), (0x204A, 1), (0x204D, 176), (0x204E, 17), (0x2067, 2), (0x2069, 16), (0x206D, 176), (0x206E, 17), (0x2083, 64), (0x2087, 6),
   (0x2089, 16), (0x208D, 176), (0x208E, 17), (0x20A3, 128), (0x20A7, 8), (0x20A9, 16), (0x20AD, 176), (0x20AE, 17), (0x20C2, 9), (0x20C7, 4), (0x20C9, 16), (0x20CD, 16),
   (0x20CE, 16), (0x20E1, 16), (0x20E2, 9), (0x20E7, 4), (0x20E9, 16), (0x20ED, 176), (0x20EE, 25), (0x2101, 32), (0x2102, 9), (0x2107, 4), (0x2109, 16), (0x210D, 176),
   (0x210E, 17), (0x2111, 16), (0x2115, 32), (0x2121, 32), (0x2122, 4), (0x2127, 12), (0x2129, 16), (0x212D, 240), (0x212E, 17), (0x5000, 3), (0x5008, 3), (0x500E, 4),
   (0x5010, 3), (0x5016, 8), (0x8002, 16), (0x8007, 4), (0x800A, 96), (0x800D, 176), (0x800E, 16)]

/-- The kernel of the wave: every register declared, Zynran code in segment 1. -/
def labKern : Kernel :=
  { native := false, c16 := false, vregs := 192, sregs := 56, ztiles := 128, scratch := 4096, codelen := 0x1000, illh := 0, sel := 1, koff := 0 }

/-- The wave, at supervisor or user level, with two S pairs and predicate 3 (lanes 0 and 31) set. -/
def labWave (sup : Bool) : Wave :=
  { Wave.launched 0 0 labKern 0 0 sup 0 0 with sr := [(4, 0x100), (5, 0x2000), (6, 0x20), (7, 0x3000)], pr := [(3, 0x80000001)] }

/-- What walks of the three pages leave in a TLB. -/
def labTlb (sup : Bool) : List TlbEnt :=
  [(0, 0), (0x40000000, 0x4000000000000), (0x80000000, 0x8000000000000)].map fun p => { ctx := 0, page := p.1, bits := 30, pa := p.2, wp := false, sup := sup }

/-- The laboratory with nothing running: partition 0 runs, team 0 holds wave 0 on core 0, with 4096 bytes of scratchpad and four monitor entries. -/
def labOf (sup : Bool) : State :=
  let t := Team.launched 0 0 0 0 0 0 0 0 0 1 4 0 0 0 0 false (List.range 128) ((List.range 16).map (· + 24576)) 0
  { State.reset with
    mem := labMem, clusters := [(0, { Cluster.reset with tlb := labTlb false ++ labTlb true })], teams := [(0, { t with wkeys := [(0, 0)] })], waves := [(0, labWave sup)],
    parts := [(0, { Part.reset with running := true, ctxt := 0x1000, ctxtn := 1, svseg := 0x8000, svsegn := 1, svec := 2 ^ 63 + 0x100 })] }

/-- Split 0 of wave 0 at an instruction at 40H of segment 1. -/
def cur : Cur :=
  { wave := 0, entry := 0, pc := 0x40, base := 0x40, next := 0x48, nextw := 0, widx := 0,
    raw := { Raw.none 1 with pred := 15, flag := 15 },
    snap := none, trapped := false }

def lab : State := { labOf true with cur := some cur }
def labU : State := { labOf false with cur := some cur }
def wv : Wave := labWave true
def wu : Wave := labWave false

theorem lab_memory : labBytes.foldl (fun m p => memPuts m p.1 p.2) [] = labMem := by decide +kernel

theorem lab_ready : lab.ready cur wv ∧ lab.runs cur wv := by
  unfold State.ready State.runs; decide +kernel
theorem labU_ready : labU.ready cur wu ∧ labU.runs cur wu := by
  unfold State.ready State.runs; decide +kernel



/-! ### Ill-formed terms: each pair is a term that the check refuses and its well-formed neighbour -/

def un (d : Dst) (a : Src) (ty : Ty) : Un := { ctl := ctl, d := d, a := a, ty := ty, rm := .rn, sat := false }
def bin (d : Dst) (a b : Src) (ty : Ty) : Bin := { ctl := ctl, d := d, a := a, b := b, ty := ty, rm := .rn, sat := false }
def tri (d : Dst) (a b c : Src) (ty : Ty) : Tri := { ctl := ctl, d := d, a := a, b := b, c := c, ty := ty, rm := .rn, sat := false }
def short (d : Dst) (a : Src) (sz : Sz) : Short := { pred := 15, neg := false, sz := sz, d := d, a := a, rm := .rn }
def ldO (d : Dst) (a : Reg) (b : Src) (z : MSize) : LdOp := { ctl := ctlF 1, d := d, a := a, b := b, size := z, scope := .wave }
def atO (d : Dst) (op : AOp) : AtomOp := { ctl := ctlF 1, d := d, a := .s 4, b := .v 2, op := op, scope := .device, nw := false }

def regRefusals : List (Instr × Instr) :=
  [(.iadd (bin (.v 192) (.v 0) (.v 1) .i32), .iadd (bin (.v 191) (.v 0) (.v 1) .i32)),                     -- a V number past the machine
   (.iadd (bin (.v 8) (.s 56) (.v 1) .i32), .iadd (bin (.v 8) (.s 55) (.v 1) .i32)),                       -- an S number past the machine
   (.iadd (bin (.v 9) (.v 0) (.v 2) .i64), .iadd (bin (.v 8) (.v 0) (.v 2) .i64)),                         -- an odd pair
   (.iadd (bin (.v 8) (.v 0) (.v 1) .f32), .fadd (bin (.v 8) (.v 0) (.v 1) .f32)),                         -- a type the opcode does not accept
   (.iadd { bin (.v 8) (.v 0) (.v 1) .i32 with rm := .rz }, .fadd { bin (.v 8) (.v 0) (.v 1) .f32 with rm := .rz }),  -- a rounding mode
   (.imin { bin (.v 8) (.v 0) (.v 1) .i32 with sat := true }, .iadd { bin (.v 8) (.v 0) (.v 1) .i32 with sat := true }),
   (.iadd { bin (.v 8) (.v 0) (.v 1) .i32 with ctl := { ctl with pred := 16 } }, .iadd { bin (.v 8) (.v 0) (.v 1) .i32 with ctl := { ctl with pred := 14 } }),
   (.iadd { bin (.v 8) (.v 0) (.v 1) .i32 with ctl := ctlF 0 }, .ld (ldO (.v 8) (.s 4) .zero .b32)),        -- a set-flag without a long latency
   (.ld { ldO (.v 8) (.s 4) .zero .b32 with ctl := ctlF 12 }, .ld { ldO (.v 8) (.s 4) .zero .b32 with ctl := ctlF 11 }),
   (.iadd (bin (.s 8) (.v 0) (.s 1) .i32), .iadd (bin (.s 8) (.s 0) (.s 1) .i32)),                         -- a lane's source of a uniform instruction
   (.iadd { bin (.s 8) (.s 0) (.s 1) .i32 with ctl := { ctl with pred := 3 } }, .iadd { bin (.v 8) (.s 0) (.s 1) .i32 with ctl := { ctl with pred := 3 } }),
   (.iadd (bin (.v 8) (.lit 1) (.lit 2) .i32), .iadd (bin (.v 8) (.lit 2) (.lit 2) .i32)),                 -- two literals
   (.frcp { un (.v 8) (.v 0) .f32 with rm := .sr }, .frcp { un (.v 8) (.v 0) .f32 with rm := .ru }),
   (.icmp { ctl := ctl, d := 15, a := .v 0, b := .v 1, ty := .i32, cond := .lt }, .icmp { ctl := ctl, d := 14, a := .v 0, b := .v 1, ty := .i32, cond := .lt }),
   (.icmp { ctl := ctl, d := 1, a := .v 0, b := .v 1, ty := .i32, cond := .num }, .fcmp { ctl := ctl, d := 1, a := .v 0, b := .v 1, ty := .f32, cond := .num }),
   (.sel { ctl := ctl, d := .v 8, a := .v 0, b := .v 1, c := 16, ty := .b32 }, .sel { ctl := ctl, d := .v 8, a := .v 0, b := .v 1, c := 15, ty := .b32 }),
   (.f2i { ctl := ctl, d := .v 8, a := .v 0, dst := .f32, src := .f32, rm := .rn, sat := false }, .f2i { ctl := ctl, d := .v 8, a := .v 0, dst := .i32, src := .f32, rm := .rn, sat := false }),
   (.fupk { ctl := ctl, d := .v 9, a := .v 0, dst := .fp32, src := .e4m3, rm := .rn, sat := false }, .fupk { ctl := ctl, d := .v 8, a := .v 0, dst := .fp32, src := .e4m3, rm := .rn, sat := false }),
   (.fpk { ctl := ctl, d := .v 9, a := .v 16, b := .zero, fmt := .e3m2, rm := .rn, sat := false }, .fpk { ctl := ctl, d := .v 8, a := .v 16, b := .zero, fmt := .e3m2, rm := .rn, sat := false }),
   (.vred { ctl := ctl, d := .v 8, a := .v 0, op := .add, exc := true, ty := .i32 }, .vscan { ctl := ctl, d := .v 8, a := .v 0, op := .add, exc := true, ty := .i32 }),
   (.vred { ctl := ctl, d := .v 8, a := .v 0, op := .and, exc := false, ty := .i32 }, .vred { ctl := ctl, d := .v 8, a := .v 0, op := .and, exc := false, ty := .b32 }),
   (.matchOp { ctl := ctl, d := .s 8, a := .s 0, all := false, w64 := false }, .matchOp { ctl := ctl, d := .v 8, a := .v 0, all := false, w64 := false }),
   (.imulZ32 (short (.v 8) (.v 0) .w64), .imulZ32 (short (.v 8) (.v 0) .w32)),                             -- a size the short form does not accept
   (.iaddZ32 (short (.v 8) (.lit 1) .w32), .iaddZ32 (short (.v 8) .ones .w32)),                            -- a literal in a short form
   (.ldspZ32 (short (.s 8) (.v 0) .w32), .ldspZ32 (short (.s 8) (.s 0) .w32)),
   (.stspZ32 { pred := 15, neg := false, sz := .w32, d := .lit 1, a := .v 0 }, .stspZ32 { pred := 15, neg := false, sz := .w32, d := .v 1, a := .v 0 })]

def otherRefusals : List (Instr × Instr) :=
  [(.gset ctl 8 .true, .gset ctl 7 .true), (.bar ctl 16, .bar ctl 15), (.waitf ctl (.s 0) 64, .waitf ctl (.s 0) 63), (.waitf ctl (.v 0) 0, .waitf ctl .ones 0),
   (.yield { ctl with pred := 1 }, .yield ctl), (.emrd ctl 56 false, .emrd ctl 55 false), (.trap ctl 256, .trap ctl 255),
   (.call { ctl := ctl, d := 1, tgt := 0 }, .call { ctl := ctl, d := 2, tgt := 0 }), (.ret { ctl := ctl, a := .s 3 }, .ret { ctl := ctl, a := .s 2 }),
   (.sysr { ctl := ctl, d := .v 8, addr := 0x009, w64 := false }, .sysr { ctl := ctl, d := .v 8, addr := 0x008, w64 := false }),
   (.sysr { ctl := ctl, d := .s 8, addr := 0x028, w64 := false }, .sysr { ctl := ctl, d := .v 8, addr := 0x028, w64 := false }),
   (.sysw { ctl := ctl, addr := 0x050, w64 := false, a := .s 0 }, .ltimeWrite { ctl := ctl, addr := 0x050, w64 := false, a := .s 0 }),
   (.fdpendClear { ctl := ctl, addr := 0x040, w64 := false, a := .s 0 }, .fdpendClear { ctl := ctl, addr := 0x228, w64 := false, a := .s 0 }),
   (.mma { ctl := ctl, guard := none, d := 128, a := 0, b := .regs 0, c := 0, md := none, acc := true, scl := none },
    .mma { ctl := ctl, guard := none, d := 127, a := 0, b := .regs 0, c := 0, md := none, acc := true, scl := none }),
   (.mma { ctl := ctl, guard := some 8, d := 0, a := 0, b := .regs 0, c := 0, md := none, acc := true, scl := none },
    .mma { ctl := ctl, guard := some 7, d := 0, a := 0, b := .handle 15, c := 0, md := none, acc := true, scl := none }),
   (.mmas { ctl := ctl, guard := none, d := 0, a := 0, b := .regs 0, c := 0, md := none, acc := true, scl := none },
    .mmas { ctl := ctl, guard := none, d := 0, a := 0, b := .regs 0, c := 0, md := some 8, acc := true, scl := none }),
   (.mmat { ctl := ctl, guard := none, d := 0, a := 0, b := .regs 0, c := 0, md := none, acc := true, scl := some 1 },
    .mmat { ctl := ctl, guard := none, d := 0, a := 0, b := .regs 0, c := 0, md := none, acc := true, scl := none }),
   (.mma { ctl := ctl, guard := none, d := 0, a := 0, b := .handle 16, c := 0, md := none, acc := true, scl := none },
    .mma { ctl := ctl, guard := none, d := 0, a := 0, b := .handle 15, c := 0, md := none, acc := true, scl := none }),
   (.zld { ctl := ctl, guard := none, d := 0, a := 0, stride := 15 }, .zld { ctl := ctl, guard := none, d := 0, a := 0, stride := 16 }),
   (.zmov { ctl := ctl, guard := none, d := 8, a := 0, blk := 0 }, .zmov { ctl := ctl, guard := none, d := 16, a := 0, blk := 7 }),
   (.actld { ctl := ctl, bank := 2, a := 0 }, .actld { ctl := ctl, bank := 1, a := 0 }), (.spfence { ctl := ctl, h := 16, all := true }, .spfence { ctl := ctl, h := 15, all := true }),
   (.ld (ldO (.v 10) (.s 4) .zero .b128), .ld (ldO (.v 8) (.s 4) .zero .b128)), (.ld (ldO (.v 8) (.s 5) .zero .b32), .ldsp (ldO (.v 8) (.s 5) .zero .b32)),
   (.ld (ldO (.s 8) (.v 4) .zero .b32), .ld (ldO (.s 8) (.s 4) .zero .b32)), (.ldspPi (ldO (.v 8) (.v 9) .zero .b64), .ldspPi (ldO (.v 8) (.v 10) .zero .b64)),
   (.red (atO .zero .xchg), .red (atO .zero .add)), (.red (atO (.v 8) .add), .atom (atO (.v 8) .add)), (.atom (atO (.s 8) .add), .atom (atO .zero .add)),
   (.waitv { ctl := ctl, d := 8, a := 4, b := 6, w64 := true }, .waitv { ctl := ctl, d := 8, a := 4, b := 8, w64 := true }),
   (.acqt { ctl := ctl, d := 15, a := 4, ex := true }, .acqt { ctl := ctl, d := 14, a := 4, ex := true }),
   (.btcopy { ctl := ctl, guard := none, a := .s 5, b := .s 8, c := .s 10, st := false, nw := false, tag := 0 },
    .btcopy { ctl := ctl, guard := none, a := .s 4, b := .s 8, c := .s 10, st := false, nw := false, tag := 0 }),
   (.protld { ctl := ctl, slot := 16, a := 4 }, .protld { ctl := ctl, slot := 15, a := 4 }), (.protsel { ctl := ctl, idx := 64, a := 4, b := 6 }, .protsel { ctl := ctl, idx := 63, a := 4, b := 6 }),
   (.segld { ctl := ctl, d := 4, a := .s 0 }, .segld { ctl := ctl, d := 8, a := .s 0 }), (.capq { ctl := ctl, d := 8, a := .s 0, item := 11 }, .capq { ctl := ctl, d := 8, a := .s 0, item := 10 }),
   (.shoot { ctl := ctl, a := .s 0, b := .zero, mode := .all }, .shoot { ctl := ctl, a := .s 0, b := .zero, mode := .context }),
   (.flagwrSet ctl 12 (.s 0), .flagwrSet ctl 11 (.s 0)), (.nopZ32 14 false, .nopZ32 15 false),
   (.clauseHeader { wait := 0, flagA := none, flagB := none, len := 0, yield := false }, .clauseHeader { wait := 0, flagA := none, flagB := none, len := 31, yield := false }),
   (.clauseHeader { wait := 0, flagA := some 1, flagB := some 1, len := 1, yield := false }, .clauseHeader { wait := 0, flagA := some 1, flagB := some 2, len := 1, yield := false })]

theorem test_register_terms_refused : regRefusals.all (fun p => !p.1.wf && p.2.wf) = true := by decide +kernel
theorem test_other_terms_refused : otherRefusals.all (fun p => !p.1.wf && p.2.wf) = true := by decide +kernel

/-! ### Words of the encoding tables (02 R35, R36, R40–R43, 03 R63, R67, R70) -/

/-- Parcels, first to last, and the instruction they hold: for each family at least one. -/
def decoded : List (List Nat × Instr) :=
  [([0x1E001420], .iaddZ32 (short (.v 10) (.v 0) .w32)), ([0x1E021A44], .xorZ32 (short (.v 13) (.v 1) .w32)), ([0x1FF3F2FC], .nopZ32 15 false),
   ([0x282010A9, 0x000F7900], .icmp { ctl := ctl, d := 2, a := .v 4, b := .v 5, ty := .i32, cond := .lt }),
   ([0x48405901, 0x006F7800], .fadd { bin (.v 11) (.v 8) (.v 9) .f32 with ctl := { ctl with wait := 6 } }),
   ([0xC02019A2, 0x000F7987, 8], .shfl { ctl := ctl, d := .v 3, a := .v 4, b := .lit 8, sub := .xor, w64 := false }),
   ([0x16204701, 0x00017820], .ld (ldO (.v 8) (.s 4) (.v 2) .b32)),
   ([0x16305F05, 0x000378E0], .st { ctl := ctlF 3, d := .v 11, a := .s 6, b := .v 2, size := .b32, scope := .device, nw := false }),
   ([0x60205709, 0x00037980], .atom { ctl := ctlF 3, d := .v 10, a := .v 4, b := .v 12, op := .add, scope := .device, nw := false }),
   ([0x30282711, 0x02129838], .atomcasSp { ctl := { pred := 3, neg := true, setf := some 2, wait := 0x21 }, d := .v 4, a := .v 5, b := .v 6, c := .v 7 }),
   ([0x00000602, 0x00017A01, 0x0F9003E6],
    .mma { ctl := ctlF 1, guard := none, d := 0, a := 0, b := .regs 32, c := 64, md := none, acc := true, scl := none }),
   ([0xC7CFCA02, 0x000F0807, 0x00400020], .bra { ctl := { ctl with pred := 1 }, tgt := 0x20, rc := 0x40 }),
   ([0x07C80A55, 0x000F7810], .sysr { ctl := ctl, d := .v 1, addr := 2, w64 := false }),
   ([0x96168F45, 0x000F7826], .waitv { ctl := ctl, d := 17, a := 2, b := 18, w64 := false }),
   ([0xCE17CF49, 0x000F1807], .wake { ctl := { ctl with pred := 3 }, a := .s 2, all := false }),
   ([0x3627CA85, 0x000F782E], .protsel { ctl := ctl, idx := 5, a := 4, b := 6 }), ([0xCE4FCA89, 0x000F780F], .ltadv { ctl := ctl, d := .zero, a := .s 9, max := true }),
   ([0x4627CAA2, 0x00027E56, 0x0F900070],
    .btcopy { ctl := ctlF 2, guard := none, a := .s 4, b := .s 8, c := .s 10, st := false, nw := false, tag := 7 }),
   ([0xCFC652C2, 0x000F7807, 3], .lnk { ctl := ctl, d := .s 10, a := .lit 3 }), ([0xCF4F4301, 0x000F7807], .splitrd { ctl := ctl, d := 40, a := .s 41, space := .ent }),
   ([0xAF97CB05, 0x000F7817], .splitwr { ctl := ctl, a := .s 50, b := .s 53, space := .bar }), ([0xCFCFCB09, 0x000F780F], .flagwrSave ctl),
   ([0xCFC6A316, 0x000F7807, 5], .capq { ctl := ctl, d := 20, a := .lit 5, item := 0 })]

theorem test_words_decode : decoded.all (fun p => decodeParcels DecEnv.full p.1 == some p.2) = true := by decide +kernel
theorem test_words_encode : decoded.all (fun p => encode p.2 == some p.1) = true := by decide +kernel

/-- The cause of a refused parcel. -/
def refusal (p0 p1 p2 : Nat) : Option Nat := match (decodeZynran DecEnv.full p0 p1 p2).2 with | .error b => some b.cause | .ok _ => none

/-- Refused encodings, by cause (02 R57): an undefined opcode; a reserved size; the reserved parcel form; an odd pair; a literal that is missing, in a
full and in a short form, and one that nothing takes; a set-flag that is reserved, and one of an instruction of fixed latency. -/
theorem test_refused_by_cause :
    refusal (0x0F * 4 + 1) 0x000F7800 0 = some cUNDEFOP ∧ refusal (0x1E001420 + 3 * 2 ^ 30) 0 0 = some cRSVMOD ∧ refusal 3 0 0 = some cRSVLEN ∧
    refusal (0x16204701 + 2 ^ 19) 0x00017820 0 = some cREGRANGE ∧ refusal (0x48405901 + (248 - 8) * 2 ^ 19) 0x006F7800 0 = some cNOLIT ∧
    refusal (0x1E001420 + 248 * 2 ^ 17) 0 0 = some cNOLIT ∧ refusal 0x48405902 0x006F7800 7 = some cSTRAYLIT ∧ refusal 0x48405901 0x006C7800 0 = some cRSVMOD ∧
    refusal 0x48405901 0x00617800 0 = some cFLAGUSE := by decide +kernel

/-- The native clause of the lowering example (03 R81): a header with flags F1 and F2 over LD, LD and a pair of IADD and XOR. -/
theorem test_native_clause :
    (match decodeClause DecEnv.full 0x8000486000000000 [0x1C008C40204F2000, 0x1C009C40304F4000, 0x44050070110D01E0] with
     | .ok (some c) => c.hdr.len == 3 && c.hdr.flagA == some 1 && c.hdr.flagB == some 2 && c.words.length == 3
     | _ => false) = true := by decide +kernel

/-- Native BRA.DEC of counter S9 through the pair S4 (03 R66, 08 R180: a names the pair, b 249, c 0), a clause of one word. -/
theorem test_native_counted_branch :
    (match decodeClause DecEnv.full 0x8003FC2000000000 [0x210C9C4F900F0000] with
     | .ok (some c) => c.words.map (fun p => match p.2 with | .one i _ _ => some i | .two _ _ _ _ => none) == [some (.braDecReg { ctl := ctl, d := 9, a := .s 4 })]
     | _ => false) = true := by decide +kernel

/-! ### The spec's worked numbers -/

/-- The laboratory with V registers set at every lane from a function of the lane. -/
def labV (l : List (Nat × (Nat → Word))) : State := lab.putWave 0 (l.foldl (fun w p => w.putV p.1 p.2) wv)
/-- Wave 0 after an instruction, where it answers a next state. -/
def after (i : Instr) (s : State) : Option Wave := match exec i s with | .next t => t.wave? 0 | _ => none
/-- V register `n` at lane `l` then, or 0; and FPSTAT. -/
def vAfter (i : Instr) (s : State) (n l : Nat) : Word := ((after i s).map (·.v n l)).getD 0
def fpAfter (i : Instr) (s : State) : Word := ((after i s).map (·.fpstat)).getD 0

/-- PRMT (05 R109). -/
theorem test_prmt : vAfter (.prmt (tri (.v 8) (.v 0) (.v 1) (.v 2) .b32)) (labV [(0, fun _ => 0x88442211), (1, fun _ => 0xF0), (2, fun _ => 0x40140803)]) 8 31 = 0x00FF8888 := by
  decide +kernel

/-- PADD at the top of a segment's offsets (05 R112): OFFOVF, and the same lane with −64. -/
theorem test_padd_overflow :
    let s := labV [(6, fun _ => 0xFFFFFFC0), (7, fun _ => 0x00012FFF)]
    (after (.padd (bin (.v 8) (.v 6) (.lit 0x40) .i32)) s).map (·.trapcode) = some 0x0A ∧
    vAfter (.padd (bin (.v 8) (.v 6) (.lit (-0x40)) .i32)) s 8 0 = 0xFFFFFF80 ∧ vAfter (.padd (bin (.v 8) (.v 6) (.lit (-0x40)) .i32)) s 9 0 = 0x00012FFF := by
  decide +kernel

/-- The scans and the reduction of eight lanes, five of them active (05 R126). -/
def scanLab : State :=
  lab.putWave 0 (((wv.putV 0 fun l => BitVec.ofNat 32 ([3, 1, 9, 2, 5, 7, 4, 8].getD l 0)).putP 1 0x5B).putV 8 fun _ => 77)
def scanOp (e : Bool) : Red := { ctl := { ctl with pred := 1 }, d := .v 8, a := .v 0, op := .add, exc := e, ty := .i32 }
theorem test_scan : ((List.range 8).map (vAfter (.vscan (scanOp false)) scanLab 8)) = [3, 4, 77, 6, 11, 77, 15, 77] ∧
    ((List.range 8).map (vAfter (.vscan (scanOp true)) scanLab 8)) = [0, 3, 77, 4, 6, 77, 11, 77] := by decide +kernel
theorem test_reduce : ((List.range 8).map (vAfter (.vred (scanOp false)) scanLab 8)) = [15, 15, 77, 15, 15, 77, 15, 77] := by decide +kernel

/-- An F32 sum over three lanes is rounded once (05 R126). -/
theorem test_reduce_float :
    let s := lab.putWave 0 ((wv.putV 0 fun l => if l = 0 then 0x3F800000 else 0x33800000).putP 1 7)
    let i := Instr.vred { ctl := { ctl with pred := 1 }, d := .v 8, a := .v 0, op := .add, exc := false, ty := .f32 }
    vAfter i s 8 2 = 0x3F800001 ∧ fpAfter i s = 0 := by decide +kernel

/-- F2I (05 R119): 2.5 and −3.0e9 to I32, −0.4 to N32. -/
def f2i (t : Ty) : Instr := .f2i { ctl := ctl, d := .v 8, a := .v 0, dst := t, src := .f32, rm := .rn, sat := false }
theorem test_f2i : vAfter (f2i .i32) (labV [(0, fun _ => 0x40200000)]) 8 0 = 2 ∧ fpAfter (f2i .i32) (labV [(0, fun _ => 0x40200000)]) = 16 ∧
    vAfter (f2i .i32) (labV [(0, fun _ => 0xCF32D05E)]) 8 0 = 0x80000000 ∧ fpAfter (f2i .i32) (labV [(0, fun _ => 0xCF32D05E)]) = 1 := by decide +kernel
theorem test_f2i_unsigned : vAfter (f2i .n32) (labV [(0, fun _ => 0xBECCCCCD)]) 8 0 = 0 ∧ fpAfter (f2i .n32) (labV [(0, fun _ => 0xBECCCCCD)]) = 16 := by decide +kernel

/-- Shifts by the width and more (05 R109), and a wrapped and a saturated sum (05 R108). -/
theorem test_shift_by_width :
    let s := labV [(0, fun _ => 0x80000001), (1, fun _ => 32)]
    vAfter (.shl (bin (.v 8) (.v 0) (.v 1) .b32)) s 8 0 = 0 ∧ vAfter (.sar (bin (.v 8) (.v 0) (.v 1) .i32)) s 8 0 = 0xFFFFFFFF := by decide +kernel
theorem test_sum_wraps_or_saturates :
    let s := labV [(0, fun _ => 0x7FFFFFFF), (1, fun _ => 1)]
    vAfter (.iadd (bin (.v 8) (.v 0) (.v 1) .i32)) s 8 0 = 0x80000000 ∧
    vAfter (.iadd { bin (.v 8) (.v 0) (.v 1) .i32 with sat := true }) s 8 0 = 0x7FFFFFFF := by decide +kernel

/-- The chunks of the matrix engine (06 R135): two E4M3 chunks of 2^-18 each leave 64.0 with NX; one BF16 chunk of 2^24, 1 and −2^24 is 1.0. -/
theorem test_chunks :
    (dotFp false (fun _ => none) 0x42800000 [[unpackElt .e4m3 1], [unpackElt .e4m3 1]] [[unpackElt .e4m3 1], [unpackElt .e4m3 1]]).1 = 0x42800000 ∧
    (dotFp false (fun _ => none) 0 [[unpackElt .bf16 0x4580, unpackElt .bf16 0x3F80, unpackElt .bf16 0xC580]]
      [[unpackElt .bf16 0x4580, unpackElt .bf16 0x3F80, unpackElt .bf16 0x4580]]).1 = 0x3F800000 := by decide +kernel

/-- The line of segment 2's offset 100H. -/
def line0 : Nat := 0x80100 / 128

/-- An address in segment `n`. -/
def at_ (n off : Nat) : DWord := BitVec.ofNat 64 (n * 2 ^ 44 + off)

/-- ATOMDP by four lanes on 5 (10 R244): old values 5, 4, 3, 2. -/
theorem test_decrements : (List.range 3).foldl (fun (acc : List Nat) _ => acc ++ [((atomNew 13 32 (acc.getLastD 0) 0 0).1).getD 0]) [5] = [5, 4, 3, 2] := by decide +kernel

/-- How segment 2 reaches the line of its offset 100H. -/
def via0 : Via := viaOf 0 (at_ 2 0x100) 2 0x80100

/-- A stored word is read back by its own wave before it leaves the store buffer (09 R208), byte 0 lowest (00 R3). -/
theorem test_store_then_load :
    (match exec (.st { ctl := ctl, d := .v 0, a := .s 4, b := .zero, size := .b32, scope := .device, nw := false }) (labV [(0, fun _ => 0x11223344)]) with
     | .next t => (t.readByte 0 ((t.wave? 0).getD wv) 2 3 0x80100 via0, t.readByte 0 ((t.wave? 0).getD wv) 2 3 0x80103 via0, t.mem == lab.mem)
     | _ => ((0, true), (0, true), false)) = ((0x44, false), (0x11, false), true) := by decide +kernel

/-! ### Hypotheses of the statements: register-only instructions -/

theorem wit_register_only : lab.runs cur wv ∧
    ([.iadd (bin (.v 8) (.v 0) (.v 1) .i32), .iadd (bin (.s 8) (.s 0) (.s 1) .i32), .iadd (bin .zero (.v 0) (.v 1) .i32), .fadd (bin (.v 8) (.v 0) (.v 1) .f32),
      .icmp { ctl := ctl, d := 2, a := .v 4, b := .v 5, ty := .i32, cond := .lt }, .elect ctl 3] : List Instr).all (fun i => i.regOnly && i.wf) = true :=
  ⟨lab_ready.2, by decide +kernel⟩

theorem wit_integer_arithmetic : lab.runs cur wv ∧ ([.i32, .i64, .i16x2] : List Ty).all (fun t => let o := bin (.v 8) (.v 0) (.v 2) t
      (Instr.iadd o).wf && (Instr.isub o).wf && (t == .i16x2 || (Instr.imul o).wf) && (Instr.imin o).wf && (Instr.imax o).wf &&
      cur.writes o.d (cur.active wv o.ctl) 31) = true ∧
    (Instr.nmin (bin (.s 8) (.s 0) (.s 2) .n32)).wf = true ∧ (Instr.nmax (bin (.s 8) (.s 0) (.s 2) .n64)).wf = true ∧
    cur.writes (.s 8) (cur.active wv ctl) 0 = true := ⟨lab_ready.2, by decide +kernel⟩

theorem wit_absolute_and_negate : lab.runs cur wv ∧ (Instr.iabs (un (.v 8) (.v 0) .i16x2)).wf = true ∧ (Instr.ineg (un (.v 8) (.v 0) .i64)).wf = true ∧
    cur.writes (.v 8) (cur.active wv ctl) 31 = true := ⟨lab_ready.2, by decide +kernel⟩

theorem wit_bitwise_and_shifts : lab.runs cur wv ∧ (let o : Bin := bin (.v 8) (.v 0) (.v 2) .b64;
      ([.andB o, .orB o, .xorB o, .andn o, .shl o, .shr o] : List Instr).all Instr.wf = true) ∧ (Instr.sar (bin (.v 8) (.v 0) (.v 2) .i64)).wf = true ∧
    (Instr.rotl (bin (.v 8) (.v 0) (.v 2) .b32)).wf = true ∧ cur.writes (.v 8) (cur.active wv ctl) 31 = true := ⟨lab_ready.2, by decide +kernel⟩

theorem wit_unary_bits : lab.runs cur wv ∧ (let o := un (.v 8) (.v 0) .b32;
      ([.notB o, .mov o, .popc o, .clz o, .brev o] : List Instr).all Instr.wf = true) ∧ cur.writes (.v 8) (cur.active wv ctl) 31 = true ∧
    cur.word wv 31 (.v 0) = 0 ∧ (cur.word wv 31 .ones).getLsbD 31 = true := ⟨lab_ready.2, by decide +kernel⟩

theorem wit_multiply_add_and_carry : lab.runs cur wv ∧ (Instr.imad (tri (.v 8) (.v 0) (.v 2) (.v 4) .i64)).wf = true ∧
    (Instr.imadD (bin (.v 8) (.v 0) (.v 2) .i32)).wf = true ∧ (Instr.imulh (bin (.v 8) (.v 0) (.v 2) .n32)).wf = true ∧
    (Instr.iadc (tri (.v 8) (.v 0) (.v 2) (.v 4) .n32)).wf = true ∧ cur.writes (.v 8) (cur.active wv ctl) 31 = true := ⟨lab_ready.2, by decide +kernel⟩

theorem wit_fields_and_bytes : lab.runs cur wv ∧ (Instr.bfx (bin (.v 8) (.v 0) (.v 2) .i32)).wf = true ∧ (Instr.bfi (tri (.v 8) (.v 0) (.v 2) (.v 4) .b32)).wf = true ∧
    (Instr.prmt (tri (.v 8) (.v 0) (.v 2) (.v 4) .b32)).wf = true ∧ cur.writes (.v 8) (cur.active wv ctl) 31 = true := ⟨lab_ready.2, by decide +kernel⟩

theorem wit_compare_and_select : lab.runs cur wv ∧ (Instr.icmp { ctl := ctl, d := 2, a := .v 4, b := .v 6, ty := .i64, cond := .ge }).wf = true ∧
    laneOf (cur.active wv ctl) 31 = true ∧ (Instr.sel { ctl := ctl, d := .v 8, a := .v 0, b := .v 2, c := 15, ty := .b64 }).wf = true ∧
    (Instr.sel { ctl := ctl, d := .s 8, a := .s 0, b := .s 2, c := 3, ty := .b32 }).wf = true ∧ cur.writes (.v 8) (cur.active wv ctl) 31 = true :=
  ⟨lab_ready.2, by decide +kernel⟩

/-- The laboratory with no lane of the split active. -/
def wvEmpty : Wave := wv.modSplit 0 fun x => { x with em := 0 }
def labEmpty : State := lab.putWave 0 wvEmpty
theorem labEmpty_ready : labEmpty.ready cur wvEmpty ∧ labEmpty.runs cur wvEmpty := by unfold State.ready State.runs; decide +kernel

/-- MOVL with a lane and with none. -/
theorem wit_move_lowest_lane : lab.runs cur wv ∧ labEmpty.runs cur wvEmpty ∧ (Instr.movl (un (.s 8) (.v 0) .b32)).wf = true ∧
    laneOf (cur.active wv ctl) 0 = true ∧ cur.active wvEmpty ctl = 0 := ⟨lab_ready.2, labEmpty_ready.2, by decide +kernel⟩

/-- Offsets at both ends of the 44 bits, within them and beyond. -/
def edge : State := labV [(0, fun _ => 0xFFFFFFFF), (1, fun _ => 0xFFF), (2, fun _ => 0), (3, fun _ => 0x1000)]
def edgeW : Wave := (edge.wave? 0).getD wv
theorem edge_runs : edge.runs cur edgeW := by unfold State.runs; decide +kernel
theorem wit_addresses : edge.runs cur edgeW ∧ (Instr.sega (bin (.v 8) (.v 0) (.v 0) .i32)).wf = true ∧ (Instr.padd (bin (.v 8) (.v 0) (.lit 0) .i32)).wf = true ∧
    (Instr.pseg (un (.v 8) (.s 4) .i32)).wf = true ∧ (Instr.poff (un (.v 8) (.s 4) .i32)).wf = true ∧
    (∀ l, l < 32 → cur.computes (.v 8) (cur.active edgeW ctl) l = true → cur.bits edgeW .b64 l (.v 0) < 2 ^ 44 ∧
      0 ≤ ((cur.bits edgeW .b64 l (.v 0) % 2 ^ 44 : Nat) : Int) + Ty.num .i32 (Ty.eltBits .i32 (cur.bits edgeW .i32 l (.lit 0)) 0) ∧
      ((cur.bits edgeW .b64 l (.v 0) % 2 ^ 44 : Nat) : Int) + Ty.num .i32 (Ty.eltBits .i32 (cur.bits edgeW .i32 l (.lit 0)) 0) < 2 ^ 44) ∧
    cur.writes (.v 8) (cur.active edgeW ctl) 31 = true := ⟨edge_runs, by decide +kernel⟩
theorem wit_offset_overflow : edge.runs cur edgeW ∧ (Instr.sega (bin (.v 8) (.v 0) (.v 2) .i32)).wf = true ∧
    (∃ l, l < 32 ∧ cur.computes (.v 8) (cur.active edgeW ctl) l = true ∧ 2 ^ 44 ≤ cur.bits edgeW .b64 l (.v 2)) ∧
    (Instr.padd (bin (.v 8) (.v 2) (.lit (-1)) .i32)).wf = true ∧ (∃ l, l < 32 ∧ cur.computes (.v 8) (cur.active edgeW ctl) l = true ∧
      ((cur.bits edgeW .b64 l (.v 2) % 2 ^ 44 : Nat) : Int) + Ty.num .i32 (Ty.eltBits .i32 (cur.bits edgeW .i32 l (.lit (-1))) 0) < 0) ∧
    (∃ l, l < 32 ∧ cur.computes (.v 8) (cur.active edgeW ctl) l = true ∧
      2 ^ 44 ≤ ((cur.bits edgeW .b64 l (.v 0) % 2 ^ 44 : Nat) : Int) + Ty.num .i32 (Ty.eltBits .i32 (cur.bits edgeW .i32 l (.lit 1)) 0)) :=
  ⟨edge_runs, by decide +kernel, ⟨0, by decide +kernel⟩, by decide +kernel, ⟨0, by decide +kernel⟩, ⟨0, by decide +kernel⟩⟩

theorem wit_float_arithmetic : lab.runs cur wv ∧ (let o : Bin := bin (.v 8) (.v 0) (.v 2) .f32;
      ([.fadd o, .fsub o, .fmul o, .fdiv o, .fmin o, .fmax o, .hadd2 { o with ty := .f16x2 }, .hmul2 { o with ty := .bf16x2 },
        .ffma (tri (.v 8) (.v 0) (.v 2) (.v 4) .f32), .hfma2 (tri (.v 8) (.v 0) (.v 2) (.v 4) .f16x2)] : List Instr).all Instr.wf = true) ∧
    (let o := un (.v 8) (.v 0) .f32;
      ([.fsqrt o, .frcp o, .frsq o, .fexp2 o, .flog2 o, .fsin o, .fcos o, .ftanh o] : List Instr).all Instr.wf = true) ∧
    cur.writes (.v 8) (cur.active wv ctl) 31 = true ∧ fpIsNan 0x7FC00000 = true ∧ fpIsSig 0x7F800001 = true ∧ fpIsNan 0x7F800000 = false :=
  ⟨lab_ready.2, by decide +kernel⟩

theorem wit_float_compare_and_class : lab.runs cur wv ∧ (Instr.fcmp { ctl := ctl, d := 2, a := .v 4, b := .v 6, ty := .f32, cond := .geu }).wf = true ∧
    (Instr.fclass { ctl := ctl, d := 2, a := .v 4, mask := 0 }).wf = true ∧ laneOf (cur.active wv ctl) 31 = true := ⟨lab_ready.2, by decide +kernel⟩

theorem wit_conversions : lab.runs cur wv ∧ (f2i .i64).wf = true ∧ (Instr.i2f { ctl := ctl, d := .v 8, a := .v 0, dst := .f16, src := .n64, rm := .sr, sat := true }).wf = true ∧
    (Instr.fcvt { ctl := ctl, d := .v 8, a := .v 0, dst := .e2m1, src := .e5m2, rm := .rn, sat := false }).wf = true ∧
    (let o : CvtP := { ctl := ctl, d := .v 8, a := .v 16, b := .v 1, fmt := .e3m2, rm := .rn, sat := true };
      (Instr.qnt o).wf = true ∧ (Instr.dqnt o).wf = true ∧ (Instr.fpk { o with b := .zero }).wf = true) ∧
    (Instr.fupk { ctl := ctl, d := .v 16, a := .v 8, dst := .fp32, src := .e2m3, rm := .rn, sat := false }).wf = true ∧
    (Instr.fupk { ctl := ctl, d := .v 16, a := .v 8, dst := .t2, src := .t2, rm := .rn, sat := false }).wf = true ∧ Fmt.isInt .t2 = true ∧ badT2 .t2 3 = false ∧
    cur.writes (.v 8) (cur.active wv ctl) 31 = true := ⟨lab_ready.2, by decide +kernel⟩

theorem wit_predicates_and_lanes : lab.runs cur wv ∧ (Instr.plop { ctl := ctl, d := 14, a := 15, b := 0, lut := 6 }).wf = true ∧
    (Instr.shfl { ctl := ctl, d := .v 8, a := .v 0, b := .lit 31, sub := .idx, w64 := true }).wf = true ∧ laneOf (cur.active wv ctl) 31 = true ∧
    (Instr.vred { scanOp false with ty := .n64, op := .min }).wf = true ∧ (Instr.vscan { scanOp true with ty := .b32, op := .xor }).wf = true ∧
    (Instr.vote { ctl := ctl, d := 1, a := 15, sub := .eq }).wf = true ∧ (Instr.ballot { ctl := ctl, d := .s 8, a := 2 }).wf = true ∧
    (Instr.elect ctl 3).wf = true ∧ (Instr.matchOp { ctl := ctl, d := .v 8, a := .v 0, all := true, w64 := true }).wf = true ∧
    cur.writes (.v 8) (cur.active wv ctl) 31 = true := ⟨lab_ready.2, by decide +kernel⟩

/-! ### Hypotheses of the statements: control flow -/

/-- Descriptor `n` of the laboratory. -/
def labDesc (n : Nat) : List Byte := memGets lab.mem (0x2000 + 32 * n) 32
theorem lab_target : lab.codeTarget cur wv 0 ∧ lab.codeTarget cur wv 0xFFF :=
  ⟨⟨labDesc 1, by decide +kernel⟩, ⟨labDesc 1, by decide +kernel⟩⟩

/-- Predicate 1 holds at the even lanes, and V0:V1 names 1:100H at lanes 0–15 and 1:200H above. -/
def wvB : Wave := ((wv.putP 1 0x55555555).putV 0 fun l => if l < 16 then 0x100 else 0x200).putV 1 fun _ => 0x1000
def labB : State := lab.putWave 0 wvB
def ctlP (n : Nat) : Ctl := { ctl with pred := n }
theorem labB_ready : labB.ready cur wvB := by unfold State.ready; decide +kernel
theorem labB_target (t : Int) (h : 0 ≤ t ∧ t < 0x1000) : labB.codeTarget cur wvB t :=
  ⟨labDesc 1, by decide +kernel, h.1, by have e : (((descOf (labDesc 1)).limit : Nat) : Int) = 0x1000 := by decide +kernel
                                         omega⟩

/-- No lane, all lanes and some lanes taken; a free entry, none left, and the handler's entry. -/
def wvFull : Wave := { wv with splits := (List.range 8).map fun i => (i, launchSplit 0x40), handler := some (handlerSplit allOnes 0) }
theorem wit_branch_step : (wv.split 0).valid = true ∧ (wv.split 0).em = allOnes ∧ (0x55555555 : LaneMask) ≠ 0 ∧ 0x55555555 ≠ (wv.split 0).em ∧
    (wv.split 1).valid = false ∧ (∀ j, j < 1 → (wv.split j).valid = true) ∧ (∀ j, j < 8 → (wvFull.split j).valid = true) ∧ (wvFull.split 8).valid = true := by
  decide +kernel

/-- BRA and CALL with some lanes taken, to the first and to the last address of the segment, and with none. -/
theorem wit_direct_branches : labB.ready cur wvB ∧ (cur.split wvB).frames.length < 16 ∧
    ([(0xFFFF0 : Disp), 0x3EF].all fun p => (Instr.bra { ctl := ctlP 1, tgt := p, rc := 4 }).wf && (Instr.call { ctl := ctlP 1, d := 8, tgt := p }).wf &&
      0 ≤ cur.at wvB p && cur.at wvB p < 0x1000) = true ∧ cur.taken wvB (ctlP 1) ≠ 0 ∧ cur.taken wvB (ctlP 2) = 0 ∧ labB.codeTarget cur wvB 0 ∧ labB.codeTarget cur wvB 0xFFF :=
  ⟨labB_ready, by decide +kernel, by decide +kernel, by decide +kernel, by decide +kernel, labB_target 0 (by decide), labB_target 0xFFF (by decide)⟩

/-- BRX and CALLX with two groups of lanes, and with none. -/
theorem wit_indexed_branches : labB.ready cur wvB ∧ cur.taken wvB ctl ≠ 0 ∧ cur.taken wvB (ctlP 2) = 0 ∧
    (∀ l, l < 32 → laneOf (cur.taken wvB ctl) l = true → selOf (wvB.reg64 (.v 0) l) = wvB.codesel ∧ offOf (wvB.reg64 (.v 0) l) < 0x1000) ∧
    (Instr.brx { ctl := ctl, a := .v 0, rc := 4 }).wf = true ∧ (Instr.callx { ctl := ctl, d := 8, a := .v 0 }).wf = true ∧ labB.codeTarget cur wvB 0x200 :=
  ⟨labB_ready, by decide +kernel, by decide +kernel, by decide +kernel, by decide +kernel, by decide +kernel, labB_target 0x200 (by decide)⟩

/-- BRA.DEC at counter 1, at another and with no active lane; RET within the segment, to another with and without a link frame, with EM empty. -/
def wvR : Wave := { (wv.putS64 2 (2 ^ 44 + 0x100)).putS64 8 (9 * 2 ^ 44 + 0x40) with links := [{ bidx := 1, gen := 2, sel := 1 }] }
def labR : State := lab.putWave 0 wvR
theorem wit_counted_branch_and_return : lab.ready cur wv ∧ labR.ready cur wvR ∧ labEmpty.ready cur wvEmpty ∧ (Instr.braDec { ctl := ctl, d := 9, tgt := 4 }).wf = true ∧
    (wv.putS 9 1).s 9 = 1 ∧ (cur.split wvEmpty).em = 0 ∧ (Instr.ret { ctl := ctl, a := .s 2 }).wf = true ∧
    (∀ l, l < 32 → wvR.reg64 (.s 2) l = 2 ^ 44 + 0x100) ∧ labR.descBytes (labR.who cur wvR) 1 = .ok (labDesc 1) ∧ 0x100 < (descOf (labDesc 1)).limit ∧
    selOf (2 ^ 44 + 0x100) = wvR.codesel ∧ labR.descBytes (labR.who cur wvR) 9 = .ok (labDesc 9) ∧ 0x40 < (descOf (labDesc 9)).limit ∧
    selOf (wvR.reg64 (.s 8) 0) ≠ wvR.codesel ∧ wvR.links = [] ++ [{ bidx := 1, gen := 2, sel := 1 }] ∧ wvR.converged 0 = true ∧ wv.links = [] ∧
    (let d := { wvFull with links := wvR.links }; d.converged 0 = false) := ⟨lab_ready.1, by unfold State.ready; decide +kernel, labEmpty_ready.1, by decide +kernel⟩

/-- BRA.DEC to the address its lanes hold: one address, two, and a counter at 1. -/
theorem wit_counted_branch_in_register : labR.ready cur wvR ∧ labB.ready cur wvB ∧ labEmpty.ready cur wvEmpty ∧ (cur.split wvR).em ≠ 0 ∧
    (Instr.braDecReg { ctl := ctl, d := 9, a := .s 2 }).wf = true ∧ (Instr.braDecReg { ctl := ctl, d := 9, a := .v 0 }).wf = true ∧
    (wvR.putS 9 1).s 9 = 1 ∧ wvR.s 9 ≠ 1 ∧ (∀ l, l < 32 → wvR.reg64 (.s 2) l = 2 ^ 44 + 0x100) ∧ selOf (2 ^ 44 + 0x100) = wvR.codesel ∧
    differ (cur.split wvB).em (wvB.reg64 (.v 0)) ≠ 0 ∧ labR.codeTarget cur wvR 0x100 :=
  ⟨by unfold State.ready; decide +kernel, labB_ready, labEmpty_ready.1, by decide +kernel, by decide +kernel, by decide +kernel, by decide +kernel, by decide +kernel,
   by decide +kernel, by decide +kernel, by decide +kernel, ⟨labDesc 1, by decide +kernel⟩⟩

/-- BRAU with none, all and some lanes taken; in a register, to one target and to two. -/
theorem wit_uniform_branch : labB.ready cur wvB ∧ cur.taken wvB (ctlP 2) = 0 ∧ cur.taken wvB ctl = (cur.split wvB).em ∧ cur.taken wvB ctl ≠ 0 ∧
    cur.taken wvB (ctlP 1) ≠ 0 ∧ cur.taken wvB (ctlP 1) ≠ (cur.split wvB).em ∧ (Instr.brau { ctl := ctlP 1, tgt := 4 }).wf = true ∧
    (Instr.brauReg { ctl := ctl, a := .v 0 }).wf = true ∧ differ (cur.split wvB).em (fun l => (laneOf (cur.taken wvB ctl) l, wvB.reg64 (.v 0) l)) ≠ 0 ∧
    (∀ l, l < 32 → laneOf (cur.split wvB).em l = true → wvB.reg64 (.s 4) l = 2 * 2 ^ 44 + 0x100) ∧ labB.codeTarget cur wvB 0x100 :=
  ⟨labB_ready, by decide +kernel, by decide +kernel, by decide +kernel, by decide +kernel, by decide +kernel, by decide +kernel, by decide +kernel, by decide +kernel,
   by decide +kernel, labB_target 0x100 (by decide)⟩

theorem wit_execution_mask_and_guards : lab.ready cur wv ∧ (Instr.emrd ctl 8 true).wf = true ∧ (Instr.emwr ctl (.s 8) .or).wf = true ∧
    ([GVal.unresolved, .true, .false, .from (.s 9)].all fun v => (Instr.gset ctl 7 v).wf) = true := ⟨lab_ready.1, by decide +kernel⟩

/-- EXIT with no lane, with some and with every lane, and END. -/
theorem wit_ending_lanes : labB.ready cur wvB ∧ (Instr.exit (ctlP 2)).wf = true ∧ wvB.actLanes (cur.split wvB) 2 false = 0 ∧ (Instr.exit (ctlP 1)).wf = true ∧
    wvB.actLanes (cur.split wvB) 1 false ≠ 0 ∧ (Instr.endOp ctl).wf = true := ⟨labB_ready, by decide +kernel⟩

/-- WAITF at its limit and above it; SLEEP 0, a first SLEEP, and one whose deadline is now. -/
def wvW (r : Option Wait) : Wave := { wv.modSplit 0 fun x => { x with wait := r } with flags := [(1, 2)] }
def labW (r : Option Wait) : State := lab.putWave 0 (wvW r)
theorem wit_waiting : (labW none).ready cur (wvW none) ∧ (Instr.waitf ctl (.lit 2) 2).wf = true ∧ ((wvW none).src (cur.split (wvW none)) 0 (.lit 2)).getLsbD 1 = true ∧
    (wvW none).flag 1 ≤ 2 ∧ 1 < (wvW none).flag 1 ∧ (Instr.waitf ctl (.lit 2) 1).wf = true ∧ (Instr.sleep ctl .zero).wf = true ∧
    (wvW none).src (cur.split (wvW none)) 0 .zero = 0 ∧ (wvW none).src (cur.split (wvW none)) 0 (.lit 5) ≠ 0 ∧ (Instr.sleep ctl (.lit 5)).wf = true ∧
    lab.passed 0 = true := ⟨by unfold State.ready; decide +kernel, by decide +kernel⟩

/-- A barrier not yet reached, waited for, and passed. -/
def rec0 (k a : Nat) (d : Bool) : Wait := { kind := k, arg := a, dead := 0, done := d }
theorem wit_barriers : (labW none).ready cur (wvW none) ∧ (labW (some (rec0 0 9 false))).ready cur (wvW (some (rec0 0 9 false))) ∧
    (labW (some (rec0 2 9 true))).ready cur (wvW (some (rec0 2 9 true))) ∧ lab.team? 0 = some ((lab.team? 0).getD (Team.launched 0 0 0 0 0 0 0 0 0 1 4 0 0 0 0 false [] [] 0)) ∧
    tfind wv.ops 9 = none ∧ (cur.split (wvW (some (rec0 0 9 false)))).wait = some (rec0 0 9 false) ∧ wv.baraV.contains 15 = false ∧ serialLt 32 0 1 = true := by
  unfold State.ready; decide +kernel
/-- A barrier that one of two waves has not reached, and one that both have. -/
def labBar (a : Tab LaneMask) : State :=
  (lab.putTeam 0 { (lab.team? 0).getD (Team.launched 0 0 0 0 0 0 0 0 0 1 4 0 0 0 0 false [] [] 0) with
    bars := [(3, { phase := 0xFFFFFFFF, arrived := a })], wkeys := [(0, 0), (1, 1)] }).putWave 1 { wv with wid := 1 }
theorem wit_barrier_completes : tfind ((labBar [(0, allOnes)]).team? 0 |>.map (·.bars) |>.getD []) 3 = some { phase := 0xFFFFFFFF, arrived := [(0, allOnes)] } ∧
    ((1, 1) ∈ ((labBar [(0, allOnes)]).team? 0 |>.map (·.wkeys) |>.getD [])) ∧ ({ wv with wid := 1 } : Wave).liveLanes &&& ~~~(tget 0 [(0, allOnes)] 1) ≠ 0 ∧
    (∀ p ∈ ((labBar [(0, allOnes), (1, allOnes)]).team? 0 |>.map (·.wkeys) |>.getD []), wv.liveLanes ≠ 0 ∧
      wv.liveLanes &&& ~~~(tget 0 [(0, allOnes), (1, allOnes)] p.1) = 0) := by decide +kernel

/-! ### Hypotheses of the statements: traps, fetching, stepping -/

def trap0 (code cause : Nat) : Trap := { code := code, cause := cause, num := 0, half := 0, mask := 3, addrs := [(0, 5), (2, 7)], pc := 2 ^ 44 + 0x40 }
theorem wit_trap_entry : lab.wave? 0 = some wv ∧ wv.intrap = false ∧ lab.replaying wv.team = false ∧ wv.contains (trap0 8 1) = false ∧ wv.kern.illh = 0 ∧
    laneOf (trap0 8 1).mask 0 = true := by decide +kernel
/-- A kernel with an illegal-encoding handler, and one without. -/
theorem wit_illegal_handler : lab.wave? 0 = some wv ∧ wv.kern.illh = 0 ∧ (let w : Wave := { wv with kern := { labKern with illh := 0x80 } }
    (lab.putWave 0 w).wave? 0 = some w ∧ w.intrap = false ∧ w.kern.illh ≠ 0) := by decide +kernel
/-- A wave in a handler, at supervisor level and at user level. -/
def wvT (sup : Bool) : Wave := { labWave sup with intrap := true, handler := some (handlerSplit allOnes 0), trappc := 2 ^ 44 + 0x44 }
def labT (sup : Bool) : State := { lab.putWave 0 (wvT sup) with cur := some { cur with entry := 8 } }
theorem labT_ready : (labT true).ready { cur with entry := 8 } (wvT true) := by unfold State.ready; decide +kernel
theorem labT_calm (b : Bool) : (labT b).calm ∧ lab.calm := by cases b <;> (unfold State.calm; decide +kernel)
theorem wit_trap_in_handler : (labT true).calm ∧ (labT false).calm ∧ (labT true).wave? 0 = some (wvT true) ∧ (labT false).wave? 0 = some (wvT false) ∧
    (wvT true).intrap = true ∧ (wvT false).clvl = false ∧ (labT true).replaying 0 = false := ⟨(labT_calm true).1, (labT_calm false).1, by decide +kernel⟩
theorem wit_trap_instructions : labB.ready cur wvB ∧ wvB.actLanes (cur.split wvB) 1 false ≠ 0 ∧ wvB.actLanes (cur.split wvB) 2 false = 0 := ⟨labB_ready, by decide +kernel⟩
theorem wit_exception_return : (labT true).ready { cur with entry := 8 } (wvT true) ∧ lab.ready cur wv ∧ wv.intrap = false ∧ (let w := wvT true
    w.intrap = true ∧ w.nest = false ∧ w.restore = false ∧ w.linkent.getLsbD 31 = false ∧ w.unwind = none ∧ w.trapcode ≠ 0x11 ∧ w.tsplit < 8 ∧
    (w.split w.tsplit).valid = true) := ⟨labT_ready, lab_ready.1, by decide +kernel⟩

/-- A split at its reconvergence address, its top frame as given. -/
def wvA (k : Nat) (orig other : Bool) : Wave :=
  let f : Frame := { maska := 0xF0, maskb := 0x30, dpc := 0x80, outer := 0x100, noouter := false, orig := orig, link := 1, kind := k }
  let x : Split := { launchSplit 0x40 with lanes := 0xF, em := 0xF, rpc := 0x40, norpc := false, frames := [f] }
  { wv with splits := [(0, x), (1, { x with lanes := 0xF0, em := 0xF0, arrived := other, frames := [{ f with link := 0, orig := !orig }] })] }
theorem wit_split_arrivals : ([(0, true, true), (0, false, true), (0, true, false), (1, false, false), (2, false, false)].all fun p =>
      (let w := wvA p.1 p.2.1 p.2.2
       (lab.putWave 0 w).wave? 0 == some w && (lab.putWave 0 w).mayIssue 0 0 w && (w.split 0).atArrival && ((w.split 1).arrived == p.2.2) &&
         (w.split 1).valid && (((w.split 0).frames.map (·.link)) == [1]) && (((w.split 1).frames.map (·.link)) == [0]))) = true ∧
    (let w : Wave := { wv with splits := [(0, { launchSplit 0x40 with lanes := 0, em := 0 })] }
     (lab.putWave 0 w).mayIssue 0 0 w = true ∧ (w.split 0).atArrival = true ∧ (w.split 0).frames = []) := by decide +kernel

/-- A header whose flags read zero and one whose flag does not; a sleeper at its deadline. -/
theorem wit_clause_and_sleep : (labW none).here = some (cur, wvW none) ∧ (wvW none).flag 1 ≠ 0 ∧ (wvW none).flag 2 = 0 ∧ (2 : BitVec 12).getLsbD 1 = true ∧
    ((wvW (some (rec0 7 0 false))).split 0).wait = some (rec0 7 0 false) ∧ (labW (some (rec0 7 0 false))).wave? 0 = some (wvW (some (rec0 7 0 false))) ∧
    lab.passed (rec0 7 0 false).dead = true := by decide +kernel

/-- A fetch at the segment's limit, and one of a zero word. -/
theorem wit_instruction_fetch : lab.mayIssue 0 0 wv = true ∧ (wv.split 0).atArrival = false ∧
    (match lab.fetch (lab.waveWho 0 wv) wv (wv.split 0) with | .word .trapzZ32 _ _ _ _ _ _ => true | _ => false) = true ∧
    (let w := wv.modSplit 0 fun x => { x with pc := 0x1000 }
     (match (lab.putWave 0 w).fetch (lab.waveWho 0 w) w (w.split 0) with | .fault f => f.code == 0x08 | _ => false) = true ∧
     (lab.putWave 0 w).mayIssue 0 0 w = true) := by decide +kernel

/-- Two pending waves in the quadrant of an active one, ready since different times. -/
def labStall : State := (lab.putWave 1 { wv with active := false, rdy := some 5, wid := 1 }).putWave 2 { wv with active := false, rdy := some 6, wid := 2 }
theorem wit_stall_exchange : labStall.wave? 0 = some wv ∧ wv.active = true ∧ labStall.clocked (partOfKey 0) = true ∧
    labStall.wave? 1 = some { wv with active := false, rdy := some 5, wid := 1 } ∧ quadOfKey 1 = quadOfKey 0 ∧
    labStall.readyWave 1 { wv with active := false, rdy := some 5, wid := 1 } = true ∧
    labStall.waves = [(0, wv)] ++ (1, { wv with active := false, rdy := some 5, wid := 1 }) :: [(2, { wv with active := false, rdy := some 6, wid := 2 })] ∧
    serialLt 64 6 5 = false ∧ lab.waves.all (fun p => p.2.active) = true := by decide +kernel

/-- The step of a placed instruction, free and held by a flag; an event and a tick at the head of the agenda. -/
def stepLab (f : Tab Nat) : State := let s := State.reset.placed 64 0x006F780048405901
  s.modWave 0 fun w => { w with flags := f }
theorem wit_step_runs : ([([] : Tab Nat), [(1, 1)]].all fun f => let s := stepLab f
    let w := (s.wave? 0).getD wv
    s.agenda == [.issue 0 0] && s.mayIssue 0 0 w && !(w.split 0).atArrival &&
    (match (match ({ s with agenda := [] } : State).fetch (({ s with agenda := [] } : State).waveWho 0 w) w (w.split 0) with
      | .word i r none pc next nextw widx => some (i, r, pc, next, nextw, widx) | _ => none) with
     | some (.fadd _, r, 0, 8, 0, 0) => (w.held (w.split 0) (.fadd { bin (.v 11) (.v 8) (.v 9) .f32 with ctl := { ctl with wait := 6 } }) r == !f.isEmpty)
     | _ => false)) = true := by decide +kernel
theorem wit_step_runs_choices : (match exec (.ltimeTick 0) { lab with agenda := [], cur := none } with | .next _ => true | _ => false) = true ∧
    ({ lab with agenda := [.event (.ltimeTick 0)] } : State).agenda = .event (.ltimeTick 0) :: [] ∧ ({ lab with agenda := [.tick 3] } : State).agenda = .tick 3 :: [] := by
  decide +kernel

/-- Special registers: one that user level may read, one that it may not reach, one that it may only read, one written at supervisor level. -/
theorem wit_special_registers : lab.ready cur wv ∧ labU.ready cur wu ∧ (Instr.sysr { ctl := ctl, d := .s 8, addr := 0x00A, w64 := true }).wf = true ∧
    (sysCovers 0x00A true).all (fun a => sysAccess wu.clvl a != 0) = true ∧ (Instr.sysr { ctl := ctl, d := .v 8, addr := 0x100, w64 := false }).wf = true ∧
    (sysCovers 0x100 false).all (fun a => sysAccess wu.clvl a != 0) = false ∧ (lab.team? wv.team).isSome = true ∧ wv.c16 = false ∧
    (({ ctl := ctl, addr := 0x050, w64 := false, a := .lit 0x1FFFF } : Sysw).ok = true) ∧ wv.clvl = true ∧
    (({ ctl := ctl, addr := 0x100, w64 := false, a := .s 9 } : Sysw).ok = true) ∧ sysAccess wu.clvl 0x100 = 0 ∧
    (({ ctl := ctl, addr := 0x002, w64 := false, a := .s 9 } : Sysw).ok = true) ∧ sysAccess wu.clvl 0x002 = 1 ∧
    ([0x228, 0x22F].all fun a => ({ ctl := ctl, addr := a, w64 := false, a := .s 9 } : Sysw).ok) = true ∧ (lab.part 0).fdpend.length = 8 ∧
    (({ ctl := ctl, addr := 0x028, w64 := true, a := .s 8 } : Sysw).ok = true) ∧ (sysCovers 0x028 true).all (fun a => sysAccess wu.clvl a == 1) = true ∧
    (({ ctl := ctl, addr := 0x026, w64 := true, a := .s 8 } : Sysw).ok = true) ∧ (sysCovers 0x026 true).all (fun a => sysAccess true a == 2) = true := by
  refine ⟨lab_ready.1, labU_ready.1, ?_⟩; decide +kernel
theorem wit_supervisor_instructions : labU.ready cur wu ∧ wu.clvl = false := ⟨labU_ready.1, by decide +kernel⟩

/-! ### Hypotheses of the statements: memory -/

/-- The accesses of a memory instruction in the laboratory. -/
def accsOf (s : State) (w : Wave) (i : Instr) : List (Nat × Access) := match s.lanesOfMem cur w i with | .ok l => l | .error _ => []
def passes (s : State) (w : Wave) (i : Instr) : Bool := match s.lanesOfMem cur w i with | .ok l => l == accsOf s w i | .error _ => false
def faultOf (s : State) (w : Wave) (i : Instr) : Nat := match s.lanesOfMem cur w i with | .ok _ => 0 | .error f => f.code

/-- The same operands where two lanes act. -/
def ldM (d : Dst) (a : Reg) (b : Src) (z : MSize) : LdOp := { ldO d a b z with ctl := ctlM }
def atM (d : Dst) (op : AOp) : AtomOp := { atO d op with ctl := ctlM }
/-- An entry of the store buffer. -/
def ent (a kind n : Nat) : Entry :=
  { wave := 0, kind := kind, scope := 3, cells := (List.range n).map fun i => (a + i, 7), cairn := none, nw := false, op := 0, core := 0, slot := 0, param := 0,
    via := via0, stamp := 0, bad := false }
def wvSb (l : List SItem) : Wave := { wv with sb := l }
def labSb (l : List SItem) (p : List PItem) : State := (lab.putWave 0 (wvSb l)).modCluster 0 fun k => { k with pb := p }
/-- Loads of every form: DEVICE memory for the lanes and for an S pair, scratchpad with and without post-increment, the short form; the bytes of
DEVICE memory are at hand in the store buffer (a line at home is fetched into a slice that the spec leaves open, log 12). -/
def loads : List Instr :=
  [.ld (ldM (.v 8) (.s 4) (.v 2) .i8), .ld { ldO (.s 8) (.s 4) .zero .b64 with scope := .device }, .ldsp (ldM (.v 8) (.s 9) (.lit 0xFF0) .b128),
   .ldspPi (ldM (.v 8) (.v 2) .zero .b32), .ldspZ32 { short (.v 8) (.v 2) .w32 with pred := 3 }]
def labNear : State := labSb [.store (ent 0x80100 2 16)] []
theorem labNear_ready : labNear.ready cur (wvSb [.store (ent 0x80100 2 16)]) ∧ labNear.runs cur (wvSb [.store (ent 0x80100 2 16)]) := by
  unfold State.ready State.runs; decide +kernel
theorem wit_loads : cur.snap = none ∧ (let s := labNear
      let w := wvSb [.store (ent 0x80100 2 16)]
      loads.all fun i => i.wf && passes s w i && accsOf s w i != [] && match loadForm i with
      | some (_, _, z, scope) =>
        let s1 := s.fillAll (s.who cur w) 0 w scope z.bytes (accsOf s w i)
        (accsOf s w i).all fun (p : Nat × Access) => (s.badExpand (s.who cur w) z.bytes p.2).isNone && !s.refusesLoad (s.who cur w) 0 w scope z.bytes p.2 &&
          !(s1.accBytes (s.who cur w) 0 w scope z.bytes p.2).any (·.2)
      | none => false) = true ∧ labNear.clocked (partOfKey 0) = true := by decide +kernel
/-- A narrow load of a line with no queue, no entry and no partial, under a protocol that discards nothing at a read. -/
theorem mesi_keeps (st : Nat) : ¬protMesi.does st 0 (2 ^ 17) := by
  by_cases h : st < 16
  · have : ∀ x : Fin 16, protMesi.cellAt x.1 0 / 2 ^ 17 % 2 ≠ 1 := by decide +kernel
    exact this ⟨st, h⟩
  · have : protMesi.cellAt st 0 = 0 := by
      unfold Protocol.cellAt
      rw [List.getD_eq_getElem?_getD, List.getElem?_eq_none (Nat.le_trans (by decide +kernel) (by omega : 256 ≤ 16 * st + 0))]; rfl
    simp [Protocol.does, this]
theorem wit_loads_quiet : lab.quietFor (lab.who cur wv) 0 1 (accsOf lab wv (.ld (ldM (.v 8) (.s 4) (.v 2) .i8))) := by
  have h : ∀ p ∈ accsOf lab wv (.ld (ldM (.v 8) (.s 4) (.v 2) .i8)), ∀ i, i < 1 → (p.2.paAt i / 128 = line0 ∧ (lab.slotAt (lab.who cur wv) p.2 i).1 = 0) := by
    decide +kernel
  refine ⟨fun _ => 0, fun p hp i hi => ?_⟩
  obtain ⟨h1, h2⟩ := h p hp i hi
  rw [h1, h2]
  have n : tfind lab.dir line0 = none := by decide +kernel
  refine ⟨by decide +kernel, by decide +kernel, fun d hd => ?_, by decide +kernel, fun st => ?_⟩
  · exact absurd (n.symm.trans hd) (by simp)
  · have e : lab.protocolOf (partOfLine line0) 0 = protMesi := by decide +kernel
    simpa only [e] using mesi_keeps st
theorem wit_stores : (let i : StOp := { ctl := ctlM, d := .v 8, a := .s 4, b := .zero, size := .b32, scope := .device, nw := false }
    ([Instr.st i, .st { i with d := .lit 5, size := .b128 }, .stsp { i with a := .s 9, b := .lit 0xFF0, size := .b128 }, .stspPi { i with a := .v 2 },
      .stspZ32 { pred := 3, neg := false, sz := .w64, d := .v 8, a := .v 2 }].all fun i => i.wf && (storeForm i).isSome && passes lab wv i &&
        accsOf lab wv i != [] && (accsOf lab wv i).all fun p => !lab.refuses 0 16 p.2) = true) := by decide +kernel
/-- Atomics of every form, with and without a destination; on DEVICE memory under the protocol MESI, on TIER and on HOST. -/
def atomics : List Instr :=
  [.atom (atM (.v 8) .add), .atomB64 { atM (.v 8) .maxI with b := .v 2 }, .red (atM .zero .xor), .redB64 { atM .zero .add with b := .v 2 },
   .atomcas { ctl := ctlM, d := .v 8, a := .s 4, b := .v 0, w64 := true, scope := .device, nw := false },
   .atomcasSp { ctl := ctlM, d := .v 8, a := .v 2, b := .v 1, c := .v 3 }, .atomdp { ctl := ctlM, d := .v 8, a := .s 4, scope := .device },
   .fatom { ctl := ctlM, d := .v 8, a := .s 4, b := .v 2, bf16 := true, scope := .device, nw := false }]
theorem wit_atomics : lab.audited wv = false ∧ lab.replaying wv.team = false ∧ (atomics.all fun i => i.wf && (atomForm i).isSome && passes lab wv i && accsOf lab wv i != [] &&
      (accsOf lab wv i).all fun p => !lab.refuses 0 8 p.2 && !lab.accMarked 0 wv p.2 8) = true := by decide +kernel

def labAt (ea : DWord) : State := lab.putWave 0 (wv.putS64 4 ea)
def wvAt (ea : DWord) : Wave := wv.putS64 4 ea
/-- A fault of each check: NULLSEG, SEGV of an absent descriptor, LINKAGE, SEGV at the limit, a right, a kind, ALIGN, PAGE; and the last address that passes. -/
theorem wit_memory_faults : ([(at_ 0 0, 0x09), (at_ 200 0, 0x08), (at_ 7 0, 0x0E), (at_ 2 0xFFFD, 0x08), (at_ 2 0xFFFE, 0x08), (at_ 2 0xFFFB, 0x0B), (at_ 2 0xFFFC, 0)].all fun p =>
      faultOf (labAt p.1) (wvAt p.1) (.ld { ldO (.v 8) (.s 4) .zero .b32 with scope := .device }) == p.2) = true ∧
    faultOf (labAt (at_ 6 0)) (wvAt (at_ 6 0)) (.st { ctl := ctl, d := .v 0, a := .s 4, b := .zero, size := .b32, scope := .device, nw := false }) = 0x08 ∧
    faultOf (labAt (at_ 9 0)) (wvAt (at_ 9 0)) (.st { ctl := ctl, d := .v 0, a := .s 4, b := .zero, size := .b32, scope := .device, nw := false }) = 0x08 ∧
    (Instr.ld { ldO (.v 8) (.s 4) .zero .b32 with scope := .device }).wf = true := by decide +kernel
theorem wit_access_checks : let u := lab.who cur wv
    let n : Need := { right := 0, kinds := kindsAll, size := 4, align := 4, write := false }
    selOf (at_ 0 0) = 0 ∧ (match lab.descBytes u 200 with | .bad => true | _ => false) = true ∧ lab.descBytes u 2 = .ok (labDesc 2) ∧ lab.descBytes u 3 = .ok (labDesc 3) ∧
    (descOf (labDesc 7)).detached = true ∧ (descOf (labDesc 2)).detached = false ∧ hasRight (descOf (labDesc 2)) 0 = true ∧ hasRight (descOf (labDesc 6)) 1 = false ∧
    (descOf (labDesc 2)).kind ∈ n.kinds ∧ (descOf (labDesc 9)).kind ∉ kindsST ∧ hasRight (descOf (labDesc 9)) 1 = true ∧ (descOf (labDesc 3)).kind = 1 ∧ (descOf (labDesc 2)).ccode = false ∧
    (match lab.translate u 2 2 (lab.linear u (descOf (labDesc 2)) 0 0x100) with | .page _ _ _ wp => !wp | _ => false) = true ∧
    (match lab.translate u 2 3 (lab.linear u (descOf (labDesc 2)) 0 0x100) with | .fault k => k == 3 | _ => false) = true := by decide +kernel

/-- A load's byte from each source: the store buffer, the scratch bank, the publish buffer, a copy, the home. -/
def copy0 : Copy :=
  { line := 0x80100 / 128, bytes := List.replicate 128 9, marks := [], lease := false, wts := 0, rts := 0, expired := [], owned := false, stored := false,
    tags := [{ via := via0, wp := false, cairn := none }] }
theorem wit_load_sources : (wvSb [.store (ent 0x80100 2 4)]).sb = [] ++ .store (ent 0x80100 2 4) :: [] ∧ (ent 0x80100 2 4).byteAt 0x80103 ≠ none ∧ (ent 0x80100 2 4).byteAt 0x80104 = none ∧
    ((labSb [] [.store (ent 0x80100 2 4)]).cluster 0).pb = [] ++ .store (ent 0x80100 2 4) :: [] ∧ lab.replayByte 0 0x80100 = none ∧ (lab.team? 0).isSome = true ∧
    (lab.modCluster 0 fun k => { k with copies := [copy0] }).copyFor 0 2 0 0x80100 via0 = some copy0 ∧ lab.copyFor 0 2 0 0x80100 via0 = none ∧
    (HItem.store (ent 0x80100 2 4)).entry? = some (ent 0x80100 2 4) := by decide +kernel

/-- Store-buffer items that may leave, of each kind, and one held behind another. -/
theorem wit_store_buffer_drains : ([SItem.store (ent 0x80100 2 4), .store (ent 0x10 1 4), .marker 2 none 0, .marker 1 (some (0x81000, true)) 0, .marker 3 none 0].all fun x =>
      (labSb [x] []).wave? 0 == some (wvSb [x]) && (wvSb [x]).sb[0]? == some x) = true ∧ lab.replaying 0 = false ∧
    (let l := [SItem.store (ent 0x80100 2 4), .store (ent 0x80102 2 4)]
     l[1]? = some (.store (ent 0x80102 2 4)) ∧ (ent 0x80100 2 4).byteAt 0x80103 ≠ none ∧ (ent 0x80102 2 4).byteAt 0x80103 ≠ none) := by decide +kernel
/-- The same for a publish buffer and a home queue. -/
theorem wit_publish_buffer_drains : ((labSb [] [.store (ent 0x80100 2 4)]).cluster 0).pb[0]? = some (.store (ent 0x80100 2 4)) ∧
    (labSb [] [.store (ent 0x80100 2 4)]).wantsOwner 0 (ent 0x80100 4 4) = false ∧ ((labSb [] [.barrier 0 3 none 0]).cluster 0).pb[0]? = some (.barrier 0 3 none 0) ∧
    (let s : State := { lab with hq := [(0x80100 / 128, [.store (ent 0x80100 4 4)])] }
     tget [] s.hq (ent 0x80100 4 4).line = .store (ent 0x80100 4 4) :: [] ∧ s.downAt 0x80100 = false ∧ kindHasProt (ent 0x80100 4 4).kind = false) ∧
    (let s : State := { lab with hq := [(0x80100 / 128, [.store (ent 0x80100 2 4)])] }
     let d := s.dirOf (0x80100 / 128) (s.slotFor 0 0)
     d.slot = s.slotFor 0 0 ∧ s.partialCores (0x80100 / 128) = [] ∧ (s.protocolOf 0 d.slot).cellAt d.st 2 / 2 ^ 6 % 2 = 1 ∧
     (s.protocolOf 0 d.slot).cellAt d.st 2 / 2 ^ 17 % 2 = 0) := by decide +kernel

theorem wit_atomic_takes_effect : ([(1, 0x10), (2, 0x80100), (4, 8 * 2 ^ 48)].all fun p =>
      let x : LaneAtom := { lane := 3, kind := p.1, addr := p.2, width := 32, fn := 0, opnd := 1, cmp := 0, nw := false, cairn := none, slot := 0, param := 0, ea := at_ 2 0x100, cut := 128, addr2 := 0, via := via0 }
      let q : Pend := { op := 1, regs := [], writes := [], atoms := [x], dst := some (.v 8), wide := false, fpx := 0 }
      let w : Wave := { wv with pend := [q] }
      let s := lab.putWave 0 w
      s.wave? 0 == some w && w.pend[0]? == some q && !s.atomCovered 0 w x && !s.replaying 0 && tget [] s.hq (p.2 / 128) == [] &&
        (p.1 != 2 || let d := s.dirOf (p.2 / 128) (s.slotFor 0 0)
          d.slot == s.slotFor 0 0 && d.owner == none && s.partialCores (p.2 / 128) == [] && (s.protocolOf 0 d.slot).cellAt d.st 3 / 2 ^ 6 % 2 == 1)) = true ∧
    (let x : LaneAtom := { lane := 3, kind := 2, addr := 0x80100, width := 32, fn := 0, opnd := 1, cmp := 0, nw := false, cairn := none, slot := 0, param := 0, ea := at_ 2 0x100, cut := 128, addr2 := 0, via := via0 }
     (labSb [.store (ent 0x80100 2 4)] []).atomCovered 0 (wvSb [.store (ent 0x80100 2 4)]) x = true) := by decide +kernel

/-! ### Hypotheses of the statements: homes, queues, cairns, ranges, protocols -/

/-- A directory entry of the line at 80100H under MESI. -/
def dir0 (st : Nat) (owner : Option Nat) (sharers : List Nat) : Dir :=
  { slot := 0, st := st, sharers := sharers, owner := owner, wts := 0, rts := 0, fresh := true, partials := [] }
def labDir (d : Dir) : State := { lab with dir := [(line0, d)] }
def cell (s : State) (d : Dir) (ev act : Nat) : Bool := (s.protocolOf 0 d.slot).cellAt d.st ev / 2 ^ act % 2 == 1

/-- A range operation with one line left and with two, of each kind. -/
def job (k : Nat) (l : List Nat) : RangeJob := { wave := 0, op := 1, team := 0, wid := 0, kind := k, lines := l }
theorem wit_range_lines : ([0, 1, 2].all fun k => [[line0], [line0, line0 + 1]].all fun l =>
      let s := lab.modPart 0 fun p => { p with ranges := [job k l] }
      (s.part 0).ranges == [job k l] && ((List.range 4).all fun n => n == 0 || (s.part n).ranges == []) && l.contains line0 && s.wave? 0 == some wv &&
      (s.cluster 0).msgs == [] && (s.part (partOfLine line0)).protjobs == []) = true := by decide +kernel

/-- Messages of the homes, requests and evictions. -/
def pend0 (k a : Nat) : Pend :=
  { op := 1, regs := [], writes := [], dst := none, wide := false, fpx := 0,
    atoms := [{ lane := 0, kind := k, addr := a, width := 32, fn := 16, opnd := 0, cmp := 0, nw := false, cairn := none, slot := 0, param := 0, ea := at_ 2 0x100, cut := 128, addr2 := 0, via := via0 }] }
theorem wit_replies : (lab.modCluster 0 fun k => { k with msgs := [.fill copy0 0] }).cluster 0 |>.msgs |> (· = .fill copy0 0 :: []) := by decide +kernel
theorem wit_messages : ((lab.modCluster 0 fun k => { k with msgs := [.inv line0] }).cluster 0).msgs = .inv line0 :: [] ∧
    ((lab.modCluster 0 fun k => { k with msgs := [.push line0 3 [1] []] }).cluster 0).msgs = .push line0 3 [1] [] :: [] := by decide +kernel
/-- A cluster with a CACHE bank in every slice caches whatever slice a line has. -/
theorem cached_of (s : State) (k : Nat) (v : Via)
    (h : ∀ b, b < 4 → (((s.cluster k).bank b).mode == 0 && !s.bankGone k b && !(s.cluster k).switches.any (·.bank == b)) = true) : s.cached k v = true := by
  unfold State.cached
  rw [List.any_eq_true]
  exact ⟨0, by decide, by simpa using h _ (Nat.mod_lt _ (by decide))⟩
theorem wit_requests :
    (let s := lab.putWave 0 { wv with pend := [pend0 2 0x80100] }
     let d := s.dirOf line0 (s.slotFor 0 0)
     (match s.prefWave 0 line0 with | some (key, _, x) => key == 0 && x.addr / 128 == line0 && kindHasProt x.kind | none => false) = true ∧
     d.slot = s.slotFor 0 0 ∧ d.owner = none ∧ s.partialCores line0 = [] ∧ tget [] s.hq line0 = [] ∧
     ((s.protocolOf 0 d.slot).cellAt d.st 0 / 16 % 4 = 1 ∨ (s.protocolOf 0 d.slot).cellAt d.st 0 / 16 % 4 = 2)) ∧
    (let s := labSb [] [.store (ent 0x80100 2 4)]
     let d := s.dirOf line0 (s.slotFor 0 0)
     d.slot = s.slotFor 0 0 ∧ cell s d 1 13 = true ∧ cell s d 1 12 = false) := by decide +kernel
theorem wit_wants_owner : (labSb [] [.store { ent 0x80100 2 4 with scope := 2 }]).wantsOwner 0 { ent 0x80100 2 4 with scope := 2 } = true ∧
    (lab.putWave 0 { wv with pend := [pend0 2 0x80100] }).cached 0 via0 = true := by
  refine ⟨?_, cached_of _ _ _ (by decide +kernel)⟩
  unfold State.wantsOwner
  rw [cached_of _ _ _ (by decide +kernel)]
  decide +kernel
theorem wit_evictions :
    (let s := (labDir (dir0 1 none [0])).modCluster 0 fun k => { k with copies := [copy0] }
     tfind s.dir line0 = some (dir0 1 none [0]) ∧ s.dirOf line0 (s.slotFor 0 0) = dir0 1 none [0] ∧ (dir0 1 none [0]).slot = s.slotFor 0 0 ∧
     (s.cluster 0).pb = [] ∧ cell s (dir0 1 none [0]) 5 12 = true ∧ cell s (dir0 1 none [0]) 5 13 = false ∧ (s.cluster 0).copies = [copy0]) ∧
    (let s := labDir (dir0 3 (some 0) [])
     tfind s.dir line0 = some (dir0 3 (some 0) []) ∧ (dir0 3 (some 0) []).owner = some 0) ∧
    PItem.ofLine (.store (ent 0x80100 2 4)) line0 = true := by decide +kernel

/-- A FIFO bank of context 0, empty, with words, with a waiting request. -/
def labQ (words : List (Word × Bool)) (wait : List QReq) : State :=
  lab.modCluster 0 fun k => { k with banks := [(5, { mode := 2, ctx := 0, words := words, wait := wait })] }
def qreq (push : Bool) : QReq := { wave := 0, entry := 0, push := push, words := if push then [1, 2] else [], dests := if push then [] else [(8, 0), (8, 1)], op := 1 }
theorem wit_queues : (labQ [] []).ready cur wv ∧ lab.audited wv = false ∧ wv.actLanes (cur.split wv) 15 false ≠ 0 ∧ wv.actLanes (cur.split wv) 2 false = 0 ∧
    (wv.src (cur.split wv) 0 (.lit 5)).toNat / 128 % 64 / 12 = 0 ∧ (((labQ [] []).cluster 0).bank 5).mode = 2 ∧ (((labQ [] []).cluster 0).bank 5).ctx = (lab.who cur wv).ctx ∧
    ((lab.cluster 0).bank 5).mode ≠ 2 ∧ (((labQ [] []).cluster 0).bank 5).wait = [] ∧ 64 ≤ Config.fifoWords ∧ (cur.split wv).wait = none ∧
    (((labQ (List.replicate 64 (7, false)) []).cluster 0).bank 5).words.length = 64 ∧ (((labQ [] [qreq false]).cluster 0).bank 5).wait = qreq false :: [] ∧
    (qreq false).push = false ∧ ((labQ [] []).cluster 0 |>.bank 5).words.length < (qreq false).dests.length := ⟨by unfold State.ready; decide +kernel, by decide +kernel⟩
theorem wit_queue_service : (((labQ [] [qreq true]).cluster 0).bank 5).wait = qreq true :: [] ∧ (labQ [] [qreq true]).wave? (qreq true).wave = some wv ∧
    0 + (qreq true).words.length ≤ Config.fifoWords ∧ (((labQ [(1, false), (2, false)] [qreq false]).cluster 0).bank 5).wait = qreq false :: [] ∧
    (qreq false).dests.length ≤ 2 ∧ (([(1, false), (2, false)] : List (Word × Bool)).take 2).all (fun x => !x.2) = true := by decide +kernel

/-- A cairn at 2:1000H: free, held, and with somebody waiting; a release and a grant at its home. -/
def wvC : Wave := wv.putS64 4 (at_ 2 0x1000)
def labC (v : Nat) : State := (lab.putWave 0 wvC).rawPut 0x81000 (leBytes 4 v)
theorem labC_ready : (labC 0).ready cur wvC ∧ (labC (2 ^ 16)).ready cur wvC := by unfold State.ready; decide +kernel
theorem wit_cairns : (labC 0).ready cur wvC ∧ (labC (2 ^ 16)).ready cur wvC ∧ ([0, 2 ^ 16].all fun v => let s := labC v
      (match s.cairnAccess cur wvC 4 with | .ok x => x.pa == 0x81000 && x.pa % 64 == 0 | .error _ => false) && !s.audited wvC && s.homeNat 0x81000 4 == v &&
      tget [] s.cairns 0x81000 == [] && tget [] s.hq (0x81000 / 128) == [] && s.homeNat 0x81008 8 == 0 && s.mon == []) = true ∧
    ((0 : Nat).testBit 16 = false ∧ (0 : Nat) % 2 ^ 16 < 65535 ∧ ((2 ^ 16 : Nat).testBit 16 = true)) ∧ (cur.split wvC).wait = none := ⟨labC_ready.1, labC_ready.2, by decide +kernel⟩
theorem wit_cairn_homes :
    (let r : RelMsg := { ex := true, scope := 3, wave := 0, op := 1 }
     let s : State := { labC (2 ^ 16) with hq := [(0x81000 / 128, [.release 0x81000 r])] }
     tget [] s.hq (0x81000 / 128) = .release 0x81000 r :: [] ∧ tget [] s.cairns 0x81000 = [] ∧ tfind s.dir (0x81000 / 128) = none) ∧
    (let r : CairnReq := { wave := 0, entry := 0, ex := false }
     let s : State := { (labC 65534).rawPut 0x81004 (leBytes 4 1) with cairns := [(0x81000, [r])] }
     tget [] s.cairns 0x81000 = [r] ∧ s.wave? r.wave = some wvC ∧ s.homeNat 0x81008 8 = 0 ∧ (s.homeNat 0x81000 4).testBit 16 = false ∧
     s.homeNat 0x81000 4 % 2 ^ 16 < 65535 ∧ 0 < s.homeNat 0x81004 4) := by decide +kernel
theorem wit_fences : lab.ready cur wv ∧ (cur.split wv).wait = none ∧ (labW (some (rec0 10 9 false))).ready cur (wvW (some (rec0 10 9 false))) ∧
    tfind (wvW (some (rec0 10 9 false))).ops 9 = none := by unfold State.ready; decide +kernel

/-- WAITV on DEVICE, HOST and scratch words: unequal, equal with entries left and with none, armed and woken; WAKE. -/
def waitO : WaitvOp := { ctl := ctl, d := 8, a := 4, b := 10, w64 := false }
theorem wit_waitv : ([at_ 2 0x100, at_ 5 0x100, at_ 3 0x100].all fun ea => let s := labAt ea
      let w := wvAt ea
      (match s.checkLanes (s.who cur w) { right := 0, kinds := kindsWait, size := 4, align := 4, write := false } [0] true (cur.split w).em (fun _ => .ok (w.s64 4)) with
        | .ok [(0, a)] => !s.accMarked 0 w a 4 && !s.refuses 0 4 a && (a.kind == 1 || 4 ≤ a.cut) && (a.kind == 1 || a.kind == 4 && tget [] s.hq (a.pa / 128) == [] ||
            let d := s.dirOf (a.pa / 128) (s.slotFor 0 (s.slotOf (s.who cur w) a).1)
            d.slot == s.slotFor 0 (s.slotOf (s.who cur w) a).1 && d.owner == none && s.partialCores (a.pa / 128) == [])
        | _ => false) && !s.audited w && (cur.split w).wait == none && (w.sb == []) && ((s.cluster 0).pb == [])) = true ∧
    (wvAt (at_ 2 0x100)).s 10 = 0 ∧ (wv.putS 10 1).s 10 ≠ 0 ∧ ((lab.team? 0).map (·.monq)) = some 4 ∧ lab.mon.length < 4 := by decide +kernel
def mon0 : Mon := { wave := 0, entry := 0, team := none, line := line0 }
theorem wit_waits_end : (let s : State := { labW (some (rec0 8 0 false)) with mon := [mon0] }
     s.wave? 0 = some (wvW (some (rec0 8 0 false))) ∧ mon0 ∈ s.mon) ∧ (let r : Wait := { kind := 8, arg := 0, dead := 3, done := false }
     let s : State := { labW (some r) with mon := [mon0], gts := 3 }
     s.wave? 0 = some (wvW (some r)) ∧ r.dead ≠ 0 ∧ s.passed r.dead = true) ∧ (labW (some (rec0 8 2 true))).here = some (cur, wvW (some (rec0 8 2 true))) := by
  decide +kernel
theorem wit_wake : (match (labAt (at_ 2 0x100)).checkLanes (lab.who cur wv) { right := 0, kinds := kindsWait, size := 1, align := 1, write := false }
      (lanesOf ((wvAt (at_ 2 0x100)).actLanes (cur.split wv) 1 false)) false 0 (fun l => .ok ((wvAt (at_ 2 0x100)).reg64 (.s 4) l)) with | .ok l => l == [] | .error _ => false) = true ∧
    (match (labAt (at_ 2 0x100)).checkLanes (lab.who cur wv) { right := 0, kinds := kindsWait, size := 1, align := 1, write := false } [7] false 128
      (fun l => .ok ((wvAt (at_ 2 0x100)).reg64 (.s 4) l)) with | .ok [(7, a)] => a.pa / 128 == line0 && a.kind == 2 | _ => false) = true ∧ wv.sb = [] ∧ lab.hq = [] := by decide +kernel

/-- Ranges of no byte and of two lines; PREF; BANKCFG's causes, a busy bank, a bank in its own mode and others. -/
theorem wit_ranges : lab.ready cur wv ∧ ([(0, 0), (0x100, 256)].all fun p => let s := labAt (at_ 2 p.1)
      let w := wvAt (at_ 2 p.1)
      [(1, [2, 3]), (0, [2, 3, 4, 5])].all fun q =>
        match s.rangeCheck (s.who cur w) q.1 q.2 p.2 (w.s64 4) with | .ok _ => true | .error _ => p.2 == 0) = true ∧ wv.sb = [] := ⟨lab_ready.1, by decide +kernel⟩
theorem wit_range_lists : (match (labAt (at_ 2 0x100)).rangeCheck (lab.who cur wv) 0 [2, 3, 4, 5] 256 (at_ 2 0x100) with
    | .ok a => lab.linLines (lab.who cur wv) 2 a.kind (a.desc.base + 0x100) 256 == [line0, line0 + 1] | .error _ => false) = true ∧
    (match (labAt (at_ 2 0x100)).rangeCheck (lab.who cur wv) 0 [2, 3, 4, 5] 0 (at_ 2 0x100) with | .ok _ => true | .error _ => false) = true := by decide +kernel
theorem wit_pref : (match wv.laneEa (cur.split wv) (.s 4) .zero 31 with
    | .ok ea => (match lab.checkAccess (lab.who cur wv) { right := 0, kinds := [2, 3, 4, 6], size := 1, align := 1, write := false } 31 ea with | .ok a => a.kind != 6 | _ => false)
    | .error _ => false) = true ∧ laneOf (wv.actLanes (cur.split wv) 15 false) 31 = true := by decide +kernel
theorem wit_bankcfg : ([0x10000164, 0x20000005, 0x00000005].all fun v => lab.bankCause 0 v == 0 && !lab.bankBusy (v / 256 % 64) (v % 128)) = true ∧
    lab.bankCause 0 0x20051164 ≠ 0 ∧ ((lab.cluster 1).bank 0x64).mode = 1 ∧ ((lab.cluster 0).bank 5).mode = 0 ∧ (lab.cluster 0).copies = [] ∧ wv.clvl = true ∧
    ((lab.modCluster 0 fun k => { k with copies := [copy0] }).cluster 0).lines ≠ [] ∧ lab.bankCause 0 0x20000005 = 0 := by decide +kernel
theorem wit_bank_lines : let x : Switch := { bank := 5, mode := 2, ctx := 0, team := 0, wid := 0, op := 1, todo := [line0, line0 + 1] }
    ((lab.modCluster 0 fun k => { k with switches := [x] }).cluster 0).switches = [x] ∧ line0 ∈ x.todo ∧ x.todo.filter (· ≠ line0) ≠ [] ∧
    ({ x with todo := [line0] } : Switch).todo.filter (· ≠ line0) = [] := by decide +kernel

/-- PROTLD of nothing and of an image that fails; PROTSEL of an empty range, of a good one, and of two bad ones; LTADV; a tick. -/
theorem wit_protocols : lab.ready cur wv ∧ wv.clvl = true ∧ selOf ((wv.putS64 4 0).s64 4) = 0 ∧ selOf (wv.s64 4) ≠ 0 ∧
    (match (labAt (at_ 3 0x100)).structRead (lab.who cur wv) 0 (wvAt (at_ 3 0x100)) imageBytes 128 1 (at_ 3 0x100) with
      | .ok (s1, b) => imageCause b 6 != 0 && s1.parts == lab.parts && s1.wave? 0 == some (wvAt (at_ 3 0x100)) | .error _ => false) = true ∧
    lab.ctxRec 0 0 ≠ none ∧ lab.audited wv = false ∧ (lab.who cur wv).part = 0 ∧ ((lab.modCore 0 fun c => { c with period := 1 }).core 0).period ≠ 0 := by
  refine ⟨lab_ready.1, ?_⟩; decide +kernel
theorem wit_protsel : let u := lab.who cur wv
    lab.protselFault u (at_ 2 0) 0x1000 1 = none ∧ ((lab.protselFault u (at_ 2 0) 0x1000 0x11).map (·.1)) = some 4 ∧
    ((lab.protselFault u (at_ 200 0) 0x1000 1).map (·.1)).isSome = true ∧ (lab.ctxRec 0 0).isSome = true ∧ u.part = 0 ∧
    (0x7000 + 16 * 5) % 16 = 0 ∧ tget [] lab.hq (0x7050 / 128) = [] ∧ tfind lab.dir (0x7050 / 128) = none ∧ (lab.segLines u (at_ 2 0) 0x1000).length = 32 ∧
    (∀ l ∈ lab.segLines u 0 0 ++ lab.segLines u (at_ 2 0) 0x1000, lab.forceLine l = lab ∧ tfind lab.dir l = none) := by decide +kernel
theorem wit_protocol_install : let j : ProtJob := { slot := 6, tab := none, team := 0, wid := 0, op := 1 }
    ((lab.modPart 0 fun p => { p with protjobs := [j] }).part 0).protjobs = j :: [] := by decide +kernel

/-! ### Hypotheses of the statements: links, bindings, segments -/

/-- The laboratory with a link table at 100H of segment 1 (link 0 names binding entry 2), and that entry at state and generation `e`, naming segment 9. -/
def labL (e : Nat) : State :=
  (((lab.rawPut 0x40018 (leBytes 4 0x100 ++ leBytes 2 1 ++ leBytes 2 0)).rawPut 0x40100 (leBytes 4 2 ++ leBytes 4 0x80 ++ leBytes 4 7 ++ leBytes 4 0)).rawPut
    0x6020 (leBytes 4 e)).rawPut 0x6024 (leBytes 4 9)
def link0 : Link := { bidx := 2, nlen := 0, noff := 0x80, ekind := 7, bad := false }
theorem labL_ready : (labL 4).ready cur wv ∧ (labL 5).ready cur wv ∧ (labL 6).ready cur wv ∧ (labL 7).ready cur wv := by unfold State.ready; decide +kernel
theorem wit_linking : (labL 6).ready cur wv ∧ (cur.split wv).parked = false ∧ ([4, 5, 6, 7].all fun e => let s := labL e
      (match s.linkAt (s.who cur wv) 0 wv 0 with | .ok l => l == some link0 | _ => false) && s.entryPA 0 0 2 == some 0x6020 && !s.marked 0x6020 16 &&
      tget [] s.hq (0x6020 / 128) == [] && tfind s.dir (0x6020 / 128) == none && s.mon == [] && s.homeNat 0x6020 4 == e && s.homeNat 0x6024 4 % 2 ^ 20 == 9) = true ∧
    kindHasProt (regionKind 0x6020) = true ∧ (wv.src (cur.split wv) 0 (.lit 0)).toNat % 2 ^ 16 = 0 ∧ wv.actLanes (cur.split wv) 15 false ≠ 0 ∧
    cur.taken wv ctl = (cur.split wv).em ∧ cur.taken wv { ctl with pred := 2 } = 0 ∧ cur.taken wv { ctl with pred := 3 } ≠ 0 ∧
    cur.taken wv { ctl with pred := 3 } ≠ (cur.split wv).em ∧ wv.converged 0 = true ∧ wv.links.length < 8 ∧
    (let s := (labL 6).agentWrite 0x6028 (leBytes 4 1) false
     match s.descBytes (lab.who cur wv) 9 with | .ok b => (descOf b).kind == 6 && (descOf b).x && decide (0x40 < (descOf b).limit) | _ => false) = true :=
  ⟨labL_ready.2.2.1, by decide +kernel⟩

/-- BIND and UNBIND: before and behind the release; entries in each state; a bad descriptor. -/
def wvRec (k : Nat) : Wave := wv.modSplit 0 fun x => { x with wait := some { kind := k, arg := 9, dead := 0, done := false } }
def labRec (s : State) (k : Nat) : State := s.putWave 0 (wvRec k)
theorem labRec_ready : (labRec (labL 5) 0).ready cur (wvRec 0) ∧ (labRec lab 3).ready cur (wvRec 3) ∧ (labRec lab 12).ready cur (wvRec 12) := by unfold State.ready; decide +kernel
theorem wit_binding : (labL 4).ready cur wv ∧ (labRec (labL 5) 0).ready cur (wvRec 0) ∧ wv.clvl = true ∧
    ((labL 5).bindCause 0 0 2 (some 2) = 0 ∧ (labL 5).bindCause 0 0 2 none = 0 ∧ (labL 5).bindCause 0 0 2 (some 7) ≠ 0 ∧ (labL 5).bindCause 0 0 9 none ≠ 0) ∧
    (cur.split wv).wait = none ∧ (tfind (wvRec 0).ops 9 = none) ∧ (labL 5).entryPA 0 0 2 = some 0x6020 ∧ (labL 5).entryPA 0 0 9 = none ∧
    (labL 5).descPA 0 0 true 2 = some 0x2040 ∧ 0x2040 % 32 = 0 ∧ 0x2040 / 128 ≠ 0x6020 / 128 ∧ (labL 5).hq = [] ∧ (labL 5).dir = [] ∧
    ([4, 5, 7].all fun e => (labL e).homeNat 0x6020 4 % 4 != 2) = true ∧ ((labL 6).putEntry 0x6020 0 2 0 0).descPA 0 0 true 9 = some 0x2120 := 
  ⟨labL_ready.1, labRec_ready.1, by decide +kernel⟩

/-- SEGLD, SEGUPD, SEGCHK, SHOOT, SHOOTW, ICINV. -/
def wvDesc (n : List Byte) : Wave := (List.range 8).foldl (fun w i => w.putS (16 + i) (BitVec.ofNat 32 (natAt n (4 * i) 4))) wv
theorem wit_segments : lab.ready cur wv ∧ (labRec lab 3).ready cur (wvRec 3) ∧ (labRec lab 12).ready cur (wvRec 12) ∧ lab.namedDesc (lab.who cur wv) 0 2 = some 0x2040 ∧
    lab.namedDesc (lab.who cur wv) 0 200 = none ∧ lab.marked 0x2040 32 = false ∧ lab.hq = [] ∧ lab.dir = [] ∧ (lab.who cur wv).part = 0 ∧ wv.clvl = true ∧
    (let old := descOf (lab.homeBytes 0x2040 32)
     let n := lab.homeBytes 0x2040 32
     (((List.range 8).map fun i => leBytes 4 ((wvDesc n).s (16 + i)).toNat).flatten = n) ∧ segupdCause old (descOf n) n = 0 ∧
     segupdCause old (descOf (lab.homeBytes 0x20E0 32)) (List.replicate 32 255) ≠ 0) ∧
    tfind (wvRec 3).ops 9 = none ∧ (cur.split (wvRec 3)).wait ≠ none ∧ (lab.part 0).waiting = [] ∧
    (let s := lab.modPart 0 fun p => { p with waiting := [{ id := 0, left := [3], xrev := none, fin := none }], shootctr := 1 }
     (s.part 0).waiting ≠ [] ∧ (s.part 0).waiting.all (fun z => decide (z.id < (s.part 0).shootctr)) = true) ∧
    (match (labAt (at_ 1 0x80)).rangeCheck (lab.who cur wv) 2 [6] 256 (at_ 1 0x80) with | .ok _ => true | .error _ => false) = true := by
  refine ⟨lab_ready.1, labRec_ready.2.1, labRec_ready.2.2, ?_⟩; decide +kernel

/-- Page walks, shootdowns, pins, wakes. -/
theorem wit_translation_units : (lab.ctxRec 0 0).map recPtroot = some 0 ∧ (match lab.walk 2 0x80100 3 0 with | .page _ _ _ _ => true | _ => false) = true ∧
    (let x : Shoot := { id := 0, mode := 2, ctx := 0, sel := 2 }
     ((lab.modCluster 0 fun k => { k with shoots := [x] }).cluster 0).shoots = x :: []) ∧
    (let f : LFrame := { bidx := 2, gen := 1, sel := 9 }
     let s := ((labL 6).rawPut 0x6028 (leBytes 4 2)).modPart 0 fun p => { p with unpins := [(0, f, false)] }
     (s.part 0).unpins = (0, f, false) :: [] ∧ s.entryPA 0 0 f.bidx = some 0x6020 ∧ 0 < s.homeNat 0x6028 4 ∧ s.homeNat 0x6020 4 / 4 = f.gen ∧
     s.homeNat 0x6020 4 / 4 ≠ ({ f with gen := 2 } : LFrame).gen ∧ s.hq = [] ∧ s.dir = []) ∧
    (let s := labRec lab 9
     s.wave? 0 = some (wvRec 9) ∧ ((wvRec 9).split 0).wait = some { kind := 9, arg := 9, dead := 0, done := false }) := by decide +kernel

/-! ### Hypotheses of the statements: recovery -/

/-- A wave in a handler, with a frame and a waiting split; one that ends its save, with a load outstanding and with none. -/
def wvH : Wave :=
  { wv with
    intrap := true, trapcode := 0x13, trapinfo := 1,
    splits := [(0, { launchSplit 0x40 with frames := [{ maska := 1, maskb := 2, dpc := 0x40, outer := 0, noouter := true, orig := true, link := 0, kind := 0 }] }),
               (1, { launchSplit 0x40 with wait := some { kind := 8, arg := 1, dead := 5, done := false } })] }
def labIn : State := lab.putWave 0 wvH
theorem labIn_ready : labIn.ready cur wvH ∧ (lab.putWave 0 { wvH with pend := [pend0 0 0x80100] }).ready cur { wvH with pend := [pend0 0 0x80100] } := by
  unfold State.ready; decide +kernel
def labH : State := lab.modTeam 0 fun t => { t with handles := [(3, { off := 0x80, gen := 5, loaded := true }), (5, { off := 0, gen := 1, loaded := true })] }
theorem labH_ready : labH.ready cur wv := by unfold State.ready; decide +kernel
theorem wit_split_tables : labIn.ready cur wvH ∧ lab.ready cur wv ∧ labH.ready cur wv ∧ (labIn.team? wvH.team).isSome = true ∧ wvH.intrap = true ∧ wv.intrap = false ∧
    (wvH.split 0).valid = true ∧ (wvH.split 2).valid = false ∧ ((wvH.split 0).frames[0]?).isSome = true ∧ ((wvH.split 1).wait).isSome = true ∧
    ((labH.team? 0).map fun t => (tfind t.handles 3).isSome) = some true ∧ wv.clvl = true ∧ wu.clvl = false ∧ labU.ready cur wu := by
  refine ⟨labIn_ready.1, lab_ready.1, labH_ready, ?_, ?_, ?_, ?_, ?_, ?_, ?_, ?_, ?_, ?_, labU_ready.1⟩ <;> decide +kernel
theorem wit_flag_writes : labIn.ready cur wvH ∧ (lab.putWave 0 { wvH with pend := [pend0 0 0x80100] }).ready cur { wvH with pend := [pend0 0 0x80100] } ∧
    (wvH.clvl = true ∧ wvH.intrap = true ∧ (wvH.trapcode = 0x10 ∨ wvH.trapcode = 0x13) ∧ wvH.trapinfo % 32 = 1) ∧ wv.intrap = false ∧ wvH.sb = [] ∧ wvH.pend = [] ∧
    (labIn.cluster 0).pb = [] ∧ labIn.hq = [] ∧ (wv.src (cur.split wv) 0 (.lit 63)).toNat ≤ 63 ∧ 63 < (wv.src (cur.split wv) 0 (.lit 64)).toNat :=
  ⟨labIn_ready.1, labIn_ready.2, by decide +kernel⟩

/-- Regions, capacities, signatures, poison on scratchpad and DEVICE words. -/
def frame0 : CFrame := { off := 0x80, sel := 1, team := true, lsdepth := 0 }
def wvCf (n : Nat) : Wave := { wv with cframes := List.replicate n frame0 }
theorem wvCf_ready : (lab.putWave 0 (wvCf 4)).ready cur (wvCf 4) ∧ (lab.putWave 0 (wvCf 1)).ready cur (wvCf 1) := by unfold State.ready; decide +kernel
theorem wit_containment : (lab.putWave 0 (wvCf 4)).ready cur (wvCf 4) ∧ (lab.putWave 0 (wvCf 1)).ready cur (wvCf 1) ∧ lab.ready cur wv ∧ labB.codeTarget cur wvB 0xFFF ∧
    4 ≤ (wvCf 4).cframes.length ∧ (wvCf 1).cframes = [] ++ [frame0] ∧ wv.cframes = [] ∧ (lab.team? wv.team).isSome = true ∧
    (wv.src (cur.split wv) 0 (.lit 767)).toNat < 768 ∧ 768 ≤ (wv.src (cur.split wv) 0 (.lit 768)).toNat :=
  ⟨wvCf_ready.1, wvCf_ready.2, lab_ready.1, labB_target 0xFFF (by decide), by decide +kernel⟩
theorem wit_poison : ([at_ 2 0x100, at_ 3 0x20].all fun ea => (wv.clvl && match (labAt ea).checkLanes (lab.who cur wv) { right := 1, kinds := [1, 2, 3], size := 32, align := 32, write := true }
      [0] false 1 (fun _ => .ok ea) with | .ok l => l != [] | .error _ => false)) = true ∧ lab.hq = [] ∧ wv.sb = [] ∧ (lab.cluster 0).pb = [] := by decide +kernel

/-- A unit below and above its threshold, a window's end, an evacuation in its middle and at its last line, an unwind. -/
def unit0 : EUnit := .accBank 0 1
def labE (n : Nat) : State := { lab with units := [{ key := unit0, phys := 1, count := 0, state := 1, decl := 1, target := some 2, moved := List.range n }] }
def wvUnw : Wave := { wv with unwind := some (1, [], 3), cframes := [frame0, { frame0 with team := false }] }
theorem wit_unit_errors : lab.ceWindow (unitPart unit0) = (lab.part (unitPart unit0)).cestart ∧ (lab.unitRec unit0).count + 1 ≤ (lab.part 0).cethr % 256 ∧
    (let s := lab.modPart 0 fun p => { p with cethr := 0, evcount := 0 }
     (s.part (unitPart unit0)).cethr % 256 < (s.unitRec unit0).count + 1 ∧ (s.unitRec unit0).state = 0 ∧ (s.unitRec unit0).target = none ∧ (s.part (unitPart unit0)).evcount = 0) ∧
    ({ lab with gts := 2 ^ 40 } : State).ceWindow 0 ≠ (lab.part 0).cestart ∧ (lab.part (unitPart (.dram 0 0))).evcount = 0 ∧
    ((labE 3).unitRec unit0).state = 1 ∧ ((labE 3).unitRec unit0).target = some 2 ∧ unitLines unit0 = 256 ∧ ((labE 255).unitRec unit0).moved.length + 1 = 256 ∧
    Machine.bankOf unit0 = 1 ∧ ((labE 255).unitRec (withBank unit0 2)).phys = 2 := by decide +kernel
theorem wit_unwind : (lab.putWave 0 wvUnw).wave? 0 = some wvUnw ∧ wvUnw.unwind = some (1, [], 3) ∧ wvUnw.intrap = false ∧ wvUnw.allAtPoint = true ∧
    wvUnw.cframes = [] ++ frame0 :: [{ frame0 with team := false }] ∧ wvUnw.mq = [] ∧ wvUnw.eq = [] ∧ wvUnw.cq = [] ∧ wvUnw.liveLanes ≠ 0 := by decide +kernel

/-! ### Hypotheses of the statements: the matrix engine -/

/-- Format words in V160 up: INT8 dense, ternary, INT8 sparse, undefined, one that matches no row, one that differs among the lanes. A handle at 80H. -/
def wvM : Wave :=
  ((((((wv.putV 160 fun _ => 0x188).putV 161 fun _ => 0x18B).putV 162 fun _ => 0x10188).putV 163 fun _ => 0xF).putV 164 fun _ => 0x100).putV 165 fun l =>
    BitVec.ofNat 32 l).putS 9 0x80
def labM : State := labH.putWave 0 wvM
/-- The wave with some lanes inactive, and with a full queue. -/
def wvM1 : Wave := wvM.modSplit 0 fun x => { x with em := 1 }
def labM1 : State := labH.putWave 0 wvM1
def zclr0 : Instr := .zclr { ctl := ctl, guard := none, d := 1 }
def cmd0 (i : Instr) (op : Nat) : Cmd := { Cmd.bare i none op with started := true }
def wvMf : Wave := { wvM with mq := List.replicate Config.engineRoom (Cmd.bare zclr0 none 3) }
theorem labM_ready : labM.ready cur wvM ∧ labM1.ready cur wvM1 ∧ (labH.putWave 0 wvMf).ready cur wvMf := by unfold State.ready; decide +kernel
def good (k : MKind) (r : Nat) : Bool :=
  let f := (wvM.v r 0).toNat
  ((List.range 32).all fun l => wvM.v r l == wvM.v r 0) && fwDefined f && match fwRow f with | some x => k.accepts x (fwSpn f) | none => false
theorem wit_matrix_words : labM.ready cur wvM ∧ labM1.ready cur wvM1 ∧ (labH.putWave 0 wvMf).ready cur wvMf ∧ (cur.split wvM).em = allOnes ∧ (cur.split wvM1).em ≠ allOnes ∧
    wvMf.engineFull = true ∧ wvM.engineFull = false ∧ (good .mma 160 && good .mmat 161 && good .mmas 162 && good .zadd 160) = true ∧
    fwDefined (wvM.v 163 0).toNat = false ∧ fwRow (wvM.v 164 0).toNat = none ∧ fwDefined (wvM.v 164 0).toNat = true ∧ wvM.v 165 1 ≠ wvM.v 165 0 ∧
    MKind.accepts .mma 7 0 = false ∧ MKind.accepts .mmas 4 0 = false ∧ MKind.accepts .mmat 4 0 = false :=
  ⟨labM_ready.1, labM_ready.2.1, labM_ready.2.2, by decide +kernel⟩
/-- MMA from registers and from a loaded handle, from one not loaded and from one that passes the scratchpad's end; runs; tile offsets. -/
theorem wit_matrix_operands : (let o : MmaOp := { ctl := ctl, guard := none, d := 1, a := 0, b := .regs 32, c := 160, md := none, acc := true, scl := none };
      (MmaOp.runs o 0x188).all (fun r => Machine.runOk wvM.kern.vregs r.1 r.2) && !(MmaOp.runs { o with a := 8 } 0x188).all (fun r => Machine.runOk wvM.kern.vregs r.1 r.2) &&
      (MmaOp.runs { o with md := some 64 } 0x10188).all (fun r => Machine.runOk wvM.kern.vregs r.1 r.2)) = true ∧
    ((labM.team? 0).map fun t => ((t.handle 3).loaded, (t.handle 3).off + 128 * 32, (t.handle 4).loaded, (t.handle 5).loaded, (t.handle 5).off + 128 * 32)) =
      some (true, 0x1080, false, true, 0x1000) ∧ labM.scratchLen 0 = 0x1000 ∧ fwBRegs 0x188 = 32 ∧ fwBRegs 0x1AA = 32 ∧ fwBRegs 0x18B = 64 ∧
    fwScale 0x188 ≠ 1 ∧ 63 * 16 * 1 + 256 + (wvM.s 9).toNat ≤ labM.scratchLen 0 ∧ (wvM.s 9).toNat % 16 = 0 ∧ labM.scratchLen 0 < 63 * 16 * 4 + 256 := by decide +kernel

/-- EPI, its structures in scratchpad: a block of zeros at 0 (FP32 into V0), one at 200H for a tensor of 2 × 2 FP32 elements at 2:1000H whose record is at 300H,
and one at 400H that breaks a check. -/
def wvE : Wave := { wv with sr := [(4, 0), (5, 0x3000), (10, 0x200), (11, 0x3000), (12, 0x400), (13, 0x3000)] }
def scrE : List (Nat × Byte) :=
  [(0x201, 8), (0x231, 3), (0x235, 0x30), (0x301, 0x10), (0x305, 0x20), (0x308, 2), (0x310, 2), (0x314, 2), (0x328, 16), (0x348, 1), (0x34A, 1), (0x400, 15)]
def labEpi : State := (lab.modTeam 0 fun t => { t with scratch := scrE }).putWave 0 wvE
def epi0 : EpiOp := { ctl := ctl, guard := none, d := 1, a := 4, b := some 0, c := none, blk := 0 }
def epi1 : EpiOp := { epi0 with a := 10, b := none, c := some 14 }
theorem labEpi_ready : labEpi.ready cur wvE := by unfold State.ready; decide +kernel
theorem wit_epilogue_issue : labEpi.ready cur wvE ∧ wvE.engineFull = false ∧
    ([(epi0, 0), (epi1, 0), ({ epi0 with a := 12 }, 6)].all fun p =>
      match labEpi.structRead (labEpi.who cur wvE) 0 wvE 256 256 5 (wvE.s64 p.1.a) with
      | .ok (s1, b) => s1.epiCause 0 0 wvE allOnes p.1 b == p.2 && (epiDest b || s1.epiCause 0 0 wvE 1 epi0 b == 1) && s1.wave? 0 == some wvE && !epiBiasEn b &&
          (p.1.c != some 14 || natAt b 0x30 8 == (at_ 3 0x300).toNat)
      | .error _ => false) = true ∧
    (match labEpi.structRead (labEpi.who cur wvE) 0 wvE 128 64 5 (at_ 3 0x300) with
      | .ok (s3, r) => s3.wave? 0 == some wvE && (trecOf r).fmt == 0 && (trecOf r).rank == 2 && (trecOf r).ok 0 && decide (14 + 2 ≤ wvE.kern.sregs) &&
          decide (wvE.kern.sregs < 56 + 2) && !(trecOf (r.set 0x10 0)).ok 0 && (trecOf (r.set 9 1)).fmt != 0
      | .error _ => false) = true := ⟨labEpi_ready, by decide +kernel⟩

/-- Handles and tables; a bank whose oldest table waits with no epilogue command in the way. -/
theorem wit_handles : lab.ready cur wv ∧ (lab.team? wv.team).isSome = true ∧ (wv.src (cur.split wv) 0 (.lit 0x80)).toNat % 128 = 0 ∧
    (wv.src (cur.split wv) 0 (.lit 0x81)).toNat % 128 ≠ 0 ∧ wv.sb = [] ∧ (ent 0x10 1 4).kind = 1 ∧
    (match (labAt (at_ 3 0x100)).structRead (lab.who cur wv) 0 wv 2048 128 1 (at_ 3 0x100) with | .ok (s1, _) => s1.wave? 0 == some (wvAt (at_ 3 0x100)) | .error _ => false) = true ∧
    (let x : ActWait := { team := 0, wid := 0, op := 1, ctx := 0, tab := [1, 2] }
     let b : ActBank := { loaded := false, owner := 0, gen := 0, tab := [], queue := [x] }
     let s := lab.modCore 0 fun c => { c with act1 := b }
     ((s.core 0).act 1).queue = x :: [] ∧ (s.waves.all fun p => p.2.eq == [] && p.2.he == []) = true ∧ ((s.team? x.team).map fun t => tfind t.saved x.wid) = some none) := by
  refine ⟨lab_ready.1, ?_⟩; decide +kernel

/-- Queue heads with guards of each value, held and not held; heads that may complete. -/
def wvQ (mq eq : List Cmd) (g : Nat) : Wave := { wvM with mq := mq, eq := eq, guards := [(2, g)] }
def zld0 : ZmemOp := { ctl := ctl, guard := some 2, d := 1, a := 9, stride := 16 }
theorem wit_engine_run : ([0, 1, 2].all fun g => let w := wvQ [Cmd.bare (.zld zld0) (some 2) 5] [Cmd.bare (.zst zld0) (some 2) 6] g
      (w.guardOf (Cmd.bare (.zld zld0) (some 2) 5) == g) && !(labM.putWave 0 w).headHeld 0 w (Cmd.bare (.zld zld0) (some 2) 5) &&
      (Cmd.bare (.zst zld0) (some 2) 6).rtile == some 1 && w.queue 1 == [Cmd.bare (.zst zld0) (some 2) 6]) = true ∧
    (let c : Cmd := Cmd.bare zclr0 none 5
     let e : Cmd := Cmd.bare (.zmov { ctl := ctl, guard := none, d := 0, a := 1, blk := 0 }) none 4
     (labM.putWave 0 (wvQ [c] [e] 1)).headHeld 0 (wvQ [c] [e] 1) c = true) := by decide +kernel
theorem wit_epilogue_units : (match labEpi.structRead (labEpi.who cur wvE) 0 wvE 128 64 5 (at_ 3 0x300) with
    | .ok (s3, r) => (match s3.epiUnits cur wvE 1 0 (trecOf r) (epiBox (trecOf r) [0, 0, 0, 0, 0]) with | .ok l => l.length | .error _ => 0)
    | .error _ => 0) = 4 := by decide +kernel

/-- Commands that complete: of the matrix queue and of the epilogue queue. -/
def rows64 : Tab (List Word) := (List.range 64).map fun m => (m, List.replicate 64 1)
def mma0 : MmaOp := { ctl := ctl, guard := none, d := 1, a := 0, b := .regs 32, c := 160, md := none, acc := true, scl := none }
def mmaCmd (f : MmaOp → Instr) (word : Nat) : Cmd := { cmd0 (f mma0) 5 with word := word }
theorem wit_matrix_results : ([cmd0 zclr0 5, { cmd0 (.zld zld0) 5 with regs := rows64 }, mmaCmd .mma 0x188, mmaCmd .mmas 0x10188, mmaCmd .mmat 0x18B].all fun c =>
      c.started && c.op != 0 && c.gen != 1 && (labM.putWave 0 (wvQ [c] [] 0)).wave? 0 == some (wvQ [c] [] 0)) = true ∧ (rows64.map (·.2)).flatten.length = 4096 ∧
    ((labM.core 0).tile (labM.phys 0 1)).length = 4096 ∧ fwSpn 0x188 = 0 ∧ fmtOfCode (fwA 0x188) ≠ .t2 ∧ fwAcc 0x188 = 1 ∧ fwAcc 0x33 = 0 ∧ fwScale 0x33 ≠ 1 := by decide +kernel
theorem wit_sparse_results : (mmaCompute mma0 (mmaCmd .mmas 0x10188) (List.replicate 4096 0)).1.length = 4096 := by decide +kernel
def epiCmd (o : EpiOp) (outs : List EOut) : Cmd := { cmd0 (.epi o) 5 with regs := rows64, outs := outs, blk := List.replicate 256 0 }
theorem wit_epilogue_results : ([{ cmd0 (.zst zld0) 5 with regs := rows64 }, { cmd0 (.zmov { ctl := ctl, guard := none, d := 0, a := 1, blk := 7 }) 5 with regs := rows64 },
      epiCmd { epi0 with blk := 7 } [], epiCmd epi1 [{ m := 63, n := 63, cnt := 1, off := 0x1000, pas := [0x81000, 0x81001, 0x81002, 0x81003], es := [{ ent 0x81000 2 4 with scope := 0 }] }]].all
      fun c => c.started && c.op != 0 && c.batch == 0 && ((List.range 64).all fun m => (tget [] c.regs m).length == 64) &&
        (c.outs.all fun x => (x.es.all fun e => e.kind == 2 && e.scope == 0) && x.cnt == packUnit (fmtBits (epiOfmt c.blk)) && decide (x.m < 64) && decide (x.n + packUnit (fmtBits (epiOfmt c.blk)) ≤ 64)) &&
        (labM.putWave 0 (wvQ [] [c] 0)).wave? 0 == some (wvQ [] [c] 0)) = true ∧ labM.mon = [] ∧
    ((labM.team? 0).map fun t => (t.audit, t.replay)) = some (false, none) := by decide +kernel

/-! ### Hypotheses of the statements: copies -/

/-- Records in scratchpad at 300H (good), at 380H (rank 0) and an S run; BTCOPY, BTGATH and BTLIN of every side, checks that fail. -/
def wvK : Wave := { wv with sr := [(10, 0x300), (11, 0x3000), (12, 0x380), (13, 0x3000), (14, 0x1000), (15, 0x2000)] }
def labK : State := labEpi.putWave 0 wvK
def wvKf : Wave := { wvK with cq := List.replicate Config.copyRoom (Cmd.bare zclr0 none 3) }
theorem labK_ready : labK.ready cur wvK ∧ (labEpi.putWave 0 wvKf).ready cur wvKf := by unfold State.ready; decide +kernel
def trec0 : TRec := trecOf (memGets scrE 0x300 128)
theorem wit_copy_issue : labK.ready cur wvK ∧ (labEpi.putWave 0 wvKf).ready cur wvKf ∧ wvK.actLanes (cur.split wvK) 3 false ≠ 0 ∧ wvK.actLanes (cur.split wvK) 2 false = 0 ∧
    wvKf.copyFull = true ∧ wvK.copyFull = false ∧ labK.batchBlock 0 wvK = some 0x100040 ∧ labK.hq = [] ∧ labK.dir = [] ∧
    (match labK.structReadAt (labK.who cur wvK) 0 wvK 0 128 64 5 (wvK.src64 (cur.split wvK) 0 false (.s 10)) with
      | .ok (s1, b) => s1.wave? 0 == some wvK && trecOf b == trec0 && s1.copySide (labK.who cur wvK) trec0.base true == none &&
          s1.copySide (labK.who cur wvK) trec0.base false == none && s1.scratchSide 0 0 (trec0.rows * trec0.pitch) 16 == none &&
          s1.scratchSide 0 8 (trec0.rows * trec0.pitch) 16 != none && s1.copySide (labK.who cur wvK) (at_ 3 0) true != none
      | .error _ => false) = true ∧
    (match labK.structReadAt (labK.who cur wvK) 0 wvK 0 128 64 5 (wvK.src64 (cur.split wvK) 0 false (.s 12)) with
      | .ok (s1, b) => s1.wave? 0 == some wvK && !(trecOf b).ok 0 && (trecOf b).rank != 2 | .error _ => false) = true ∧
    trec0.ok (wvK.src (cur.split wvK) 0 .zero).toInt = true ∧ wvK.runFits .zero 2 = true ∧ wvK.runFits (.v 191) 2 = false ∧ trec0.rank = 2 ∧
    ({ trec0 with boxes := lset trec0.boxes 1 1 } : TRec).ok 0 = true := ⟨labK_ready.1, labK_ready.2, by decide +kernel⟩
theorem wit_linear_copies : (let u := labK.who cur wvK
     let a := wvK.src64 (cur.split wvK) 0 false (.s 14)
     labK.copySide u a false = none ∧ labK.copySide u a true = none ∧ labK.scratchSide 0 0x20 32 16 = none ∧ linAlign false true a 0x20 32 = none ∧
     linAlign true true 0 8 32 ≠ none ∧ linAlign false false a a 32 = none) := by decide +kernel

/-- The batch block at 100040H: nothing open, 15 batches not done, a batch closed and done, one not done; a ring. -/
def labBt (closed fin : Nat) : State := lab.rawPut 0x100040 (leBytes 4 closed ++ leBytes 4 fin)
theorem labBt_ready : (labBt 0 0).ready cur wv ∧ (labBt 17 1).ready cur wv ∧ (labBt 2 1).ready cur wv := by unfold State.ready; decide +kernel
theorem wit_batches : (labBt 0 0).ready cur wv ∧ (labBt 17 1).ready cur wv ∧ (labBt 2 1).ready cur wv ∧ (labBt 2 1).batchBlock 0 wv = some 0x100040 ∧ 0x100040 % 64 = 0 ∧
    (labBt 17 1).homeNat 0x100040 4 = 17 ∧ serialLt 32 1 ((18 + 2 ^ 32 - 15) % 2 ^ 32) = true ∧ serialLt 32 0 ((1 + 2 ^ 32 - 15) % 2 ^ 32) = false ∧
    serialLt 32 2 3 = true ∧ serialLt 32 2 2 = false ∧ serialLt 32 1 2 = true ∧ serialLt 32 1 1 = false ∧ (labBt 2 1).hq = [] ∧ (labBt 2 1).dir = [] ∧
    lab.copiesLeft wv wv.opctr = false ∧ ((lab.putWave 0 { wv with cq := [Cmd.bare zclr0 none 1], opctr := 1 }).copiesLeft { wv with cq := [Cmd.bare zclr0 none 1], opctr := 1 } 1 = true) ∧
    (cur.split wv).wait = none ∧ selOf ((wv.putS64 4 0).s64 4) = 0 ∧ offOf (at_ 2 0x100) % 32 = 0 ∧ offOf (at_ 2 0x110) % 32 ≠ 0 ∧
    (match lab.checkRange (lab.who cur wv) { right := 1, kinds := kindsDTH, size := 32 * 4, align := 32, write := true } 0 (at_ 2 0x100) with | .ok _ => true | .error _ => false) = true ∧
    (match lab.checkRange (lab.who cur wv) { right := 1, kinds := kindsDTH, size := 32 * 4, align := 32, write := true } 0 (at_ 6 0x100) with | .ok _ => false | .error _ => true) = true :=
  ⟨labBt_ready.1, labBt_ready.2.1, labBt_ready.2.2, by decide +kernel⟩

/-- Copies at the head of their queue and in slots. -/
def lin0 (src : Bool) : LinOp := { ctl := ctl, guard := some 2, a := .s 14, b := .zero, c := .lit 32, srcS := src, dstS := true, nw := false, tag := 0 }
def linCmd (src : Bool) : Cmd :=
  { Cmd.bare (.btlin (lin0 src)) (some 2) 5 with batch := 1, addr := if src then 0x40 else at_ 2 0x100, sregs := [(0, 0x80), (2, 32)] }
def wvCq (g : Nat) : Wave := { wv with cq := [linCmd true], guards := [(2, g)], ops := [(5, { flag := some 3, left := 1 })] }
def slot0 (src : Bool) : BteCopy := { team := 0, wid := 0, wave := 0, area := 0, part := 0, ctx := 0, cmd := { linCmd src with started := true }, moved := 0, bits := 0, bad := false, first := [], wrote := [] }
def labSlots (l : List (Nat × BteCopy)) : State := (lab.putWave 0 (wvCq 1)).modCluster 0 fun k => { k with slots := l }
theorem wit_copy_engine : ([0, 1, 2].all fun g => (wvCq g).guardOf (linCmd true) == g) = true ∧
    ((labSlots ((List.range 64).map fun i => (i, slot0 true))).cluster 0).slots.length = Config.bteSlots ∧ (labSlots []).wave? 0 = some (wvCq 1) ∧
    (labSlots []).hq = [] ∧ (labSlots []).dir = [] ∧ (labSlots []).mon = [] ∧ (labSlots []).cairns = [] ∧
    ((labSlots []).team? 0).map (fun t => (t.saved, tfind t.wkeys 0, t.replay, t.audit, t.smark)) = some ([], some 0, none, false, []) ∧
    (labSlots []).areaPA 0 0 0x40 = some 0x100040 ∧ (labSlots []).homeNat 0x100058 4 = 0 ∧ (labSlots []).marks = [] ∧ (labSlots []).modu.refused = [] := by decide +kernel
theorem wit_linear_runs : ([true, false].all fun b => let s := labSlots [(0, slot0 b)]
     let c := (slot0 b).cmd
     tfind (s.cluster 0).slots 0 == some (slot0 b) && c.op != 0 && (tget 0 c.sregs 2).toNat == 32 && c.linDst.toNat == 0x80 && (c.linDst.toNat % 16 == 0) &&
       (if b then c.addr.toNat + 32 ≤ 0x80 else (List.range 2).all fun j => match s.segUnit (s.copyWho 0 (slot0 b)) c.addr (offOf c.addr + 16 * j) 16 false with
          | .ok (y, l) => !y.desc.ccode && l.length == 16 && l.all fun p => !s.downAt p
          | .error _ => false)) = true := by decide +kernel

/-! ### Hypotheses of the statements: blocks, teams, grids, audits -/

/-- An inner block at 2:200H that waits for the block at 2:400H, and a block of an undefined kind at 2:300H; the one at 2:400H in STATE `st`. -/
def labS (st : Nat) : State :=
  ((((lab.rawPut 0x80200 (leBytes 4 (2 ^ 20))).rawPut 0x80210 (leBytes 8 (at_ 2 0x400).toNat)).rawPut 0x80300 (leBytes 4 3)).rawPut 0x80284 (leBytes 4 0)).rawPut 0x80484 (leBytes 4 st)
def block0 : List Byte := memGets (labS 4).mem 0x80200 256
def leaf0 : List Byte := ((((leBytes 4 1 ++ block0.drop 4).set 0x58 2).set 0x5C 1).set 0x60 1).set 0x64 1
def sub0 (leaf : Bool) (state : Nat) : Sub :=
  { part := 0, block := at_ 2 0x200, ctx := 0, level := true, boot := false, pa := 0x80200, rcb := if leaf then leaf0 else block0,
    gridid := 0, leaf := leaf, state := state, eff := [48, 6144, 100000, 6144, 100000, 4, 64, 1, 0], parent := none, next := 1, tdone := 0, kern := labKern, pin := some { bidx := 2, gen := 1, sel := 9 } }
def labSub (st : Nat) (x : Sub) : State := { labS st with subs := [(7, x)] }
def submit0 (off : Nat) : Submit := { block := at_ 2 off, pa := 0x80000 + off, ctx := 0, level := true, boot := false, wave := 0, op := 5 }
def atom18 : LaneAtom := { lane := 0, kind := 0, addr := 0, width := 32, fn := 18, opnd := 0, cmp := 0, nw := false, cairn := none, slot := 0, param := 0, ea := at_ 2 0x100, cut := 128, addr2 := 0, via := via0 }
def wvLaunch : Wave := { wv with pend := [{ op := 5, regs := [], writes := [], dst := some (.s 8), wide := false, fpx := 0, atoms := [atom18] }] }
def labLaunch (off : Nat) : State := ((labS 4).putWave 0 wvLaunch).modPart 0 fun p => { p with launches := [submit0 off] }
theorem wit_launch : lab.ready cur wv ∧ labU.ready cur wu ∧ wv.clvl = true ∧ wu.clvl = false ∧ lab.audited wv = false ∧
    ((lab.modTeam 0 fun t => { t with audit := true }).audited wv = true) ∧
    ([(at_ 2 0x200, true), (at_ 2 0x210, false)].all fun p => match lab.checkRange (lab.who cur wv) { right := 0, kinds := kindsDTH, size := 256, align := 256, write := false } 0 p.1 with
      | .ok a => p.2 && !lab.marked a.pa 256 | .error _ => !p.2) = true ∧ ({ lab with marks := [0x80200 / 32] } : State).marked 0x80200 256 = true :=
  ⟨lab_ready.1, labU_ready.1, by decide +kernel⟩
theorem wit_blocks : ([(0x200, 0), (0x300, 5)].all fun p => let s := labLaunch p.1
      let s1 := s.modPart 0 fun x => { x with launches := [] }
      let r := s1.blockCheck (subOf 0 (submit0 p.1) (memGets s1.mem (0x80000 + p.1) 256))
      s.hq == [] && s.dir == [] && s.mon == [] && s.cairns == [] && (s.part 0).launches == [submit0 p.1] && s.launchReady (submit0 p.1) && !s.marked (0x80000 + p.1) 256 &&
        s.homeNat (0x80084 + p.1) 4 == 0 && r.2.1 == p.2 && r.1.hq == [] && r.1.dir == [] && r.1.mon == [] && r.1.cairns == [] && r.1.waves == s.waves && r.1.subs == s.subs) = true ∧
    (wvLaunch.pend.map fun y => (y.op, y.atoms.map (·.fn), y.dst)) = [(5, [18], some (.s 8))] ∧
    ((labLaunch 0x200).rawPut 0x80284 (leBytes 4 2)).homeNat 0x80284 4 % 8 = 2 := by decide +kernel
theorem wit_predecessors : ([4, 1, 5].all fun st => let s := labSub st (sub0 false 1)
      tfind s.subs 7 == some (sub0 false 1) && (List.range (blkNpred (sub0 false 1).rcb)).map (fun j =>
        ((s.walkerRead (sub0 false 1) 4 (BitVec.ofNat 64 (blkPred (sub0 false 1).rcb j) + 0x84)).2).map (· % 8)) == [some st]) = true ∧
    (sub0 false 1).part = 0 ∧ (sub0 false 1).state = 1 := by decide +kernel

/-- A leaf in turn with room, and none; waves that are due, saved, retired. -/
theorem wit_admission : lab.leaves 0 = [] ∧ (let x := sub0 true 3
     let s := labSub 4 x
     s.leaves 0 = [(7, x)] ∧ blkCosched x.rcb = false ∧ s.teamsBy 7 = [] ∧ x.next < blkTeams x.rcb ∧
       (match s.fits 7 x [(none, x.next)] (s.freeAreas 0) with | some [(_, [_])] => true | _ => false) = true) := by decide +kernel
def wvDue : Wave := { wv with due := some 0x13 }
def saved0 : Saved := { area := 0, live := allOnes, mq := [], eq := [], cq := [], ops := [], opctr := 9, due := none, kern := labKern, codesel := 1, waits := [], unwind := none }
theorem wit_saves : (lab.putWave 0 wvDue).wave? 0 = some wvDue ∧ wvDue.due = some 0x13 ∧ wvDue.intrap = false ∧ ({ wvDue with intrap := true } : Wave).due = some 0x13 ∧
    wvDue.liveLanes ≠ 0 ∧ wvDue.allAtPoint = true ∧ wvDue.drained = true ∧ Config.saveAreaBytes * wvDue.area < 2 ^ 44 ∧ wvEmpty.allAtPoint = wvEmpty.allAtPoint ∧
    (let s := (lab.putWave 0 { wv with restore := true }).modTeam 0 fun t => { t with saved := [(0, saved0)] }
     s.wave? 0 = some { wv with restore := true } ∧ (s.team? 0).map (fun t => tfind t.saved 0) = some (some saved0)) := by decide +kernel
/-- A wave that is over, in a team of its own and beside another; one that is not. -/
def wvOver : Wave := { wv with splits := [] }
theorem wit_retirement : lab.waveOver wv = false ∧ wvOver.liveLanes = 0 ∧ (labSub 4 (sub0 true 3) |>.putWave 0 wvOver).waveOver wvOver = true ∧ wvOver.sb = [] ∧
    wvOver.linkent.getLsbD 31 = false ∧ ((lab.team? 0).map fun t => (tdel t.wkeys 0, t.saved, t.replay, t.audit)) = some ([], [], none, false) ∧
    tdel [(0, 0), (1, 4)] 0 ≠ ([] : List (Nat × Nat)) ∧ ((lab.team? 0).map fun t => t.sub) = some 0 ∧ lab.hq = [] ∧ lab.dir = [] ∧ lab.mon = [] ∧ lab.cairns = [] := by decide +kernel
theorem wit_grids : (let x := sub0 false 2
     let s := labSub 4 x
     s.blockOver 7 x = true ∧ s.blockOver 7 { x with state := 1 } = false ∧ x.state ≠ 6 ∧ x.state ≠ 7 ∧
       (match (s.subPut x 0x88 8 s.gts).walkerAccess x { right := 1, kinds := kindsDTH, size := 4, align := 4, write := true } (x.block + 0x84) with | .ok _ => true | .error _ => false) = true ∧
       blkParent x.rcb = 0 ∧ blkWakeen x.rcb = false ∧ x.pin ≠ none) ∧
    (let s := labS 3
     let x := { sub0 false 6 with rcb := ((sub0 false 6).rcb.take 8) ++ leBytes 8 (at_ 2 0x400).toNat ++ (sub0 false 6).rcb.drop 16 }
     blkParent x.rcb ≠ 0 ∧ (match s.walkerAccess x { right := 3, kinds := kindsDTH, size := 4, align := 4, write := true } (BitVec.ofNat 64 (blkParent x.rcb) + 0x80) with
       | .ok a => s.homeNat (a.pa + 4) 4 % 8 == 3 | .error _ => false) = true) ∧
    (let x := { sub0 false 7 with rcb := leBytes 4 (2 ^ 25) ++ (((sub0 false 7).rcb.drop 4).take 0x6C) ++ leBytes 8 (at_ 2 0x500).toNat ++ (sub0 false 7).rcb.drop 0x78 }
     blkWakeen x.rcb = true ∧ (match lab.walkerAccess x { right := 1, kinds := [2, 3, 4, 5], size := 4, align := 4, write := true } (blkWakeaddr x.rcb) with
       | .ok _ => true | .error _ => false) = true) := by decide +kernel

/-- Audits: a replay with room, runs that agree and disagree, a wave of a failed domain; a partition that runs, and one that does not. -/
def audit0 (third : Bool) (sigs : List DWord) : Audit := { id := 3, team := { (lab.team? 0).getD (Team.launched 0 0 0 0 0 0 0 0 0 1 4 0 0 0 0 false [] [] 0) with sub := 7 }, third := third, cores := [5], sigs := sigs, running := none }
def labA (a : Audit) : State := (labSub 4 (sub0 true 3)).modPart 0 fun p => { p with audits := [a] }
theorem wit_replays : (let a := audit0 false []
     let s : State := { labA a with subs := [(7, { sub0 true 3 with next := 2 })] }
     s.anyWaits 0 = false ∧ (s.teams.all fun t => !(t.2.part == 0 && t.2.away && t.2.replay.isSome)) = true ∧ (s.part 0).audits = [a] ∧ a.wants = true ∧
     (tfind s.subs a.team.sub).isSome = true ∧ (s.replaySpot 0 (({ sub0 true 3 with next := 2 } : Sub).need true) (a.team.core :: a.cores)).isSome = true) := by decide +kernel
theorem wit_comparisons : ([(false, [0]), (false, [1]), (true, [1, 0]), (true, [1, 2])].all fun (p : Bool × List DWord) => let s := labA (audit0 p.1 p.2)
      (s.part 0).audits == [audit0 p.1 p.2] && (audit0 p.1 p.2).running == none && (s.part 0).evcount == 0 && (s.part 0).fdpend.length == 8 &&
        decide ((audit0 p.1 p.2).team.fdom < 256) && (audit0 p.1 p.2).team.sig == 0 && (s.teams.all fun t => !(t.2.part == 0 && t.2.replay.isSome && t.2.rover))) = true := by decide +kernel
theorem wit_audit_traps : (let s := lab.modPart 0 fun p => { p with fdpend := [1, 0, 0, 0, 0, 0, 0, 0], blames := [(0, (1, 2, 3))] }
     (s.part 0).fdBit 0 = true ∧ (lab.part 0).fdBit 0 = false ∧ wv.intrap = false ∧ wv.liveLanes ≠ 0 ∧ wv.allAtPoint = true ∧ (s.part 0).fdpend.length = 8 ∧
     (s.team? 0).map (fun t => (t.replay, t.fdom)) = some (none, 0)) ∧ (lab.part 0).running = true ∧ (lab.part 1).running = false := by decide +kernel

/-! ### Hypotheses of the statements: the world outside, encodings, poison -/

/-- Start payloads: good, refused by its fields, without a boot block. Partition 1 does not run. -/
def start0 : StartPayload := { part := 1, ctxt := 0x1000, ctxtn := 1, svseg := 0x8000, svsegn := 1, svpt := 0, svec := 2 ^ 63 + 0x100, bootrcb := 2 ^ 63, reserved := false }
def labSt : State := lab.rawPut 0x1000 (leBytes 4 3)
theorem wit_host_commands : startOk start0 = true ∧ startOk { start0 with reserved := true } = false ∧ (labSt.part 1).running = false ∧ labSt.bootBlock start0 = some (0x100000, 0) ∧
    labSt.bootBlock { start0 with bootrcb := 0 } = none ∧ (lab.part 0).running = true ∧ lab.blocksRun 0 = false ∧ (labSub 4 (sub0 true 3)).blocksRun 0 = true ∧
    lab.anyWave 0 = true ∧ lab.anyWave 1 = false ∧ (lab.part 0).power ≠ 9 ∧ lab.modu.clamp = false ∧
    (let s : State := { lab with modu := { lab.modu with clamp := true, temps := [(0, 99)] } }
     s.modu.clamp = true ∧ s.modu.cool = false) := by decide +kernel
theorem wit_outside : lab.downAt 0x80100 = false ∧ (0x80100 : Nat) / 2 ^ 48 < 8 ∧ (let s : State := { lab with parts := [] }
     s.downAt 0x80100 = true) ∧ (8 * 2 ^ 48 : Nat) / 2 ^ 48 = 8 ∧ lab.hq = [] ∧ lab.dir = [] ∧ lab.mon = [] ∧ lab.cairns = [] := by decide +kernel

/-- An image at 1:400H, Zynran or native, with translations of every standing. -/
def header0 (native : Nat) : Nat := 0xCD17 * 2 ^ 48 + 2 ^ 40 + native * 2 ^ 39 + 24 * 2 ^ 27 + 56 * 2 ^ 21
/-- The tests' own unit reads through a TLB of its own, for speed. -/
def labTr (native trctl : Nat) : State := (({ lab with clusters := [(48, { Cluster.reset with tlb := labTlb false })] } : State).rawPut 0x40400 (leBytes 8 (header0 native) ++ leBytes 4 8)).modPart 0 fun p => { p with trctl := trctl }
def ent0 (k : BitVec 512) : CistEnt := { key := k, featv := 0, signer := 5, sig := 0, image := [], table := [], used := 0, by_ := [] }
theorem wit_translations : ([(0, 5), (1, 5), (0, 0)].all fun p => let s := labTr p.1 p.2
      (s.part 0).running && (s.part 0).trans == [] && (s.part 0).found == [] && s.modu.cistern == [] && (s.part 0).nden == (p.2 % 2 == 1) && !(s.part 0).oasen &&
        match s.imageBytes 0 0 false 1 0x400 64, s.imageBytes 0 0 false 1 0x440 8 with
        | some (h, room), some (_, _) => !badHeader h room && (kernelOf h 1 0x400).native == (p.1 == 1) && (kernelOf h 1 0x400).codelen == 8
        | _, _ => false) = true ∧ decide ((0 : Nat) = 4096) = bitOf 1 19 := by decide +kernel
theorem wit_cistern (h code : List Byte) : let s : State := { labTr 0 5 with modu := { (labTr 0 5).modu with cistern := [(0, { erases := 0, dead := 0, ents := [ent0 (cistKey h code)] })] } }
    ((labTr 0 5).part 0).cisten = true ∧ s.modu.cistEnts.find? (·.key == cistKey h code) = some (ent0 (cistKey h code)) ∧ (ent0 (cistKey h code)).key = cistKey h code :=
  ⟨by decide +kernel, by simp [Module.cistEnts, ent0], rfl⟩
/-- A trusted signer: the entry is trusted exactly when the free verification accepts it. -/
theorem wit_trust (s : State) (e : CistEnt) (h : e.signer ∈ s.modu.trust) (v : Config.ecdsaVerify e.signer (signedBytes e.key e.image e.table) e.sig = true) :
    s.trusts e = true := by simp [State.trusts, h, v]
theorem wit_distrust (s : State) (e : CistEnt) (v : Config.ecdsaVerify e.signer (signedBytes e.key e.image e.table) e.sig = false)
    (g : e.sig ≠ Config.ecdsaSign 0 (signedBytes e.key e.image e.table)) : s.trusts e = false := by
  simp [State.trusts, v, g]
/-- Opcode 0 at every place, and a wave that TRAPZ traps. -/
theorem wit_trapz : (2 ^ 9 : Nat) % 2 ^ 9 = 0 ∧ (1 + 2 ^ 11) % 4 = 1 ∧ (1 + 2 ^ 11) / 4 % 2 ^ 9 = 0 ∧ (2 + 2 ^ 11) % 4 = 2 ∧ (Raw.none 1).op = 0 ∧ wv.intrap = false ∧
    lab.replaying wv.team = false ∧ cur.entry < 8 := by decide +kernel
/-- Round trips: instructions of each length that are well-formed and encode. -/
theorem wit_round_trips : ([Instr.iaddZ32 (short (.v 10) (.v 0) .w32), .iadd (bin (.v 8) (.v 0) (.lit 7) .i32), .ld (ldO (.v 8) (.s 4) (.v 2) .i8)].all fun i =>
      i.wf && (encode i).isSome && (match i.shortFields with | some _ => true | none => (encodeNative i).isSome && (match i.fields with | some f => f.ctl.wait == 0 | none => false))) = true := by
  decide +kernel
/-- A register that holds an error. -/
theorem wit_poisoned : ([32 * 7 + 31, 32 * 7 + 31 + 8192].all fun e => (lab.putWave 0 { wv with errs := [e] }).here == some (cur, { wv with errs := [e] })) = true ∧
    cur.snap = none ∧ laneOf (wv.actLanes (cur.split wv) 3 false) 31 = true ∧ (Instr.iadd (bin (.v 8) (.v 7) (.v 1) .i32)).wf = true := by decide +kernel
theorem wit_canonical : State.reset.memOk = true ∧ (match step State.reset with | .next _ => true | _ => false) = true := by decide +kernel
end Sys2Proof.Tests
end

section
/-! SUPPORT. The machine right after reset, and a step of a machine in which no wave is resident. -/

namespace Sys2Proof.Machine

/-! ### A machine without waves -/

theorem State.issueWaves_noWaves {s : State} (h : s.waves = []) : s.issueWaves = [] := by simp [State.issueWaves, h]

theorem State.nextIssuer_noWaves {s : State} (n : Nat) (h : s.waves = []) : s.nextIssuer n = none := by
  simp [State.nextIssuer, State.issueWaves_noWaves h]

/-- With no wave to note as ready, only the clock counts. -/
theorem State.pass_noWaves {s : State} (n : Nat) (h : s.waves = []) : s.pass n = { s with gts := (s.gts + n) % 2 ^ 64 } := by
  simp [State.pass, State.noteReady, h, tmap]

/-- When the agenda names nobody and it is the turn of the waves, of which there are none, time passes. -/
theorem step_noWaves {s : State} (ha : s.agenda = []) (ht : s.turn % 2 = 0) (hw : s.waves = []) :
    step s = .next (State.pass { s.idle with turn := s.turn + 1 } 1) := by
  have hn : s.idle.nextIssuer (s.turn / 2) = none := State.nextIssuer_noWaves _ hw
  have e : step s = s.idle.schedule := by simp [step, State.go, ha]
  simp [e, State.schedule, State.idle, ht] at hn ⊢
  rw [hn]

/-! ### What each table reads as when nothing is listed (01 R16, 08 R203, 15 R311, 22 R395) -/

@[simp] theorem tget_nil {α : Type} (d : α) (k : Nat) : tget d [] k = d := rfl

theorem reset_memGet (a : Nat) : memGet State.reset.mem a = 0 := tget_nil _ _

theorem reset_wave? (k : Nat) : State.reset.wave? k = none := rfl

theorem reset_part (p : Nat) : State.reset.part p = Part.reset := tget_nil _ _

/-- A bank of a cluster after reset is as it was delivered. -/
theorem reset_bank (k b : Nat) : (State.reset.cluster k).bank b = Bank.delivery b := tget_nil _ _

/-- The first step after reset lets time pass: memory and the waves stay empty. -/
theorem step_reset : ∃ t, step State.reset = .next t ∧ t.mem = [] ∧ t.waves = [] :=
  ⟨_, (step_noWaves rfl rfl rfl).trans (by rw [State.pass_noWaves 1 rfl]), rfl, rfl⟩

/-- Settles O59: each table of the reset state is empty, so each register reads its map's reset value, and the first step finds no wave
to issue. -/
theorem resetState : Obligations.ResetState := by
  refine ⟨reset_memWf, reset_memGet, rfl, reset_wave?, fun p => ?_, fun k b => ?_, step_reset⟩
  · rw [reset_part]
    exact ⟨rfl, rfl, rfl, rfl, rfl, rfl, rfl⟩
  · rw [reset_bank]
    rfl

end Sys2Proof.Machine
end

section
/-! SUPPORT. Address instructions (05 R111, R112): what `runAddr` answers when no computing lane overflows and when one does, for any lane
function given as a test, an address to report and a pair to write; SEGA, PADD, PSEG and POFF in those terms. -/

namespace Sys2Proof.Machine

/-! ### Seg-addresses -/

theorem selOf_lt (a : DWord) : selOf a < 2 ^ 20 := by
  have := a.isLt
  simp only [selOf]; omega

theorem segAddr_toNat {sel off : Nat} (hs : sel < 2 ^ 20) (ho : off < 2 ^ 44) : (segAddr sel off).toNat = sel * 2 ^ 44 + off := by
  simp only [segAddr, BitVec.toNat_ofNat]
  exact Nat.mod_eq_of_lt (by omega)

theorem ofNat_bits_b64 (c : Cur) (w : Wave) (l : Nat) (o : Src) :
    BitVec.ofNat 64 (c.bits w .b64 l o) = (c.reads w).src64 ((c.reads w).split c.entry) l false o :=
  (BitVec.ofNat_toNat _ _).trans (BitVec.setWidth_eq _)

theorem bits_b64_sel_lt (c : Cur) (w : Wave) (l : Nat) (o : Src) : c.bits w .b64 l o / 2 ^ 44 < 2 ^ 20 := selOf_lt _

/-! ### Writing a pair -/

@[simp] theorem Wave.pr_putD (w : Wave) (m : LaneMask) (d : Dst) (f : Nat → Word) : (w.putD m d f).pr = w.pr := by
  cases d <;> simp [Wave.putD, Wave.putVm]

@[simp] theorem Wave.pr_putW (w : Wave) (wide : Bool) (m : LaneMask) (d : Dst) (f : Nat → Nat) : (w.putW wide m d f).pr = w.pr := by
  unfold Wave.putW Wave.putD64; split <;> simp

theorem Wave.putD64_eq_putW (w : Wave) (m : LaneMask) (d : Dst) (f : Nat → DWord) : w.putD64 m d f = w.putW true m d fun l => (f l).toNat := by
  simp [Wave.putW]

/-- Where an instruction writes it computes. -/
theorem Cur.computes_of_writes {c : Cur} {d : Dst} {m : LaneMask} {l : Nat} (h : c.writes d m l = true) : c.computes d m l = true := by
  cases d with
  | v n => exact h
  | s n => exact h
  | zero => cases h

/-- The lanes an instruction computes at, ascending: lane 0 for an S destination, else the active ones. -/
def compLanes (d : Dst) (m : LaneMask) : List Nat := if d.uni then [0] else lanesOf m

theorem mem_compLanes (c : Cur) {d : Dst} {m : LaneMask} {l : Nat} : l ∈ compLanes d m ↔ l < 32 ∧ c.computes d m l = true := by
  unfold compLanes Cur.computes
  split
  · simp only [List.mem_singleton, beq_iff_eq]; omega
  · exact mem_lanesOf

/-! ### Lanes that overflow -/

theorem Wave.laneCause_sound {w : Wave} (h : w.errs = []) (srcs : List (Src × Nat)) (preds : List Nat) (l : Nat) :
    w.laneCause srcs preds l = 0 := by
  have hk : ∀ k, w.keyCause k = 0 := fun k => by simp [Wave.keyCause, h]
  unfold Wave.laneCause
  generalize (srcs.map fun p => p.1.keys p.2 l).flatten ++ preds.map errP = ks
  induction ks with
  | nil => rfl
  | cons k ks ih => simpa [hk] using ih

/-- The OFFOVF of a lane, with the address it reports. -/
def offOvf (a : DWord) : AFault := { code := fOFFOVF, cause := 0, addr := a }

/-- The faults of some lanes, as `runAddr` collects them. -/
def addrFaults (w : Wave) (x : Split) (srcs : List (Src × Nat)) (val : Wave → Split → Nat → Except DWord DWord) (ls : List Nat) :
    List (Nat × AFault) := (ls.map fun l => match addrStop w x srcs val l with | some f => [(l, f)] | none => []).flatten

/-- The pair a lane writes; an overflowing lane's is 0, and is never written. -/
def pairOr0 (z : Except DWord DWord) : DWord := match z with | .ok y => y | .error _ => 0

/-- With sound registers nothing but an overflow stops a lane. -/
theorem addrStop_sound {w : Wave} {x : Split} {val : Wave → Split → Nat → Except DWord DWord} {l : Nat} {ovf : Bool} {a y : DWord}
    (h : w.errs = []) (hv : val w x l = if ovf then .error a else .ok y) (srcs : List (Src × Nat)) :
    addrStop w x srcs val l = if ovf then some (offOvf a) else none := by
  simp only [addrStop, Wave.laneCause_sound h, hv]
  cases ovf <;> rfl

/-- The faults of the computing lanes are those of the lanes that overflow. -/
theorem addrFaults_sound {w : Wave} {x : Split} {val : Wave → Split → Nat → Except DWord DWord} {ovf : Nat → Bool} {a y : Nat → DWord}
    (h : w.errs = []) (hv : ∀ l, val w x l = if ovf l then .error (a l) else .ok (y l)) (srcs : List (Src × Nat)) (ls : List Nat) :
    addrFaults w x srcs val ls = (ls.filter ovf).map fun l => (l, offOvf (a l)) := by
  induction ls with
  | nil => rfl
  | cons l ls ih =>
    have hcons : addrFaults w x srcs val (l :: ls) =
        ((addrStop w x srcs val l).map fun f => (l, f)).toList ++ addrFaults w x srcs val ls := by
      unfold addrFaults
      rw [List.map_cons, List.flatten_cons]
      cases addrStop w x srcs val l <;> rfl
    rw [hcons, ih, addrStop_sound h (hv l)]
    cases e : ovf l <;> simp [e]

/-- Faults of one code and cause are reported together. -/
theorem reportFaults_alike {fs : List (Nat × AFault)} {code cause : Nat} (hne : fs ≠ []) (h : ∀ p ∈ fs, p.2.code = code ∧ p.2.cause = cause)
    (m : LaneMask) : reportFaults fs false m =
      some { code := code, cause := cause, mask := maskWhere fun l => fs.any (·.1 == l), addrs := fs.map fun p => (p.1, p.2.addr) } := by
  obtain ⟨p, r, rfl⟩ := List.exists_cons_of_ne_nil hne
  obtain ⟨rfl, rfl⟩ := h p List.mem_cons_self
  have hsame : (p :: r).filter (fun q => q.2.code == p.2.code && q.2.cause == p.2.cause) = p :: r := by
    rw [List.filter_eq_self]
    exact fun q hq => by simp [h q hq]
  simp only [reportFaults, hsame]
  rfl

/-- The report of overflows alone names each lane with its address. -/
theorem reportFaults_offOvf {ls : List Nat} (h : ls ≠ []) (a : Nat → DWord) (m : LaneMask) :
    reportFaults (ls.map fun l => (l, offOvf (a l))) false m =
      some { code := fOFFOVF, cause := 0, mask := maskWhere fun l => ls.contains l, addrs := ls.map fun l => (l, a l) } := by
  have hany : ∀ l, (ls.map fun l => (l, offOvf (a l))).any (·.1 == l) = ls.contains l := fun l => by
    rw [Bool.eq_iff_iff]
    simp only [List.any_map, List.any_eq_true, Function.comp, beq_iff_eq, List.contains_iff_mem, exists_eq_right]
  rw [reportFaults_alike (code := fOFFOVF) (cause := 0) (by simpa using h)]
  · simp only [hany, List.map_map]
    rfl
  · intro p hp
    obtain ⟨l, -, rfl⟩ := List.mem_map.1 hp
    exact ⟨rfl, rfl⟩

theorem maskWhere_congr {f g : Nat → Bool} (h : ∀ l, l < 32 → f l = g l) : maskWhere f = maskWhere g := by
  apply BitVec.eq_of_getLsbD_eq
  intro l hl
  exact (laneOf_maskWhere f hl).trans ((h l hl).trans (laneOf_maskWhere g hl).symm)

/-- The reported fault raised before the instruction, or the state it moves on to when there is none; POISON reports no address. -/
def State.faultOr (s : State) (c : Cur) (w : Wave) (t : State) (r : Option LFault) : State :=
  match r with
  | some f => s.faultAs c w (if f.code = fPOISON then { f with addrs := [] } else f)
  | none => t

/-! ### What `runAddr` answers -/

/-- What the lanes of an executing address instruction give: the address to report where the test holds, the pair to write elsewhere. -/
def Cur.lanesGive (c : Cur) (w : Wave) (val : Wave → Split → Nat → Except DWord DWord) (ovf : Nat → Bool) (a y : Nat → DWord) : Prop :=
  ∀ l, val (c.reads w) ((c.reads w).split c.entry) l = if ovf l then .error (a l) else .ok (y l)

section RunAddr

variable {s : State} {c : Cur} {w : Wave} {o : Bin} {val : Wave → Split → Nat → Except DWord DWord} {ovf : Nat → Bool} {a y : Nat → DWord}
  (h : s.runs c w) (hv : c.lanesGive w val ovf a y) (srcs : List (Src × Nat))

include h hv

/-- With sound registers an address instruction raises the overflows of its computing lanes, or writes its destination and moves on. -/
theorem runAddr_sound :
    runAddr o srcs val s = .next
      (s.faultOr c w (s.done c (w.putW true (c.active w o.ctl) o.d fun l => if ovf l then 0 else (y l).toNat))
        (reportFaults (((compLanes o.d (c.active w o.ctl)).filter ovf).map fun l => (l, offOvf (a l))) o.d.uni (c.active w o.ctl))) := by
  obtain ⟨hh, he⟩ := h
  have hf : (fun l => if ovf l then 0 else (y l).toNat) =
      fun l => (pairOr0 (val (c.reads w) ((c.reads w).split c.entry) l)).toNat := by
    funext l
    rw [hv l]
    cases ovf l <;> rfl
  rw [← addrFaults_sound he hv srcs, hf]
  simp only [runAddr, State.run_some hh, Wave.poisoned_sound _ he, Wave.putD64_eq_putW]
  rfl

/-- When no computing lane overflows, the instruction writes the lanes' pairs to its destination and changes nothing else. -/
theorem runAddr_fits (hfit : ∀ l, l < 32 → c.computes o.d (c.active w o.ctl) l = true → ovf l = false) :
    ∃ w', runAddr o srcs val s = .next (s.done c w') ∧ s.onlyWave (s.done c w') c.wave ∧ w.onlyRegs w' ∧
      w.sameBut w' o.d 2 (c.active w o.ctl) ∧ w'.fpstat = w.fpstat ∧ w'.pr = w.pr ∧
      ∀ l, l < 32 → c.writes o.d (c.active w o.ctl) l = true → w'.dst true o.d l = (y l).toNat := by
  have hnone : (compLanes o.d (c.active w o.ctl)).filter ovf = [] := by
    rw [List.filter_eq_nil_iff]
    intro l hl
    obtain ⟨hlt, hc⟩ := (mem_compLanes c).1 hl
    simp [hfit l hlt hc]
  have hrun := runAddr_sound (o := o) h hv srcs
  rw [hnone] at hrun
  refine ⟨_, hrun, State.onlyWave_done _ _ _, Wave.onlyRegs_putW _ _ _ _ _, Wave.sameBut_putW _ _ _ _ _, Wave.fpstat_putW _ _ _ _ _,
    Wave.pr_putW _ _ _ _ _, fun l hl hw => ?_⟩
  rw [Wave.dst_putW c _ _ _ _ _ hl hw, hfit l hl (Cur.computes_of_writes hw)]
  exact Nat.mod_eq_of_lt (y l).isLt

/-- When a computing lane overflows, the instruction raises OFFOVF before itself for each that does; uniform, for `active` or lane 0. -/
theorem runAddr_overflows (hovf : ∃ l, l < 32 ∧ c.computes o.d (c.active w o.ctl) l = true ∧ ovf l = true) :
    runAddr o srcs val s = .next (if o.d.uni
      then s.fault c w fOFFOVF 0 (orLane0 (c.active w o.ctl)) ((lanesOf (orLane0 (c.active w o.ctl))).map fun l => (l, a 0))
      else s.fault c w fOFFOVF 0 (maskWhere fun l => laneOf (c.active w o.ctl) l && ovf l)
        (((lanesOf (c.active w o.ctl)).filter ovf).map fun l => (l, a l))) := by
  obtain ⟨l, hl, hc, ho⟩ := hovf
  have hmem : l ∈ (compLanes o.d (c.active w o.ctl)).filter ovf := List.mem_filter.2 ⟨(mem_compLanes c).2 ⟨hl, hc⟩, ho⟩
  rw [runAddr_sound h hv srcs]
  cases hu : o.d.uni with
  | true =>
    have hls : (compLanes o.d (c.active w o.ctl)).filter ovf = [0] := by
      simp only [compLanes, hu, if_true, List.mem_filter, List.mem_singleton] at hmem ⊢
      obtain ⟨rfl, h0⟩ := hmem
      simp [h0]
    rw [hls]
    rfl
  | false =>
    have hls : compLanes o.d (c.active w o.ctl) = lanesOf (c.active w o.ctl) := by simp [compLanes, hu]
    have hmask : (maskWhere fun l => ((lanesOf (c.active w o.ctl)).filter ovf).contains l) =
        maskWhere fun l => laneOf (c.active w o.ctl) l && ovf l :=
      maskWhere_congr fun l hl => by rw [Bool.eq_iff_iff]; simp [mem_lanesOf, hl]
    rw [hls] at hmem ⊢
    rw [reportFaults_offOvf (List.ne_nil_of_mem hmem), hmask]
    rfl

end RunAddr

/-! ### SEGA -/

/-- A lane of SEGA overflows when the offset it is given does not fit the 44 bits. -/
def Cur.segaOvf (c : Cur) (w : Wave) (o : Bin) (l : Nat) : Bool := decide (2 ^ 44 ≤ c.bits w .b64 l o.b)

/-- The pair a lane of SEGA makes. -/
def Cur.segaPair (c : Cur) (w : Wave) (o : Bin) (l : Nat) : DWord := segAddr ((c.word w l o.a).toNat % 2 ^ 20) (c.bits w .b64 l o.b)

/-- What a lane of SEGA answers. -/
def segaLane (o : Bin) (w : Wave) (x : Split) (l : Nat) : Except DWord DWord := segaVal (w.src x l o.a) (w.src64 x l false o.b)

theorem exec_sega (o : Bin) (s : State) : exec (.sega o) s = runAddr o [(o.a, 1), (o.b, 2)] (segaLane o) s := rfl

theorem segaLane_gives (c : Cur) (w : Wave) (o : Bin) :
    c.lanesGive w (segaLane o) (c.segaOvf w o) (fun l => BitVec.ofNat 64 (c.bits w .b64 l o.b)) (c.segaPair w o) := by
  intro l
  simp only [ofNat_bits_b64, segaLane, segaVal, Cur.segaOvf, decide_eq_true_eq]
  rfl

theorem segaOvf_eq_false {c : Cur} {w : Wave} {o : Bin} {l : Nat} (h : c.bits w .b64 l o.b < 2 ^ 44) : c.segaOvf w o l = false :=
  decide_eq_false (Nat.not_le.2 h)

theorem segaPair_toNat {c : Cur} {w : Wave} {o : Bin} {l : Nat} (h : c.bits w .b64 l o.b < 2 ^ 44) :
    (c.segaPair w o l).toNat = (c.word w l o.a).toNat % 2 ^ 20 * 2 ^ 44 + c.bits w .b64 l o.b :=
  segAddr_toNat (Nat.mod_lt _ (by decide)) h

/-! ### PADD -/

/-- The offset a lane of PADD reaches. -/
def Cur.paddOff (c : Cur) (w : Wave) (o : Bin) (l : Nat) : Int :=
  (c.bits w .b64 l o.a % 2 ^ 44 : Nat) + o.ty.num (o.ty.eltBits (c.bits w o.ty l o.b) 0)

def Cur.paddOvf (c : Cur) (w : Wave) (o : Bin) (l : Nat) : Bool := decide (c.paddOff w o l < 0 ∨ 2 ^ 44 ≤ c.paddOff w o l)

/-- The pair a lane of PADD makes: the selector stays. -/
def Cur.paddPair (c : Cur) (w : Wave) (o : Bin) (l : Nat) : DWord := segAddr (c.bits w .b64 l o.a / 2 ^ 44) (c.paddOff w o l).toNat

theorem Instr.wf_padd_ty {o : Bin} (h : (Instr.padd o).wf = true) : o.ty = .i32 ∨ o.ty = .i64 := by
  simp only [Instr.wf, Bool.and_eq_true, and_assoc] at h
  obtain ⟨-, hty, -⟩ := h
  simpa using hty

/-- The signed byte count PADD reads, a word or a pair. -/
theorem paddCount_eq (c : Cur) (w : Wave) (ty : Ty) (l : Nat) (b : Src) (h : ty = .i32 ∨ ty = .i64) :
    (if ty.wide then ((c.reads w).src64 ((c.reads w).split c.entry) l true b).toInt else ((c.reads w).src ((c.reads w).split c.entry) l b).toInt) =
      ty.num (ty.eltBits (c.bits w ty l b) 0) := by
  have hw : ∀ x : Word, Ty.num .i32 (Ty.eltBits .i32 x.toNat 0) = x.toInt := fun x => by
    simp [Ty.num, Ty.eltBits, Ty.signed, Ty.elt]
  have hd : ∀ x : DWord, Ty.num .i64 (Ty.eltBits .i64 x.toNat 0) = x.toInt := fun x => by
    simp [Ty.num, Ty.eltBits, Ty.signed, Ty.elt]
  rcases h with rfl | rfl
  · exact (hw _).symm
  · exact (hd _).symm

/-- What a lane of PADD answers. -/
def paddLane (o : Bin) (w : Wave) (x : Split) (l : Nat) : Except DWord DWord :=
  paddVal (w.src64 x l false o.a) (if o.ty.wide then (w.src64 x l true o.b).toInt else (w.src x l o.b).toInt)

theorem exec_padd (o : Bin) (s : State) : exec (.padd o) s = runAddr o [(o.a, 2), (o.b, o.ty.words)] (paddLane o) s := rfl

theorem paddLane_gives (c : Cur) (w : Wave) {o : Bin} (h : o.ty = .i32 ∨ o.ty = .i64) :
    c.lanesGive w (paddLane o) (c.paddOvf w o) (fun l => BitVec.ofNat 64 (c.bits w .b64 l o.a)) (c.paddPair w o) := by
  intro l
  simp only [ofNat_bits_b64, paddLane, paddCount_eq c w o.ty l o.b h, paddVal, Cur.paddOvf, Bool.decide_or]
  rfl

theorem paddOvf_eq_false {c : Cur} {w : Wave} {o : Bin} {l : Nat} (h : 0 ≤ c.paddOff w o l ∧ c.paddOff w o l < 2 ^ 44) :
    c.paddOvf w o l = false :=
  decide_eq_false (by omega)

theorem paddPair_toNat {c : Cur} {w : Wave} {o : Bin} {l : Nat} (h : 0 ≤ c.paddOff w o l ∧ c.paddOff w o l < 2 ^ 44) :
    ((c.paddPair w o l).toNat : Int) = (c.bits w .b64 l o.a / 2 ^ 44 * 2 ^ 44 : Nat) + c.paddOff w o l := by
  rw [Cur.paddPair, segAddr_toNat (bits_b64_sel_lt c w l o.a) (by omega)]
  omega

/-! ### PSEG and POFF -/

/-- A register-only instruction whose values fit its destination leaves each where it writes. -/
theorem State.runLane_dst {s : State} {c : Cur} {w : Wave} (h : s.runs c w) (ctl : Ctl) (d : Dst) (wide : Bool) (srcs : List (Src × Nat))
    {val : Wave → Split → Nat → Nat × Nat} (hlt : ∀ l, (val (c.reads w) ((c.reads w).split c.entry) l).1 < 2 ^ (if wide then 64 else 32)) :
    ∃ w', s.runLane ctl.pred ctl.neg d wide srcs val = .next (s.done c w') ∧
      ∀ l, l < 32 → c.writes d (c.active w ctl) l = true → w'.dst wide d l = (val (c.reads w) ((c.reads w).split c.entry) l).1 := by
  refine ⟨_, State.runLane_sound h.1 h.2 .., fun l hl hw => ?_⟩
  rw [Wave.dst_orFp]
  exact (Wave.dst_putW c _ _ _ _ _ hl hw).trans (Nat.mod_eq_of_lt (hlt l))

theorem exec_pseg_sound {s : State} {c : Cur} {w : Wave} (o : Un) (h : s.runs c w) :
    ∃ w', exec (.pseg o) s = .next (s.done c w') ∧
      ∀ l, l < 32 → c.writes o.d (c.active w o.ctl) l = true → w'.dst false o.d l = c.bits w .b64 l o.a / 2 ^ 44 :=
  State.runLane_dst h o.ctl o.d false [(o.a, 2)] (val := fun w x l => (selOf (w.src64 x l false o.a), 0))
    fun _ => Nat.lt_trans (selOf_lt _) (by decide)

theorem exec_poff_sound {s : State} {c : Cur} {w : Wave} (o : Un) (h : s.runs c w) :
    ∃ w', exec (.poff o) s = .next (s.done c w') ∧
      ∀ l, l < 32 → c.writes o.d (c.active w o.ctl) l = true → w'.dst true o.d l = c.bits w .b64 l o.a % 2 ^ 44 :=
  State.runLane_dst h o.ctl o.d true [(o.a, 2)] (val := fun w x l => (offOf (w.src64 x l false o.a), 0))
    fun _ => Nat.lt_trans (Nat.mod_lt _ (by decide)) (by decide)

/-! ### The statements -/

theorem addressInstructions : AddressInstructions := by
  intro s c w h
  refine ⟨fun o _ hfit => ?_, fun o hwf => ?_, fun o _ => exec_pseg_sound o h, fun o _ => exec_poff_sound o h⟩
  · obtain ⟨w', hrun, hs, hr, hb, hf, hp, hy⟩ :=
      runAddr_fits h (segaLane_gives c w o) [(o.a, 1), (o.b, 2)] fun l hl hc => segaOvf_eq_false (hfit l hl hc)
    exact ⟨w', hrun, hs, hr, hb, hf, hp, fun l hl hw => (hy l hl hw).trans (segaPair_toNat (hfit l hl (Cur.computes_of_writes hw)))⟩
  · intro off hfit
    obtain ⟨w', hrun, hs, hr, hb, hf, hp, hy⟩ :=
      runAddr_fits h (paddLane_gives c w (Instr.wf_padd_ty hwf)) [(o.a, 2), (o.b, o.ty.words)] fun l hl hc => paddOvf_eq_false (hfit l hl hc)
    exact ⟨w', hrun, hs, hr, hb, hf, hp, fun l hl hw =>
      (congrArg Int.ofNat (hy l hl hw)).trans (paddPair_toNat (hfit l hl (Cur.computes_of_writes hw)))⟩

theorem offsetOverflowTraps : OffsetOverflowTraps := by
  intro o s c w h p hp hwf hovf
  simp only [List.mem_cons, List.not_mem_nil, or_false] at hp
  rcases hp with rfl | rfl
  · rw [exec_sega, runAddr_overflows h (segaLane_gives c w o) _ hovf]
    rfl
  · rw [exec_padd, runAddr_overflows h (paddLane_gives c w (Instr.wf_padd_ty hwf)) _ hovf]
    rfl

/-- Settles O6: SEGA and PADD through what `runAddr` answers with and without an overflow, PSEG and POFF through `runLane`. -/
theorem addresses : Obligations.Addresses := ⟨addressInstructions, offsetOverflowTraps⟩

end Sys2Proof.Machine
end

section
/-! SUPPORT. Integer arithmetic (05 R105, R108): the elements of a type, what the shapes of one, two and three sources leave in the
destination for any function on the operands' bits, and what an exact operation leaves in each element. -/

namespace Sys2Proof

/-! ### Elements -/

theorem Ty.elt_pos (t : Ty) : 0 < t.elt := by cases t <;> decide

theorem Ty.elt_of_isPacked {t : Ty} (h : t.isPacked = true) : t.elt = 16 := by
  cases t with
  | i16x2 | n16x2 | f16x2 | bf16x2 => rfl
  | _ => cases h

theorem Ty.wide_of_isPacked {t : Ty} (h : t.isPacked = true) : t.wide = false := by
  cases t with
  | i16x2 | n16x2 | f16x2 | bf16x2 => rfl
  | _ => cases h

/-- An element fits the registers of its operand. -/
theorem Ty.two_pow_elt_le (t : Ty) : 2 ^ t.elt ≤ 2 ^ (if t.wide then 64 else 32) :=
  Nat.pow_le_pow_right (by decide) (by cases t <;> decide)

theorem Ty.eltBits_zero (t : Ty) (x : Nat) : t.eltBits x 0 = BitVec.ofNat t.elt x := by simp [Ty.eltBits]

/-- The number the model reads an element as is the number its bits stand for. -/
theorem Ty.val_eq_num (t : Ty) (x : Nat) : t.val x = t.num (BitVec.ofNat t.elt x) := by
  have hp : 2 ^ t.elt = 2 * 2 ^ (t.elt - 1) := by rw [← Nat.pow_succ', Nat.succ_eq_add_one, Nat.sub_add_cancel t.elt_pos]
  unfold Ty.val Ty.num
  cases t.signed with
  | true =>
    simp only [sxNat, BitVec.toInt_eq_toNat_cond, BitVec.toNat_ofNat, if_true]
    split <;> split <;> omega
  | false => simp

theorem Ty.val_mod (t : Ty) (x : Nat) : t.val (x % 2 ^ t.elt) = t.val x := by
  simp only [Ty.val, sxNat, Nat.mod_mod]

theorem clampInt_eq_max_min {lo hi : Int} (h : lo ≤ hi) (r : Int) : clampInt lo hi r = max lo (min hi r) := by
  unfold clampInt
  split
  · omega
  · split <;> omega

theorem Ty.lo_le_hi (t : Ty) : t.lo ≤ t.hi := by cases t <;> decide

/-- The clamped or whole exact result that a type keeps the low bits of. -/
theorem Ty.keep_eq (t : Ty) (sat : Bool) (r : Int) : t.keep sat r = BitVec.ofInt t.elt (if sat then clampInt t.lo t.hi r else r) := by
  rw [clampInt_eq_max_min t.lo_le_hi]
  simp only [Ty.keep, Ty.lo, Ty.hi, Nat.cast_pow, Nat.cast_ofNat]

theorem narrow_lt (n : Nat) (x : Int) : narrow n x < 2 ^ n := by
  have : (0 : Int) < (2 ^ n : Nat) := by positivity
  unfold narrow
  omega

theorem ofNat_narrow (n : Nat) (x : Int) : BitVec.ofNat n (narrow n x) = BitVec.ofInt n x := by
  apply BitVec.eq_of_toNat_eq
  rw [BitVec.toNat_ofNat, BitVec.toNat_ofInt, narrow, Nat.mod_eq_of_lt]
  exact narrow_lt n x

theorem Ty.ofNat_fit (t : Ty) (sat : Bool) (r : Int) : BitVec.ofNat t.elt (t.fit sat r) = t.keep sat r := by
  rw [Ty.keep_eq, Ty.fit, ofNat_narrow]

theorem Ty.fit_lt (t : Ty) (sat : Bool) (r : Int) : t.fit sat r < 2 ^ (if t.wide then 64 else 32) :=
  Nat.lt_of_lt_of_le (narrow_lt _ _) t.two_pow_elt_le

/-- An operation on each element stays within the operand's registers. -/
theorem Ty.each_lt (t : Ty) {f : Nat → Nat → Nat} (hf : ∀ x y, f x y < 2 ^ (if t.wide then 64 else 32)) (a b : Nat) :
    t.each f a b < 2 ^ (if t.wide then 64 else 32) := by
  unfold Ty.each
  split
  · rename_i hp
    simp only [Ty.wide_of_isPacked hp, Bool.false_eq_true, if_false]
    omega
  · exact hf a b

/-- Element `i` of an operation on each element. -/
theorem Ty.eltBits_each (t : Ty) (f : Nat → Nat → Nat) (a b : Nat) {i : Nat} (hi : i < t.elts)
    (hf : ∀ x y, f (x % 2 ^ t.elt) (y % 2 ^ t.elt) = f x y) :
    t.eltBits (t.each f a b) i = BitVec.ofNat t.elt (f (a / 2 ^ (t.elt * i)) (b / 2 ^ (t.elt * i))) := by
  unfold Ty.elts at hi
  unfold Ty.each
  split
  · rename_i hp
    have he := Ty.elt_of_isPacked hp
    rw [if_pos hp] at hi
    have hlo := hf a b
    have hhi := hf (a / 2 ^ 16) (b / 2 ^ 16)
    rw [he] at hlo hhi
    apply BitVec.eq_of_toNat_eq
    simp only [Ty.eltBits, BitVec.toNat_ofNat, he, bitsOf, hlo, hhi]
    interval_cases i
    · simp only [Nat.mul_zero, pow_zero, Nat.div_one]; omega
    · simp only [Nat.mul_one]; omega
  · rename_i hp
    rw [if_neg hp] at hi
    obtain rfl : i = 0 := by omega
    simp [Ty.eltBits_zero]

end Sys2Proof

namespace Sys2Proof.Machine

/-! ### An exact operation, element by element -/

theorem arith_lt (t : Ty) (sat : Bool) (f : Int → Int → Int) (a b : Nat) : arith t sat f a b < 2 ^ (if t.wide then 64 else 32) :=
  t.each_lt (fun _ _ => t.fit_lt sat _) a b

/-- Each element of an exact operation is the exact result on the elements' numbers, kept to the type. -/
theorem eltBits_arith (t : Ty) (sat : Bool) (f : Int → Int → Int) (a b : Nat) {i : Nat} (hi : i < t.elts) :
    t.eltBits (arith t sat f a b) i = t.keep sat (f (t.num (t.eltBits a i)) (t.num (t.eltBits b i))) := by
  rw [arith, Ty.eltBits_each t _ a b hi fun x y => by simp only [Ty.val_mod], Ty.ofNat_fit, Ty.val_eq_num, Ty.val_eq_num]
  rfl

theorem minI_eq_arith (t : Ty) : minI t = arith t false min := by
  have : (fun x y : Int => if y < x then y else x) = min := by
    funext x y
    rw [min_def]
    split <;> split <;> omega
  rw [← this]; rfl

theorem maxI_eq_arith (t : Ty) : maxI t = arith t false max := by
  have : (fun x y : Int => if x < y then y else x) = max := by
    funext x y
    rw [max_def]
    split <;> split <;> omega
  rw [← this]; rfl

theorem absI_eq_arith (t : Ty) (sat : Bool) (a : Nat) : absI t sat a = arith t sat (fun x _ => |x|) a 0 := by
  have : (fun x _ : Int => if x < 0 then -x else x) = fun x _ => |x| := by
    funext x _
    split
    · rw [abs_of_neg ‹_›]
    · rw [abs_of_nonneg (by omega)]
  rw [← this]; rfl

/-! ### What the shapes leave in the destination -/

/-- A destination read as a source gives what it holds. -/
theorem Cur.bits_asSrc (c : Cur) (w : Wave) (ty : Ty) (l : Nat) (d : Dst) : c.bits w ty l d.asSrc = (c.reads w).dst ty.wide d l := by
  unfold Cur.bits Wave.opnd
  cases d with
  | v n | s n => cases ty.wide <;> rfl
  | zero => cases ty.wide <;> cases ty.signed <;> rfl

section Shapes

variable {s : State} {c : Cur} {w : Wave} (h : s.runs c w)

include h

theorem runUn_dst (o : Un) {f : Nat → Nat} (hf : ∀ a, f a < 2 ^ (if o.ty.wide then 64 else 32)) :
    ∃ w', runUn o f s = .next (s.done c w') ∧
      ∀ l, l < 32 → c.writes o.d (c.active w o.ctl) l = true → w'.dst o.ty.wide o.d l = f (c.bits w o.ty l o.a) :=
  State.runLane_dst h o.ctl o.d o.ty.wide _ (val := fun w x l => (f (w.opnd x o.ty l o.a), 0)) fun _ => hf _

theorem runBin_dst (o : Bin) {f : Nat → Nat → Nat} (hf : ∀ a b, f a b < 2 ^ (if o.ty.wide then 64 else 32)) :
    ∃ w', runBin o f s = .next (s.done c w') ∧
      ∀ l, l < 32 → c.writes o.d (c.active w o.ctl) l = true →
        w'.dst o.ty.wide o.d l = f (c.bits w o.ty l o.a) (c.bits w o.ty l o.b) :=
  State.runLane_dst h o.ctl o.d o.ty.wide _ (val := fun w x l => (f (w.opnd x o.ty l o.a) (w.opnd x o.ty l o.b), 0)) fun _ => hf _ _

theorem runTri_dst (o : Tri) (wide : Bool) {f : Nat → Nat → Nat → Nat} (hf : ∀ a b d, f a b d < 2 ^ (if wide then 64 else 32)) :
    ∃ w', runTri o wide f s = .next (s.done c w') ∧
      ∀ l, l < 32 → c.writes o.d (c.active w o.ctl) l = true →
        w'.dst wide o.d l = f (c.bits w o.ty l o.a) (c.bits w o.ty l o.b) (c.bits w o.ty l o.c) :=
  State.runLane_dst h o.ctl o.d wide _
    (val := fun w x l => (f (w.opnd x o.ty l o.a) (w.opnd x o.ty l o.b) (w.opnd x o.ty l o.c), 0)) fun _ => hf _ _ _

theorem runMirror_dst (o : Bin) {f : Nat → Nat → Nat → Nat} (hf : ∀ a b d, f a b d < 2 ^ (if o.ty.wide then 64 else 32)) :
    ∃ w', runMirror o f s = .next (s.done c w') ∧
      ∀ l, l < 32 → c.writes o.d (c.active w o.ctl) l = true →
        w'.dst o.ty.wide o.d l = f (c.bits w o.ty l o.a) (c.bits w o.ty l o.b) ((c.reads w).dst o.ty.wide o.d l) := by
  simp only [← Cur.bits_asSrc]
  exact State.runLane_dst h o.ctl o.d o.ty.wide _
    (val := fun w x l => (f (w.opnd x o.ty l o.a) (w.opnd x o.ty l o.b) (w.opnd x o.ty l o.d.asSrc), 0)) fun _ => hf _ _ _

/-- An exact operation on two sources leaves in each element the exact result, kept to the type. -/
theorem runBin_arith (o : Bin) {g : Nat → Nat → Nat} {sat : Bool} {f : Int → Int → Int} (hg : g = arith o.ty sat f) :
    ∃ w', runBin o g s = .next (s.done c w') ∧
      ∀ l i, l < 32 → i < o.ty.elts → c.writes o.d (c.active w o.ctl) l = true →
        o.ty.eltBits (w'.dst o.ty.wide o.d l) i =
          o.ty.keep sat (f (o.ty.num (o.ty.eltBits (c.bits w o.ty l o.a) i)) (o.ty.num (o.ty.eltBits (c.bits w o.ty l o.b) i))) := by
  subst hg
  obtain ⟨w', hrun, hd⟩ := runBin_dst h o (arith_lt o.ty sat f)
  exact ⟨w', hrun, fun l i hl hi hw => by rw [hd l hl hw, eltBits_arith _ _ _ _ _ hi]⟩

/-- An exact operation on one source, likewise. -/
theorem runUn_arith (o : Un) {g : Nat → Nat} {f : Int → Int} (hg : ∀ a, g a = arith o.ty o.sat (fun x _ => f x) a 0) :
    ∃ w', runUn o g s = .next (s.done c w') ∧
      ∀ l i, l < 32 → i < o.ty.elts → c.writes o.d (c.active w o.ctl) l = true →
        o.ty.eltBits (w'.dst o.ty.wide o.d l) i = o.ty.keep o.sat (f (o.ty.num (o.ty.eltBits (c.bits w o.ty l o.a) i))) := by
  obtain ⟨w', hrun, hd⟩ := runUn_dst h o (f := g) fun a => hg a ▸ arith_lt o.ty o.sat _ a 0
  exact ⟨w', hrun, fun l i hl hi hw => by rw [hd l hl hw, hg, eltBits_arith _ _ _ _ _ hi]⟩

end Shapes

theorem integerArithmetic : IntegerArithmetic := by
  intro o s c w h p hp _
  simp only [List.mem_cons, List.not_mem_nil, or_false] at hp
  rcases hp with rfl | rfl | rfl | rfl | rfl | rfl | rfl
  · exact runBin_arith h o (rfl : addI o.ty o.sat = _)
  · exact runBin_arith h o (rfl : subI o.ty o.sat = _)
  · exact runBin_arith h o (rfl : mulI o.ty o.sat = _)
  · exact runBin_arith h o (minI_eq_arith o.ty)
  · exact runBin_arith h o (maxI_eq_arith o.ty)
  · exact runBin_arith h o (minI_eq_arith o.ty)
  · exact runBin_arith h o (maxI_eq_arith o.ty)

theorem absoluteAndNegate : AbsoluteAndNegate := by
  intro o s c w h p hp _
  simp only [List.mem_cons, List.not_mem_nil, or_false] at hp
  rcases hp with rfl | rfl
  · exact runUn_arith h o (absI_eq_arith o.ty o.sat)
  · exact runUn_arith h o (g := negI o.ty o.sat) fun _ => rfl

/-! ### Multiply-add, the high product, carry -/

theorem eltBits_madI (t : Ty) (sat : Bool) (a b d : Nat) : t.eltBits (madI t sat a b d) 0 =
    t.keep sat (t.num (t.eltBits a 0) * t.num (t.eltBits b 0) + t.num (t.eltBits d 0)) := by
  simp only [Ty.eltBits_zero, madI, Ty.ofNat_fit, Ty.val_eq_num]

theorem mulhI_eq (t : Ty) (a b : Nat) : (mulhI t a b : Int) = t.num (t.eltBits a 0) * t.num (t.eltBits b 0) / 2 ^ 32 % 2 ^ 32 := by
  simp only [Ty.eltBits_zero, mulhI, Ty.val_eq_num, narrow]
  omega

theorem adcI_lt (a b d : Nat) : adcI a b d < 2 ^ 64 := by
  unfold adcI
  omega

theorem adcI_words (a b d : Word) : adcI a.toNat b.toNat d.toNat = a.toNat + b.toNat + d.toNat % 2 := by
  unfold adcI
  omega

theorem Instr.wf_imulh_narrow {o : Bin} (h : (Instr.imulh o).wf = true) : o.ty.wide = false := by
  simp only [Instr.wf, Bin.ok, Bool.and_eq_true, and_assoc] at h
  obtain ⟨-, hty, -⟩ := h
  simp only [List.contains_cons, List.contains_nil, Bool.or_false, Bool.or_eq_true, beq_iff_eq] at hty
  rcases hty with hty | hty <;> rw [hty] <;> rfl

theorem Instr.wf_iadc_narrow {o : Tri} (h : (Instr.iadc o).wf = true) : o.ty.wide = false := by
  simp only [Instr.wf, Tri.ok, Bool.and_eq_true, and_assoc] at h
  obtain ⟨-, hty, -⟩ := h
  simp only [List.contains_cons, List.contains_nil, Bool.or_false, Bool.or_eq_true, beq_iff_eq] at hty
  rcases hty with hty | hty <;> rw [hty] <;> rfl

/-- A source of a type of one register is its word. -/
theorem Cur.bits_narrow (c : Cur) (w : Wave) {ty : Ty} (h : ty.wide = false) (l : Nat) (o : Src) : c.bits w ty l o = (c.word w l o).toNat := by
  simp [Cur.bits, Cur.word, Wave.opnd, h]

theorem multiplyAddAndCarry : MultiplyAddAndCarry := by
  intro s c w l h hl
  refine ⟨fun o _ hw => ?_, fun o _ hw => ?_, fun o hwf hw => ?_, fun o hwf hw => ?_⟩
  · obtain ⟨w', hrun, hd⟩ := runTri_dst h o o.ty.wide (f := madI o.ty o.sat) fun _ _ _ => o.ty.fit_lt _ _
    exact ⟨w', hrun, by rw [hd l hl hw, eltBits_madI]⟩
  · obtain ⟨w', hrun, hd⟩ := runMirror_dst h o (f := madI o.ty o.sat) fun _ _ _ => o.ty.fit_lt _ _
    exact ⟨w', hrun, by rw [hd l hl hw, eltBits_madI]⟩
  · have hn := Instr.wf_imulh_narrow hwf
    obtain ⟨w', hrun, hd⟩ := runBin_dst h o (f := mulhI o.ty) fun _ _ => by rw [hn]; exact narrow_lt _ _
    exact ⟨w', hrun, by rw [← mulhI_eq, ← hd l hl hw, hn]⟩
  · have hn := Instr.wf_iadc_narrow hwf
    obtain ⟨w', hrun, hd⟩ := runTri_dst h o true adcI_lt
    exact ⟨w', hrun, by rw [hd l hl hw]; simp only [Cur.bits_narrow c w hn, adcI_words]⟩

/-- Settles O2: the arithmetic of two and of one source element by element, then IMAD, IMULH and IADC. -/
theorem integers : Obligations.Integers := ⟨integerArithmetic, absoluteAndNegate, multiplyAddAndCarry⟩

end Sys2Proof.Machine
end

section
/-! SUPPORT. Compares, selection and moves (05 R110): what an instruction that writes a predicate leaves in it, the lowest lane of a mask,
and the values of ICMP, SEL and MOVL. -/

namespace Sys2Proof.Machine

/-! ### Instructions that write a predicate -/

theorem predDstOk_ne {n : Nat} (h : predDstOk n = true) : n ≠ 15 := by
  simp only [predDstOk, decide_eq_true_eq] at h
  omega

/-- With sound registers an instruction that writes a predicate leaves each active lane's value in it. -/
theorem State.runPred_lanes {s : State} {c : Cur} {w : Wave} (h : s.runs c w) (ctl : Ctl) {d : Nat} (hd : predDstOk d = true)
    (srcs : List (Src × Nat)) (preds : List Nat) (val : Wave → Split → LaneMask → Nat → Bool × Nat) :
    ∃ w', s.runPred ctl.pred ctl.neg d srcs preds val = .next (s.done c w') ∧
      ∀ l, l < 32 → laneOf (c.active w ctl) l = true →
        laneOf (w'.p d) l = (val (c.reads w) ((c.reads w).split c.entry) (c.active w ctl) l).1 := by
  refine ⟨_, State.runPred_sound h.1 h.2 .., fun l hl ha => ?_⟩
  rw [Wave.p_orFp, Wave.laneOf_putPd _ _ _ _ _ (predDstOk_ne hd) hl, if_pos ⟨rfl, ha⟩]
  rfl

theorem Cmp.predDstOk_of_ok {o : Cmp} {tys : List Ty} {conds : List Cond} (h : o.ok tys conds = true) : predDstOk o.d = true := by
  simp only [Cmp.ok, Bool.and_eq_true, and_assoc] at h
  obtain ⟨-, hd, -⟩ := h
  exact hd

/-! ### The lowest lane of a mask -/

theorem lanesOf_eq_nil {m : LaneMask} : lanesOf m = [] ↔ m = 0 := by
  rw [List.eq_nil_iff_forall_not_mem]
  constructor
  · intro h
    apply BitVec.eq_of_getLsbD_eq
    intro l hl
    have hf : laneOf m l = false := by simpa [mem_lanesOf, hl] using h l
    exact hf.trans (BitVec.getLsbD_zero (w := 32)).symm
  · rintro rfl l hl
    simp [mem_lanesOf, laneOf] at hl

theorem lowestLane_mem {m : LaneMask} (h : m ≠ 0) : lowestLane m ∈ lanesOf m := by
  obtain ⟨l, ls, e⟩ := List.exists_cons_of_ne_nil (mt lanesOf_eq_nil.1 h)
  simp [lowestLane, e]

theorem lowestLane_le {m : LaneMask} {l : Nat} (h : l ∈ lanesOf m) : lowestLane m ≤ l := by
  have hs : (lanesOf m).Pairwise (· < ·) := List.pairwise_lt_range.filter _
  obtain ⟨k, ks, e⟩ := List.exists_cons_of_ne_nil (List.ne_nil_of_mem h)
  rw [e] at hs h
  rw [lowestLane, e, List.headD_cons]
  rcases List.mem_cons.1 h with rfl | hl
  · exact le_rfl
  · exact le_of_lt ((List.pairwise_cons.1 hs).1 l hl)

theorem lowestLane_eq_iff {m : LaneMask} {l : Nat} (h : l ∈ lanesOf m) : lowestLane m = l ↔ ∀ j ∈ lanesOf m, l ≤ j := by
  constructor
  · rintro rfl j hj
    exact lowestLane_le hj
  · intro hle
    have hm : m ≠ 0 := mt lanesOf_eq_nil.2 (List.ne_nil_of_mem h)
    exact le_antisymm (lowestLane_le h) (hle _ (lowestLane_mem hm))

/-! ### ICMP -/

theorem exec_icmp (o : Cmp) (s : State) : exec (.icmp o) s = s.runPred o.ctl.pred o.ctl.neg o.d [(o.a, o.ty.words), (o.b, o.ty.words)] []
    fun w x _ l => (condI o.cond (o.ty.val (w.opnd x o.ty l o.a)) (o.ty.val (w.opnd x o.ty l o.b)), 0) := rfl

theorem condI_iff (k : Cond) (x y : Int) : condI k x y = true ↔ match k with
    | .eq => x = y | .ne => x ≠ y | .lt => x < y | .le => x ≤ y | .gt => x > y | .ge => x ≥ y | _ => False := by
  cases k <;> simp [condI]

/-! ### SEL -/

theorem Cur.bits_lt (c : Cur) (w : Wave) (ty : Ty) (l : Nat) (o : Src) : c.bits w ty l o < 2 ^ (if ty.wide then 64 else 32) := by
  unfold Cur.bits Wave.opnd
  cases ty.wide with
  | true => exact BitVec.isLt _
  | false => exact BitVec.isLt _

/-- With sound registers SEL writes at each lane the source its predicate picks. -/
theorem exec_sel_sound {s : State} {c : Cur} {w : Wave} (h : s.runs c w) (o : Sel) :
    exec (.sel o) s = .next (s.done c (w.putW o.ty.wide (c.active w o.ctl) o.d fun l =>
      if laneOf ((c.reads w).p o.c) l then c.bits w o.ty l o.a else c.bits w o.ty l o.b)) := by
  obtain ⟨hh, he⟩ := h
  change execSel o s = _
  simp only [execSel, State.run_some hh, Wave.poisoned_sound _ he]
  rfl

/-- Predicate 15 is true at every lane. -/
theorem Wave.laneOf_p15 (w : Wave) {l : Nat} (h : l < 32) : laneOf (w.p 15) l = true := laneOf_allOnes h

theorem compareAndSelect : CompareAndSelect := by
  intro s c w l h hl
  refine ⟨fun o hwf ha => ?_, fun o _ hw => ?_⟩
  · obtain ⟨w', hrun, hp⟩ := State.runPred_lanes h o.ctl (Cmp.predDstOk_of_ok hwf) _ _ _
    refine ⟨w', (exec_icmp o s).trans hrun, ?_⟩
    intro x y
    rw [hp l hl ha, condI_iff, Ty.val_eq_num, Ty.val_eq_num]
    simp only [x, y, Ty.eltBits_zero]
    rfl
  · refine ⟨_, exec_sel_sound h o, ?_⟩
    rw [Wave.dst_putW c _ _ _ _ _ hl hw]
    by_cases hc : o.c = 15 ∨ laneOf ((c.reads w).p o.c) l = true
    · have hp : laneOf ((c.reads w).p o.c) l = true := hc.elim (fun e => e ▸ Wave.laneOf_p15 _ hl) id
      rw [if_pos hp, if_pos hc, Nat.mod_eq_of_lt (Cur.bits_lt ..)]
    · rw [if_neg (not_or.1 hc).2, if_neg hc, Nat.mod_eq_of_lt (Cur.bits_lt ..)]

/-! ### MOVL -/

/-- With sound registers MOVL writes the value at the lowest active lane, or 0. -/
theorem exec_movl_sound {s : State} {c : Cur} {w : Wave} (h : s.runs c w) (o : Un) :
    exec (.movl o) s = .next (s.done c (w.putW o.ty.wide (c.active w o.ctl) o.d fun _ =>
      if c.active w o.ctl = 0 then 0 else c.bits w o.ty (lowestLane (c.active w o.ctl)) o.a)) := by
  obtain ⟨hh, he⟩ := h
  change execMovl o s = _
  simp only [execMovl, State.run_some hh, Wave.poisoned_sound _ he, ite_self]
  rfl

theorem Instr.wf_movl_dst {o : Un} (h : (Instr.movl o).wf = true) : ∃ n, o.d = .s n := by
  simp only [Instr.wf, Bool.and_eq_true, and_assoc] at h
  obtain ⟨-, -, -, -, hd, -⟩ := h
  cases e : o.d with
  | s n => exact ⟨n, rfl⟩
  | v n | zero => rw [e] at hd; cases hd

theorem moveLowestLane : MoveLowestLane := by
  intro o s c w h hwf
  obtain ⟨n, hn⟩ := Instr.wf_movl_dst hwf
  have hw : c.writes o.d (c.active w o.ctl) 0 = true := by rw [hn]; rfl
  refine ⟨_, exec_movl_sound h o, fun h0 => ?_, fun l hl ha hlow => ?_⟩
  · rw [Wave.dst_putW c _ _ _ _ _ (by decide) hw, if_pos h0, Nat.zero_mod]
  · have hmem : l ∈ lanesOf (c.active w o.ctl) := mem_lanesOf.2 ⟨hl, ha⟩
    have hne : c.active w o.ctl ≠ 0 := mt lanesOf_eq_nil.2 (List.ne_nil_of_mem hmem)
    have hlowest : lowestLane (c.active w o.ctl) = l := (lowestLane_eq_iff hmem).2 fun j hj => by
      by_contra hlt
      have := hlow j (by omega)
      rw [(mem_lanesOf.1 hj).2] at this
      cases this
    rw [Wave.dst_putW c _ _ _ _ _ (by decide) hw, if_neg hne, hlowest, Nat.mod_eq_of_lt (Cur.bits_lt ..)]

/-- Settles O4: ICMP through the predicate it writes, SEL and MOVL through the destination each writes. -/
theorem compareSelectMove : Obligations.CompareSelectMove := ⟨compareAndSelect, moveLowestLane⟩

end Sys2Proof.Machine
end

section
/-! SUPPORT. The order of FP32 encodings (05 R113, R114): the magnitude bits of an encoding, read as a number, order values as the exact
values that the model unpacks are ordered; the relations of FCMP in those terms. -/

namespace Sys2Proof.Machine

/-! ### Magnitudes -/

/-- The value of the FP32 magnitude bits `n`, infinity's among them, in units of 2^-149. -/
def fpMag (n : Nat) : Nat := if n / 2 ^ 23 = 0 then n % 2 ^ 23 else (2 ^ 23 + n % 2 ^ 23) * 2 ^ (n / 2 ^ 23 - 1)

theorem fpMag_of_lt {r : Nat} (h : r < 2 ^ 23) : fpMag r = r := by
  rw [fpMag, if_pos (Nat.div_eq_of_lt h), Nat.mod_eq_of_lt h]

theorem fpMag_block {q r : Nat} (h : r < 2 ^ 23) : fpMag ((q + 1) * 2 ^ 23 + r) = (2 ^ 23 + r) * 2 ^ q := by
  have hd : ((q + 1) * 2 ^ 23 + r) / 2 ^ 23 = q + 1 := by omega
  have hm : ((q + 1) * 2 ^ 23 + r) % 2 ^ 23 = r := by omega
  rw [fpMag, hd, hm, if_neg (Nat.succ_ne_zero q), Nat.add_sub_cancel]

theorem fpMag_strictMono : StrictMono fpMag := by
  apply strictMono_nat_of_lt_succ
  intro n
  obtain ⟨q, r, hr, rfl⟩ : ∃ q r, r < 2 ^ 23 ∧ n = q * 2 ^ 23 + r := ⟨n / 2 ^ 23, n % 2 ^ 23, by omega, by omega⟩
  cases q with
  | zero =>
    rw [Nat.zero_mul, Nat.zero_add, fpMag_of_lt hr]
    by_cases hlast : r + 1 < 2 ^ 23
    · rw [fpMag_of_lt hlast]; omega
    · rw [show r + 1 = (0 + 1) * 2 ^ 23 + 0 by omega, fpMag_block (by decide)]; omega
  | succ q =>
    rw [fpMag_block hr]
    have hpos : 0 < 2 ^ q := Nat.two_pow_pos q
    by_cases hlast : r + 1 < 2 ^ 23
    · rw [Nat.add_assoc, fpMag_block hlast]
      exact Nat.mul_lt_mul_of_pos_right (by omega) hpos
    · rw [show (q + 1) * 2 ^ 23 + r + 1 = (q + 1 + 1) * 2 ^ 23 + 0 by omega, fpMag_block (by decide),
        pow_succ' 2 q, ← Nat.mul_assoc]
      exact Nat.mul_lt_mul_of_pos_right (by omega) hpos

/-! ### Signed values -/

/-- An FP32 encoding's sign and magnitude bits. -/
def fpSgn (x : Word) : Bool := x.getLsbD 31
def fpAbs (x : Word) : Nat := x.toNat % 2 ^ 31

/-- A number under a sign. -/
def withSign (neg : Bool) (n : Nat) : Int := if neg then -(n : Int) else n

theorem withSign_lt_withSign {f : Nat → Nat} (hf : StrictMono f) (h0 : f 0 = 0) (p q : Bool) (a b : Nat) :
    withSign p (f a) < withSign q (f b) ↔ withSign p a < withSign q b := by
  have hab := hf.lt_iff_lt (a := a) (b := b)
  have hba := hf.lt_iff_lt (a := b) (b := a)
  have ha := hf.lt_iff_lt (a := 0) (b := a)
  have hb := hf.lt_iff_lt (a := 0) (b := b)
  rw [h0] at ha hb
  cases p <;> cases q <;> simp only [withSign, if_true, if_false, Bool.false_eq_true] <;> omega

theorem fpKey0_eq (x : Word) : fpKey0 x = withSign (fpSgn x) (fpAbs x) := by
  have hlt := x.isLt
  have hs : x.getLsbD 31 = decide (2 ^ 31 ≤ x.toNat) := by
    rw [BitVec.getLsbD, Nat.testBit_eq_decide_div_mod_eq, decide_eq_decide]
    omega
  unfold fpKey0 withSign fpSgn fpAbs
  split
  · rfl
  · rename_i h
    rw [hs] at h
    simp only [decide_eq_true_eq] at h
    omega

/-- Bringing a finite value to a smaller exponent scales it. -/
theorem manAt_scale (neg : Bool) (m : Nat) {e k j : Int} (hk : k ≤ e) (hj : j ≤ k) :
    manAt neg m e j = manAt neg m e k * (2 ^ (k - j).toNat : Nat) := by
  have hp : (e - j).toNat = (e - k).toNat + (k - j).toNat := by omega
  cases neg <;> simp only [manAt, hp, pow_add, if_true, if_false, Bool.false_eq_true] <;> push_cast <;> ring

/-- Two finite values are ordered as at any common smaller exponent. -/
theorem manAt_lt_iff (p q : Bool) (m n : Nat) {e k j : Int} (hje : j ≤ e) (hjk : j ≤ k) :
    manAt p m e (min e k) < manAt q n k (min e k) ↔ manAt p m e j < manAt q n k j := by
  have hpos : (0 : Int) < (2 ^ (min e k - j).toNat : Nat) := by positivity
  rw [manAt_scale p m (min_le_left e k) (le_min hje hjk), manAt_scale q n (min_le_right e k) (le_min hje hjk)]
  exact (Int.mul_lt_mul_right hpos).symm

/-! ### What an FP32 encoding unpacks to -/

/-- The fields of an encoding are those of its magnitude bits. -/
theorem unpackFp_fp32 (x : Word) : unpackFp fp32 x.toNat =
    if fpAbs x / 2 ^ 23 = 255 then
      if fpAbs x % 2 ^ 23 = 0 then .inf (fpSgn x) else .nan (!bitOf (fpAbs x % 2 ^ 23) 22)
    else if fpAbs x / 2 ^ 23 = 0 then .num (fpSgn x) (fpAbs x % 2 ^ 23) (-149) false
    else .num (fpSgn x) (2 ^ 23 + fpAbs x % 2 ^ 23) ((fpAbs x / 2 ^ 23 : Nat) - 150) false := by
  have hm : x.toNat % 2 ^ 23 = fpAbs x % 2 ^ 23 := by unfold fpAbs; omega
  have he : x.toNat / 2 ^ 23 % 2 ^ 8 = fpAbs x / 2 ^ 23 := by unfold fpAbs; omega
  have hs : bitOf x.toNat 31 = fpSgn x := by
    rw [fpSgn, BitVec.getLsbD, Nat.testBit_eq_decide_div_mod_eq]; rfl
  have hz : ((fpAbs x / 2 ^ 23 : Nat) : Int) - (127 : Nat) - (23 : Nat) = (fpAbs x / 2 ^ 23 : Nat) - 150 := by omega
  simp only [unpackFp, fp32, hm, he, hs, beq_iff_eq, Bool.true_and, Bool.not_true, Bool.false_and, Bool.and_false,
    Bool.false_eq_true, if_false, hz]
  rfl

theorem unpackFp32_nan {x : Word} (h : fpIsNan x = true) : ∃ b, unpackFp fp32 x.toNat = .nan b := by
  have hx : 0x7F800000 < fpAbs x := of_decide_eq_true h
  have hlt : fpAbs x < 2 ^ 31 := Nat.mod_lt _ (by decide)
  rw [unpackFp_fp32, if_pos (by omega), if_neg (by omega)]
  exact ⟨_, rfl⟩

theorem unpackFp32_inf {x : Word} (h : fpAbs x = 0x7F800000) : unpackFp fp32 x.toNat = .inf (fpSgn x) := by
  rw [unpackFp_fp32, if_pos (by omega), if_pos (by omega)]

theorem unpackFp32_fin {x : Word} (h : fpAbs x < 0x7F800000) :
    ∃ m e, unpackFp fp32 x.toNat = .num (fpSgn x) m e false ∧ -149 ≤ e ∧ m * 2 ^ (e - -149).toNat = fpMag (fpAbs x) := by
  rw [unpackFp_fp32, if_neg (by omega), fpMag]
  split
  · exact ⟨_, _, rfl, le_rfl, by simp⟩
  · exact ⟨_, _, rfl, by omega, by congr 2; omega⟩

/-! ### The exact order -/

/-- An encoding's value in units of 2^-149, the infinities beyond every number. -/
def fpVal (x : Word) : Int := withSign (fpSgn x) (fpMag (fpAbs x))

theorem fpVal_lt_iff (x y : Word) : fpVal x < fpVal y ↔ fpKey0 x < fpKey0 y := by
  rw [fpKey0_eq, fpKey0_eq]
  exact withSign_lt_withSign fpMag_strictMono rfl _ _ _ _

theorem manAt_eq_withSign (neg : Bool) (m : Nat) (e k : Int) : manAt neg m e k = withSign neg (m * 2 ^ (e - k).toNat) := rfl

/-- An infinity lies beyond every finite value, on its side. -/
theorem withSign_inf_lt {n : Nat} (h : n < fpMag 0x7F800000) (p q : Bool) :
    (withSign p (fpMag 0x7F800000) < withSign q n ↔ p = true) ∧ (withSign q n < withSign p (fpMag 0x7F800000) ↔ p = false) := by
  cases p <;> cases q <;> simp only [withSign, if_true, if_false, Bool.false_eq_true, iff_true, iff_false, reduceCtorEq] <;> omega

theorem exLt_unpackFp32 {x y : Word} (hx : fpIsNan x = false) (hy : fpIsNan y = false) :
    exLt (unpackFp fp32 x.toNat) (unpackFp fp32 y.toNat) = true ↔ fpKey0 x < fpKey0 y := by
  have hx' : fpAbs x ≤ 0x7F800000 := Nat.not_lt.1 (of_decide_eq_false hx)
  have hy' : fpAbs y ≤ 0x7F800000 := Nat.not_lt.1 (of_decide_eq_false hy)
  rw [← fpVal_lt_iff, fpVal, fpVal]
  rcases Nat.lt_or_eq_of_le hx' with hfx | hix <;> rcases Nat.lt_or_eq_of_le hy' with hfy | hiy
  · obtain ⟨m, e, ux, he, hm⟩ := unpackFp32_fin hfx
    obtain ⟨n, k, uy, hk, hn⟩ := unpackFp32_fin hfy
    rw [ux, uy]
    simp only [exLt, decide_eq_true_eq]
    rw [manAt_lt_iff _ _ _ _ he hk, manAt_eq_withSign, manAt_eq_withSign, hm, hn]
  · obtain ⟨m, e, ux, -⟩ := unpackFp32_fin hfx
    rw [ux, unpackFp32_inf hiy, hiy, (withSign_inf_lt (fpMag_strictMono hfx) _ _).2]
    simp [exLt]
  · obtain ⟨n, k, uy, -⟩ := unpackFp32_fin hfy
    rw [uy, unpackFp32_inf hix, hix, (withSign_inf_lt (fpMag_strictMono hfy) _ _).1]
    simp [exLt]
  · rw [unpackFp32_inf hix, unpackFp32_inf hiy, hix, hiy]
    have : 0 < fpMag 0x7F800000 := fpMag_strictMono (a := 0) (by decide)
    cases fpSgn x <;> cases fpSgn y <;>
      simp only [exLt, withSign, Bool.not_true, Bool.not_false, Bool.and_true, Bool.and_false, if_true, if_false, Bool.false_eq_true,
        true_iff, false_iff] <;> omega

/-! ### FCMP -/

theorem isNan_unpackFp32 (x : Word) : (unpackFp fp32 x.toNat).isNan = fpIsNan x := by
  cases h : fpIsNan x with
  | true =>
    obtain ⟨b, hb⟩ := unpackFp32_nan h
    rw [hb]; rfl
  | false =>
    have hle : fpAbs x ≤ 0x7F800000 := Nat.not_lt.1 (of_decide_eq_false h)
    rcases Nat.lt_or_eq_of_le hle with hfin | hinf
    · obtain ⟨m, e, hu, -⟩ := unpackFp32_fin hfin
      rw [hu]; rfl
    · rw [unpackFp32_inf hinf]; rfl

/-- A NaN is below nothing and above nothing. -/
theorem exLt_of_isNan {a b : Ex} (h : a.isNan = true ∨ b.isNan = true) : exLt a b = false := by
  rcases h with h | h
  · cases a with
    | nan p => rfl
    | inf p | num p m e t => cases h
  · cases b with
    | nan p => cases a <;> rfl
    | inf p | num p m e t => cases h

/-- Neither encoding is a NaN. -/
def ordered32 (x y : Word) : Prop := ¬(fpIsNan x = true ∨ fpIsNan y = true)

theorem exLt_iff_fpKey0 (x y : Word) :
    exLt (unpackFp fp32 x.toNat) (unpackFp fp32 y.toNat) = true ↔ ordered32 x y ∧ fpKey0 x < fpKey0 y := by
  by_cases hu : fpIsNan x = true ∨ fpIsNan y = true
  · have hn : exLt (unpackFp fp32 x.toNat) (unpackFp fp32 y.toNat) = false :=
      exLt_of_isNan (by rwa [isNan_unpackFp32, isNan_unpackFp32])
    simp [hn, ordered32, hu]
  · have ho := hu
    rw [not_or, Bool.not_eq_true, Bool.not_eq_true] at hu
    rw [exLt_unpackFp32 hu.1 hu.2]
    exact (and_iff_right ho).symm

theorem exEq_iff_fpKey0 (x y : Word) :
    exEq (unpackFp fp32 x.toNat) (unpackFp fp32 y.toNat) = true ↔ ordered32 x y ∧ fpKey0 x = fpKey0 y := by
  have hxy := exLt_iff_fpKey0 x y
  have hyx := exLt_iff_fpKey0 y x
  rw [ordered32] at *
  rw [or_comm (a := fpIsNan y = true)] at hyx
  simp only [exEq, isNan_unpackFp32, Bool.and_eq_true, Bool.not_eq_true', ← Bool.not_eq_true, hxy, hyx, not_or]
  constructor
  · rintro ⟨⟨⟨hx, hy⟩, hl⟩, hg⟩
    exact ⟨⟨hx, hy⟩, le_antisymm (not_lt.1 fun h => hg ⟨⟨hx, hy⟩, h⟩) (not_lt.1 fun h => hl ⟨⟨hx, hy⟩, h⟩)⟩
  · rintro ⟨⟨hx, hy⟩, he⟩
    exact ⟨⟨⟨hx, hy⟩, fun h => by omega⟩, fun h => by omega⟩

/-- FCMP's relations on two encodings. -/
theorem fcmpRes_iff (k : Cond) (a b : Word) :
    let un := fpIsNan a = true ∨ fpIsNan b = true
    let x := fpKey0 a
    let y := fpKey0 b
    ((fcmpRes k (unpackFp fp32 a.toNat) (unpackFp fp32 b.toNat)).1 = true ↔ match k with
      | .eq => ¬un ∧ x = y | .ne => ¬un ∧ x ≠ y | .lt => ¬un ∧ x < y | .le => ¬un ∧ x ≤ y | .gt => ¬un ∧ x > y | .ge => ¬un ∧ x ≥ y
      | .equ => un ∨ x = y | .neu => un ∨ x ≠ y | .ltu => un ∨ x < y | .leu => un ∨ x ≤ y | .gtu => un ∨ x > y | .geu => un ∨ x ≥ y
      | .num => ¬un | .nan => un) := by
  intro un x y
  have hlt := exLt_iff_fpKey0 a b
  have hgt := exLt_iff_fpKey0 b a
  have heq := exEq_iff_fpKey0 a b
  rw [ordered32] at hlt hgt heq
  rw [or_comm (a := fpIsNan b = true)] at hgt
  have hun : ((unpackFp fp32 a.toNat).isNan || (unpackFp fp32 b.toNat).isNan) = true ↔ un := by
    rw [isNan_unpackFp32, isNan_unpackFp32, Bool.or_eq_true]
  by_cases hu : un
  · -- a NaN: no comparison holds
    have hf {q : Prop} : ¬(¬un ∧ q) := fun h => h.1 hu
    have hlt := Bool.not_eq_true _ ▸ mt hlt.1 hf
    have hgt := Bool.not_eq_true _ ▸ mt hgt.1 hf
    have heq := Bool.not_eq_true _ ▸ mt heq.1 hf
    have hun := hun.2 hu
    cases k <;> simp only [fcmpRes, hun, hlt, hgt, heq] <;> simp [hu]
  · -- two numbers: the comparisons are those of the keys
    have hlt := Bool.eq_iff_iff.2 ((hlt.trans (and_iff_right hu)).trans decide_eq_true_iff.symm)
    have hgt := Bool.eq_iff_iff.2 ((hgt.trans (and_iff_right hu)).trans decide_eq_true_iff.symm)
    have heq := Bool.eq_iff_iff.2 ((heq.trans (and_iff_right hu)).trans decide_eq_true_iff.symm)
    have hun := Bool.not_eq_true _ ▸ mt hun.1 hu
    have hle : fpKey0 a < fpKey0 b ∨ fpKey0 a = fpKey0 b ↔ fpKey0 a ≤ fpKey0 b := le_iff_lt_or_eq.symm
    have hge : fpKey0 b < fpKey0 a ∨ fpKey0 a = fpKey0 b ↔ fpKey0 b ≤ fpKey0 a := by rw [eq_comm, ← le_iff_lt_or_eq]
    cases k <;> simp only [fcmpRes, hun, hlt, hgt, heq] <;> simp [hu, x, y, hle, hge]

theorem exec_fcmp (o : Cmp) (s : State) : exec (.fcmp o) s = s.runPred o.ctl.pred o.ctl.neg o.d [(o.a, 1), (o.b, 1)] []
    fun w x _ l => fcmpRes o.cond (unpackFp fp32 (w.src x l o.a).toNat) (unpackFp fp32 (w.src x l o.b).toNat) := rfl

theorem floatCompare : FloatCompare := by
  intro o s c w l h hl hwf ha
  obtain ⟨w', hrun, hp⟩ := State.runPred_lanes h o.ctl (Cmp.predDstOk_of_ok hwf) _ _ _
  refine ⟨w', (exec_fcmp o s).trans hrun, ?_⟩
  intro a b un x y
  rw [hp l hl ha]
  exact fcmpRes_iff o.cond a b

end Sys2Proof.Machine
end

section
/-! SUPPORT. Predicate logic and what active lanes agree on (05 R121, R122, R126): a lane's group as a mask and as a list, the bits that
software sees of a group's mask, and the values of PLOP, VOTE, BALLOT, ELECT and MATCH. -/

namespace Sys2Proof.Machine

/-! ### Masks lane by lane -/

theorem lanesOf_and (m n : LaneMask) (l : Nat) : l ∈ lanesOf (m &&& n) ↔ l ∈ lanesOf n ∧ laneOf m l = true := by
  simp only [mem_lanesOf, laneOf, BitVec.getLsbD_and, Bool.and_eq_true]
  tauto

theorem and_eq_zero_iff_lanes {m n : LaneMask} : m &&& n = 0 ↔ ∀ l ∈ lanesOf n, ¬laneOf m l = true := by
  rw [← lanesOf_eq_nil, List.eq_nil_iff_forall_not_mem]
  simp only [lanesOf_and, not_and]

theorem and_eq_right_iff_lanes {m n : LaneMask} : m &&& n = n ↔ ∀ l ∈ lanesOf n, laneOf m l = true := by
  constructor
  · intro h l hl
    exact ((lanesOf_and m n l).1 (h.symm ▸ hl)).2
  · intro h
    apply BitVec.eq_of_getLsbD_eq
    intro l hl
    rw [BitVec.getLsbD_and, Bool.and_eq_right_iff_imp]
    exact fun hn => h l (mem_lanesOf.2 ⟨hl, hn⟩)

/-! ### Groups of lanes (05 R122) -/

/-- A half-wave's mask holds the lanes of the half. -/
theorem laneOf_half {l j : Nat} (hl : l < 32) (hj : j < 32) :
    laneOf (if l < 16 then 0x0000FFFF#32 else 0xFFFF0000#32) j = (j / 16 == l / 16) := by
  have hlow : ∀ j < 32, laneOf 0x0000FFFF#32 j = decide (j < 16) := by decide
  have hhigh : ∀ j < 32, laneOf 0xFFFF0000#32 j = decide (16 ≤ j) := by decide
  rw [Bool.eq_iff_iff, beq_iff_eq]
  split
  · rw [hlow j hj, decide_eq_true_eq]; omega
  · rw [hhigh j hj, decide_eq_true_eq]; omega

theorem Wave.laneOf_group (w : Wave) (m : LaneMask) {l j : Nat} (hl : l < 32) (hj : j < 32) :
    laneOf (w.group m l) j = (laneOf m j && (!w.c16 || j / 16 == l / 16)) := by
  unfold Wave.group
  cases w.c16 with
  | true =>
    rw [← laneOf_half hl hj]
    exact BitVec.getLsbD_and ..
  | false => simp

theorem Wave.mem_group (w : Wave) (m : LaneMask) {l j : Nat} (hl : l < 32) :
    j ∈ lanesOf (w.group m l) ↔ j < 32 ∧ laneOf m j = true ∧ (w.c16 = true → j / 16 = l / 16) := by
  rw [mem_lanesOf]
  refine and_congr_right fun hj => ?_
  rw [w.laneOf_group m hl hj]
  cases w.c16 <;> simp

/-- The lanes a lane shares a cross-lane instruction with are those of its group. -/
theorem Cur.peers_eq (c : Cur) (w : Wave) (ctl : Ctl) {l : Nat} (hl : l < 32) :
    c.peers w ctl l = lanesOf ((c.reads w).group (c.active w ctl) l) := by
  unfold Cur.peers lanesOf
  exact List.filter_congr fun j hj => ((c.reads w).laneOf_group _ hl (List.mem_range.1 hj)).symm

theorem Cur.self_mem_group (c : Cur) (w : Wave) (ctl : Ctl) {l : Nat} (hl : l < 32) (ha : laneOf (c.active w ctl) l = true) :
    l ∈ lanesOf ((c.reads w).group (c.active w ctl) l) :=
  ((c.reads w).mem_group _ hl).2 ⟨hl, ha, fun _ => rfl⟩

/-- A lane of a group is numbered from the group's first lane. -/
theorem laneNo_eq_iff (c : Cur) (w : Wave) (m : LaneMask) {l j : Nat} (hl : l < 32) (hj : j ∈ lanesOf ((c.reads w).group m l)) (k : Nat) :
    c.laneNo w j = k ↔ (c.reads w).base l + k = j := by
  obtain ⟨-, -, hhalf⟩ := ((c.reads w).mem_group m hl).1 hj
  unfold Cur.laneNo Wave.base
  cases h16 : (c.reads w).c16 with
  | true =>
    have := hhalf h16
    simp only [if_true]
    omega
  | false =>
    simp only [Bool.false_eq_true, if_false]
    omega

/-- Bit `k` of a group's mask, as software sees it, is the group's lane that is numbered `k`. -/
theorem testBit_groupBits (c : Cur) (w : Wave) (m : LaneMask) {l : Nat} (hl : l < 32) (k : Nat) :
    ((c.reads w).groupBits m l).testBit k = true ↔ ∃ j ∈ lanesOf ((c.reads w).group m l), c.laneNo w j = k := by
  have hbit : ((c.reads w).groupBits m l).testBit k = laneOf ((c.reads w).group m l) ((c.reads w).base l + k) := by
    rw [Wave.groupBits, Nat.testBit_div_two_pow, Nat.add_comm]
    rfl
  rw [hbit]
  constructor
  · intro h
    have hmem := mem_lanesOf.2 ⟨BitVec.lt_of_getLsbD h, h⟩
    exact ⟨_, hmem, (laneNo_eq_iff c w m hl hmem k).2 rfl⟩
  · rintro ⟨j, hj, hk⟩
    rw [(laneNo_eq_iff c w m hl hj k).1 hk]
    exact (mem_lanesOf.1 hj).2

theorem groupBits_lt (w : Wave) (m : LaneMask) (l : Nat) : w.groupBits m l < 2 ^ 32 :=
  Nat.lt_of_le_of_lt (Nat.div_le_self _ _) (BitVec.isLt _)

/-! ### PLOP -/

theorem exec_plop (o : Plop) (s : State) : exec (.plop o) s = s.runPred o.ctl.pred o.ctl.neg o.d [] [o.a, o.b]
    fun w _ _ l => (o.lut.getLsbD (bnat (laneOf (w.p o.a) l) * 2 + bnat (laneOf (w.p o.b) l)), 0) := rfl

theorem bnat_eq_toNat (b : Bool) : bnat b = b.toNat := by cases b <;> rfl

theorem Plop.wf_dst {o : Plop} (h : (Instr.plop o).wf = true) : predDstOk o.d = true := by
  simp only [Instr.wf, Plop.ok, Bool.and_eq_true, and_assoc] at h
  obtain ⟨-, hd, -⟩ := h
  exact hd

theorem predicateLogic : PredicateLogic := by
  intro o s c w h hwf
  obtain ⟨w', hrun, hp⟩ := State.runPred_lanes h o.ctl (Plop.wf_dst hwf) _ _ _
  refine ⟨w', (exec_plop o s).trans hrun, fun l hl ha => ?_⟩
  rw [hp l hl ha, bnat_eq_toNat, bnat_eq_toNat, Nat.mul_comm]

/-! ### VOTE and ELECT -/

theorem exec_vote (o : Vote) (s : State) : exec (.vote o) s = s.runPred o.ctl.pred o.ctl.neg o.d [] [o.a] fun w _ m l =>
    (match o.sub with
      | .all => w.p o.a &&& w.group m l == w.group m l
      | .any => w.p o.a &&& w.group m l != 0
      | .eq => w.p o.a &&& w.group m l == w.group m l || w.p o.a &&& w.group m l == 0, 0) := rfl

theorem exec_elect (ctl : Ctl) (d : Nat) (s : State) : exec (.elect ctl d) s = s.runPred ctl.pred ctl.neg d [] []
    fun w _ m l => (lowestLane (w.group m l) == l, 0) := rfl

theorem Vote.wf_dst {o : Vote} (h : (Instr.vote o).wf = true) : predDstOk o.d = true := by
  simp only [Instr.wf, Vote.ok, Bool.and_eq_true, and_assoc] at h
  obtain ⟨-, hd, -⟩ := h
  exact hd

theorem Instr.wf_elect_dst {ctl : Ctl} {d : Nat} (h : (Instr.elect ctl d).wf = true) : predDstOk d = true := by
  simp only [Instr.wf, Bool.and_eq_true] at h
  exact h.2

theorem exec_vote_sound {s : State} {c : Cur} {w : Wave} (h : s.runs c w) {o : Vote} (hwf : (Instr.vote o).wf = true) :
    ∃ w', exec (.vote o) s = .next (s.done c w') ∧
      ∀ l, l < 32 → laneOf (c.active w o.ctl) l = true →
        let q (j : Nat) : Prop := laneOf ((c.reads w).p o.a) j = true
        (laneOf (w'.p o.d) l = true ↔ match o.sub with
          | .all => ∀ j ∈ c.peers w o.ctl l, q j
          | .any => ∃ j ∈ c.peers w o.ctl l, q j
          | .eq => (∀ j ∈ c.peers w o.ctl l, q j) ∨ ∀ j ∈ c.peers w o.ctl l, ¬q j) := by
  obtain ⟨w', hrun, hp⟩ := State.runPred_lanes h o.ctl (Vote.wf_dst hwf) _ _ _
  refine ⟨w', (exec_vote o s).trans hrun, fun l hl ha => ?_⟩
  intro q
  rw [hp l hl ha, c.peers_eq w o.ctl hl]
  cases o.sub with
  | all => exact beq_iff_eq.trans and_eq_right_iff_lanes
  | any =>
    refine bne_iff_ne.trans (and_eq_zero_iff_lanes.not.trans ?_)
    simp only [q, not_forall, not_not, exists_prop]
  | eq =>
    exact (Bool.or_eq_true_iff ..).trans
      (or_congr (beq_iff_eq.trans and_eq_right_iff_lanes) (beq_iff_eq.trans and_eq_zero_iff_lanes))

theorem exec_elect_sound {s : State} {c : Cur} {w : Wave} (h : s.runs c w) {ctl : Ctl} {d : Nat} (hwf : (Instr.elect ctl d).wf = true) :
    ∃ w', exec (.elect ctl d) s = .next (s.done c w') ∧
      ∀ l, l < 32 → laneOf (c.active w ctl) l = true → (laneOf (w'.p d) l = true ↔ ∀ j ∈ c.peers w ctl l, l ≤ j) := by
  obtain ⟨w', hrun, hp⟩ := State.runPred_lanes h ctl (Instr.wf_elect_dst hwf) _ _ _
  refine ⟨w', (exec_elect ctl d s).trans hrun, fun l hl ha => ?_⟩
  rw [hp l hl ha, c.peers_eq w ctl hl]
  exact beq_iff_eq.trans (lowestLane_eq_iff (c.self_mem_group w ctl hl ha))

/-! ### BALLOT and MATCH -/

/-- A cross-lane instruction whose values fit its destination leaves each where it writes. -/
theorem State.runGroup_dst {s : State} {c : Cur} {w : Wave} (h : s.runs c w) (ctl : Ctl) (d : Dst) (wide : Bool)
    (cause : Wave → Split → LaneMask → Nat → Nat) {val : Wave → Split → LaneMask → Nat → Nat × Nat}
    (hlt : ∀ l, (val (c.reads w) ((c.reads w).split c.entry) (c.active w ctl) l).1 < 2 ^ (if wide then 64 else 32)) :
    ∃ w', s.runGroup ctl d wide cause val = .next (s.done c w') ∧
      ∀ l, l < 32 → c.writes d (c.active w ctl) l = true →
        w'.dst wide d l = (val (c.reads w) ((c.reads w).split c.entry) (c.active w ctl) l).1 := by
  obtain ⟨hh, he⟩ := h
  have hrun : s.runGroup ctl d wide cause val = .next (s.done c ((w.putW wide (c.active w ctl) d fun l =>
      (val (c.reads w) ((c.reads w).split c.entry) (c.active w ctl) l).1).orFp
        (unionFlags (if d.uni then [0] else lanesOf (c.active w ctl)) fun l =>
          (val (c.reads w) ((c.reads w).split c.entry) (c.active w ctl) l).2))) := by
    simp only [State.runGroup, State.run_some hh, he, List.isEmpty_nil, if_true]
    rfl
  refine ⟨_, hrun, fun l hl hw => ?_⟩
  rw [Wave.dst_orFp, Wave.dst_putW c _ _ _ _ _ hl hw]
  exact Nat.mod_eq_of_lt (hlt l)

theorem exec_ballot (o : Ballot) (s : State) : exec (.ballot o) s =
    s.runGroup o.ctl o.d false (ownCause o.ctl [] (predRegs o.a)) fun w _ m l => (w.groupBits (w.p o.a &&& m) l, 0) := rfl

theorem exec_ballot_sound {s : State} {c : Cur} {w : Wave} (h : s.runs c w) (o : Ballot) :
    ∃ w', exec (.ballot o) s = .next (s.done c w') ∧
      ∀ l, l < 32 → c.writes o.d (c.active w o.ctl) l = true →
        ∀ k, k < 32 → ((w'.dst false o.d l).testBit k = true ↔
          ∃ j ∈ c.peers w o.ctl l, c.laneNo w j = k ∧ laneOf ((c.reads w).p o.a) j = true) := by
  obtain ⟨w', hrun, hd⟩ := State.runGroup_dst h o.ctl o.d false (ownCause o.ctl [] (predRegs o.a))
    (val := fun w _ m l => (w.groupBits (w.p o.a &&& m) l, 0)) fun _ => groupBits_lt _ _ _
  refine ⟨w', (exec_ballot o s).trans hrun, fun l hl hw k _ => ?_⟩
  rw [hd l hl hw, testBit_groupBits c w _ hl, c.peers_eq w o.ctl hl]
  refine exists_congr fun j => ?_
  simp only [Wave.mem_group _ _ hl, laneOf, BitVec.getLsbD_and, Bool.and_eq_true]
  tauto

/-- The word or pair that MATCH compares. -/
def matchVal (o : Match) (w : Wave) (x : Split) (j : Nat) : Nat := if o.w64 then (w.src64 x j false o.a).toNat else (w.src x j o.a).toNat

/-- The lanes of a group that hold what lane `l` holds. -/
def matchSame (o : Match) (w : Wave) (x : Split) (m : LaneMask) (l : Nat) : List Nat :=
  (lanesOf (w.group m l)).filter fun j => matchVal o w x j == matchVal o w x l

/-- What MATCH writes at a lane. -/
def matchRes (o : Match) (w : Wave) (x : Split) (m : LaneMask) (l : Nat) : Nat :=
  if o.all then (if (matchSame o w x m l).length = (lanesOf (w.group m l)).length then w.groupBits m l else 0)
  else w.groupBits (maskWhere fun j => (matchSame o w x m l).contains j) l

theorem matchRes_lt (o : Match) (w : Wave) (x : Split) (m : LaneMask) (l : Nat) : matchRes o w x m l < 2 ^ 32 := by
  unfold matchRes
  split
  · split
    · exact groupBits_lt _ _ _
    · decide
  · exact groupBits_lt _ _ _

theorem exec_matchOp (o : Match) (s : State) : exec (.matchOp o) s =
    s.runGroup o.ctl o.d false (ownCause o.ctl [(o.a, if o.w64 then 2 else 1)] []) fun w x m l => (matchRes o w x m l, 0) := by
  change execMatchOp o s = _
  unfold execMatchOp
  dsimp only
  congr 1
  funext w x m l
  unfold matchRes
  split <;> rfl

theorem matchVal_eq_bits (c : Cur) (w : Wave) (o : Match) (j : Nat) :
    matchVal o (c.reads w) ((c.reads w).split c.entry) j = c.bits w (if o.w64 then .b64 else .b32) j o.a := by
  unfold matchVal
  cases o.w64 <;> rfl

/-- Every lane of a group holds the value exactly when the lanes that hold it are as many as the group's. -/
theorem length_matchSame (o : Match) (w : Wave) (x : Split) (m : LaneMask) (l : Nat) :
    (matchSame o w x m l).length = (lanesOf (w.group m l)).length ↔ ∀ i ∈ lanesOf (w.group m l), matchVal o w x i = matchVal o w x l := by
  simp only [matchSame, List.length_filter_eq_length_iff, beq_iff_eq]

/-- The lanes of a group that hold the value, once more restricted to the group, are themselves. -/
theorem mem_group_matchSame (o : Match) (w : Wave) (x : Split) (m : LaneMask) {l : Nat} (hl : l < 32) (j : Nat) :
    j ∈ lanesOf (w.group (maskWhere fun j => (matchSame o w x m l).contains j) l) ↔
      j ∈ lanesOf (w.group m l) ∧ matchVal o w x j = matchVal o w x l := by
  have hsame : j ∈ matchSame o w x m l ↔ j ∈ lanesOf (w.group m l) ∧ matchVal o w x j = matchVal o w x l := by
    simp only [matchSame, List.mem_filter, beq_iff_eq]
  rw [← hsame, w.mem_group _ hl]
  constructor
  · rintro ⟨hj, hmask, -⟩
    rw [laneOf_maskWhere _ hj] at hmask
    exact List.contains_iff_mem.1 hmask
  · intro hj
    obtain ⟨hlt, -, hhalf⟩ := (w.mem_group m hl).1 (hsame.1 hj).1
    exact ⟨hlt, by rw [laneOf_maskWhere _ hlt]; exact List.contains_iff_mem.2 hj, hhalf⟩

theorem testBit_matchRes (c : Cur) (w : Wave) (o : Match) (x : Split) (m : LaneMask) {l : Nat} (hl : l < 32) (k : Nat) :
    (matchRes o (c.reads w) x m l).testBit k = true ↔ ∃ j ∈ lanesOf ((c.reads w).group m l), c.laneNo w j = k ∧
      if o.all then ∀ i ∈ lanesOf ((c.reads w).group m l), matchVal o (c.reads w) x i = matchVal o (c.reads w) x l
      else matchVal o (c.reads w) x j = matchVal o (c.reads w) x l := by
  unfold matchRes
  cases o.all with
  | true =>
    simp only [if_true, ← length_matchSame]
    split
    · rename_i hall
      simp only [testBit_groupBits c w _ hl, hall, and_true]
    · rename_i hdiff
      simp only [Nat.zero_testBit, Bool.false_eq_true, hdiff, and_false, exists_false]
  | false =>
    simp only [Bool.false_eq_true, if_false, testBit_groupBits c w _ hl, mem_group_matchSame o _ x m hl]
    exact exists_congr fun j => by tauto

theorem exec_matchOp_sound {s : State} {c : Cur} {w : Wave} (h : s.runs c w) (o : Match) :
    ∃ w', exec (.matchOp o) s = .next (s.done c w') ∧
      let a (j : Nat) : Nat := c.bits w (if o.w64 then .b64 else .b32) j o.a
      ∀ l, l < 32 → c.writes o.d (c.active w o.ctl) l = true →
        ∀ k, k < 32 → ((w'.dst false o.d l).testBit k = true ↔
          ∃ j ∈ c.peers w o.ctl l, c.laneNo w j = k ∧ if o.all then ∀ i ∈ c.peers w o.ctl l, a i = a l else a j = a l) := by
  obtain ⟨w', hrun, hd⟩ := State.runGroup_dst h o.ctl o.d false (ownCause o.ctl [(o.a, if o.w64 then 2 else 1)] [])
    (val := fun w x m l => (matchRes o w x m l, 0)) fun _ => matchRes_lt _ _ _ _ _
  refine ⟨w', (exec_matchOp o s).trans hrun, ?_⟩
  intro a l hl hw k _
  rw [hd l hl hw, c.peers_eq w o.ctl hl, testBit_matchRes c w o _ _ hl]
  simp only [a, matchVal_eq_bits]

theorem voteBallotElectMatch : VoteBallotElectMatch := fun _ _ _ h =>
  ⟨fun _ hwf => exec_vote_sound h hwf, fun o _ => exec_ballot_sound h o, fun _ _ hwf => exec_elect_sound h hwf,
    fun o _ => exec_matchOp_sound h o⟩

/-- Settles O12: FCMP by the order of encodings, PLOP by its table, the rest by the lanes of a group. -/
theorem predicates : Obligations.Predicates := ⟨floatCompare, predicateLogic, voteBallotElectMatch⟩

end Sys2Proof.Machine
end

section
/-! SUPPORT. Control transfers (07 R172, 08 R177 to R184, 03 R66): the branch step case by case, targets that pass their check, the return
address, and what each transfer answers when its registers are sound. -/

namespace Sys2Proof.Machine

/-! ### The branch step -/

theorem Wave.onlySplits_putSplit (w : Wave) (e : Nat) (x : Split) : w.onlySplits (w.putSplit e x) := by
  unfold Wave.onlySplits Wave.putSplit
  split <;> rfl

theorem Wave.onlySplits_trans {a b d : Wave} (h1 : a.onlySplits b) (h2 : b.onlySplits d) : a.onlySplits d := by
  unfold Wave.onlySplits at *
  rw [h2]
  conv => lhs; rw [h1]

theorem Wave.onlySplits_branch (w : Wave) (e : Nat) (mt : LaneMask) (t f k : Nat) : w.onlySplits (w.branch e mt t f k) := by
  unfold Wave.branch
  dsimp only
  split
  · exact Wave.onlySplits_putSplit _ _ _
  · split
    · exact Wave.onlySplits_putSplit _ _ _
    · split
      · exact Wave.onlySplits_trans (Wave.onlySplits_putSplit _ _ _) (Wave.onlySplits_putSplit _ _ _)
      · exact Wave.onlySplits_putSplit _ _ _

theorem Wave.branch_none (w : Wave) (e t f k : Nat) : w.branch e 0 t f k = w.putSplit e ((w.split e).goto f) := rfl

theorem Wave.branch_all (w : Wave) {e : Nat} {mt : LaneMask} (h0 : mt ≠ 0) (hm : mt = (w.split e).em) (t f k : Nat) :
    w.branch e mt t f k = w.putSplit e ((w.split e).goto t) := by
  unfold Wave.branch
  dsimp only
  rw [if_neg h0, if_pos hm]

/-- The new split of a branch that some lanes take. -/
def Split.forked (x : Split) (e : Nat) (mt : LaneMask) (t k : Nat) : Split :=
  { (x.goto t) with lanes := mt, em := mt, rpc := k, norpc := false, frames := x.frames ++ [x.frame 0 e false 0 0 0] }

theorem Wave.branch_fork (w : Wave) {e i : Nat} {mt : LaneMask} (h0 : mt ≠ 0) (hm : mt ≠ (w.split e).em) (hi : w.freeEntry e = some i)
    (t f k : Nat) : w.branch e mt t f k =
      (w.putSplit e ((w.split e).remain mt f k ((w.split e).frame 0 i true 0 0 0))).putSplit i ((w.split e).forked e mt t k) := by
  unfold Wave.branch
  dsimp only
  rw [if_neg h0, if_neg hm, hi]
  rfl

theorem Wave.branch_defer (w : Wave) {e : Nat} {mt : LaneMask} (h0 : mt ≠ 0) (hm : mt ≠ (w.split e).em) (hi : w.freeEntry e = none)
    (t f k : Nat) : w.branch e mt t f k = w.putSplit e ((w.split e).remain mt f k ((w.split e).frame 1 0 false mt mt t)) := by
  unfold Wave.branch
  dsimp only
  rw [if_neg h0, if_neg hm, hi]

theorem Wave.freeEntry_some (w : Wave) {e i : Nat} (he : e ≠ 8) (hi : i < 8) (hfree : (w.split i).valid = false)
    (hlow : ∀ j, j < i → (w.split j).valid = true) : w.freeEntry e = some i := by
  rw [Wave.freeEntry, if_neg he, List.find?_range_eq_some]
  exact ⟨by rw [hfree]; rfl, List.mem_range.2 hi, fun j hj => by rw [hlow j hj]; rfl⟩

theorem Wave.freeEntry_none (w : Wave) {e : Nat} (h : e = 8 ∨ ∀ j, j < 8 → (w.split j).valid = true) : w.freeEntry e = none := by
  unfold Wave.freeEntry
  split
  · rfl
  · rename_i he
    rw [List.find?_eq_none]
    intro j hj
    rw [h.resolve_left he j (List.mem_range.1 hj)]
    decide

theorem branchStep : BranchStep := by
  intro w e mt t f k _ hv x w' fr stay
  refine ⟨Wave.onlySplits_branch w e mt t f k, ?_, ?_, fun h0 hm => ⟨?_, ?_⟩⟩
  · intro h0
    simp only [w', h0, Wave.branch_none]
    exact ⟨Wave.split_putSplit _ _ _, fun j hj => Wave.split_putSplit_ne _ _ _ _ hj⟩
  · intro h0 hm
    simp only [w', Wave.branch_all w h0 hm]
    exact ⟨Wave.split_putSplit _ _ _, fun j hj => Wave.split_putSplit_ne _ _ _ _ hj⟩
  · intro i he hi hfree hlow
    have hne : e ≠ i := by
      rintro rfl
      rw [hv] at hfree
      cases hfree
    simp only [w', Wave.branch_fork w h0 hm (w.freeEntry_some he hi hfree hlow)]
    refine ⟨?_, Wave.split_putSplit _ _ _, fun j hje hji => ?_⟩
    · rw [Wave.split_putSplit_ne _ _ _ _ hne]
      exact Wave.split_putSplit _ _ _
    · rw [Wave.split_putSplit_ne _ _ _ _ hji, Wave.split_putSplit_ne _ _ _ _ hje]
  · intro hfull
    simp only [w', Wave.branch_defer w h0 hm (w.freeEntry_none hfull)]
    exact ⟨Wave.split_putSplit _ _ _, fun j hj => Wave.split_putSplit_ne _ _ _ _ hj⟩

/-! ### Reads and targets -/

theorem State.withReads_sound {w : Wave} (h : w.errs = []) (s : State) (c : Cur) (srcs : List (Src × Nat)) (preds : List Nat) (m : LaneMask)
    (go : State) : s.withReads c w srcs preds m go = go := by
  rw [State.withReads, Wave.poisoned_sound w h]

/-- Targets whose descriptors can be read and hold them pass the check; another segment's where the instruction may change segment. -/
theorem State.checkTargets_ok {s : State} {u : Who} {codesel : Nat} {ret : Bool} {ls : List (Nat × Nat × Int)}
    (h : ∀ p ∈ ls, (p.2.1 = codesel ∨ ret = true) ∧ ∃ b, s.descBytes u p.2.1 = .ok b ∧ 0 ≤ p.2.2 ∧ p.2.2 < (descOf b).limit) :
    s.checkTargets u codesel ret ls = none := by
  have hnil (l : List (List (Nat × AFault))) (hl : ∀ x ∈ l, x = []) : reportFaults l.flatten false 0 = none := by
    rw [List.flatten_eq_nil_iff.2 hl]; rfl
  apply hnil
  intro x hx
  obtain ⟨p, hp, rfl⟩ := List.mem_map.1 hx
  obtain ⟨hsel, b, hb, h0, hlim⟩ := h p hp
  have hstay : (p.2.1 != codesel && !ret) = false := by
    rcases hsel with e | e <;> simp [e]
  have hin : (decide (p.2.2 < 0) || decide (((descOf b).limit : Int) ≤ p.2.2)) = false := by
    simp only [Bool.or_eq_false_iff, decide_eq_false_iff_not]
    omega
  simp only [hstay, hb, hin]
  rfl

/-- Code targets of some lanes in the wave's own code segment pass the check. -/
theorem State.checkTargets_code {s : State} {c : Cur} {w : Wave} (ret : Bool) {m : LaneMask} {sel : Nat → Nat} {t : Nat → Int}
    (h : ∀ l, laneOf m l = true → sel l = w.codesel ∧ s.codeTarget c w (t l)) :
    s.checkTargets (s.who c w) w.codesel ret ((lanesOf m).map fun l => (l, sel l, t l)) = none := by
  apply State.checkTargets_ok
  intro p hp
  obtain ⟨l, hl, rfl⟩ := List.mem_map.1 hp
  obtain ⟨hsel, hb⟩ := h l (mem_lanesOf.1 hl).2
  exact ⟨.inl hsel, by rw [hsel]; exact hb⟩

theorem ne_zero_of_laneOf {m : LaneMask} {l : Nat} (h : laneOf m l = true) : m ≠ 0 := by
  rintro rfl
  simp [laneOf] at h

/-! ### The return address -/

section PutReturn

variable (w : Wave) (c : Cur) (d : Nat) (m : LaneMask)

theorem Wave.putReturn_eq_putW : w.putReturn c d m = w.putW true m (.v d) fun _ => (segAddr w.codesel c.next).toNat :=
  Wave.putD64_eq_putW ..

theorem Wave.onlyRegs_putReturn : w.onlyRegs (w.putReturn c d m) := Wave.onlyRegs_putD64 ..

theorem Wave.sameBut_putReturn : w.sameBut (w.putReturn c d m) (.v d) 2 m := Wave.sameBut_putD64 ..

theorem Wave.pr_putReturn : (w.putReturn c d m).pr = w.pr := by rw [Wave.putReturn_eq_putW, Wave.pr_putW]

theorem Wave.fpstat_putReturn : (w.putReturn c d m).fpstat = w.fpstat := by rw [Wave.putReturn_eq_putW, Wave.fpstat_putW]

/-- The lanes that call hold the return address. -/
theorem Wave.v64_putReturn {l : Nat} (hl : l < 32) (hm : laneOf m l = true) :
    (w.putReturn c d m).v64 d l = segAddr w.codesel c.next := by
  have hd := Wave.dst_putW c w true m (.v d) (fun _ => (segAddr w.codesel c.next).toNat) hl hm
  rw [← Wave.putReturn_eq_putW] at hd
  simp only [Wave.dst, if_true, Nat.mod_eq_of_lt (BitVec.isLt _)] at hd
  exact BitVec.eq_of_toNat_eq hd

end PutReturn

/-! ### BRA and CALL -/

theorem Cur.taken_eq (c : Cur) (w : Wave) (ctl : Ctl) : (c.split w).em &&& w.condLanes ctl = c.taken w ctl := rfl

/-- The wave that branches: with a return address where the instruction links. -/
def Wave.linked (w : Wave) (c : Cur) (m : LaneMask) (link : Option Nat) : Wave :=
  match link with | none => w | some d => w.putReturn c d m

/-- A branch with a literal target that passes its checks performs the branch step for the lanes that take it. -/
theorem State.branchTo_ok {s : State} {c : Cur} {w : Wave} (h : s.ready c w) {ctl : Ctl} {t : Int}
    (hdepth : c.taken w ctl = 0 ∨ c.taken w ctl = (c.split w).em ∨ (c.split w).frames.length < 16)
    (ht : c.taken w ctl = 0 ∨ s.codeTarget c w t) (rc : Nat) (link : Option Nat) :
    s.branchTo c w ctl t rc link =
      s.putWave c.wave ((w.linked c (c.taken w ctl) link).branch c.entry (c.taken w ctl) t.toNat c.next rc) := by
  have hchk : s.checkTargets (s.who c w) w.codesel false ((lanesOf (c.taken w ctl)).map fun l => (l, w.codesel, t)) = none :=
    State.checkTargets_code (sel := fun _ => w.codesel) (t := fun _ => t) false fun l hl =>
      ⟨rfl, ht.resolve_left (ne_zero_of_laneOf hl)⟩
  have hroom : (c.taken w ctl != 0 && c.taken w ctl != (c.split w).em && decide ((c.split w).frames.length = 16)) = false := by
    rcases hdepth with e | e | e
    · simp [e]
    · simp [e]
    · simp [show (c.split w).frames.length ≠ 16 by omega]
  simp only [State.branchTo, State.withReads_sound h.2, Cur.taken_eq, hchk, hroom, Bool.false_eq_true, if_false]
  rfl

/-- The reconvergence address is its displacement's target, cut to 44 bits. -/
theorem rcAddr_eq (c : Cur) (w : Wave) (d : Disp) : w.rcAddr c d = (c.at w d % 2 ^ 44).toNat := by
  simp only [Wave.rcAddr, narrow, Nat.cast_pow, Nat.cast_ofNat]
  rfl

theorem exec_bra {s : State} {c : Cur} {w : Wave} (h : s.ready c w) (o : Bra) :
    exec (.bra o) s = .next (s.branchTo c w o.ctl (c.at w o.tgt) (c.at w o.rc % 2 ^ 44).toNat none) := by
  rw [← rcAddr_eq]
  exact State.run_some h.1 _

theorem exec_call {s : State} {c : Cur} {w : Wave} (h : s.ready c w) (o : CallT) :
    exec (.call o) s = .next (s.branchTo c w o.ctl (c.at w o.tgt) c.next (some o.d)) :=
  State.run_some h.1 _

theorem directBranches : DirectBranches := by
  intro s c w h
  refine ⟨fun o _ hdepth ht => ?_, fun o _ hdepth ht => ?_⟩
  · rw [exec_bra h, State.branchTo_ok h hdepth ht]
    rfl
  · refine ⟨w.putReturn c o.d (c.taken w o.ctl), ?_, Wave.onlyRegs_putReturn .., Wave.sameBut_putReturn .., Wave.pr_putReturn ..,
      Wave.fpstat_putReturn .., fun l hl hm => Wave.v64_putReturn _ _ _ _ hl hm⟩
    rw [exec_call h, State.branchTo_ok h hdepth ht]
    rfl

/-! ### BRX and CALLX -/

/-- The lowest lane of a nonempty list of lanes starts a group of its target. -/
theorem targetGroups_ne_nil (f : Nat → DWord) {m : LaneMask} (h : m ≠ 0) : targetGroups f (lanesOf m) ≠ [] := by
  have hmem : lowestLane m ∈ (lanesOf m).filter fun l => (lanesOf m).all fun j => l ≤ j || f j != f l := by
    simp only [List.mem_filter, List.all_eq_true, Bool.or_eq_true, decide_eq_true_eq]
    exact ⟨lowestLane_mem h, fun j hj => .inl (lowestLane_le hj)⟩
  unfold targetGroups
  exact List.ne_nil_of_mem (List.mem_map_of_mem hmem)

/-- One branch step for each group of lanes with one target. -/
def Wave.branchAll (w : Wave) (e f k : Nat) (gs : List (LaneMask × Nat)) : Wave := gs.foldl (fun v g => v.branch e g.1 g.2 f k) w

/-- BRX and CALLX past their checks: on with no lane taken, else the branch steps of the groups. -/
theorem State.branchGroups_ok {s : State} {c : Cur} {w : Wave} (h : s.ready c w) {ctl : Ctl} {a : Reg}
    (ht : ∀ l, laneOf (c.taken w ctl) l = true → selOf (w.reg64 a l) = w.codesel ∧ s.codeTarget c w (offOf (w.reg64 a l)))
    (hdepth : (c.split w).frames.length + (targetGroups (w.reg64 a) (lanesOf (c.taken w ctl))).length ≤
      if c.taken w ctl = (c.split w).em then 17 else 16) (on rc : Nat) (link : Option Nat) :
    s.branchGroups c w ctl a on rc link = s.putWave c.wave (if c.taken w ctl = 0 then w.modSplit c.entry (·.goto on)
      else (w.linked c (c.taken w ctl) link).branchAll c.entry c.next rc (targetGroups (w.reg64 a) (lanesOf (c.taken w ctl)))) := by
  have hchk : s.checkTargets (s.who c w) w.codesel false
      ((lanesOf (c.taken w ctl)).map fun l => (l, selOf (w.reg64 a l), (offOf (w.reg64 a l) : Int))) = none :=
    State.checkTargets_code false ht
  by_cases h0 : c.taken w ctl = 0
  · simp only [State.branchGroups, State.withReads_sound h.2, Cur.taken_eq, h0, if_true]
  · have hpos := List.length_pos_iff.2 (targetGroups_ne_nil (w.reg64 a) h0)
    have hroom : ¬16 < (c.split w).frames.length + ((targetGroups (w.reg64 a) (lanesOf (c.taken w ctl))).length -
        if c.taken w ctl = (c.split w).em then 1 else 0) := by
      by_cases hall : c.taken w ctl = (c.split w).em
      · rw [if_pos hall] at hdepth ⊢
        omega
      · rw [if_neg hall] at hdepth ⊢
        omega
    simp only [State.branchGroups, State.withReads_sound h.2, Cur.taken_eq, h0, hchk, if_false]
    exact if_neg hroom

theorem exec_brx {s : State} {c : Cur} {w : Wave} (h : s.ready c w) (o : Brx) :
    exec (.brx o) s = .next (s.branchGroups c w o.ctl o.a (c.at w o.rc % 2 ^ 44).toNat (c.at w o.rc % 2 ^ 44).toNat none) := by
  rw [← rcAddr_eq]
  exact State.run_some h.1 _

theorem exec_callx {s : State} {c : Cur} {w : Wave} (h : s.ready c w) (o : CallX) :
    exec (.callx o) s = .next (s.branchGroups c w o.ctl o.a c.next c.next (some o.d)) :=
  State.run_some h.1 _

theorem indexedBranches : IndexedBranches := by
  intro s c w a ctl h rem ls gs steps ht hdepth
  refine ⟨?_, ?_⟩
  · rintro o _ rfl rfl rc
    rw [exec_brx h, State.branchGroups_ok h ht hdepth]
    rfl
  · rintro o _ rfl rfl
    refine ⟨w.putReturn c o.d rem, ?_, Wave.onlyRegs_putReturn .., Wave.sameBut_putReturn .., fun l hl hm => Wave.v64_putReturn _ _ _ _ hl hm⟩
    rw [exec_callx h, State.branchGroups_ok h ht hdepth]
    rfl

/-! ### BRA.DEC -/

/-- The wave with its counter lowered. -/
def Wave.counted (w : Wave) (d : Nat) : Wave := (w.putS d (w.s d - 1)).wrote [errS d]

section Counted

variable (w : Wave) (d : Nat)

theorem Wave.onlyRegs_counted : w.onlyRegs (w.counted d) := Wave.onlyRegs_trans (Wave.onlyRegs_putS ..) (Wave.onlyRegs_wrote ..)

theorem Wave.sameBut_counted : w.sameBut (w.counted d) (.s d) 1 0 := Wave.sameBut_putD w 0 (.s d) 1 (by decide) fun _ => w.s d - 1

theorem Wave.pr_counted : (w.counted d).pr = w.pr := by simp [Wave.counted, Wave.putS]

theorem Wave.s_counted : (w.counted d).s d = w.s d - 1 := by simp [Wave.counted, Wave.s_putS]

end Counted

/-- What BRA.DEC leaves alone and lowers, whether it branches or not. -/
theorem Wave.counted_spec (w : Wave) (d : Nat) : w.onlyRegs (w.counted d) ∧ w.sameBut (w.counted d) (.s d) 1 0 ∧ (w.counted d).pr = w.pr ∧
    (w.counted d).s d = w.s d - 1 :=
  ⟨w.onlyRegs_counted d, w.sameBut_counted d, w.pr_counted d, w.s_counted d⟩

/-- A counter that reaches zero, or a split without a lane to branch, goes on. -/
theorem stays_iff (x : Word) (m : LaneMask) : (decide (x - 1 = 0) || decide (m = 0)) = true ↔ x = 1 ∨ m = 0 := by
  rw [Bool.or_eq_true, decide_eq_true_eq, decide_eq_true_eq, sub_eq_zero]

theorem exec_braDec_stays {s : State} {c : Cur} {w : Wave} (h : s.ready c w) (o : BraDec) (hs : w.s o.d = 1 ∨ (c.split w).em = 0) :
    exec (.braDec o) s = .next (s.putWave c.wave ((w.counted o.d).modSplit c.entry (·.goto c.next))) := by
  change execBraDec o s = _
  simp only [execBraDec, State.run_some h.1, State.withReads_sound h.2, (stays_iff _ _).2 hs, if_true]
  rfl

theorem exec_braDec_goes {s : State} {c : Cur} {w : Wave} (h : s.ready c w) (o : BraDec) (hs : ¬(w.s o.d = 1 ∨ (c.split w).em = 0))
    (ht : s.codeTarget c w (c.at w o.tgt)) :
    exec (.braDec o) s = .next (s.putWave c.wave ((w.counted o.d).modSplit c.entry (·.goto (c.at w o.tgt).toNat))) := by
  have hchk : s.checkTargets (s.who c w) w.codesel false ((lanesOf (c.split w).em).map fun l => (l, w.codesel, w.target c o.tgt)) = none :=
    State.checkTargets_code (sel := fun _ => w.codesel) (t := fun _ => w.target c o.tgt) false fun _ _ => ⟨rfl, ht⟩
  change execBraDec o s = _
  simp only [execBraDec, State.run_some h.1, State.withReads_sound h.2, mt (stays_iff _ _).1 hs, hchk]
  rfl

/-- Lanes that hold one value do not differ. -/
theorem oddLanes_eq_zero {α : Type} [DecidableEq α] {m : LaneMask} {f : Nat → α} {t : α} (h : ∀ l, laneOf m l = true → f l = t) :
    oddLanes m f = 0 := by
  have hnone : ∀ l, l < 32 → (laneOf m l && decide (f l ≠ f (lowestLane m))) = false := fun l _ => by
    cases hl : laneOf m l with
    | false => rfl
    | true =>
      have hlow := (mem_lanesOf.1 (lowestLane_mem (ne_zero_of_laneOf hl))).2
      rw [h l hl, h _ hlow]
      simp
  exact (maskWhere_congr hnone).trans rfl

theorem ne_zero_of_oddLanes {α : Type} [DecidableEq α] {m : LaneMask} {f : Nat → α} (h : oddLanes m f ≠ 0) : m ≠ 0 := by
  rintro rfl
  exact h (oddLanes_eq_zero (t := f 0) fun l hl => absurd rfl (ne_zero_of_laneOf hl))

/-- The lowest lane of a mask whose lanes hold one value holds it. -/
theorem eq_at_lowestLane {α : Type} {m : LaneMask} {f : Nat → α} {t : α} (h0 : m ≠ 0) (h : ∀ l, laneOf m l = true → f l = t) :
    f (lowestLane m) = t := h _ (mem_lanesOf.1 (lowestLane_mem h0)).2

theorem exec_braDecReg_stays {s : State} {c : Cur} {w : Wave} (h : s.ready c w) (o : BraDecReg) (hs : w.s o.d = 1 ∨ (c.split w).em = 0) :
    exec (.braDecReg o) s = .next (s.putWave c.wave ((w.counted o.d).modSplit c.entry (·.goto c.next))) := by
  change execBraDecReg o s = _
  simp only [execBraDecReg, State.run_some h.1, State.withReads_sound h.2, (stays_iff _ _).2 hs, if_true]
  rfl

theorem exec_braDecReg_differs {s : State} {c : Cur} {w : Wave} (h : s.ready c w) (o : BraDecReg) (hs : w.s o.d ≠ 1)
    (hodd : oddLanes (c.split w).em (w.reg64 o.a) ≠ 0) :
    exec (.braDecReg o) s = .next (s.fault c w tUNIFORM 0 (oddLanes (c.split w).em (w.reg64 o.a)) []) := by
  have hgo := mt (stays_iff _ _).1 (not_or.2 ⟨hs, ne_zero_of_oddLanes hodd⟩)
  change execBraDecReg o s = _
  simp only [execBraDecReg, State.run_some h.1, State.withReads_sound h.2, hgo, bne_iff_ne.2 hodd, if_true]
  rfl

theorem exec_braDecReg_goes {s : State} {c : Cur} {w : Wave} (h : s.ready c w) (o : BraDecReg) {t : DWord} (hs : w.s o.d ≠ 1)
    (hem : (c.split w).em ≠ 0) (hall : ∀ l, laneOf (c.split w).em l = true → w.reg64 o.a l = t) (hsel : selOf t = w.codesel)
    (ht : s.codeTarget c w (offOf t)) :
    exec (.braDecReg o) s = .next (s.putWave c.wave ((w.counted o.d).modSplit c.entry (·.goto (offOf t)))) := by
  have hgo := mt (stays_iff _ _).1 (not_or.2 ⟨hs, hem⟩)
  have hchk : s.checkTargets (s.who c w) w.codesel false ((lanesOf (c.split w).em).map fun l => (l, selOf t, (offOf t : Int))) = none :=
    State.checkTargets_code (sel := fun _ => selOf t) (t := fun _ => offOf t) false fun _ _ => ⟨hsel, ht⟩
  change execBraDecReg o s = _
  simp only [execBraDecReg, State.run_some h.1, State.withReads_sound h.2, hgo, oddLanes_eq_zero hall, eq_at_lowestLane hem hall, hchk]
  rfl

/-! ### RET -/

theorem lowestLane_lt (m : LaneMask) : lowestLane m < 32 := by
  by_cases h : m = 0
  · subst h; decide
  · exact (mem_lanesOf.1 (lowestLane_mem h)).1

theorem laneOf_laneBit {k l : Nat} (hl : l < 32) : laneOf (laneBit k) l = decide (k = l) := by
  rw [laneOf, laneBit, BitVec.getLsbD_ofNat, Nat.testBit_two_pow]
  simp [hl]

theorem lowestLane_laneBit {k : Nat} (h : k < 32) : lowestLane (laneBit k) = k := by
  have hmem : k ∈ lanesOf (laneBit k) := mem_lanesOf.2 ⟨h, by simp [laneOf_laneBit h]⟩
  refine (lowestLane_eq_iff hmem).2 fun j hj => ?_
  obtain ⟨hlt, hbit⟩ := mem_lanesOf.1 hj
  rw [laneOf_laneBit hlt, decide_eq_true_eq] at hbit
  exact hbit.le

/-- RET's address: the one the lanes of EM hold, or that of the lowest lane of LANES. -/
theorem retTarget_eq {w : Wave} {x : Split} {a : Reg} {t : DWord} (hem : x.em ≠ 0 → ∀ l, laneOf x.em l = true → w.reg64 a l = t)
    (hempty : x.em = 0 → w.reg64 a (lowestLane x.lanes) = t) :
    w.reg64 a (lowestLane (if x.em = 0 then laneBit (lowestLane x.lanes) else x.em)) = t := by
  split
  · rename_i h
    rw [lowestLane_laneBit (lowestLane_lt _), hempty h]
  · rename_i h
    exact eq_at_lowestLane h (hem h)

/-- RET to a readable segment that holds the address: on within the segment, else LINKAGE in a split that is not alone with a frame to
pop, else the return. -/
theorem exec_ret_ok {s : State} {c : Cur} {w : Wave} (h : s.ready c w) (o : RegTgt) {t : DWord} {b : List Byte}
    (hem : (c.split w).em ≠ 0 → ∀ l, laneOf (c.split w).em l = true → w.reg64 o.a l = t)
    (hempty : (c.split w).em = 0 → w.reg64 o.a (lowestLane (c.split w).lanes) = t)
    (hb : s.descBytes (s.who c w) (selOf t) = .ok b) (hlim : offOf t < (descOf b).limit) :
    exec (.ret o) s = .next (if selOf t = w.codesel then s.putWave c.wave (w.modSplit c.entry (·.goto (offOf t)))
      else if !w.links.isEmpty && !w.converged c.entry then s.fault c w fLINKAGE 7 (orLane0 (c.split w).em) [] else s.segReturn c w t) := by
  have hodd : ((c.split w).em != 0 && oddLanes (c.split w).em (w.reg64 o.a) != 0) = false := by
    by_cases h0 : (c.split w).em = 0
    · simp [h0]
    · simp [oddLanes_eq_zero (hem h0)]
  have hchk (m : LaneMask) : s.checkTargets (s.who c w) w.codesel true ((lanesOf m).map fun l => (l, selOf t, (offOf t : Int))) = none := by
    apply State.checkTargets_ok
    intro p hp
    obtain ⟨l, -, rfl⟩ := List.mem_map.1 hp
    exact ⟨.inr rfl, b, hb, Int.natCast_nonneg _, Int.ofNat_lt.2 hlim⟩
  change execRet o s = _
  simp only [execRet, State.run_some h.1, State.withReads_sound h.2, hodd, retTarget_eq hem hempty, hchk, Bool.false_eq_true, if_false]

theorem countedBranchAndReturn : CountedBranchAndReturn := by
  intro s c w h
  refine ⟨fun o _ ht => ?_, fun o _ => ?_, fun o t b _ hem hempty hb hlim => ?_⟩
  · refine ⟨w.counted o.d, ?_, w.counted_spec o.d⟩
    by_cases hs : w.s o.d = 1 ∨ (c.split w).em = 0
    · simp only [if_pos hs]
      exact exec_braDec_stays h o hs
    · simp only [if_neg hs]
      exact exec_braDec_goes h o hs (((or_assoc.2 ht).resolve_left hs))
  · intro em goes
    refine ⟨fun hs => ⟨_, exec_braDecReg_stays h o hs, w.counted_spec o.d⟩, fun hs hodd => exec_braDecReg_differs h o hs hodd,
      fun t hs h0 hall hsel ht => ⟨_, exec_braDecReg_goes h o hs h0 hall hsel ht, w.counted_spec o.d⟩⟩
  · intro w1
    rw [exec_ret_ok h o hem hempty hb hlim]
    refine ⟨fun hsel => ?_, fun hsel hl => ?_, fun fs f hsel hl hc => ?_, fun hsel hl hc => ?_⟩
    · rw [if_pos hsel]
      rfl
    · rw [if_neg hsel, if_neg (by simp [hl]), State.segReturn, hl]
      rfl
    · rw [if_neg hsel, if_neg (by simp [hc]), State.segReturn, hl, List.getLast?_concat, List.dropLast_concat]
      rfl
    · rw [if_neg hsel, if_pos (by simp [hl, hc])]
      rfl

/-- Settles O14: the branch step by where the taken lanes go, then each transfer through its checks to that step or to a move of the split. -/
theorem branches : Obligations.Branches := ⟨branchStep, directBranches, indexedBranches, countedBranchAndReturn⟩

end Sys2Proof.Machine
end

section
/-! SUPPORT. Floating-point arithmetic (04 R89, R98, R99, 05 R105, R106, R113, R116): the elements of a register word as exact values, how
large a rounded encoding is, what an instruction of one or two elements leaves in its destination and in FPSTAT, and the values the
approximations are said to give exactly. -/

namespace Sys2Proof

/-! ### The types an instruction accepts -/

theorem Bin.ty_mem_of_ok {o : Bin} {tys : List Ty} {sat anyRm : Bool} (h : o.ok tys sat anyRm = true) : o.ty ∈ tys := by
  simp only [Bin.ok, Bool.and_eq_true, and_assoc] at h
  obtain ⟨-, hty, -⟩ := h
  exact List.contains_iff_mem.1 hty

theorem Tri.ty_mem_of_ok {o : Tri} {tys : List Ty} {sat anyRm pairD : Bool} (h : o.ok tys sat anyRm pairD = true) : o.ty ∈ tys := by
  simp only [Tri.ok, Bool.and_eq_true, and_assoc] at h
  obtain ⟨-, hty, -⟩ := h
  exact List.contains_iff_mem.1 hty

theorem Un.ty_mem_of_ok {o : Un} {tys : List Ty} {sat anyRm : Bool} (h : o.ok tys sat anyRm = true) : o.ty ∈ tys := by
  simp only [Un.ok, Bool.and_eq_true, and_assoc] at h
  obtain ⟨-, hty, -⟩ := h
  exact List.contains_iff_mem.1 hty

end Sys2Proof

namespace Sys2Proof.Machine

/-! ### Exceptions -/

theorem testBit_unionFlags (ls : List Nat) (f : Nat → Nat) (k : Nat) :
    (unionFlags ls f).testBit k = true ↔ ∃ l ∈ ls, (f l).testBit k = true := by
  induction ls using List.reverseRecOn with
  | nil => simp [unionFlags]
  | append_singleton ls l ih =>
    have hstep : unionFlags (ls ++ [l]) f = unionFlags ls f ||| f l := by simp [unionFlags, List.foldl_append]
    simp [hstep, ih, or_and_right, exists_or]

/-- FPSTAT holds a bit that it held, or that the exceptions have. -/
theorem Wave.getLsbD_orFp (w : Wave) (fl : Nat) {k : Nat} (hk : k < 32) :
    (w.orFp fl).fpstat.getLsbD k = true ↔ w.fpstat.getLsbD k = true ∨ fl.testBit k = true := by
  simp only [Wave.orFp, BitVec.getLsbD_or, BitVec.getLsbD_ofNat, hk, decide_true, Bool.true_and, Bool.or_eq_true]

/-- With sound registers a register-only instruction leaves each lane's value where it writes, and FPSTAT gains the exceptions of the
lanes it computes at. -/
theorem State.runLane_flags {s : State} {c : Cur} {w : Wave} (h : s.runs c w) (ctl : Ctl) (d : Dst) (wide : Bool) (srcs : List (Src × Nat))
    (val : Wave → Split → Nat → Nat × Nat) :
    ∃ w', s.runLane ctl.pred ctl.neg d wide srcs val = .next (s.done c w') ∧
      (∀ l, l < 32 → c.writes d (c.active w ctl) l = true →
        w'.dst wide d l = (val (c.reads w) ((c.reads w).split c.entry) l).1 % 2 ^ (if wide then 64 else 32)) ∧
      ∀ k, k < 32 → (w'.fpstat.getLsbD k = true ↔ w.fpstat.getLsbD k = true ∨
        ∃ l, l < 32 ∧ c.computes d (c.active w ctl) l = true ∧ (val (c.reads w) ((c.reads w).split c.entry) l).2.testBit k = true) := by
  refine ⟨_, State.runLane_sound h.1 h.2 .., fun l hl hw => ?_, fun k hk => ?_⟩
  · rw [Wave.dst_orFp]
    exact Wave.dst_putW c _ _ _ _ _ hl hw
  · rw [Wave.getLsbD_orFp _ _ hk, Wave.fpstat_putW, testBit_unionFlags]
    simp only [← and_assoc, ← mem_compLanes]
    rfl

/-! ### Rounded encodings (04 R83) -/

/-- The encodings a format's constants stand for lie below its sign bit. -/
def FpFmt.fits (f : FpFmt) : Prop := f.maxf < 2 ^ (f.mbits + f.ebits) ∧ f.cnan < 2 ^ (f.mbits + f.ebits)

theorem fpSign_add_lt {f : FpFmt} {m : Nat} (neg : Bool) (h : m < 2 ^ (f.mbits + f.ebits)) : fpSign f neg + m < 2 ^ (f.mbits + f.ebits + 1) := by
  rw [pow_succ, fpSign]
  split <;> omega

theorem fpInf_lt (f : FpFmt) : fpInf f < 2 ^ (f.mbits + f.ebits) := by
  have he : 2 ^ f.ebits - 1 < 2 ^ f.ebits := Nat.sub_lt (Nat.two_pow_pos _) Nat.one_pos
  rw [fpInf, Nat.add_comm, pow_add]
  exact Nat.mul_lt_mul_of_pos_right he (Nat.two_pow_pos _)

theorem fpOver_lt {f : FpFmt} (hf : f.fits) (rm : RM) (sat neg : Bool) : fpOver f rm sat neg < 2 ^ (f.mbits + f.ebits + 1) := by
  obtain ⟨hm, hc⟩ := hf
  apply fpSign_add_lt
  have hi := fpInf_lt f
  split
  · exact hm
  · split
    · exact hc
    · cases rm with
      | rn | ra | sr => exact hi
      | rz => exact hm
      | rd | ru =>
        dsimp only
        split <;> assumption

theorem fpOverRes_lt {f : FpFmt} (hf : f.fits) (rm : RM) (sat neg : Bool) : fpOverRes f rm sat neg < 2 ^ (f.mbits + f.ebits + 1) := by
  unfold fpOverRes
  split
  · exact Nat.lt_trans hf.2 (Nat.pow_lt_pow_right (by decide) (Nat.lt_succ_self _))
  · exact fpOver_lt hf rm sat neg

/-- A rounded value is an encoding of its format. -/
theorem finishFp_lt {f : FpFmt} (hf : f.fits) (rm : RM) (sat : Bool) (w : Nat) (x : Ex) :
    (finishFp f rm sat w x).bits < 2 ^ (f.mbits + f.ebits + 1) := by
  have hpos := Nat.two_pow_pos (f.mbits + f.ebits)
  have hc : f.cnan < 2 ^ (f.mbits + f.ebits + 1) := by
    simpa [fpSign] using fpSign_add_lt (f := f) false hf.2
  cases x with
  | nan nv =>
    simp only [finishFp]
    split
    · exact hc
    · exact Nat.two_pow_pos _
  | inf neg =>
    simp only [finishFp]
    split
    · exact fpSign_add_lt neg hf.1
    · split
      · exact fpSign_add_lt neg (fpInf_lt f)
      · exact hc
  | num neg man exp sticky =>
    simp only [finishFp]
    split
    · exact fpSign_add_lt neg hpos
    · split
      · exact fpOverRes_lt hf rm sat neg
      · exact fpSign_add_lt neg (Nat.lt_of_le_of_lt (Nat.not_lt.1 ‹_›) hf.1)

/-- The types whose elements are floating-point numbers (03 R71). -/
def floatTys : List Ty := [.f32, .f16, .bf16, .f16x2, .bf16x2]

theorem floatTys_narrow : ∀ t ∈ floatTys, t.wide = false := by decide

/-- A value rounded into a type fits the type's element. -/
theorem finishFp_lt_elt {t : Ty} (ht : t ∈ floatTys) (rm : RM) (sat : Bool) (w : Nat) (x : Ex) :
    (finishFp t.fpf rm sat w x).bits < 2 ^ t.elt := by
  have hfits : t.fpf.fits ∧ t.elt = t.fpf.mbits + t.fpf.ebits + 1 := by
    revert t
    simp only [floatTys, FpFmt.fits]
    decide
  rw [hfits.2]
  exact finishFp_lt hfits.1 rm sat w x

/-! ### Elements -/

/-- An element as the model unpacks it. -/
theorem fpElt_eq (t : Ty) (x : Nat) {i : Nat} (hi : i < t.elts) : fpElt t x i = unpackFp t.fpf (t.eltBits x i).toNat := by
  unfold Ty.elts at hi
  unfold fpElt Ty.eltBits
  rw [BitVec.toNat_ofNat]
  split
  · rename_i hp
    rw [Ty.elt_of_isPacked hp, bitsOf]
  · rename_i hp
    rw [if_neg hp] at hi
    obtain rfl : i = 0 := by omega
    simp

/-- Element `i` of a result is the exact value of element `i`, rounded once. -/
theorem eltBits_fpRes {t : Ty} (ht : t ∈ floatTys) (s : State) (w : Wave) (l : Nat) (rm : RM) (sat : Bool) (val : Nat → Ex × Nat) {i : Nat}
    (hi : i < t.elts) : t.eltBits ((s.fpRes w l t rm sat val).1 % 2 ^ 32) i =
      BitVec.ofNat t.elt (finishFp t.fpf rm sat (s.laneWord w rm l i) (val i).1).bits := by
  unfold Ty.elts at hi
  apply BitVec.eq_of_toNat_eq
  simp only [Ty.eltBits, BitVec.toNat_ofNat, State.fpRes]
  split
  · rename_i hp
    have h0 := finishFp_lt_elt ht rm sat (s.laneWord w rm l 0) (val 0).1
    rw [if_pos hp] at hi
    rw [Ty.elt_of_isPacked hp] at h0 ⊢
    interval_cases i
    · simp only [Nat.mul_zero, pow_zero, Nat.div_one]; omega
    · simp only [Nat.mul_one]; omega
  · rename_i hp
    rw [if_neg hp] at hi
    obtain rfl : i = 0 := by omega
    have hle : t.elt ≤ 32 := (Nat.pow_le_pow_iff_right (by decide)).1 (floatTys_narrow t ht ▸ t.two_pow_elt_le)
    rw [Nat.mul_zero, pow_zero, Nat.div_one, Nat.mod_mod_of_dvd _ (Nat.pow_dvd_pow 2 hle)]

theorem testBit_fpRes (t : Ty) (s : State) (w : Wave) (l : Nat) (rm : RM) (sat : Bool) (val : Nat → Ex × Nat) (k : Nat) :
    (s.fpRes w l t rm sat val).2.testBit k = true ↔
      ∃ i, i < t.elts ∧ ((finishFp t.fpf rm sat (s.laneWord w rm l i) (val i).1).flags ||| (val i).2).testBit k = true := by
  unfold Ty.elts State.fpRes
  cases t.isPacked with
  | true =>
    simp only [if_true, Nat.testBit_or (x := _ ||| _), Bool.or_eq_true]
    constructor
    · rintro (h | h)
      · exact ⟨0, by decide, h⟩
      · exact ⟨1, by decide, h⟩
    · rintro ⟨i, hi, h⟩
      interval_cases i
      · exact .inl h
      · exact .inr h
  | false => simp

/-! ### What a floating-point instruction leaves -/

/-- Element `i` of a source at a lane, as an exact value. -/
def Cur.fpSrc (c : Cur) (w : Wave) (t : Ty) (l i : Nat) (r : Src) : Ex := unpackFp t.fpf (t.eltBits (c.bits w t l r) i).toNat

theorem Cur.fpElt_src (c : Cur) (w : Wave) {t : Ty} (ht : t ∈ floatTys) (l : Nat) {i : Nat} (hi : i < t.elts) (r : Src) :
    fpElt t ((c.reads w).src ((c.reads w).split c.entry) l r).toNat i = c.fpSrc w t l i r := by
  rw [fpElt_eq t _ hi, Cur.fpSrc, Cur.bits_narrow c w (floatTys_narrow t ht)]
  rfl

/-- The exact value `y` of an element at a lane, rounded once into a type. -/
def State.eltRounded (s : State) (c : Cur) (w : Wave) (t : Ty) (rm : RM) (sat : Bool) (y : Nat → Nat → Ex × Nat) (l i : Nat) : FRes :=
  finishFp t.fpf rm sat (s.laneWord (c.reads w) rm l i) (y l i).1

/-- The instruction's outcome when each element of its destination is an exact value rounded once, and FPSTAT gains exactly the exceptions
of the elements computed. -/
def State.roundsOnce (s : State) (c : Cur) (w : Wave) (out : Out) (ctl : Ctl) (d : Dst) (t : Ty) (rm : RM) (sat : Bool)
    (y : Nat → Nat → Ex × Nat) : Prop :=
  ∃ w', out = .next (s.done c w') ∧
    (∀ l i, l < 32 → i < t.elts → c.writes d (c.active w ctl) l = true →
      t.eltBits (w'.dst false d l) i = BitVec.ofNat t.elt (s.eltRounded c w t rm sat y l i).bits) ∧
    ∀ k, k < 32 → (w'.fpstat.getLsbD k = true ↔ w.fpstat.getLsbD k = true ∨
      ∃ l i, l < 32 ∧ i < t.elts ∧ c.computes d (c.active w ctl) l = true ∧
        ((s.eltRounded c w t rm sat y l i).flags ||| (y l i).2).testBit k = true)

section Rounds

variable {s : State} {c : Cur} {w : Wave} (h : s.runs c w)

include h

theorem State.runLane_roundsOnce (ctl : Ctl) (d : Dst) (srcs : List (Src × Nat)) {t : Ty} (ht : t ∈ floatTys) (rm : RM) (sat : Bool)
    {val : Wave → Split → Nat → Nat → Ex × Nat} {y : Nat → Nat → Ex × Nat}
    (hy : ∀ l i, i < t.elts → val (c.reads w) ((c.reads w).split c.entry) l i = y l i) :
    s.roundsOnce c w (s.runLane ctl.pred ctl.neg d false srcs fun w x l => s.fpRes w l t rm sat (val w x l)) ctl d t rm sat y := by
  obtain ⟨w', hrun, hd, hfp⟩ := State.runLane_flags h ctl d false srcs fun w x l => s.fpRes w l t rm sat (val w x l)
  refine ⟨w', hrun, fun l i hl hi hw => ?_, fun k hk => ?_⟩
  · rw [hd l hl hw, State.eltRounded, ← hy l i hi]
    exact eltBits_fpRes ht s _ l rm sat _ hi
  · rw [hfp k hk]
    simp only [testBit_fpRes, State.eltRounded]
    refine or_congr_right ⟨?_, ?_⟩
    · rintro ⟨l, hl, hc, i, hi, hb⟩
      exact ⟨l, i, hl, hi, hc, hy l i hi ▸ hb⟩
    · rintro ⟨l, i, hl, hi, hc, hb⟩
      exact ⟨l, hl, hc, i, hi, (hy l i hi).symm ▸ hb⟩

theorem runFp2_roundsOnce (o : Bin) (ht : o.ty ∈ floatTys) (f : Ex → Ex → Ex × Nat) :
    s.roundsOnce c w (runFp2 o f s) o.ctl o.d o.ty o.rm o.sat fun l i => f (c.fpSrc w o.ty l i o.a) (c.fpSrc w o.ty l i o.b) :=
  State.runLane_roundsOnce h o.ctl o.d _ ht o.rm o.sat fun l i hi => by simp only [Cur.fpElt_src c w ht l hi]

theorem runFp1_roundsOnce (o : Un) (ht : o.ty ∈ floatTys) (f : Ex → Ex) :
    s.roundsOnce c w (runFp1 o f s) o.ctl o.d o.ty o.rm o.sat fun l i => (f (c.fpSrc w o.ty l i o.a), 0) :=
  State.runLane_roundsOnce h o.ctl o.d _ ht o.rm o.sat fun l i hi => by simp only [Cur.fpElt_src c w ht l hi]

theorem runFma_roundsOnce (o : Tri) (ht : o.ty ∈ floatTys) :
    s.roundsOnce c w (runFma o s) o.ctl o.d o.ty o.rm o.sat fun l i =>
      (exAdd o.rm (exMul (c.fpSrc w o.ty l i o.a) (c.fpSrc w o.ty l i o.b)) (c.fpSrc w o.ty l i o.c), 0) :=
  State.runLane_roundsOnce h o.ctl o.d _ ht o.rm o.sat fun l i hi => by simp only [Cur.fpElt_src c w ht l hi, exFma]

end Rounds

theorem f32_subset : [Ty.f32] ⊆ floatTys := by decide
theorem packedFloat_subset : [Ty.f16x2, .bf16x2] ⊆ floatTys := by decide

theorem floatTwoSources : FloatTwoSources := by
  intro o s c w h p hp hwf
  simp only [List.mem_cons, List.not_mem_nil, or_false] at hp
  rcases hp with rfl | rfl | rfl | rfl | rfl | rfl
  · exact runFp2_roundsOnce h o (f32_subset (Bin.ty_mem_of_ok hwf)) (addF o)
  · exact runFp2_roundsOnce h o (f32_subset (Bin.ty_mem_of_ok hwf)) (subF o)
  · exact runFp2_roundsOnce h o (f32_subset (Bin.ty_mem_of_ok hwf)) mulF
  · exact runFp2_roundsOnce h o (f32_subset (Bin.ty_mem_of_ok hwf)) exDiv
  · exact runFp2_roundsOnce h o (packedFloat_subset (Bin.ty_mem_of_ok hwf)) (addF o)
  · exact runFp2_roundsOnce h o (packedFloat_subset (Bin.ty_mem_of_ok hwf)) mulF

/-! ### Fused forms and the square root -/

theorem Wave.dst_narrow_lt (w : Wave) (d : Dst) (l : Nat) : w.dst false d l < 2 ^ 32 := by
  cases d with
  | v n | s n => exact BitVec.isLt _
  | zero => exact Nat.two_pow_pos 32

theorem Cur.fpSrc_f32 (c : Cur) (w : Wave) (l : Nat) (r : Src) : c.fpSrc w .f32 l 0 r = unpackFp fp32 (c.word w l r).toNat := by
  rw [Cur.fpSrc, Ty.eltBits_zero, Cur.bits_narrow c w rfl]
  exact congrArg _ (BitVec.toNat_ofNat .. |>.trans (Nat.mod_eq_of_lt (BitVec.isLt _)))

/-- An F32 destination holds one element. -/
theorem State.roundsOnce.f32 {s : State} {c : Cur} {w : Wave} {out : Out} {ctl : Ctl} {d : Dst} {rm : RM} {sat : Bool} {y : Nat → Nat → Ex × Nat}
    (h : s.roundsOnce c w out ctl d .f32 rm sat y) :
    ∃ w', out = .next (s.done c w') ∧
      (∀ l, l < 32 → c.writes d (c.active w ctl) l = true → w'.dst false d l = (s.eltRounded c w .f32 rm sat y l 0).bits % 2 ^ 32) ∧
      ∀ k, k < 32 → (w'.fpstat.getLsbD k = true ↔ w.fpstat.getLsbD k = true ∨
        ∃ l, l < 32 ∧ c.computes d (c.active w ctl) l = true ∧ ((s.eltRounded c w .f32 rm sat y l 0).flags ||| (y l 0).2).testBit k = true) := by
  have hone (p : Nat → Prop) : (∃ i, i < Ty.elts .f32 ∧ p i) ↔ p 0 := by simp [Ty.elts, Ty.isPacked]
  obtain ⟨w', hrun, hd, hfp⟩ := h
  refine ⟨w', hrun, fun l hl hw => ?_, fun k hk => ?_⟩
  · have hbits := congrArg BitVec.toNat (hd l 0 hl (by decide) hw)
    rw [Ty.eltBits_zero, BitVec.toNat_ofNat, BitVec.toNat_ofNat] at hbits
    exact (Nat.mod_eq_of_lt (w'.dst_narrow_lt d l)).symm.trans hbits
  · rw [hfp k hk]
    simp only [exists_and_left, hone]

theorem fusedAndRoot : FusedAndRoot := by
  intro s c w h
  refine ⟨fun o i hi hwf => ?_, fun o => ⟨rfl, rfl⟩, fun o hwf => ?_⟩
  · obtain ⟨hrun, ht⟩ : exec i s = runFma o s ∧ o.ty ∈ floatTys := by
      simp only [List.mem_cons, List.not_mem_nil, or_false] at hi
      rcases hi with rfl | rfl
      · exact ⟨rfl, f32_subset (Tri.ty_mem_of_ok hwf)⟩
      · exact ⟨rfl, packedFloat_subset (Tri.ty_mem_of_ok hwf)⟩
    obtain ⟨w', hw', hd, hfp⟩ := runFma_roundsOnce h o ht
    simp only [Nat.or_zero] at hfp
    exact ⟨w', hrun.trans hw', hd, hfp⟩
  · have hty : o.ty = .f32 := List.mem_singleton.1 (Un.ty_mem_of_ok hwf)
    have hrun := runFp1_roundsOnce h o (hty ▸ by decide) exSqrt
    rw [hty] at hrun
    obtain ⟨w', hw', hd, hfp⟩ := hrun.f32
    simp only [State.eltRounded, Cur.fpSrc_f32, Nat.or_zero] at hd hfp
    exact ⟨w', hw', hd, hfp⟩

/-! ### Approximations (05 R116, R117) -/

/-- What an approximation delivers for an input and a rounding mode. -/
def approxWord (fn : Nat) (rm : RM) (x : Word) : Word := BitVec.ofNat 32 (approxRes fn rm rm.code x).bits

theorem runApprox_dst {s : State} {c : Cur} {w : Wave} (h : s.runs c w) (fn : Nat) (o : Un) :
    ∃ w', runApprox fn o s = .next (s.done c w') ∧ ∀ l, l < 32 → c.writes o.d (c.active w o.ctl) l = true →
      w'.dst false o.d l = (approxWord fn o.rm (c.word w l o.a)).toNat := by
  obtain ⟨w', hrun, hd, -⟩ := State.runLane_flags h o.ctl o.d false [(o.a, 1)] fun w x l =>
    let r := approxRes fn o.rm o.rm.code (w.src x l o.a)
    (r.bits, r.flags)
  refine ⟨w', hrun, fun l hl hw => ?_⟩
  rw [hd l hl hw, approxWord, BitVec.toNat_ofNat]
  rfl

section Exact

variable {fn fl : Nat} {x : Word} {y : Ex}

/-- Where the table gives the value exactly, it is rounded as any exact value is. -/
theorem approxWord_exact (hx : approxExact fn (unpackFp fp32 x.toNat) = (y, fl)) (hy : approxIsExact y = true) (rm : RM) :
    approxWord fn rm x = BitVec.ofNat 32 (finishFp fp32 rm false 0 y).bits := by
  simp only [approxWord, approxRes, hx, hy, if_true]

theorem approxWord_nan {p : Bool} (hx : approxExact fn (unpackFp fp32 x.toNat) = (.nan p, fl)) (rm : RM) :
    approxWord fn rm x = 0x7FC00000#32 := approxWord_exact hx rfl rm

theorem approxWord_inf (neg : Bool) (hx : approxExact fn (unpackFp fp32 x.toNat) = (.inf neg, fl)) (rm : RM) :
    approxWord fn rm x = if neg then 0xFF800000#32 else 0x7F800000#32 := by
  rw [approxWord_exact hx rfl rm]
  cases neg <;> rfl

theorem approxWord_zero (neg : Bool) (hx : approxExact fn (unpackFp fp32 x.toNat) = (.num neg 0 0 false, fl)) (rm : RM) :
    approxWord fn rm x = if neg then 0x80000000#32 else 0 := by
  rw [approxWord_exact hx rfl rm]
  cases neg <;> rfl

theorem approxWord_one (neg : Bool) (hx : approxExact fn (unpackFp fp32 x.toNat) = (.num neg 1 0 false, fl)) (rm : RM) :
    approxWord fn rm x = if neg then 0xBF800000#32 else 0x3F800000#32 := by
  rw [approxWord_exact hx (by cases neg <;> rfl) rm]
  cases neg <;> rfl

theorem approxWord_three (hx : approxExact fn (unpackFp fp32 x.toNat) = (exInt 3, fl)) (rm : RM) :
    approxWord fn rm x = 0x40400000#32 := approxWord_exact hx rfl rm

theorem approxWord_four (hx : approxExact fn (unpackFp fp32 x.toNat) = (exPow2 2, fl)) (rm : RM) :
    approxWord fn rm x = 0x40800000#32 := approxWord_exact hx rfl rm

end Exact

/-- A power of two of at least 2^-512, in fixed point. -/
theorem fxOf_two_pow {a n : Nat} {exp : Int} (hexp : 0 ≤ exp + fxBits) (hn : a + exp = n) : fxOf (2 ^ a) exp = 2 ^ n * fxOne := by
  rw [fxOf, fxOne, ← pow_add, ← pow_add]
  congr 1
  omega

/-- FEXP2 is exact where its operand is a small natural number. -/
theorem approxExact_exp2_nat {man n : Nat} {exp : Int} (h0 : man ≠ 0) (hsmall : (man.log2 : Int) + exp < 10)
    (hn : fxOf man exp = n * fxOne) : approxExact 2 (.num false man exp false) = (exPow2 n, 0) := by
  have hone : 0 < fxOne := Nat.two_pow_pos fxBits
  have hfrac : fxOf man exp % fxOne = 0 := by rw [hn, Nat.mul_mod_left]
  have hint : fxOf man exp / fxOne = n := by rw [hn, Nat.mul_div_cancel _ hone]
  calc approxExact 2 (.num false man exp false)
      = (if fxOf man exp % fxOne = 0 then exPow2 (fxOf man exp / fxOne : Nat)
          else .num false (fxExp2 (fxOf man exp % fxOne)) ((fxOf man exp / fxOne : Nat) - fxBits) true, 0) :=
        (if_neg h0).trans (if_neg (Int.not_le.2 hsmall))
    _ = (exPow2 n, 0) := by rw [if_pos hfrac, hint]

theorem approxExact_exp2_two : approxExact 2 (unpackFp fp32 (0x40000000#32).toNat) = (exPow2 2, 0) := by
  have hunpack : unpackFp fp32 (0x40000000#32).toNat = .num false (2 ^ 23) (-22) false := by decide
  have hfx : fxOf (2 ^ 23) (-22) = 2 * fxOne := by rw [fxOf_two_pow (n := 1) (by decide) rfl, pow_one]
  rw [hunpack]
  exact approxExact_exp2_nat (n := 2) (by decide) (by decide) hfx

theorem approxExact_nan (fn : Nat) {x : Word} (h : fpIsNan x = true) : ∃ p, approxExact fn (unpackFp fp32 x.toNat) = (.nan p, 0) := by
  obtain ⟨p, hp⟩ := unpackFp32_nan h
  exact ⟨p, by rw [hp]; rfl⟩

theorem approximationsAreFixed : ApproximationsAreFixed := by
  refine ⟨approxWord, fun o s c w h p hp _ => ?_, fun n rm x _ hx => ?_, fun rm => ?_⟩
  · simp only [List.mem_cons, List.not_mem_nil, or_false] at hp
    rcases hp with rfl | rfl | rfl | rfl | rfl | rfl | rfl <;> exact runApprox_dst h _ o
  · obtain ⟨p, hp⟩ := approxExact_nan n hx
    exact approxWord_nan hp rm
  · exact ⟨approxWord_inf false rfl rm, approxWord_inf true rfl rm, approxWord_zero false rfl rm, approxWord_zero true rfl rm,
      approxWord_inf false rfl rm, approxWord_inf true rfl rm, approxWord_zero false rfl rm, approxWord_nan rfl rm,
      approxWord_one false rfl rm, approxWord_zero false rfl rm, approxWord_inf false rfl rm, approxWord_four approxExact_exp2_two rm,
      approxWord_inf true rfl rm, approxWord_inf true rfl rm, approxWord_inf false rfl rm, approxWord_three rfl rm,
      approxWord_zero false rfl rm, approxWord_zero true rfl rm, approxWord_nan rfl rm,
      approxWord_one false rfl rm, approxWord_one false rfl rm, approxWord_nan rfl rm,
      approxWord_zero false rfl rm, approxWord_zero true rfl rm, approxWord_one false rfl rm, approxWord_one true rfl rm⟩

/-- Settles O10: every form is `runLane` with each element an exact value rounded once; the approximations' exact values by the table. -/
theorem floatArithmetic : Obligations.FloatArithmetic := ⟨floatTwoSources, fusedAndRoot, approximationsAreFixed⟩

end Sys2Proof.Machine
end

section
/-! SUPPORT. Conversions between formats (04 R82, R85, R87, 05 R118 to R120): a run of registers as one number and the elements packed in
it, what an instruction that writes a run leaves in its registers, and the values of F2I, I2F, FCVT, QNT, DQNT, FPK and FUPK. -/

namespace Sys2Proof

theorem Ty.elts_pos (t : Ty) : 0 < t.elts := by unfold Ty.elts; split <;> decide

/-- The elements of a format fill its packed registers (05 R120). -/
theorem Fmt.bits_mul_count (f : Fmt) : f.bits * f.count = 32 * f.packed := by cases f <;> rfl

theorem Src.plus_zero (o : Src) : o.plus 0 = o := by cases o <;> rfl

theorem CvtT.dst_mem_of_ok {o : CvtT} {dsts srcs : List Ty} {sat : Bool} (h : o.ok dsts srcs sat = true) : o.dst ∈ dsts := by
  simp only [CvtT.ok, Bool.and_eq_true, and_assoc] at h
  obtain ⟨-, hdst, -⟩ := h
  exact List.contains_iff_mem.1 hdst

end Sys2Proof

namespace Sys2Proof.Machine

/-! ### Conversions of one element -/

section OneElement

variable {s : State} {c : Cur} {w : Wave} (h : s.runs c w)

include h

theorem exec_f2i_sound (o : CvtT) : ∃ w', exec (.f2i o) s = .next (s.done c w') ∧
    ∀ l, l < 32 → c.writes o.d (c.active w o.ctl) l = true →
      o.dst.eltBits (w'.dst o.dst.wide o.d l) 0 = BitVec.ofInt o.dst.elt (finishInt o.dst.lo o.dst.hi o.rm (s.laneWord (c.reads w) o.rm l 0)
        (unpackFp o.src.fpf (o.src.eltBits (c.word w l o.a).toNat 0).toNat)).1 := by
  obtain ⟨w', hrun, hd⟩ := State.runLane_dst h o.ctl o.d o.dst.wide [(o.a, 1)]
    (val := fun w x l =>
      let r := finishInt o.dst.lo o.dst.hi o.rm (s.laneWord w o.rm l 0) (fpElt o.src (w.src x l o.a).toNat 0)
      (narrow o.dst.elt r.1, r.2))
    fun _ => Nat.lt_of_lt_of_le (narrow_lt _ _) o.dst.two_pow_elt_le
  refine ⟨w', hrun, fun l hl hw => ?_⟩
  rw [hd l hl hw, Ty.eltBits_zero, ofNat_narrow, fpElt_eq _ _ o.src.elts_pos]
  rfl

theorem exec_i2f_sound (o : CvtT) (ht : o.dst ∈ floatTys) :
    s.roundsOnce c w (exec (.i2f o) s) o.ctl o.d o.dst o.rm o.sat fun l _ => (exInt (o.src.num (o.src.eltBits (c.bits w o.src l o.a) 0)), 0) :=
  State.runLane_roundsOnce h o.ctl o.d [(o.a, o.src.words)] ht o.rm o.sat
    (val := fun w x l _ => (exInt (o.src.val (w.opnd x o.src l o.a)), 0)) fun l i _ => by rw [Ty.val_eq_num, Ty.eltBits_zero]; rfl

/-- An instruction that rounds one value into an element format leaves the element, zero-extended, in its destination. -/
theorem State.runLane_eltRes (ctl : Ctl) (d : Dst) (srcs : List (Src × Nat)) (f : Fmt) (rm : RM) (sat : Bool)
    (x : Wave → Split → Nat → Ex) (fl : Wave → Split → Nat → Nat) :
    ∃ w', (s.runLane ctl.pred ctl.neg d false srcs fun w y l => s.eltRes w l 0 f rm sat (x w y l) (fl w y l)) = .next (s.done c w') ∧
      ∀ l, l < 32 → c.writes d (c.active w ctl) l = true →
        w'.dst false d l = (finishElt f rm sat (s.laneWord (c.reads w) rm l 0) (x (c.reads w) ((c.reads w).split c.entry) l)).bits % 2 ^ 32 := by
  obtain ⟨w', hrun, hd, -⟩ := State.runLane_flags h ctl d false srcs fun w y l => s.eltRes w l 0 f rm sat (x w y l) (fl w y l)
  exact ⟨w', hrun, hd⟩

theorem exec_fcvt_sound (o : CvtF) : ∃ w', exec (.fcvt o) s = .next (s.done c w') ∧
    ∀ l, l < 32 → c.writes o.d (c.active w o.ctl) l = true → w'.dst false o.d l = (finishElt o.dst o.rm o.sat
      (s.laneWord (c.reads w) o.rm l 0) (unpackElt o.src ((c.word w l o.a).toNat % 2 ^ o.src.bits))).bits % 2 ^ 32 :=
  State.runLane_eltRes h o.ctl o.d [(o.a, 1)] o.dst o.rm o.sat (fun w x l => unpackElt o.src ((w.src x l o.a).toNat % 2 ^ o.src.bits))
    fun w x l => eltFD o.src ((w.src x l o.a).toNat % 2 ^ o.src.bits)

theorem exec_qnt_sound (o : CvtP) : ∃ w', exec (.qnt o) s = .next (s.done c w') ∧
    ∀ l, l < 32 → c.writes o.d (c.active w o.ctl) l = true → w'.dst false o.d l = (finishElt o.fmt o.rm o.sat
      (s.laneWord (c.reads w) o.rm l 0) (exMul (unpackFp fp32 (c.word w l o.a).toNat) (unpackFp fp32 (c.word w l o.b).toNat))).bits % 2 ^ 32 :=
  State.runLane_eltRes h o.ctl o.d [(o.a, 1), (o.b, 1)] o.fmt o.rm o.sat
    (fun w x l => exMul (unpackFp fp32 (w.src x l o.a).toNat) (unpackFp fp32 (w.src x l o.b).toNat))
    fun w x l => if (exMul (unpackFp fp32 (w.src x l o.a).toNat) (unpackFp fp32 (w.src x l o.b).toNat)).sig then fNV else 0

theorem exec_dqnt_sound (o : CvtP) : ∃ w', exec (.dqnt o) s = .next (s.done c w') ∧
    ∀ l, l < 32 → c.writes o.d (c.active w o.ctl) l = true → w'.dst false o.d l = (finishFp fp32 o.rm o.sat
      (s.laneWord (c.reads w) o.rm l 0)
      (exMul (unpackElt o.fmt ((c.word w l o.a).toNat % 2 ^ o.fmt.bits)) (unpackFp fp32 (c.word w l o.b).toNat))).bits % 2 ^ 32 :=
  State.runLane_eltRes h o.ctl o.d [(o.a, 1), (o.b, 1)] .fp32 o.rm o.sat
    (fun w x l => exMul (unpackElt o.fmt ((w.src x l o.a).toNat % 2 ^ o.fmt.bits)) (unpackFp fp32 (w.src x l o.b).toNat))
    fun w x l => eltFD o.fmt ((w.src x l o.a).toNat % 2 ^ o.fmt.bits)

end OneElement

theorem floatDst_subset : [Ty.f32, .f16, .bf16] ⊆ floatTys := by decide

theorem conversions : Conversions := by
  intro s c w l h hl
  refine ⟨fun o _ hw => ?_, fun o hwf hw => ?_, fun o _ hw => ?_, fun o _ hw => ?_, fun o _ hw => ?_⟩
  · obtain ⟨w', hrun, hd⟩ := exec_f2i_sound h o
    exact ⟨w', hrun, hd l hl hw⟩
  · obtain ⟨w', hrun, hd, -⟩ := exec_i2f_sound h o (floatDst_subset (CvtT.dst_mem_of_ok hwf))
    exact ⟨w', hrun, hd l 0 hl o.dst.elts_pos hw⟩
  · obtain ⟨w', hrun, hd⟩ := exec_fcvt_sound h o
    exact ⟨w', hrun, hd l hl hw⟩
  · obtain ⟨w', hrun, hd⟩ := exec_qnt_sound h o
    exact ⟨w', hrun, hd l hl hw⟩
  · obtain ⟨w', hrun, hd⟩ := exec_dqnt_sound h o
    exact ⟨w', hrun, hd l hl hw⟩

/-! ### Elements packed in a number -/

theorem joinElts_succ (b n : Nat) (f : Nat → Nat × Nat) :
    (joinElts b (n + 1) f).1 = (joinElts b n f).1 + (f n).1 % 2 ^ b * 2 ^ (b * n) := by
  simp only [joinElts, List.range_succ, List.foldl_append, List.foldl_cons, List.foldl_nil]

theorem joinElts_lt (b n : Nat) (f : Nat → Nat × Nat) : (joinElts b n f).1 < 2 ^ (b * n) := by
  induction n with
  | zero => exact Nat.one_pos
  | succ n ih =>
    have helt : (f n).1 % 2 ^ b + 1 ≤ 2 ^ b := Nat.mod_lt _ (Nat.two_pow_pos b)
    calc (joinElts b (n + 1) f).1 = (joinElts b n f).1 + (f n).1 % 2 ^ b * 2 ^ (b * n) := joinElts_succ b n f
      _ < ((f n).1 % 2 ^ b + 1) * 2 ^ (b * n) := by rw [Nat.succ_mul]; omega
      _ ≤ 2 ^ b * 2 ^ (b * n) := Nat.mul_le_mul_right _ helt
      _ = 2 ^ (b * (n + 1)) := by rw [← pow_add, Nat.mul_succ, Nat.add_comm]

/-- Element `i` of joined elements. -/
theorem bitsOf_joinElts (b : Nat) {n i : Nat} (hi : i < n) (f : Nat → Nat × Nat) : bitsOf (joinElts b n f).1 (b * i) b = (f i).1 % 2 ^ b := by
  induction n with
  | zero => exact absurd hi (Nat.not_lt_zero i)
  | succ n ih =>
    rw [bitsOf, joinElts_succ]
    rcases Nat.lt_succ_iff_lt_or_eq.1 hi with hlt | rfl
    · obtain ⟨k, rfl⟩ := Nat.exists_eq_add_of_lt hlt
      have hsplit : 2 ^ (b * (i + k + 1)) = 2 ^ b * 2 ^ (b * k) * 2 ^ (b * i) := by ring
      rw [hsplit, ← Nat.mul_assoc, Nat.add_mul_div_right _ _ (Nat.two_pow_pos _), Nat.mul_left_comm, Nat.add_mul_mod_self_left]
      exact ih hlt
    · rw [Nat.add_mul_div_right _ _ (Nat.two_pow_pos _), Nat.div_eq_of_lt (joinElts_lt b i f), Nat.zero_add, Nat.mod_mod]

/-- The number that a run of `n` words stands for, the first lowest. -/
def runNumber (n : Nat) (u : Nat → Nat) : Nat := (List.range n).foldl (fun g j => g + u j * 2 ^ (32 * j)) 0

theorem runNumber_succ (n : Nat) (u : Nat → Nat) : runNumber (n + 1) u = runNumber n u + u n * 2 ^ (32 * n) := by
  simp only [runNumber, List.range_succ, List.foldl_append, List.foldl_cons, List.foldl_nil]

/-- The words of a number stand for its low bits. -/
theorem runNumber_bitsOf (g n : Nat) : runNumber n (fun j => bitsOf g (32 * j) 32) = g % 2 ^ (32 * n) := by
  induction n with
  | zero => exact (Nat.mod_one g).symm
  | succ n ih => rw [runNumber_succ, ih, bitsOf, Nat.mul_succ, pow_add, Nat.mod_mul, Nat.mul_comm (2 ^ (32 * n))]

theorem runNumber_congr {n : Nat} {u v : Nat → Nat} (h : ∀ j, j < n → u j = v j) : runNumber n u = runNumber n v := by
  induction n with
  | zero => rfl
  | succ n ih => rw [runNumber_succ, runNumber_succ, ih fun j hj => h j (Nat.lt_succ_of_lt hj), h n (Nat.lt_succ_self n)]

theorem runNumber_one (u : Nat → Nat) : runNumber 1 u = u 0 := by
  rw [runNumber_succ, Nat.mul_zero, pow_zero, Nat.mul_one]
  exact Nat.zero_add _

theorem runNumber_three (u : Nat → Nat) : runNumber 3 u = u 0 + (u 1 * 2 ^ 32 + u 2 * 2 ^ 64) := by
  rw [runNumber_succ, runNumber_succ, runNumber_one, Nat.add_assoc]

/-- Packed elements stand in one register or in three (R120). -/
theorem runNumber_packed (f : Fmt) (u : Nat → Nat) :
    runNumber f.packed u = u 0 + if f.packed = 3 then u 1 * 2 ^ 32 + u 2 * 2 ^ 64 else 0 := by
  unfold Fmt.packed
  split
  · exact runNumber_three u
  · exact runNumber_one u

/-! ### Instructions that write a run of registers -/

/-- The wave with the `n` words of a number for each lane in a run of registers. -/
def Wave.putRun (w : Wave) (m : LaneMask) (d : Dst) (n : Nat) (g : Nat → Nat) : Wave :=
  (List.range n).foldl (fun w i => w.putD m (d.plus i) fun l => BitVec.ofNat 32 (bitsOf (g l) (32 * i) 32)) w

theorem Wave.putRun_succ (w : Wave) (m : LaneMask) (d : Dst) (n : Nat) (g : Nat → Nat) :
    w.putRun m d (n + 1) g = (w.putRun m d n g).putW false m (d.plus n) fun l => bitsOf (g l) (32 * n) 32 := by
  simp only [Wave.putRun, List.range_succ, List.foldl_append, List.foldl_cons, List.foldl_nil]
  rfl

theorem Cur.writes_plus (c : Cur) (d : Dst) (i : Nat) (m : LaneMask) (l : Nat) : c.writes (d.plus i) m l = c.writes d m l := by
  cases d <;> rfl

/-- A write of one register of a run leaves the others alone. -/
theorem Wave.dst_putW_plus_ne (w : Wave) (m : LaneMask) (d : Dst) {i j : Nat} (hij : i ≠ j) (f : Nat → Nat) {l : Nat} (hl : l < 32) :
    (w.putW false m (d.plus j) f).dst false (d.plus i) l = w.dst false (d.plus i) l := by
  cases d with
  | v n => simp [Wave.putW, Wave.dst, Dst.plus, Wave.v_putD _ _ _ _ _ hl, hij]
  | s n => simp [Wave.putW, Wave.dst, Dst.plus, Wave.s_putD, hij]
  | zero => rfl

/-- After a write of a run, each of its registers holds its word of the lane's number. -/
theorem Wave.dst_putRun (c : Cur) (w : Wave) (m : LaneMask) (d : Dst) {n i : Nat} (hi : i < n) (g : Nat → Nat) {l : Nat} (hl : l < 32)
    (hw : c.writes d m l = true) : (w.putRun m d n g).dst false (d.plus i) l = bitsOf (g l) (32 * i) 32 := by
  induction n with
  | zero => exact absurd hi (Nat.not_lt_zero i)
  | succ n ih =>
    rw [Wave.putRun_succ]
    rcases Nat.lt_succ_iff_lt_or_eq.1 hi with hlt | rfl
    · rw [Wave.dst_putW_plus_ne _ _ _ (Nat.ne_of_lt hlt) _ hl, ih hlt]
    · rw [Wave.dst_putW c _ _ _ _ _ hl ((c.writes_plus d i m l).trans hw)]
      exact Nat.mod_eq_of_lt (Nat.mod_lt _ (Nat.two_pow_pos 32))

/-- With sound registers an instruction that writes a run leaves in each register its word of the lane's number. -/
theorem State.runWords_dst {s : State} {c : Cur} {w : Wave} (h : s.runs c w) (ctl : Ctl) (d : Dst) (n : Nat) (srcs : List (Src × Nat))
    (val : Wave → Split → Nat → Nat × Nat) :
    ∃ w', s.runWords ctl d n srcs val = .next (s.done c w') ∧ ∀ l i, l < 32 → i < n → c.writes d (c.active w ctl) l = true →
      w'.dst false (d.plus i) l = bitsOf (val (c.reads w) ((c.reads w).split c.entry) l).1 (32 * i) 32 := by
  obtain ⟨hh, he⟩ := h
  refine ⟨(w.putRun (c.active w ctl) d n fun l => (val (c.reads w) ((c.reads w).split c.entry) l).1).orFp
    (unionFlags (compLanes d (c.active w ctl)) fun l => (val (c.reads w) ((c.reads w).split c.entry) l).2), ?_, fun l i hl hi hw => ?_⟩
  · simp only [State.runWords, State.run_some hh, Wave.poisoned_sound _ he]
    rfl
  · rw [Wave.dst_orFp]
    exact Wave.dst_putRun c w _ d hi _ hl hw

/-! ### FPK -/

/-- What a lane of FPK makes of register a + i. -/
def fpkElt (s : State) (o : CvtP) (w : Wave) (x : Split) (l i : Nat) : Nat × Nat :=
  s.eltRes w l i o.fmt o.rm o.sat (unpackFp fp32 (w.src x l (o.a.plus i)).toNat) 0

theorem exec_fpk (o : CvtP) (s : State) : exec (.fpk o) s = s.runWords o.ctl o.d o.fmt.packed [(o.a, o.fmt.count)] fun w x l =>
    joinElts o.fmt.bits o.fmt.count (fpkElt s o w x l) := rfl

/-- The packed registers of FPK stand for the joined elements. -/
theorem exec_fpk_sound {s : State} {c : Cur} {w : Wave} (h : s.runs c w) (o : CvtP) : ∃ w', exec (.fpk o) s = .next (s.done c w') ∧
    ∀ l, l < 32 → c.writes o.d (c.active w o.ctl) l = true → runNumber o.fmt.packed (fun j => w'.dst false (o.d.plus j) l) =
      (joinElts o.fmt.bits o.fmt.count (fpkElt s o (c.reads w) ((c.reads w).split c.entry) l)).1 := by
  rw [exec_fpk]
  obtain ⟨w', hrun, hd⟩ := State.runWords_dst h o.ctl o.d o.fmt.packed [(o.a, o.fmt.count)] fun w x l =>
    joinElts o.fmt.bits o.fmt.count (fpkElt s o w x l)
  refine ⟨w', hrun, fun l hl hw => ?_⟩
  rw [runNumber_congr fun j hj => hd l j hl hj hw, runNumber_bitsOf, ← Fmt.bits_mul_count]
  exact Nat.mod_eq_of_lt (joinElts_lt _ _ _)

/-! ### FUPK -/

/-- The packed registers FUPK reads at a lane, as one number. -/
def packedSrc (o : CvtF) (w : Wave) (x : Split) (l : Nat) : Nat := runNumber o.src.packed fun j => (w.src x l (o.a.plus j)).toNat

theorem exec_fupk (o : CvtF) (s : State) : exec (.fupk o) s = s.runWords o.ctl o.d o.src.count [(o.a, o.src.packed)] fun w x l =>
    joinElts 32 o.src.count fun i => fupkElt o.dst o.src (bitsOf (packedSrc o w x l) (o.src.bits * i) o.src.bits) := rfl

/-- Register d + i of FUPK holds what element i unpacks to. -/
theorem exec_fupk_sound {s : State} {c : Cur} {w : Wave} (h : s.runs c w) (o : CvtF) : ∃ w', exec (.fupk o) s = .next (s.done c w') ∧
    ∀ l i, l < 32 → i < o.src.count → c.writes o.d (c.active w o.ctl) l = true → w'.dst false (o.d.plus i) l =
      (fupkElt o.dst o.src (bitsOf (packedSrc o (c.reads w) ((c.reads w).split c.entry) l) (o.src.bits * i) o.src.bits)).1 % 2 ^ 32 := by
  rw [exec_fupk]
  obtain ⟨w', hrun, hd⟩ := State.runWords_dst h o.ctl o.d o.src.count [(o.a, o.src.packed)] fun w x l =>
    joinElts 32 o.src.count fun i => fupkElt o.dst o.src (bitsOf (packedSrc o w x l) (o.src.bits * i) o.src.bits)
  refine ⟨w', hrun, fun l i hl hi hw => ?_⟩
  rw [hd l i hl hi hw, bitsOf_joinElts 32 hi]

theorem packedSrc_eq (c : Cur) (w : Wave) (o : CvtF) (l : Nat) : packedSrc o (c.reads w) ((c.reads w).split c.entry) l =
    (c.word w l o.a).toNat +
      if o.src.packed = 3 then (c.word w l (o.a.plus 1)).toNat * 2 ^ 32 + (c.word w l (o.a.plus 2)).toNat * 2 ^ 64 else 0 := by
  rw [packedSrc, runNumber_packed, Src.plus_zero]
  rfl

theorem sxNat_eq_toInt {n : Nat} (hn : 0 < n) (x : Nat) : sxNat x n = (BitVec.ofNat n x).toInt := by
  have hp : 2 ^ n = 2 * 2 ^ (n - 1) := by rw [← Nat.pow_succ', Nat.succ_eq_add_one, Nat.sub_add_cancel hn]
  simp only [sxNat, BitVec.toInt_eq_toNat_cond, BitVec.toNat_ofNat]
  split <;> split <;> omega

/-- A sign-extended element, as a register word. -/
theorem narrow_sxNat {n : Nat} (hn : 0 < n) (x : Nat) : narrow 32 (sxNat x n) = ((BitVec.ofNat n x).signExtend 32).toNat := by
  rw [sxNat_eq_toInt hn, BitVec.signExtend, BitVec.toNat_ofInt, narrow]

/-- FUPK from an integer format to the same code gives the integer (R120). -/
theorem fupkElt_int {f : Fmt} {e : Nat} (hi : f.isInt = true) (hb : badT2 f e = false) (he : e < 2 ^ f.bits) :
    (fupkElt f f e).1 % 2 ^ 32 = if f = .n8 then e else ((BitVec.ofNat f.bits e).signExtend 32).toNat := by
  have hword {n : Nat} (hn : 0 < n) : narrow 32 (sxNat e n) % 2 ^ 32 = ((BitVec.ofNat n e).signExtend 32).toNat := by
    rw [narrow_sxNat hn]
    exact Nat.mod_eq_of_lt (BitVec.isLt _)
  cases f with
  | i8 => exact hword (n := 8) (by decide)
  | n8 => exact Nat.mod_eq_of_lt (Nat.lt_trans he (by decide))
  | i4 => exact hword (n := 4) (by decide)
  | t2 =>
    simp only [fupkElt, eltFmt, hb, Bool.false_eq_true, if_false, if_true, reduceCtorEq]
    exact hword (n := 2) (by decide)
  | _ => cases hi

theorem packAndUnpack : PackAndUnpack := by
  intro s c w l h hl
  refine ⟨fun o _ hw => ?_, fun o _ hw => ?_⟩
  · obtain ⟨w', hrun, hg⟩ := exec_fpk_sound h o
    have hgl := hg l hl hw
    rw [runNumber_packed, Dst.plus_zero] at hgl
    refine ⟨w', hrun, fun i hi => ?_⟩
    rw [hgl]
    exact bitsOf_joinElts o.fmt.bits hi _
  · obtain ⟨w', hrun, hd⟩ := exec_fupk_sound h o
    refine ⟨w', hrun, fun i hi => ?_⟩
    have hdi := hd l i hl hi hw
    rw [packedSrc_eq] at hdi
    refine ⟨fun hdst => ?_, fun hdst hint hb => ?_⟩
    · rw [hdi, hdst]
      rfl
    · rw [hdi, hdst]
      exact fupkElt_int hint hb (Nat.mod_lt _ (Nat.two_pow_pos _))

/-- Settles O9: the conversions of one element through `runLane`, FPK and FUPK through the number their packed registers stand for. -/
theorem formatConversions : Obligations.FormatConversions := ⟨conversions, packAndUnpack⟩

end Sys2Proof.Machine
end

section
/-! SUPPORT. The FP32 instructions that never round (05 R114, R115): the exceptions an instruction that writes a predicate leaves in FPSTAT,
FMIN and FMAX by an order of encodings that holds the zeros apart, NV of FCMP, and the class of an encoding. -/

namespace Sys2Proof.Machine

/-! ### The exceptions of an instruction that writes a predicate -/

/-- With sound registers an instruction that writes a predicate leaves each active lane's value in it, and FPSTAT gains the exceptions of
the active lanes. -/
theorem State.runPred_flags {s : State} {c : Cur} {w : Wave} (h : s.runs c w) (ctl : Ctl) {d : Nat} (hd : predDstOk d = true)
    (srcs : List (Src × Nat)) (preds : List Nat) (val : Wave → Split → LaneMask → Nat → Bool × Nat) :
    ∃ w', s.runPred ctl.pred ctl.neg d srcs preds val = .next (s.done c w') ∧
      (∀ l, l < 32 → laneOf (c.active w ctl) l = true →
        laneOf (w'.p d) l = (val (c.reads w) ((c.reads w).split c.entry) (c.active w ctl) l).1) ∧
      ∀ k, k < 32 → (w'.fpstat.getLsbD k = true ↔ w.fpstat.getLsbD k = true ∨
        ∃ l, l < 32 ∧ laneOf (c.active w ctl) l = true ∧
          (val (c.reads w) ((c.reads w).split c.entry) (c.active w ctl) l).2.testBit k = true) := by
  refine ⟨_, State.runPred_sound h.1 h.2 .., fun l hl ha => ?_, fun k hk => ?_⟩
  · rw [Wave.p_orFp, Wave.laneOf_putPd _ _ _ _ _ (predDstOk_ne hd) hl, if_pos ⟨rfl, ha⟩]
    rfl
  · rw [Wave.getLsbD_orFp _ _ hk, Wave.fpstat_putPd, testBit_unionFlags]
    simp only [← and_assoc, ← mem_lanesOf]
    rfl

/-- FPSTAT bit 0 is NV (04 R98). -/
theorem testBit_nv (b : Bool) (k : Nat) : (if b then fNV else 0).testBit k = true ↔ k = 0 ∧ b = true := by
  cases b with
  | true => simp only [if_true, fNV, Nat.testBit_one_eq_true_iff_self_eq_zero, and_true]
  | false => simp only [Bool.false_eq_true, if_false, Nat.zero_testBit, and_false]

/-! ### What an encoding that is compared unpacks to -/

theorem sig_unpackFp32 (x : Word) : (unpackFp fp32 x.toNat).sig = fpIsSig x := by
  have hquiet : bitOf (fpAbs x % 2 ^ 23) 22 = x.getLsbD 22 := by
    rw [BitVec.getLsbD, Nat.testBit_eq_decide_div_mod_eq, bitOf, Bool.eq_iff_iff, beq_iff_eq, decide_eq_true_eq, fpAbs]
    omega
  have hlt : fpAbs x < 2 ^ 31 := Nat.mod_lt _ (by decide)
  have hnan : fpIsNan x = decide (0x7F800000 < fpAbs x) := rfl
  rw [fpIsSig, hnan, ← hquiet, unpackFp_fp32]
  by_cases hn : 0x7F800000 < fpAbs x
  · rw [if_pos (by omega), if_neg (by omega), decide_eq_true hn, Bool.true_and]
    rfl
  · rw [decide_eq_false hn, Bool.false_and]
    split
    · rw [if_pos (by omega)]; rfl
    · split <;> rfl

theorem isNeg_unpackFp32 {x : Word} (h : fpIsNan x = false) : (unpackFp fp32 x.toNat).isNeg = fpSgn x := by
  have hle : fpAbs x ≤ 0x7F800000 := Nat.not_lt.1 (of_decide_eq_false h)
  rcases Nat.lt_or_eq_of_le hle with hfin | hinf
  · obtain ⟨m, e, hu, -⟩ := unpackFp32_fin hfin
    rw [hu]; rfl
  · rw [unpackFp32_inf hinf]; rfl

/-! ### The order that holds the zeros apart -/

theorem toNat_eq_sgn_abs (x : Word) : x.toNat = (if fpSgn x then 2 ^ 31 else 0) + fpAbs x := by
  have hlt := x.isLt
  rw [fpSgn, BitVec.getLsbD, Nat.testBit_eq_decide_div_mod_eq, fpAbs]
  simp only [decide_eq_true_eq]
  split <;> omega

/-- A negative encoding stands one place below where its value puts it. -/
theorem fpKey_eq (x : Word) : fpKey x = withSign (fpSgn x) (fpAbs x) - if fpSgn x then 1 else 0 := by
  have hkey : fpKey x = if fpSgn x then -(fpAbs x : Int) - 1 else (x.toNat : Int) := rfl
  have hx := toNat_eq_sgn_abs x
  rw [hkey, withSign]
  split <;> simp_all

theorem fpKey_injective {x y : Word} (h : fpKey x = fpKey y) : x = y := by
  apply BitVec.eq_of_toNat_eq
  rw [fpKey_eq, fpKey_eq, withSign, withSign] at h
  rw [toNat_eq_sgn_abs x, toNat_eq_sgn_abs y]
  split_ifs at h ⊢ <;> omega

/-- An encoding is below another when its value is, or when the values are equal and only it is negative. -/
theorem fpKey_lt_iff (x y : Word) :
    fpKey x < fpKey y ↔ fpKey0 x < fpKey0 y ∨ fpKey0 x = fpKey0 y ∧ fpSgn x = true ∧ fpSgn y = false := by
  rw [fpKey_eq, fpKey_eq, fpKey0_eq, fpKey0_eq]
  cases fpSgn x <;> cases fpSgn y <;>
    simp only [withSign, if_true, if_false, Bool.false_eq_true, Bool.true_eq_false, and_true, and_false, or_false] <;>
    omega

/-! ### FMIN and FMAX -/

/-- What a minimum or a maximum of two encodings answers: the one that is a number beside a NaN, the canonical NaN for two, else the
choice `p` between two numbers. -/
def numberOr (a b p : Word) : Word := if fpIsNan a && fpIsNan b then 0x7FC00000#32 else if fpIsNan a then b else if fpIsNan b then a else p

/-- The model's test of two numbers, −0 below +0, is the order of their encodings. -/
theorem below_eq_fpKey {a b : Word} (ha : fpIsNan a = false) (hb : fpIsNan b = false) :
    (exLt (unpackFp fp32 a.toNat) (unpackFp fp32 b.toNat) || (exEq (unpackFp fp32 a.toNat) (unpackFp fp32 b.toNat) &&
      (unpackFp fp32 a.toNat).isNeg && !(unpackFp fp32 b.toNat).isNeg)) = decide (fpKey a < fpKey b) := by
  have ho : ordered32 a b := by simp [ordered32, ha, hb]
  rw [Bool.eq_iff_iff, decide_eq_true_eq, fpKey_lt_iff]
  simp only [Bool.or_eq_true, Bool.and_eq_true, Bool.not_eq_true', exLt_iff_fpKey0, exEq_iff_fpKey0, isNeg_unpackFp32 ha,
    isNeg_unpackFp32 hb, ho, true_and, and_assoc]

theorem fminmax_bits (mx : Bool) (a b : Word) :
    (fminmax mx a.toNat b.toNat).bits = (numberOr a b (if decide (fpKey a < fpKey b) == mx then b else a)).toNat := by
  simp only [fminmax, numberOr, isNan_unpackFp32]
  cases ha : fpIsNan a <;> cases hb : fpIsNan b
  case false.false => simp only [below_eq_fpKey ha hb, Bool.and_self, Bool.false_eq_true, if_false, apply_ite BitVec.toNat]
  all_goals rfl

theorem testBit_fminmax_flags (mx : Bool) (a b : Word) (k : Nat) :
    (fminmax mx a.toNat b.toNat).flags.testBit k = true ↔ k = 0 ∧ (fpIsSig a || fpIsSig b) = true := by
  simp only [fminmax, sig_unpackFp32, testBit_nv]

theorem fmin_choice (a b : Word) : (if decide (fpKey a < fpKey b) == false then b else a) = if fpKey a ≤ fpKey b then a else b := by
  simp only [beq_iff_eq, decide_eq_false_iff_not, not_lt]
  rcases lt_trichotomy (fpKey a) (fpKey b) with h | h | h
  · rw [if_neg h.not_ge, if_pos h.le]
  · rw [if_pos h.ge, if_pos h.le, fpKey_injective h]
  · rw [if_pos h.le, if_neg h.not_ge]

theorem fmax_choice (a b : Word) : (if decide (fpKey a < fpKey b) == true then b else a) = if fpKey a ≤ fpKey b then b else a := by
  simp only [beq_true, decide_eq_true_eq]
  rcases lt_trichotomy (fpKey a) (fpKey b) with h | h | h
  · rw [if_pos h, if_pos h.le]
  · rw [if_neg h.not_lt, if_pos h.le, fpKey_injective h]
  · rw [if_neg h.not_gt, if_neg h.not_ge]

/-- FMIN and FMAX deliver a lane's choice unrounded, and raise NV exactly for a signalling NaN. -/
theorem runMinMax_sound {s : State} {c : Cur} {w : Wave} (h : s.runs c w) (o : Bin) {mx : Bool} {p : Word → Word → Word}
    (hp : ∀ a b, (if decide (fpKey a < fpKey b) == mx then b else a) = p a b) :
    ∃ w', runMinMax mx o s = .next (s.done c w') ∧
      (∀ l, l < 32 → c.writes o.d (c.active w o.ctl) l = true →
        w'.dst false o.d l = (numberOr (c.word w l o.a) (c.word w l o.b) (p (c.word w l o.a) (c.word w l o.b))).toNat) ∧
      ∀ k, k < 32 → (w'.fpstat.getLsbD k = true ↔ w.fpstat.getLsbD k = true ∨
        k = 0 ∧ ∃ l, l < 32 ∧ c.computes o.d (c.active w o.ctl) l = true ∧ (fpIsSig (c.word w l o.a) || fpIsSig (c.word w l o.b)) = true) := by
  obtain ⟨w', hrun, hd, hfp⟩ := State.runLane_flags h o.ctl o.d false [(o.a, 1), (o.b, 1)] fun w x l =>
    let r := fminmax mx (w.src x l o.a).toNat (w.src x l o.b).toNat
    (r.bits, r.flags)
  refine ⟨w', hrun, fun l hl hw => ?_, fun k hk => ?_⟩
  · rw [hd l hl hw]
    dsimp only
    rw [fminmax_bits, hp]
    exact Nat.mod_eq_of_lt (BitVec.isLt _)
  · rw [hfp k hk]
    simp only [testBit_fminmax_flags, and_left_comm (b := k = 0), exists_and_left]
    rfl

/-! ### NV of FCMP -/

theorem testBit_fcmpRes_flags (k : Cond) (a b : Word) (j : Nat) :
    (fcmpRes k (unpackFp fp32 a.toNat) (unpackFp fp32 b.toNat)).2.testBit j = true ↔ j = 0 ∧
      (fpIsSig a = true ∨ fpIsSig b = true ∨ (k = .lt ∨ k = .le ∨ k = .gt ∨ k = .ge) ∧ (fpIsNan a = true ∨ fpIsNan b = true)) := by
  refine (testBit_nv _ j).trans (and_congr_right' ?_)
  simp only [sig_unpackFp32, isNan_unpackFp32, Bool.or_eq_true, Bool.and_eq_true, or_assoc]
  cases k <;> simp

theorem exec_fcmp_flags {s : State} {c : Cur} {w : Wave} (h : s.runs c w) {o : Cmp} (hwf : (Instr.fcmp o).wf = true) :
    ∃ w', exec (.fcmp o) s = .next (s.done c w') ∧
      ∀ k, k < 32 → (w'.fpstat.getLsbD k = true ↔ w.fpstat.getLsbD k = true ∨
        k = 0 ∧ ∃ l, l < 32 ∧ laneOf (c.active w o.ctl) l = true ∧
          (fpIsSig (c.word w l o.a) = true ∨ fpIsSig (c.word w l o.b) = true ∨
            (o.cond = .lt ∨ o.cond = .le ∨ o.cond = .gt ∨ o.cond = .ge) ∧ (fpIsNan (c.word w l o.a) = true ∨ fpIsNan (c.word w l o.b) = true))) := by
  obtain ⟨w', hrun, -, hfp⟩ := State.runPred_flags h o.ctl (Cmp.predDstOk_of_ok hwf) [(o.a, 1), (o.b, 1)] []
    fun w x _ l => fcmpRes o.cond (unpackFp fp32 (w.src x l o.a).toNat) (unpackFp fp32 (w.src x l o.b).toNat)
  refine ⟨w', (exec_fcmp o s).trans hrun, fun k hk => ?_⟩
  rw [hfp k hk]
  simp only [testBit_fcmpRes_flags, and_left_comm (b := k = 0), exists_and_left]
  rfl

/-- Settles O7: FMIN and FMAX by the order of encodings, NV by what a signalling encoding unpacks to. -/
theorem minMaxAndCompareNaN : Obligations.MinMaxAndCompareNaN := by
  intro s c w h
  refine ⟨fun o p hp _ => ?_, fun o hwf => exec_fcmp_flags h hwf⟩
  simp only [List.mem_cons, List.not_mem_nil, or_false] at hp
  rcases hp with rfl | rfl
  · exact runMinMax_sound h o fmin_choice
  · exact runMinMax_sound h o fmax_choice

/-! ### FCLASS -/

/-- The class bit of an encoding (05 R115). -/
theorem fclassBit_eq (a : Word) : fclassBit a.toNat =
    if fpIsNan a then 0 else if fpAbs a = 0 then 4
    else if fpSgn a then (if fpAbs a = 0x7F800000 then 1 else if 0x800000 ≤ fpAbs a then 2 else 3)
    else (if fpAbs a = 0x7F800000 then 7 else if 0x800000 ≤ fpAbs a then 6 else 5) := by
  have hs : bitOf a.toNat 31 = fpSgn a := by
    rw [fpSgn, BitVec.getLsbD, Nat.testBit_eq_decide_div_mod_eq]; rfl
  have hm : a.toNat % 2 ^ 31 = fpAbs a := rfl
  have hnan : fpIsNan a = decide (0x7F800000 < fpAbs a) := rfl
  simp only [fclassBit, hs, hm, hnan, decide_eq_true_eq]
  cases fpSgn a <;> simp only [if_true, if_false, Bool.false_eq_true] <;> split_ifs <;> omega

theorem exec_fclass (o : Cls) (s : State) : exec (.fclass o) s = s.runPred o.ctl.pred o.ctl.neg o.d [(o.a, 1)] []
    fun w x _ l => (o.mask.getLsbD (fclassBit (w.src x l o.a).toNat), 0) := rfl

theorem Instr.wf_fclass_dst {o : Cls} (h : (Instr.fclass o).wf = true) : predDstOk o.d = true := by
  simp only [Instr.wf, Bool.and_eq_true, and_assoc] at h
  obtain ⟨-, hd, -⟩ := h
  exact hd

/-- Settles O8: FCLASS through the predicate it writes; no lane raises an exception. -/
theorem floatClass : Obligations.FloatClass := by
  intro o s c w h hwf
  obtain ⟨w', hrun, hp, hfp⟩ := State.runPred_flags h o.ctl (Instr.wf_fclass_dst hwf) [(o.a, 1)] []
    fun w x _ l => (o.mask.getLsbD (fclassBit (w.src x l o.a).toNat), 0)
  refine ⟨w', (exec_fclass o s).trans hrun, BitVec.eq_of_getLsbD_eq fun k hk => ?_, fun l hl ha => ?_⟩
  · simpa only [Nat.zero_testBit, Bool.false_eq_true, and_false, exists_false, or_false, ← Bool.eq_iff_iff] using hfp k hk
  · have hbit : laneOf (w'.p o.d) l = o.mask.getLsbD (fclassBit (c.word w l o.a).toNat) := hp l hl ha
    refine ⟨?_, fun hmask => ?_⟩
    · rw [hbit, fclassBit_eq]
      rfl
    · rw [hbit, hmask]
      exact BitVec.getLsbD_zero

end Sys2Proof.Machine
end

section
/-! SUPPORT. Logic and bit manipulation (05 R108, R109): the low bits an instruction of one, two or three sources leaves in its destination,
and the bits of what the model's arithmetic makes of its operands: shifts, counts, reversals, fields and gathered bytes. -/

namespace Sys2Proof.Machine

/-! ### Bits of numbers -/

theorem bitOf_eq_testBit (x i : Nat) : bitOf x i = x.testBit i := (Nat.testBit_eq_decide_div_mod_eq ..).symm

theorem testBit_bitsOf (x lo n i : Nat) : (bitsOf x lo n).testBit i = (decide (i < n) && x.testBit (lo + i)) := by
  rw [bitsOf, Nat.testBit_mod_two_pow, Nat.testBit_div_two_pow, Nat.add_comm]

theorem getLsbD_ofNat32 (x : Nat) {i : Nat} (hi : i < 32) : (BitVec.ofNat 32 x).getLsbD i = x.testBit i := by
  rw [BitVec.getLsbD_ofNat, decide_eq_true hi, Bool.true_and]

/-! ### The low bits of a destination -/

section Low

variable {s : State} {c : Cur} {w : Wave} (h : s.runs c w)

include h

/-- The low bits of a destination are those of the lane's value. -/
theorem State.runLane_low (ctl : Ctl) (d : Dst) (wide : Bool) (srcs : List (Src × Nat)) (val : Wave → Split → Nat → Nat × Nat) :
    ∃ w', s.runLane ctl.pred ctl.neg d wide srcs val = .next (s.done c w') ∧
      ∀ l n, l < 32 → 2 ^ n ≤ 2 ^ (if wide then 64 else 32) → c.writes d (c.active w ctl) l = true →
        BitVec.ofNat n (w'.dst wide d l) = BitVec.ofNat n (val (c.reads w) ((c.reads w).split c.entry) l).1 := by
  obtain ⟨w', hrun, hd, -⟩ := State.runLane_flags h ctl d wide srcs val
  refine ⟨w', hrun, fun l n hl hn hw => BitVec.eq_of_toNat_eq ?_⟩
  have hdvd := Nat.pow_dvd_pow 2 ((Nat.pow_le_pow_iff_right (by decide)).1 hn)
  rw [hd l hl hw, BitVec.toNat_ofNat, BitVec.toNat_ofNat, Nat.mod_mod_of_dvd _ hdvd]

/-- An operation on one operand's bits leaves in the element the operation `f` that its low bits depend on. -/
theorem runUn_op (o : Un) {g : Nat → Nat} {f : BitVec o.ty.elt → BitVec o.ty.elt}
    (hg : ∀ x, BitVec.ofNat o.ty.elt (g x) = f (BitVec.ofNat o.ty.elt x)) :
    ∃ w', runUn o g s = .next (s.done c w') ∧ ∀ l, l < 32 → c.writes o.d (c.active w o.ctl) l = true →
      o.ty.eltBits (w'.dst o.ty.wide o.d l) 0 = f (o.ty.eltBits (c.bits w o.ty l o.a) 0) := by
  obtain ⟨w', hrun, hd⟩ := State.runLane_low h o.ctl o.d o.ty.wide [(o.a, o.ty.words)] fun w x l => (g (w.opnd x o.ty l o.a), 0)
  refine ⟨w', hrun, fun l hl hw => ?_⟩
  simp only [Ty.eltBits_zero]
  exact (hd l _ hl o.ty.two_pow_elt_le hw).trans (hg _)

/-- An operation on one word leaves its result in the word. -/
theorem runUn_word (o : Un) (hn : o.ty.wide = false) {g : Nat → Nat} (hg : ∀ x, g x < 2 ^ 32) :
    ∃ w', runUn o g s = .next (s.done c w') ∧ ∀ l, l < 32 → c.writes o.d (c.active w o.ctl) l = true →
      w'.dst false o.d l = g (c.word w l o.a).toNat := by
  obtain ⟨w', hrun, hd⟩ := runUn_dst h o (f := g) fun a => by rw [hn]; exact hg a
  refine ⟨w', hrun, fun l hl hw => ?_⟩
  rw [← Cur.bits_narrow c w hn, ← hd l hl hw, hn]

/-- An operation on two operands' bits leaves in the element the operation `f` that its low bits depend on. -/
theorem runBin_op (o : Bin) {g : Nat → Nat → Nat} {f : BitVec o.ty.elt → BitVec o.ty.elt → BitVec o.ty.elt}
    (hg : ∀ x y, BitVec.ofNat o.ty.elt (g x y) = f (BitVec.ofNat o.ty.elt x) (BitVec.ofNat o.ty.elt y)) :
    ∃ w', runBin o g s = .next (s.done c w') ∧ ∀ l, l < 32 → c.writes o.d (c.active w o.ctl) l = true →
      o.ty.eltBits (w'.dst o.ty.wide o.d l) 0 = f (o.ty.eltBits (c.bits w o.ty l o.a) 0) (o.ty.eltBits (c.bits w o.ty l o.b) 0) := by
  obtain ⟨w', hrun, hd⟩ := State.runLane_low h o.ctl o.d o.ty.wide [(o.a, o.ty.words), (o.b, o.ty.words)]
    fun w x l => (g (w.opnd x o.ty l o.a) (w.opnd x o.ty l o.b), 0)
  refine ⟨w', hrun, fun l hl hw => ?_⟩
  simp only [Ty.eltBits_zero]
  exact (hd l _ hl o.ty.two_pow_elt_le hw).trans (hg _ _)

/-- A shift likewise; its count is b's 32 bits, under a 64-bit type too. -/
theorem runShift_op (o : Bin) {g : Nat → Nat → Nat} {f : BitVec o.ty.elt → Nat → BitVec o.ty.elt}
    (hg : ∀ x n, BitVec.ofNat o.ty.elt (g x n) = f (BitVec.ofNat o.ty.elt x) n) :
    ∃ w', runShift o g s = .next (s.done c w') ∧ ∀ l, l < 32 → c.writes o.d (c.active w o.ctl) l = true →
      o.ty.eltBits (w'.dst o.ty.wide o.d l) 0 = f (o.ty.eltBits (c.bits w o.ty l o.a) 0) (c.word w l o.b).toNat := by
  obtain ⟨w', hrun, hd⟩ := State.runLane_low h o.ctl o.d o.ty.wide [(o.a, o.ty.words), (o.b, 1)]
    fun w x l => (g (w.opnd x o.ty l o.a) (w.src x l o.b).toNat, 0)
  refine ⟨w', hrun, fun l hl hw => ?_⟩
  simp only [Ty.eltBits_zero]
  exact (hd l _ hl o.ty.two_pow_elt_le hw).trans (hg _ _)

theorem runShift_word (o : Bin) (hn : o.ty.wide = false) (f : Nat → Nat → Nat) :
    ∃ w', runShift o f s = .next (s.done c w') ∧ ∀ l, l < 32 → c.writes o.d (c.active w o.ctl) l = true →
      BitVec.ofNat 32 (w'.dst false o.d l) = BitVec.ofNat 32 (f (c.word w l o.a).toNat (c.word w l o.b).toNat) := by
  obtain ⟨w', hrun, hd⟩ := State.runLane_low h o.ctl o.d o.ty.wide [(o.a, o.ty.words), (o.b, 1)]
    fun w x l => (f (w.opnd x o.ty l o.a) (w.src x l o.b).toNat, 0)
  refine ⟨w', hrun, fun l hl hw => ?_⟩
  rw [← Cur.bits_narrow c w hn, ← hn]
  exact hd l 32 hl (by rw [hn]; exact le_rfl) hw

theorem runTri_word (o : Tri) (hn : o.ty.wide = false) (f : Nat → Nat → Nat → Nat) :
    ∃ w', runTri o false f s = .next (s.done c w') ∧ ∀ l, l < 32 → c.writes o.d (c.active w o.ctl) l = true →
      BitVec.ofNat 32 (w'.dst false o.d l) = BitVec.ofNat 32 (f (c.word w l o.a).toNat (c.word w l o.b).toNat (c.word w l o.c).toNat) := by
  obtain ⟨w', hrun, hd⟩ := State.runLane_low h o.ctl o.d false [(o.a, o.ty.words), (o.b, o.ty.words), (o.c, o.ty.words)]
    fun w x l => (f (w.opnd x o.ty l o.a) (w.opnd x o.ty l o.b) (w.opnd x o.ty l o.c), 0)
  refine ⟨w', hrun, fun l hl hw => (hd l 32 hl le_rfl hw).trans ?_⟩
  simp only [← Cur.bits_narrow c w hn]
  rfl

end Low

/-! ### Logic and shifts of an element -/

section Element

variable (t : Ty) (x y n : Nat)

theorem ofNat_notI : BitVec.ofNat t.elt (notI t x) = ~~~BitVec.ofNat t.elt x := by
  apply BitVec.eq_of_toNat_eq
  rw [BitVec.toNat_not, BitVec.toNat_ofNat, BitVec.toNat_ofNat, notI]
  exact Nat.mod_eq_of_lt (Nat.lt_of_le_of_lt (Nat.sub_le _ _) (Nat.sub_lt (Nat.two_pow_pos _) Nat.one_pos))

theorem ofNat_andnI : BitVec.ofNat t.elt (andnI t x y) = BitVec.ofNat t.elt x &&& ~~~BitVec.ofNat t.elt y := by
  rw [andnI, BitVec.ofNat_and, ofNat_notI]

theorem ofNat_shlI : BitVec.ofNat t.elt (shlI t x n) = BitVec.ofNat t.elt x <<< n := by
  unfold shlI
  split
  · rw [BitVec.shiftLeft_eq_zero ‹_›]
  · apply BitVec.eq_of_toNat_eq
    rw [BitVec.toNat_shiftLeft, BitVec.toNat_ofNat, BitVec.toNat_ofNat, Nat.shiftLeft_eq, Nat.mod_mod, Nat.mod_mul_mod]

theorem ofNat_shrI : BitVec.ofNat t.elt (shrI t x n) = BitVec.ofNat t.elt x >>> n := by
  unfold shrI
  apply BitVec.eq_of_toNat_eq
  rw [BitVec.toNat_ushiftRight, BitVec.toNat_ofNat, BitVec.toNat_ofNat, Nat.shiftRight_eq_div_pow]
  have hx := Nat.mod_lt x (Nat.two_pow_pos t.elt)
  split
  · rw [Nat.zero_mod, Nat.div_eq_of_lt (Nat.lt_of_lt_of_le hx (Nat.pow_le_pow_right (by decide) ‹_›))]
  · exact Nat.mod_eq_of_lt (Nat.lt_of_le_of_lt (Nat.div_le_self _ _) hx)

/-- Past the width a signed shift gives what it gives at the width. -/
theorem sshiftRight_min (a : BitVec t.elt) : a.sshiftRight (min n t.elt) = a.sshiftRight n := by
  rcases Nat.le_total n t.elt with h | h
  · rw [Nat.min_eq_left h]
  · apply BitVec.eq_of_getLsbD_eq
    intro i _
    rw [Nat.min_eq_right h, BitVec.getLsbD_sshiftRight, BitVec.getLsbD_sshiftRight, if_neg (by omega), if_neg (by omega)]

theorem ofNat_sarI : BitVec.ofNat t.elt (sarI t x n) = (BitVec.ofNat t.elt x).sshiftRight n := by
  rw [sarI, ofNat_narrow, sxNat_eq_toInt t.elt_pos, ← Int.shiftRight_eq_div_pow, ← sshiftRight_min]
  rfl

end Element

theorem ofNat_rotlI (x n : Nat) : BitVec.ofNat 32 (rotlI x n) = (BitVec.ofNat 32 x).rotateLeft n := by
  have hr : n % 32 < 32 := Nat.mod_lt _ (by decide)
  have hhigh : x % 2 ^ 32 / 2 ^ (32 - n % 32) < 2 ^ (n % 32) := by
    rw [Nat.div_lt_iff_lt_mul (Nat.two_pow_pos _), ← pow_add, Nat.add_sub_cancel' hr.le]
    exact Nat.mod_lt _ (Nat.two_pow_pos 32)
  apply BitVec.eq_of_getLsbD_eq
  intro i hi
  rw [getLsbD_ofNat32 _ hi, rotlI, Nat.testBit_mod_two_pow, Nat.mul_comm, Nat.testBit_two_pow_mul_add _ hhigh, BitVec.getLsbD_rotateLeft,
    decide_eq_true hi, Bool.true_and, Bool.true_and]
  by_cases hlow : i < n % 32
  · rw [if_pos hlow, decide_eq_true hlow, cond_true, Nat.testBit_div_two_pow, Nat.testBit_mod_two_pow, decide_eq_true (by omega), Bool.true_and,
      getLsbD_ofNat32 _ (by omega), Nat.add_comm]
  · rw [if_neg hlow, decide_eq_false hlow, cond_false, Nat.testBit_mod_two_pow, decide_eq_true (by omega), Bool.true_and,
      getLsbD_ofNat32 _ (by omega)]

theorem Instr.wf_rotl_ty {o : Bin} (h : (Instr.rotl o).wf = true) : o.ty = .b32 := by
  simp only [Instr.wf, Bin.okShift, Bool.and_eq_true, and_assoc] at h
  obtain ⟨-, hty, -⟩ := h
  exact List.mem_singleton.1 (List.contains_iff_mem.1 hty)

theorem ofNat_rotlI_elt {t : Ty} (ht : t = .b32) (x n : Nat) : BitVec.ofNat t.elt (rotlI x n) = (BitVec.ofNat t.elt x).rotateLeft n :=
  ht ▸ ofNat_rotlI x n

theorem bitwiseAndShifts : BitwiseAndShifts := by
  intro o s c w h
  refine ⟨fun p hp _ => ?_, fun p hp hwf => ?_⟩
  · simp only [List.mem_cons, List.not_mem_nil, or_false] at hp
    rcases hp with rfl | rfl | rfl | rfl
    · exact runBin_op h o (g := fun x y => x &&& y) fun _ _ => BitVec.ofNat_and
    · exact runBin_op h o (g := fun x y => x ||| y) fun _ _ => BitVec.ofNat_or
    · exact runBin_op h o (g := fun x y => x ^^^ y) fun _ _ => BitVec.ofNat_xor
    · exact runBin_op h o (ofNat_andnI o.ty)
  · simp only [List.mem_cons, List.not_mem_nil, or_false] at hp
    rcases hp with rfl | rfl | rfl | rfl
    · exact runShift_op h o (ofNat_shlI o.ty)
    · exact runShift_op h o (ofNat_shrI o.ty)
    · exact runShift_op h o (ofNat_sarI o.ty)
    · exact runShift_op h o (ofNat_rotlI_elt (Instr.wf_rotl_ty hwf))

/-! ### Counts and reversals -/

theorem popCount_eq (x n : Nat) : popCount x n = ((List.range n).filter (bitOf x)).length := by
  induction n with
  | zero => rfl
  | succ n ih =>
    have hstep : popCount x (n + 1) = if bitOf x n then popCount x n + 1 else popCount x n := by
      simp only [popCount, List.range_succ, List.foldl_append, List.foldl_cons, List.foldl_nil]
    rw [hstep, ih, List.range_succ, List.filter_append, List.length_append]
    cases hb : bitOf x n <;> simp [hb]

theorem popcI_word (x : Word) : popcI x.toNat = ((List.range 32).filter fun i => x.getLsbD i).length := by
  have hbits : bitOf x.toNat = fun i => x.getLsbD i := funext fun i => bitOf_eq_testBit _ i
  rw [popcI, popCount_eq, hbits]

theorem popcI_lt (x : Nat) : popcI x < 2 ^ 32 := by
  rw [popcI, popCount_eq]
  exact Nat.lt_of_le_of_lt (List.length_filter_le _ _) (by rw [List.length_range]; decide)

theorem clzI_lt (x : Nat) : clzI x < 2 ^ 32 := by
  unfold clzI
  split <;> omega

/-- The zeros above the highest one. -/
theorem clzI_word {x : Word} {n : Nat} (hone : x.getLsbD n = true) (habove : ∀ i, n < i → x.getLsbD i = false) :
    clzI x.toNat = 31 - n := by
  have hle : 2 ^ n ≤ x.toNat := Nat.ge_two_pow_of_testBit hone
  have hlt : x.toNat < 2 ^ (n + 1) := Nat.lt_pow_two_of_testBit _ fun i hi => habove i hi
  have hne : x.toNat ≠ 0 := Nat.ne_of_gt (Nat.lt_of_lt_of_le (Nat.two_pow_pos n) hle)
  rw [clzI, Nat.mod_eq_of_lt x.isLt, if_neg hne, (Nat.log2_eq_iff hne).2 ⟨hle, hlt⟩]

/-- A sum over the places whose test holds. -/
theorem foldl_add_if (f : Nat → Bool) (g : Nat → Nat) (n : Nat) :
    (List.range n).foldl (fun y i => if f i then y + g i else y) 0 = ∑ i ∈ Finset.range n, if f i then g i else 0 := by
  induction n with
  | zero => rfl
  | succ n ih =>
    rw [List.range_succ, List.foldl_append, ih, Finset.sum_range_succ, List.foldl_cons, List.foldl_nil]
    split <;> rfl

/-- A number in reverse order is built from its bits as a mask is from a test. -/
theorem revBits_eq_maskSum (n x : Nat) : revBits n x = maskSum (fun i => bitOf x (n - 1 - i)) n := by
  rw [revBits, maskSum, foldl_add_if, foldl_add_if, ← Finset.sum_range_reflect]
  refine Finset.sum_congr rfl fun i hi => ?_
  have hlt := Finset.mem_range.1 hi
  rw [show n - 1 - (n - 1 - i) = i by omega]

theorem revBits_lt (n x : Nat) : revBits n x < 2 ^ n := revBits_eq_maskSum n x ▸ maskSum_lt _ n

theorem testBit_revBits (n x i : Nat) : (revBits n x).testBit i = (decide (i < n) && x.testBit (n - 1 - i)) := by
  rw [revBits_eq_maskSum, testBit_maskSum, bitOf_eq_testBit]

theorem Un.narrow_of_ok {o : Un} {sat anyRm : Bool} (h : o.ok [.b32] sat anyRm = true) : o.ty.wide = false := by
  rw [List.mem_singleton.1 (Un.ty_mem_of_ok h)]
  rfl

theorem exec_mov_sound {s : State} {c : Cur} {w : Wave} (h : s.runs c w) (o : Un) :
    ∃ w', exec (.mov o) s = .next (s.done c w') ∧
      ∀ l, l < 32 → c.writes o.d (c.active w o.ctl) l = true → w'.dst o.ty.wide o.d l = c.bits w o.ty l o.a :=
  State.runLane_dst h o.ctl o.d o.ty.wide [(o.a, o.ty.words)] (val := fun w x l => (w.opnd x o.ty l o.a, 0)) fun l => c.bits_lt w o.ty l o.a

theorem unaryBits : UnaryBits := by
  intro o s c w l h hl hw
  refine ⟨fun _ => ?_, fun _ => ?_, fun hwf => ?_, fun hwf => ?_, fun hwf => ?_⟩
  · obtain ⟨w', hrun, hd⟩ := runUn_op h o (ofNat_notI o.ty)
    exact ⟨w', hrun, hd l hl hw⟩
  · obtain ⟨w', hrun, hd⟩ := exec_mov_sound h o
    exact ⟨w', hrun, hd l hl hw⟩
  · obtain ⟨w', hrun, hd⟩ := runUn_word h o (Un.narrow_of_ok hwf) popcI_lt
    exact ⟨w', hrun, (hd l hl hw).trans (popcI_word _)⟩
  · obtain ⟨w', hrun, hd⟩ := runUn_word h o (Un.narrow_of_ok hwf) clzI_lt
    refine ⟨w', hrun, fun h0 => ?_, fun n _ hone habove => ?_⟩
    · rw [hd l hl hw, h0]
      rfl
    · rw [hd l hl hw, clzI_word hone habove]
  · obtain ⟨w', hrun, hd⟩ := runUn_word h o (Un.narrow_of_ok hwf) (revBits_lt 32)
    refine ⟨w', hrun, fun i hi => ?_⟩
    rw [hd l hl hw, getLsbD_ofNat32 _ hi, testBit_revBits, decide_eq_true hi, Bool.true_and]
    rfl

/-! ### Fields -/

/-- A field of `n` bits as a word, extended by its top bit when signed. -/
theorem getLsbD_field (sg : Bool) (x pos : Nat) {n i : Nat} (hn : 0 < n) (hi : i < 32) :
    (BitVec.ofNat 32 (if sg then narrow 32 (sxNat (bitsOf x pos n) n) else bitsOf x pos n)).getLsbD i =
      if i < n then x.testBit (pos + i) else sg && x.testBit (pos + (n - 1)) := by
  cases sg with
  | true =>
    have hmsb : (BitVec.ofNat n (bitsOf x pos n)).msb = x.testBit (pos + (n - 1)) := by
      rw [BitVec.msb_eq_getLsbD_last, BitVec.getLsbD_ofNat, testBit_bitsOf, decide_eq_true (by omega), Bool.true_and, Bool.true_and]
    rw [if_pos rfl, narrow_sxNat hn, BitVec.ofNat_toNat, BitVec.setWidth_eq, BitVec.getLsbD_signExtend, decide_eq_true hi, Bool.true_and, hmsb]
    refine ite_congr rfl (fun hin => ?_) fun _ => rfl
    rw [BitVec.getLsbD_ofNat, testBit_bitsOf, decide_eq_true hin, Bool.true_and, Bool.true_and]
  | false =>
    rw [if_neg Bool.false_ne_true, getLsbD_ofNat32 _ hi, testBit_bitsOf, Bool.false_and]
    split <;> simp [*]

/-- A number whose bits from `pos` on are replaced by the `n` bits `y`. -/
theorem replaceField_eq (x y pos n : Nat) :
    x - bitsOf x pos n * 2 ^ pos + y * 2 ^ pos = 2 ^ pos * (2 ^ n * (x / 2 ^ pos / 2 ^ n) + y) + x % 2 ^ pos := by
  have hx : x = 2 ^ pos * (2 ^ n * (x / 2 ^ pos / 2 ^ n)) + x % 2 ^ pos + bitsOf x pos n * 2 ^ pos := by
    calc x = 2 ^ pos * (2 ^ n * (x / 2 ^ pos / 2 ^ n) + x / 2 ^ pos % 2 ^ n) + x % 2 ^ pos := by rw [Nat.div_add_mod, Nat.div_add_mod]
      _ = _ := by rw [bitsOf]; ring
  rw [Nat.sub_eq_of_eq_add hx]
  ring

theorem testBit_replaceField (x y pos n i : Nat) :
    (x - bitsOf x pos n * 2 ^ pos + y % 2 ^ n * 2 ^ pos).testBit i =
      if pos ≤ i ∧ i < pos + n then y.testBit (i - pos) else x.testBit i := by
  rw [replaceField_eq, Nat.testBit_two_pow_mul_add _ (Nat.mod_lt _ (Nat.two_pow_pos pos)),
    Nat.testBit_two_pow_mul_add _ (Nat.mod_lt _ (Nat.two_pow_pos n)), Nat.testBit_mod_two_pow, Nat.testBit_mod_two_pow,
    Nat.testBit_div_two_pow, Nat.testBit_div_two_pow]
  by_cases hlow : i < pos
  · rw [if_pos hlow, if_neg (by omega), decide_eq_true hlow, Bool.true_and]
  · rw [if_neg hlow]
    by_cases hin : i < pos + n
    · rw [if_pos (by omega), if_pos (by omega), decide_eq_true (by omega), Bool.true_and]
    · rw [if_neg (by omega), if_neg (by omega), show i - pos - n + n + pos = i by omega]

/-- The field that a control word names: none when it is empty or begins past the word (05 R109). -/
theorem fieldOf_eq (y : Nat) : fieldOf y =
    if y / 256 % 256 = 0 ∨ 32 ≤ y % 256 then none else some (y % 256, min (y % 256 + y / 256 % 256) 32 - y % 256) :=
  if_congr ((Bool.or_eq_true_iff ..).trans (or_congr decide_eq_true_iff decide_eq_true_iff)) rfl rfl

theorem getLsbD_bfxI (t : Ty) (x y : Nat) {i : Nat} (hi : i < 32) :
    (BitVec.ofNat 32 (bfxI t x y)).getLsbD i =
      (y / 256 % 256 != 0 && decide (y % 256 < 32) &&
        if y % 256 + i ≤ min (y % 256 + y / 256 % 256) 32 - 1 then x.testBit (y % 256 + i)
        else t.signed && x.testBit (min (y % 256 + y / 256 % 256) 32 - 1)) := by
  generalize hpos : y % 256 = pos
  generalize hlen : y / 256 % 256 = len
  rw [bfxI, fieldOf_eq, hpos, hlen]
  by_cases hnone : len = 0 ∨ 32 ≤ pos
  · rw [if_pos hnone]
    have hf : (len != 0 && decide (pos < 32)) = false := by
      rcases hnone with rfl | hge
      · rfl
      · rw [decide_eq_false (by omega), Bool.and_false]
    rw [hf, Bool.false_and]
    exact BitVec.getLsbD_zero
  · rw [if_neg hnone]
    rw [not_or] at hnone
    obtain ⟨hlen0, hpos32⟩ := hnone
    have ht : (len != 0 && decide (pos < 32)) = true := by simp [hlen0, Nat.not_le.1 hpos32]
    have htop : pos + (min (pos + len) 32 - pos - 1) = min (pos + len) 32 - 1 := by omega
    rw [ht, Bool.true_and]
    refine (getLsbD_field t.signed x pos (by omega) hi).trans ?_
    rw [htop]
    exact if_congr (by omega) rfl rfl

theorem testBit_bfiI (x y z : Nat) {i : Nat} (hi : i < 32) :
    (bfiI x y z).testBit i = if y % 256 ≤ i ∧ i < y % 256 + y / 256 % 256 then x.testBit (i - y % 256) else z.testBit i := by
  rw [bfiI, fieldOf_eq]
  by_cases hnone : y / 256 % 256 = 0 ∨ 32 ≤ y % 256
  · rw [if_pos hnone, if_neg (by omega)]
  · rw [if_neg hnone]
    exact (testBit_replaceField z x _ _ i).trans (if_congr (by omega) rfl rfl)

/-! ### Bytes -/

/-- The bits of a byte. -/
def hasBits (x : Nat) (f : Nat → Bool) : Prop := x < 2 ^ 8 ∧ ∀ k, k < 8 → x.testBit k = f k

theorem hasBits_zero : hasBits 0 fun _ => false := ⟨by decide, fun k _ => Nat.zero_testBit k⟩

theorem hasBits_fill (b : Bool) : hasBits (if b then 255 else 0) fun _ => b := by
  cases b with
  | true => exact ⟨by decide, fun k hk => (Nat.testBit_two_pow_sub_one 8 k).trans (decide_eq_true hk)⟩
  | false => exact hasBits_zero

section Byte

variable {x : Nat} {f : Nat → Bool} (h : hasBits x f) (b : Bool)

include h

/-- A control of PRMT that reverses a byte. -/
theorem hasBits_reverse : hasBits (if b then revBits 8 x else x) fun k => f (if b then 7 - k else k) := by
  cases b with
  | true =>
    refine ⟨revBits_lt 8 x, fun k hk => ?_⟩
    rw [if_pos rfl, testBit_revBits, decide_eq_true hk, Bool.true_and]
    exact h.2 _ (by omega)
  | false => exact h

/-- One that copies the byte's top bit. -/
theorem hasBits_sign : hasBits (if b then (if bitOf x 7 then 255 else 0) else x) fun k => f (if b then 7 else k) := by
  cases b with
  | true =>
    rw [bitOf_eq_testBit, h.2 7 (by decide)]
    exact hasBits_fill _
  | false => exact h

/-- One that inverts. -/
theorem hasBits_invert : hasBits (if b then 255 - x else x) fun k => b != f k := by
  obtain ⟨hlt, hbit⟩ := h
  cases b with
  | true =>
    refine ⟨Nat.lt_of_le_of_lt (Nat.sub_le _ _) (by decide), fun k hk => ?_⟩
    rw [if_pos rfl, show 255 - x = 2 ^ 8 - (x + 1) by omega, Nat.testBit_two_pow_sub_succ hlt, decide_eq_true hk, hbit k hk]
    exact (Bool.true_xor _).symm
  | false =>
    exact ⟨hlt, fun k hk => (hbit k hk).trans (Bool.false_xor _).symm⟩

/-- One that clears. -/
theorem hasBits_clear : hasBits (if b then 0 else x) fun k => !b && f k := by
  cases b with
  | true => exact hasBits_zero
  | false => exact ⟨h.1, fun k hk => (h.2 k hk).trans (Bool.true_and _).symm⟩

end Byte

/-- The byte PRMT gathers, of the eight that two words hold. -/
def gathered (x y i : Nat) : Nat := if i < 4 then bitsOf x (8 * i) 8 else bitsOf y (8 * (i - 4)) 8

theorem hasBits_gathered (x y : Word) (i : Nat) : hasBits (gathered x.toNat y.toNat i) fun k => (y ++ x : BitVec 64).getLsbD (8 * i + k) := by
  unfold gathered
  split
  · refine ⟨Nat.mod_lt _ (Nat.two_pow_pos 8), fun k hk => ?_⟩
    rw [testBit_bitsOf, decide_eq_true hk, Bool.true_and]
    exact (BitVec.getLsbD_append.trans (if_pos (by omega))).symm
  · refine ⟨Nat.mod_lt _ (Nat.two_pow_pos 8), fun k hk => ?_⟩
    rw [testBit_bitsOf, decide_eq_true hk, Bool.true_and, show 8 * (i - 4) + k = 8 * i + k - 32 by omega]
    exact (BitVec.getLsbD_append.trans (if_neg (by omega))).symm

/-- PRMT's controls in their order (05 R109). -/
theorem prmtByte_eq (x y k : Nat) : prmtByte x y k =
    let g := gathered x y (k % 8)
    let r := if bitOf k 3 then revBits 8 g else g
    let t := if bitOf k 4 then (if bitOf r 7 then 255 else 0) else r
    let n := if bitOf k 5 then 255 - t else t
    if bitOf k 6 then 0 else n := rfl

theorem hasBits_prmtByte (x y : Word) (k : Nat) : hasBits (prmtByte x.toNat y.toNat k) fun i =>
    !bitOf k 6 && (bitOf k 5 != (y ++ x : BitVec 64).getLsbD
      (8 * (k % 8) + if bitOf k 3 then 7 - (if bitOf k 4 then 7 else i) else if bitOf k 4 then 7 else i)) :=
  hasBits_clear (hasBits_invert (hasBits_sign (hasBits_reverse (hasBits_gathered x y (k % 8)) _) _) _) _

theorem joinElts_fst (b n : Nat) (f : Nat → Nat × Nat) :
    (joinElts b n f).1 = (List.range n).foldl (fun y i => y + (f i).1 % 2 ^ b * 2 ^ (b * i)) 0 := by
  induction n with
  | zero => rfl
  | succ n ih => rw [joinElts_succ, ih, List.range_succ, List.foldl_append, List.foldl_cons, List.foldl_nil]

/-- Byte `i` of PRMT's result. -/
theorem bitsOf_prmtI (x y : Word) (z : Nat) {i : Nat} (hi : i < 4) :
    bitsOf (prmtI x.toNat y.toNat z) (8 * i) 8 = prmtByte x.toNat y.toNat (bitsOf z (8 * i) 8) := by
  have hlt (k : Nat) : prmtByte x.toNat y.toNat k < 2 ^ 8 := (hasBits_prmtByte x y k).1
  have hjoin : prmtI x.toNat y.toNat z = (joinElts 8 4 fun i => (prmtByte x.toNat y.toNat (bitsOf z (8 * i) 8), 0)).1 := by
    simp only [joinElts_fst, prmtI, Nat.mod_eq_of_lt (hlt _)]
  rw [hjoin, bitsOf_joinElts 8 hi, Nat.mod_eq_of_lt (hlt _)]

theorem getLsbD_prmtI (x y z : Word) {i k : Nat} (hi : i < 4) (hk : k < 8) :
    let u := z.extractLsb' (8 * i) 8
    let j := if u.getLsbD 4 then (if u.getLsbD 3 then 0 else 7) else (if u.getLsbD 3 then 7 - k else k)
    (BitVec.ofNat 32 (prmtI x.toNat y.toNat z.toNat)).getLsbD (8 * i + k) =
      (!u.getLsbD 6 && (u.getLsbD 5 != (y ++ x : BitVec 64).getLsbD (8 * (u.toNat % 8) + j))) := by
  intro u j
  have hu : bitsOf z.toNat (8 * i) 8 = u.toNat := by
    rw [BitVec.extractLsb'_toNat, Nat.shiftRight_eq_div_pow]; rfl
  have hb (m : Nat) : bitOf u.toNat m = u.getLsbD m := bitOf_eq_testBit _ m
  have hbit : (prmtI x.toNat y.toNat z.toNat).testBit (8 * i + k) = (prmtByte x.toNat y.toNat u.toNat).testBit k := by
    rw [← hu, ← bitsOf_prmtI x y z.toNat hi, testBit_bitsOf, decide_eq_true hk, Bool.true_and]
  have hj : (if u.getLsbD 3 then 7 - (if u.getLsbD 4 then 7 else k) else if u.getLsbD 4 then 7 else k) = j := by
    simp only [j]
    split_ifs <;> rfl
  rw [getLsbD_ofNat32 _ (by omega), hbit, (hasBits_prmtByte x y u.toNat).2 k hk]
  simp only [hb, hj]

theorem Instr.wf_bfx_narrow {o : Bin} (h : (Instr.bfx o).wf = true) : o.ty.wide = false := by
  simp only [Instr.wf, Bin.okShift, Bool.and_eq_true, and_assoc] at h
  obtain ⟨-, hty, -⟩ := h
  have hnarrow : ∀ t ∈ [Ty.i32, .n32], t.wide = false := by decide
  exact hnarrow _ (List.contains_iff_mem.1 hty)

theorem Tri.narrow_of_ok {o : Tri} {sat anyRm pairD : Bool} (h : o.ok [.b32] sat anyRm pairD = true) : o.ty.wide = false := by
  rw [List.mem_singleton.1 (Tri.ty_mem_of_ok h)]
  rfl

theorem fieldsAndBytes : FieldsAndBytes := by
  intro s c w l h hl
  refine ⟨fun o hwf hw => ?_, fun o hwf hw => ?_, fun o hwf hw => ?_⟩
  · obtain ⟨w', hrun, hd⟩ := runShift_word h o (Instr.wf_bfx_narrow hwf) (bfxI o.ty)
    refine ⟨w', hrun, fun i hi => ?_⟩
    rw [hd l hl hw]
    exact getLsbD_bfxI o.ty _ _ hi
  · obtain ⟨w', hrun, hd⟩ := runTri_word h o (Tri.narrow_of_ok hwf) bfiI
    refine ⟨w', hrun, fun i hi => ?_⟩
    rw [hd l hl hw, getLsbD_ofNat32 _ hi]
    exact testBit_bfiI _ _ _ hi
  · obtain ⟨w', hrun, hd⟩ := runTri_word h o (Tri.narrow_of_ok hwf) prmtI
    refine ⟨w', hrun, fun i k hi hk => ?_⟩
    rw [hd l hl hw]
    exact getLsbD_prmtI _ _ _ hi hk

/-- Settles O3: the low bits an instruction leaves, then what each operation makes of its operands' bits. -/
theorem bits : Obligations.Bits := ⟨bitwiseAndShifts, unaryBits, fieldsAndBytes⟩

end Sys2Proof.Machine
end

section
/-! SUPPORT. Cross-lane reads and combinations (05 R122 to R125): the lane SHFL reads from, and what the operations of VRED and VSCAN make
of the values of a list of lanes. -/

namespace Sys2Proof.Machine

/-! ### SHFL -/

/-- The lane that a sub-operation names, numbered from the first lane of the group. -/
def shflSrc (sub : ShflSub) (i b : Nat) : Int :=
  match sub with
  | .idx => b | .up => (i : Int) - b | .down => (i : Int) + b | .xor => ((i ^^^ b : Nat) : Int)

theorem Cur.laneNo_eq (c : Cur) (w : Wave) {l : Nat} (hl : l < 32) : l - (c.reads w).base l = c.laneNo w l := by
  unfold Cur.laneNo Wave.base
  split <;> omega

theorem base_eq_first (w : Wave) {l : Nat} (hl : l < 32) : w.base l = l / w.waveW * w.waveW := by
  unfold Wave.base Wave.waveW
  split <;> omega

/-- A lane of SHFL reads the lane it names, when that lies in its group and is active, else itself. -/
theorem shflLane_eq (c : Cur) (w : Wave) (m : LaneMask) (sub : ShflSub) (b : Nat) {l : Nat} (hl : l < 32) :
    let src := shflSrc sub (c.laneNo w l) b
    let j := l / (c.reads w).waveW * (c.reads w).waveW + src.toNat
    shflLane (c.reads w) m sub b l = if 0 ≤ src ∧ src < (c.reads w).waveW ∧ laneOf m j = true then j else l := by
  intro src j
  have hmodel : shflLane (c.reads w) m sub b l =
      if (0 ≤ shflSrc sub (l - (c.reads w).base l) b && shflSrc sub (l - (c.reads w).base l) b < (c.reads w).waveW) = true then
        if laneOf m ((c.reads w).base l + (shflSrc sub (l - (c.reads w).base l) b).toNat) = true
        then (c.reads w).base l + (shflSrc sub (l - (c.reads w).base l) b).toNat else l
      else l := rfl
  rw [hmodel, Cur.laneNo_eq c w hl, base_eq_first _ hl, ← ite_and]
  exact if_congr (by simp only [Bool.and_eq_true, decide_eq_true_eq, and_assoc]; rfl) rfl rfl

/-- The lane a lane of SHFL reads its value at. -/
def shflFrom (o : Shfl) (w : Wave) (x : Split) (m : LaneMask) (l : Nat) : Nat :=
  if o.d.uni then l else shflLane w m o.sub (w.src x l o.b).toNat l

theorem exec_shfl (o : Shfl) (s : State) : exec (.shfl o) s = s.runGroup o.ctl o.d o.w64
    (fun w x m l =>
      let k := w.laneCause (readFor m [(o.b, 1)]) (predRegs o.ctl.pred) l
      if k != 0 then k else w.laneCause (readFor m [(o.a, if o.w64 then 2 else 1)]) [] (shflFrom o w x m l))
    fun w x m l => (w.opnd x (if o.w64 then .b64 else .b32) (shflFrom o w x m l) o.a, 0) := by
  change execShfl o s = _
  unfold execShfl
  cases o.w64 <;> rfl

theorem exec_shfl_sound {s : State} {c : Cur} {w : Wave} (h : s.runs c w) (o : Shfl) :
    ∃ w', exec (.shfl o) s = .next (s.done c w') ∧ ∀ l, l < 32 → c.writes o.d (c.active w o.ctl) l = true →
      w'.dst o.w64 o.d l = c.bits w (if o.w64 then .b64 else .b32)
        (shflFrom o (c.reads w) ((c.reads w).split c.entry) (c.active w o.ctl) l) o.a := by
  rw [exec_shfl]
  have hwide : (if o.w64 then Ty.b64 else .b32).wide = o.w64 := by cases o.w64 <;> rfl
  exact State.runGroup_dst h o.ctl o.d o.w64 _
    (val := fun w x m l => (w.opnd x (if o.w64 then .b64 else .b32) (shflFrom o w x m l) o.a, 0))
    fun l => by
      have hlt := c.bits_lt w (if o.w64 then .b64 else .b32) (shflFrom o (c.reads w) ((c.reads w).split c.entry) (c.active w o.ctl) l) o.a
      rwa [hwide] at hlt

theorem shuffle : Shuffle := by
  intro o s c w n l h _ hd hl ha
  obtain ⟨w', hrun, hv⟩ := exec_shfl_sound h o
  refine ⟨w', hrun, ?_⟩
  intro width first b k src ty
  have hfrom : shflFrom o (c.reads w) ((c.reads w).split c.entry) (c.active w o.ctl) l =
      if 0 ≤ src ∧ src < width ∧ laneOf (c.active w o.ctl) (first + src.toNat) = true then first + src.toNat else l := by
    rw [shflFrom, hd]
    exact shflLane_eq c w _ o.sub _ hl
  rw [hv l hl (by rw [hd]; exact ha), hfrom]
  exact apply_ite (fun j => c.bits w ty j o.a) _ _ _

/-! ### Combining the values of lanes -/

/-- What VRED and VSCAN make of the elements of some lanes (05 R124). -/
def combined (t : Ty) (op : RedOp) (xs : List (BitVec t.elt)) : BitVec t.elt :=
  match op with
  | .add => xs.foldr (· + ·) 0
  | .min => BitVec.ofInt t.elt ((xs.map t.num).foldr min t.hi)
  | .max => BitVec.ofInt t.elt ((xs.map t.num).foldr max t.lo)
  | .and => xs.foldr (· &&& ·) (~~~0)
  | .or => xs.foldr (· ||| ·) 0
  | .xor => xs.foldr (· ^^^ ·) 0

theorem Ty.ofInt_num (t : Ty) (b : BitVec t.elt) : BitVec.ofInt t.elt (t.num b) = b := by
  unfold Ty.num
  split
  · exact BitVec.ofInt_toInt
  · rw [BitVec.ofInt_natCast, BitVec.ofNat_toNat, BitVec.setWidth_eq]

/-- The low bits of a sum are the sum of the low bits. -/
theorem ofInt_foldr_add (t : Ty) (xs : List (BitVec t.elt)) : BitVec.ofInt t.elt ((xs.map t.num).foldr (· + ·) 0) = xs.foldr (· + ·) 0 := by
  induction xs with
  | nil => rfl
  | cons x xs ih => rw [List.map_cons, List.foldr_cons, List.foldr_cons, BitVec.ofInt_add, ih, Ty.ofInt_num]

theorem ite_lt_eq_min : (fun x y : Int => if y < x then y else x) = min := by
  funext x y
  rw [min_comm, min_def_lt]

theorem ite_lt_eq_max : (fun x y : Int => if x < y then y else x) = max := by
  funext x y
  rw [max_def_lt]

/-- A bitwise operation on words, folded over their numbers. -/
theorem foldl_toNat {f : Nat → Nat → Nat} {g : Word → Word → Word} (hfg : ∀ x y, f x.toNat y.toNat = (g x y).toNat) (z : Word) (xs : List Word) :
    (xs.map BitVec.toNat).foldl f z.toNat = (xs.foldl g z).toNat := by
  rw [List.foldl_map]
  exact List.foldl_hom BitVec.toNat hfg

/-- The bitwise operations combine words (05 R124). -/
theorem reduce_words {op : RedOp} (hop : op = .and ∨ op = .or ∨ op = .xor) (xs : List Word) :
    (reduce .b32 op (xs.map BitVec.toNat)).1 = (combined .b32 op xs).toNat := by
  rcases hop with rfl | rfl | rfl
  · exact (foldl_toNat (fun x y => (BitVec.toNat_and ..).symm) (~~~0) xs).trans (congrArg _ List.foldl_eq_foldr)
  · exact (foldl_toNat (fun x y => (BitVec.toNat_or ..).symm) 0 xs).trans (congrArg _ List.foldl_eq_foldr)
  · exact (foldl_toNat (fun x y => (BitVec.toNat_xor ..).symm) 0 xs).trans (congrArg _ List.foldl_eq_foldr)

/-- The sum, the least and the greatest are those of the numbers the elements stand for, narrowed to the type. -/
theorem reduce_numbers {t : Ty} (ht : t ≠ .f32) {op : RedOp} (hop : op = .add ∨ op = .min ∨ op = .max) (vs : List Nat) :
    ∃ r : Int, (reduce t op vs).1 = narrow t.elt r ∧ BitVec.ofInt t.elt r = combined t op (vs.map (BitVec.ofNat t.elt)) := by
  have hnum : vs.map t.val = (vs.map (BitVec.ofNat t.elt)).map t.num := by
    rw [List.map_map]
    exact List.map_congr_left fun v _ => t.val_eq_num v
  rcases hop with rfl | rfl | rfl
  · refine ⟨(vs.map t.val).foldl (· + ·) 0, by simp only [reduce, if_neg ht], ?_⟩
    rw [List.foldl_eq_foldr, hnum]
    exact ofInt_foldr_add t _
  · refine ⟨(vs.map t.val).foldl min t.hi, by rw [reduce, if_neg ht, ← ite_lt_eq_min], ?_⟩
    rw [List.foldl_eq_foldr, hnum]
    rfl
  · refine ⟨(vs.map t.val).foldl max t.lo, by rw [reduce, if_neg ht, ← ite_lt_eq_max], ?_⟩
    rw [List.foldl_eq_foldr, hnum]
    rfl

/-- The types of an operation: the bitwise ones take words (05 R124). -/
theorem RedOp.tys_cases {op : RedOp} {t : Ty} (h : op.tys.contains t = true) :
    (op = .add ∨ op = .min ∨ op = .max) ∨ (op = .and ∨ op = .or ∨ op = .xor) ∧ t = .b32 := by
  cases op with
  | add | min | max => simp
  | and | or | xor => exact .inr ⟨by simp, List.mem_singleton.1 (List.contains_iff_mem.1 h)⟩

/-- What an operation makes of some values fits the operand's registers, and its element is the combination of theirs. -/
theorem reduce_sound {t : Ty} {op : RedOp} (hop : op.tys.contains t = true) (ht : t ≠ .f32) {vs : List Nat}
    (hvs : ∀ v ∈ vs, v < 2 ^ (if t.wide then 64 else 32)) :
    (reduce t op vs).1 < 2 ^ (if t.wide then 64 else 32) ∧
      BitVec.ofNat t.elt (reduce t op vs).1 = combined t op (vs.map (BitVec.ofNat t.elt)) := by
  rcases RedOp.tys_cases hop with hnum | ⟨hbit, rfl⟩
  · obtain ⟨r, hr, hc⟩ := reduce_numbers ht hnum vs
    rw [hr, ofNat_narrow]
    exact ⟨Nat.lt_of_lt_of_le (narrow_lt _ _) t.two_pow_elt_le, hc⟩
  · have hwords : vs = (vs.map (BitVec.ofNat 32)).map BitVec.toNat := by
      rw [List.map_map]
      exact (List.map_id _).symm.trans (List.map_congr_left fun v hv => (Nat.mod_eq_of_lt (hvs v hv)).symm)
    have hred : (reduce .b32 op vs).1 = (combined .b32 op (vs.map (BitVec.ofNat 32))).toNat := by
      conv => lhs; rw [hwords]
      exact reduce_words hbit _
    rw [hred]
    exact ⟨BitVec.isLt _, (BitVec.ofNat_toNat _ _).trans (BitVec.setWidth_eq _)⟩

/-! ### VRED and VSCAN -/

theorem Red.op_ok {o : Red} {scan : Bool} (h : o.ok scan = true) : o.op.tys.contains o.ty = true := by
  simp only [Red.ok, Bool.and_eq_true, and_assoc] at h
  obtain ⟨-, hop, -⟩ := h
  exact hop

/-- A combination of the values that some lanes of a group hold. -/
def State.runReduce (s : State) (o : Red) (ls : Wave → LaneMask → Nat → List Nat) : Out :=
  s.runGroup o.ctl o.d o.ty.wide (ownCause o.ctl [(o.a, o.ty.words)] [])
    fun w x m l => reduce o.ty o.op ((ls w m l).map fun j => w.opnd x o.ty j o.a)

/-- The lanes of a group that a scan combines for a lane: those below it, and itself unless it is exclusive. -/
def scanLanes (exc : Bool) (w : Wave) (m : LaneMask) (l : Nat) : List Nat := (lanesOf (w.group m l)).filter fun j => j < l || (j == l && !exc)

theorem exec_vred (o : Red) (s : State) : exec (.vred o) s = s.runReduce o fun w m l => lanesOf (w.group m l) := rfl
theorem exec_vscan (o : Red) (s : State) : exec (.vscan o) s = s.runReduce o (scanLanes o.exc) := rfl

theorem State.runReduce_sound {s : State} {c : Cur} {w : Wave} (h : s.runs c w) {o : Red} (hop : o.op.tys.contains o.ty = true)
    (ht : o.ty ≠ .f32) (ls : Wave → LaneMask → Nat → List Nat) :
    ∃ w', s.runReduce o ls = .next (s.done c w') ∧ ∀ l, l < 32 → c.writes o.d (c.active w o.ctl) l = true →
      o.ty.eltBits (w'.dst o.ty.wide o.d l) 0 =
        combined o.ty o.op ((ls (c.reads w) (c.active w o.ctl) l).map fun j => o.ty.eltBits (c.bits w o.ty j o.a) 0) := by
  have hred (l : Nat) := reduce_sound hop ht (vs := (ls (c.reads w) (c.active w o.ctl) l).map fun j => c.bits w o.ty j o.a) fun v hv => by
    obtain ⟨j, -, rfl⟩ := List.mem_map.1 hv
    exact c.bits_lt w o.ty j o.a
  obtain ⟨w', hrun, hd⟩ := State.runGroup_dst h o.ctl o.d o.ty.wide (ownCause o.ctl [(o.a, o.ty.words)] [])
    (val := fun w x m l => reduce o.ty o.op ((ls w m l).map fun j => w.opnd x o.ty j o.a)) fun l => (hred l).1
  refine ⟨w', hrun, fun l hl hw => ?_⟩
  rw [hd l hl hw]
  simp only [Ty.eltBits_zero]
  refine (hred l).2.trans ?_
  rw [List.map_map]
  rfl

theorem scanLanes_eq (exc : Bool) (w : Wave) (m : LaneMask) (l : Nat) :
    scanLanes exc w m l = (lanesOf (w.group m l)).filter fun j => if exc then decide (j < l) else decide (j ≤ l) := by
  refine List.filter_congr fun j _ => ?_
  cases exc with
  | true => simp
  | false =>
    rw [Bool.eq_iff_iff]
    simp [Nat.le_iff_lt_or_eq]

/-- The combination in the words of the statement. -/
theorem combined_map (t : Ty) (op : RedOp) (x : Nat → BitVec t.elt) (ls : List Nat) :
    combined t op (ls.map x) = match op with
      | .add => (ls.map x).foldr (· + ·) 0
      | .min => BitVec.ofInt t.elt ((ls.map fun j => t.num (x j)).foldr min (if t.signed then 2 ^ (t.elt - 1) - 1 else 2 ^ t.elt - 1))
      | .max => BitVec.ofInt t.elt ((ls.map fun j => t.num (x j)).foldr max (if t.signed then -2 ^ (t.elt - 1) else 0))
      | .and => (ls.map x).foldr (· &&& ·) (~~~0)
      | .or => (ls.map x).foldr (· ||| ·) 0
      | .xor => (ls.map x).foldr (· ^^^ ·) 0 := by
  cases op with
  | min | max =>
    simp only [combined, List.map_map, Ty.hi, Ty.lo, Nat.cast_pow, Nat.cast_ofNat]
    rfl
  | _ => rfl

theorem reduceAndScan : ReduceAndScan := by
  intro o s c w l h ht hl hw p hp hwf
  simp only [List.mem_cons, List.not_mem_nil, or_false] at hp
  rcases hp with rfl | rfl
  · obtain ⟨w', hrun, hd⟩ := State.runReduce_sound h (Red.op_ok hwf) ht fun w m l => lanesOf (w.group m l)
    have hv := hd l hl hw
    rw [← c.peers_eq w o.ctl hl] at hv
    exact ⟨w', (exec_vred o s).trans hrun, hv.trans (combined_map ..)⟩
  · obtain ⟨w', hrun, hd⟩ := State.runReduce_sound h (Red.op_ok hwf) ht (scanLanes o.exc)
    have hv := hd l hl hw
    rw [scanLanes_eq, ← c.peers_eq w o.ctl hl] at hv
    exact ⟨w', (exec_vscan o s).trans hrun, hv.trans (combined_map ..)⟩

/-- Settles O11: SHFL by the lane it reads from, VRED and VSCAN by what an operation makes of the values of a list of lanes. -/
theorem crossLane : Obligations.CrossLane := ⟨shuffle, reduceAndScan⟩

end Sys2Proof.Machine
end

section
/-! SUPPORT. Engine commands that complete (06 R143, R149): what the end of an operation leaves of its wave, what a tile reads as once it has
been written, and what ENGINE_COMMAND_COMPLETE of the matrix queue leaves when its command writes one tile. -/

namespace Sys2Proof.Machine

/-! ### The end of an operation (02 R47) -/

theorem Wave.donePart_eq_with (w : Wave) (op : Nat) : w.donePart op = { w with ops := (w.donePart op).ops, flags := (w.donePart op).flags } := by
  unfold Wave.donePart
  split
  · rfl
  · split
    · rfl
    · split <;> rfl

@[simp] theorem Wave.donePart_vr (w : Wave) (op : Nat) : (w.donePart op).vr = w.vr := by rw [Wave.donePart_eq_with]
@[simp] theorem Wave.donePart_sr (w : Wave) (op : Nat) : (w.donePart op).sr = w.sr := by rw [Wave.donePart_eq_with]
@[simp] theorem Wave.donePart_pr (w : Wave) (op : Nat) : (w.donePart op).pr = w.pr := by rw [Wave.donePart_eq_with]
@[simp] theorem Wave.donePart_mq (w : Wave) (op : Nat) : (w.donePart op).mq = w.mq := by rw [Wave.donePart_eq_with]
@[simp] theorem Wave.donePart_eq (w : Wave) (op : Nat) : (w.donePart op).eq = w.eq := by rw [Wave.donePart_eq_with]
@[simp] theorem Wave.donePart_sb (w : Wave) (op : Nat) : (w.donePart op).sb = w.sb := by rw [Wave.donePart_eq_with]

/-- The last part of an operation takes one off its flag. -/
theorem Wave.flag_donePart {w : Wave} {op f : Nat} (h : tfind w.ops op = some { flag := some f, left := 1 }) :
    (w.donePart op).flag f = w.flag f - 1 := by
  simp only [Wave.donePart, h, Nat.lt_irrefl, if_false, Wave.decFlag, Wave.flag_putFlag, if_true]
  rfl

theorem State.donePart_of_wave {s : State} {k op : Nat} {w : Wave} (h : s.wave? k = some w) (hop : op ≠ 0) :
    s.donePart k op = s.putWave k (w.donePart op) := by
  simp [State.donePart, State.modWave, h, hop]

/-! ### Tiles (06 R128) -/

/-- A tile reads as it was written. -/
theorem Core.tile_putTile (c : Core) (p : Nat) {z : List Word} (hz : z.length = 4096) (marks : Nat) : (c.putTile p z marks).tile p = z := by
  simp only [Core.tile, Core.putTile, tget_tset_same]
  split
  · rename_i h0
    have hzero : z = List.replicate 4096 0 := List.eq_replicate_iff.2 ⟨hz, by simpa using h0⟩
    simp [hzero]
  · have hne : z ≠ [] := List.ne_nil_of_length_pos (by omega)
    simp [hne]

theorem Core.tile_putTile_ne (c : Core) {p j : Nat} (h : j ≠ p) (z : List Word) (marks : Nat) : (c.putTile p z marks).tile j = c.tile j := by
  simp only [Core.tile, Core.putTile, tget_tset, h, if_false]

/-! ### The matrix queue -/

/-- ENGINE_COMMAND_COMPLETE takes the head off the matrix queue of a wave, ends its operation, and of the tiles changes `p` alone. -/
def State.leavesTile (s : State) (k : Nat) (w : Wave) (c : Cmd) (r : List Cmd) (p : Nat) (what : List Word → Prop) : Prop :=
  ∃ t w', exec (.engineCommandComplete k 0) s = .next t ∧ t.mem = s.mem ∧ t.wave? k = some w' ∧ w'.mq = r ∧ w'.eq = w.eq ∧ w'.vr = w.vr ∧
    w'.sr = w.sr ∧ (∀ f, tfind w.ops c.op = some { flag := some f, left := 1 } → w'.flag f = w.flag f - 1) ∧
    (∀ j, j ≠ p → (t.core (coreOfKey k)).tile j = (s.core (coreOfKey k)).tile j) ∧ what ((t.core (coreOfKey k)).tile p)

/-- A matrix command at the head of its queue that has started, in a partition whose clock runs. -/
structure State.matrixHead (s : State) (k : Nat) (w : Wave) (c : Cmd) (r : List Cmd) : Prop where
  wave : s.wave? k = some w
  queue : w.mq = c :: r
  started : c.started = true
  op : c.op ≠ 0
  clocked : s.clocked (partOfKey k) = true

theorem State.matrixHead.exec_complete {s : State} {k : Nat} {w : Wave} {c : Cmd} {r : List Cmd} (h : s.matrixHead k w c r) :
    exec (.engineCommandComplete k 0) s =
      .next (((s.matrixDone k w c).1.modWave k fun v => (v.putQueue 0 r).orFp (s.matrixDone k w c).2).donePart k c.op) := by
  change execEngineCommandComplete k 0 s = _
  simp [execEngineCommandComplete, h.wave, Wave.queue, h.queue, h.started, h.clocked]

/-- A command that writes all 4096 elements of one tile leaves them there. -/
theorem State.matrixHead.leaves {s : State} {k : Nat} {w : Wave} {c : Cmd} {r : List Cmd} (h : s.matrixHead k w c r) {p marks fl : Nat}
    {z : List Word} {what : List Word → Prop}
    (hd : s.matrixDone k w c = (s.putCore (coreOfKey k) ((s.core (coreOfKey k)).putTile p z marks), fl)) (hz : z.length = 4096)
    (hwhat : what z) : s.leavesTile k w c r p what := by
  have hwave : (s.putCore (coreOfKey k) ((s.core (coreOfKey k)).putTile p z marks)).wave? k = some w := h.wave
  have hrun := h.exec_complete
  rw [hd, State.modWave, hwave, State.donePart_of_wave (State.wave?_putWave ..) h.op] at hrun
  have htile : ∀ (v v' : Wave) (j : Nat), ((((s.putCore (coreOfKey k) ((s.core (coreOfKey k)).putTile p z marks)).putWave k v).putWave k v').core
      (coreOfKey k)).tile j = ((s.core (coreOfKey k)).putTile p z marks).tile j := fun v v' j =>
    congrArg (Core.tile · j) (State.core_putCore ..)
  refine ⟨_, _, hrun, rfl, State.wave?_putWave .., ?_, ?_, ?_, ?_, fun f hf => Wave.flag_donePart hf, fun j hj => ?_, ?_⟩
  · simp [Wave.putQueue]
  · simp [Wave.putQueue]
  · simp [Wave.putQueue]
  · simp [Wave.putQueue]
  · rw [htile, Core.tile_putTile_ne _ hj]
  · rwa [htile, Core.tile_putTile _ _ hz]

/-! ### ZCLR, ZLD and ZADD (06 R144) -/

section Moves

variable {s : State} {k : Nat} {w : Wave} {c : Cmd} {r : List Cmd} (h : s.matrixHead k w c r)

include h

theorem State.matrixHead.zclr {o : ZclrOp} (hi : c.ins = .zclr o) :
    s.leavesTile k w c r (s.phys w.team o.d) fun z => z = List.replicate 4096 0 :=
  h.leaves (by simp only [State.matrixDone, Cmd.wtile, hi, Option.getD_some]; rfl) (List.length_replicate ..) rfl

theorem State.matrixHead.zld {o : ZmemOp} (hi : c.ins = .zld o) (hz : (c.regs.map (·.2)).flatten.length = 4096) :
    s.leavesTile k w c r (s.phys w.team o.d) fun z => z = (c.regs.map (·.2)).flatten :=
  h.leaves (by simp only [State.matrixDone, Cmd.wtile, hi, Option.getD_some]; rfl) hz rfl

end Moves

theorem length_zaddCompute (fw : Nat) (d a : List Word) : (zaddCompute fw d a).1.length = min d.length a.length := by
  simp [zaddCompute]

/-- An element of a ZADD is made of the two elements at its place. -/
theorem getD_zaddCompute (fw : Nat) {d a : List Word} {i : Nat} (hd : i < d.length) (ha : i < a.length) :
    (zaddCompute fw d a).1.getD i 0 = if fwAcc fw = 0
      then BitVec.ofNat 32 (finishFp fp32 .rn false 0 (exAdd .rn (unpackFp fp32 (d.getD i 0).toNat) (unpackFp fp32 (a.getD i 0).toNat))).bits
      else BitVec.ofNat 32 (accInt (fwAcc fw == 2) (d.getD i 0).toNat (sxNat (a.getD i 0).toNat 32)) := by
  simp only [zaddCompute, List.getD_eq_getElem?_getD, List.getElem?_map, List.getElem?_zipWith, List.getElem?_eq_getElem hd,
    List.getElem?_eq_getElem ha, Option.map_some, Option.getD_some]
  split <;> rfl

theorem sxNat_toNat (x : Word) : sxNat x.toNat 32 = x.toInt := by rw [sxNat_eq_toInt (by decide), BitVec.ofNat_toNat, BitVec.setWidth_eq]

/-- One wrapping accumulation. -/
theorem ofNat_accInt_wrap (z : Nat) (x : Int) : BitVec.ofNat 32 (accInt false z x) = BitVec.ofNat 32 z + BitVec.ofInt 32 x := by
  simp only [accInt, Bool.false_eq_true, if_false, ofNat_narrow, sxNat_eq_toInt (show 0 < 32 by decide), BitVec.ofInt_add, BitVec.ofInt_toInt]

/-- One saturating accumulation. -/
theorem ofNat_accInt_sat (z : Word) (x : Int) :
    BitVec.ofNat 32 (accInt true z.toNat x) = BitVec.ofInt 32 (max (-2 ^ 31) (min (2 ^ 31 - 1) (z.toInt + x))) := by
  simp only [accInt, if_true, ofNat_narrow, sxNat_toNat]
  rw [clampInt_eq_max_min (by decide)]

theorem State.matrixHead.zadd {s : State} {k : Nat} {w : Wave} {c : Cmd} {r : List Cmd} (h : s.matrixHead k w c r) {o : ZaddOp}
    (hi : c.ins = .zadd o) {what : List Word → Prop}
    (hlen : (zaddCompute c.word ((s.core (coreOfKey k)).tile (s.phys w.team o.d)) ((s.core (coreOfKey k)).tile (s.phys w.team o.a))).1.length = 4096)
    (hwhat : what (zaddCompute c.word ((s.core (coreOfKey k)).tile (s.phys w.team o.d)) ((s.core (coreOfKey k)).tile (s.phys w.team o.a))).1) :
    s.leavesTile k w c r (s.phys w.team o.d) what :=
  h.leaves (by simp only [State.matrixDone, Cmd.wtile, hi, Option.getD_some]; rfl) hlen hwhat

end Sys2Proof.Machine
end

section
/-! SUPPORT. The images that a matrix command reads (06 R130, R131) element by element, lists of rows of one length, and what a dense MMA makes of
its tile (06 R134, R135): the order of summation, and the wrapping sum of the exact products in I32. -/

namespace Sys2Proof.Machine

/-! ### Bytes as numbers -/

theorem two_pow_eight_mul (n : Nat) : 2 ^ (8 * n) = 256 ^ n := Nat.pow_mul 2 8 n

theorem leNat_drop (l : List Byte) (n : Nat) : leNat (l.drop n) = leNat l / 256 ^ n := by
  induction n generalizing l with
  | zero => simp
  | succ n ih =>
    cases l with
    | nil => simp [leNat]
    | cons b l =>
      have hb := b.isLt
      have hdiv : (b.toNat + 256 * leNat l) / 256 = leNat l := by omega
      rw [List.drop_succ_cons, ih, leNat, Nat.pow_succ', ← Nat.div_div_eq_div_mul, hdiv]

theorem leNat_take (l : List Byte) (n : Nat) : leNat (l.take n) = leNat l % 256 ^ n := by
  induction n generalizing l with
  | zero => simp [leNat, Nat.mod_one]
  | succ n ih =>
    cases l with
    | nil => simp [leNat]
    | cons b l =>
      have hb := b.isLt
      have hdiv : (b.toNat + 256 * leNat l) / 256 = leNat l := by omega
      have hmod : (b.toNat + 256 * leNat l) % 256 = b.toNat := by omega
      rw [List.take_succ_cons, leNat, ih, leNat, Nat.pow_succ', Nat.mod_mul, hdiv, hmod]

theorem natAt_eq (l : List Byte) (off n : Nat) : natAt l off n = leNat l / 256 ^ off % 256 ^ n := by
  rw [natAt, leNat_take, leNat_drop]

/-- A field within `N` low bits, of a number cut to those bits. -/
theorem bitsOf_mod {x lo n N : Nat} (h : lo + n ≤ N) : bitsOf (x % 2 ^ N) lo n = bitsOf x lo n := by
  obtain ⟨d, rfl⟩ := Nat.exists_eq_add_of_le h
  have hd : n ≤ n + d := Nat.le_add_right n d
  rw [bitsOf, Nat.add_assoc, Nat.pow_add, Nat.mod_mul_right_div_self, Nat.mod_mod_of_dvd _ (Nat.pow_dvd_pow 2 hd), bitsOf]

/-- Row by row, an image holds its elements packed from bit 0 up. -/
theorem imageRows_eq (b : List Byte) (rows : Nat) {k : Nat} (hk : 8 ∣ k) (n : Nat) :
    imageRows b rows k n = (List.range rows).map fun m => (List.range k).map (imageElt b n k m) := by
  unfold imageRows
  refine List.map_congr_left fun m _ => List.map_congr_left fun i hi => ?_
  obtain ⟨d, rfl⟩ := hk
  have hi : i + 1 ≤ 8 * d := List.mem_range.1 hi
  have hrow : 8 * d * n / 8 = d * n := by rw [Nat.mul_assoc, Nat.mul_div_cancel_left _ (by decide)]
  have hfit : i * n + n ≤ 8 * (d * n) := by
    calc i * n + n = (i + 1) * n := (Nat.succ_mul i n).symm
      _ ≤ 8 * d * n := Nat.mul_le_mul_right n hi
      _ = 8 * (d * n) := Nat.mul_assoc 8 d n
  have hoff : 8 * (m * (d * n)) + i * n = (m * (8 * d) + i) * n := by ring
  rw [hrow, natAt_eq, ← two_pow_eight_mul, ← two_pow_eight_mul, bitsOf_mod hfit, bitsOf, Nat.div_div_eq_div_mul, ← Nat.pow_add, hoff, imageElt]

/-! ### Lists of rows -/

theorem length_flatten_rows {α : Type} {L : List (List α)} {n : Nat} (h : ∀ x ∈ L, x.length = n) : L.flatten.length = L.length * n := by
  rw [List.length_flatten, List.eq_replicate_of_mem (l := L.map List.length) (a := n) (by simpa using h)]
  simp

/-- Element `j` of row `i` of a list of rows of one length. -/
theorem getD_flatten_rows {α : Type} {L : List (List α)} {n : Nat} (h : ∀ x ∈ L, x.length = n) (i : Nat) {j : Nat} (hj : j < n) (d : α) :
    L.flatten.getD (n * i + j) d = (L.getD i []).getD j d := by
  induction L generalizing i with
  | nil => simp
  | cons x L ih =>
    have hx : x.length = n := h x List.mem_cons_self
    rw [List.flatten_cons]
    cases i with
    | zero =>
      rw [Nat.mul_zero, Nat.zero_add, List.getD_append _ _ _ _ (hx ▸ hj)]
      rfl
    | succ i =>
      have hn : n * (i + 1) + j - x.length = n * i + j := by rw [hx, Nat.mul_succ]; omega
      rw [List.getD_append_right _ _ _ _ (by rw [hx, Nat.mul_succ]; omega), hn, ih (fun y hy => h y (List.mem_cons_of_mem x hy))]
      rfl

theorem getD_map_range {α : Type} (f : Nat → α) {n i : Nat} (h : i < n) (d : α) : ((List.range n).map f).getD i d = f i := by
  simp [List.getD_eq_getElem?_getD, h]

/-- The elements of a tile, rows of 64. -/
def tileOf (f : Nat → Nat → Word) : List Word := ((List.range 64).map fun i => (List.range 64).map (f i)).flatten

theorem length_tileOf (f : Nat → Nat → Word) : (tileOf f).length = 4096 := by
  rw [tileOf, length_flatten_rows (n := 64)]
  · simp
  · simp

theorem getD_tileOf (f : Nat → Nat → Word) {i j : Nat} (hi : i < 64) (hj : j < 64) : (tileOf f).getD (64 * i + j) 0 = f i j := by
  rw [tileOf, getD_flatten_rows (n := 64) (by simp) i hj, getD_map_range _ hi, getD_map_range _ hj]

theorem tileRows_eq {z : List Word} (hz : z.length = 4096) :
    tileRows z = (List.range 64).map fun i => (List.range 64).map fun j => z.getD (64 * i + j) 0 := by
  refine List.map_congr_left fun i hi => List.ext_getElem ?_ fun j hj hj' => ?_
  · have := List.mem_range.1 hi
    simp
    omega
  · have := List.mem_range.1 hi
    have hj64 : j < 64 := by simpa using hj'
    have hlt : 64 * i + j < z.length := by omega
    simp [List.getD_eq_getElem?_getD, List.getElem?_eq_getElem hlt]

/-! ### A dense MMA -/

/-- The image of B: captured registers, or what the handle named at issue. -/
def mmaImageB (o : MmaOp) (c : Cmd) : List Byte := match o.b with | .regs v => imageOf c.regs v (fwBRegs c.word) | .handle _ => c.aux

/-- Element codes of A and of B of a dense command (06 R130). -/
def mmaCodeA (o : MmaOp) (c : Cmd) (i x : Nat) : Nat := imageElt (imageOf c.regs o.a (fwARegs c.word)) (fmtBits (fwA c.word)) (fwK c.word) i x
def mmaCodeB (o : MmaOp) (c : Cmd) (j x : Nat) : Nat := imageElt (mmaImageB o c) (fmtBits (fwB c.word)) (fwK c.word) j x

/-- The pair of scales of chunk `x` of a dense command for row `m` and column `n`, or none (06 R134). -/
def mmaScales (o : MmaOp) (c : Cmd) (m n x : Nat) : Option (Nat × Nat) :=
  if fwScale c.word = 1 then
    some (((match o.scl with | some v => imageOf c.regs v ((fwK c.word / 32)) | none => []).getD (m + 64 * x) 0).toNat,
      ((match o.scl with | some v => imageOf c.regs v ((fwK c.word / 32)) | none => []).getD (64 * (fwK c.word / 32) + n + 64 * x) 0).toNat)
  else none

/-- What accumulation starts from: the tile with ACC, else zeros. -/
def mmaStart (o : MmaOp) (old : List Word) : List Word := if o.acc then old else List.replicate 4096 0

theorem mmaScales_none {c : Cmd} (h : fwScale c.word ≠ 1) (o : MmaOp) (i j : Nat) : mmaScales o c i j = fun _ => none := by
  funext x
  simp [mmaScales, h]

theorem length_mmaStart {o : MmaOp} {old : List Word} (h : o.acc = true → old.length = 4096) : (mmaStart o old).length = 4096 := by
  unfold mmaStart
  split
  · exact h ‹_›
  · exact List.length_replicate ..

theorem getD_mmaStart (o : MmaOp) (old : List Word) (i : Nat) : (mmaStart o old).getD i 0 = if o.acc then old.getD i 0 else 0 := by
  unfold mmaStart
  split
  · rfl
  · exact List.getElem?_getD_replicate_default_eq ..

theorem eight_dvd_fwK (fw : Nat) : 8 ∣ fwK fw := by
  unfold fwK
  split <;> decide

theorem fwKc_dense {fw : Nat} (h : fwSpn fw = 0) : fwKc fw = fwK fw := by simp [fwKc, h]
theorem fwSpan_dense {fw : Nat} (h : fwSpn fw = 0) : fwSpan fw = fwK fw := by simp [fwSpan, h]
theorem fwBlocks_dense {fw : Nat} (h : fwSpn fw = 0) : fwBlocks fw = fwK fw / 32 := by rw [fwBlocks, fwSpan_dense h]

section Dense

variable {o : MmaOp} {c : Cmd} {old : List Word} (hmd : o.md = none) (hspn : fwSpn c.word = 0) (hfa : fmtOfCode (fwA c.word) ≠ .t2)
  (hstart : (mmaStart o old).length = 4096)

include hmd hspn hfa hstart

/-- In FP32 each element is accumulated over the chunks of its row of A and its column of B. -/
theorem mmaCompute_dense_fp (hacc : fwAcc c.word = 0) : (mmaCompute o c old).1 = tileOf fun i j =>
    BitVec.ofNat 32 (dotFp (isIntFmt (fmtOfCode (fwA c.word))) (mmaScales o c i j) ((mmaStart o old).getD (64 * i + j) 0).toNat
      (chunks32 (fwK c.word / 32) ((List.range (fwK c.word)).map fun x => unpackElt (fmtOfCode (fwA c.word)) (mmaCodeA o c i x)))
      (chunks32 (fwK c.word / 32) ((List.range (fwK c.word)).map fun x => unpackElt (fmtOfCode (fwB c.word)) (mmaCodeB o c j x)))).1 := by
  have htern : (fmtOfCode (fwA c.word) == .t2) = false := by simpa using hfa
  unfold mmaStart at hstart
  simp only [mmaCompute, hmd, htern, hacc, if_true, Bool.false_eq_true, if_false, fwKc_dense hspn, fwSpan_dense hspn, fwBlocks_dense hspn,
    imageRows_eq _ _ (eight_dvd_fwK _), tileRows_eq hstart, List.zip_map', ← List.map_prod_left_eq_zip, List.map_map, List.map_flatten,
    Function.comp_def, tileOf]
  rfl

/-- In I32 too. -/
theorem mmaCompute_dense_int (hacc : fwAcc c.word ≠ 0) : (mmaCompute o c old).1 = tileOf fun i j =>
    BitVec.ofNat 32 (dotInt (fwAcc c.word == 2) ((mmaStart o old).getD (64 * i + j) 0).toNat
      (chunks32 (fwK c.word / 32) ((List.range (fwK c.word)).map fun x => eltInt (fmtOfCode (fwA c.word)) (mmaCodeA o c i x)))
      (chunks32 (fwK c.word / 32) ((List.range (fwK c.word)).map fun x => eltInt (fmtOfCode (fwB c.word)) (mmaCodeB o c j x)))) := by
  have htern : (fmtOfCode (fwA c.word) == .t2) = false := by simpa using hfa
  unfold mmaStart at hstart
  simp only [mmaCompute, hmd, htern, hacc, Bool.false_eq_true, if_false, fwKc_dense hspn, fwSpan_dense hspn, fwBlocks_dense hspn,
    imageRows_eq _ _ (eight_dvd_fwK _), tileRows_eq hstart, List.zip_map', List.map_map, Function.comp_def, tileOf]
  rfl

theorem length_mmaCompute_dense : (mmaCompute o c old).1.length = 4096 := by
  by_cases hacc : fwAcc c.word = 0
  · rw [mmaCompute_dense_fp hmd hspn hfa hstart hacc, length_tileOf]
  · rw [mmaCompute_dense_int hmd hspn hfa hstart hacc, length_tileOf]

end Dense

/-! ### Sums in I32 -/

theorem chunks32_map_range {α : Type} (f : Nat → α) (q : Nat) :
    chunks32 q ((List.range (32 * q)).map f) = (List.range q).map fun j => (List.range 32).map fun i => f (32 * j + i) := by
  refine List.map_congr_left fun j hj => List.ext_getElem ?_ fun i hi hi' => ?_
  · have := List.mem_range.1 hj
    simp
    omega
  · simp

theorem sum_map_range_add (f : Nat → Int) (m n : Nat) :
    ((List.range (m + n)).map f).sum = ((List.range m).map f).sum + ((List.range n).map fun i => f (m + i)).sum := by
  rw [List.range_add, List.map_append, List.sum_append, List.map_map]
  rfl

theorem foldl_zipWith_mul (f g : Nat → Int) (l : List Nat) :
    (List.zipWith (· * ·) (l.map f) (l.map g)).foldl (· + ·) 0 = (l.map fun x => f x * g x).sum := by
  rw [List.zipWith_map, List.zipWith_self, ← List.sum_eq_foldl]

/-- The wrapping accumulation over all chunks adds the whole sum of the exact products. -/
theorem ofNat_dotInt_wrap (z : Nat) (f g : Nat → Int) (q : Nat) :
    BitVec.ofNat 32 (dotInt false z (chunks32 q ((List.range (32 * q)).map f)) (chunks32 q ((List.range (32 * q)).map g))) =
      BitVec.ofNat 32 z + BitVec.ofInt 32 ((List.range (32 * q)).map fun x => f x * g x).sum := by
  simp only [chunks32_map_range, dotInt, List.zip_map', List.foldl_map, foldl_zipWith_mul]
  induction q with
  | zero => simp
  | succ q ih =>
    rw [List.range_succ (n := q), List.foldl_append, List.foldl_cons, List.foldl_nil, ofNat_accInt_wrap, ih, Nat.mul_succ, sum_map_range_add,
      BitVec.ofInt_add, BitVec.add_assoc]

theorem thirtytwo_mul_fwK (fw : Nat) : 32 * (fwK fw / 32) = fwK fw := by
  unfold fwK
  split <;> rfl

end Sys2Proof.Machine
end

section
/-! SUPPORT. What ENGINE_COMMAND_COMPLETE leaves of a matrix command (06 R134, R135, R143, R144): MMA, MMAS and MMAT leave what they compute;
the statement about the matrix queue. -/

namespace Sys2Proof.Machine

/-- MMA, MMAS and MMAT leave what they compute of the tile as it was. -/
theorem State.matrixHead.mma {s : State} {k : Nat} {w : Wave} {c : Cmd} {r : List Cmd} (h : s.matrixHead k w c r) {o : MmaOp}
    (hi : c.ins = .mma o ∨ c.ins = .mmas o ∨ c.ins = .mmat o) (hg : c.gen ≠ 1) {what : List Word → Prop}
    (hlen : (mmaCompute o c ((s.core (coreOfKey k)).tile (s.phys w.team o.d))).1.length = 4096)
    (hwhat : what (mmaCompute o c ((s.core (coreOfKey k)).tile (s.phys w.team o.d))).1) : s.leavesTile k w c r (s.phys w.team o.d) what := by
  refine h.leaves (marks := c.batch ||| if o.acc then (s.core (coreOfKey k)).tileMarks (s.phys w.team o.d) else 0)
    (fl := (mmaCompute o c ((s.core (coreOfKey k)).tile (s.phys w.team o.d))).2) ?_ hlen hwhat
  rcases hi with hi | hi | hi <;> simp only [State.matrixDone, Cmd.wtile, hi, hg, if_false, Option.getD_some]

/-- Every element of a dense MMA in I32 is the old one, or zero, plus the sum of the exact products. -/
theorem getD_mmaCompute_wrap {o : MmaOp} {c : Cmd} {old : List Word} (hmd : o.md = none) (hspn : fwSpn c.word = 0)
    (hfa : fmtOfCode (fwA c.word) ≠ .t2) (hstart : (mmaStart o old).length = 4096) (hacc : fwAcc c.word = 1) {i j : Nat} (hi : i < 64)
    (hj : j < 64) : (mmaCompute o c old).1.getD (64 * i + j) 0 = BitVec.ofInt 32 ((if o.acc then old.getD (64 * i + j) 0 else 0).toInt +
      ((List.range (fwK c.word)).map fun x =>
        eltInt (fmtOfCode (fwA c.word)) (mmaCodeA o c i x) * eltInt (fmtOfCode (fwB c.word)) (mmaCodeB o c j x)).sum) := by
  have hsum := ofNat_dotInt_wrap ((mmaStart o old).getD (64 * i + j) 0).toNat (fun x => eltInt (fmtOfCode (fwA c.word)) (mmaCodeA o c i x))
    (fun x => eltInt (fmtOfCode (fwB c.word)) (mmaCodeB o c j x)) (fwK c.word / 32)
  rw [thirtytwo_mul_fwK] at hsum
  have hmode : (fwAcc c.word == 2) = false := by rw [hacc]; rfl
  rw [mmaCompute_dense_int hmd hspn hfa hstart (by omega), getD_tileOf _ hi hj, hmode, hsum, getD_mmaStart, BitVec.ofInt_add, BitVec.ofInt_toInt,
    BitVec.ofNat_toNat, BitVec.setWidth_eq]

/-- Every element of a dense MMA in FP32 without scales is accumulated chunk by chunk. -/
theorem getD_mmaCompute_fp {o : MmaOp} {c : Cmd} {old : List Word} (hmd : o.md = none) (hspn : fwSpn c.word = 0)
    (hfa : fmtOfCode (fwA c.word) ≠ .t2) (hstart : (mmaStart o old).length = 4096) (hacc : fwAcc c.word = 0) (hscale : fwScale c.word ≠ 1)
    {i j : Nat} (hi : i < 64) (hj : j < 64) : (mmaCompute o c old).1.getD (64 * i + j) 0 =
      BitVec.ofNat 32 (dotFp (isIntFmt (fmtOfCode (fwA c.word))) (fun _ => none) (if o.acc then old.getD (64 * i + j) 0 else 0).toNat
        (chunks32 (fwK c.word / 32) ((List.range (fwK c.word)).map fun x => unpackElt (fmtOfCode (fwA c.word)) (mmaCodeA o c i x)))
        (chunks32 (fwK c.word / 32) ((List.range (fwK c.word)).map fun x => unpackElt (fmtOfCode (fwB c.word)) (mmaCodeB o c j x)))).1 := by
  rw [mmaCompute_dense_fp hmd hspn hfa hstart hacc, getD_tileOf _ hi hj, mmaScales_none hscale, getD_mmaStart]

theorem matrixResults : MatrixResults := by
  intro s k w c r hw hq hs hop hck q tile completes
  have h : s.matrixHead k w c r := ⟨hw, hq, hs, hop, hck⟩
  have leaves : ∀ n what, s.leavesTile k w c r (s.phys w.team n) what → completes n what := fun _ _ hl => hl
  -- `completes` is used through `leaves` alone, so that unification need not look inside it.
  clear_value completes
  refine ⟨fun o hi => leaves _ _ (h.zclr hi), fun o hi hz => leaves _ _ (h.zld hi hz), fun o hi hd ha => ?_,
    fun o hi hg hmd hspn hfa hold => ?_, fun o hi hg hlen => ?_⟩
  · have hlen : (zaddCompute c.word ((s.core (coreOfKey k)).tile (s.phys w.team o.d))
        ((s.core (coreOfKey k)).tile (s.phys w.team o.a))).1.length = 4096 := by
      rw [length_zaddCompute, hd, ha, Nat.min_self]
    refine leaves _ _ (h.zadd hi hlen ⟨hlen, fun i hi => ?_⟩)
    have hget := getD_zaddCompute c.word (show i < _ from hd ▸ hi) (show i < _ from ha ▸ hi)
    refine ⟨fun hacc => ?_, fun hacc => ?_, fun hacc => ?_⟩
    · rw [hget, hacc]
      refine (ofNat_accInt_wrap _ _).trans ?_
      rw [sxNat_toNat, BitVec.ofInt_toInt, BitVec.ofNat_toNat, BitVec.setWidth_eq]
    · rw [hget, hacc]
      refine (ofNat_accInt_sat _ _).trans ?_
      rw [sxNat_toNat]
    · rw [hget, hacc]
      rfl
  · have hstart := length_mmaStart hold
    have hlen := length_mmaCompute_dense hmd hspn hfa hstart
    refine leaves _ _ (h.mma (.inl hi) hg hlen ⟨hlen, fun i j hi hj => ⟨fun hacc => ?_, fun hacc hscale => ?_⟩⟩)
    · exact getD_mmaCompute_wrap hmd hspn hfa hstart hacc hi hj
    · exact getD_mmaCompute_fp hmd hspn hfa hstart hacc hscale hi hj
  · exact leaves _ _ (h.mma (.inr hi) hg hlen rfl)

end Sys2Proof.Machine
end

section
/-! SUPPORT. Engine commands of the epilogue queue that complete (06 R144, R148, R149): writes of scratchpad rows, of register images and of the
units of a tensor where nobody monitors a line and no word is marked; the statement about the epilogue queue. -/

namespace Sys2Proof.Machine

/-! ### The epilogue queue -/

/-- ENGINE_COMMAND_COMPLETE takes the head off the epilogue queue of a wave; memory, S registers and predicates stay. -/
def State.leavesEpilogue (s : State) (k : Nat) (w : Wave) (r : List Cmd) (what : State → Wave → Prop) : Prop :=
  ∃ t w', exec (.engineCommandComplete k 1) s = .next t ∧ t.mem = s.mem ∧ t.wave? k = some w' ∧ w'.eq = r ∧ w'.mq = w.mq ∧ w'.sr = w.sr ∧
    w'.pr = w.pr ∧ what t w'

/-- A command at the head of the epilogue queue that has started, in a partition whose clock runs. -/
structure State.epilogueHead (s : State) (k : Nat) (w : Wave) (c : Cmd) (r : List Cmd) : Prop where
  wave : s.wave? k = some w
  queue : w.eq = c :: r
  started : c.started = true
  op : c.op ≠ 0
  clocked : s.clocked (partOfKey k) = true

/-- A command whose results `t0` and `w0` keep memory, the matrix queue, S registers and predicates leaves its teams, V registers and stores. -/
theorem State.epilogueHead.leaves {s : State} {k : Nat} {w : Wave} {c : Cmd} {r : List Cmd} (h : s.epilogueHead k w c r) {t0 : State} {w0 : Wave}
    {fl : Nat} {what : State → Wave → Prop} (hd : s.epilogueDone k w c = (t0, w0, fl)) (hmem : t0.mem = s.mem) (hmq : w0.mq = w.mq)
    (hsr : w0.sr = w.sr) (hpr : w0.pr = w.pr) (hwhat : ∀ t w', t.teams = t0.teams → w'.vr = w0.vr → w'.sb = w0.sb → what t w') :
    s.leavesEpilogue k w r what := by
  have hrun : exec (.engineCommandComplete k 1) s = .next ((t0.putWave k ((w0.putQueue 1 r).orFp fl)).donePart k c.op) := by
    change execEngineCommandComplete k 1 s = _
    simp [execEngineCommandComplete, h.wave, Wave.queue, h.queue, h.started, h.clocked, hd]
  rw [State.donePart_of_wave (State.wave?_putWave ..) h.op] at hrun
  refine ⟨_, _, hrun, hmem, State.wave?_putWave .., ?_, ?_, ?_, ?_, hwhat _ _ rfl ?_ ?_⟩
  · simp [Wave.putQueue]
  · simpa [Wave.putQueue] using hmq
  · simpa [Wave.putQueue] using hsr
  · simpa [Wave.putQueue] using hpr
  · simp [Wave.putQueue]
  · simp [Wave.putQueue]

/-! ### Scratchpad rows -/

theorem memCells_cellsAt (m : Memory) (a : Nat) (l : List Byte) : memCells m (cellsAt a l) = memPuts m a l := by
  induction l generalizing m a with
  | nil => rfl
  | cons b l ih => exact ih (memSet m a b) (a + 1)

/-- With nobody monitoring a line, nobody wakes. -/
theorem State.wakeIf_noMon {s : State} (h : s.mon = []) (f : Mon → Bool) : s.wakeIf f = s := by
  cases s
  cases h
  rfl

theorem State.scratchPut_noMon {s : State} {team : Nat} {tm : Team} (hmon : s.mon = []) (ht : s.team? team = some tm) (cs : List (Nat × Byte))
    (bad : Bool) : s.scratchPut team cs bad false = s.putTeam team (tm.putCells cs bad) := by
  simp only [State.scratchPut, State.modTeam, ht, Bool.false_eq_true, if_false]
  exact List.foldl_fixed' (f := fun s line => State.wakeScratch s team line) (fun _ => State.wakeIf_noMon (s := s.putTeam team _) hmon _) _

/-- Rows written to the scratchpad one after the other change its bytes, and neither memory nor a wave. -/
theorem State.foldl_scrWrite (rows : List Nat) (a : Nat → Nat) (b : Nat → List Byte) (bad : Nat → Bool) {s : State} {team : Nat} {tm : Team}
    (hmon : s.mon = []) (ht : s.team? team = some tm) :
    ∃ t t', rows.foldl (fun s m => s.scrWrite team (a m) (b m) (bad m)) s = t ∧ t.mem = s.mem ∧ t.waves = s.waves ∧ t.team? team = some t' ∧
      t'.scratch = rows.foldl (fun x m => memPuts x (a m) (b m)) tm.scratch := by
  induction rows generalizing s tm with
  | nil => exact ⟨s, tm, rfl, rfl, rfl, ht, rfl⟩
  | cons m rows ih =>
    simp only [List.foldl_cons]
    by_cases hb : b m = []
    · have hw : s.scrWrite team (a m) (b m) (bad m) = s := by simp [State.scrWrite, hb]
      rw [hw, hb]
      exact ih hmon ht
    · have hw : s.scrWrite team (a m) (b m) (bad m) = s.putTeam team (tm.putCells (cellsAt (a m) (b m)) (bad m)) := by
        simp [State.scrWrite, hb, State.scratchPut_noMon hmon ht]
      rw [hw, ← memCells_cellsAt]
      exact ih (s := s.putTeam team _) hmon (State.team?_putTeam ..)

/-- A ZST stores the rows of the tile it has read. -/
theorem State.epilogueHead.zst {s : State} {k : Nat} {w : Wave} {c : Cmd} {r : List Cmd} {tm : Team} (h : s.epilogueHead k w c r)
    (hmon : s.mon = []) (ht : s.team? w.team = some tm) {o : ZmemOp} (hi : c.ins = .zst o) :
    s.leavesEpilogue k w r fun t w' => w'.vr = w.vr ∧ ∃ t', t.team? w.team = some t' ∧ t'.scratch = (List.range 64).foldl
      (fun x m => memPuts x (c.addr.toNat + m * 16 * o.stride) ((tget [] c.regs m).map fun y => leBytes 4 y.toNat).flatten) tm.scratch := by
  obtain ⟨t0, t', hfold, hmem, hwaves, ht', hscr⟩ := State.foldl_scrWrite (List.range 64) (fun m => c.addr.toNat + m * 16 * o.stride)
    (fun m => ((tget [] c.regs m).map fun y => leBytes 4 y.toNat).flatten) (bitOf c.batch) hmon ht
  have hwave : t0.wave? k = some w := (congrArg (tfind · k) hwaves).trans h.wave
  have hd : s.epilogueDone k w c = (t0, w, 0) := by simp only [State.epilogueDone, hi, hfold, hwave, Option.getD_some]
  exact h.leaves hd hmem rfl rfl rfl fun t v hteams hvr _ => ⟨hvr, t', (congrArg (tfind · w.team) hteams).trans ht', hscr⟩

/-! ### Register images -/

theorem Wave.wrote_eq_with (w : Wave) (keys : List Nat) : w.wrote keys = { w with errs := (w.wrote keys).errs } := by
  unfold Wave.wrote
  split <;> rfl

/-- Writing V registers one after the other. -/
def Wave.putRegs (w : Wave) (v : Nat) (m : Nat → LaneMask) (f : Nat → Nat → Word) (rs : List Nat) : Wave :=
  rs.foldl (fun (w : Wave) r => w.putVm (v + r) (m r) (f r)) w

theorem Wave.putRegs_eq_with (w : Wave) (v : Nat) (m : Nat → LaneMask) (f : Nat → Nat → Word) (rs : List Nat) :
    w.putRegs v m f rs = { w with vr := (w.putRegs v m f rs).vr } := by
  induction rs generalizing w with
  | nil => rfl
  | cons x rs ih =>
    change (w.putVm (v + x) (m x) (f x)).putRegs v m f rs = { w with vr := ((w.putVm (v + x) (m x) (f x)).putRegs v m f rs).vr }
    rw [ih]
    rfl

/-- Each register is written at the lanes of its mask. -/
theorem Wave.v_putRegs (w : Wave) (v n : Nat) (m : Nat → LaneMask) (f : Nat → Nat → Word) (x : Nat) {l : Nat} (hl : l < 32) :
    (w.putRegs v m f (List.range n)).v x l = if v ≤ x ∧ x < v + n ∧ laneOf (m (x - v)) l = true then f (x - v) l else w.v x l := by
  induction n with
  | zero =>
    rw [if_neg (by omega)]
    rfl
  | succ n ih =>
    have hstep : w.putRegs v m f (List.range (n + 1)) = (w.putRegs v m f (List.range n)).putVm (v + n) (m n) (f n) := by
      simp only [Wave.putRegs, List.range_succ, List.foldl_append, List.foldl_cons, List.foldl_nil]
    rw [hstep, Wave.v_putVm_lane _ _ _ _ _ hl, ih]
    by_cases hx : x = v + n
    · subst hx
      simp
    · have hiff : v ≤ x ∧ x < v + (n + 1) ↔ v ≤ x ∧ x < v + n := by omega
      simp only [hx, false_and, if_false, ← and_assoc, hiff]

/-- A word of an image for lane `l` of its register `r`, and whether it is marked. -/
def imageWord (words : List (Word × Bool)) (r l : Nat) : Word × Bool := words.getD (32 * r + l) (0, false)

/-- The V registers that an image makes. -/
def Wave.imageRegs (w : Wave) (v : Nat) (words : List (Word × Bool)) : Wave :=
  w.putRegs v (fun r => maskWhere fun l => !(imageWord words r l).2) (fun r l => (imageWord words r l).1) (List.range (words.length / 32))

/-- An image is written to V registers, and the marks of the words change with it. -/
theorem Wave.putImage_eq_with (w : Wave) (v : Nat) (words : List (Word × Bool)) :
    w.putImage v words = { w with vr := (w.imageRegs v words).vr, errs := (w.putImage v words).errs } := by
  obtain ⟨keys, himage⟩ : ∃ keys, w.putImage v words = { (w.imageRegs v words).wrote keys with errs := (w.putImage v words).errs } := ⟨_, rfl⟩
  refine himage.trans ?_
  rw [Wave.wrote_eq_with, Wave.imageRegs, Wave.putRegs_eq_with]

@[simp] theorem Wave.putImage_sr (w : Wave) (v : Nat) (words : List (Word × Bool)) : (w.putImage v words).sr = w.sr := by rw [Wave.putImage_eq_with]
@[simp] theorem Wave.putImage_pr (w : Wave) (v : Nat) (words : List (Word × Bool)) : (w.putImage v words).pr = w.pr := by rw [Wave.putImage_eq_with]
@[simp] theorem Wave.putImage_mq (w : Wave) (v : Nat) (words : List (Word × Bool)) : (w.putImage v words).mq = w.mq := by rw [Wave.putImage_eq_with]

/-- Where no word is marked, the registers of an image hold its words in order, and no other register changes. -/
theorem Wave.v_putImage (w : Wave) (v : Nat) {words : List (Word × Bool)} (hsound : ∀ p ∈ words, p.2 = false) (x : Nat) {l : Nat}
    (hl : l < 32) : (w.putImage v words).v x l =
      if v ≤ x ∧ x < v + words.length / 32 then (words.getD (32 * (x - v) + l) (0, false)).1 else w.v x l := by
  have hword : ∀ r l, (imageWord words r l).2 = false := fun r l => by
    rw [imageWord, List.getD_eq_getElem?_getD]
    cases hi : words[32 * r + l]? with
    | none => rfl
    | some p => exact hsound p (List.mem_of_getElem? hi)
  have hv : (w.putImage v words).v x l = (w.imageRegs v words).v x l := by
    rw [Wave.putImage_eq_with]
    rfl
  rw [hv, Wave.imageRegs, Wave.v_putRegs _ _ _ _ _ _ hl]
  simp only [laneOf_maskWhere _ hl, hword, Bool.not_false, and_true]
  rfl

/-- `n` registers from `v` on hold some words, one a lane, and every other V register is as before. -/
def Wave.writesRegs (w w' : Wave) (v n : Nat) (words : Nat → Word) : Prop :=
  (∀ i, i < 32 * n → w'.v (v + i / 32) (i % 32) = words i) ∧ ∀ x l, l < 32 → x < v ∨ v + n ≤ x → w'.v x l = w.v x l

theorem Wave.writesRegs_putImage {w w' : Wave} {v n : Nat} {words : List (Word × Bool)} {f : Nat → Word} (hw : w'.vr = (w.putImage v words).vr)
    (hlen : words.length = 32 * n) (hf : ∀ i, i < 32 * n → words.getD i (0, false) = (f i, false)) : w.writesRegs w' v n f := by
  have hv : ∀ x l, w'.v x l = (w.putImage v words).v x l := fun x l => by rw [Wave.v, hw, Wave.v]
  have hsound : ∀ p ∈ words, p.2 = false := fun p hp => by
    obtain ⟨i, hi, rfl⟩ := List.getElem_of_mem hp
    have := hf i (hlen ▸ hi)
    rw [List.getD_eq_getElem _ _ hi] at this
    rw [this]
  have hn : words.length / 32 = n := by omega
  refine ⟨fun i hi => ?_, fun x l hl hx => ?_⟩
  · have hplace : 32 * (v + i / 32 - v) + i % 32 = i := by omega
    rw [hv, Wave.v_putImage w v hsound _ (Nat.mod_lt i (by decide)), hn, if_pos (by omega), hplace, hf i hi]
  · rw [hv, Wave.v_putImage w v hsound _ hl, hn, if_neg (by omega)]

/-- A command that writes an image of sound words leaves them in its V registers. -/
theorem State.epilogueHead.image {s : State} {k : Nat} {w : Wave} {c : Cmd} {r : List Cmd} (h : s.epilogueHead k w c r) {t0 : State}
    {v n fl : Nat} {words : List (Word × Bool)} {f : Nat → Word} (hd : s.epilogueDone k w c = (t0, w.putImage v words, fl))
    (hmem : t0.mem = s.mem) (hlen : words.length = 32 * n) (hf : ∀ i, i < 32 * n → words.getD i (0, false) = (f i, false)) :
    s.leavesEpilogue k w r fun _ w' => w.writesRegs w' v n f :=
  h.leaves hd hmem (Wave.putImage_mq ..) (Wave.putImage_sr ..) (Wave.putImage_pr ..) fun _ _ _ hvr _ => Wave.writesRegs_putImage hvr hlen hf

theorem bitOf_zero (i : Nat) : bitOf 0 i = false := by simp [bitOf]

/-- A ZMOV writes eight rows of the tile it has read to 16 V registers. -/
theorem State.epilogueHead.zmov {s : State} {k : Nat} {w : Wave} {c : Cmd} {r : List Cmd} (h : s.epilogueHead k w c r) (hb : c.batch = 0)
    (hrows : c.fullRows) {o : ZmovOp} (hi : c.ins = .zmov o) (hblk : o.blk < 8) :
    s.leavesEpilogue k w r fun _ w' => w.writesRegs w' o.d 16 fun i => (tget [] c.regs (8 * o.blk + i / 64)).getD (i % 64) 0 := by
  have hlens : ∀ x ∈ (List.range 8).map fun i => (tget [] c.regs (8 * o.blk + i)).map fun x => (x, bitOf c.batch (8 * o.blk + i)),
      x.length = 64 := fun x hx => by
    obtain ⟨i, hi, rfl⟩ := List.mem_map.1 hx
    have := List.mem_range.1 hi
    rw [List.length_map]
    exact hrows _ (by omega)
  refine h.image (by simp only [State.epilogueDone, hi]; rfl) rfl ?_ fun i hi => ?_
  · rw [length_flatten_rows hlens, List.length_map, List.length_range]
  · have hplace : 64 * (i / 64) + i % 64 = i := Nat.div_add_mod i 64
    rw [← hplace, getD_flatten_rows hlens _ (Nat.mod_lt i (by decide)), hplace, getD_map_range _ (by omega), hb, bitOf_zero]
    exact List.getD_map (f := fun x => (x, false)) ..

/-! ### What an EPI makes of its rows (06 R148) -/

/-- Element (m, n) of an EPI with its exceptions. -/
def Cmd.result (c : Cmd) (core : Core) (draw m n : Nat) : FRes :=
  epiElt c.blk ((biasList c.blk c.aux).getD n (exInt 0)) (c.actTable core) c.rngLo c.rngHi (draw + 64 * m + n) ((tget [] c.regs m).getD n 0) m n

theorem eq_map_getD {α : Type} {l : List α} {n : Nat} (h : l.length = n) (d : α) : l = (List.range n).map fun j => l.getD j d := by
  refine List.ext_getElem (by simpa using h) fun j hj hj' => ?_
  simp only [List.getElem_map, List.getElem_range, List.getD_eq_getElem _ _ hj]

theorem epiRows_eq (c : Cmd) (core : Core) (draw : Nat) {rows : List Nat} (hrows : ∀ m ∈ rows, (tget [] c.regs m).length = 64) :
    epiRows c (c.actTable core) draw rows = rows.map fun m => (m, (List.range 64).map (c.result core draw m)) := by
  unfold epiRows
  refine List.map_congr_left fun m hm => ?_
  have hbias : (biasList c.blk c.aux).length = 64 := by simp [biasList]
  have hzip : List.zip (biasList c.blk c.aux) (tget [] c.regs m) =
      (List.range 64).map fun j => ((biasList c.blk c.aux).getD j (exInt 0), (tget [] c.regs m).getD j 0) := by
    rw [← List.zip_map', ← eq_map_getD hbias, ← eq_map_getD (hrows m hm)]
  rw [hzip, ← List.map_prod_left_eq_zip, List.map_map]
  rfl

theorem fmtBits_even (code : Nat) : 2 ∣ fmtBits code ∧ 0 < fmtBits code := by
  unfold fmtBits
  cases fmtOfCode code <;> decide

/-- An EPI with DEST 0 writes the packed elements of eight rows to its V registers. -/
theorem State.epilogueHead.epiRegs {s : State} {k : Nat} {w : Wave} {c : Cmd} {r : List Cmd} (h : s.epilogueHead k w c r) (hb : c.batch = 0)
    (hrows : c.fullRows) {o : EpiOp} {v : Nat} (hi : c.ins = .epi o) (hv : o.b = some v) (hblk : o.blk < 8) :
    s.leavesEpilogue k w r fun _ w' => w.writesRegs w' v (fmtBits (epiOfmt c.blk) / 2) fun i => BitVec.ofNat 32 (bitsOf
      (packElts (fmtBits (epiOfmt c.blk)) ((List.range 64).map fun j =>
        c.element (s.core (coreOfKey k)) s.freeCtr (8 * o.blk + i / (2 * fmtBits (epiOfmt c.blk))) j))
      (32 * (i % (2 * fmtBits (epiOfmt c.blk)))) 32) := by
  obtain ⟨heven, hpos⟩ := fmtBits_even (epiOfmt c.blk)
  have hd : ∃ t0 fl, s.epilogueDone k w c = (t0, w.putImage v ((List.range 8).map fun i => rowWords (packElts (fmtBits (epiOfmt c.blk))
      ((List.range 64).map fun j => c.element (s.core (coreOfKey k)) s.freeCtr (8 * o.blk + i) j)) (8 * fmtBits (epiOfmt c.blk)) false).flatten, fl) ∧
      t0.mem = s.mem := by
    have hsel : ∀ m ∈ (List.range 8).map fun i => 8 * o.blk + i, (tget [] c.regs m).length = 64 := fun m hm => by
      obtain ⟨i, hi, rfl⟩ := List.mem_map.1 hm
      have := List.mem_range.1 hi
      exact hrows _ (by omega)
    simp only [State.epilogueDone, hi, hv, epiRows_eq c _ _ hsel, hb, bitOf_zero, List.map_map, Function.comp_def]
    exact ⟨_, _, rfl, by split <;> rfl⟩
  obtain ⟨t0, fl, hd, hmem⟩ := hd
  have hlens : ∀ x ∈ (List.range 8).map fun i => rowWords (packElts (fmtBits (epiOfmt c.blk))
      ((List.range 64).map fun j => c.element (s.core (coreOfKey k)) s.freeCtr (8 * o.blk + i) j)) (8 * fmtBits (epiOfmt c.blk)) false,
      x.length = 2 * fmtBits (epiOfmt c.blk) := fun x hx => by
    obtain ⟨i, -, rfl⟩ := List.mem_map.1 hx
    simp only [rowWords, List.length_map, List.length_range]
    omega
  refine h.image hd hmem ?_ fun i hi => ?_
  · rw [length_flatten_rows hlens, List.length_map, List.length_range]
    omega
  · have hplace := Nat.div_add_mod i (2 * fmtBits (epiOfmt c.blk))
    have hmod : i % (2 * fmtBits (epiOfmt c.blk)) < 2 * fmtBits (epiOfmt c.blk) := Nat.mod_lt i (by omega)
    have hrow : i / (2 * fmtBits (epiOfmt c.blk)) < 8 := Nat.div_lt_of_lt_mul (by omega)
    conv => lhs; rw [← hplace]
    rw [getD_flatten_rows hlens _ hmod, getD_map_range _ hrow, rowWords, getD_map_range _ (by omega)]

end Sys2Proof.Machine
end

section
/-! SUPPORT. An EPI that writes whole units of a tensor (06 R149(b), 18 R348): the entries of its units with their data, sectors taken together, and
the wave's store buffer once they have joined it; the statement about the epilogue queue and the obligation. -/

namespace Sys2Proof.Machine

/-! ### Entries -/

/-- Taking sectors together changes which bytes an entry holds and its mark, nothing else. -/
theorem mem_mergeSectors {es : List Entry} {e : Entry} (h : e ∈ mergeSectors es) : ∃ e0 ∈ es, e = { e0 with cells := e.cells, bad := e.bad } := by
  have hwhole : ∀ (scr : Bool) (ks : List Nat), e ∈ (ks.map (wholeSector es scr)).flatten →
      ∃ e0 ∈ es, e = { e0 with cells := e.cells, bad := e.bad } := fun scr ks he => by
    obtain ⟨l, hl, hel⟩ := List.mem_flatten.1 he
    obtain ⟨n, -, rfl⟩ := List.mem_map.1 hl
    unfold wholeSector at hel
    split at hel
    · cases hel
    · rename_i e0 hlast
      rw [List.mem_singleton.1 hel]
      exact ⟨e0, List.mem_of_mem_filter (List.mem_of_getLast? hlast), rfl⟩
  unfold mergeSectors at h
  simp only at h
  split at h
  · exact ⟨e, h, rfl⟩
  · rcases List.mem_append.1 h with h | h
    · rcases List.mem_append.1 h with h | h
      · obtain ⟨e0, he0, rfl⟩ := List.mem_map.1 (List.mem_of_mem_filter h)
        exact ⟨e0, he0, rfl⟩
      · exact hwhole false _ h
    · exact hwhole true _ h

/-- A store of TEAM scope to DEVICE memory by a wave (09 R206). -/
def Entry.ofWave (e : Entry) (k : Nat) : Prop := e.kind = 2 ∧ e.scope = 0 ∧ e.wave = k

theorem ofWave_mergeSectors {es : List Entry} {k : Nat} (h : ∀ e ∈ es, e.ofWave k) : ∀ e ∈ mergeSectors es, e.ofWave k := fun e he => by
  obtain ⟨e0, he0, heq⟩ := mem_mergeSectors he
  rw [heq]
  exact h e0 he0

/-- Such stores of an engine join their wave's store buffer in order. -/
theorem State.foldl_engineStore {es : List Entry} {k team : Nat} (hes : ∀ e ∈ es, e.ofWave k) {s : State} {w : Wave}
    (hreplay : s.replaying team = false) (hw : s.wave? k = some w) :
    ∃ t, es.foldl (fun (s : State) e => s.engineStore team e) s = t ∧ t.mem = s.mem ∧ t.teams = s.teams ∧
      t.wave? k = some { w with sb := w.sb ++ es.map SItem.store } := by
  induction es generalizing s w with
  | nil => exact ⟨s, rfl, rfl, rfl, by rw [hw, List.map_nil, List.append_nil]⟩
  | cons e es ih =>
    obtain ⟨hkind, hscope, hwave⟩ := hes e List.mem_cons_self
    have hstep : s.engineStore team e = s.putWave k { w with sb := w.sb ++ [.store e] } := by
      simp [State.engineStore, hkind, hscope, hwave, hreplay, State.modWave, hw]
    obtain ⟨t, hfold, hmem, hteams, ht⟩ := ih (fun e he => hes e (List.mem_cons_of_mem _ he)) (s := s.putWave k _) hreplay (State.wave?_putWave ..)
    refine ⟨t, ?_, hmem, hteams, ?_⟩
    · rw [List.foldl_cons, hstep, hfold]
    · rw [ht, List.map_cons, List.append_assoc, List.singleton_append]

/-! ### Units of a tensor -/

/-- The bytes of a unit that an EPI writes whole. -/
def Cmd.unitData (c : Cmd) (core : Core) (draw n : Nat) (x : EOut) : List Byte :=
  leBytes (unitBytes n) (packElts n ((List.range (packUnit n)).map fun i => c.element core draw x.m (x.n + i)))

/-- The entries of a unit with their data. -/
def Cmd.unitEntries (c : Cmd) (core : Core) (draw k n : Nat) (x : EOut) : List Entry :=
  let b := c.unitData core draw n x
  x.es.map fun e => { e with wave := k, core := coreOfKey k, cells := e.cells.map fun p => (p.1, b.getD (x.pas.idxOf p.1) 0), bad := false }

/-- A unit in range, of TEAM scope in DEVICE memory, whose elements are all of one row of the tile. -/
def EOut.whole (x : EOut) (n : Nat) : Prop := x.cnt = packUnit n ∧ x.m < 64 ∧ x.n + packUnit n ≤ 64 ∧ ∀ e ∈ x.es, e.kind = 2 ∧ e.scope = 0

theorem tfind_map_self {α : Type} (f : Nat → α) {l : List Nat} {k : Nat} (h : k ∈ l) : tfind (l.map fun m => (m, f m)) k = some (f k) := by
  induction l with
  | nil => cases h
  | cons m l ih =>
    simp only [List.map_cons, tfind]
    split
    · subst_vars
      rfl
    · exact ih ((List.mem_cons.1 h).resolve_left ‹_›)

theorem State.epiEntries_whole {s : State} {k : Nat} {w : Wave} {c : Cmd} {core : Core} {draw n : Nat} {x : EOut} (h : x.whole n) :
    s.epiEntries k w n ((List.range 64).map fun m => (m, (List.range 64).map (c.result core draw m))) 0 x = c.unitEntries core draw k n x := by
  obtain ⟨hcnt, hm, hn, -⟩ := h
  have hrow : tget [] ((List.range 64).map fun m => (m, (List.range 64).map (c.result core draw m))) x.m =
      (List.range 64).map (c.result core draw x.m) := by
    rw [tget, tfind_map_self _ (List.mem_range.2 hm), Option.getD_some]
  have helts : ((List.range (packUnit n)).map fun i => ((((List.range 64).map (c.result core draw x.m))[x.n + i]?).map (·.bits)).getD 0) =
      (List.range (packUnit n)).map fun i => c.element core draw x.m (x.n + i) := List.map_congr_left fun i hi => by
    have := List.mem_range.1 hi
    rw [List.getElem?_map, List.getElem?_range (by omega)]
    rfl
  simp only [State.epiEntries, hrow, helts, hcnt, if_true, bitOf_zero]
  rfl

/-- Whole units in DEVICE memory are none that a home across a link refuses. -/
theorem any_far_whole {outs : List EOut} {n : Nat} (h : ∀ x ∈ outs, x.whole n) :
    (outs.any fun x => x.es.any fun e => e.kind == 4 || e.kind == 5) = false := by
  rw [List.any_eq_false]
  intro x hx hfar
  obtain ⟨e, he, hkind⟩ := List.any_eq_true.1 hfar
  obtain ⟨-, -, -, hes⟩ := h x hx
  simp [(hes e he).1] at hkind

/-- No line is read for a unit that is written whole. -/
theorem State.foldl_epiRead_whole {outs : List EOut} {n : Nat} (h : ∀ x ∈ outs, x.whole n) (s : State) (team : Nat) :
    outs.foldl (fun (s : State) x => s.epiRead team n x) s = s := by
  induction outs with
  | nil => rfl
  | cons x outs ih =>
    have hx : s.epiRead team n x = s := by simp [State.epiRead, (h x List.mem_cons_self).1]
    rw [List.foldl_cons, hx, ih fun y hy => h y (List.mem_cons_of_mem _ hy)]

theorem ofWave_unitEntries {outs : List EOut} {n : Nat} (h : ∀ x ∈ outs, x.whole n) (c : Cmd) (core : Core) (draw k : Nat) :
    ∀ e ∈ (outs.map (c.unitEntries core draw k n)).flatten, e.ofWave k := fun e he => by
  obtain ⟨l, hl, hel⟩ := List.mem_flatten.1 he
  obtain ⟨x, hx, rfl⟩ := List.mem_map.1 hl
  obtain ⟨e0, he0, rfl⟩ := List.mem_map.1 hel
  obtain ⟨-, -, -, hes⟩ := h x hx
  exact ⟨(hes e0 he0).1, (hes e0 he0).2, rfl⟩

/-- An EPI that writes whole units leaves their entries in its wave's store buffer. -/
theorem State.epiTensorDone_whole {s : State} {k : Nat} {w : Wave} {c : Cmd} {tm : Team} {core : Core} {draw n : Nat} (hw : s.wave? k = some w)
    (hb : c.batch = 0) (ht : s.team? w.team = some tm) (haudit : tm.audit = false) (hreplay : tm.replay = none)
    (houts : ∀ x ∈ c.outs, x.whole n) :
    ∃ t, s.epiTensorDone k w c n ((List.range 64).map fun m => (m, (List.range 64).map (c.result core draw m))) = t ∧ t.mem = s.mem ∧
      t.wave? k = some { w with sb := w.sb ++ (mergeSectors (c.outs.map (c.unitEntries core draw k n)).flatten).map SItem.store } := by
  have hentries : c.outs.map (s.epiEntries k w n ((List.range 64).map fun m => (m, (List.range 64).map (c.result core draw m))) 0) =
      c.outs.map (c.unitEntries core draw k n) := List.map_congr_left fun x hx => State.epiEntries_whole (houts x hx)
  have hnoreplay : s.replaying w.team = false := by simp [State.replaying, ht, hreplay]
  obtain ⟨t, hfold, hmem, hteams, hwave⟩ :=
    State.foldl_engineStore (ofWave_mergeSectors (ofWave_unitEntries houts c core draw k)) hnoreplay hw
  have hsign : ∀ kind sel wr, t.signWritten w.team kind sel wr = t := fun kind sel wr => by
    have hteam : t.team? w.team = some tm := (congrArg (tfind · w.team) hteams).trans ht
    simp [State.signWritten, hteam, haudit]
  refine ⟨t, ?_, hmem, hwave⟩
  simp only [State.epiTensorDone, any_far_whole houts, Bool.and_false, Bool.false_eq_true, if_false, Bool.false_and, Bool.not_false,
    List.filter_true, hb, State.foldl_epiRead_whole houts, hentries, hfold, hsign]
  split <;> rfl

/-- An EPI with DEST 1 that writes whole units. -/
theorem State.epilogueHead.epiTensor {s : State} {k : Nat} {w : Wave} {c : Cmd} {r : List Cmd} {tm : Team} (h : s.epilogueHead k w c r)
    (hb : c.batch = 0) (ht : s.team? w.team = some tm) (hrows : c.fullRows) {o : EpiOp} (hi : c.ins = .epi o) (hv : o.b = none)
    (haudit : tm.audit = false) (hreplay : tm.replay = none) (houts : ∀ x ∈ c.outs, x.whole (fmtBits (epiOfmt c.blk))) :
    s.leavesEpilogue k w r fun _ w' => w'.vr = w.vr ∧ w'.sb = w.sb ++ (mergeSectors (c.outs.map
      (c.unitEntries (s.core (coreOfKey k)) s.freeCtr k (fmtBits (epiOfmt c.blk)))).flatten).map SItem.store := by
  have hdraws : ∃ s1, (if epiAct c.blk = 2 then { s with freeCtr := s.freeCtr + 4096 } else s) = s1 ∧ s1.mem = s.mem ∧ s1.waves = s.waves ∧
      s1.teams = s.teams := ⟨_, rfl, by split <;> rfl, by split <;> rfl, by split <;> rfl⟩
  obtain ⟨s1, hs1, hmem1, hwaves1, hteams1⟩ := hdraws
  obtain ⟨t, hdone, hmem, hwave⟩ := State.epiTensorDone_whole (core := s.core (coreOfKey k)) (draw := s.freeCtr)
    ((congrArg (tfind · k) hwaves1).trans h.wave) hb ((congrArg (tfind · w.team) hteams1).trans ht) haudit hreplay houts
  have hd : ∃ fl, s.epilogueDone k w c = (t, { w with sb := w.sb ++ (mergeSectors (c.outs.map
      (c.unitEntries (s.core (coreOfKey k)) s.freeCtr k (fmtBits (epiOfmt c.blk)))).flatten).map SItem.store }, fl) := by
    have hsel : ∀ m ∈ List.range 64, (tget [] c.regs m).length = 64 := fun m hm => hrows m (List.mem_range.1 hm)
    simp only [State.epilogueDone, hi, hv, epiRows_eq c _ _ hsel, hs1, hdone, hwave, Option.getD_some]
    exact ⟨_, rfl⟩
  obtain ⟨fl, hd⟩ := hd
  exact h.leaves hd (hmem.trans hmem1) rfl rfl rfl fun _ _ _ hvr hsb => ⟨hvr, hsb⟩

/-! ### The statements -/

theorem epilogueResults : EpilogueResults := by
  intro s k w c r tm hw hq hs hop hb hck ht hmon core row completes writes hrows
  have h : s.epilogueHead k w c r := ⟨hw, hq, hs, hop, hck⟩
  refine ⟨fun o hi => h.zst hmon ht hi, fun o hi hblk => h.zmov hb hrows hi hblk, fun o v hi hv hblk => h.epiRegs hb hrows hi hv hblk,
    fun o hi hv haudit hreplay houts => h.epiTensor hb ht hrows hi hv haudit hreplay houts⟩

/-- Settles O48: each command of the matrix queue by what its tile reads as afterwards, each of the epilogue queue by the rows, the registers
or the store entries that it leaves. -/
theorem engineResults : Obligations.EngineResults := ⟨matrixResults, epilogueResults⟩

end Sys2Proof.Machine
end
